-- ==== Sys2Proof/Word.lean ====
section
/-! DEFINITION. Word.lean: the word types of the engine (00_scope.md R3 to R5). -/

namespace Sys2Proof

/-- One byte of memory (R4). -/
abbrev Byte := BitVec 8

/-- A control-port register or memory word (R5). -/
abbrev Word := BitVec 32

/-- A keyed table as plain data: the first pair of a key holds its value, a missing key reads the table's default. -/
abbrev AMap (κ α : Type) := List (κ × α)

end Sys2Proof
end

