-- ==== Sys2Proof/Config.lean ====
section
/-! DEFINITION. Config.lean: constants that the spec fixes for every engine, and the free values: constants with no
body for what the spec leaves open. Nothing can prove a value of one of them. -/

namespace Sys2Proof.Config

/-- Result of FP0's re-fit of a thermal parameter before the bounds of R554 (the least-squares details are not in the
spec). The argument is the count of free values drawn so far. FREE VALUE, assumptions/10. -/
opaque freeFit : Nat → Word

/-- The estimator's POWER, DEMAND and DEMAND_T in units of 1/16 W (text before R551: per-event energies set at
manufacture). The argument is the count of free values drawn so far. FREE VALUES, assumptions/12. -/
opaque freePower : Nat → Nat
opaque freeDemand : Nat → Nat
opaque freeDemandT : Nat → Nat

/-- A register of memory after the SRAM self-test of TEST (R476 names no result). FREE VALUE, assumptions/13. -/
opaque freeMbist : Nat → Word

/-- A byte that the spec leaves open: TEMP_MAX with no valid sensor (Table 14-8), TRIP_C for a TJ_LIMIT that is no whole
degree (text after R555), the payload of a per-layer summary (R192 text). FREE VALUE, assumptions/14. -/
opaque freeByte : Nat → Byte

/-- A word that the spec leaves open: the address of a checkpoint graph's header in trace point 0x0003, the stage temperatures
after a return with no valid sensor (R553), the trace point of a per-layer summary. FREE VALUE, assumptions/15. -/
opaque freeWord : Nat → Word

/-- Row pitch of a scale-gradient factor plane in units of 64 bytes, and of the row records behind it in units of 8, as a
weight-gradient task finds them in a graph whose records hold no update of the tensor (R193, R195, R574), by codes per row. FREE
VALUES, assumptions/16. -/
opaque freeFactorPitch : Nat → Nat
opaque freeCodePitch : Nat → Nat

/-- Combs built (R11). -/
def combs : Nat := 50
/-- Most combs enabled at once (R11). -/
def maxEnabled : Nat := 48
/-- Link ports (R22). -/
def ports : Nat := 18
/-- Slots of one comb's operand slot memory (R258). -/
def poolSlots : Nat := 64
/-- Lines of one 32 KiB slot (R262). -/
def slotLines : Nat := 512
/-- Blocks of one comb's brood buffer (R201). -/
def broodBlocks : Nat := 768
/-- Entries of a comb's directory of resident regions (R201). -/
def broodDirectory : Nat := 256
/-- Lines of one activation store (R223). -/
def actLines : Nat := 16384
/-- Entries of the posted-write queue (R442). -/
def postedDepth : Nat := 32
/-- Messages of the response ring (Mailboxes, R508 text). -/
def ringMessages : Nat := 256
/-- Free entries FP3 needs before it takes a command (R510). -/
def intakeRoom : Nat := 9
/-- Submitted graphs held by FP1 (R293). -/
def graphQueue : Nat := 8
/-- Descriptor batches that a comb forager's cache holds (R250). -/
def combBatches : Nat := 4
/-- Resident task records (R303). -/
def windowTasks : Nat := 4096
/-- Entries of a handle queue (R276). -/
def handleQueue : Nat := 64
/-- Lines of a stream's 4 KiB index buffer (R254). -/
def indexLines : Nat := 64
/-- Line requests that the light path has outstanding at most (R256). -/
def lightLines : Nat := 4
/-- Records of the log shadow (R524). -/
def logShadow : Nat := 16384
/-- Active buckets (R383, R385). -/
def activeBuckets : Nat := 64
/-- Sequenced flits a sender holds (R374). -/
def resendWindow : Nat := 256
/-- Hub cycles in the 1 ms check window (R412). -/
def checkWindow : Nat := 1250000
/-- Park records of a comb forager and of the hub forager (R290). -/
def combParks : Nat := 8
def hubParks : Nat := 16

end Sys2Proof.Config
end

