-- ==== Sys2Proof/Syntax.lean ====
section
/-! DEFINITION. Syntax.lean: the commands of spec/opcode_table.json, one constructor a row, with their operands. The
table gives no operand bits; each operand is what the pins, the partner or the memory deliver in that step. -/

namespace Sys2Proof

/-- Comb index (Table 00-4). -/
abbrev CombId := Fin 50
/-- Frame index within a comb (Table 00-4). -/
abbrev FrameId := Fin 4
/-- Link port (Table 00-4). -/
abbrev PortId := Fin 18
/-- Firmware processor FP0 to FP3. -/
abbrev ProcId := Fin 4
/-- Memory-port channel (R449). -/
abbrev ChanId := Fin 16
/-- Island number of Table 16-5: 0 to 49 comb, 50 hub, 51 to 53 link groups, 54 capping unit, 55 firmware cluster, 56 always-on. -/
abbrev IslandId := Fin 57
/-- Thermal sensor (R474 text). -/
abbrev SensorId := Fin 64

/-- A 64-byte line as the memory port returns it, with its poison bit (R416, R449) and the number of times that its fabric check has
failed: after the first time it is requested once more, after the second it lands poisoned (R405). -/
structure MemLine where
  addr : Nat
  data : List Byte
  poison : Bool
  tries : Nat := 0
  deriving DecidableEq, Repr, Inhabited

/-- Where a register write comes from (R448): the head of the posted-write queue, or a firmware processor. -/
inductive WriteSrc where
  | posted
  | firmware (value : Word)
  deriving DecidableEq, Repr, Inhabited

/-- An access to UPD_COEF_DATA (R575). -/
inductive CoefAccess where
  | portRead
  | portWrite (value : Word)
  | fwRead
  | fwWrite (value : Word)
  deriving DecidableEq, Repr, Inhabited

/-- Status of a memory response (Table 14-4). -/
inductive RespStatus where
  | ok
  | fault
  | check
  deriving DecidableEq, Repr, Inhabited

/-- One line of a read response: data, poison bit and fabric check (Table 14-4). -/
structure RespLine where
  data : List Byte
  poison : Bool
  check : Word
  deriving DecidableEq, Repr, Inhabited

/-- A 276-byte flit (R372, Table 11-4) by its header fields. -/
structure Flit where
  tag : BitVec 16
  offset : BitVec 32
  hopRank : Byte
  kind : Byte
  step : Word
  attempt : Byte
  group : Byte
  lseq : BitVec 16
  payload : List Byte
  crc : Word
  deriving DecidableEq, Repr, Inhabited

/-- A CAPS payload (Table 11-3). -/
structure Caps where
  maxVer : Byte
  verMask : Byte
  features : Byte
  rxCredits : BitVec 16
  port : Byte
  role : Byte
  deviceId : BitVec 64
  deriving DecidableEq, Repr, Inhabited

/-- Where a reduction control message comes from: a link port, or this device itself (a root that is the leader). -/
inductive MsgSrc where
  | port (p : PortId) (f : Flit)
  | own
  deriving DecidableEq, Repr, Inhabited

/-- One fuse word as the array delivers it (R484). -/
inductive FuseRead where
  | good (w : Word)
  | corrected (w : Word)
  | uncorrectable
  deriving DecidableEq, Repr, Inhabited

/-- What the board and the fuse array deliver during a cold start (R483 to R495). `testAt` is a TEST_ENTER requested in
FUSE_LOAD (some false) or CONFIG_LOAD (some true), R481. -/
structure ColdEnv where
  fuses : List FuseRead
  sfdp : List Byte
  flash : List Byte
  testAt : Option Bool
  deriving DecidableEq, Repr, Inhabited

/-- A physical fault that a step meets (R406, R407): two lanes of a stage disagree. -/
abbrev LaneFault := Bool

/-- Faults that a staging row's write-out meets: a lane mismatch in the drain unit or in a brood adder (R406, R407), a line CRC that fails
at the brood buffer (R405). -/
structure RowFault where
  drain : LaneFault := false
  add : LaneFault := false
  crc : Bool := false
  deriving DecidableEq, Repr, Inhabited

/-- Faults that a spill add meets: a lane mismatch in its adder (R407), a line CRC that fails (R405). -/
structure AddFault where
  lane : LaneFault := false
  crc : Bool := false
  deriving DecidableEq, Repr, Inhabited

/-- What a bucket's read-out meets: the lines that memory returns for spilled regions and error planes, the flit positions at which the lanes
of the link adders disagree (R407) and those whose brood lines fail their CRC (R405). -/
structure ReadOut where
  rd : List MemLine
  lane : List Nat := []
  crc : List Nat := []
  deriving DecidableEq, Repr, Inhabited

/-- A RESULT flit as it arrives, and whether the lanes that widen it to F32 disagree (R406, R407). -/
structure RxFlit where
  flit : Flit
  lane : LaneFault := false
  deriving DecidableEq, Repr, Inhabited

/-- Lines that memory returns to the capping unit, and whether its lanes disagree (R407). -/
structure LaneRead where
  rd : List MemLine
  lane : LaneFault := false
  deriving DecidableEq, Repr, Inhabited

/-- A translation event (Table 14-5). -/
inductive XlatOp where
  | retry
  | abort
  deriving DecidableEq, Repr, Inhabited

/-- Whose park record or stream: a comb forager's or the hub forager's (R290). -/
inductive Forager where
  | comb (c : CombId)
  | hub
  deriving DecidableEq, Repr, Inhabited

/-- A handle queue (Table 08-9). -/
inductive QueueId where
  | combRing (c : CombId)
  | outbound (c : CombId)
  | capping
  | link (g : Fin 3)
  deriving DecidableEq, Repr, Inhabited

/-- A sideband transfer's direction bit. -/
inductive SbDir where
  | write
  | read
  deriving DecidableEq, Repr, Inhabited

/-- What the droop detector of an island compares (R543): the island, and its own supply in units of 0.5 mV (assumptions/134). -/
structure Supply where
  island : IslandId
  level : BitVec 12
  deriving DecidableEq, Repr, Inhabited

/-- A log record that a trace point outside Table 16-7 generates (R520, R523): its island, trace ID, flags and payload. -/
structure TraceRec where
  island : IslandId
  traceId : BitVec 16
  flags : Byte
  payload : List Byte
  deriving DecidableEq, Repr, Inhabited

/-- The commands, in the order of spec/opcode_table.json. -/
inductive Instr where
  | cpWriteAccept (addr : BitVec 16) (data : Word)
  | postedWriteApply
  | rcFieldRead (addr : BitVec 16) (late : List Nat)
  | badAccess (addr : BitVec 16) (write : Bool)
  | cpPortReset
  | coefDataAccess (acc : CoefAccess)
  | obsUflowRead (c : CombId) (late : Nat)
  | errFirstRearm (src : WriteSrc)
  | warmReset (src : WriteSrc)
  | fwWindowWrite (src : WriteSrc)
  | fwStart (src : WriteSrc) (rd : List MemLine) (faulted : Bool)
  | fwCheckDone
  | send (src : WriteSrc)
  | commandIntake
  | pop (src : WriteSrc)
  | hello
  | heartbeat
  | graphSubmit
  | graphAbort
  | fenceRequest
  | unfenceRequest
  | modeSet
  | checkpointRequest
  | logQuery
  | park
  | adopt
  | heartbeatTimeout
  | graphAdmit (rd : List MemLine)
  | taskFetch (rd : List MemLine)
  | taskDispatch (rd : List MemLine)
  | ringBind (c : CombId) (ring : Fin 12)
  | taskAge (index : Nat)
  | taskComplete (index : Nat) (rd : List MemLine)
  | graphStop
  | tileIssue (c : CombId) (f : FrameId) (rd : List MemLine)
  | frameStep (c : CombId) (f : FrameId) (rowLate colLate : Bool)
  | intervalVerdict (c : CombId) (f : FrameId) (lane : LaneFault)
  | replayRestart (c : CombId) (f : FrameId)
  | stagingRowWriteout (c : CombId) (f : FrameId) (fault : RowFault)
  | drainOnlyRun (c : CombId) (f : FrameId) (rd : List MemLine) (lane : LaneFault)
  | lineRequestGrant (ch : ChanId)
  | memoryReadResponse (ch : ChanId) (id : BitVec 10) (status : RespStatus) (line : RespLine)
  | memoryWriteResponse (ch : ChanId) (id : BitVec 10) (status : RespStatus)
  | translationEvent (op : XlatOp) (size : BitVec 2) (page : Nat)
  | pageFaultTimeout (who : Forager) (record : Nat)
  | shortDescriptor (rd : List MemLine)
  | handlePush (q : QueueId)
  | handlePop (q : QueueId)
  | shardReload (c : CombId) (rd : List MemLine)
  | bucketAdmit (rd : List MemLine)
  | bucketActivate (tag : BitVec 16) (rd : ReadOut)
  | spillAdd (fault : AddFault)
  | updateRow (rd : List MemLine) (lane : LaneFault)
  | versionSlotFree
  | maskBlock (rd : LaneRead)
  | maskFreeRow (rd : LaneRead)
  | checkpointEntryCopy (rd : LaneRead)
  | laneLock (p : PortId)
  | capsReceive (p : PortId) (caps : Caps)
  | acceptReceive (p : PortId) (version features : Byte)
  | readyReceive (p : PortId)
  | waggleTimeout (p : PortId)
  | waggleRetryTimer (p : PortId)
  | retrain (p : PortId) (src : WriteSrc)
  | lockLoss (p : PortId)
  | dataFlitReceive (p : PortId) (f : Flit) (lane : LaneFault)
  | resultFlitReceive (p : PortId) (f : RxFlit)
  | okReceive (m : MsgSrc)
  | failReceive (m : MsgSrc)
  | sealReceive (m : MsgSrc)
  | repeatReceive (m : MsgSrc)
  | abandonReceive (m : MsgSrc)
  | joinReceive (m : MsgSrc)
  | goReceive (m : MsgSrc)
  | ackReceive (p : PortId) (f : Flit)
  | nakReceive (p : PortId) (f : Flit)
  | creditReceive (p : PortId) (f : Flit)
  | flitSend (p : PortId)
  | ackTimer (p : PortId)
  | resendTimeout (p : PortId)
  | bucketDeadline (tag : BitVec 16)
  | sealWaitTimeout (tag : BitVec 16)
  | joinTimeout (group : Byte)
  | patienceExpiry (p : PortId)
  | unicastReplay (p : PortId) (rd : List MemLine)
  | coldStart (env : ColdEnv)
  | railAonFall
  | tapReset
  | idcode
  | testEnter
  | testExit
  | scan
  | mbist
  | bypass (code : Byte)
  | sbAddressMatch (addr : BitVec 7) (dir : SbDir)
  | sbWriteByte (b : Byte)
  | sbReadByte
  | railCoreDrop
  | railCoreRecover
  | droopWarning (i : Supply)
  | droopStop (i : Supply)
  | droopClear (i : Supply) (ns : Word)
  | droopHoldExpiry (c : CombId)
  | voltageRequest (src : WriteSrc)
  | frequencyRequest (src : WriteSrc)
  | heldRequestApply
  | freqChangeComplete
  | sensorCode (i : SensorId) (code : BitVec 12)
  | sensorTimeout (i : SensorId)
  | staleTrip
  | thermalLoopTick
  | thermalRefit (slow : Bool)
  | substateRequest (src : WriteSrc)
  | substateEntry
  | wakeReturn
  | idleReturn
  | padRelease (src : WriteSrc)
  | watchdogExpiry (p : ProcId) (pc : Word)
  | protectStore (p : ProcId) (shared : Bool) (offset : Nat) (pc : Word)
  | selfRestart (p : ProcId) (pc : Word)
  | fpReady (p : ProcId)
  | observerPoll
  | logRecordArrive (r : Option TraceRec)
  | logMove
  | logEnable (src : WriteSrc)
  | portEnable (p : PortId) (src : WriteSrc)
  | rxBeatDiscard (p : PortId)
  | powerEstimate
  deriving DecidableEq, Repr, Inhabited

end Sys2Proof
end

