-- ==== Sys2Proof/Machine/State.lean ====
section
/-! DEFINITION. Machine/State.lean: the engine's state as plain data, its reset, and the reasons a step can stop. -/

namespace Sys2Proof.Machine

/-- Every register of the control port (18_register_index.md, Tables 18-2 to 18-12). Per-instance registers carry their index. -/
inductive RegName where
  | hubId | hubCaps | hubBadAccess | hubCpStatus | hubFmtCtrl | hubSrSeed | hubLayoutFaults | hubQntCtrl
  | hubBroodSpilled | hubPoisonCtrl | hubCheckEvents | hubErrStatus | hubErrMask | hubFenceMaskLo | hubFenceMaskHi
  | hubErrFirst | hubErrFirstTask | hubFenceSel | hubFenceInfo | hubModeStatus | hubIrqPins | hubDone
  | hubBoundaryEvents | hubSbAddr
  | schCtrl | schStatus | schReady | schFetched | schCompleted | schEvents | schWindowFull | schGenActive | schGenIter
  | frgDlOffset | frgPfCtrl | frgPfEvents | frgLight
  | updStatus | updCoefSel | updCoefData | updRowEvents | updQntEvents | updClamped | updPruned | updRegrown
  | updMaskEvents | updCkptStep | updW8Switch | updSpillAdds | updVersionStall
  | lnkCtrl | lnkStatus | lnkOldestStep | lnkEvents | lnkMcastEvents | lnkStaleFlits
  | portCtrl (p : PortId) | portStatus (p : PortId) | portPartnerLo (p : PortId) | portPartnerHi (p : PortId)
  | portErrors (p : PortId) | portTxFlits (p : PortId) | portRxFlits (p : PortId)
  | pwrMode | pwrStatus | pwrPadRelease | pwrVid | clkCombFreq | pwrDvfsEvents | pwrDroopEvents | pwrLimits
  | pwrThrottle | pwrEst | pwrDemandT | pwrThermStatus | pwrThermMask | pwrThermCtrl | pwrTsSel | pwrTsData
  | clkIslSel | clkIslStatus
  | fwpStatus | fwpRestarts | fwpLastRestart | fwpLastPc | fwpWdt
  | mbxCmdHdr | mbxCmdLen | mbxCmdData (i : Fin 16) | mbxCmdCtrl | mbxRspHdr | mbxRspLen | mbxRspData (i : Fin 16)
  | mbxRspCtrl | mbxHost | mbxHbTimeout | mbxHbAge
  | logBaseLo | logBaseHi | logSize | logHead | logTail | logCtrl | logLost | logShadow | logMask (i : Fin 8) | logSeq
  | cfgStatus | cfgImage | cfgMbxRange | cfgReset | cfgFwCtrl | cfgFwWinAddr | cfgFwWinData | cfgFwDmaLo
  | cfgFwDmaHi | cfgFwInfo
  | fusIdLo | fusIdHi | fusFenceLo | fusFenceHi | fusSpareLo | fusSpareHi | fusOptions | fusTrimSel | fusTrimData
  | fusKeyHash (i : Fin 12)
  | cmbStall (c : CombId) (k : Fin 10) | cmbRingStatus (c : CombId) | cmbFrgEvents (c : CombId) | cmbPfSel (c : CombId)
  | cmbPfState (c : CombId) | cmbPfVaLo (c : CombId) | cmbPfVaHi (c : CombId) | cmbPfIdx (c : CombId) (d : Fin 5)
  | cmbPfIdxPos (c : CombId) | cmbEpochFaults (c : CombId) | cmbCheckEvents (c : CombId) | cmbCheckLast (c : CombId)
  | cmbPoisonEvents (c : CombId) | cmbFmtFaults (c : CombId) | cmbLayoutFaults (c : CombId) | cmbOvfLane (c : CombId)
  | cmbOvfSteps (c : CombId) | cmbTrimDropped (c : CombId) | cmbMetaSuspect (c : CombId) | cmbZmapSkipped (c : CombId)
  | cmbObsCtrl (c : CombId) | cmbObsUflow (c : CombId) | cmbObsNonzero (c : CombId) | cmbObsRows (c : CombId)
  | cmbObsHist (c : CombId) | cmbQntEvents (c : CombId) | cmbBroodStatus (c : CombId) | cmbStoreEvents (c : CombId)
  | cmbActHits (c : CombId)
  | frmStatus (c : CombId) (f : FrameId) | frmFreezeDrain (c : CombId) (f : FrameId)
  | frmFreezeRowf (c : CombId) (f : FrameId) | frmFreezeColf (c : CombId) (f : FrameId)
  | frmActiveCycles (c : CombId) (f : FrameId) | frmIntervals (c : CombId) (f : FrameId) | frmReplays (c : CombId) (f : FrameId)
  deriving DecidableEq, Repr, Inhabited

/-- A comb's counters (the RC fields of Table 18-11). -/
inductive CombCtr where
  | stallMem | stallXlat | stallCredit | stallDep | stallDrain | stallVpin | stallReplay | stallDroop | stallThermal
  | stallLink
  | descInvalid | ringShrunk | descRefetch | carouselRefetch
  | epochMismatch | epochStale
  | checkRetries | laneMismatch | slotCrc | fabricRetry
  | linesIn | linesOut
  | nonfiniteRows | badHeaders | scaleFloored
  | misaligned | oobClamped | oobFilled
  | ovfLane | ovfSteps | trimDropped | oorSlots | suspectTiles | trapTiles | zmapSkipped
  | uflow | zeroRows | flatRows | hist (b : Fin 64)
  | wideReruns | ilenCapped | xformAlign
  | actDropped | stepWaits | frozenSkipped
  | actHits
  deriving DecidableEq, Repr, Inhabited

/-- A frame's counters (the RC fields of Table 18-12). -/
inductive FrameCtr where
  | freezeDrain | freezeRowf | freezeColf | active | intervals | ovfReplays | splits
  deriving DecidableEq, Repr, Inhabited

/-- Every counter of the engine: each RC field of the register index under its own name (R6, R445). -/
inductive Ctr where
  | badAccess | hubMisaligned | hubOobClamped | hubOobFilled | broodSpilled | hubFabricRetry | hubLaneMismatch
  | railDrops | writeRejects | sbWakes | linkPhyLost
  | reissued | poisonIn | windowFull
  | parked | unresolved | light
  | frozenRows | skippedPoison | skippedNonfinite | flatRows | scaleFloored | clamped | pruned | regrown
  | regrowShort | repaired | maskNoRoom | switched | noRoom | spillAdds | versionStall
  | repeats | deadlineExp | poisonSums | dropped | replays | staleFlits
  | crcErrors (p : PortId) | retries (p : PortId) | stomped (p : PortId) | signExpanded (p : PortId)
  | txFlits (p : PortId) | rxFlits (p : PortId)
  | heldFreq | heldVid | dips
  | restarts (p : ProcId)
  | mbxIgnored | logLost | authFails
  | comb (c : CombId) (k : CombCtr)
  | frame (c : CombId) (f : FrameId) (k : FrameCtr)
  deriving DecidableEq, Repr, Inhabited

/-- Device memory as the engine sees it (R416): bytes in canonical form (addresses strictly rising, no byte equal to
what an unlisted address reads as) and the rising list of poisoned lines, by line number. -/
structure Mem where
  cells : List Host.Cell := []
  poison : List Nat := []
  deriving DecidableEq, Repr, Inhabited

/-- An accepted write that waits in the posted-write queue (R442). `coef` is the coefficient word of a write of
UPD_COEF_DATA (R575), as a flat index into the table. `fw` names the register of a firmware write that reached the hub after a port
write of it: it takes no entry of the queue, and waits its turn; `stamp` is a port write's place in the order in which writes reach the
hub (R448). -/
structure Posted where
  addr : Nat
  data : Word
  coef : Option Nat := none
  fw : Option RegName := none
  stamp : Nat := 0
  deriving DecidableEq, Repr, Inhabited

/-- The hub's own registers: port read data, error collection, completion flag, hub time, the count of free values drawn,
the interrupt levels held under pad hold (R469). `stamp` counts the port writes accepted, and `fwAt` gives by register its value at the
last write of firmware's own accord (R448). -/
structure Hub where
  rdata : Word := 0
  lastBad : BitVec 16 := 0
  errStatus : Byte := 0
  errFirst : Option (Byte × Byte) := none
  errTask : Nat := 0
  graphDone : Bool := false
  cycle : Nat := 0
  free : Nat := 0
  padIrq : Option (BitVec 4) := none
  stamp : Nat := 0
  fwAt : AMap RegName Nat := []
  deriving DecidableEq, Repr, Inhabited

/-- One comb's fence (R413, HUB_FENCE_INFO): cause 0 is not fenced. -/
structure Fence where
  cause : Nat := 0
  frame : Nat := 0
  pending : Bool := false
  deriving DecidableEq, Repr, Inhabited

/-- Engine states of Table 15-1. -/
inductive EngState where
  | off | fuseLoad | configLoad | awaitFw | fwCheck | run | refused | orphaned | recovery | test
  deriving DecidableEq, Repr, Inhabited

/-- RUN substates of Table 17-5. -/
inductive PState where
  | active | idle | nap | hibernate
  deriving DecidableEq, Repr, Inhabited

/-- Image result of CFG_STATUS (R491). -/
inductive ImageResult where
  | notRead | ok | absent | badMagic | badFormat | badLength | badCrc | badRecord
  deriving DecidableEq, Repr, Inhabited

/-- Firmware result of CFG_STATUS (R497). -/
inductive FwResult where
  | none | loading | checking | authOk | authFail | badImage | versionRange | refused
  deriving DecidableEq, Repr, Inhabited

/-- One entry of the LINK record (Table 15-6). -/
structure LinkCfg where
  laneMap : BitVec 24 := 0
  polarity : Byte := 0
  role : Byte := 0
  maxVer : Byte := 0
  deriving DecidableEq, Repr, Inhabited

/-- The configuration in effect: Table 15-6's records or its last column. F32 values as bits. `hasLink` tells that the image holds a LINK
record: without one no port trains. -/
structure Image where
  limits : List Nat := [760, 590, 300]
  defaultEnv : Nat := 1
  holdUs : Nat := 50
  thermal : List Word := [0x42BE0000, 0x3CA3D70A, 0x3B03126F, 0x3CF5C28F, 0x3FC00000, 0x3CA3D70A, 0x43340000,
    0x41A00000, 0x44FA0000, 0x420C0000]
  link : List LinkCfg := List.replicate 18 {}
  hasLink : Bool := false
  mbxMin : Byte × Byte := (3, 0)
  mbxMax : Byte × Byte := (3, 2)
  sbAddr : BitVec 7 := 0x5A
  actDepth : Nat := 4
  fences : List Nat := []
  calib : List Byte := []
  deriving DecidableEq, Repr, Inhabited

/-- Fuses, image result, firmware load registers (15_start_up_and_configuration.md). -/
structure Boot where
  state : EngState := .off
  fuses : List Word := []
  fuseEcc : Bool := false
  addr4 : Bool := false
  quad : Bool := false
  image : ImageResult := .notRead
  fmtMajor : Byte := 0
  fmtMinor : Byte := 0
  skipped : Nat := 0
  badRecord : Nat := 0xFF
  cfg : Image := {}
  hubLocked : Bool := false
  fw : FwResult := .none
  fwDmaFault : Bool := false
  fwInfo : Word := 0
  fwMajor : Byte := 0
  fwMinor : Byte := 0
  staging : List Host.Cell := []
  fromTest : Option EngState := none
  flash : Option ColdEnv := none
  deriving DecidableEq, Repr, Inhabited

/-- Run state of a firmware processor (FWP_STATUS). -/
inductive ProcRun where
  | held | run | wfi | restarting
  deriving DecidableEq, Repr, Inhabited

/-- One firmware processor: run state, READY, entry address, private memory and the loaded (read-only) ranges of it;
`fresh` until it is READY for the first time since its release. -/
structure Proc where
  run : ProcRun := .held
  ready : Bool := false
  entry : Nat := 0
  mem : List Host.Cell := []
  ro : List (Nat × Nat) := []
  fresh : Bool := true
  deriving DecidableEq, Repr, Inhabited

/-- The firmware cluster (R505 to R507, R528, R529); `totals` counts each processor's restarts since cold start (LOG_QUERY). -/
structure Fwp where
  procs : List Proc := List.replicate 4 {}
  shared : List Host.Cell := []
  sharedRo : List (Nat × Nat) := []
  lastFp : Nat := 0
  lastCause : Nat := 0
  lastPc : Word := 0
  clampQuiet : Bool := false
  totals : List Nat := [0, 0, 0, 0]
  deriving DecidableEq, Repr, Inhabited

/-- A mailbox message (R508). -/
structure Msg where
  major : Byte
  minor : Byte
  opcode : Byte
  seq : Byte
  words : List Word
  deriving DecidableEq, Repr, Inhabited

/-- A command that FP3 has taken: its message and the length word as written. -/
structure Taken where
  msg : Msg
  len : Nat
  deriving DecidableEq, Repr, Inhabited

/-- HOST_STATE (MBX_HOST). -/
inductive HostState where
  | none | live | draining | orphaned
  deriving DecidableEq, Repr, Inhabited

/-- The mailboxes (R508 to R518). `modeReply` and `parkReplies` are the MODE_SET and PARK commands
whose action is not complete; `helloLost` records an accepted HELLO served while DRAINING or ORPHANED (R534);
`expired` is a heartbeat timeout that waits for FP1 (R531); `doneWaits` holds GRAPH_DONE messages that wait for FP1
(R529), `abortReplies` GRAPH_ABORT commands whose running graph has not ended, by GRAPH_ID; `backlog` are messages that found the
ring full (assumptions/72). -/
structure Mbx where
  busy : Bool := false
  taken : List Taken := []
  ring : List Msg := []
  backlog : List Msg := []
  stated : Option (Byte × Byte) := Option.none
  host : HostState := .none
  hbTimeout : Nat := 2000
  hbRunning : Bool := false
  lastSend : Option Nat := Option.none
  unsolicited : Byte := 0
  modeReply : Option Msg := Option.none
  parkReplies : List Msg := []
  helloLost : Bool := false
  expired : Bool := false
  doneWaits : List (List Word) := []
  abortReplies : List (Nat × Msg) := []
  deriving DecidableEq, Repr, Inhabited

/-- A 64-byte log record (Table 16-5) by its fields. -/
structure LogRec where
  seq : BitVec 64
  cycle : BitVec 64
  traceId : BitVec 16
  island : Byte
  flags : Byte
  context : Word
  payload : List Byte
  deriving DecidableEq, Repr, Inhabited

/-- The log ring (R520 to R527). `inflight` holds records on their way to the hub; `moving` tells that the oldest shadow record's write
has not completed (R525), `queries` are the LOG_QUERY commands whose flush goes on (R526). -/
structure Log where
  seq : BitVec 64 := 0
  shadow : List LogRec := []
  inflight : List LogRec := []
  head : Nat := 0
  base : Nat := 0
  log2 : Nat := 0
  moving : Bool := false
  queries : List Msg := []
  deriving DecidableEq, Repr, Inhabited

/-- A native stream descriptor (Table 08-1); `badReserved` holds when a reserved bit is set. -/
structure Desc where
  base : Nat
  sizes : List Nat
  strides : List Nat
  format : Nat
  layout : Nat
  dir : Bool
  ring : Nat
  credits : Nat
  deadline : Nat
  persist : Bool
  indexEn : Bool
  indexMode : Bool
  indexDim : Nat
  indexRef : Nat
  fill : Word
  share : Byte
  badReserved : Bool
  deriving DecidableEq, Repr, Inhabited

/-- A task record (Table 09-3); `bad` holds when a reserved bit is set or a field is outside its range. -/
structure TaskRec where
  kind : Nat
  cls : Nat
  vstage : Nat
  mb : Nat
  mbValid : Bool
  mbClose : Bool
  layer : Nat
  step : Nat
  predCount : Nat
  succCount : Nat
  succIndex : Nat
  flags : BitVec 32
  ilen : Nat
  ufLimit : Nat
  epilogue : Nat
  chain : Nat
  affinity : Nat
  param : Nat
  clampLimit : Nat
  dst : Nat
  aux0 : Nat
  aux1 : Nat
  descBatch : Nat
  drefs : List Byte
  rowLen : Nat
  outRows : Nat
  outCols : Nat
  redLen : Nat
  tileCount : Nat
  tilemapBase : Nat
  rearmBase : Nat
  rearmIndex : Nat
  arg : BitVec 64
  bad : Bool
  deriving DecidableEq, Repr, Inhabited

/-- The graph header (Table 09-1). -/
structure GraphHdr where
  interleaved : Bool
  vMinus2 : Nat
  arrival : Bool
  freeSplit : Bool
  stages : Nat
  mbWindow : Nat
  tasks : Nat
  actDepth : Nat
  firstMb : Nat
  broodEntries : Nat
  versionEntries : Nat
  carouselEntries : Nat
  shardBytes : Nat
  taskBase : Nat
  edgeBase : Nat
  broodMap : Nat
  versionTable : Nat
  carouselTable : Nat
  layerTable : Nat
  completionBase : Nat
  genTable : Nat
  deriving DecidableEq, Repr, Inhabited

/-- What FP1 samples at admission (R294 step 1). -/
structure Samples where
  fmtCtrl : Word := 0
  srSeed : Word := 0
  qntCtrl : Word := 0
  poisonCtrl : Word := 0
  schCtrl : Word := 0
  lnkCtrl : Word := 0
  dlOffset : Word := 0
  deriving DecidableEq, Repr, Inhabited

/-- Where a brood region lies (R202). -/
inductive Place where
  | none
  | resident (c : CombId)
  | spilled
  deriving DecidableEq, Repr, Inhabited

/-- A brood region (Table 07-1) with its place and content: resident elements as F32 bits (a missing element is +0),
poisoned lines by index, the step whose adds it holds (R209); `stale` marks a candidate region that its MASK task has read (R156). -/
structure Region where
  handle : Nat
  frozen : Bool
  spill : Bool
  scratch : Bool
  home : Nat
  layout : Nat
  bucket : Nat
  elements : Nat
  rowLen : Nat
  accAddr : Nat
  rowStart : Nat
  place : Place := .none
  elems : AMap Nat Word := []
  poison : List Nat := []
  step : Nat := 0
  touched : Bool := false
  addedBy : List Nat := []
  stale : Bool := false
  deriving DecidableEq, Repr, Inhabited

/-- A version table entry (Table 07-4) with its pins: (slot, holder), where a holder is a micro-batch tag or a task index
plus 64 (R236); `chosen` holds (step, slot) as each step's first update task chose it (R238); `epochs` the expected epochs (R349);
`w8Due` is set once the clamp limit was exceeded with W8 room (R190); `updated` are the steps whose UPDATE has begun (R353); `freed` the
pins that UNPIN has released, as (slot, tag, step of the task) (R241). -/
structure VerEntry where
  handle : Nat
  slots : Nat
  current : Nat
  w8 : Bool
  codes : List Nat
  factors : List Nat
  pins : List (Nat × Nat) := []
  chosen : List (Nat × Nat) := []
  epochs : List (Option Nat) := [none, none, none]
  w8Due : Bool := false
  updated : List Nat := []
  freed : List (Nat × Nat × Nat) := []
  deriving DecidableEq, Repr, Inhabited

/-- One sequence context of the generation table (R319). -/
structure GenCtx where
  active : Bool
  pos : Nat
  maxPos : Nat
  stop : Nat
  deriving DecidableEq, Repr, Inhabited

/-- A generation loop (R321, R322): LOOP_FIRST, the loop task, iterations completed, whether its body has started. -/
structure GenLoop where
  first : Nat
  task : Nat
  iters : Nat := 0
  started : Bool := false
  deriving DecidableEq, Repr, Inhabited

/-- The generation table and the graph's loops (R319 to R322). -/
structure Gen where
  tokenAddr : Nat
  posAddr : Nat
  ctxs : List GenCtx
  loops : List GenLoop := []
  deriving DecidableEq, Repr, Inhabited

/-- The unit a task runs in (Table 09-5 UNIT). -/
inductive ExecUnit where
  | comb (c : CombId)
  | hub | cap | link
  deriving DecidableEq, Repr, Inhabited

/-- Life of a resident task: `fetched` waits for predecessors, `ready` waits for dispatch, `running` is dispatched,
`ended` has reported its end with a status and an error code and waits for its completion record (R301). -/
inductive TaskLife where
  | fetched
  | ready
  | running (u : ExecUnit)
  | ended (u : ExecUnit) (status code : Nat)
  deriving DecidableEq, Repr, Inhabited

/-- A resident task (R303): its record, life and what its completion record will hold (Table 09-5). `commTiles` are the
tiles whose last interval committed, `doneTiles` those whose outputs have left the comb as well (R317). `again` marks a task
that completed before a fence re-issued it (R217): its successors have been counted. `late` is the error code
of a task that runs to its end and fails there (R142, R289), `lost` marks one whose writes an unresolvable fault drops (R289);
`mbNum` is the sequence number of its micro-batch from its first dispatch on (R311, R437). -/
structure Task where
  index : Nat
  record : TaskRec
  life : TaskLife := .fetched
  aged : Bool := false
  poisonIn : Bool := false
  head : Bool := false
  metaSuspect : Bool := false
  poisonOut : Bool := false
  reissued : Bool := false
  wide : Bool := false
  replays : Nat := 0
  order : Nat := 0
  failed : Option Nat := none
  doneTiles : List Nat := []
  commTiles : List Nat := []
  offsets : List (Nat × Nat) := []
  slotPin : Option Nat := none
  again : Bool := false
  late : Option Nat := none
  lost : Bool := false
  mbNum : Option Nat := none
  deriving DecidableEq, Repr, Inhabited

/-- An open or closed micro-batch (R311) with its sequence number, and the steps of the tasks that opened and closed it (R316). -/
structure MicroBatch where
  num : Nat
  tag : Nat
  openStep : Nat
  closedStep : Option Nat := none
  deriving DecidableEq, Repr, Inhabited

/-- Scheduler phase (SCH_STATUS.STATE). -/
inductive SchPhase where
  | idle | admitting | run | stopping | repeating | loopReset
  deriving DecidableEq, Repr, Inhabited

/-- A submitted graph (R293): `ckpt` is the place in FP1's own memory of a checkpoint graph that it has built (R519); such a
graph's addresses are offsets there. -/
structure Submitted where
  gid : Nat
  addr : Nat
  cookie : Word
  ckpt : Option Nat := none
  deriving DecidableEq, Repr, Inhabited

/-- The running graph: header, samples, logical numbering, tables, window and micro-batch state. `retired` keeps the
completed tasks whose adds a fence could still lose (R217); `arrivals` are (task, predecessor, count) (R300, R316), `poisoned`
(task, failed predecessor) (R314); `firstErr` is the task of the first task error (R421), `ckptCode` the error code of a
checkpoint graph's task (R519). -/
structure Graph where
  sub : Submitted
  hdr : GraphHdr
  samples : Samples
  logical : List CombId
  regions : List Region
  versions : List VerEntry
  layers : List (List Byte)
  gen : Option Gen
  carousel : List (Nat × Nat)
  fetch : Nat := 0
  tasks : List Task := []
  retired : List Task := []
  arrivals : List (Nat × Nat × Nat) := []
  poisoned : List (Nat × Nat) := []
  completed : List (Nat × Nat) := []
  firstOfStep : List (Nat × Nat) := []
  lastStep : Nat := 0
  mbs : List MicroBatch := []
  dispatches : Nat := 0
  stop : Option Nat := none
  stopUnit : Byte := 0xF0
  stopTask : Nat := 0x1FFFFF
  firstPoison : Bool := false
  firstErr : Option Nat := none
  ckptCode : Nat := 0
  deriving DecidableEq, Repr, Inhabited

/-- The hive scheduler and FP1's books (R293 to R324). `lastTable` is the version table of the last graph that ended (R519). -/
structure Sched where
  queue : List Submitted := []
  nextGid : Nat := 0
  done : List Nat := []
  run : Option Graph := none
  phase : SchPhase := .idle
  draining : Bool := false
  lastTable : Option (Nat × Nat) := none
  modeBits : BitVec 5 := 0
  genActive : Word := 0
  genIter : Nat := 0
  fetched : Nat := 0
  completedCount : Nat := 0
  ckptArea : List Host.Cell := []
  deriving DecidableEq, Repr, Inhabited

/-- A ring pointer (R261). -/
structure RingPtr where
  wrap : Bool := false
  idx : Nat := 0
  deriving DecidableEq, Repr, Inhabited

/-- What reads a ring line: a task's tile and the start of the interval along the reduced dimension. -/
structure Reader where
  task : Nat
  tile : Nat
  start : Nat
  deriving DecidableEq, Repr, Inhabited

/-- A line of a ring slot (R262, R264): its number among the ring's lines, whether a request for it is outstanding, and the
count of failed fabric checks (R405); `role` is the reference that its first reader fetched it for; `need` lists the intervals that
read it and have not committed (R162); `used` once a reader has consumed it (R268); `by_` is the reader that it was fetched for. -/
structure SlotLine where
  ser : Nat := 0
  slot : Nat := 0
  line : Nat
  role : Nat := 0
  asked : Bool := false
  data : List Byte := []
  check : Word := 0
  poison : Bool := false
  landed : Bool := false
  tries : Nat := 0
  need : List Reader := []
  used : Bool := false
  by_ : Option Reader := none
  deriving DecidableEq, Repr, Inhabited

/-- Time-to-empty bookkeeping of a stream (R268): bytes landed and not consumed, bytes consumed in the present and in the
last completed window. -/
structure Tte where
  waiting : Nat := 0
  now : Nat := 0
  last : Nat := 0
  frozen : Bool := false
  deriving DecidableEq, Repr, Inhabited

/-- A stream that fills a ring: the task and context, the descriptor reference it serves, the interval whose lines it is
requesting, the intervals that other tiles of a shared operand have come to, the tiles that it has begun (R265, R266), its index buffer (R254) and the index values taken from it by position, each with its line's poison; `filling` and
`fillIndex` tell that what has not landed of the transfer, or of its index stream, arrives as poisoned fill (R288). The index stream of a
write stream stands in its task's context and parks by itself: `parked`, and a translation `event` that waits for its record (text after R454). -/
structure Stream where
  task : Nat
  ctx : Fin 4
  role : Nat
  tile : Nat := 0
  start : Nat := 0
  others : List (Nat × Nat) := []
  opened : List Nat := []
  index : List SlotLine := []
  taken : AMap Nat (Nat × Bool) := []
  ended : Bool := false
  filling : Bool := false
  fillIndex : Bool := false
  tte : Tte := {}
  parked : Bool := false
  event : Option XlatOp := none
  deriving DecidableEq, Repr, Inhabited

/-- A bound ring (R258 to R266): slots, pointers, the lines packed in the slot being filled, lines requested or landed, the
streams that fill it in dispatch order, the persistent descriptor that holds it as (batch, entry) (R273). `event` is a translation event that waits until the faulted
ring has parked (text after R454). -/
structure Ring where
  slots : Nat
  head : RingPtr := {}
  tail : RingPtr := {}
  tailCount : Nat := 0
  nextSer : Nat := 0
  lines : List SlotLine := []
  streams : List Stream := []
  persist : Option (Nat × Nat) := none
  parked : Bool := false
  event : Option XlatOp := none
  deriving DecidableEq, Repr, Inhabited

/-- State of a park record (CMB_PF_STATE.STATE). -/
inductive ParkState where
  | free | parked | resuming | filling
  deriving DecidableEq, Repr, Inhabited

/-- A park record (R286 to R290). -/
structure Park where
  state : ParkState := .free
  ring : Nat := 0
  write : Bool := false
  ctx : Fin 4 := 0
  dims : Nat := 0
  line : Nat := 0
  index : List Nat := [0, 0, 0, 0, 0]
  pos : Nat := 0
  deriving DecidableEq, Repr, Inhabited

/-- A buffer handle (Table 08-8). -/
structure Handle where
  addr : Nat
  len : Nat
  tag : BitVec 16
  poison : Bool
  last : Bool
  onchip : Bool
  src : Byte
  deriving DecidableEq, Repr, Inhabited

/-- A carousel shard, or a slot's part of one: its number, bytes, the slot check of each of its lines, which travels with it (R405), the
version slot of each tensor by table order (none: the
shard is read from memory), and its poisoned lines by their place in the shard (R280, R283). -/
structure Shard where
  num : Nat
  bytes : List Byte := []
  checks : List Word := []
  versions : List Nat := []
  bad : List Nat := []
  deriving DecidableEq, Repr, Inhabited

/-- What a queued handle names: the handle and, for a staging row of a spilled region, the region's handle, the task, its
tile, the reduced offset reached and the adds (element, value); for a carousel slot its number (in `tile`) and its part of the
shard (R281, R283). `row` is the staging row's number in its interval; `waited` tells that the row's wait under R209 has been counted; `ends` marks an interval's last entry (R317); `dest` is the chain: 1 next comb, 2 capping unit, 3 link ports. -/
structure HandleEntry where
  h : Handle
  region : Nat := 0
  task : Nat := 0
  tile : Nat := 0
  reach : Nat := 0
  adds : List (Nat × Word) := []
  part : Option Shard := none
  row : Nat := 0
  dest : Nat := 2
  waited : Bool := false
  ends : Bool := false
  deriving DecidableEq, Repr, Inhabited

/-- A kept line of the activation store (R221). -/
structure ActLine where
  addr : Nat
  data : List Byte
  check : Word
  poison : Bool
  mb : Nat
  layer : Nat
  deriving DecidableEq, Repr, Inhabited

/-- An accumulator with its sticky overflow flag and the correction sum or companion beside it (R84, R169, R410). -/
structure Acc where
  val : BitVec 24 := 0
  ovf : Bool := false
  corr : BitVec 29 := 0
  deriving DecidableEq, Repr, Inhabited

/-- A cell's two accumulators A and B (R84, R86). -/
structure Cell where
  a : Acc := {}
  b : Acc := {}
  deriving DecidableEq, Repr, Inhabited

/-- What one frame row presents in a step (R87, R115, R129). -/
inductive RowOp where
  | code (x y : Int)
  | slot (occ : Bool) (p : Nat) (q : Int)
  deriving DecidableEq, Repr, Inhabited

/-- What one frame column presents in a step: a code pair, or a group of eight codes with eight correction elements (R117, R170). -/
inductive ColOp where
  | code (x y : Int)
  | group (e k : List Int)
  deriving DecidableEq, Repr, Inhabited

/-- One step as it enters the frame: the accumulator it fills, its operands, and in the sampled product the position code
that each cell owns (R128). `null` steps change no accumulator (R110). -/
structure StepIn where
  accB : Bool
  rows : List RowOp
  cols : List ColOp
  owner : List (List (Option Nat)) := []
  sampled : Bool := false
  deriving DecidableEq, Repr, Inhabited

/-- Which pass of an interval an attempt runs (R92). -/
inductive Pass where
  | whole | high | low
  deriving DecidableEq, Repr, Inhabited

/-- A weight row's header as a feeder validates it (R43 to R46, R350): the address of its record, its scale and zero point,
its width, whether it is rejected, floored or of another epoch, and whether its line is poisoned. -/
structure WRow where
  addr : Nat := 0
  s : Word := 0
  z : Nat := 0
  wide : Bool := false
  rejected : Bool := false
  mismatch : Bool := false
  floored : Bool := false
  epoch : Nat := 0
  poison : Bool := false
  deriving DecidableEq, Repr, Inhabited

/-- A bank of a frame's channel scale register file (R164, R165): the tile that holds it and its entries by weight row, each
the scale and zero point with what else the feeder keeps of the header. -/
structure ScaleBank where
  task : Nat
  tile : Nat
  loaded : Bool := false
  rows : List (Nat × WRow) := []
  deriving DecidableEq, Repr, Inhabited

/-- Factors in a frame's smoothing register file (R184): the interval or, in the input gradient, the tile that they serve, the
factors by channel, and whether a line they came from is poisoned. -/
structure SmoothHeld where
  task : Nat
  tile : Nat
  base : Nat
  vals : AMap Nat Word
  poison : Bool
  deriving DecidableEq, Repr, Inhabited

/-- What a committed interval adds to the counters (R144, R187); `hist` holds (operand of HIST_SRC, bin). -/
structure Counts where
  excess : Nat := 0
  ovfSteps : Nat := 0
  trimmed : Nat := 0
  zskip : Nat := 0
  oor : Nat := 0
  uflow : Nat := 0
  nonzero : Nat := 0
  zeroRows : Nat := 0
  flatRows : Nat := 0
  hist : List (Nat × Nat) := []
  nonfinite : Nat := 0
  badHeaders : Nat := 0
  floored : Nat := 0
  epochMiss : Nat := 0
  deriving DecidableEq, Repr, Inhabited

/-- One read-out line: 64 accumulators, the overflow flags together, corrections, and the check values read beside it (R97). -/
structure ReadLine where
  vals : List (BitVec 24)
  ovf : Bool
  corr : List (BitVec 29)
  colCheck : BitVec 24 × BitVec 29
  rowCheck : BitVec 24 × BitVec 29
  corner : BitVec 24 × BitVec 29 := (0, 0)
  deriving DecidableEq, Repr, Inhabited

/-- What de-quantisation needs of one pass (Table 06-3): the streamed scale of each frame row (or column, `aCols`), the
other factor of each column (or row, `bRows`) with its zero point, the row sums or dot products, and per cell the owned
position code and the element rank in its weight row (R128, R155). -/
structure Scales where
  a : List Word := []
  aCols : Bool := false
  b : List Word := []
  bRows : Bool := false
  z : List Nat := []
  rsum : List Int := []
  lane : List (List Word) := []
  own : List (List (Option (Nat × Nat))) := []
  deriving DecidableEq, Repr, Inhabited

/-- One attempt of one pass of an interval in a frame, from the entry of its first step to its verdict: cycles since its last
step entered, its read-outs, cycles since the last of them. `base` is the start of the interval it belongs to; `skip` marks
an interval whose steps zero maps skip (R153). -/
structure Attempt where
  task : Nat
  tile : Nat
  base : Nat
  start : Nat
  len : Nat
  level : Nat := 0
  wide : Bool := false
  pass : Pass := .whole
  rank : Nat := 0
  ranks : Nat := 1
  accB : Bool := false
  dirCols : Bool := false
  skip : Bool := false
  age : Option Nat := none
  reads : List ReadLine := []
  since : Nat := 0
  sc : Scales := {}
  poison : Bool := false
  suspect : Bool := false
  trap : Bool := false
  counts : Counts := {}
  deriving DecidableEq, Repr, Inhabited

/-- Work still to commit on a tile: an interval or split part with its level and width (R176); `begun` tells that an attempt has
settled the width (R180, R189). -/
structure Part where
  base : Nat
  start : Nat
  len : Nat
  level : Nat := 0
  wide : Bool := false
  split : Bool := false
  begun : Bool := false
  deriving DecidableEq, Repr, Inhabited

/-- A tile issued to a frame (R104): its tile map (R132), its parts not yet committed, the first one that has not entered whole, its passes
entered, and what its committed parts marked; `ran` once an interval with steps has committed; `narrow` is
whether a dense input-gradient tile runs in dense W4 mode, settled as its first interval begins (R427). -/
structure TileJob where
  task : Nat
  ctx : Fin 4
  tile : Nat
  map : List Byte := []
  parts : List Part
  entered : Nat := 0
  pass : Nat := 0
  poison : Bool := false
  suspect : Bool := false
  trap : Bool := false
  ran : Bool := false
  narrow : Option Bool := none
  deriving DecidableEq, Repr, Inhabited

/-- A committed interval whose staging rows wait for write-out (R102): de-quantised read-out lines, the adds of each line as
(handle, element, value), the next line, and at a tile's last commit the tile as it is stored, by line as (token or weight
row, channel, value). `staged` tells that the rows lie in a staging buffer: a skipped interval's do not (R153); `fresh` marks a tile none of whose intervals had steps:
its running tile is +0. `extra` are the parameter
gradients that follow the tile's last line (R233), poisoned with `extraBad`; `doomed` once an unresolvable write fault has dropped
the rows that are left (R289). -/
structure OutJob where
  task : Nat
  tile : Nat
  record : TaskRec
  reach : Nat
  lastOfTile : Bool
  accB : Bool
  dirCols : Bool
  order : Nat
  rows : List (List Word)
  adds : List (List (Nat × Nat × Word)) := []
  final : Option (List (List (Nat × Nat × Word))) := none
  finalPoison : List Nat := []
  map : List Byte := []
  staged : Bool := true
  fresh : Bool := false
  extra : List (Nat × Nat × Word) := []
  extraBad : Bool := false
  doomed : Bool := false
  poison : Bool := false
  next : Nat := 0
  waited : Bool := false
  deriving DecidableEq, Repr, Inhabited

/-- What the frame is doing (FRM_STATUS.STATE, R106). -/
inductive FrameMode where
  | idle | run | frozenDrain | frozenRowf | frozenColf | replayFlush | fenced
  deriving DecidableEq, Repr, Inhabited

/-- A frame with its drain unit: cells by row, the operands in the skew (index = age), tiles issued, the steps of the attempt
that is entering, the accumulator of the next attempt, attempts in flight oldest first, integers of passes that wait for the interval's last one, committed
intervals that wait for write-out, the running tile. `flush` counts the cycles until the skew is empty (R103); `banks` and `smooth`
are the channel scale and smoothing register files (R164, R184); `held` are the operand lines that the drain unit has taken from
its rings for the drain-only or SELECT task that holds it (assumptions/35). -/
structure Frame where
  mode : FrameMode := .idle
  cells : List (List Cell) := []
  pipe : List (Option StepIn) := []
  fillB : Bool := false
  nextB : Bool := false
  jobs : List TileJob := []
  steps : List StepIn := []
  flight : List Attempt := []
  flush : Nat := 0
  dirCols : Bool := false
  opmode : Nat := 0
  high : List (List Int) := []
  passes : List (List (List Word) × Scales) := []
  out : List OutJob := []
  running : List (List Word) := []
  merge : List (Nat × List Word) := []
  mismatch : Option Nat := none
  drainOnly : Option Nat := none
  beat : Nat := 0
  banks : List (Option ScaleBank) := [none, none, none, none]
  smooth : List SmoothHeld := []
  held : List SlotLine := []
  deriving DecidableEq, Repr, Inhabited

/-- A task context of a comb (R310): the task, its next tile, whether a wide re-run keeps it S16 (R189), its place in the
order of dispatch, its descriptors by reference with every re-arm and version applied (R274, R574), the descriptor batches that they
came from (R250), and by tile the start and the length at which its intervals are cut, once judged (R160); the index streams of its write
streams (R254), and what its drain units write out in a window (R268). -/
structure Ctx where
  task : Nat
  nextTile : Nat := 0
  wide : Bool := false
  capped : Bool := false
  order : Nat := 0
  descs : AMap Nat Desc := []
  batches : List Nat := []
  cuts : AMap Nat (Nat × Nat) := []
  outs : List Stream := []
  tte : Tte := {}
  deriving DecidableEq, Repr, Inhabited

/-- A comb's carousel buffer (R280 to R285): the slots it reserves, its own shard, the shard that arrives in a rotation with
the slots that have arrived, the slots of its own that it has sent; `stale` from a step boundary to the reload, `step` the step
last begun. `extras` are the shards of fenced combs that it covers, nearest first; `rotated` the shards whose ROTATE task has committed
at the present position: the rotation begins once all that the comb works on have (R281, R285). -/
structure Carousel where
  slots : Nat
  own : Shard
  incoming : Option Shard := none
  got : Nat := 0
  sent : Nat := 0
  sending : Bool := false
  stale : Bool := false
  step : Option Nat := none
  extras : List Shard := []
  rotated : List Nat := []
  deriving DecidableEq, Repr, Inhabited

/-- A descriptor batch in a forager's cache (R249, R250): its address, its 1 KiB as fetched and since re-armed, and the
entries that lie on a poisoned line. -/
structure Batch where
  addr : Nat
  bytes : List Byte
  bad : List Nat := []
  deriving DecidableEq, Repr, Inhabited

/-- One comb (Table 01-1). `cache` holds its forager's batches, most recently used first, `evicted` names those that it gave up (R291); `buffers` are the handles that it has popped of tasks that still run (R278); `persist` names the persistent
descriptors that its forager holds, as (batch, entry) (R273). -/
structure Comb where
  ctxs : List (Option Ctx) := [none, none, none, none]
  freeSlots : Nat := 64
  rings : List (Option Ring) := List.replicate 12 none
  frames : List Frame := List.replicate 4 {}
  parks : List Park := List.replicate 8 {}
  cache : List Batch := []
  evicted : List Nat := []
  act : List ActLine := []
  ringQ : List HandleEntry := []
  outQ : List HandleEntry := []
  chain : List HandleEntry := []
  buffers : List HandleEntry := []
  freeBlocks : Nat := 768
  mergeRsv : Bool := false
  nonzero : Nat := 0
  nonzeroShadow : Nat := 0
  checkLast : Word := 0
  carousel : Option Carousel := none
  persist : List (Nat × Nat) := []
  commits : Nat := 0
  deriving DecidableEq, Repr, Inhabited

/-- What an outstanding read request fetches: a line of a ring, a line of a stream's index buffer, a source line of the light path; `gone` where
what asked for it has gone, and its response finds no taker. -/
inductive ReadFor where
  | ring (c : CombId) (r : Fin 12) (ser : Nat)
  | index (c : CombId) (r : Fin 12) (task role : Nat)
  | light
  | gone
  deriving DecidableEq, Repr, Inhabited

/-- An outstanding read of one line (R449, R450). -/
structure ReadReq where
  chan : ChanId
  id : BitVec 10
  addr : Nat
  dst : ReadFor
  tries : Nat := 0
  deriving DecidableEq, Repr, Inhabited

/-- Whose write it is, for parks and completion (R289). -/
inductive Writer where
  | comb (c : CombId) (ctx : Fin 4) (task : Nat)
  | hub (task : Nat)
  | cap (task : Nat)
  | link (task : Nat)
  | firmware
  | log
  deriving DecidableEq, Repr, Inhabited

/-- A write of (part of) one line (R453): engine reads see it, memory holds it from its OK response. It waits for its channel's grant (R267)
until it is `sent` under its tag; `clean` marks a line of a region's clear, whose poison mark it removes (R210). -/
structure WriteReq where
  chan : ChanId
  id : BitVec 10 := 0
  sent : Bool := false
  line : Nat
  bytes : List (Nat × Byte)
  poison : Bool
  tries : Nat := 1
  who : Writer
  parked : Bool := false
  doomed : Bool := false
  clean : Bool := false
  event : Option XlatOp := none
  deriving DecidableEq, Repr, Inhabited

/-- The memory port: outstanding reads, writes that wait or are outstanding, the last forager served (round robin), translation events that came while the hub's clock was stopped (R449 to R454). -/
structure MemPort where
  reads : List ReadReq := []
  writes : List WriteReq := []
  nextId : Nat := 0
  rr : Nat := 0
  heldXlat : List (XlatOp × Nat × Nat) := []
  deriving DecidableEq, Repr, Inhabited

/-- The short descriptor that the light path executes (R256): what it moves, its source lines in order, whether its writes have been handed to the
memory port; a source line that faults parks it (R257, R286), with a translation event that waits for its record. -/
structure LightMove where
  src : Nat := 0
  dst : Nat := 0
  len : Nat := 0
  fill : Bool := false
  byte : Byte := 0
  lines : List SlotLine := []
  written : Bool := false
  parked : Bool := false
  event : Option XlatOp := none
  deriving DecidableEq, Repr, Inhabited

/-- The hub forager (R255 to R257, R290): LIGHT task with its list position, the short descriptor in execution, descriptor batches, handles popped from the
combs' outbound queues and not yet pushed on (Table 08-9), park records. -/
structure HubForager where
  light : Option (Nat × Nat) := none
  opened : Option LightMove := none
  cache : List Batch := []
  hand : List HandleEntry := []
  parks : List Park := List.replicate 16 {}
  deriving DecidableEq, Repr, Inhabited

/-- The update argument record (Table 10-1). -/
structure UpdArg where
  group : Nat
  scaleGroup : Nat
  scaleTrain : Bool
  gradF32 : Bool
  scaleInit : Bool
  linear : Bool
  rows : Nat
  rowLen : Nat
  k : Nat
  master : Nat
  m : Nat
  v : Nat
  grad : Nat
  sgrad : Nat
  smom : Nat
  freeze : Nat
  rowStart : Nat
  codePitch : Nat
  factorPitch : Nat
  cand : Nat
  prune : Nat
  deriving DecidableEq, Repr, Inhabited

/-- A checkpoint list in progress (R359 to R362). -/
structure CkptJob where
  list : Nat
  entries : Nat
  coefDst : Nat
  manifest : Nat
  next : Nat := 0
  poisoned : Nat := 0
  deriving DecidableEq, Repr, Inhabited

/-- What the capping unit runs (R325): the task, the argument record, the mask mode that it gives (0 DENSE, 1 NM28, 2 NM48,
3 FREE), copied coefficient entries (R335), the slots it reads and writes, its place (row, or block row and block column), the
clamp fraction's counts (R190). `skipRows` are the rows of the present block row copied for their header (R353), `heldRows` those
copied for a poisoned line. -/
structure CapJob where
  task : Nat
  kind : Nat
  param : Nat
  arg : UpdArg := default
  coef : List Word := []
  scoef : List Word := []
  lrT : Word := 0
  slrT : Word := 0
  from_ : Nat := 0
  target : Option Nat := none
  row : Nat := 0
  block : Nat := 0
  codesWritten : Nat := 0
  codesClamped : Nat := 0
  mode : Nat := 0
  w8 : Bool := false
  w4 : Bool := false
  room : Bool := true
  skipRows : List Nat := []
  heldRows : List Nat := []
  ckpt : Option CkptJob := none
  deriving DecidableEq, Repr, Inhabited

/-- The capping unit (10_capping_unit): job, a task that waits for a version slot (R239), coefficient table by flat word
index, its handle queue, the spill entry that it applies, whether the task's turn is next (R326), STEP of the last checkpoint and
the largest STEP of the tasks started (R363). -/
structure Cap where
  job : Option CapJob := none
  waiting : Option CapJob := none
  coef : AMap Nat Word := []
  queue : List HandleEntry := []
  spill : List HandleEntry := []
  turn : Bool := false
  ckptStep : Word := 0xFFFFFFFF
  lastStep : Option Nat := none
  deriving DecidableEq, Repr, Inhabited

/-- Link port states (LNK_PORT_STATUS.STATE). -/
inductive PortState where
  | disabled | training | waggle | up | down
  deriving DecidableEq, Repr, Inhabited

/-- Steps of the waggle exchange (Table 11-2). -/
inductive WaggleStep where
  | none | caps | accept | retrain | ready
  deriving DecidableEq, Repr, Inhabited

/-- One link port (R367 to R376): the waggle exchange with what it has received, the stream's pins, sequencing, credits held
(`credit`) and given back (`grant`, running totals; `peer`, the partner's last totals), by virtual channel. `uns` holds the
unsequenced flits to send, one of a kind; `held` the sequenced flits not acknowledged, of which `resend` names the next to send
again; `tries` the flit last resent with the resends in a row; `ctl` and `down` channels 2 and 1, where each flit of `down` has
taken its credit; `replay` a unicast of R400 that waits for credits; `waitRx` received data flits whose tag is not ACTIVE
(R387); `tx` the flit last sent. -/
structure Port where
  state : PortState := .disabled
  wstep : WaggleStep := .none
  restarts : Nat := 0
  retryWait : Bool := false
  version : Nat := 0
  features : Byte := 0
  reason : Nat := 0
  partner : BitVec 64 := 0
  partnerPort : Byte := 0
  caps : Option Caps := Option.none
  accept : Option (Byte × Byte) := Option.none
  readySeen : Bool := false
  rate : Nat := 0
  trainReq : Bool := false
  lock : Bool := false
  laneMap : BitVec 24 := 0
  polarity : Byte := 0
  tx : Option Flit := Option.none
  txSeq : BitVec 16 := 0
  held : List Flit := []
  resend : Option Nat := Option.none
  tries : Option (BitVec 16 × Nat) := Option.none
  rxSeq : BitVec 16 := 0
  skipping : Bool := false
  unacked : Nat := 0
  credit0 : Nat := 0
  credit1 : Nat := 0
  peer0 : Nat := 0
  peer1 : Nat := 0
  grant0 : Nat := 0
  grant1 : Nat := 0
  uns : List Flit := []
  ctl : List Flit := []
  down : List Flit := []
  replay : List Flit := []
  waitRx : List Flit := []
  deriving DecidableEq, Repr, Inhabited

/-- Bucket states (Table 11-8). -/
inductive BucketState where
  | waiting | active | landed | done
  deriving DecidableEq, Repr, Inhabited

/-- A tree entry of a group descriptor (Table 11-6). -/
structure Tree where
  rank : Nat
  parent : Option PortId
  children : List (PortId × Nat)
  deriving DecidableEq, Repr, Inhabited

/-- One operand of a flit position (R378): its rank, its 128 entries as BF16 bits, and its poison. -/
structure Operand where
  rank : Nat
  vals : List Nat
  poison : Bool
  deriving DecidableEq, Repr, Inhabited

/-- A flit position whose operands are not all present: those that are, in the order of arrival (R378). -/
structure PartSum where
  offset : Nat
  ops : List Operand
  deriving DecidableEq, Repr, Inhabited

/-- A formed flit of a bucket's contribution or partial sums (R378, R392): its payload and poison by its first group. -/
structure UpFlit where
  offset : Nat
  sign : Bool
  payload : List Byte
  poison : Bool
  deriving DecidableEq, Repr, Inhabited

/-- A bucket (Table 11-7, R383). `rank`, `parent` and `children` are its tree entry; `own` the contribution by position, `sums`
the open positions, `up` the formed flits not yet sent and `upNext` the offset of the next to send; `formed` the results formed at
the root; `out` the RESULT flits that wait for their multicast, with the port that brought each, `got` those forwarded and
written; `drops` the child ports dropped, with the first flit that each has not accepted (R400). `reading` from the release of the regions until
the last of their entries has left (R210); `deadlineOn` runs at the root
from its first contribution (R394); `failed` once the root has sent FAIL; `okSent` once it has sent OK. After a step repeat the
task's bucket is WAITING again with `dispatched` false until its task is (R395); `known` from its first admission on. -/
structure Bucket where
  task : Nat
  tag : Nat
  broadcast : Bool
  sign : Bool
  resultF32 : Bool
  tree : Nat
  entries : Nat
  groupAddr : Nat
  result : Nat
  err : Nat
  seq : Nat
  stepBuckets : Nat
  regions : Nat
  deadline : Nat
  src : Nat
  step : Nat
  group : Nat := 0
  generation : Nat := 0
  rank : Nat := 0
  parent : Option PortId := none
  children : List (PortId × Nat) := []
  dispatched : Bool := true
  known : Bool := false
  admitted : Bool := false
  state : BucketState := .waiting
  attempt : Nat := 0
  order : Nat := 0
  own : List Operand := []
  sums : List PartSum := []
  up : List UpFlit := []
  upNext : Nat := 0
  formed : Nat := 0
  out : List (Option PortId × Flit) := []
  got : Nat := 0
  drops : List (PortId × Nat) := []
  poisonResult : Bool := false
  reading : Bool := false
  deadlineOn : Bool := false
  failed : Bool := false
  okSent : Bool := false
  deriving DecidableEq, Repr, Inhabited

/-- A reduction group of one generation as this device sees it (R377, R401, R402): whether GO has been received, the JOINs that
have come to the leader, whether the leader's time for them is over (`late`). `attempt` holds the present attempt by step, `oks` the leader's OKs as (tag, step, attempt), `sealed`
the last sealed step, `acted` the (step, attempt) whose first FAIL the leader has acted on (R395). -/
structure Group where
  id : Nat
  generation : Nat
  members : Nat
  trees : List Tree
  go : Bool := false
  joins : Nat := 0
  late : Bool := false
  attempt : AMap Nat Nat := []
  oks : List (Nat × Nat × Nat) := []
  acted : List (Nat × Nat) := []
  sealed : Option Nat := none
  deriving DecidableEq, Repr, Inhabited

/-- The link groups and reduction bookkeeping (R377 to R403). `own` holds control messages this device sends to itself; `early`
JOINs that came before their group's descriptor; `admissions` counts the buckets dispatched; `linkQ` are the handle queues of the
link groups; `abandoned` are the groups whose ABANDON this device has received (R397, R398). -/
structure Links where
  ports : List Port := List.replicate 18 {}
  buckets : List Bucket := []
  groups : List Group := []
  own : List Flit := []
  early : List (PortId × Flit) := []
  admissions : Nat := 0
  linkQ : List (List HandleEntry) := [[], [], []]
  abandoned : List Nat := []
  deriving DecidableEq, Repr, Inhabited

/-- An island's clock (R536, R544 to R550): droop state, post-dip hold with its step, cycle counter with the remainder of nominal time (R521), and the hub
cycle at which a rail drop began. `lost` measures how long the clock has been stopped by a dip, in nominal cycles × the hub's
nominal frequency (R272). -/
structure Island where
  started : Bool := false
  locked : Bool := false
  stretched : Bool := false
  stopped : Bool := false
  hold : Bool := false
  holdStep : Nat := 0
  cycles : BitVec 64 := 0
  phase : Nat := 0
  lost : Nat := 0
  droopStart : Nat := 0
  deriving DecidableEq, Repr, Inhabited

/-- A thermal sensor (R474, R475): last code, temperature in 1/16 degree, whether it is failed and has delivered. -/
structure Sensor where
  raw : BitVec 12 := 0
  temp : BitVec 16 := 0
  failed : Bool := false
  seen : Bool := false
  deriving DecidableEq, Repr, Inhabited

/-- FP0's thermal model and loop (R552 to R554), F32 values as bits: fitted parameters in Table 17-4's order, the three
stage temperatures and the integrator. -/
structure Thermal where
  params : List Word := []
  die : Word := 0
  plate : Word := 0
  cool : Word := 0
  integ : Word := 0
  powers : List Nat := []
  deriving DecidableEq, Repr, Inhabited

/-- Power, clocks, sensors and low-power control (17_clocks_power_and_temperature.md). `envTarget` is the envelope that FP0
is moving to, `envKept` the last one it was asked for (its keep region). `stepFrom` is the lower of the steps that a change which is not
complete runs at (R538); `stepCounted` tells that the standing frequency request has been counted as held (R540). `vidOld` is the code
before the last change of rail_core_vid, with the nominal hub periods left of the 100 ns in which the droop detectors still regard it
(R548) and rail_core_good is disregarded; `goodCore` is the pin, `goodSince` tells that it has been 1 at or after their end (R471).
`sampleAge` is the time since a sensor delivered a code, in nominal hub periods up to 1 ms, and `otherCode` whether one that is not valid
has since the last valid one's (Table 14-8). -/
structure Power where
  islands : List Island := List.replicate 57 {}
  vid : Nat := 40
  vidReq : Nat := 40
  vidHeld : Bool := false
  vidOld : Option (Nat × Nat) := none
  goodCore : Bool := false
  goodSince : Bool := true
  coreReq : Bool := false
  sramReq : Bool := false
  step : Nat := 2
  stepReq : Nat := 2
  stepHeld : Bool := false
  stepCounted : Bool := false
  changing : Bool := false
  stepFrom : Nat := 2
  envelope : Nat := 2
  envSet : Bool := false
  envTarget : Option Nat := none
  envKept : Option Nat := none
  lastDip : Nat := 0
  railDropped : Bool := false
  sensors : List Sensor := List.replicate 64 {}
  duty : Nat := 0
  forced : Bool := false
  thermStatus : BitVec 4 := 0
  stale : Bool := false
  sampleAge : Nat := 0
  otherCode : Bool := false
  power : Nat := 0
  demand : Nat := 0
  demandT : Nat := 0
  thermal : Thermal := {}
  pstate : PState := .active
  target : Nat := 0
  padHold : Bool := false
  wakeLatched : Bool := false
  returnStep : Nat := 0
  entryVid : Nat := 40
  deriving DecidableEq, Repr, Inhabited

/-- The sideband target (R459 to R463): pointer, whether the next write byte sets it, retained byte, frozen items 0x02 to
0x07, wake cause. -/
structure Sideband where
  ptr : Byte := 0
  first : Bool := true
  dir : Option SbDir := none
  scratch : Byte := 0
  frozen : Option (List Byte) := none
  wakeCause : Byte := 0
  out : Byte := 0
  ack : Bool := false
  deriving DecidableEq, Repr, Inhabited

/-- The states of the test access port's controller (R476, IEEE 1149.1). -/
inductive TapState where
  | reset | idle
  | selectDr | captureDr | shiftDr | exit1Dr | pauseDr | exit2Dr | updateDr
  | selectIr | captureIr | shiftIr | exit1Ir | pauseIr | exit2Ir | updateIr
  deriving DecidableEq, Repr, Inhabited

/-- The test port (R476): the controller's state, the instruction register with its shift stage, the selected register with its shift
stage, the bits last driven on tdo in Shift-DR, the number of self-tests run and the last result. -/
structure Tap where
  state : TapState := .reset
  ir : Byte := 0x01
  irShift : Byte := 0x01
  dr : Nat := 1
  drShift : List Bool := []
  tdo : List Bool := []
  mbistRuns : Nat := 0
  result : Word := 0
  deriving DecidableEq, Repr, Inhabited

/-- The engine proper: everything but the waiting commands, the posted-write queue and device memory. -/
structure Engine where
  hub : Hub := {}
  rw : AMap RegName Word := []
  ctr : AMap Ctr Nat := []
  mp : MemPort := {}
  fences : List Fence := List.replicate 50 {}
  boot : Boot := {}
  fwp : Fwp := {}
  mbx : Mbx := {}
  log : Log := {}
  sch : Sched := {}
  combs : List Comb := List.replicate 50 {}
  hf : HubForager := {}
  cap : Cap := {}
  lnk : Links := {}
  pwr : Power := {}
  sb : Sideband := {}
  tap : Tap := {}
  deriving DecidableEq, Repr, Inhabited

/-- The whole state: the queue of waiting commands, first in, first out; the posted-write queue (R442), oldest first;
device memory (R416); the engine; the entries that wait in crossings to islands whose clocks a dip has stopped, in the order in which they
came (R17, assumptions/154); while the shadows are not refreshed, the engine as they show it: in NAP and HIBERNATE as at entry (R563),
and while a dip has stopped the hub's clock (text after R550). -/
structure State where
  pending : List Instr := []
  posted : List Posted := []
  mem : Mem := {}
  eng : Engine := {}
  held : List Instr := []
  shadow : Option Engine := none
  deriving DecidableEq, Repr, Inhabited

/-- Why a step faults. No rule of the spec stops the engine as a whole; see NOTES.md, Stops. -/
inductive Fault where
  /-- Raised by nothing: kept so that the type names the outcome. Safe. -/
  | none
  deriving DecidableEq, Repr, Inhabited

/-- Why a step is refused. -/
inductive Refusal where
  /-- Raised by an arm of exec whose command has no meaning yet. Safe. -/
  | notModelled (mnemonic : String)
  deriving DecidableEq, Repr, Inhabited

/-- The engine before rail_aon_good has risen for the first time: OFF (R473, Table 15-1), every register at the Reset
column's value (R10), memory with nothing listed, no command waiting. -/
def State.reset : State := {}

end Sys2Proof.Machine
end

