-- ==== Sys2Proof/Machine/Bits.lean ====
section
/-! DEFINITION. Machine/Bits.lean: bit fields, little-endian bytes (R4), keyed tables and lists as the whole model reads
and writes them. -/

namespace Sys2Proof.Machine

/-- Bits lo to lo+n-1 of a number. -/
def bits (w lo n : Nat) : Nat := w / 2 ^ lo % 2 ^ n

/-- Bit i of a number as a Bool. -/
def bit (w i : Nat) : Bool := w / 2 ^ i % 2 == 1

/-- A number's fields joined: value v at bit lo. -/
def at' (v lo : Nat) : Nat := v * 2 ^ lo

/-- 1 for true. -/
def b2n (b : Bool) : Nat := if b then 1 else 0

/-- A word from a number, modulo 2^32. -/
def w32 (n : Nat) : Word := BitVec.ofNat 32 n

/-- The little-endian number of a byte list (R4). -/
def leNat : List Byte → Nat
  | [] => 0
  | b :: bs => b.toNat + 256 * leNat bs

/-- The n little-endian bytes of a number (R4). -/
def leBytes : (n : Nat) → Nat → List Byte
  | 0, _ => []
  | n + 1, v => BitVec.ofNat 8 v :: leBytes n (v / 256)

/-- n bytes of a list from offset o, zero-filled past its end. -/
def takeBytes (bs : List Byte) (o n : Nat) : List Byte :=
  let t := (bs.drop o).take n
  t ++ List.replicate (n - t.length) 0

/-- The n-byte little-endian field at offset o of a record. -/
def field (bs : List Byte) (o n : Nat) : Nat := leNat (takeBytes bs o n)

/-- A signed reading of an n-bit number. -/
def toSigned (n v : Nat) : Int := if v % 2 ^ n < 2 ^ (n - 1) then (v % 2 ^ n : Nat) else ((v % 2 ^ n : Nat) : Int) - 2 ^ n

/-- The number modulo 2^n of an integer. -/
def ofSigned (n : Nat) (i : Int) : Nat := (i % (2 ^ n : Nat)).toNat

/-- Ceiling division; a zero divisor gives 0. -/
def ceilDiv (a b : Nat) : Nat := (a + b - 1) / b

/-- Clamp to a range. -/
def clampInt (x lo hi : Int) : Int := if x < lo then lo else if hi < x then hi else x

/-- The value of a key, or the table's default. -/
def lookupD {κ α : Type} [DecidableEq κ] : AMap κ α → κ → α → α
  | [], _, d => d
  | (k', v) :: m, k, d => if k' = k then v else lookupD m k d

/-- The table with a key's value replaced, or added at the end. -/
def assign {κ α : Type} [DecidableEq κ] : AMap κ α → κ → α → AMap κ α
  | [], k, v => [(k, v)]
  | (k', v') :: m, k, v => if k' = k then (k, v) :: m else (k', v') :: assign m k v

/-- The table without a key. -/
def erase {κ α : Type} [DecidableEq κ] (m : AMap κ α) (k : κ) : AMap κ α := m.filter fun p => p.1 ≠ k

/-- The list with element i changed by f; unchanged where i is past the end. -/
def updAt {α : Type} : List α → Nat → (α → α) → List α
  | [], _, _ => []
  | a :: l, 0, f => f a :: l
  | a :: l, i + 1, f => a :: updAt l i f

/-- Element i, or d past the end. -/
def elemD {α : Type} (l : List α) (i : Nat) (d : α) : α := (l[i]?).getD d

/-- The first element that satisfies p, changed by f. -/
def updFirst {α : Type} (p : α → Bool) (f : α → α) : List α → List α
  | [] => []
  | a :: l => if p a then f a :: l else a :: updFirst p f l

/-- The list without the first element that satisfies p. -/
def dropFirst {α : Type} (p : α → Bool) : List α → List α
  | [] => []
  | a :: l => if p a then l else a :: dropFirst p l

/-- The index of the first element that satisfies p. -/
def indexOf? {α : Type} (p : α → Bool) : List α → Option Nat
  | [] => none
  | a :: l => if p a then some 0 else (indexOf? p l).map (· + 1)

/-- The numbers lo, …, lo+n-1. -/
def span (lo n : Nat) : List Nat := (List.range n).map (lo + ·)

/-- Every n-element block of a list, in order; `fuel` bounds the number of blocks. -/
def blocks {α : Type} (n : Nat) : (fuel : Nat) → List α → List (List α)
  | 0, _ => []
  | _ + 1, [] => []
  | f + 1, a :: l => (a :: l).take n :: blocks n f ((a :: l).drop n)

/-- Insertion of a number into a rising list without repeats. -/
def insertNat (n : Nat) : List Nat → List Nat
  | [] => [n]
  | m :: l => if n < m then n :: m :: l else if n = m then m :: l else m :: insertNat n l

/-- A list of numbers is strictly rising. -/
def rising : List Nat → Bool
  | [] => true
  | [_] => true
  | a :: b :: l => a < b && rising (b :: l)

/-- The number of elements that satisfy p. -/
def countIf {α : Type} (p : α → Bool) (l : List α) : Nat := (l.filter p).length

/-- The sum of a list of numbers. -/
def sumNat (l : List Nat) : Nat := l.foldl (· + ·) 0

/-- The sum of a list of integers. -/
def sumInt (l : List Int) : Int := l.foldl (· + ·) 0

/-- An element stably before all that it ranks under. -/
def insertBy {α : Type} (lt : α → α → Bool) (a : α) : List α → List α
  | [] => [a]
  | b :: l => if lt a b then a :: b :: l else b :: insertBy lt a l

/-- A stable sort. -/
def sortBy {α : Type} (lt : α → α → Bool) : List α → List α
  | [] => []
  | a :: l => insertBy lt a (sortBy lt l)

/-- The smallest element by a measure, the earliest of equals. -/
def minBy {α : Type} (m : α → Nat) : List α → Option α
  | [] => none
  | a :: l => some (l.foldl (fun b c => if m c < m b then c else b) a)

/-- The elements without later repeats. -/
def dedup {α : Type} [DecidableEq α] (l : List α) : List α :=
  (l.foldl (fun acc a => if a ∈ acc then acc else a :: acc) []).reverse

/-- The transpose of rows of width n; a short row reads the default. -/
def transpose {α : Type} (n : Nat) (d : α) (rows : List (List α)) : List (List α) :=
  (List.range n).map fun j => rows.map fun r => elemD r j d

/-- Every comb. -/
def allCombs : List CombId := List.finRange 50
/-- Every link port. -/
def allPorts : List PortId := List.finRange 18
/-- Every frame of a comb. -/
def allFrames : List FrameId := List.finRange 4

end Sys2Proof.Machine
end

