-- ==== Sys2Proof/Machine/Crypto.lean ====
section
/-! DEFINITION. Machine/Crypto.lean: CRC-32C (00_scope.md, Conventions; R404), and SHA-384 with ECDSA on P-384, by which
firmware is authenticated (R497). The spec names the hash and the curve; their constants are those of FIPS 180-4 and
FIPS 186 (PRESUMED, assumptions/20). -/

namespace Sys2Proof.Machine

/-- One bit of the reflected CRC-32C register. -/
def crcBit (c : Nat) : Nat := if c % 2 = 1 then Nat.xor (c / 2) 0x82F63B78 else c / 2

/-- One byte into the CRC register. -/
def crcByte (c : Nat) (b : Byte) : Nat :=
  crcBit (crcBit (crcBit (crcBit (crcBit (crcBit (crcBit (crcBit (Nat.xor c b.toNat))))))))

/-- The CRC register after a byte list. The match makes the kernel evaluate the register byte by byte. -/
def crcBytes : List Byte → Nat → Nat
  | [], c => c
  | b :: bs, c => match crcByte c b with
    | 0 => crcBytes bs 0
    | n + 1 => crcBytes bs (n + 1)

/-- CRC-32C (Castagnoli) of a byte list. -/
def crc32c (bs : List Byte) : Word := w32 (Nat.xor (crcBytes bs 0xFFFFFFFF) 0xFFFFFFFF)

/-- Fabric check of a 64-byte line at a device virtual address (R404): its data, then the address as eight bytes with
bits 63:52 zero. -/
def fabricCheck (data : List Byte) (addr : Nat) : Word := crc32c (data ++ leBytes 8 (addr % 2 ^ 52))

/-- SHA-512 family round constants (FIPS 180-4). -/
def shaK : List Nat :=
  ([0x428a2f98d728ae22, 0x7137449123ef65cd, 0xb5c0fbcfec4d3b2f, 0xe9b5dba58189dbbc] ++
   [0x3956c25bf348b538, 0x59f111f1b605d019, 0x923f82a4af194f9b, 0xab1c5ed5da6d8118] ++
   [0xd807aa98a3030242, 0x12835b0145706fbe, 0x243185be4ee4b28c, 0x550c7dc3d5ffb4e2] ++
   [0x72be5d74f27b896f, 0x80deb1fe3b1696b1, 0x9bdc06a725c71235, 0xc19bf174cf692694] ++
   [0xe49b69c19ef14ad2, 0xefbe4786384f25e3, 0x0fc19dc68b8cd5b5, 0x240ca1cc77ac9c65] ++
   [0x2de92c6f592b0275, 0x4a7484aa6ea6e483, 0x5cb0a9dcbd41fbd4, 0x76f988da831153b5] ++
   [0x983e5152ee66dfab, 0xa831c66d2db43210, 0xb00327c898fb213f, 0xbf597fc7beef0ee4] ++
   [0xc6e00bf33da88fc2, 0xd5a79147930aa725, 0x06ca6351e003826f, 0x142929670a0e6e70] ++
   [0x27b70a8546d22ffc, 0x2e1b21385c26c926, 0x4d2c6dfc5ac42aed, 0x53380d139d95b3df] ++
   [0x650a73548baf63de, 0x766a0abb3c77b2a8, 0x81c2c92e47edaee6, 0x92722c851482353b] ++
   [0xa2bfe8a14cf10364, 0xa81a664bbc423001, 0xc24b8b70d0f89791, 0xc76c51a30654be30] ++
   [0xd192e819d6ef5218, 0xd69906245565a910, 0xf40e35855771202a, 0x106aa07032bbd1b8] ++
   [0x19a4c116b8d2d0c8, 0x1e376c085141ab53, 0x2748774cdf8eeb99, 0x34b0bcb5e19b48a8] ++
   [0x391c0cb3c5c95a63, 0x4ed8aa4ae3418acb, 0x5b9cca4f7763e373, 0x682e6ff3d6b2b8a3] ++
   [0x748f82ee5defb2fc, 0x78a5636f43172f60, 0x84c87814a1f0ab72, 0x8cc702081a6439ec] ++
   [0x90befffa23631e28, 0xa4506cebde82bde9, 0xbef9a3f7b2c67915, 0xc67178f2e372532b] ++
   [0xca273eceea26619c, 0xd186b8c721c0c207, 0xeada7dd6cde0eb1e, 0xf57d4f7fee6ed178] ++
   [0x06f067aa72176fba, 0x0a637dc5a2c898a6, 0x113f9804bef90dae, 0x1b710b35131c471b] ++
   [0x28db77f523047d84, 0x32caab7b40c72493, 0x3c9ebe0a15c9bebc, 0x431d67c49c100d4c] ++
   [0x4cc5d4becb3e42b6, 0x597f299cfc657e2a, 0x5fcb6fab3ad6faec, 0x6c44198c4a475817])

/-- SHA-384 initial hash value (FIPS 180-4). -/
def sha384Iv : List Nat :=
  [0xcbbb9d5dc1059ed8, 0x629a292a367cd507, 0x9159015a3070dd17, 0x152fecd8f70e5939,
   0x67332667ffc00b31, 0x8eb44a8768581511, 0xdb0c2e0d64f98fa7, 0x47b5481dbefa4fa4]

/-- Rotation right in 64 bits. -/
def ror64 (x n : Nat) : Nat := x / 2 ^ n + x % 2 ^ n * 2 ^ (64 - n)

/-- Exclusive or of three. -/
def xor3 (a b c : Nat) : Nat := Nat.xor a (Nat.xor b c)

/-- The message schedule's next word from the sixteen before it, newest first. -/
def shaNextW (w : List Nat) : Nat :=
  let a := elemD w 1 0
  let b := elemD w 14 0
  let s1 := xor3 (ror64 a 19) (ror64 a 61) (a / 2 ^ 6)
  let s0 := xor3 (ror64 b 1) (ror64 b 8) (b / 2 ^ 7)
  (s1 + elemD w 6 0 + s0 + elemD w 15 0) % 2 ^ 64

/-- The 80 schedule words of a block, oldest first. -/
def shaSchedule (block : List Nat) : List Nat :=
  ((List.range 64).foldl (fun w _ => shaNextW w :: w) block.reverse).reverse

/-- One SHA-512 round on the eight working variables. -/
def shaRound (v : List Nat) (kw : Nat) : List Nat :=
  match v with
  | [a, b, c, d, e, f, g, h] =>
    let ch := Nat.xor (Nat.land e f) (Nat.land (2 ^ 64 - 1 - e) g)
    let t1 := (h + xor3 (ror64 e 14) (ror64 e 18) (ror64 e 41) + ch + kw) % 2 ^ 64
    let t2 := xor3 (ror64 a 28) (ror64 a 34) (ror64 a 39) + xor3 (Nat.land a b) (Nat.land a c) (Nat.land b c)
    [(t1 + t2) % 2 ^ 64, a, b, c, (d + t1) % 2 ^ 64, e, f, g]
  | v => v

/-- The compression of one 128-byte block into the hash value. -/
def shaBlock (hv : List Nat) (block : List Nat) : List Nat :=
  let v := (List.zipWith (· + ·) shaK (shaSchedule block)).foldl shaRound hv
  List.zipWith (fun a b => (a + b) % 2 ^ 64) hv v

/-- The big-endian number of a byte list. -/
def beNat (bs : List Byte) : Nat := bs.foldl (fun n b => 256 * n + b.toNat) 0

/-- The n big-endian bytes of a number. -/
def beBytes (n v : Nat) : List Byte := (leBytes n v).reverse

/-- The padded message as 64-bit words. -/
def shaPad (m : List Byte) : List Nat :=
  let k := (239 - m.length % 128) % 128
  let all := m ++ [0x80] ++ List.replicate k 0 ++ beBytes 16 (8 * m.length)
  (blocks 8 (all.length / 8 + 1) all).map beNat

/-- SHA-384 of a byte list, 48 bytes. -/
def sha384 (m : List Byte) : List Byte :=
  let ws := shaPad m
  let hv := (blocks 16 (ws.length / 16 + 1) ws).foldl shaBlock sha384Iv
  ((hv.take 6).map (beBytes 8)).flatten

/-- The prime of P-384 (FIPS 186). -/
def p384P : Nat := 2 ^ 384 - 2 ^ 128 - 2 ^ 96 + 2 ^ 32 - 1
/-- The curve's b. -/
def p384B : Nat := 0xb3312fa7e23ee7e4988e056be3f82d19181d9c6efe8141120314088f5013875ac656398d8a2ed19d2a85c8edd3ec2aef
/-- The base point. -/
def p384Gx : Nat := 0xaa87ca22be8b05378eb1c71ef320ad746e1d3b628ba79b9859f741e082542a385502f25dbf55296c3a545e3872760ab7
def p384Gy : Nat := 0x3617de4a96262c6f5d9e98bf9292dc29f8f41dbd289a147ce9da3113b5f0b8c00a60b1ce1d7e819d7a431d7c90ea0e5f
/-- The group order. -/
def p384N : Nat := 0xffffffffffffffffffffffffffffffffffffffffffffffffc7634d81f4372ddf581a0db248b0a77aecec196accc52973

/-- b^e mod m, by the exponent's bits from the lowest. -/
def powMod (b e m : Nat) : Nat :=
  ((List.range 384).foldl (fun (acc : Nat × Nat) i =>
    (if bit e i then acc.1 * acc.2 % m else acc.1, acc.2 * acc.2 % m)) (1, b % m)).1

/-- A point in Jacobian coordinates; z = 0 is the point at infinity. -/
structure JPoint where
  x : Nat
  y : Nat
  z : Nat
  deriving DecidableEq, Repr

/-- a - b modulo p. -/
def subP (a b : Nat) : Nat := (a + p384P - b % p384P) % p384P

/-- Doubling (a = -3). -/
def jDouble (q : JPoint) : JPoint :=
  if q.z = 0 ∨ q.y = 0 then ⟨1, 1, 0⟩
  else
    let zz := q.z * q.z % p384P
    let m := 3 * (subP q.x zz * ((q.x + zz) % p384P)) % p384P
    let yy := q.y * q.y % p384P
    let s := 4 * q.x * yy % p384P
    let x := subP (m * m % p384P) (2 * s)
    ⟨x, subP (m * subP s x % p384P) (8 * (yy * yy % p384P)), 2 * q.y * q.z % p384P⟩

/-- Addition. -/
def jAdd (a b : JPoint) : JPoint :=
  if a.z = 0 then b
  else if b.z = 0 then a
  else
    let za := a.z * a.z % p384P
    let zb := b.z * b.z % p384P
    let u1 := a.x * zb % p384P
    let u2 := b.x * za % p384P
    let s1 := a.y * (zb * b.z % p384P) % p384P
    let s2 := b.y * (za * a.z % p384P) % p384P
    if u1 = u2 then (if s1 = s2 then jDouble a else ⟨1, 1, 0⟩)
    else
      let h := subP u2 u1
      let r := subP s2 s1
      let hh := h * h % p384P
      let hhh := hh * h % p384P
      let v := u1 * hh % p384P
      let x := subP (r * r % p384P) (hhh + 2 * v)
      ⟨x, subP (r * subP v x % p384P) (s1 * hhh), a.z * b.z % p384P * h % p384P⟩

/-- k times a point, by k's bits from the highest. -/
def jMul (k : Nat) (q : JPoint) : JPoint :=
  (List.range 384).reverse.foldl (fun acc i => let d := jDouble acc; if bit k i then jAdd d q else d) ⟨1, 1, 0⟩

/-- The affine x of a point that is not at infinity. -/
def jAffineX (q : JPoint) : Nat :=
  let zi := powMod q.z (p384P - 2) p384P
  q.x * (zi * zi % p384P) % p384P

/-- ECDSA verification on P-384 of a 384-bit hash with public key (qx, qy) and signature (r, s) (R497). -/
def ecdsaVerify (qx qy r s h : Nat) : Bool :=
  if qx < p384P ∧ qy < p384P ∧ (qx ≠ 0 ∨ qy ≠ 0) ∧
      qy * qy % p384P = (qx * qx % p384P * qx + (p384P - 3) * qx + p384B) % p384P ∧
      0 < r ∧ r < p384N ∧ 0 < s ∧ s < p384N then
    let w := powMod s (p384N - 2) p384N
    let pt := jAdd (jMul (h * w % p384N) ⟨p384Gx, p384Gy, 1⟩) (jMul (r * w % p384N) ⟨qx, qy, 1⟩)
    pt.z ≠ 0 && jAffineX pt % p384N == r
  else false

end Sys2Proof.Machine
end

