-- ==== Sys2Proof/Machine/RegTable.lean ====
section
/-! DEFINITION. Machine/RegTable.lean: the control port's address map (R565, R568, R569, Tables 18-1 to 18-12) and the
RW fields of each register with their reset values and whether warm reset keeps them (R566). -/

namespace Sys2Proof.Machine

/-- Hub registers with their offsets. -/
def hubRegs : List (Nat × RegName) :=
  [(0x0000, .hubId), (0x0004, .hubCaps), (0x0008, .hubBadAccess), (0x000C, .hubCpStatus), (0x0040, .hubFmtCtrl),
   (0x0044, .hubSrSeed), (0x0048, .hubLayoutFaults), (0x004C, .hubQntCtrl), (0x0050, .hubBroodSpilled),
   (0x0054, .hubPoisonCtrl), (0x0058, .hubCheckEvents), (0x0060, .hubErrStatus), (0x0064, .hubErrMask),
   (0x0068, .hubFenceMaskLo), (0x006C, .hubFenceMaskHi), (0x0070, .hubErrFirst), (0x0074, .hubErrFirstTask),
   (0x0078, .hubFenceSel), (0x007C, .hubFenceInfo), (0x0080, .hubModeStatus), (0x0084, .hubIrqPins),
   (0x0088, .hubDone), (0x008C, .hubBoundaryEvents), (0x0090, .hubSbAddr)]

/-- Scheduler and forager registers with their offsets. -/
def schRegs : List (Nat × RegName) :=
  [(0x0800, .schCtrl), (0x0804, .schStatus), (0x0808, .schReady), (0x080C, .schFetched), (0x0810, .schCompleted),
   (0x0814, .schEvents), (0x0818, .schWindowFull), (0x081C, .schGenActive), (0x0820, .schGenIter),
   (0x1000, .frgDlOffset), (0x1004, .frgPfCtrl), (0x1008, .frgPfEvents), (0x100C, .frgLight)]

/-- Capping-unit and link registers with their offsets. -/
def updRegs : List (Nat × RegName) :=
  [(0x1800, .updStatus), (0x1804, .updCoefSel), (0x1808, .updCoefData), (0x180C, .updRowEvents),
   (0x1810, .updQntEvents), (0x1814, .updClamped), (0x1818, .updPruned), (0x181C, .updRegrown),
   (0x1820, .updMaskEvents), (0x1824, .updCkptStep), (0x18C0, .updW8Switch), (0x18C4, .updSpillAdds),
   (0x18C8, .updVersionStall), (0x2000, .lnkCtrl), (0x2004, .lnkStatus), (0x2008, .lnkOldestStep),
   (0x200C, .lnkEvents), (0x2010, .lnkMcastEvents), (0x2014, .lnkStaleFlits)]

/-- Power and clock registers with their offsets. -/
def pwrRegs : List (Nat × RegName) :=
  [(0x3000, .pwrMode), (0x3004, .pwrStatus), (0x3008, .pwrPadRelease), (0x3010, .pwrVid), (0x3014, .clkCombFreq),
   (0x3018, .pwrDvfsEvents), (0x3020, .pwrDroopEvents), (0x3024, .pwrLimits), (0x3030, .pwrThrottle),
   (0x3034, .pwrEst), (0x3038, .pwrDemandT), (0x3040, .pwrThermStatus), (0x3044, .pwrThermMask),
   (0x3048, .pwrThermCtrl), (0x3080, .pwrTsSel), (0x3084, .pwrTsData), (0x3100, .clkIslSel), (0x3104, .clkIslStatus)]

/-- Firmware and mailbox registers with their offsets. -/
def fwpRegs : List (Nat × RegName) :=
  [(0x3400, .fwpStatus), (0x3404, .fwpRestarts), (0x3408, .fwpLastRestart), (0x340C, .fwpLastPc), (0x3410, .fwpWdt),
   (0x3800, .mbxCmdHdr), (0x3804, .mbxCmdLen), (0x3848, .mbxCmdCtrl), (0x3880, .mbxRspHdr), (0x3884, .mbxRspLen),
   (0x38C8, .mbxRspCtrl), (0x38D0, .mbxHost), (0x38D4, .mbxHbTimeout), (0x38D8, .mbxHbAge)]

/-- Command data words with their offsets. -/
def cmdRegs : List (Nat × RegName) :=
  (List.finRange 16).map fun (i : Fin 16) => (0x3808 + 4 * i.val, RegName.mbxCmdData i)

/-- Response data words with their offsets. -/
def rspRegs : List (Nat × RegName) :=
  (List.finRange 16).map fun (i : Fin 16) => (0x3888 + 4 * i.val, RegName.mbxRspData i)

/-- Log registers with their offsets. -/
def logRegs : List (Nat × RegName) :=
  [(0x3C00, .logBaseLo), (0x3C04, .logBaseHi), (0x3C08, .logSize), (0x3C0C, .logHead), (0x3C10, .logTail),
   (0x3C14, .logCtrl), (0x3C18, .logLost), (0x3C1C, .logShadow), (0x3C40, .logSeq)]

/-- Log masks with their offsets. -/
def maskRegs : List (Nat × RegName) :=
  (List.finRange 8).map fun (i : Fin 8) => (0x3C20 + 4 * i.val, RegName.logMask i)

/-- Configuration and fuse registers with their offsets. -/
def cfgRegs : List (Nat × RegName) :=
  [(0x3D00, .cfgStatus), (0x3D04, .cfgImage), (0x3D08, .cfgMbxRange), (0x3D0C, .cfgReset), (0x3D20, .cfgFwCtrl),
   (0x3D24, .cfgFwWinAddr), (0x3D28, .cfgFwWinData), (0x3D2C, .cfgFwDmaLo), (0x3D30, .cfgFwDmaHi), (0x3D34, .cfgFwInfo),
   (0x3E00, .fusIdLo), (0x3E04, .fusIdHi), (0x3E08, .fusFenceLo), (0x3E0C, .fusFenceHi), (0x3E10, .fusSpareLo),
   (0x3E14, .fusSpareHi), (0x3E18, .fusOptions), (0x3E1C, .fusTrimSel), (0x3E20, .fusTrimData)]

/-- Key hash words with their offsets. -/
def keyRegs : List (Nat × RegName) :=
  (List.finRange 12).map fun (i : Fin 12) => (0x3E40 + 4 * i.val, RegName.fusKeyHash i)

/-- Registers outside the per-port, per-comb and per-frame windows, with their offsets (Tables 18-2 to 18-6, 18-8 to 18-10). -/
def globalRegs : List (Nat × RegName) :=
  hubRegs ++ schRegs ++ updRegs ++ pwrRegs ++ fwpRegs ++ cmdRegs ++ rspRegs ++ logRegs ++ maskRegs ++ cfgRegs ++ keyRegs

/-- A link port's registers by offset (Table 18-7). -/
def portReg (p : PortId) (o : Nat) : Option RegName :=
  match o with
  | 0x00 => some (.portCtrl p)
  | 0x04 => some (.portStatus p)
  | 0x08 => some (.portPartnerLo p)
  | 0x0C => some (.portPartnerHi p)
  | 0x10 => some (.portErrors p)
  | 0x14 => some (.portTxFlits p)
  | 0x18 => some (.portRxFlits p)
  | _ => none

/-- A comb's registers by offset (Table 18-11). -/
def combReg (c : CombId) (o : Nat) : Option RegName :=
  if o % 4 ≠ 0 then none
  else if 0x040 ≤ o ∧ o ≤ 0x064 then some (.cmbStall c (Fin.ofNat 10 ((o - 0x40) / 4)))
  else if 0x090 ≤ o ∧ o ≤ 0x0A0 then some (.cmbPfIdx c (Fin.ofNat 5 ((o - 0x90) / 4)))
  else match o with
  | 0x070 => some (.cmbRingStatus c)
  | 0x074 => some (.cmbFrgEvents c)
  | 0x080 => some (.cmbPfSel c)
  | 0x084 => some (.cmbPfState c)
  | 0x088 => some (.cmbPfVaLo c)
  | 0x08C => some (.cmbPfVaHi c)
  | 0x0A4 => some (.cmbPfIdxPos c)
  | 0x0A8 => some (.cmbEpochFaults c)
  | 0x0AC => some (.cmbCheckEvents c)
  | 0x0B0 => some (.cmbCheckLast c)
  | 0x0B4 => some (.cmbPoisonEvents c)
  | 0x0C0 => some (.cmbFmtFaults c)
  | 0x0C4 => some (.cmbLayoutFaults c)
  | 0x0C8 => some (.cmbOvfLane c)
  | 0x0CC => some (.cmbOvfSteps c)
  | 0x0D0 => some (.cmbTrimDropped c)
  | 0x0D4 => some (.cmbMetaSuspect c)
  | 0x0D8 => some (.cmbZmapSkipped c)
  | 0x0DC => some (.cmbObsCtrl c)
  | 0x0E0 => some (.cmbObsUflow c)
  | 0x0E4 => some (.cmbObsNonzero c)
  | 0x0E8 => some (.cmbObsRows c)
  | 0x0EC => some (.cmbObsHist c)
  | 0x0F0 => some (.cmbQntEvents c)
  | 0x0F4 => some (.cmbBroodStatus c)
  | 0x0F8 => some (.cmbStoreEvents c)
  | 0x0FC => some (.cmbActHits c)
  | _ => none

/-- A frame's registers by offset (Table 18-12). -/
def frameReg (c : CombId) (f : FrameId) (o : Nat) : Option RegName :=
  match o with
  | 0x00 => some (.frmStatus c f)
  | 0x04 => some (.frmFreezeDrain c f)
  | 0x08 => some (.frmFreezeRowf c f)
  | 0x0C => some (.frmFreezeColf c f)
  | 0x10 => some (.frmActiveCycles c f)
  | 0x14 => some (.frmIntervals c f)
  | 0x18 => some (.frmReplays c f)
  | _ => none

/-- The register at a byte address; none for a reserved location, misaligned addresses included (R447, R565). -/
def regAt (a : Nat) : Option RegName :=
  if a % 4 ≠ 0 ∨ 0xA400 ≤ a then none
  else if 0x4000 ≤ a then
    let c : CombId := Fin.ofNat 50 ((a - 0x4000) / 0x200)
    let o := (a - 0x4000) % 0x200
    if o < 0x100 then combReg c o else frameReg c (Fin.ofNat 4 ((o - 0x100) / 0x40)) ((o - 0x100) % 0x40)
  else if 0x2800 ≤ a ∧ a < 0x2C80 then portReg (Fin.ofNat 18 ((a - 0x2800) / 0x40)) ((a - 0x2800) % 0x40)
  else (globalRegs.find? fun p => p.1 == a).map Prod.snd

/-- The RW fields of a register: their mask, reset value and whether warm reset keeps them (Tables 18-2 to 18-12 and the
owning chapters). Registers whose written value lives in a unit's own state (PWR_MODE, PWR_VID, CLK_COMB_FREQ,
PWR_THROTTLE, UPD_COEF_DATA) have none here. -/
def rwSpec : RegName → Option (Nat × Nat × Bool)
  | .hubFmtCtrl => some (0x0000FF01, 0x00001800, true)
  | .hubSrSeed => some (0xFFFFFFFF, 0, true)
  | .hubQntCtrl => some (0x00FFFF01, 0x00100401, true)
  | .hubPoisonCtrl => some (0x1, 0, true)
  | .hubErrMask => some (0xFF, 0xBC, true)
  | .hubFenceSel => some (0x3F, 0, false)
  | .hubDone => some (0x100, 0x100, true)
  | .schCtrl => some (0x00FFFF03, 0x0001F402, true)
  | .frgDlOffset => some (0x00FFFFFF, 0x00401000, true)
  | .frgPfCtrl => some (0xFFFF, 0x64, true)
  | .updCoefSel => some (0x80003F1F, 0, true)
  | .lnkCtrl => some (0xFFFFFFFF, 0x03140064, true)
  | .portCtrl _ => some (0x7, 0x6, true)
  | .pwrThermMask => some (0xF, 0x6, true)
  | .pwrThermCtrl => some (0xFFFF, 0x695F, true)
  | .pwrTsSel => some (0x3F, 0, false)
  | .clkIslSel => some (0x3F, 0, false)
  | .fwpWdt => some (0xFF, 0x0A, true)
  | .mbxCmdHdr => some (0xFFFFFFFF, 0, false)
  | .mbxCmdLen => some (0x1F, 0, false)
  | .mbxCmdData _ => some (0xFFFFFFFF, 0, false)
  | .mbxRspCtrl => some (0x10000, 0x10000, false)
  | .logBaseLo => some (0xFFFFF000, 0, true)
  | .logBaseHi => some (0xFFFFF, 0, true)
  | .logSize => some (0x1F, 0, true)
  | .logTail => some (0xFFFFFF, 0, false)
  | .logCtrl => some (0x1, 0, false)
  | .logMask i => some (0xFFFFFFFF, if i = 0 then 1 else 0, true)
  | .cfgFwCtrl => some (0x2, 0, false)
  | .cfgFwWinAddr => some (0x003FFFFC, 0, false)
  | .cfgFwDmaLo => some (0xFFFFFFC0, 0, false)
  | .cfgFwDmaHi => some (0xFFFFF, 0, false)
  | .fusTrimSel => some (0x3F, 0, true)
  | .cmbRingStatus _ => some (0xF8000000, 0, false)
  | .cmbPfSel _ => some (0x7, 0, false)
  | .cmbObsCtrl _ => some (0x3, 0, false)
  | .cmbObsHist _ => some (0xFC000000, 0, false)
  | _ => none

/-- Mask of a register's RW fields. -/
def rwMask (r : RegName) : Nat := match rwSpec r with | some (m, _, _) => m | none => 0
/-- Reset value of a register's RW fields. -/
def rwReset (r : RegName) : Nat := match rwSpec r with | some (_, v, _) => v | none => 0
/-- Whether warm reset keeps a register's RW fields. -/
def rwKept (r : RegName) : Bool := match rwSpec r with | some (_, _, k) => k | none => false

/-- The RW fields of a register as the engine acts on them. -/
def rwVal (e : Engine) (r : RegName) : Nat := (lookupD e.rw r (w32 (rwReset r))).toNat

/-- The RW fields of a register set; other bits are dropped. -/
def setRw (e : Engine) (r : RegName) (v : Nat) : Engine :=
  { e with rw := assign e.rw r (w32 (Nat.land v (rwMask r))) }

end Sys2Proof.Machine
end

