-- ==== Sys2Proof/Machine/Flags.lean ====
section
/-! DEFINITION. Machine/Flags.lean: counters (R6, R445), error events (HUB_ERR_STATUS, R421, R422), the poison event
(R420), log records on their way to the hub (R520 to R523) and the interrupt levels (R467). -/

namespace Sys2Proof.Machine

/-- Width of a comb's counter field (Table 18-11's registers). -/
def combCtrWidth : CombCtr → Nat
  | .stallMem | .stallXlat | .stallCredit | .stallDep | .stallDrain | .stallVpin | .stallReplay | .stallDroop
  | .stallThermal | .stallLink => 32
  | .descInvalid | .ringShrunk | .descRefetch | .carouselRefetch => 8
  | .epochMismatch | .epochStale => 16
  | .checkRetries | .laneMismatch | .slotCrc | .fabricRetry => 8
  | .linesIn | .linesOut => 16
  | .nonfiniteRows => 16
  | .badHeaders | .scaleFloored => 8
  | .misaligned => 16
  | .oobClamped | .oobFilled => 8
  | .ovfLane | .ovfSteps | .trimDropped => 32
  | .oorSlots => 16
  | .suspectTiles | .trapTiles => 8
  | .zmapSkipped | .uflow => 32
  | .zeroRows | .flatRows => 16
  | .hist _ => 26
  | .wideReruns => 16
  | .ilenCapped | .xformAlign => 8
  | .actDropped => 16
  | .stepWaits | .frozenSkipped => 8
  | .actHits => 32

/-- Width of a counter's field; SIGN_EXPANDED counts flits in a 16-bit count whose upper four bits are the field. -/
def ctrWidth : Ctr → Nat
  | .badAccess => 16
  | .hubMisaligned => 16
  | .hubOobClamped | .hubOobFilled => 8
  | .broodSpilled | .hubFabricRetry | .hubLaneMismatch => 16
  | .railDrops | .writeRejects | .sbWakes | .linkPhyLost => 8
  | .reissued | .poisonIn => 16
  | .windowFull => 32
  | .parked | .unresolved => 16
  | .light => 32
  | .frozenRows => 16
  | .skippedPoison | .skippedNonfinite => 8
  | .flatRows | .scaleFloored => 16
  | .clamped | .pruned | .regrown => 32
  | .regrowShort => 16
  | .repaired | .maskNoRoom => 8
  | .switched | .noRoom => 16
  | .spillAdds | .versionStall => 32
  | .repeats => 16
  | .deadlineExp | .poisonSums => 8
  | .dropped | .replays => 16
  | .staleFlits => 32
  | .crcErrors _ | .retries _ => 12
  | .stomped _ => 4
  | .signExpanded _ => 16
  | .txFlits _ | .rxFlits _ => 32
  | .heldFreq | .heldVid => 16
  | .dips => 24
  | .restarts _ => 8
  | .mbxIgnored => 8
  | .logLost => 32
  | .authFails => 8
  | .comb _ k => combCtrWidth k
  | .frame _ _ .ovfReplays => 16
  | .frame _ _ .splits => 16
  | .frame _ _ _ => 32

/-- The largest value of a counter. -/
def ctrMax (c : Ctr) : Nat := 2 ^ ctrWidth c - 1

/-- A counter's live count. -/
def ctrVal (e : Engine) (c : Ctr) : Nat := lookupD e.ctr c 0

/-- The engine with a counter set. -/
def setCtr (e : Engine) (c : Ctr) (v : Nat) : Engine := { e with ctr := assign e.ctr c v }

/-- n events counted, saturating at the all-ones value (R422, R479, R535, R564 texts). -/
def bump (e : Engine) (c : Ctr) (n : Nat) : Engine :=
  if n = 0 then e else setCtr e c (min (ctrMax c) (ctrVal e c + n))

/-- A comb's counter. -/
def bumpComb (e : Engine) (c : CombId) (k : CombCtr) (n : Nat) : Engine := bump e (.comb c k) n

/-- A frame's counter. -/
def bumpFrame (e : Engine) (c : CombId) (f : FrameId) (k : FrameCtr) (n : Nat) : Engine := bump e (.frame c f k) n

/-- Bits of HUB_ERR_STATUS (12_relay). -/
def errPoison : Nat := 0
def errCheckRetry : Nat := 1
def errFrameFault : Nat := 2
def errFence : Nat := 3
def errTaskFailed : Nat := 4
def errGraphStopped : Nat := 5
def errLaneMismatch : Nat := 6
def errCombLost : Nat := 7

/-- A HUB_ERR_STATUS bit set. -/
def raiseErr (e : Engine) (b : Nat) : Engine :=
  { e with hub := { e.hub with errStatus := e.hub.errStatus ||| BitVec.ofNat 8 (2 ^ b) } }

/-- Whether a HUB_ERR_STATUS bit is 1. -/
def errBit (e : Engine) (b : Nat) : Bool := bit e.hub.errStatus.toNat b

/-- Error codes of Table 12-3. -/
def codeDescInvalid : Nat := 1
def codeTaskInvalid : Nat := 2
def codeTileMapInvalid : Nat := 3
def codeGroupOverflow : Nat := 4
def codeRowSpan : Nat := 5
def codeXformAlign : Nat := 6
def codeVersionNone : Nat := 7
def codePageFault : Nat := 8
def codeEpochStale : Nat := 9
def codeCkptOrder : Nat := 10
def codeRepeatLimit : Nat := 11
def codeGroupAbandon : Nat := 12
def codeLinkLost : Nat := 13
def codeJoinTimeout : Nat := 14
def codeGraphCycle : Nat := 15
def codeGraphInvalid : Nat := 16
def codeBroodMapInvalid : Nat := 17
def codeHalted : Nat := 18
def codeAborted : Nat := 19
def codeCombLost : Nat := 20
def codePageFaultRead : Nat := 21

/-- The task index that HUB_ERR_FIRST_TASK gives for a code not tied to a task. -/
def noTask : Nat := 0x1FFFFF

/-- HUB_ERR_FIRST captures the first task error since it was armed (12_relay, HUB_ERR_FIRST). -/
def captureErr (e : Engine) (unit code task : Nat) : Engine :=
  let first (g : Graph) : Graph := { g with firstErr := some (g.firstErr.getD task) }
  let e := { e with sch := { e.sch with run := e.sch.run.map first } }
  match e.hub.errFirst with
  | some _ => e
  | none => { e with hub := { e.hub with errFirst := some (BitVec.ofNat 8 unit, BitVec.ofNat 8 code), errTask := task } }

/-- HUB_ERR_FIRST cleared and armed. -/
def rearmErr (e : Engine) : Engine := { e with hub := { e.hub with errFirst := none, errTask := 0 } }

/-- UNIT of Table 09-5 of an execution unit. -/
def unitByte : ExecUnit → Nat
  | .comb c => c.val
  | .hub => 0xF0
  | .cap => 0xF1
  | .link => 0xF2

/-- ISLAND of Table 16-5 of an execution unit; a bucket's is its link group 0. -/
def unitIsland : ExecUnit → Nat
  | .comb c => c.val
  | .hub => 50
  | .cap => 54
  | .link => 51

/-- GRAPH_ID of the running graph, 0xFF when none. -/
def runningGid (e : Engine) : Nat := match e.sch.run with | some g => g.sub.gid | none => 0xFF

/-- An island's cycle count (R521). -/
def islandCycles (e : Engine) (i : Nat) : BitVec 64 := ((e.pwr.islands[i]?).getD {}).cycles

/-- Whether a trace point's group is enabled (R523); group 0 always is. -/
def traceEnabled (e : Engine) (tid : Nat) : Bool :=
  let g := tid / 256
  g == 0 || (g < 256 && bit (rwVal e (.logMask (Fin.ofNat 8 (g / 32)))) (g % 32))

/-- An event at a trace point: its record sets out for the hub (R520, R523). -/
def logEvent (e : Engine) (island tid flags : Nat) (payload : List Byte) : Engine :=
  if traceEnabled e tid then
    let r : LogRec := {
      seq := 0, cycle := islandCycles e island, traceId := BitVec.ofNat 16 tid, island := BitVec.ofNat 8 island,
      flags := BitVec.ofNat 8 flags, context := w32 (runningGid e),
      payload := payload ++ List.replicate (40 - payload.length) 0 }
    { e with log := { e.log with inflight := e.log.inflight ++ [r] } }
  else e

/-- FLAGS of a record that firmware processor p writes. -/
def fwFlags (p : Nat) : Nat := 1 + 2 * p

/-- A request to stop the running graph (R315), unless one stands already; GRAPH_STOP carries it out. -/
def askStop (e : Engine) (code unit task : Nat) : Engine :=
  match e.sch.run with
  | none => e
  | some g =>
    match g.stop with
    | some _ => e
    | none => { e with sch := { e.sch with run := some { g with stop := some code, stopUnit := BitVec.ofNat 8 unit, stopTask := task } } }

/-- A line is first marked poisoned, or first read poisoned from memory, by a unit (R420; HUB_ERR_STATUS bit 0; trace
point 0x000C for the first of a graph). `code` is what a HALT stop carries. -/
def poisonEvent (e : Engine) (island code : Nat) : Engine :=
  let e := raiseErr e errPoison
  match e.sch.run with
  | none => e
  | some g =>
    let e := if g.firstPoison then e
      else logEvent { e with sch := { e.sch with run := some { g with firstPoison := true } } } island 0x000C 0 [BitVec.ofNat 8 island]
    if bit g.samples.poisonCtrl.toNat 0 then askStop e code 0xF0 noTask else e

/-- A lane mismatch sets its error bit (R407). -/
def laneEvent (e : Engine) : Engine := raiseErr e errLaneMismatch

/-- irq_mbx (R513). -/
def irqMbx (e : Engine) : Bool := e.mbx.ring.length ≠ 0 && bit (rwVal e .mbxRspCtrl) 16
/-- irq_err (R422). -/
def irqErr (e : Engine) : Bool := Nat.land e.hub.errStatus.toNat (rwVal e .hubErrMask) ≠ 0
/-- irq_thermal (R556). -/
def irqThermal (e : Engine) : Bool := Nat.land e.pwr.thermStatus.toNat (rwVal e .pwrThermMask) ≠ 0
/-- irq_done (R467). -/
def irqDone (e : Engine) : Bool := e.hub.graphDone && bit (rwVal e .hubDone) 8

/-- The four levels as HUB_IRQ_PINS orders them, from the conditions alone. -/
def irqLive (e : Engine) : BitVec 4 :=
  BitVec.ofNat 4 (b2n (irqMbx e) + 2 * b2n (irqErr e) + 4 * b2n (irqThermal e) + 8 * b2n (irqDone e))

/-- The four output levels; held under pad hold (R469). -/
def irqPins (e : Engine) : BitVec 4 := e.hub.padIrq.getD (irqLive e)

end Sys2Proof.Machine
end

