-- ==== Sys2Proof/Machine/Ops.lean ====
section
/-! DEFINITION. Machine/Ops.lean: the shared operations: device memory and the engine's view of it (R4, R416, R453),
posted writes (R442, R448), register storage (R6, R443), messages to the host (R511, R514). -/

namespace Sys2Proof.Machine

/-! ### Device memory -/

/-- What an unlisted byte of device memory reads as (DESIGN CHOICE, assumptions/2). -/
def memDefault : Byte := 0

/-- The byte that a canonical cell list holds at an address. -/
def cellsGet : List Host.Cell → Nat → Byte
  | [], _ => memDefault
  | (k, b) :: l, a => if k = a then b else cellsGet l a

/-- A byte written into a canonical cell list: the addresses stay strictly rising, and a byte equal to what an unlisted
address reads as leaves no entry. -/
def cellsPut : List Host.Cell → Nat → Byte → List Host.Cell
  | [], a, b => if b = memDefault then [] else [(a, b)]
  | (k, v) :: l, a, b =>
    if a < k then (if b = memDefault then (k, v) :: l else (a, b) :: (k, v) :: l)
    else if a = k then (if b = memDefault then l else (a, b) :: l)
    else (k, v) :: cellsPut l a b

/-- Bytes written from an address upwards. -/
def cellsPutAll : List Host.Cell → Nat → List Byte → List Host.Cell
  | m, _, [] => m
  | m, a, b :: bs => cellsPutAll (cellsPut m a b) (a + 1) bs

/-- n bytes read from an address upwards. -/
def cellsRead (m : List Host.Cell) (a : Nat) : (n : Nat) → List Byte
  | 0 => []
  | n + 1 => cellsGet m a :: cellsRead m (a + 1) n

/-- The canonical form of a cell list: addresses strictly rising, no entry equal to the default. -/
def cellsWf : List Host.Cell → Bool
  | [] => true
  | [(_, b)] => b != memDefault
  | (k, b) :: (k', b') :: l => b != memDefault && k < k' && cellsWf ((k', b') :: l)

/-- The canonical form of device memory. -/
def Mem.wf (m : Mem) : Bool := cellsWf m.cells && rising m.poison

/-- The number of a line. -/
def lineOf (a : Nat) : Nat := a % 2 ^ 52 / 64

/-- A byte of device memory. -/
def memGet (m : Mem) (a : Nat) : Byte := cellsGet m.cells a

/-- The poison mark of a line in device memory (R416). -/
def memPoison (m : Mem) (line : Nat) : Bool := decide (line ∈ m.poison)

/-- The poison mark of a line set or cleared. -/
def memMark (m : Mem) (line : Nat) (p : Bool) : Mem :=
  if p then { m with poison := insertNat line m.poison } else { m with poison := m.poison.filter (· ≠ line) }

/-- Bytes of a line written at given offsets. -/
def memPutLine (m : Mem) (line : Nat) : List (Nat × Byte) → Mem
  | [] => m
  | (o, b) :: l => memPutLine { m with cells := cellsPut m.cells (64 * line + o) b } line l

/-- A whole line as the memory returns it, with its mark. -/
def memLine (m : Mem) (l : MemLine) : Mem :=
  let n := lineOf l.addr
  memMark { m with cells := cellsPutAll m.cells (64 * n) (takeBytes l.data 0 64) } n l.poison

/-- The lines that memory returns in a step become what the engine knows of memory. -/
def absorb (m : Mem) (rd : List MemLine) : Mem := rd.foldl memLine m

/-- A line as it lands: poisoned after its second failed fabric check (R405). -/
def landedLine (l : MemLine) : MemLine := { l with poison := l.poison || decide (2 ≤ l.tries) }

/-- Memory as a step that reads these lines sees it. -/
def landed (m : Mem) (rd : List MemLine) : Mem := absorb m (rd.map landedLine)

/-! ### The engine's view of memory: outstanding writes over device memory -/

/-- The byte that an outstanding write holds for an address, the newest write first. -/
def writesGet (ws : List WriteReq) (a : Nat) : Option Byte :=
  ws.foldl (fun acc w =>
    if w.line = lineOf a then
      match w.bytes.find? (fun p => p.1 == a % 64) with
      | some p => some p.2
      | none => acc
    else acc) none

/-- A byte as the engine reads it (R453: a write is outstanding until its response). -/
def viewByte (m : Mem) (e : Engine) (a : Nat) : Byte :=
  let a := a % 2 ^ 52
  (writesGet e.mp.writes a).getD (memGet m a)

/-- n bytes as the engine reads them. -/
def viewBytes (m : Mem) (e : Engine) (a : Nat) : (n : Nat) → List Byte
  | 0 => []
  | n + 1 => viewByte m e a :: viewBytes m e (a + 1) n

/-- Whether an outstanding write sets its line's mark: it covers the whole line, or clears a region's part of it (R210). -/
def wholeLine (w : WriteReq) : Bool := w.bytes.length == 64 || w.clean

/-- The mark of a line as the engine reads it: a write of a whole line sets it, a partial write adds to it
(DESIGN CHOICE, assumptions/3). -/
def viewPoison (m : Mem) (e : Engine) (line : Nat) : Bool :=
  e.mp.writes.foldl (fun acc w => if w.line = line then (if wholeLine w then w.poison else acc || w.poison) else acc)
    (memPoison m line)

/-- A 64-byte line as the engine reads it. -/
def viewLine (m : Mem) (e : Engine) (line : Nat) : List Byte := viewBytes m e (64 * line) 64

/-- The little-endian number of n bytes. -/
def viewNat (m : Mem) (e : Engine) (a n : Nat) : Nat := leNat (viewBytes m e a n)

/-- The lines that n bytes from a touch. -/
def linesOf (a n : Nat) : List Nat := if n = 0 then [] else span (lineOf a) (lineOf (a + n - 1) + 1 - lineOf a)

/-- Whether any line of a range is poisoned. -/
def viewPoisoned (m : Mem) (e : Engine) (a n : Nat) : Bool := (linesOf a n).any (viewPoison m e)

/-! ### Requests on the memory port -/

/-- The channel that carries a line (R449). -/
def chanOf (line : Nat) : ChanId := Fin.ofNat 16 (line / 4)

/-- Whether a request tag is in use on a channel (R449). -/
def idUsed (e : Engine) (ch : ChanId) (i : Nat) : Bool :=
  e.mp.reads.any (fun r => r.chan == ch && r.id.toNat == i) || e.mp.writes.any (fun w => w.sent && w.chan == ch && w.id.toNat == i)

/-- The lowest free request tag of a channel. -/
def freeId (e : Engine) (ch : ChanId) : Option Nat := (List.range 1024).find? fun i => !idUsed e ch i

/-- The task whose write stream it is. -/
def writerTask (w : Writer) : Option Nat :=
  match w with
  | .comb _ _ t | .hub t | .cap t | .link t => some t
  | .firmware | .log => none

/-- An unresolvable fault has ended a write stream: every write of it that has not completed is dropped, those still to come as well (R289). -/
def writesLost (e : Engine) (w : Writer) : Bool :=
  match e.sch.run, writerTask w with
  | some g, some i => g.tasks.any fun t => t.index == i && t.lost
  | _, _ => false

/-- One write of a line, which waits for its channel's grant (R267); none for a stream that an unresolvable fault has ended. -/
def sendLine (e : Engine) (who : Writer) (line : Nat) (bytes : List (Nat × Byte)) (poison : Bool) (clean : Bool := false) : Engine :=
  let w : WriteReq := { chan := chanOf line, line := line, bytes := bytes, poison := poison, who := who, clean := clean }
  { e with mp := { e.mp with writes := e.mp.writes ++ if writesLost e who then [] else [w] } }

/-- The bytes of a range that fall in one line, with their offsets. -/
def linePart (a : Nat) (bs : List Byte) (line : Nat) : List (Nat × Byte) :=
  ((List.range bs.length).zip bs).filterMap fun p =>
    let x := (a + p.1) % 2 ^ 52
    if x / 64 = line then some (x % 64, p.2) else none

/-- Bytes sent to memory, line by line; `poison` gives each line's mark. -/
def sendBytes (e : Engine) (who : Writer) (a : Nat) (bs : List Byte) (poison : Nat → Bool) : Engine :=
  (dedup ((linesOf a bs.length).map (· % 2 ^ 46))).foldl (fun e l => sendLine e who l (linePart a bs l) (poison l)) e

/-- Bytes sent with one mark for all their lines. -/
def sendAll (e : Engine) (who : Writer) (a : Nat) (bs : List Byte) (poison : Bool) : Engine :=
  sendBytes e who a bs fun _ => poison

/-- +0 over n bytes, the marks of their lines removed (R210). -/
def sendClear (e : Engine) (who : Writer) (a n : Nat) : Engine :=
  (dedup ((linesOf a n).map (· % 2 ^ 46))).foldl (fun e l => sendLine e who l (linePart a (List.replicate n 0) l) false true) e

/-- The outstanding writes of a task still unanswered, parked ones included (R289, R301). -/
def writesOpen (e : Engine) (task : Nat) : Bool :=
  e.mp.writes.any fun w => match w.who with
    | .comb _ _ t => t == task
    | .hub t => t == task
    | .cap t => t == task
    | .link t => t == task
    | .firmware | .log => false

/-! ### The control port's posted writes -/

/-- A queued write's register. -/
def postedReg (p : Posted) : Option RegName := match p.fw with | some r => some r | none => regAt p.addr

/-- The accepted port writes that wait: the entries of the queue in use (R442, POSTED). -/
def portWrites (ps : List Posted) : Nat := countIf (fun p => p.fw.isNone) ps

/-- The bits of a register that firmware writes of its own accord: TRIP_C, ENABLE of a port, else all. -/
def fwBits : RegName → Nat
  | .pwrThermCtrl => 0xFF00
  | .portCtrl _ => 1
  | _ => 0xFFFFFFFF

/-- A later write of the register by firmware has overtaken a port write that still waits (R448). -/
def overtaken (e : Engine) (p : Posted) (r : RegName) : Bool :=
  p.fw.isNone && match e.hub.fwAt.find? fun x => x.1 == r with | some x => decide (p.stamp ≤ x.2) | none => false

/-- What a queued write still writes to its register: nothing of what firmware wrote after it, since the later write wins (R448). -/
def takenData (e : Engine) (p : Posted) (r : RegName) : Option Word :=
  if !overtaken e p r then some p.data
  else if fwBits r = 0xFFFFFFFF then none
  else some (w32 (p.data.toNat - Nat.land p.data.toNat (fwBits r) + Nat.land (rwVal e r) (fwBits r)))

/-- Firmware writes a register of its own accord: the write reaches the hub after every port write accepted so far. -/
def fwMark (e : Engine) (r : RegName) : Engine := { e with hub := { e.hub with fwAt := assign e.hub.fwAt r e.hub.stamp } }

/-- Whether an accepted write of a register still waits. -/
def postedFor (ps : List Posted) (r : RegName) : Bool := ps.any fun p => postedReg p == some r

/-- A port is enabled by fuse (R368, R568); none before FUSE_LOAD. -/
def portFuseOn (e : Engine) (p : PortId) : Bool := bit (elemD e.boot.fuses 18 0).toNat p.val

/-- What a register's RW fields hold after a queued write of `data`; none where the write is ignored (R496, R509, R568).
The selection of UPD_COEF_SEL is held at the port and took the write when it was accepted (R575). -/
def rwStore (e : Engine) (r : RegName) (old data : Nat) : Option Nat :=
  match r with
  | .mbxCmdHdr | .mbxCmdLen | .mbxCmdData _ => if e.mbx.busy then none else some (Nat.land data (rwMask r))
  | .cfgFwWinAddr | .cfgFwDmaLo | .cfgFwDmaHi =>
    if e.boot.state = .awaitFw then some (Nat.land data (rwMask r)) else none
  | .portCtrl p =>
    some (if portFuseOn e p then Nat.land data 0x7 else Nat.land data 0x6 + Nat.land old 0x1)
  | .updCoefSel => none
  | .logMask 0 => some (Nat.lor (Nat.land data (rwMask r)) 1)
  | _ => if rwMask r = 0 then none else some (Nat.land data (rwMask r))

/-- The RW fields of a register as a read sees them: the engine's value with every waiting write of it applied (R443). -/
def visible (ps : List Posted) (e : Engine) (r : RegName) : Nat :=
  ps.foldl (fun v p => if postedReg p = some r then ((takenData e p r).bind fun d => rwStore e r v d.toNat).getD v else v) (rwVal e r)

/-- A field held in a unit's own state as a read sees it: the last waiting write whose value is valid, or the state's. -/
def visibleIn (ps : List Posted) (e : Engine) (r : RegName) (valid : Nat → Option Nat) (cur : Nat) : Nat :=
  ps.foldl (fun v p => if postedReg p = some r then ((takenData e p r).bind fun d => valid d.toNat).getD v else v) cur

/-- Everything but the always-on domain runs: not in NAP or HIBERNATE. -/
def awake (e : Engine) : Bool := e.pwr.pstate == .active || e.pwr.pstate == .idle
/-- NAP or HIBERNATE. -/
def asleep (e : Engine) : Bool := !awake e
/-- The hub's clock runs: neither in NAP or HIBERNATE nor stopped by a dip (R17, R544). -/
def hubClock (e : Engine) : Bool := awake e && !(e.pwr.islands[50]?).any Island.stopped

/-- A register write that a row owns: from the head of the posted queue, or by a firmware processor; a firmware write waits behind the
writes of the register that reached the hub before it (R442, R448). Where the head writes another register, nothing happens; in NAP and
HIBERNATE no write is applied (R563), nor while a dip has stopped the hub's clock (R544) or before the hub has locked (R482). A port write
that firmware has overtaken leaves the queue without effect. -/
def bySource (s : State) (src : WriteSrc) (r : RegName) (f : Word → Engine → Engine) : State :=
  if !hubClock s.eng || !s.eng.boot.hubLocked then s
  else match src with
  | .firmware v =>
    if postedFor s.posted r then { s with posted := s.posted ++ [{ addr := 0, data := v, fw := some r }] } else { s with eng := f v s.eng }
  | .posted =>
    match s.posted with
    | [] => s
    | p :: ps =>
      if postedReg p = some r then { s with posted := ps, eng := (takenData s.eng p r).elim s.eng fun d => f d s.eng } else s

/-- The same for writes that a row owns by their value. -/
def bySourceIf (s : State) (src : WriteSrc) (r : RegName) (mine : Word → Bool) (f : Word → Engine → Engine) : State :=
  match src with
  | .firmware v => if mine v then bySource s src r f else s
  | .posted =>
    match s.posted with
    | [] => s
    | p :: _ => if mine p.data then bySource s src r f else s

/-- A change of the engine alone. -/
def onEngine (s : State) (f : Engine → Engine) : State := { s with eng := f s.eng }

/-- Lines requested once more after a failed fabric check (R405). -/
def retried (rd : List MemLine) : Nat := countIf (fun l => decide (0 < l.tries)) rd

/-- The engine that takes lines for the hub, the capping unit or the link groups: those requested once more count (R405, R422). -/
def readEng (s : State) (rd : List MemLine) : Engine := bump s.eng .hubFabricRetry (retried rd)
/-- The same for lines that a comb reads. -/
def readEngIn (s : State) (c : CombId) (rd : List MemLine) : Engine := bumpComb s.eng c .fabricRetry (retried rd)

/-- A change of the engine that reads memory, with the lines that memory returns in the step to the hub, to the capping unit or to the link
groups. -/
def reading (s : State) (rd : List MemLine) (f : Mem → Engine → Engine) : State :=
  { s with mem := absorb s.mem rd, eng := f (landed s.mem rd) (readEng s rd) }

/-- The same for lines that a comb reads. -/
def readingIn (s : State) (c : CombId) (rd : List MemLine) (f : Mem → Engine → Engine) : State :=
  { s with mem := absorb s.mem rd, eng := f (landed s.mem rd) (readEngIn s c rd) }

/-! ### Combs, fences and states -/

/-- A comb. -/
def combOf (e : Engine) (c : CombId) : Comb := (e.combs[c.val]?).getD {}
/-- A comb changed. -/
def onComb (e : Engine) (c : CombId) (f : Comb → Comb) : Engine := { e with combs := updAt e.combs c.val f }
/-- A frame. -/
def frameOf (e : Engine) (c : CombId) (f : FrameId) : Frame := ((combOf e c).frames[f.val]?).getD {}
/-- A frame changed. -/
def onFrame (e : Engine) (c : CombId) (f : FrameId) (g : Frame → Frame) : Engine :=
  onComb e c fun cb => { cb with frames := updAt cb.frames f.val g }
/-- A comb's fence. -/
def fenceOf (e : Engine) (c : CombId) : Fence := (e.fences[c.val]?).getD {}
/-- A comb is enabled: not fenced by any cause (R494). -/
def enabled (e : Engine) (c : CombId) : Bool := (fenceOf e c).cause == 0
/-- A change of every comb that is not fenced; a fenced one stays as the fence left it (R569). -/
def mapCombs (e : Engine) (f : Comb → Comb) : Engine :=
  { e with combs := ((List.range e.combs.length).zip e.combs).map fun p => if ((e.fences[p.1]?).getD {}).cause = 0 then f p.2 else p.2 }
/-- The enabled combs, ascending. -/
def enabledCombs (e : Engine) : List CombId := allCombs.filter (enabled e)
/-- An island. -/
def islandOf (e : Engine) (i : Nat) : Island := (e.pwr.islands[i]?).getD {}
/-- An island changed. -/
def onIsland (e : Engine) (i : Nat) (f : Island → Island) : Engine :=
  { e with pwr := { e.pwr with islands := updAt e.pwr.islands i f } }
/-- A link port. -/
def portOf (e : Engine) (p : PortId) : Port := (e.lnk.ports[p.val]?).getD {}
/-- A link port changed. -/
def onPort (e : Engine) (p : PortId) (f : Port → Port) : Engine :=
  { e with lnk := { e.lnk with ports := updAt e.lnk.ports p.val f } }
/-- A firmware processor. -/
def procOf (e : Engine) (p : Nat) : Proc := (e.fwp.procs[p]?).getD {}
/-- A firmware processor changed. -/
def onProc (e : Engine) (p : Nat) (f : Proc → Proc) : Engine :=
  { e with fwp := { e.fwp with procs := updAt e.fwp.procs p f } }
/-- A firmware processor serves its duties: released, READY, not restarting (R528, R529), its clock not stopped by a dip. -/
def procUp (e : Engine) (p : Nat) : Bool :=
  ((procOf e p).run == .run || (procOf e p).run == .wfi) && (procOf e p).ready && !(islandOf e 55).stopped
/-- RUN in its ACTIVE substate (Tables 15-1 and 17-5), the boundary outputs not held (R562). -/
def inAction (e : Engine) : Bool := e.boot.state == .run && e.pwr.pstate == .active && !e.pwr.padHold
/-- The hub works: its clock is not stopped by a dip (R17, R544). -/
def running (e : Engine) : Bool := inAction e && !(islandOf e 50).stopped
/-- The hub's clock runs and its boundary inputs are open (R544, R559). -/
def hubAlive (e : Engine) : Bool := hubClock e && !e.pwr.padHold
/-- An entry comes to an island through a crossing. While a dip has stopped the island's clock it waits there, behind those that came before
it, until the clock runs (R17, R544); an entry that pad hold or a substate keeps out does not come (R559). -/
def crossing (s : State) (i : Nat) (entry : Instr) (f : State → State) : State :=
  if (islandOf s.eng i).stopped && awake s.eng && !s.eng.pwr.padHold then { s with held := s.held ++ [entry] } else f s

/-- A comb works: enabled, and its clock not stopped by a dip (R17, R544). -/
def works (e : Engine) (c : CombId) : Bool := inAction e && enabled e c && !(islandOf e c.val).stopped
/-- The capping unit works. -/
def capWorks (e : Engine) : Bool := inAction e && !(islandOf e 54).stopped
/-- A fresh free value's index: the count is read and advanced. -/
def drawFree (e : Engine) : Nat × Engine := (e.hub.free, { e with hub := { e.hub with free := e.hub.free + 1 } })

/-! ### Messages to the host -/

/-- The negotiated version (R514): the firmware's major and the smaller minor. -/
def negotiated (e : Engine) : Byte × Byte :=
  match e.mbx.stated with
  | some (_, mi) => (e.boot.fwMajor, if mi.toNat < e.boot.fwMinor.toNat then mi else e.boot.fwMinor)
  | none => (e.boot.fwMajor, e.boot.fwMinor)

/-- The messages that wait enter the ring in order, as far as it has room (R511). -/
def fillResponses (e : Engine) : Engine :=
  let n := Config.ringMessages - e.mbx.ring.length
  { e with mbx := { e.mbx with ring := e.mbx.ring ++ e.mbx.backlog.take n, backlog := e.mbx.backlog.drop n } }

/-- A message posted into the response ring, in order; one that finds it full waits for room, so that whenever some wait the ring is full
(R511, assumptions/72). -/
def postMsg (e : Engine) (opcode seq : Byte) (ws : List Word) : Engine :=
  let m : Msg := { major := (negotiated e).1, minor := (negotiated e).2, opcode := opcode, seq := seq, words := ws }
  if e.mbx.ring.length < Config.ringMessages then { e with mbx := { e.mbx with ring := e.mbx.ring ++ [m] } }
  else { e with mbx := { e.mbx with backlog := e.mbx.backlog ++ [m] } }

/-- A reply to a command (R511): its opcode plus 0x80, its SEQ, a status code and further words. -/
def reply (e : Engine) (m : Msg) (status : Nat) (ws : List Word) : Engine :=
  postMsg e (m.opcode + 0x80) m.seq (w32 status :: ws)

/-- An unsolicited message (Table 16-2): SEQ counts unsolicited messages modulo 256. -/
def announce (e : Engine) (opcode : Byte) (ws : List Word) : Engine :=
  let e := postMsg e opcode e.mbx.unsolicited ws
  { e with mbx := { e.mbx with unsolicited := e.mbx.unsolicited + 1 } }

end Sys2Proof.Machine
end

