-- ==== Sys2Proof/Machine/Regs.lean ====
section
/-! DEFINITION. Machine/Regs.lean: what a control-port read of each register returns (R6, R443, R446, R566, R569 and the
register sections of the chapters), and the counter fields that a read takes (R445). -/

namespace Sys2Proof.Machine

/-- The fuses have been loaded: FUS_ registers and fuse-derived fields are valid (R487). -/
def fusesLoaded (e : Engine) : Bool := !e.boot.fuses.isEmpty

/-- A fuse word after substitution; 0 before FUSE_LOAD (R484, R504). -/
def fuseWord (e : Engine) (i : Nat) : Nat := (elemD e.boot.fuses i 0).toNat

/-- A trim byte (R485). -/
def trimByte (e : Engine) (b : Nat) : Nat := bits (fuseWord e (19 + b / 4)) (8 * (b % 4)) 8

/-- The number of 1 bits among the low n. -/
def popcount (v n : Nat) : Nat := countIf (bit v) (List.range n)

/-- The fence map of combs lo to lo+n-1 as a mask. -/
def fenceMask (e : Engine) (lo n : Nat) : Nat :=
  sumNat ((List.range n).map fun i => if ((e.fences[lo + i]?).getD {}).cause ≠ 0 then 2 ^ i else 0)

/-- The FENCE and SPARE fuse bits of a comb (R486). -/
def fuseFence (e : Engine) (c : Nat) : Bool := bit (fuseWord e (14 + c / 32)) (c % 32)
def fuseSpare (e : Engine) (c : Nat) : Bool := bit (fuseWord e (16 + c / 32)) (c % 32)

/-- A comb is fenced after FUSE_LOAD (R486): its FENCE bit is set, or 48 combs below it are enabled already, since no more than 48
ever are (R11; DESIGN CHOICE, assumptions/93: the fuses of a shipped part fence two combs, R12). -/
def fenceAtLoad (e : Engine) (c : Nat) : Bool :=
  fuseFence e c || decide (Config.maxEnabled ≤ countIf (fun d => !fuseFence e d) (List.range c))

/-- COMBS_FUSED_ON: the combs that FUSE_LOAD does not fence, those beyond the forty-eighth among the fenced (DESIGN CHOICE,
assumptions/93). -/
def fusedOn (e : Engine) : Nat := countIf (fun c => !fenceAtLoad e c) (List.range 50)

/-- Code of an engine state (Table 15-1). -/
def stateCode : EngState → Nat
  | .off => 0
  | .fuseLoad => 1
  | .configLoad => 2
  | .awaitFw => 3
  | .fwCheck => 4
  | .run => 5
  | .refused => 6
  | .orphaned => 7
  | .recovery => 8
  | .test => 9

/-- Code of a substate (Table 17-5). -/
def pstateCode : PState → Nat
  | .active => 0
  | .idle => 1
  | .nap => 2
  | .hibernate => 3

/-- IMAGE of CFG_STATUS. -/
def imageCode : ImageResult → Nat
  | .notRead => 0
  | .ok => 1
  | .absent => 2
  | .badMagic => 3
  | .badFormat => 4
  | .badLength => 5
  | .badCrc => 6
  | .badRecord => 7

/-- FW of CFG_STATUS. -/
def fwCode : FwResult → Nat
  | .none => 0
  | .loading => 1
  | .checking => 2
  | .authOk => 3
  | .authFail => 4
  | .badImage => 5
  | .versionRange => 6
  | .refused => 7

/-- HOST_STATE of MBX_HOST. -/
def hostCode : HostState → Nat
  | .none => 0
  | .live => 1
  | .draining => 2
  | .orphaned => 3

/-- Run state of a processor in FWP_STATUS. -/
def procCode : ProcRun → Nat
  | .held => 0
  | .run => 1
  | .wfi => 2
  | .restarting => 3

/-- STATE of LNK_PORT_STATUS. -/
def portCode : PortState → Nat
  | .disabled => 0
  | .training => 1
  | .waggle => 2
  | .up => 3
  | .down => 4

/-- STATE of FRM_STATUS. -/
def frameCode : FrameMode → Nat
  | .idle => 0
  | .run => 1
  | .frozenDrain => 2
  | .frozenRowf => 3
  | .frozenColf => 4
  | .replayFlush => 5
  | .fenced => 6

/-- STATE of CMB_PF_STATE. -/
def parkCode : ParkState → Nat
  | .free => 0
  | .parked => 1
  | .resuming => 2
  | .filling => 3

/-- STATE of SCH_STATUS. -/
def phaseCode : SchPhase → Nat
  | .idle => 0
  | .admitting => 1
  | .run => 2
  | .stopping => 3
  | .repeating => 4
  | .loopReset => 5

/-- The step that a comb island runs at: the step in effect, the lower of old and new during a change (R538), no more than its hold step
during a post-dip hold (R545, R549). -/
def combStep (e : Engine) (i : Nat) : Nat :=
  let n := if e.pwr.changing then min e.pwr.step e.pwr.stepFrom else e.pwr.step
  if (islandOf e i).hold then min n (islandOf e i).holdStep else n

/-- An island's clock is stretched or stopped by a dip or a rail drop (R544, R550). -/
def islandStretched (e : Engine) (i : Nat) : Bool :=
  let s := islandOf e i
  s.started && (s.stretched || s.stopped || e.pwr.railDropped)

/-- The nominal frequency of an island in MHz (kHz for the always-on domain). -/
def islandMHz (e : Engine) (i : Nat) : Nat :=
  if i < 50 then 1000 + 100 * combStep e i
  else if i = 50 ∨ i = 54 then 1250
  else if i < 54 then 1600
  else if i = 55 then 1000
  else 32

/-- An island's clock is stopped by fence, state or dip (CLK_ISL_STATUS). -/
def islandStopped (e : Engine) (i : Nat) : Bool :=
  let s := islandOf e i
  !s.started || s.stopped || (decide (i ≠ 56) && asleep e) || (decide (i < 50 ∨ i = 54 ∨ i = 55) && e.pwr.pstate == .idle)

/-- CLK_ISL_STATUS of an island. -/
def islandStatus (e : Engine) (i : Nat) : Nat :=
  if 57 ≤ i then 0
  else
    let s := islandOf e i
    let stop := islandStopped e i
    at' (b2n s.locked) 31 + at' (b2n (islandStretched e i)) 30 + at' (b2n stop) 29 + (if stop then 0 else islandMHz e i)

/-- The engine as the island shadows show it: in NAP and HIBERNATE as at entry, from ACTIVE (R563). -/
def atEntry (e : Engine) : Engine := if asleep e then { e with pwr := { e.pwr with pstate := .active } } else e

/-- Tasks that are ready and undispatched in a class, aged class 2 tasks counting in class 1 (SCH_READY). -/
def readyCount (e : Engine) (cls : Nat) : Nat :=
  match e.sch.run with
  | none => 0
  | some g => min 255 (countIf (fun t => t.life == .ready &&
      (if t.aged then cls == 1 else t.record.cls == cls)) g.tasks)

/-- STATE of UPD_STATUS by task kind (5 UPDATE, 6 MASK, 7 CHECKPOINT). -/
def capState (e : Engine) : Nat :=
  match e.cap.job with
  | some j => if j.kind = 5 then 1 else if j.kind = 6 then 2 else 3
  | none => if e.cap.waiting.isSome then 4 else 0

/-- The buckets in a state. -/
def bucketsIn (e : Engine) (st : BucketState) : List Bucket := e.lnk.buckets.filter fun b => b.state == st

/-- The oldest step that has a bucket not yet DONE (LNK_OLDEST_STEP). -/
def oldestStep (e : Engine) : Option Nat :=
  (minBy Bucket.step (e.lnk.buckets.filter fun b => b.state != .done)).map Bucket.step

/-- The attempt of the oldest unsealed step. -/
def oldestAttempt (e : Engine) : Nat :=
  match minBy Bucket.step (e.lnk.buckets.filter fun b => b.state != .done) with
  | some b => b.attempt
  | none => 0

/-- Index of the slot most recently started. -/
def ringLast (g : Ring) : Nat := if g.tail.idx = 0 then g.slots - 1 else g.tail.idx - 1

/-- Lines landed in the slot most recently started (CMB_RING_STATUS.TAIL_LINES). -/
def ringTailLines (g : Ring) : Nat := countIf (fun l => l.slot == ringLast g && l.landed) g.lines

/-- CMB_RING_STATUS but for its RING field. -/
def ringStatus (cb : Comb) (r : Nat) : Nat :=
  match (cb.rings[r]?).getD none with
  | none => 0
  | some g => at' 1 23 + at' g.slots 19 + at' (b2n g.head.wrap) 18 + at' g.head.idx 15 + at' (b2n g.tail.wrap) 14 +
      at' g.tail.idx 11 + at' (b2n g.persist.isSome) 10 + ringTailLines g

/-- CMB_PF_STATE of a park record. -/
def parkStatus (p : Park) : Nat :=
  if p.state == .free then 0
  else at' (if p.write then 31 else p.ring) 19 + at' (b2n p.write) 18 + at' p.ctx.val 16 + at' p.dims 8 + parkCode p.state

/-- CMB_BROOD_STATUS of a comb (0 when fenced). -/
def broodStatus (e : Engine) (c : CombId) : Nat :=
  if !enabled e c then 0
  else
    let cb := combOf e c
    let n := match e.sch.run with
      | none => 0
      | some g => countIf (fun r => r.place == .resident c) g.regions
    at' cb.freeBlocks 16 + at' (b2n cb.mergeRsv) 12 + n

/-- FRM_STATUS. A frame of a fenced comb reads FENCED. -/
def frameStatus (e : Engine) (c : CombId) (f : FrameId) : Nat :=
  let fr := frameOf e c f
  if !enabled e c then 6
  else
    let wide := match fr.flight.getLast? with
      | some a => (match a.pass with | .whole => 0 | .high => 1 | .low => 2)
      | none => 0
    let ctx := match fr.jobs.head? with | some j => j.ctx.val | none => 0
    at' ctx 10 + at' (b2n fr.dirCols) 9 + at' (b2n fr.fillB) 8 + at' fr.opmode 6 + at' wide 4 + frameCode fr.mode

/-- FWP_STATUS. -/
def fwpStatus (e : Engine) : Nat :=
  sumNat ((List.range 4).map fun p => at' (procCode (procOf e p).run + 4 * b2n (procOf e p).ready) (8 * p))

/-- MBX_HB_AGE: milliseconds of hub time since the last SEND; 0 before the first (R509). -/
def hbAge (e : Engine) : Nat :=
  match e.mbx.lastSend with
  | none => 0
  | some t => min (2 ^ 32 - 1) ((e.hub.cycle - t) / 1250000)

/-- Word w of the oldest response (R512): header, length, payload. -/
def rspHdr (e : Engine) : Nat :=
  match e.mbx.ring with
  | [] => 0
  | m :: _ => at' m.major.toNat 24 + at' m.minor.toNat 16 + at' m.opcode.toNat 8 + m.seq.toNat
def rspLen (e : Engine) : Nat := match e.mbx.ring with | [] => 0 | m :: _ => m.words.length
def rspWord (e : Engine) (i : Nat) : Nat := match e.mbx.ring with | [] => 0 | m :: _ => (elemD m.words i 0).toNat

/-- Whether a sensor is failed or excluded (R475). -/
def sensorOut (e : Engine) (i : Nat) : Bool :=
  ((e.pwr.sensors[i]?).getD {}).failed || (decide (i < 50) && ((e.fences[i]?).getD {}).cause != 0)

/-- PWR_TS_DATA. -/
def tsData (e : Engine) (i : Nat) : Nat :=
  let s := (e.pwr.sensors[i]?).getD {}
  at' (b2n (s.failed || sensorOut e i)) 31 + at' s.raw.toNat 16 + s.temp.toNat

/-- DUTY as it reads: 56 while a trip forces it. -/
def dutyNow (e : Engine) : Nat := if e.pwr.forced then 56 else e.pwr.duty

/-- A written DUTY as it is taken (PWR_THROTTLE). -/
def dutyTaken (v : Nat) : Option Nat := some (min 56 (v % 64))

/-- A written REQ_VID that is not ignored (PWR_VID). -/
def vidTaken (v : Nat) : Option Nat := let x := v % 256; if 30 ≤ x ∧ x ≤ 70 then some x else none

/-- A written REQ_STEP that is not ignored (CLK_COMB_FREQ). -/
def stepTaken (v : Nat) : Option Nat := let x := v % 16; if x ≤ 10 then some x else none

/-- The counter fields of a register: lowest bit, counter. CMB_OBS_HIST shows the selected bin (R446). -/
def rcFields (ps : List Posted) (e : Engine) : RegName → List (Nat × Ctr)
  | .hubBadAccess => [(0, .badAccess)]
  | .hubLayoutFaults => [(16, .hubMisaligned), (8, .hubOobClamped), (0, .hubOobFilled)]
  | .hubBroodSpilled => [(0, .broodSpilled)]
  | .hubCheckEvents => [(16, .hubFabricRetry), (0, .hubLaneMismatch)]
  | .hubBoundaryEvents => [(24, .railDrops), (16, .writeRejects), (8, .sbWakes), (0, .linkPhyLost)]
  | .schEvents => [(16, .reissued), (0, .poisonIn)]
  | .schWindowFull => [(0, .windowFull)]
  | .frgPfEvents => [(16, .parked), (0, .unresolved)]
  | .frgLight => [(0, .light)]
  | .updRowEvents => [(16, .frozenRows), (8, .skippedPoison), (0, .skippedNonfinite)]
  | .updQntEvents => [(16, .flatRows), (0, .scaleFloored)]
  | .updClamped => [(0, .clamped)]
  | .updPruned => [(0, .pruned)]
  | .updRegrown => [(0, .regrown)]
  | .updMaskEvents => [(16, .regrowShort), (8, .repaired), (0, .maskNoRoom)]
  | .updW8Switch => [(16, .switched), (0, .noRoom)]
  | .updSpillAdds => [(0, .spillAdds)]
  | .updVersionStall => [(0, .versionStall)]
  | .lnkEvents => [(16, .repeats), (8, .deadlineExp), (0, .poisonSums)]
  | .lnkMcastEvents => [(16, .dropped), (0, .replays)]
  | .lnkStaleFlits => [(0, .staleFlits)]
  | .portErrors p => [(20, .crcErrors p), (8, .retries p), (4, .stomped p), (0, .signExpanded p)]
  | .portTxFlits p => [(0, .txFlits p)]
  | .portRxFlits p => [(0, .rxFlits p)]
  | .pwrDvfsEvents => [(16, .heldFreq), (0, .heldVid)]
  | .pwrDroopEvents => [(0, .dips)]
  | .fwpRestarts => [(24, .restarts 3), (16, .restarts 2), (8, .restarts 1), (0, .restarts 0)]
  | .mbxCmdCtrl => [(8, .mbxIgnored)]
  | .logLost => [(0, .logLost)]
  | .cfgFwCtrl => [(8, .authFails)]
  | .cmbStall c k => [(0, .comb c (match k with
      | 0 => .stallMem | 1 => .stallXlat | 2 => .stallCredit | 3 => .stallDep | 4 => .stallDrain
      | 5 => .stallVpin | 6 => .stallReplay | 7 => .stallDroop | 8 => .stallThermal | 9 => .stallLink))]
  | .cmbFrgEvents c => [(24, .comb c .descInvalid), (16, .comb c .ringShrunk), (8, .comb c .descRefetch),
      (0, .comb c .carouselRefetch)]
  | .cmbEpochFaults c => [(16, .comb c .epochMismatch), (0, .comb c .epochStale)]
  | .cmbCheckEvents c => [(24, .comb c .checkRetries), (16, .comb c .laneMismatch), (8, .comb c .slotCrc),
      (0, .comb c .fabricRetry)]
  | .cmbPoisonEvents c => [(16, .comb c .linesIn), (0, .comb c .linesOut)]
  | .cmbFmtFaults c => [(16, .comb c .nonfiniteRows), (8, .comb c .badHeaders), (0, .comb c .scaleFloored)]
  | .cmbLayoutFaults c => [(16, .comb c .misaligned), (8, .comb c .oobClamped), (0, .comb c .oobFilled)]
  | .cmbOvfLane c => [(0, .comb c .ovfLane)]
  | .cmbOvfSteps c => [(0, .comb c .ovfSteps)]
  | .cmbTrimDropped c => [(0, .comb c .trimDropped)]
  | .cmbMetaSuspect c => [(16, .comb c .oorSlots), (8, .comb c .suspectTiles), (0, .comb c .trapTiles)]
  | .cmbZmapSkipped c => [(0, .comb c .zmapSkipped)]
  | .cmbObsUflow c => [(0, .comb c .uflow)]
  | .cmbObsRows c => [(16, .comb c .zeroRows), (0, .comb c .flatRows)]
  | .cmbObsHist c => [(0, .comb c (.hist (Fin.ofNat 64 (bits (visible ps e (.cmbObsHist c)) 26 6))))]
  | .cmbQntEvents c => [(16, .comb c .wideReruns), (8, .comb c .ilenCapped), (0, .comb c .xformAlign)]
  | .cmbStoreEvents c => [(16, .comb c .actDropped), (8, .comb c .stepWaits), (0, .comb c .frozenSkipped)]
  | .cmbActHits c => [(0, .comb c .actHits)]
  | .frmFreezeDrain c f => [(0, .frame c f .freezeDrain)]
  | .frmFreezeRowf c f => [(0, .frame c f .freezeRowf)]
  | .frmFreezeColf c f => [(0, .frame c f .freezeColf)]
  | .frmActiveCycles c f => [(0, .frame c f .active)]
  | .frmIntervals c f => [(0, .frame c f .intervals)]
  | .frmReplays c f => [(16, .frame c f .ovfReplays), (0, .frame c f .splits)]
  | _ => []

/-- How many counts one unit of a counter's field stands for: SIGN_EXPANDED shows units of 4,096 flits (R393). -/
def ctrUnit : Ctr → Nat
  | .signExpanded _ => 4096
  | _ => 1

/-- A counter field as a shadow holds it that was taken before `late` further events (R445). -/
def rcShown (e : Engine) (c : Ctr) (late : Nat) : Nat := (ctrVal e c - late) / ctrUnit c

/-- The counter after a read that returned its shown value: reduced by it, or 0 where it was saturated (R445). -/
def rcTake (e : Engine) (c : Ctr) (late : Nat) : Engine :=
  let v := rcShown e c late
  if v = ctrMax c / ctrUnit c then setCtr e c 0 else setCtr e c (ctrVal e c - v * ctrUnit c)

/-- The part of a register outside its counter fields, as a read returns it. -/
def readBase (ps : List Posted) (e : Engine) : RegName → Nat
  | .hubId => 0x57020100
  | .hubCaps =>
    let f := if fusesLoaded e then fusedOn e else 0
    let l := if fusesLoaded e then popcount (fuseWord e 18) 18 else 0
    at' 50 26 + at' f 20 + at' 4 16 + at' l 10 + at' 3 8 + at' 4 4
  | .hubBadAccess => at' e.hub.lastBad.toNat 16
  | .hubCpStatus => portWrites ps % 64
  | .hubErrStatus => e.hub.errStatus.toNat
  | .hubFenceMaskLo => fenceMask e 0 32
  | .hubFenceMaskHi => fenceMask e 32 18
  | .hubErrFirst => match e.hub.errFirst with
    | some (u, c) => at' 1 31 + at' u.toNat 16 + c.toNat
    | none => 0
  | .hubErrFirstTask => e.hub.errTask % 2 ^ 21
  | .hubFenceInfo =>
    let c := visible ps e .hubFenceSel
    if 50 ≤ c then 0
    else let f := (e.fences[c]?).getD {}
      at' (b2n f.pending) 31 + at' f.frame 8 + f.cause
  | .hubModeStatus => at' (b2n e.sch.run.isSome) 7 + at' e.pwr.envelope 5 + e.sch.modeBits.toNat
  | .hubIrqPins => (irqPins e).toNat
  | .hubDone => visible ps e .hubDone + b2n e.hub.graphDone
  | .hubSbAddr => e.boot.cfg.sbAddr.toNat
  | .schStatus =>
    let n := match e.sch.run with | some g => g.tasks.length | none => 0
    let stop := match e.sch.run with | some g => g.stop.isSome | none => false
    at' n 8 + at' e.sch.queue.length 4 + (if stop then phaseCode .stopping else phaseCode e.sch.phase)
  | .schReady => at' (readyCount e 3) 24 + at' (readyCount e 2) 16 + at' (readyCount e 1) 8 + readyCount e 0
  | .schFetched => match e.sch.run with | some g => g.fetch | none => e.sch.fetched
  | .schCompleted => e.sch.completedCount
  | .schGenActive => e.sch.genActive.toNat
  | .schGenIter => e.sch.genIter
  | .updStatus =>
    let grp := match e.cap.job with | some j => j.arg.group | none => 0
    at' grp 8 + at' (b2n (!e.cap.spill.isEmpty)) 4 + capState e
  | .updCkptStep => e.cap.ckptStep.toNat
  | .lnkStatus =>
    at' (min 255 (bucketsIn e .landed).length) 16 + at' (min 64 (bucketsIn e .active).length) 8 + oldestAttempt e % 256
  | .lnkOldestStep => (oldestStep e).getD 0xFFFFFFFF
  | .portStatus p =>
    if portFuseOn e p then
      let q := portOf e p
      at' q.reason 20 + at' q.features.toNat 12 + (if q.state == .up then at' q.version 8 else 0) + portCode q.state
    else 0
  | .portPartnerLo p => (portOf e p).partner.toNat % 2 ^ 32
  | .portPartnerHi p => (portOf e p).partner.toNat / 2 ^ 32
  | .pwrMode => visibleIn ps e .pwrMode (fun v => some (v % 4)) e.pwr.target
  | .pwrStatus =>
    at' e.pwr.returnStep 5 + at' (b2n e.pwr.wakeLatched) 4 + at' (b2n e.pwr.padHold) 3 + pstateCode e.pwr.pstate
  | .pwrVid => at' (b2n e.pwr.vidHeld) 16 + at' e.pwr.vid 8 + visibleIn ps e .pwrVid vidTaken e.pwr.vidReq
  | .clkCombFreq =>
    at' (b2n e.pwr.stepHeld) 17 + at' (b2n (e.pwr.islands.any Island.hold)) 16 + at' e.pwr.step 8 +
      visibleIn ps e .clkCombFreq stepTaken e.pwr.stepReq
  | .pwrDroopEvents => at' e.pwr.lastDip 24
  | .pwrLimits => at' (elemD e.boot.cfg.limits 0 0) 20 + at' (elemD e.boot.cfg.limits 1 0) 10 + elemD e.boot.cfg.limits 2 0
  | .pwrThrottle => at' (b2n e.pwr.forced) 8 +
      (if e.pwr.forced then 56 else visibleIn ps e .pwrThrottle dutyTaken e.pwr.duty)
  | .pwrEst => at' (min 65535 e.pwr.demand) 16 + min 65535 e.pwr.power
  | .pwrDemandT => min 65535 e.pwr.demandT
  | .pwrThermStatus => e.pwr.thermStatus.toNat
  | .pwrTsData => tsData e (visible ps e .pwrTsSel)
  | .clkIslStatus => islandStatus (atEntry e) (visible ps e .clkIslSel)
  | .fwpStatus => fwpStatus e
  | .fwpLastRestart => at' e.fwp.lastFp 8 + e.fwp.lastCause
  | .fwpLastPc => e.fwp.lastPc.toNat
  | .mbxCmdCtrl => at' (b2n e.mbx.busy) 1
  | .mbxRspHdr => rspHdr e
  | .mbxRspLen => rspLen e
  | .mbxRspData i => rspWord e i.val
  | .mbxRspCtrl => visible ps e .mbxRspCtrl + e.mbx.ring.length
  | .mbxHost => (match e.mbx.stated with
      | some (ma, mi) => at' ma.toNat 24 + at' mi.toNat 16
      | none => 0) + hostCode e.mbx.host
  | .mbxHbTimeout => e.mbx.hbTimeout
  | .mbxHbAge => hbAge e
  | .logHead => e.log.head
  | .logShadow => e.log.shadow.length
  | .logSeq => e.log.seq.toNat % 2 ^ 32
  | .cfgStatus =>
    at' (b2n e.boot.fuseEcc) 15 + at' (b2n e.boot.addr4) 14 + at' (b2n e.boot.quad) 13 + at' (fwCode e.boot.fw) 8 +
      at' (imageCode e.boot.image) 4 + stateCode e.boot.state
  | .cfgImage => at' e.boot.fmtMajor.toNat 24 + at' e.boot.fmtMinor.toNat 16 + at' (min 255 e.boot.skipped) 8 + e.boot.badRecord
  | .cfgMbxRange =>
    at' e.boot.cfg.mbxMax.1.toNat 24 + at' e.boot.cfg.mbxMax.2.toNat 16 + at' e.boot.cfg.mbxMin.1.toNat 8 + e.boot.cfg.mbxMin.2.toNat
  | .cfgFwInfo => e.boot.fwInfo.toNat
  | .fusIdLo => fuseWord e 0
  | .fusIdHi => fuseWord e 1
  | .fusFenceLo => fuseWord e 14
  | .fusFenceHi => fuseWord e 15 % 2 ^ 18
  | .fusSpareLo => fuseWord e 16
  | .fusSpareHi => fuseWord e 17 % 2 ^ 18
  | .fusOptions => Nat.land (fuseWord e 18) 0x8003FFFF
  | .fusTrimData => let w := visible ps e .fusTrimSel; if w < 48 then fuseWord e (19 + w) else 0
  | .fusKeyHash i => fuseWord e (2 + i.val)
  | .cmbRingStatus c =>
    let v := visible ps e (.cmbRingStatus c)
    v + ringStatus (combOf e c) (bits v 27 5)
  | .cmbPfState c => parkStatus ((((combOf e c).parks)[visible ps e (.cmbPfSel c)]?).getD {})
  | .cmbPfVaLo c => (((combOf e c).parks[visible ps e (.cmbPfSel c)]?).getD {}).line * 64 % 2 ^ 32
  | .cmbPfVaHi c => (((combOf e c).parks[visible ps e (.cmbPfSel c)]?).getD {}).line * 64 / 2 ^ 32 % 2 ^ 20
  | .cmbPfIdx c d => elemD (((combOf e c).parks[visible ps e (.cmbPfSel c)]?).getD {}).index d.val 0 % 2 ^ 32
  | .cmbPfIdxPos c => (((combOf e c).parks[visible ps e (.cmbPfSel c)]?).getD {}).pos % 2 ^ 32
  | .cmbCheckLast c => (combOf e c).checkLast.toNat
  | .cmbObsNonzero c => (combOf e c).nonzeroShadow % 2 ^ 32
  | .cmbBroodStatus c => broodStatus e c
  | .frmStatus c f => frameStatus e c f
  | r => if rwMask r = 0 then 0 else visible ps e r

/-- The value that a read of a register returns, with the events counted after its shadow was taken (R443, R445). -/
def readReg (ps : List Posted) (e : Engine) (r : RegName) (late : List Nat) : Nat :=
  readBase ps e r + sumNat ((rcFields ps e r).zipIdx.map fun p => at' (rcShown e p.1.2 (elemD late p.2 0)) p.1.1)

/-- The engine after a read has taken the counter fields of a register. -/
def takeFields (ps : List Posted) (e : Engine) (r : RegName) (late : List Nat) : Engine :=
  (rcFields ps e r).zipIdx.foldl (fun acc p => rcTake acc p.1.2 (elemD late p.2 0)) e

/-! ### Shadows that are not refreshed -/

/-- The engine that a read answers from: the shadows' where they are not refreshed, with the RW fields, which take a write as it is
accepted (R443, R563). -/
def readSrc (s : State) : Engine := match s.shadow with | some e => { e with rw := s.eng.rw } | none => s.eng

/-- Counter fields taken from the live counts as `src` showed them (R445). -/
def takeShown (ps : List Posted) (src e : Engine) (r : RegName) : Engine :=
  (rcFields ps src r).foldl (fun acc p =>
    let v := rcShown src p.2 0
    setCtr acc p.2 (if v = ctrMax p.2 / ctrUnit p.2 then 0 else ctrVal acc p.2 - v * ctrUnit p.2)) e

/-- A read of a register: its value on cp_rdata, its counter fields taken; from shadows that are not refreshed, the island's counts and the
shadows fall by what was read. -/
def readTake (s : State) (r : RegName) (late : List Nat) : State :=
  match s.shadow with
  | none =>
    { s with eng := { takeFields s.posted s.eng r late with
        hub := { (takeFields s.posted s.eng r late).hub with rdata := w32 (readReg s.posted s.eng r late) } } }
  | some sh =>
    let src := readSrc s
    let e := takeShown s.posted src s.eng r
    { s with
      eng := { e with hub := { e.hub with rdata := w32 (readReg s.posted src r []) } }
      shadow := some (takeShown s.posted src sh r) }

/-- The shadows are refreshed again once the hub's clock runs. -/
def refreshed (s : State) : State := if hubClock s.eng then { s with shadow := none } else s

end Sys2Proof.Machine
end

