-- ==== Sys2Proof/Machine/ControlPort.lean ====
section
/-! DEFINITION. Machine/ControlPort.lean: accesses to the control port and the application of posted writes (R440 to
R448, R482, R575). -/

namespace Sys2Proof.Machine

/-- Read data driven on cp_rdata. -/
def setRdata (e : Engine) (v : Nat) : Engine := { e with hub := { e.hub with rdata := w32 v } }

/-- An access to a reserved or misaligned location (R9, R447): counted, its address kept; a read returns 0. -/
def badAccess (e : Engine) (addr : BitVec 16) (write : Bool) : Engine :=
  let e := bump { e with hub := { e.hub with lastBad := addr } } .badAccess 1
  if write then e else setRdata e 0

/-- The coefficient word that the selection names: its flat index; none for WORD 20 to 31 (R575). -/
def coefSelected (e : Engine) : Option Nat :=
  let v := rwVal e .updCoefSel
  let w := bits v 0 5
  if w < 20 then some (20 * bits v 8 6 + w) else none

/-- The selection after an access (R575): with AUTO_INC set, WORD advances, and GROUP after word 19. -/
def coefAdvance (e : Engine) : Engine :=
  let v := rwVal e .updCoefSel
  let w := bits v 0 5
  let g := bits v 8 6
  if bit v 31 ∧ w < 20 then
    setRw e .updCoefSel (if w = 19 then at' 1 31 + at' ((g + 1) % 64) 8 else at' 1 31 + at' g 8 + (w + 1))
  else e

/-- The bits of a coefficient word that a write stores (Table 10-2). -/
def coefMask (i : Nat) : Nat := if i % 20 = 17 then 0xFF03 else if 18 ≤ i % 20 then 0 else 0xFFFFFFFF

/-- A coefficient word written (R335); a reserved word ignores it. -/
def coefStore (e : Engine) (i : Nat) (v : Word) : Engine :=
  if 18 ≤ i % 20 then e
  else { e with cap := { e.cap with coef := assign e.cap.coef i (w32 (Nat.land v.toNat (coefMask i))) } }

/-- A coefficient word of the table; 0 after cold start (R336). -/
def coefWord (e : Engine) (i : Nat) : Word := lookupD e.cap.coef i 0

/-- What a read of UPD_COEF_DATA returns: the selected word with the waiting writes to it (R446, R575). -/
def coefRead (ps : List Posted) (e : Engine) : Nat :=
  match coefSelected e with
  | none => 0
  | some i => ps.foldl (fun v p => if p.coef = some i then Nat.land p.data.toNat (coefMask i) else v) (coefWord e i).toNat

/-- A port read of UPD_COEF_DATA. -/
def coefPortRead (s : State) : State := onEngine s fun e => coefAdvance (setRdata e (coefRead s.posted (readSrc s)))

/-- A port write of UPD_COEF_DATA: it waits with its word's index (R575). -/
def coefPortWrite (s : State) (v : Word) : State :=
  { s with posted := s.posted ++ [{ addr := 0x1808, data := v, coef := coefSelected s.eng }], eng := coefAdvance s.eng }

/-- A firmware write of UPD_COEF_DATA, taken as it reaches the hub: it is later than every accepted port write, so that one which still
waits for the same word is overtaken in effect (R448, R575). -/
def coefFwWrite (s : State) (v : Word) : State :=
  match coefSelected s.eng with
  | none => s
  | some i =>
    { s with
      posted := s.posted.map fun p => if p.coef = some i then { p with coef := none } else p
      eng := coefAdvance (coefStore s.eng i v) }

/-- COEF_DATA_ACCESS (R575, R335); before hub lock a read returns 0 and a write is dropped (R482). -/
def coefAccess (s : State) (acc : CoefAccess) : State :=
  if !s.eng.boot.hubLocked then (if acc = .portRead then onEngine s fun e => setRdata e 0 else s)
  else match acc with
  | .portRead => coefPortRead s
  | .portWrite v => if portWrites s.posted < Config.postedDepth then coefPortWrite s v else s
  | .fwRead => onEngine s coefAdvance
  | .fwWrite v => coefFwWrite s v

/-- A write presented at the port while cp_wready is 1 (R442): it waits in the posted queue. Before hub lock it is
dropped (R482); at a reserved location it is a bad access (R9). -/
def cpWrite (s : State) (addr : BitVec 16) (data : Word) : State :=
  if !s.eng.boot.hubLocked then s
  else if Config.postedDepth ≤ portWrites s.posted then s
  else match regAt addr.toNat with
  | none => onEngine s fun e => badAccess e addr true
  | some .updCoefData => coefPortWrite s data
  | some .updCoefSel =>
    { s with posted := s.posted ++ [{ addr := addr.toNat, data := data }], eng := setRw s.eng .updCoefSel data.toNat }
  | some _ =>
    { s with
      posted := s.posted ++ [{ addr := addr.toNat, data := data, stamp := s.eng.hub.stamp + 1 }]
      eng := { s.eng with hub := { s.eng.hub with stamp := s.eng.hub.stamp + 1 } } }

/-- The live non-zero count copied and cleared. -/
def copyNonzero (e : Engine) (c : CombId) : Engine := onComb e c fun cb => { cb with nonzeroShadow := cb.nonzero, nonzero := 0 }

/-- A read of CMB_OBS_UFLOW: the underflow count is taken and the live non-zero count is copied and cleared (R187 text). -/
def uflowRead (s : State) (c : CombId) (late : Nat) : State :=
  if !s.eng.boot.hubLocked then onEngine s fun e => setRdata e 0
  else
    let s := readTake s (.cmbObsUflow c) [late]
    { s with eng := copyNonzero s.eng c, shadow := s.shadow.map fun e => copyNonzero e c }

/-- A port read of any address (R441, R443, R445): the register's value, its counter fields taken. -/
def cpRead (s : State) (addr : BitVec 16) (late : List Nat) : State :=
  if !s.eng.boot.hubLocked then onEngine s fun e => setRdata e 0
  else match regAt addr.toNat with
  | none => onEngine s fun e => badAccess e addr false
  | some .updCoefData => coefPortRead s
  | some (.cmbObsUflow c) => uflowRead s c (elemD late 0 0)
  | some r => readTake s r late

/-- Whether a write of a register is carried out by a row of its own rather than by POSTED_WRITE_APPLY. -/
def ownRow (r : RegName) (data : Nat) : Bool :=
  match r with
  | .cfgReset | .cfgFwWinData | .portCtrl _ | .pwrVid | .clkCombFreq | .pwrMode | .logCtrl => true
  | .cfgFwCtrl | .mbxCmdCtrl | .pwrPadRelease => bit data 0
  | .mbxRspCtrl | .hubErrFirst => bit data 31
  | _ => false

/-- A register whose writes BUSY turns away (R509). -/
def isMbxCmd : RegName → Bool
  | .mbxCmdHdr | .mbxCmdLen | .mbxCmdData _ | .mbxCmdCtrl => true
  | _ => false

/-- The RW fields of a register take a written value, or the write is ignored. -/
def storeRw (e : Engine) (r : RegName) (data : Word) : Engine :=
  match rwStore e r (rwVal e r) data.toNat with
  | some v => setRw e r v
  | none => e

/-- A write of a register takes effect in its island (R6, R7, R8, R444). A hardware event that sets a W1C bit in the same cycle is the next
command: the bit ends at 1 (R567, assumptions/138). -/
def applyWrite (e : Engine) (r : RegName) (data : Word) : Engine :=
  if isMbxCmd r && e.mbx.busy then bump e .mbxIgnored 1
  else match r with
  | .hubErrStatus =>
    { e with hub := { e.hub with errStatus := e.hub.errStatus &&& ~~~(BitVec.ofNat 8 data.toNat) } }
  | .hubDone =>
    let e := storeRw e .hubDone data
    if bit data.toNat 0 then { e with hub := { e.hub with graphDone := false } } else e
  | .pwrThermStatus =>
    { e with pwr := { e.pwr with thermStatus := e.pwr.thermStatus &&& ~~~(BitVec.ofNat 4 data.toNat) } }
  | .pwrThrottle => { e with pwr := { e.pwr with duty := min 56 (data.toNat % 64) } }
  | r => storeRw e r data

/-- The oldest posted write is applied (R442). Nothing is applied in NAP and HIBERNATE (R563) or while a dip has stopped the hub's clock
(R544); a write that firmware has overtaken has no effect left (R448). -/
def applyPosted (s : State) : State :=
  if !hubClock s.eng || !s.eng.boot.hubLocked then s
  else match s.posted with
  | [] => s
  | p :: ps =>
    match postedReg p with
    | none => { s with posted := ps }
    | some r =>
      if ownRow r p.data.toNat then s
      else match p.coef with
        | some i => { s with posted := ps, eng := coefStore s.eng i p.data }
        | none => { s with posted := ps, eng := (takenData s.eng p r).elim s.eng (applyWrite s.eng r) }

/-- HUB_ERR_FIRST rearmed by a 1 written to VALID. -/
def errRearm (e : Engine) (v : Word) : Engine := if bit v.toNat 31 then rearmErr e else e

def execCpWriteAccept (addr : BitVec 16) (data : Word) (s : State) : Host.Outcome State Fault Refusal :=
  .next (cpWrite s addr data)

def execPostedWriteApply (s : State) : Host.Outcome State Fault Refusal := .next (applyPosted s)

def execRcFieldRead (addr : BitVec 16) (late : List Nat) (s : State) : Host.Outcome State Fault Refusal :=
  .next (cpRead s addr late)

/-- BAD_ACCESS (R9, R447): taken for a reserved or misaligned address; a write waits while the queue is full (R442). -/
def execBadAccess (addr : BitVec 16) (write : Bool) (s : State) : Host.Outcome State Fault Refusal :=
  .next (if !s.eng.boot.hubLocked then (if write then s else onEngine s fun e => setRdata e 0)
    else if (regAt addr.toNat).isSome || (write && Config.postedDepth ≤ portWrites s.posted) then s
    else onEngine s fun e => badAccess e addr write)

/-- CP_PORT_RESET (R440, R442): the port logic alone: the posted queue and the read data; firmware's writes stay. -/
def execCpPortReset (s : State) : Host.Outcome State Fault Refusal :=
  .next { s with posted := s.posted.filter fun p => p.fw.isSome, eng := setRdata s.eng 0 }

def execCoefDataAccess (acc : CoefAccess) (s : State) : Host.Outcome State Fault Refusal := .next (coefAccess s acc)

def execObsUflowRead (c : CombId) (late : Nat) (s : State) : Host.Outcome State Fault Refusal :=
  .next (uflowRead s c late)

def execErrFirstRearm (src : WriteSrc) (s : State) : Host.Outcome State Fault Refusal :=
  .next (bySource s src .hubErrFirst fun v e => errRearm e v)

end Sys2Proof.Machine
end

