-- ==== Sys2Proof/Machine/Float.lean ====
section
/-! DEFINITION. Machine/Float.lean: the floating-point formats and conversions of 02_element_formats_and_codes.md
(R24 to R33) and the F32 operations under R26, computed exactly and rounded once. -/

namespace Sys2Proof.Machine

/-- A floating-point value: NaN, an infinity, or sign, integer significand m and exponent e of (-1)^neg · m · 2^e (R24, R25). -/
inductive FVal where
  | nan
  | inf (neg : Bool)
  | fin (neg : Bool) (m : Nat) (e : Int)
  deriving DecidableEq, Repr, Inhabited

/-- A format of Table 02-1 by its exponent and fraction widths. -/
structure FFmt where
  ebits : Nat
  fbits : Nat
  deriving DecidableEq, Repr

def fmtF16 : FFmt := ⟨5, 10⟩
def fmtBF16 : FFmt := ⟨8, 7⟩
def fmtF32 : FFmt := ⟨8, 23⟩

/-- The exponent bias (Table 02-1). -/
def fBias (t : FFmt) : Nat := 2 ^ (t.ebits - 1) - 1

/-- The bits of +infinity. -/
def fInfBits (t : FFmt) : Nat := (2 ^ t.ebits - 1) * 2 ^ t.fbits

/-- The sign bit's weight. -/
def fSignBit (t : FFmt) : Nat := 2 ^ (t.ebits + t.fbits)

/-- The canonical quiet NaN of a format (R27). -/
def fNanBits (t : FFmt) : Nat := fInfBits t + 2 ^ (t.fbits - 1)

/-- The value of a bit pattern; subnormals at their exact value (R25). -/
def fDecode (t : FFmt) (b : Nat) : FVal :=
  let f := bits b 0 t.fbits
  let e := bits b t.fbits t.ebits
  let neg := bit b (t.ebits + t.fbits)
  if e = 2 ^ t.ebits - 1 then (if f = 0 then .inf neg else .nan)
  else if e = 0 then .fin neg f (1 - (fBias t : Int) - t.fbits)
  else .fin neg (f + 2 ^ t.fbits) ((e : Int) - fBias t - t.fbits)

/-- num/den to an integer, nearest, ties to even. -/
def rneNat (num den : Nat) : Nat :=
  let q := num / den
  let r := num % den
  if den < 2 * r ∨ (2 * r = den ∧ q % 2 = 1) then q + 1 else q

/-- num/den · 2^e as a quotient of naturals. -/
def scale2 (num den : Nat) (e : Int) : Nat × Nat :=
  if 0 ≤ e then (num * 2 ^ e.toNat, den) else (num, den * 2 ^ (-e).toNat)

/-- floor(log2(num/den)) of a positive quotient. -/
def log2Quot (num den : Nat) : Int :=
  let l : Int := (Nat.log2 num : Int) - (Nat.log2 den : Int)
  let (a, b) := scale2 num den (-l)
  if a < b then l - 1 else l

/-- The nearest value of the format to (-1)^neg · num/den · 2^e, ties to even, as bits (R26, Table 02-2). -/
def fRound (t : FFmt) (neg : Bool) (num den : Nat) (e : Int) : Nat :=
  let sign := b2n neg * fSignBit t
  if num = 0 then sign
  else
    let emin : Int := 1 - (fBias t : Int)
    let lg := log2Quot num den + e
    let top := if lg < emin then emin else lg
    let (a, b) := scale2 num den (e - (top - t.fbits))
    let q := rneNat a b
    let r := (top - emin).toNat * 2 ^ t.fbits + q
    sign + (if fInfBits t ≤ r then fInfBits t else r)

/-- The bits of a value in a format, rounded to nearest even; NaN is canonical (R27). -/
def fEncode (t : FFmt) : FVal → Nat
  | .nan => fNanBits t
  | .inf neg => b2n neg * fSignBit t + fInfBits t
  | .fin neg m e => fRound t neg m 1 e

/-- The value of an F32 word. -/
def f32Val (w : Word) : FVal := fDecode fmtF32 w.toNat

/-- An F32 word from a value, under RN. -/
def toF32 (v : FVal) : Word := w32 (fEncode fmtF32 v)

/-- A finite value as a signed significand. -/
def signedSig (neg : Bool) (m : Nat) : Int := if neg then -(m : Int) else m

/-- The exact sum of two values before rounding; a zero sum of opposite signs is +0. -/
def vAdd : FVal → FVal → FVal
  | .nan, _ => .nan
  | _, .nan => .nan
  | .inf a, .inf b => if a = b then .inf a else .nan
  | .inf a, .fin .. => .inf a
  | .fin .., .inf b => .inf b
  | .fin na ma ea, .fin nb mb eb =>
    let e := min ea eb
    let x := signedSig na ma * 2 ^ (ea - e).toNat + signedSig nb mb * 2 ^ (eb - e).toNat
    if x = 0 then .fin (na && nb) 0 0 else .fin (decide (x < 0)) x.natAbs e

/-- The exact product of two values. -/
def vMul : FVal → FVal → FVal
  | .nan, _ => .nan
  | _, .nan => .nan
  | .inf a, .inf b => .inf (a != b)
  | .inf a, .fin b m _ => if m = 0 then .nan else .inf (a != b)
  | .fin a m _, .inf b => if m = 0 then .nan else .inf (a != b)
  | .fin a m e, .fin b k f => .fin (a != b) (m * k) (e + f)

/-- Negation of a value; NaN stays NaN. -/
def vNeg : FVal → FVal
  | .nan => .nan
  | .inf a => .inf (!a)
  | .fin a m e => .fin (!a) m e

/-- Magnitude. -/
def vAbs : FVal → FVal
  | .nan => .nan
  | .inf _ => .inf false
  | .fin _ m e => .fin false m e

/-- Whether a value is a NaN or an infinity. -/
def vBad : FVal → Bool
  | .fin .. => false
  | _ => true

/-- Whether a value is ±0. -/
def vZero : FVal → Bool
  | .fin _ 0 _ => true
  | _ => false

/-- a < b on values (false where either is NaN; -0 equals +0). -/
def vLt : FVal → FVal → Bool
  | .nan, _ => false
  | _, .nan => false
  | .inf a, .inf b => a && !b
  | .inf a, .fin .. => a
  | .fin .., .inf b => !b
  | .fin na ma ea, .fin nb mb eb =>
    let e := min ea eb
    decide (signedSig na ma * 2 ^ (ea - e).toNat < signedSig nb mb * 2 ^ (eb - e).toNat)

/-- F32 addition, RN (R26). -/
def fAdd (a b : Word) : Word := toF32 (vAdd (f32Val a) (f32Val b))
/-- F32 subtraction, RN. -/
def fSub (a b : Word) : Word := toF32 (vAdd (f32Val a) (vNeg (f32Val b)))
/-- F32 multiplication, RN (R26). -/
def fMul (a b : Word) : Word := toF32 (vMul (f32Val a) (f32Val b))
/-- F32 negation: the sign bit inverted. -/
def fNeg (a : Word) : Word := toF32 (vNeg (f32Val a))
/-- F32 magnitude. -/
def fAbs (a : Word) : Word := toF32 (vAbs (f32Val a))
/-- a < b in F32. -/
def fLt (a b : Word) : Bool := vLt (f32Val a) (f32Val b)
/-- Whether an F32 word is a NaN or an infinity. -/
def fBad (a : Word) : Bool := vBad (f32Val a)
/-- Whether an F32 word is ±0. -/
def fZero (a : Word) : Bool := vZero (f32Val a)
/-- Whether an F32 word is a NaN. -/
def fNan (a : Word) : Bool := decide (f32Val a = .nan)

/-- The quotient of two values rounded once to F32 (RN of the exact quotient). -/
def vDivF32 : FVal → FVal → Word
  | .nan, _ => w32 (fNanBits fmtF32)
  | _, .nan => w32 (fNanBits fmtF32)
  | .inf _, .inf _ => w32 (fNanBits fmtF32)
  | .inf a, .fin b _ _ => toF32 (.inf (a != b))
  | .fin a _ _, .inf b => toF32 (.fin (a != b) 0 0)
  | .fin a m e, .fin b k f =>
    if k = 0 then (if m = 0 then w32 (fNanBits fmtF32) else toF32 (.inf (a != b)))
    else w32 (fRound fmtF32 (a != b) m k (e - f))

/-- F32 division, RN. -/
def fDiv (a b : Word) : Word := vDivF32 (f32Val a) (f32Val b)

/-- The integer square root, bit by bit from the highest. -/
def isqrt (n : Nat) : Nat :=
  (List.range (Nat.log2 n / 2 + 1)).reverse.foldl (fun r k => if (r + 2 ^ k) * (r + 2 ^ k) ≤ n then r + 2 ^ k else r) 0

/-- F32 square root, RN; a negative non-zero operand gives NaN. -/
def fSqrt (a : Word) : Word :=
  match f32Val a with
  | .nan => w32 (fNanBits fmtF32)
  | .inf neg => if neg then w32 (fNanBits fmtF32) else a
  | .fin neg m e =>
    if m = 0 then a
    else if neg then w32 (fNanBits fmtF32)
    else
      -- the radicand as k · 2^(2h), with k wide enough that one sticky bit settles the rounding
      let m' := if e % 2 = 0 then m else 2 * m
      let e' := if e % 2 = 0 then e else e - 1
      let k := m' * 2 ^ 64
      let r := isqrt k
      let sticky := if r * r = k then 2 * r else 2 * r + 1
      w32 (fRound fmtF32 false sticky 1 (e' / 2 - 33))

/-- The integer nearest to a finite value, ties to even; 0 for a NaN or an infinity (their rows never reach a code, R37). -/
def vRoundInt : FVal → Int
  | .fin neg m e => signedSig neg (let (a, b) := scale2 m 1 e; rneNat a b)
  | _ => 0

/-- An F32 word from an integer, RN (exact below 2^24, Table 02-2's last row). -/
def fOfInt (i : Int) : Word := w32 (fRound fmtF32 (decide (i < 0)) i.natAbs 1 0)

/-- An F32 word from a quotient of naturals, RN. -/
def fOfQuot (num den : Nat) : Word := w32 (fRound fmtF32 false num den 0)

/-- F16 bits to F32 (Table 02-2): exact, NaN canonical. -/
def f16ToF32 (h : Nat) : Word := toF32 (fDecode fmtF16 h)
/-- BF16 bits to F32 (Table 02-2): exact, NaN canonical. -/
def bf16ToF32 (h : Nat) : Word := toF32 (fDecode fmtBF16 h)
/-- F32 to F16, nearest even (Table 02-2). -/
def f32ToF16 (w : Word) : Nat := fEncode fmtF16 (f32Val w)
/-- F32 to BF16, nearest even (Table 02-2). -/
def f32ToBF16 (w : Word) : Nat := fEncode fmtBF16 (f32Val w)

/-- Whether 16 bits of a format hold a NaN or an infinity (R30). -/
def badF16 (h : Nat) : Bool := vBad (fDecode fmtF16 h)
def badBF16 (h : Nat) : Bool := vBad (fDecode fmtBF16 h)

/-- The hash of R33, modulo 2^32. -/
def srBits (seed step addr : Nat) : Nat :=
  let m := 2 ^ 32
  let x := Nat.xor (Nat.xor (seed % m) (addr / 2 % m)) (addr / 2 ^ 33 % m * 0x9E3779B9 % m)
  let x := Nat.xor x (step * 0x85EBCA6B % m)
  let x := Nat.xor x (x / 2 ^ 16)
  let x := x * 0x7FEB352D % m
  let x := Nat.xor x (x / 2 ^ 15)
  let x := x * 0x846CA68B % m
  Nat.xor x (x / 2 ^ 16)

/-- F32 to BF16 stochastically (R32): r added to the bits of a finite source, the upper 16 bits kept; a carry into the
all-ones exponent is an infinity. -/
def f32ToBF16Stochastic (r : Nat) (w : Word) : Nat :=
  if fBad w then f32ToBF16 w
  else
    let mag := (w.toNat % 2 ^ 31 + r % 2 ^ 16) / 2 ^ 16
    w.toNat / 2 ^ 31 * 2 ^ 15 + (if 0x7F80 ≤ mag then 0x7F80 else mag)

/-- RN(a ÷ b) for a natural numerator and a positive finite F32 divisor. -/
def fNatDiv (a : Nat) (b : Word) : Word := vDivF32 (.fin false a 0) (f32Val b)

/-- RN(a ÷ b) for a natural divisor. -/
def fDivNat (a : Word) (b : Nat) : Word := vDivF32 (f32Val a) (.fin false b 0)

/-- The larger of two F32 magnitudes as values. -/
def vMax (a b : FVal) : FVal := if vLt a b then b else a

/-- Bits of an F32 power of two with a negative exponent no lower than the normal range. -/
def fPow2Neg (e : Nat) : Word := w32 (fRound fmtF32 false 1 (2 ^ e) 0)

end Sys2Proof.Machine
end

