-- ==== Sys2Proof/Machine/Power.lean ====
section
/-! DEFINITION. Machine/Power.lean: rails, supply dips, the DVFS interlock and envelopes, thermal sensors, the trip and
FP0's loop (R470 to R475, R537 to R556). -/

namespace Sys2Proof.Machine

/-- Minimum rail_core_vid of a comb frequency step (Table 17-1). -/
def minVid (step : Nat) : Nat := elemD [30, 35, 40, 43, 47, 50, 53, 57, 60, 65, 70] step 70

/-- Comb step of an envelope (Table 17-2). -/
def envStep (env : Nat) : Nat := elemD [10, 8, 2] env 2
/-- rail_core_vid of an envelope (Table 17-2). -/
def envVid (env : Nat) : Nat := elemD [70, 60, 40] env 40
/-- The power limit held for an envelope (R23, Table 15-6), in W. -/
def envLimit (e : Engine) (env : Nat) : Nat := elemD e.boot.cfg.limits env 0

/-- The limit in effect: a lowered envelope's from the request, a raised one's from completion (R539 text). -/
def limitNow (e : Engine) : Nat :=
  match e.pwr.envTarget with
  | some t => if e.pwr.envelope < t then envLimit e t else envLimit e e.pwr.envelope
  | none => envLimit e e.pwr.envelope

/-! ### Dips -/

/-- The island has a running clock to stretch. -/
def islandRuns (e : Engine) (i : Nat) : Bool := (islandOf e i).started && (decide (i = 56) || awake e)

/-- A frame has a due step (R110): a part of an issued tile has steps still to enter. -/
def frameDue (fr : Frame) : Bool := !fr.steps.isEmpty || fr.jobs.any fun j => decide (j.entered < j.parts.length)

/-- A clock that a dip had stopped runs again. The cycle that the stop lengthened counts in DROOP of each frame of a comb with
a due step, in nominal cycles rounded up (R272). -/
def resume (e : Engine) (i : Nat) : Engine :=
  let n := ceilDiv (islandOf e i).lost 1250000000
  let e := if i < 50 then
      let c : CombId := Fin.ofNat 50 i
      bumpComb e c .stallDroop (countIf frameDue (combOf e c).frames * n)
    else e
  onIsland e i fun s => { s with stopped := false, lost := 0 }

/-- The code that the droop detectors compare with: in the 100 ns after a change of rail_core_vid the lower of the old and
the new code (R548). -/
def detectorVid (e : Engine) : Nat := match e.pwr.vidOld with | some (v, _) => min v e.pwr.vid | none => e.pwr.vid

/-- The warning level of an island in units of 0.5 mV (R470, R543): its droop trim byte × 2.5 mV below the voltage. -/
def warnLevel (e : Engine) (i : Nat) : Nat := 1000 + 10 * detectorVid e - 5 * trimByte e (64 + i)

/-- The stop level, 25 mV below the warning level (R543). -/
def stopLevel (e : Engine) (i : Nat) : Nat := warnLevel e i - 50

/-- A dip begins in an island: its clock period doubles, and the dip counts once (R544, R546). -/
def startDip (e : Engine) (i : Nat) : Engine :=
  if (islandOf e i).stretched then e
  else
    let e := onIsland e i fun s => { s with stretched := true, stopped := false }
    bump { e with pwr := { e.pwr with lastDip := i } } .dips 1

/-- DROOP_WARNING (R543, R544): the island's supply, in units of 0.5 mV, lies below its warning level, and the clock period
doubles. In a stopped island whose supply has risen above the stop level again the clock resumes at the doubled period. -/
def droopWarning (e : Engine) (i supply : Nat) : Engine :=
  if !islandRuns e i then e
  else if (islandOf e i).stretched then (if stopLevel e i ≤ supply then resume e i else e)
  else if supply < warnLevel e i then startDip e i
  else e

/-- DROOP_STOP (R544): below the stop level the clock stops; a supply that falls so far at once begins its dip there. -/
def droopStop (e : Engine) (i supply : Nat) : Engine :=
  if islandRuns e i && decide (supply < stopLevel e i) then onIsland (startDip e i) i fun s => { s with stopped := true } else e

/-- The step of a hold: one below the requested step, or 0 (R545). -/
def holdStepOf (e : Engine) : Nat := e.pwr.step - 1

/-- A comb island enters a hold as it leaves stretching (R545, R546). -/
def startHold (e : Engine) (i : Nat) : Engine :=
  if i < 50 then onIsland e i fun s => { s with hold := true, holdStep := holdStepOf e } else e

/-- Trace point 0x0009 (R546): island, kind, hold step, time stretched. -/
def dipRecord (e : Engine) (i kind : Nat) (ns : Nat) : Engine :=
  logEvent e i 0x0009 0 ([BitVec.ofNat 8 i, BitVec.ofNat 8 kind,
    if i < 50 then BitVec.ofNat 8 (holdStepOf e) else 0xFF, 0] ++ leBytes 4 ns)

/-- DROOP_CLEAR (R545, R546): after 20 ns above the warning level the island leaves stretching. -/
def droopClear (e : Engine) (i supply : Nat) (ns : Nat) : Engine :=
  if (islandOf e i).stretched && decide (warnLevel e i ≤ supply) then
    let e := onIsland (resume e i) i fun s => { s with stretched := false }
    dipRecord (startHold e i) i 0 ns
  else e

/-! ### The DVFS interlock -/

/-- rail_core_good counts for a step that depends on the present voltage (R471, R540). -/
def railReady (e : Engine) : Bool := e.pwr.goodCore && e.pwr.goodSince

/-- The comb step is bounded by the trip or by the clamp while FP0 restarts (R529, R542, R555). -/
def stepBounded (e : Engine) : Bool := e.pwr.forced || e.fwp.clampQuiet

/-- Trace point 0x0008 (R541). -/
def heldRecord (e : Engine) (kind want : Nat) : Engine :=
  logEvent e 56 0x0008 0 [BitVec.ofNat 8 kind, BitVec.ofNat 8 want, BitVec.ofNat 8 e.pwr.step, BitVec.ofNat 8 e.pwr.vid]

/-- A voltage code put on rail_core_vid (R471); a change opens the 100 ns of R471 and R548, 125 nominal hub periods. -/
def driveVid (e : Engine) (v : Nat) : Engine :=
  { e with pwr := { e.pwr with
    vid := v, goodSince := if v = e.pwr.vid then e.pwr.goodSince else false
    vidOld := if v = e.pwr.vid then e.pwr.vidOld else some (detectorVid e, 125) } }

/-- A voltage request takes effect. -/
def applyVid (e : Engine) (v : Nat) : Engine := { driveVid e v with pwr := { (driveVid e v).pwr with vidHeld := false } }

/-- A comb step put into effect: the islands change within 2 µs (R538). -/
def applyStep (e : Engine) (n : Nat) : Engine :=
  { e with pwr := { e.pwr with
    step := n, stepHeld := false, changing := e.pwr.changing || n ≠ e.pwr.step
    stepFrom := if e.pwr.changing then min e.pwr.stepFrom e.pwr.step else e.pwr.step } }

/-- The step by which a voltage request is judged: the present comb step, and in a hold the requested one where that lies above it
(R540, R549, assumptions/122). -/
def judgedStep (e : Engine) : Nat := if e.pwr.islands.any Island.hold then max e.pwr.stepReq e.pwr.step else e.pwr.step

/-- VOLTAGE_REQUEST (R540, R541, R549): below the minimum for the present comb step it is out of order and held; while
rail_core_good is not 1 it waits (R471). -/
def voltageRequest (e : Engine) (data : Nat) : Engine :=
  match vidTaken data with
  | none => e
  | some v =>
    let e := { e with pwr := { e.pwr with vidReq := v, vidHeld := false } }
    if v < minVid (judgedStep e) then
      heldRecord (bump { e with pwr := { e.pwr with vidHeld := true } } .heldVid 1) 1 v
    else if !railReady e then { e with pwr := { e.pwr with vidHeld := true } }
    else applyVid e v

/-- A comb island is in a hold whose step lies below n (R549). -/
def holdBlocks (e : Engine) (n : Nat) : Bool := e.pwr.islands.any fun s => s.hold && decide (s.holdStep < n)

/-- A frequency request is out of order (R540): its step needs a higher code, or rail_core_good has not risen after the last change. -/
def stepBad (e : Engine) (n : Nat) : Bool := decide (e.pwr.vid < minVid n) || !e.pwr.goodSince

/-- The standing frequency request is out of order: it is held, counted once and recorded (R540, R541). -/
def holdStepReq (e : Engine) : Engine :=
  if e.pwr.stepCounted then { e with pwr := { e.pwr with stepHeld := true } }
  else heldRecord (bump { e with pwr := { e.pwr with stepHeld := true, stepCounted := true } } .heldFreq 1) 0 e.pwr.stepReq

/-- The standing frequency request is judged (R540, R549): under the trip or the clamp it stands until control returns. -/
def judgeStep (e : Engine) : Engine :=
  if stepBad e e.pwr.stepReq then holdStepReq e
  else if stepBounded e then e
  else if holdBlocks e e.pwr.stepReq then { e with pwr := { e.pwr with stepHeld := true } }
  else applyStep e e.pwr.stepReq

/-- FREQUENCY_REQUEST (R540, R541, R549). -/
def frequencyRequest (e : Engine) (data : Nat) : Engine :=
  match stepTaken data with
  | none => e
  | some n => judgeStep { e with pwr := { e.pwr with stepReq := n, stepHeld := false, stepCounted := false } }

/-- The held voltage request's precondition holds; in NAP and HIBERNATE the code is R559's. -/
def vidFree (e : Engine) : Bool :=
  e.pwr.vidHeld && decide (minVid (judgedStep e) ≤ e.pwr.vidReq) && railReady e && awake e

/-- The held frequency request's precondition holds. -/
def stepFree (e : Engine) : Bool :=
  e.pwr.stepHeld && !stepBounded e && !stepBad e e.pwr.stepReq && !holdBlocks e e.pwr.stepReq && awake e

/-- FP0 runs and its writes reach the hub. -/
def fp0Free (e : Engine) : Bool := procUp e 0 && e.pwr.pstate == .active && hubClock e

/-- FP0 requests a voltage, or a comb step: later than every port write accepted so far (R448). -/
def fp0Vid (e : Engine) (v : Nat) : Engine := voltageRequest (fwMark e .pwrVid) v
def fp0Step (e : Engine) (n : Nat) : Engine := frequencyRequest (fwMark e .clkCombFreq) n

/-- FP0 must still request the step of an envelope: none stands, or a clamp has lowered the step since. -/
def stepUnasked (e : Engine) (t : Nat) : Bool :=
  decide (e.pwr.stepReq ≠ envStep t) || decide (e.pwr.step ≠ envStep t) && !e.pwr.stepHeld

/-- FP0's next request on the way to an envelope (R541 text): voltage before frequency when raising, frequency before
voltage when lowering. -/
def envAdvance (e : Engine) : Engine :=
  match e.pwr.envTarget with
  | none => e
  | some t =>
    if !fp0Free e || stepBounded e then e
    else if e.pwr.vidReq < envVid t then fp0Vid e (envVid t)
    else if stepUnasked e t then (if envVid t ≤ e.pwr.vid && railReady e then fp0Step e (envStep t) else e)
    else if e.pwr.step = envStep t ∧ !e.pwr.changing ∧ e.pwr.vidReq ≠ envVid t then fp0Vid e (envVid t)
    else e

/-- The change to the target envelope is complete (R539): every enabled comb island runs at its step, none in a post-dip hold below it, and
rail_core_good is 1 at its code. -/
def envDone (e : Engine) (t : Nat) : Bool :=
  decide (e.pwr.step = envStep t) && !e.pwr.changing && (enabledCombs e).all (fun c => combStep e c.val == envStep t) &&
    decide (e.pwr.vid = envVid t) && railReady e && !stepBounded e

/-- A completed change shows in ENVELOPE, and a MODE_SET is answered (R511, R539). -/
def envFinish (e : Engine) : Engine :=
  match e.pwr.envTarget with
  | none => e
  | some t =>
    if procUp e 0 && envDone e t then
      let e := { e with pwr := { e.pwr with envelope := t, envTarget := none } }
      match e.mbx.modeReply with
      | some m => reply { e with mbx := { e.mbx with modeReply := none } } m 0 []
      | none => e
    else e

/-- FP0 moves on towards its target envelope: at most one request, then completion is judged. -/
def envProgress (e : Engine) : Engine := envFinish (envAdvance e)

/-- FP0 starts a change to an envelope; the clamp of its restart ends as it sets one (R529, R539). -/
def setEnvelope (e : Engine) (t : Nat) : Engine :=
  envProgress { e with
    pwr := { e.pwr with envTarget := some t, envKept := some t, envSet := true }
    fwp := { e.fwp with clampQuiet := false } }

/-- Control returns to FP0's requests as a trip or a clamp ends (R555): the standing request is judged under R540. -/
def returnControl (e : Engine) : Engine := if stepBounded e then e else envProgress (judgeStep e)

/-- Every comb island lowered to step 2 at most (R529, R542, R555). -/
def lowerStep (e : Engine) : Engine := if 2 < e.pwr.step then applyStep e 2 else e

/-- HELD_REQUEST_APPLY (R540). -/
def heldApply (e : Engine) : Engine :=
  if vidFree e then envProgress (applyVid e e.pwr.vidReq)
  else if stepFree e then envProgress (applyStep e e.pwr.stepReq)
  else e

/-- FREQ_CHANGE_COMPLETE (R538, R539). -/
def freqComplete (e : Engine) : Engine :=
  if e.pwr.changing then envProgress { e with pwr := { e.pwr with changing := false } } else e

/-- DROOP_HOLD_EXPIRY (R545, R549): the comb returns to the requested step, and a request that the hold has delayed is judged. -/
def holdExpiry (e : Engine) (c : CombId) : Engine :=
  let s := islandOf e c.val
  if s.hold && !s.stretched && !e.pwr.railDropped then
    let e := onIsland e c.val fun s => { s with hold := false }
    envProgress (if e.pwr.stepHeld then judgeStep e else e)
  else e

/-- RAIL_CORE_DROP (R472, R550): rail_core_good falls. Outside the 100 ns of a change of rail_core_vid every island stretches and the drop
counts as a dip of island 50; within them it is disregarded (R471). -/
def railDrop (e : Engine) : Engine :=
  if !(e.pwr.coreReq && e.pwr.goodCore) then e
  else if e.pwr.vidOld.isSome then { e with pwr := { e.pwr with goodCore := false } }
  else
    let e := { e with pwr := { e.pwr with goodCore := false, railDropped := true, lastDip := 50 } }
    bump (bump (onIsland e 50 fun s => { s with droopStart := e.hub.cycle }) .railDrops 1) .dips 1

/-- The time spent stretched since a rail drop, in ns: hub cycles at the doubled period of 1.6 ns. -/
def railStretchNs (e : Engine) : Nat := (e.hub.cycle - (islandOf e 50).droopStart) * 8 / 5

/-- rail_core_good rises: after a drop the clocks resume, and every comb island starts a hold (R472, R550). -/
def railRise (e : Engine) : Engine :=
  let ns := railStretchNs e
  let dropped := e.pwr.railDropped
  let e := { e with pwr := { e.pwr with goodCore := true, railDropped := false } }
  if dropped then dipRecord ((List.range 50).foldl (fun e i => if (islandOf e i).started then startHold e i else e) e) 50 1 ns else e

/-- Code 30, which NAP waits to set until rail_core_good is 1 (R471, R559 step 6). -/
def napVid (e : Engine) : Engine :=
  if e.pwr.pstate == .nap && decide (e.pwr.vid ≠ 30) && railReady e then driveVid e 30 else e

/-- The 100 ns of a change are over and rail_core_good is 1: what waits for the voltage goes on (R471). -/
def settleRail (e : Engine) : Engine :=
  if e.pwr.goodCore && e.pwr.vidOld.isNone then envProgress (napVid { e with pwr := { e.pwr with goodSince := true } }) else e

/-- RAIL_CORE_RECOVER (R471, R550): rail_core_good rises, which within the 100 ns of a change settles nothing yet. Where it has been 1
throughout, the command tells that they are over (assumptions/139). -/
def railRecover (e : Engine) : Engine :=
  if !e.pwr.goodCore then settleRail (railRise e)
  else if e.pwr.goodSince then e
  else settleRail { e with pwr := { e.pwr with vidOld := none } }

/-! ### Sensors, trip and the loop -/

/-- A sensor's readings count (R475): it has delivered, and is neither failed nor excluded. -/
def sensorValid (e : Engine) (i : Nat) : Bool := ((e.pwr.sensors[i]?).getD {}).seen && !sensorOut e i

/-- Temperature of a sensor in 1/16 degree, signed. -/
def sensorTemp (e : Engine) (i : Nat) : Int := ((e.pwr.sensors[i]?).getD {}).temp.toInt

/-- The hottest valid sensor's temperature. -/
def hottest (e : Engine) : Option Int :=
  (List.range 64).foldl (fun acc i =>
    if sensorValid e i then
      match acc with
      | none => some (sensorTemp e i)
      | some t => some (if t < sensorTemp e i then sensorTemp e i else t)
    else acc) none

/-- Sensors deliver or are judged: from the end of FUSE_LOAD, but not in HIBERNATE (R474, R475, R555). -/
def sensorsOn (e : Engine) : Bool :=
  e.boot.state != .off && e.boot.state != .fuseLoad && e.pwr.pstate != .hibernate

/-- A PWR_THERM_STATUS bit set (R556). -/
def thermEvent (e : Engine) (b : Nat) : Engine :=
  { e with pwr := { e.pwr with thermStatus := e.pwr.thermStatus ||| BitVec.ofNat 4 (2 ^ b) } }

/-- The trip acts (R555): step 2 and DUTY 56. -/
def trip (e : Engine) : Engine :=
  lowerStep (thermEvent { e with pwr := { e.pwr with forced := true } } 1)

/-- SENSOR_CODE (R474, R475, R555, R556). -/
def sensorCode (e : Engine) (i : SensorId) (code : BitVec 12) : Engine :=
  if !sensorsOn e then e
  else
    let off := toSigned 8 (trimByte e (128 + i.val))
    let temp := BitVec.ofInt 16 ((code.toNat : Int) - 1024 + off)
    let bad := code == 0 || code == 0xFFF
    let e := { e with pwr := { e.pwr with sensors := updAt e.pwr.sensors i.val fun _ => ⟨code, temp, bad, true⟩ } }
    let e := { e with pwr := { e.pwr with stale := false, sampleAge := 0, otherCode := true } }
    if !sensorValid e i.val then e
    else
      let e := { e with pwr := { e.pwr with otherCode := false } }
      let ctrl := rwVal e .pwrThermCtrl
      let tj : Int := 16 * (bits ctrl 0 8 : Nat)
      let tripAt : Int := 16 * (bits ctrl 8 8 : Nat)
      let e := if tj ≤ sensorTemp e i.val then thermEvent e 0 else e
      match hottest e with
      | none => e
      | some t =>
        if tripAt ≤ t then (if e.pwr.forced then e else trip e)
        else if e.pwr.forced ∧ t < tj then returnControl { e with pwr := { e.pwr with forced := false } }
        else e

/-- SENSOR_TIMEOUT (R475): a sensor that delivers no code is failed. -/
def sensorTimeout (e : Engine) (i : SensorId) : Engine :=
  if sensorsOn e then { e with pwr := { e.pwr with sensors := updAt e.pwr.sensors i.val fun s => { s with failed := true } } }
  else e

/-- STALE_TRIP (R555, R556): no valid sensor delivered within the stale window. Where none delivered any code since the last valid one,
none has been sampled either (TEMP_FLAGS, Table 14-8). -/
def staleTrip (e : Engine) : Engine :=
  if !sensorsOn e then e
  else
    let e := thermEvent { e with pwr := { e.pwr with stale := e.pwr.stale || !e.pwr.otherCode } } 2
    if e.pwr.forced then e else trip e

/-- A thermal parameter by its place in the THERMAL record, as re-fitted (R554). -/
def thermParam (e : Engine) (i : Nat) : Word := elemD e.pwr.thermal.params i 0

/-- Δt = 100 µs in F32. -/
def loopDt : Word := fOfQuot 1 10000

/-- One first-order stage (R552). -/
def thermStage (p r tau dT : Word) : Word := fAdd dT (fDiv (fMul (fSub (fMul p r) dT) loopDt) tau)

/-- The larger of two F32 values. -/
def fMax (a b : Word) : Word := if fLt a b then b else a
/-- The smaller of two F32 values. -/
def fMin (a b : Word) : Word := if fLt b a then b else a

/-- Ceiling of an F32 value clamped to 0..56; 0 for a NaN. -/
def ceilDuty (w : Word) : Nat :=
  match f32Val w with
  | .nan => 0
  | .inf neg => if neg then 0 else 56
  | .fin neg m e => if neg then 0 else
    let (a, b) := scale2 m 1 e
    min 56 (ceilDiv a b)

/-- An estimator value, in units of 1/16 W, as an F32 number of watts. -/
def watts (n : Nat) : Word := fOfQuot n 16

/-- A processor that leaves WFI before entry has started clears TARGET (R558). -/
def leaveWfi (e : Engine) : Engine :=
  if e.pwr.pstate == .active then { e with pwr := { e.pwr with target := 0 } } else e

/-- 1 - exp(-TAU_DIE / TAU_DIE) of R552, an F32 constant: the exponent is -1 whatever TAU_DIE is. -/
def expFactor : Word := 0x3F21D2A7

/-- The loop runs: RUN ACTIVE or ORPHANED, with FP0 up and out of WFI, its writes reaching the hub (R552, R553). -/
def loopRuns (e : Engine) : Bool :=
  procUp e 0 && hubClock e && ((e.boot.state == .run && e.pwr.pstate == .active) || e.boot.state == .orphaned)

/-- THERMAL_LOOP_TICK (R552). F32 arithmetic with RN after each operation, left to right (assumptions/11). THROTTLED is set where
the period that ends had DUTY above 0 (DESIGN CHOICE, assumptions/151). -/
def thermalTick (e : Engine) : Engine :=
  if !loopRuns e then e
  else
    let th := e.pwr.thermal
    let n := th.powers.length
    let p := if n = 0 then watts e.pwr.power else fOfQuot (sumNat th.powers) (16 * n)
    let d := watts e.pwr.demand
    let dt := watts e.pwr.demandT
    let die := thermStage p (thermParam e 1) (thermParam e 2) th.die
    let plate := thermStage p (thermParam e 3) (thermParam e 4) th.plate
    let cool := thermStage p (thermParam e 5) (thermParam e 6) th.cool
    let tc := thermParam e 9
    let tModel := fAdd (fAdd (fAdd tc die) plate) cool
    let tAhead := fAdd tModel (fMul (fSub (fMul d (thermParam e 1)) die) expFactor)
    let tTop := match hottest e with
      | some t => fMax (fDivNat (fOfInt t) 16) tAhead
      | none => tAhead
    let err := fSub (thermParam e 0) tTop
    let wind := (e.pwr.duty == 0 && fLt 0 err) || (e.pwr.duty == 56 && fLt err 0)
    let integ := if wind then th.integ else fAdd th.integ (fMul err loopDt)
    let pff := fDiv (fSub (fSub (fSub (thermParam e 0) tc) plate) cool) (thermParam e 1)
    let allow := fMin (fOfQuot (limitNow e) 1) (fAdd (fAdd pff (fMul (thermParam e 7) err)) (fMul (thermParam e 8) integ))
    let duty := if e.pwr.demandT = 0 then 0 else ceilDuty (fDiv (fMul (fOfQuot 64 1) (fSub d allow)) dt)
    let throttled := decide (0 < dutyNow e)
    let th' := { th with die := die, plate := plate, cool := cool, integ := integ, powers := [] }
    let e := leaveWfi (fwMark { e with pwr := { e.pwr with duty := duty, thermal := th' } } .pwrThrottle)
    if throttled then thermEvent e 3 else e

/-- R553: on a return to ACTIVE the integrator and the period's mean clear and the stages split the rise above T_COOLANT by their resistances.
With no valid sensor the spec states no stage value: free values. -/
def thermalReturn (e : Engine) : Engine :=
  match hottest e with
  | none =>
    let (i, e) := drawFree e
    let (j, e) := drawFree e
    let (k, e) := drawFree e
    let th' := { e.pwr.thermal with
      integ := 0, die := Config.freeWord i, plate := Config.freeWord j, cool := Config.freeWord k, powers := [] }
    { e with pwr := { e.pwr with thermal := th' } }
  | some t =>
    let rise := fSub (fDivNat (fOfInt t) 16) (thermParam e 9)
    let sum := fAdd (fAdd (thermParam e 1) (thermParam e 3)) (thermParam e 5)
    let share r := fDiv (fMul rise r) sum
    let th' := { e.pwr.thermal with
      integ := 0, die := share (thermParam e 1), plate := share (thermParam e 3), cool := share (thermParam e 5), powers := [] }
    { e with pwr := { e.pwr with thermal := th' } }

/-- A re-fitted value kept between 0.5 and 2 times its starting value (R554). -/
def fitBound (start v : Word) : Word :=
  let lo := fMul start (fOfQuot 1 2)
  let hi := fMul start (fOfQuot 2 1)
  if fNan v then start else if fLt v lo then lo else if fLt hi v then hi else v

/-- One parameter re-fitted: a free value within its bounds. -/
def refitOne (e : Engine) (i : Nat) : Engine :=
  let (n, e) := drawFree e
  let ps := updAt e.pwr.thermal.params i fun _ => fitBound (elemD e.boot.cfg.thermal i 0) (Config.freeFit n)
  { e with pwr := { e.pwr with thermal := { e.pwr.thermal with params := ps } } }

/-- THERMAL_REFIT (R554): die and plate every 10 ms, coolant every 10 s. -/
def thermalRefit (e : Engine) (slow : Bool) : Engine :=
  if !loopRuns e then e
  else leaveWfi ((if slow then [5, 6, 9] else [1, 2, 3, 4]).foldl refitOne e)

/-- POWER_ESTIMATE: the estimator's three outputs (text before R551); free values, DEMAND_T no more than DEMAND. -/
def powerEstimate (e : Engine) : Engine :=
  if !(islandRuns e 50) then e
  else
    let (n, e) := drawFree e
    let p := Config.freePower n % 65536
    let d := Config.freeDemand n % 65536
    let th := { e.pwr.thermal with powers := e.pwr.thermal.powers ++ [p] }
    { e with pwr := { e.pwr with power := p, demand := d, demandT := min d (Config.freeDemandT n % 65536), thermal := th } }

def execRailCoreDrop (s : State) : Host.Outcome State Fault Refusal := .next (onEngine s railDrop)
def execRailCoreRecover (s : State) : Host.Outcome State Fault Refusal := .next (onEngine s railRecover)
def execDroopHoldExpiry (c : CombId) (s : State) : Host.Outcome State Fault Refusal :=
  .next (onEngine s fun e => holdExpiry e c)
def execVoltageRequest (src : WriteSrc) (s : State) : Host.Outcome State Fault Refusal :=
  .next (bySource s src .pwrVid fun v e => voltageRequest e v.toNat)
def execFrequencyRequest (src : WriteSrc) (s : State) : Host.Outcome State Fault Refusal :=
  .next (bySource s src .clkCombFreq fun v e => frequencyRequest e v.toNat)
def execHeldRequestApply (s : State) : Host.Outcome State Fault Refusal := .next (onEngine s heldApply)
def execFreqChangeComplete (s : State) : Host.Outcome State Fault Refusal := .next (onEngine s freqComplete)
def execSensorCode (i : SensorId) (code : BitVec 12) (s : State) : Host.Outcome State Fault Refusal :=
  .next (onEngine s fun e => sensorCode e i code)
def execSensorTimeout (i : SensorId) (s : State) : Host.Outcome State Fault Refusal :=
  .next (onEngine s fun e => sensorTimeout e i)
def execStaleTrip (s : State) : Host.Outcome State Fault Refusal := .next (onEngine s staleTrip)
def execThermalLoopTick (s : State) : Host.Outcome State Fault Refusal := .next (onEngine s thermalTick)
def execThermalRefit (slow : Bool) (s : State) : Host.Outcome State Fault Refusal :=
  .next (onEngine s fun e => thermalRefit e slow)
def execPowerEstimate (s : State) : Host.Outcome State Fault Refusal := .next (onEngine s powerEstimate)

end Sys2Proof.Machine
end

