-- ==== Sys2Proof/Machine/LogRing.lean ====
section
/-! DEFINITION. Machine/LogRing.lean: log records from the hub to the memory ring (R520 to R527). -/

namespace Sys2Proof.Machine

/-- A record reaches the hub (R522, R524): it takes the next SEQ and enters the shadow, or is lost when that is full. -/
def hubRecord (e : Engine) (r : LogRec) : Engine :=
  let r := { r with seq := e.log.seq }
  let e := { e with log := { e.log with seq := e.log.seq + 1 } }
  if e.log.shadow.length < Config.logShadow then { e with log := { e.log with shadow := e.log.shadow ++ [r] } }
  else bump e .logLost 1

/-- The record of a trace point outside the mandatory events (R520, R523). -/
def traceRecord (e : Engine) (t : TraceRec) : LogRec :=
  { seq := 0, cycle := islandCycles e t.island.val, traceId := t.traceId, island := BitVec.ofNat 8 t.island.val,
    flags := t.flags &&& 0x07, context := w32 (runningGid e), payload := takeBytes t.payload 0 40 }

/-- The records in flight of one island reach the hub, oldest first. -/
def islandArrives (e : Engine) (i : Byte) : Engine :=
  let mine := e.log.inflight.filter fun x => x.island == i
  mine.foldl hubRecord { e with log := { e.log with inflight := e.log.inflight.filter fun x => x.island != i } }

/-- LOG_RECORD_ARRIVE: the oldest record in flight, or one that another enabled trace point generates; an island's records arrive in the
order of their CYCLE values (text after R522). -/
def logArrive (e : Engine) (r : Option TraceRec) : Engine :=
  if !hubClock e || !e.boot.hubLocked then e
  else match r with
  | none =>
    match e.log.inflight with
    | [] => e
    | x :: xs => hubRecord { e with log := { e.log with inflight := xs } } x
  | some t =>
    let g := t.traceId.toNat / 256
    if 1 ≤ g ∧ g < 0x80 ∧ traceEnabled e t.traceId.toNat then
      hubRecord (islandArrives e (BitVec.ofNat 8 t.island.val)) (traceRecord e t)
    else e

/-- A record's 64 bytes (Table 16-5). -/
def recordBytes (r : LogRec) : List Byte :=
  leBytes 8 r.seq.toNat ++ leBytes 8 r.cycle.toNat ++ leBytes 2 r.traceId.toNat ++ [r.island, r.flags] ++
    leBytes 4 r.context.toNat ++ takeBytes r.payload 0 40

/-- Slots of the memory ring; none for a size that keeps every record in the shadow (LOG_SIZE). -/
def ringSize (e : Engine) : Option Nat := if 8 ≤ e.log.log2 ∧ e.log.log2 ≤ 24 then some (2 ^ e.log.log2) else none

/-- The oldest shadow record fits in the memory ring (R525). -/
def logRoom (e : Engine) : Bool :=
  bit (rwVal e .logCtrl) 0 && !e.log.shadow.isEmpty &&
  match ringSize e with
  | some n => (e.log.head + 1) % n != rwVal e .logTail % n
  | none => false

/-- FP3 writes the oldest shadow record into the memory ring (R525). -/
def logMove1 (e : Engine) : Engine :=
  match e.log.shadow with
  | r :: _ =>
    let e := leaveWfi (sendAll e .log (e.log.base + 64 * e.log.head) (recordBytes r) false)
    { e with log := { e.log with moving := true } }
  | [] => e

/-- FP3 can write a record: no write of one is outstanding, and the boundary outputs are not held (R562). -/
def logFree (e : Engine) : Bool := procUp e 3 && logRoom e && !e.log.moving && hubAlive e

/-- LOG_MOVE. -/
def logMove (e : Engine) : Engine := if logFree e then logMove1 e else e

/-- The words of a LOG_QUERY's reply after its status (Table 16-4). -/
def logWords (e : Engine) : List Word :=
  [w32 e.log.head, w32 e.log.shadow.length, w32 (ctrVal e .logLost)] ++ (List.range 4).map fun p => w32 (elemD e.fwp.totals p 0)

/-- FP3 goes on with a flush: the next record that fits is written, and once none is left LOG_QUERY is answered (R526). -/
def logFlush (e : Engine) : Engine :=
  if e.log.queries.isEmpty || !procUp e 3 || e.log.moving then e
  else if logRoom e then logMove e
  else e.log.queries.foldl (fun e q => reply e q 0 (logWords e)) { e with log := { e.log with queries := [] } }

/-- The write of the oldest shadow record has ended: completed, LOG_HEAD advances and the record leaves the shadow (R525); dropped, it
stays and is written again (assumptions/120). -/
def logWritten (e : Engine) (ok : Bool) : Engine :=
  if !e.log.moving then e
  else
    let l := { e.log with moving := false }
    logFlush { e with log := match ok, ringSize e with
      | true, some n => { l with shadow := l.shadow.tail, head := (l.head + 1) % n }
      | _, _ => l }

/-- LOG_ENABLE (R527): ENABLE from 0 to 1 takes base and size and zeroes LOG_HEAD and LOG_TAIL; a record whose write is outstanding stays
in the shadow. -/
def logEnable (e : Engine) (v : Nat) : Engine :=
  let was := bit (rwVal e .logCtrl) 0
  let e := setRw e .logCtrl v
  if !was && bit v 0 then
    let e := setRw e .logTail 0
    let free (w : WriteReq) : WriteReq := if w.who == .log then { w with who := .firmware } else w
    let e := { e with mp := { e.mp with writes := e.mp.writes.map free } }
    { e with log := { e.log with moving := false, head := 0, base := rwVal e .logBaseLo + rwVal e .logBaseHi * 2 ^ 32, log2 := rwVal e .logSize } }
  else e

def execLogRecordArrive (r : Option TraceRec) (s : State) : Host.Outcome State Fault Refusal :=
  .next (onEngine s fun e => logArrive e r)
def execLogMove (s : State) : Host.Outcome State Fault Refusal := .next (onEngine s logMove)
def execLogEnable (src : WriteSrc) (s : State) : Host.Outcome State Fault Refusal :=
  .next (bySource s src .logCtrl fun v e => logEnable e v.toNat)

end Sys2Proof.Machine
end

