-- ==== Sys2Proof/Machine/Array.lean ====
section
/-! DEFINITION. Machine/Array.lean: the frame array: cells, skew, accumulation, check cells (R83 to R91, R118, R129, R131,
R169, R409, R410), row read-out (R97 to R99) and the check identities (R408, R411). -/

namespace Sys2Proof.Machine

/-- A cell of the 65 × 65 array; an absent one holds zeros. -/
def cellAt (cs : List (List Cell)) (i j : Nat) : Cell := elemD (elemD cs i []) j {}

/-- An accumulator of a cell. -/
def accOf (c : Cell) (b : Bool) : Acc := if b then c.b else c.a

/-- A cell with an accumulator replaced. -/
def setAcc (c : Cell) (b : Bool) (a : Acc) : Cell := if b then { c with b := a } else { c with a := a }

/-- A working cell's add (R85, R169): modulo 2^24 with the sticky overflow flag, and the correction element modulo 2^29. -/
def accAdd (a : Acc) (prod corr : Int) : Acc :=
  let s := a.val.toInt + prod
  { val := BitVec.ofInt 24 s, ovf := a.ovf || decide (s < -(2 ^ 23 : Int) ∨ (2 ^ 23 : Int) ≤ s), corr := a.corr + BitVec.ofInt 29 corr }

/-- A check cell's add (R86, R410): modulo 2^24, with no overflow flag. -/
def checkAdd (a : Acc) (prod corr : Int) : Acc :=
  { a with val := a.val + BitVec.ofInt 24 prod, corr := a.corr + BitVec.ofInt 29 corr }

/-- Element p of a lane's group, or of its correction elements. -/
def lane (l : List Int) (p : Nat) : Int := elemD l p 0

/-- Product and correction of a working cell in one step (R83, R118, R128, R129, R169). -/
def cellOp (st : StepIn) (i j : Nat) : Int × Int :=
  match st.rows[i]?, st.cols[j]? with
  | some (.code x y), some (.code u v) => (x * u + y * v, 0)
  | some (.slot occ p q), some (.group e k) => (q * lane e p, if occ then lane k p else 0)
  | some (.code x _), some (.group e _) =>
    match elemD (elemD st.owner i []) j none with
    | some p => (x * lane e p, 0)
    | none => (0, 0)
  | _, _ => (0, 0)

/-- Sum of a column feeder's first and second codes. -/
def colSum (st : StepIn) : Int × Int :=
  st.cols.foldl (fun a c => match c with | .code u v => (a.1 + u, a.2 + v) | .group _ _ => a) (0, 0)

/-- Sum of a row feeder's first and second codes. -/
def rowSumIn (st : StepIn) : Int × Int :=
  st.rows.foldl (fun a r => match r with | .code x y => (a.1 + x, a.2 + y) | .slot _ _ _ => a) (0, 0)

/-- Bin sum of element p over the lanes: the codes (B) and the correction elements (B′), Table 05-3 and R410. -/
def binB (st : StepIn) (p : Nat) : Int × Int :=
  st.cols.foldl (fun a c => match c with | .group e k => (a.1 + lane e p, a.2 + lane k p) | .code _ _ => a) (0, 0)

/-- Bin of position code p over the rows: the weight codes (A) and the occupied slots (O), Table 05-3 and R410. -/
def binA (st : StepIn) (p : Nat) : Int × Int :=
  st.rows.foldl (fun a r => match r with
    | .slot occ q w => if q = p then (a.1 + w, a.2 + b2n occ) else a
    | .code _ _ => a) (0, 0)

/-- Whether a step is of the sparse forward or input-gradient kind. -/
def slotStep (st : StepIn) : Bool := st.rows.any fun r => match r with | .slot _ _ _ => true | .code _ _ => false

/-- Check-column cell (i, 64): product and correction. -/
def colCheckOp (st : StepIn) (i : Nat) : Int × Int :=
  match st.rows[i]? with
  | some (.slot occ p q) => let b := binB st p; (q * b.1, if occ then b.2 else 0)
  | some (.code x y) =>
    if st.sampled then
      (x * sumInt ((List.range 64).map fun j =>
        match elemD (elemD st.owner i []) j none, st.cols[j]? with
        | some p, some (.group e _) => lane e p
        | _, _ => 0), 0)
    else let s := colSum st; (x * s.1 + y * s.2, 0)
  | none => (0, 0)

/-- Check-row cell (64, j): product and correction. -/
def rowCheckOp (st : StepIn) (j : Nat) : Int × Int :=
  match st.cols[j]? with
  | some (.code u v) => let s := rowSumIn st; (s.1 * u + s.2 * v, 0)
  | some (.group e k) =>
    if st.sampled then
      (sumInt ((List.range 8).map fun p => lane e p * sumInt ((List.range 64).map fun i =>
        match elemD (elemD st.owner i []) j none, st.rows[i]? with
        | some q, some (.code x _) => if q = p then x else 0
        | _, _ => 0)), 0)
    else
      (sumInt ((List.range 8).map fun p => (binA st p).1 * lane e p), sumInt ((List.range 8).map fun p => (binA st p).2 * lane k p))
  | none => (0, 0)

/-- The corner cell: product and correction; 0 in the sampled product. -/
def cornerOp (st : StepIn) : Int × Int :=
  if st.sampled then (0, 0)
  else if slotStep st then
    (sumInt ((List.range 8).map fun p => (binA st p).1 * (binB st p).1), sumInt ((List.range 8).map fun p => (binA st p).2 * (binB st p).2))
  else
    let r := rowSumIn st
    let c := colSum st
    (r.1 * c.1 + r.2 * c.2, 0)

/-- What cell (i, j) adds in the cycle in which a step reaches it; check cells have i or j 64. -/
def cellStep (st : StepIn) (i j : Nat) (c : Cell) : Cell :=
  let a := accOf c st.accB
  setAcc c st.accB (
    if i < 64 ∧ j < 64 then let o := cellOp st i j; accAdd a o.1 o.2
    else if i < 64 then let o := colCheckOp st i; checkAdd a o.1 o.2
    else if j < 64 then let o := rowCheckOp st j; checkAdd a o.1 o.2
    else let o := cornerOp st; checkAdd a o.1 o.2)

/-- Every cell takes the step that has reached it (R87): `pipe` holds the steps by the number of cycles since they entered. -/
def accumulate (pipe : List (Option StepIn)) (cs : List (List Cell)) : List (List Cell) :=
  (List.range 65).map fun i => (List.range 65).map fun j =>
    match elemD pipe (i + j) none with
    | some st => cellStep st i j (cellAt cs i j)
    | none => cellAt cs i j

/-- The skew after one cycle in which operands move; `inp` enters at cell (0, 0). -/
def shift (pipe : List (Option StepIn)) (inp : Option StepIn) : List (Option StepIn) := (inp :: pipe).take 129

/-- At least one working cell takes a non-null step (FRM_ACTIVE_CYCLES). -/
def anyStep (pipe : List (Option StepIn)) : Bool := (pipe.take 127).any Option.isSome

/-- The skew is empty. -/
def skewEmpty (pipe : List (Option StepIn)) : Bool := pipe.all Option.isNone

/-- The cells that read-out line r reads: row r, or column r (R97). -/
def lineCells (dirCols : Bool) (r : Nat) : List (Nat × Nat) :=
  (List.range 64).map fun x => if dirCols then (x, r) else (r, x)

/-- Cells with one accumulator cleared (R98). -/
def clearCells (b : Bool) (at_ : List (Nat × Nat)) (cs : List (List Cell)) : List (List Cell) :=
  at_.foldl (fun cs p => updAt cs p.1 fun row => updAt row p.2 fun c => setAcc c b {}) cs

/-- Read-out line r of an accumulator with its two check cells, and the array with them cleared (R97, R98). -/
def readLine (dirCols b : Bool) (r : Nat) (cs : List (List Cell)) : ReadLine × List (List Cell) :=
  let at_ := lineCells dirCols r
  let as := at_.map fun p => accOf (cellAt cs p.1 p.2) b
  let cc := accOf (cellAt cs r 64) b
  let cr := accOf (cellAt cs 64 r) b
  ({ vals := as.map Acc.val, ovf := as.any Acc.ovf, corr := as.map Acc.corr, colCheck := (cc.val, cc.corr), rowCheck := (cr.val, cr.corr) },
   clearCells b (at_ ++ [(r, 64), (64, r)]) cs)

/-- The corner, read with line 63, and the array with it cleared. -/
def readCorner (b : Bool) (cs : List (List Cell)) : (BitVec 24 × BitVec 29) × List (List Cell) :=
  let a := accOf (cellAt cs 64 64) b
  ((a.val, a.corr), clearCells b [(64, 64)] cs)

/-- The check values of an attempt as read out: matrix, check column, check row, corner; once for the accumulators and once
for the correction sums. -/
structure CheckSet where
  acc : List (List Int)
  cc : List Int
  cr : List Int
  x : Int

/-- The accumulators' check set, by frame row. -/
def accSet (dirCols : Bool) (ls : List ReadLine) : CheckSet :=
  let m := ls.map fun l => l.vals.map fun v => (v.toNat : Int)
  { acc := if dirCols then transpose 64 0 m else m, cc := ls.map fun l => l.colCheck.1.toNat
    cr := ls.map fun l => l.rowCheck.1.toNat, x := ((ls.getLast?).map fun l => (l.corner.1.toNat : Int)).getD 0 }

/-- The correction sums' check set, by frame row. -/
def corrSet (dirCols : Bool) (ls : List ReadLine) : CheckSet :=
  let m := ls.map fun l => l.corr.map fun v => (v.toNat : Int)
  { acc := if dirCols then transpose 64 0 m else m, cc := ls.map fun l => l.colCheck.2.toNat
    cr := ls.map fun l => l.rowCheck.2.toNat, x := ((ls.getLast?).map fun l => (l.corner.2.toNat : Int)).getD 0 }

/-- Which rows and columns disagree, and whether the corner tests over the check column and the check row fail (R408). -/
structure CheckFail where
  rows : List Nat := []
  cols : List Nat := []
  cornerC : Bool := false
  cornerR : Bool := false
  deriving DecidableEq, Repr, Inhabited

/-- R408 over one check set, modulo 2^w; the sampled product has no corner tests. -/
def checkFails (w : Nat) (sampled : Bool) (s : CheckSet) : CheckFail :=
  let m : Int := 2 ^ w
  let ne (a b : Int) : Bool := decide ((a - b) % m ≠ 0)
  let t := transpose 64 0 s.acc
  { rows := (List.range 64).filter fun i => ne (sumInt (elemD s.acc i [])) (elemD s.cc i 0)
    cols := (List.range 64).filter fun j => ne (sumInt (elemD t j [])) (elemD s.cr j 0)
    cornerC := !sampled && ne (sumInt s.cc) s.x, cornerR := !sampled && ne (sumInt s.cr) s.x }

/-- Two sets' failures taken together. -/
def CheckFail.join (a b : CheckFail) : CheckFail :=
  { rows := (List.range 64).filter (fun i => i ∈ a.rows || i ∈ b.rows), cols := (List.range 64).filter (fun i => i ∈ a.cols || i ∈ b.cols)
    cornerC := a.cornerC || b.cornerC, cornerR := a.cornerR || b.cornerR }

/-- No identity fails. -/
def CheckFail.ok (f : CheckFail) : Bool := f.rows.isEmpty && f.cols.isEmpty && !f.cornerC && !f.cornerR

/-- Where R411 locates a mismatch. -/
def CheckFail.locate (sampled : Bool) (f : CheckFail) : Nat × Nat :=
  match f.rows, f.cols with
  | [i], [j] => if sampled || (!f.cornerC && !f.cornerR) then (i, j) else (127, 127)
  | [i], [] => if sampled || f.cornerC then (i, 64) else (127, 127)
  | [], [j] => if sampled || f.cornerR then (64, j) else (127, 127)
  | _, _ => (127, 127)

end Sys2Proof.Machine
end

