-- ==== Sys2Proof/Machine/Desc.lean ====
section
/-! DEFINITION. Machine/Desc.lean: the records that the engine reads from memory, field by field: stream descriptors
(R244 to R247), the graph header and its tables (R199, R235, R295, R296, R319), task records (R297, R298), the update
argument (R330), bucket records and group descriptors (R377, R380). -/

namespace Sys2Proof.Machine

/-- Address bits above 52 are 0 (R416: 52-bit device virtual addresses). -/
def addrOk (a : Nat) : Bool := decide (a < 2 ^ 52)

/-- Every byte of a range of a record is 0. -/
def zeroBytes (bs : List Byte) (o n : Nat) : Bool := (takeBytes bs o n).all (· == 0)

/-! ### Stream descriptors -/

/-- Format codes of Table 08-2. -/
def fF16 : Nat := 0
def fBF16 : Nat := 1
def fF32 : Nat := 2
def fW4 : Nat := 3
def fW8 : Nat := 4
def fU32 : Nat := 5
def fBIT : Nat := 6
def fBYTE : Nat := 7

/-- Layout codes of Table 03-1. -/
def lLINEAR : Nat := 0
def lCV32 : Nat := 1
def lCV32T : Nat := 2
def lWROW : Nat := 3
def lZMAP : Nat := 4

/-- Element size in bits (Table 08-2, R245). -/
def elemBits (fmt : Nat) : Nat :=
  if fmt = fF16 ∨ fmt = fBF16 then 16
  else if fmt = fF32 ∨ fmt = fU32 then 32
  else if fmt = fW4 then 4
  else if fmt = fBIT then 1
  else 8

/-- A descriptor from its 64 bytes (Table 08-1). -/
def parseDesc (bs : List Byte) : Desc :=
  let f o n := field bs o n
  let fmt := f 44 1
  let ring := f 45 1
  let cr := f 46 1
  let ctl := f 47 1
  { base := f 0 8 % 2 ^ 52
    sizes := [f 8 4, f 12 4, f 16 4, f 20 4, f 24 4]
    strides := [0, f 28 4, f 32 4, f 36 4, f 40 4]
    format := bits fmt 0 4
    layout := bits fmt 4 3
    dir := bit fmt 7
    ring := bits ring 0 5
    credits := bits cr 0 4
    deadline := bits ctl 0 2
    persist := bit ctl 2
    indexEn := bit ctl 3
    indexMode := bit ctl 4
    indexDim := bits ctl 5 3
    indexRef := f 48 8
    fill := w32 (f 56 4)
    share := BitVec.ofNat 8 (f 60 1)
    badReserved := !(addrOk (f 0 8) && bits ring 5 3 == 0 && bits cr 4 4 == 0 && zeroBytes bs 61 3) }

/-- Size of dimension d. -/
def dSize (d : Desc) (i : Nat) : Nat := elemD d.sizes i 1
/-- Stride of dimension d in bytes. -/
def dStride (d : Desc) (i : Nat) : Nat := 8 * elemD d.strides i 0

/-- FORMAT suits LAYOUT (R247). -/
def formatSuits (d : Desc) : Bool :=
  if d.layout = lCV32 ∨ d.layout = lCV32T then decide (d.format ≤ fF32)
  else if d.layout = lWROW then d.format == fW4 || d.format == fW8
  else if d.layout = lZMAP then d.format == fBIT
  else d.layout == lLINEAR && decide (d.format ≤ fBYTE) && d.format != fBIT

/-- The packed pitch of a CV32 or CV32T descriptor (R53, R54). -/
def packedPitch (d : Desc) : Nat := ceilDiv (dSize d 0) 32 * 32 * (elemBits d.format / 8)

/-- The pitch keeps R55. -/
def pitchOk (d : Desc) : Bool :=
  if d.layout = lCV32 ∨ d.layout = lCV32T then
    let p := dStride d 1
    decide (p = packedPitch d) || (decide (packedPitch d < p) && p % 64 == 0)
  else true

/-- RING names a reserved binding (Table 08-4). -/
def ringReserved (r : Nat) : Bool := decide (12 ≤ r ∧ r ≤ 15) || decide (24 ≤ r ∧ r ≤ 30)

/-- An index descriptor keeps R247: LINEAR U32, no ring, no index of its own. -/
def indexDescOk (d : Desc) : Bool :=
  !d.badReserved && d.layout == lLINEAR && d.format == fU32 && !d.indexEn && !d.dir && d.ring == 0 && d.credits == 0 &&
  d.share == 0 && !d.persist

/-- A descriptor is valid (R247); `idx` is the descriptor that INDEX_REF names. An INDEX_REF beyond the 52 address bits is not (DESIGN CHOICE,
assumptions/142). -/
def descOk (d : Desc) (idx : Desc) : Bool :=
  !d.badReserved && formatSuits d && !ringReserved d.ring && (d.dir == (d.ring == 31)) &&
  (if d.dir then d.credits == 0 else decide (3 ≤ d.credits ∧ d.credits ≤ 8)) &&
  (!d.indexEn || (d.indexRef != 0 && d.indexRef % 64 == 0 && addrOk d.indexRef && indexDescOk idx && decide (d.indexDim ≤ 4) &&
    !(d.indexMode && d.indexDim == 0))) &&
  pitchOk d

/-- The descriptor of an entry of a batch (R249), read through a 1 KiB image of the batch. -/
def batchDesc (batch : List Byte) (entry : Nat) : Desc := parseDesc (takeBytes batch (64 * (entry % 16)) 64)

/-! ### Graph header and tables -/

/-- The graph header (Table 09-1). -/
def parseHeader (bs : List Byte) : GraphHdr :=
  let f o n := field bs o n
  let s := f 5 1
  { interleaved := bit s 0, vMinus2 := bits s 1 2, arrival := bit s 3, freeSplit := bit s 4, stages := f 6 1
    mbWindow := f 7 1, tasks := f 8 4, actDepth := f 12 1, firstMb := f 13 1, broodEntries := f 14 2
    versionEntries := f 16 2, carouselEntries := f 18 2, shardBytes := f 20 4, taskBase := f 24 8, edgeBase := f 32 8
    broodMap := f 40 8, versionTable := f 48 8, carouselTable := f 56 8, layerTable := f 64 8, completionBase := f 72 8
    genTable := f 80 8 }

/-- The header is valid but for the carousel image's length (R295). -/
def headerOk (bs : List Byte) (h : GraphHdr) : Bool :=
  let al a n := addrOk a && a % n == 0
  field bs 0 4 == 0x57324752 && field bs 4 1 == 1 && bits (field bs 5 1) 5 3 == 0 &&
  (if h.interleaved then decide (h.vMinus2 ≤ 2) else h.vMinus2 == 0) && decide (1 ≤ h.stages ∧ h.stages ≤ 64) &&
  decide (1 ≤ h.mbWindow ∧ h.mbWindow ≤ 64) && decide (1 ≤ h.tasks ∧ h.tasks ≤ 2 ^ 20) && decide (h.actDepth < 16) &&
  decide (h.firstMb < 64) && decide (h.broodEntries ≤ 16384) && decide (h.versionEntries ≤ 4096) &&
  decide (h.carouselEntries ≤ 64) && (h.carouselEntries != 0 || h.shardBytes == 0) && al h.taskBase 128 &&
  al h.edgeBase 4 && al h.broodMap 32 && al h.versionTable 64 && al h.carouselTable 16 && al h.layerTable 16 &&
  al h.completionBase 8 && al h.genTable 64 && zeroBytes bs 88 40

/-- Virtual stages v under INTERLEAVED, 1 under 1F1B. -/
def vStages (h : GraphHdr) : Nat := if h.interleaved then h.vMinus2 + 2 else 1

/-- A brood map entry (Table 07-1), not placed. -/
def parseRegion (bs : List Byte) : Region :=
  let f o n := field bs o n
  { handle := f 0 3, frozen := bit (f 3 1) 0, spill := bit (f 3 1) 1, scratch := bit (f 3 1) 2, home := f 4 1
    layout := f 5 1, bucket := f 6 2, elements := f 8 4, rowLen := f 12 4, accAddr := f 16 8, rowStart := f 24 8 }

/-- An entry is valid but for a repeated handle (R199). -/
def regionOk (bs : List Byte) (r : Region) : Bool :=
  r.handle != 0 && decide (field bs 3 1 < 8) && decide (r.layout ≤ 3) && r.elements != 0 && r.accAddr % 64 == 0 &&
  addrOk r.accAddr && addrOk r.rowStart

/-- A version table entry (Table 07-4). -/
def parseVer (bs : List Byte) : VerEntry :=
  let f o n := field bs o n
  { handle := f 0 3, slots := f 3 1, current := f 4 1, w8 := bit (f 5 1) 0
    codes := [f 16 8, f 32 8, f 48 8], factors := [f 24 8, f 40 8, f 56 8] }

/-- An entry is valid but for a repeated handle (R235). -/
def verOk (bs : List Byte) (v : VerEntry) : Bool :=
  v.handle != 0 && decide (1 ≤ v.slots ∧ v.slots ≤ 3) && decide (v.current < v.slots) && decide (field bs 5 1 < 2) &&
  zeroBytes bs 6 10 &&
  (List.range 3).all fun i =>
    let c := elemD v.codes i 0
    let g := elemD v.factors i 0
    if i < v.slots then c != 0 && c % 8 == 0 && g % 64 == 0 else c == 0 && g == 0

/-- A carousel table entry: handle and length of its row records (text after Table 09-1). -/
def parseCarousel (bs : List Byte) : Nat × Nat := (field bs 0 3, field bs 4 4)
/-- Every other byte of a carousel table entry is 0. -/
def carouselOk (bs : List Byte) : Bool := zeroBytes bs 3 1 && zeroBytes bs 8 8

/-- The generation table (R319). -/
def parseGen (bs : List Byte) : Gen :=
  { tokenAddr := field bs 0 8, posAddr := field bs 8 8
    ctxs := (List.range 32).map fun x =>
      let o := 64 + 16 * x
      ⟨bit (field bs o 1) 0, field bs (o + 4) 4, field bs (o + 8) 4, field bs (o + 12) 4⟩ }

/-- Fields of a layer table entry (Table 09-2). -/
def layMask (l : List Byte) : Nat := field l 0 1
def layPolicy (l : List Byte) : Nat := field l 1 1
def layXform (l : List Byte) : Nat := field l 2 1
def layWidth (l : List Byte) : Nat := field l 3 1
def laySmooth (l : List Byte) : Nat := field l 8 8

/-- A layer table entry holds only values of Table 09-2 (R296). -/
def layerOk (l : List Byte) : Bool :=
  decide (layMask l ≤ 3) && decide (layPolicy l ≤ 2) && decide (layXform l ≤ 3) && decide (layWidth l ≤ 1) &&
  zeroBytes l 4 4 && (layXform l == 3 || laySmooth l == 0) && addrOk (laySmooth l)

/-! ### Task records -/

/-- Kinds of Table 09-4. -/
def kFWD : Nat := 0
def kDX : Nat := 1
def kDW : Nat := 2
def kDRAIN : Nat := 3
def kSELECT : Nat := 4
def kUPDATE : Nat := 5
def kMASK : Nat := 6
def kCKPT : Nat := 7
def kBUCKET : Nat := 8
def kLIGHT : Nat := 9
def kBARRIER : Nat := 10
def kGENLOOP : Nat := 11

/-- A task record (Table 09-3). `bad` is set by a reserved KIND, a reserved bit, or a field outside its range (R298). -/
def parseTask (h : GraphHdr) (bs : List Byte) : TaskRec :=
  let f o n := field bs o n
  let kind := f 0 1
  let c1 := f 1 1
  let mb := f 2 1
  let flags := f 16 4
  let epi := f 22 1
  let refs := takeBytes bs 48 8
  let arg := f 104 8
  let af := f 23 1
  let vst := bits c1 2 2
  let bad := decide (kGENLOOP < kind) || bits c1 4 4 != 0 || decide (vStages h ≤ vst) || decide (2 ^ 12 ≤ flags) ||
    bit (f 20 1) 7 || bit epi 7 || decide (3 < bits epi 4 3) || (af != 0xFF && decide (47 < af)) ||
    !(zeroBytes bs 31 1 && zeroBytes bs 35 1 && zeroBytes bs 39 1 && zeroBytes bs 60 4 && zeroBytes bs 112 16) ||
    refs.any (fun r => bits r.toNat 4 3 != 0) || !(addrOk (f 40 8) && f 40 8 % 1024 == 0) || !addrOk (f 80 8) ||
    !addrOk (f 88 8) || !addrOk (f 96 8) || (kind != kUPDATE && kind != kMASK && f 27 1 != 0) ||
    (bit flags 3 && kind != kUPDATE && kind != kMASK) ||
    ((kind == kFWD || kind == kDX || kind == kDW || kind == kSELECT || kind == kBARRIER) && arg != 0) ||
    (kind == kDRAIN && (decide (2 ^ 32 ≤ arg) || (bits epi 0 4 != 7 && arg != 0))) ||
    (decide (kUPDATE ≤ kind ∧ kind ≤ kLIGHT) && !addrOk arg) || (kind == kGENLOOP && decide (2 ^ 20 ≤ arg))
  { kind := kind, cls := bits c1 0 2, vstage := vst, mb := bits mb 0 6, mbValid := bit mb 6, mbClose := bit mb 7
    layer := f 3 1, step := f 4 4, predCount := f 8 2, succCount := f 10 2, succIndex := f 12 4
    flags := BitVec.ofNat 32 flags, ilen := bits (f 20 1) 0 7, ufLimit := f 21 1, epilogue := bits epi 0 4
    chain := bits epi 4 3, affinity := af, param := f 24 3, clampLimit := f 27 1, dst := f 28 3, aux0 := f 32 3
    aux1 := f 36 3, descBatch := f 40 8, drefs := refs, rowLen := f 56 4, outRows := f 64 4, outCols := f 68 4
    redLen := f 72 4, tileCount := f 76 4, tilemapBase := f 80 8, rearmBase := f 88 8, rearmIndex := f 96 8
    arg := BitVec.ofNat 64 arg, bad := bad }

/-- FLAGS bits of a task record. -/
def tKeep (t : TaskRec) : Bool := bit t.flags.toNat 0
def tLastUse (t : TaskRec) : Bool := bit t.flags.toNat 1
def tUnpin (t : TaskRec) : Bool := bit t.flags.toNat 2
def tPublish (t : TaskRec) : Bool := bit t.flags.toNat 3
def tRotate (t : TaskRec) : Bool := bit t.flags.toNat 4
def tMaskStep (t : TaskRec) : Bool := bit t.flags.toNat 5
def tScaleGrad (t : TaskRec) : Bool := bit t.flags.toNat 6
def tSr (t : TaskRec) : Bool := bit t.flags.toNat 7
def tWide (t : TaskRec) : Bool := bit t.flags.toNat 8
def tShard (t : TaskRec) : Bool := bit t.flags.toNat 9
def tRearm (t : TaskRec) : Bool := bit t.flags.toNat 10
def tRelease (t : TaskRec) : Bool := bit t.flags.toNat 11

/-- Descriptor references by their place in DREF. -/
def rROW : Nat := 0
def rCOL : Nat := 1
def rOUT : Nat := 2
def rZIN : Nat := 3
def rZOUT : Nat := 4
def rSIDE0 : Nat := 5
def rSIDE1 : Nat := 6
def rSIDE2 : Nat := 7

/-- The batch entry that a descriptor reference names, where it is valid. -/
def tRef (t : TaskRec) (i : Nat) : Option Nat :=
  let r := (elemD t.drefs i 0).toNat
  if bit r 7 then some (r % 16) else none

/-- A task of kind FWD, DX or DW. -/
def isProduct (t : TaskRec) : Bool := decide (t.kind ≤ kDW)
/-- A task executed by a comb. -/
def isCombTask (t : TaskRec) : Bool := decide (t.kind ≤ kSELECT)

/-! ### The update argument record -/

/-- The update argument record (Table 10-1). -/
def parseUpd (bs : List Byte) : UpdArg :=
  let f o n := field bs o n
  let g := f 1 1
  let fl := f 2 1
  { group := bits (f 0 1) 0 6, scaleGroup := bits g 0 6, scaleTrain := bit g 7, gradF32 := bit fl 0, scaleInit := bit fl 1
    linear := bit fl 2, rows := f 4 4, rowLen := f 8 4, k := f 12 4, master := f 16 8, m := f 24 8, v := f 32 8
    grad := f 40 8, sgrad := f 48 8, smom := f 56 8, freeze := f 64 8, rowStart := f 72 8, codePitch := f 80 4
    factorPitch := f 84 4, cand := f 88 8, prune := f 96 2 }

/-- The record keeps its ranges, reserved bits and alignment (R330). -/
def updOk (bs : List Byte) (mask : Bool) (u : UpdArg) : Bool :=
  let f o n := field bs o n
  decide (f 0 1 < 64) && !bit (f 1 1) 6 && decide (f 2 1 < 8) && zeroBytes bs 3 1 && decide (1 ≤ u.rows ∧ u.rows ≤ 2 ^ 24) &&
  decide (1 ≤ u.k ∧ u.k ≤ 2 ^ 24) && u.master % 64 == 0 && (u.scaleTrain || (u.sgrad == 0 && u.smom == 0)) &&
  (if u.linear then u.codePitch == 0 && u.factorPitch == 0
   else u.codePitch != 0 && u.codePitch % 8 == 0 && u.factorPitch != 0 && u.factorPitch % 64 == 0) &&
  (u.rowLen == 0 || u.rowStart == 0) && (mask || (u.cand == 0 && u.prune == 0)) && zeroBytes bs 98 30 &&
  [u.master, u.m, u.v, u.grad, u.sgrad, u.smom, u.freeze, u.rowStart, u.cand].all addrOk

/-! ### Bucket records and group descriptors -/

/-- A bucket record (Table 11-7); the task and its step are given. -/
def parseBucket (bs : List Byte) (task step : Nat) : Bucket :=
  let f o n := field bs o n
  let op := f 2 1
  { task := task, tag := f 0 2, broadcast := bit op 0, sign := bit op 1, resultF32 := bit op 2, tree := f 3 1
    entries := f 4 4, groupAddr := f 8 8, result := f 16 8, err := f 24 8, seq := f 32 2, stepBuckets := f 34 2
    regions := f 36 2, deadline := f 40 4, src := f 48 8, step := step }

/-- The record keeps its ranges and reserved bits (R380), but for R381. -/
def bucketOk (bs : List Byte) (b : Bucket) : Bool :=
  decide (field bs 2 1 < 8) && decide (b.tree < 8) && b.entries % 128 == 0 && decide (128 ≤ b.entries ∧ b.entries ≤ 2 ^ 25) &&
  b.result % 64 == 0 && b.err % 64 == 0 && (b.sign || b.err == 0) && decide (1 ≤ b.stepBuckets) &&
  decide (b.seq < b.stepBuckets) && zeroBytes bs 38 2 && zeroBytes bs 44 4 && zeroBytes bs 56 8 && (b.broadcast || b.src == 0) &&
  [b.groupAddr, b.result, b.err, b.src].all addrOk && b.groupAddr % 16 == 0

/-- Tree entry x of a group descriptor (Table 11-6). -/
def parseTree (bs : List Byte) (x : Nat) : Tree :=
  let o := 16 + 32 * x
  let par := field bs (o + 1) 1
  let mask := field bs (o + 4) 4
  { rank := field bs o 1
    parent := if h : par < 18 then some ⟨par, h⟩ else none
    children := allPorts.filterMap fun p => if bit mask p.val then some (p, field bs (o + 8 + p.val) 1) else none }

/-- The reserved bytes and bits of tree entry x are 0 (R377), whether or not the entry is in use. -/
def treeClean (bs : List Byte) (x : Nat) : Bool :=
  let o := 16 + 32 * x
  zeroBytes bs (o + 2) 2 && decide (field bs (o + 4) 4 < 2 ^ 18) && zeroBytes bs (o + 26) 6

/-- Tree entry x keeps its ranges (R377, assumptions/132), but for ports that are not UP. -/
def treeOk (bs : List Byte) (members x : Nat) : Bool :=
  let o := 16 + 32 * x
  let t := parseTree bs x
  let par := field bs (o + 1) 1
  let mask := field bs (o + 4) 4
  decide (t.rank < members) && (decide (par < 18) || par == 0xFF) &&
  (allPorts.all fun p => let r := field bs (o + 8 + p.val) 1; if bit mask p.val then decide (r < members) else r == 0)

/-- A group descriptor (Table 11-6). -/
def parseGroup (bs : List Byte) : Group :=
  { id := field bs 0 1, members := field bs 1 1, generation := field bs 4 4
    trees := (List.range (field bs 2 1)).map (parseTree bs) }

/-- The descriptor is valid but for ports that are not UP (R377). -/
def groupOk (bs : List Byte) (g : Group) : Bool :=
  decide (2 ≤ g.members ∧ g.members ≤ 255) && decide (1 ≤ field bs 2 1 ∧ field bs 2 1 ≤ 8) && zeroBytes bs 3 1 &&
  zeroBytes bs 8 8 && (List.range 8).all (treeClean bs) && (List.range (field bs 2 1)).all (treeOk bs g.members)

end Sys2Proof.Machine
end

