-- ==== Sys2Proof/Machine/Brood.lean ====
section
/-! DEFINITION. Machine/Brood.lean: brood regions (R198 to R220), the activation store (R221 to R226) and weight versions
(R235 to R242). -/

namespace Sys2Proof.Machine

/-! ### The running graph -/

/-- A change of the running graph. -/
def onGraph (e : Engine) (f : Graph → Graph) : Engine := { e with sch := { e.sch with run := e.sch.run.map f } }

/-- A resident task by index. -/
def taskOf (e : Engine) (i : Nat) : Option Task :=
  match e.sch.run with
  | none => none
  | some g => g.tasks.find? fun t => t.index == i

/-- A task of the graph changed, resident or completed. -/
def onTask (e : Engine) (i : Nat) (f : Task → Task) : Engine :=
  let mine (t : Task) : Bool := t.index == i
  onGraph e fun g => { g with tasks := updFirst mine f g.tasks, retired := updFirst mine f g.retired }

/-- A task's outputs count as poisoned (Table 09-5, assumptions/133). -/
def markOut (e : Engine) (task : Nat) : Engine := onTask e task fun t => { t with poisonOut := true }

/-- The layer table entry that a task's LAYER names. -/
def layerOf (e : Engine) (t : TaskRec) : List Byte :=
  match e.sch.run with
  | none => []
  | some g => elemD g.layers t.layer []

/-- N of an NM layer (R60), 0 for the others. -/
def nmOf (mask : Nat) : Nat := if mask = 1 then 2 else if mask = 2 then 4 else 0

/-! ### Regions -/

/-- The brood map entry of a handle. -/
def regionOf (e : Engine) (h : Nat) : Option Region :=
  match e.sch.run with
  | none => none
  | some g => g.regions.find? fun r => r.handle == h

/-- A region changed. -/
def onRegion (e : Engine) (h : Nat) (f : Region → Region) : Engine :=
  onGraph e fun g => { g with regions := updFirst (fun r => r.handle == h) f g.regions }

/-- 4 KiB blocks of a region (R201). -/
def regionBlocks (r : Region) : Nat := ceilDiv (4 * r.elements) 4096

/-- Resident regions of a comb (R201). -/
def residents (rs : List Region) (c : CombId) : Nat := countIf (fun r => r.place == .resident c) rs

/-- +0 over a spilled region's accumulator, its poison marks removed (R210, R215). -/
def zeroSpilled (e : Engine) (r : Region) : Engine := sendClear e (.cap noTask) r.accAddr (4 * r.elements)

/-- A region cleared to +0 without poison (R210, R212, R217). -/
def clearRegion (e : Engine) (r : Region) : Engine :=
  let e := onRegion e r.handle fun r => { r with elems := [], poison := [], touched := false, addedBy := [] }
  if r.place == .spilled then zeroSpilled e r else e

/-- A comb can hold a region: blocks and a directory entry free (R201, R202). -/
def roomFor (e : Engine) (rs : List Region) (r : Region) (c : CombId) : Bool :=
  decide (regionBlocks r ≤ (combOf e c).freeBlocks) && decide (residents rs c < Config.broodDirectory)

/-- A region of the running graph placed in a comb, or spilled and counted (R202, R217). -/
def placeAt (e : Engine) (r : Region) (c : Option CombId) : Engine :=
  match c with
  | some c =>
    let e := onComb e c fun cb => { cb with freeBlocks := cb.freeBlocks - regionBlocks r }
    onRegion e r.handle fun r => { r with place := .resident c }
  | none =>
    let e := bump (onRegion e r.handle fun r => { r with place := .spilled }) .broodSpilled 1
    zeroSpilled e r

/-- One entry placed at admission (R202 steps 2 and 3). -/
def placeRegion (e : Engine) (r : Region) : Engine :=
  match e.sch.run with
  | none => e
  | some g =>
    if r.frozen then e
    else
      let home := if r.spill then none else g.logical[r.home]?
      match home with
      | some c => placeAt e r (if roomFor e g.regions r c then some c else none)
      | none => placeAt e r none

/-- Every region placed at admission, after the merge reserve of R202 step 1. -/
def placeRegions (e : Engine) : Engine :=
  match e.sch.run with
  | none => e
  | some g =>
    let e := g.logical.foldl (fun e c => onComb e c fun cb =>
      { cb with freeBlocks := Config.broodBlocks - (if g.hdr.freeSplit then 16 else 0), mergeRsv := g.hdr.freeSplit }) e
    g.regions.foldl placeRegion e

/-- The brood buffers as no graph runs. -/
def freeBrood (e : Engine) : Engine :=
  mapCombs e fun cb => { cb with freeBlocks := Config.broodBlocks, mergeRsv := false }

/-- Out-of-bounds accesses clamp in RUN and ORPHANED and fill elsewhere (Table 03-6). -/
def clamps (e : Engine) : Bool := e.boot.state == .run || e.boot.state == .orphaned

/-- The element that an index names, clamped or dropped under R203, and whether it was in bounds. -/
def regionElem (e : Engine) (r : Region) (i : Nat) : Option Nat × Bool :=
  if i < r.elements then (some i, true) else (if clamps e then some (r.elements - 1) else none, false)

/-- An add of step s waits while the region holds another step's content (R209). -/
def addWaits (e : Engine) (h s : Nat) : Bool :=
  match regionOf e h with
  | some r => r.touched && decide (r.step < s)
  | none => false

/-- Whether a handle's region is spilled. -/
def spilled (e : Engine) (h : Nat) : Bool :=
  match regionOf e h with
  | some r => r.place == .spilled
  | none => false

/-- Poison of one element's line added to a region (R208). -/
def markRegion (r : Region) (i : Nat) (p : Bool) : Region := if p then { r with poison := insertNat (i / 16) r.poison } else r

/-- One element's add into a resident region (R205): the region, and whether the line is poisoned by it (R30, R208). -/
def addElem (r : Region) (i : Nat) (v : Word) (poison : Bool) : Region × Bool :=
  let s := fAdd (lookupD r.elems i 0) v
  (markRegion { r with elems := assign r.elems i s } i (poison || fBad s), poison || fBad s)

/-- One staging row added into a resident region by comb c's drain unit (R203, R205, R208): element and value pairs. -/
def addRow (e : Engine) (c : CombId) (h step task : Nat) (adds : List (Nat × Word)) (poison : Bool) : Engine :=
  match regionOf e h with
  | none => e
  | some r =>
    if r.frozen ∨ adds.isEmpty then e
    else
      let r0 := { r with touched := true, step := (if r.touched then r.step else step), addedBy := insertNat task r.addedBy }
      let (r', bad, clampN, dropN) := adds.foldl (fun (acc : Region × List Nat × Nat × Nat) a =>
        let (r, bad, cn, dn) := acc
        match regionElem e r a.1 with
        | (some i, inb) =>
          let (r, b) := addElem r i a.2 poison
          (r, (if b then insertNat (i / 16) bad else bad), (if inb then cn else cn + 1), dn)
        | (none, _) => (r, bad, cn, dn + 1)) (r0, [], 0, 0)
      let e := onRegion e h fun _ => r'
      let e := bumpComb (bumpComb (bumpComb e c .oobClamped clampN) c .oobFilled dropN) c .linesOut bad.length
      if bad.isEmpty then e else poisonEvent (markOut e task) c.val codeHalted

/-- A region's elements and line marks as a read-out or a drain-only task sees them. -/
def regionVals (m : Mem) (e : Engine) (r : Region) : List (Word × Bool) :=
  (List.range r.elements).map fun i =>
    if r.place == .spilled then
      (w32 (viewNat m e (r.accAddr + 4 * i) 4), viewPoison m e (lineOf (r.accAddr + 4 * i)))
    else (lookupD r.elems i 0, decide (i / 16 ∈ r.poison))

/-- One element of a region. -/
def regionVal (m : Mem) (e : Engine) (h i : Nat) : Word × Bool :=
  match regionOf e h with
  | none => (0, false)
  | some r =>
    if r.place == .spilled then
      (w32 (viewNat m e (r.accAddr + 4 * i) 4), viewPoison m e (lineOf (r.accAddr + 4 * i)))
    else (lookupD r.elems i 0, decide (i / 16 ∈ r.poison))

/-- Every region that step s or a later step added into is cleared, and so is every region already read out (R212). -/
def repeatClear (e : Engine) (s : Nat) : Engine :=
  match e.sch.run with
  | none => e
  | some g => g.regions.foldl (fun e r =>
      if r.frozen then e else if !r.touched || decide (s ≤ r.step) then clearRegion e r else e) e

/-- The combs after c in ascending index, wrapping, without c. -/
def combsAfter (c : CombId) : List CombId := allCombs.filter (c < ·) ++ allCombs.filter (· < c)

/-- A lost region of fenced comb c is re-placed in the next enabled comb with room, or spilled, and cleared (R217). -/
def replaceRegion (e : Engine) (c : CombId) (r : Region) : Engine :=
  match e.sch.run with
  | none => e
  | some g =>
    let dst := ((combsAfter c).filter (enabled e)).find? (roomFor e g.regions r)
    let e := onRegion e r.handle fun r => { r with elems := [], poison := [], touched := false, addedBy := [] }
    placeAt e r dst

/-- Every region homed in a fenced comb is re-placed; the answer names the tasks that must run again from their first
interval (R217 item 4). -/
def replaceRegions (e : Engine) (c : CombId) : Engine × List Nat :=
  match e.sch.run with
  | none => (e, [])
  | some g =>
    let mine := g.regions.filter fun r => r.place == .resident c
    (mine.foldl (fun e r => replaceRegion e c r) e, dedup ((mine.filter Region.touched).flatMap Region.addedBy))

/-! ### The activation store -/

/-- Lines of a store entry. -/
def isEntry (mb layer : Nat) (l : ActLine) : Bool := l.mb == mb && l.layer == layer

/-- The entries of a store, the oldest first write first. -/
def actEntries (st : List ActLine) : List (Nat × Nat) := dedup (st.map fun l => (l.mb, l.layer))

/-- An entry dropped before its release; its lines count (R223). -/
def dropEntry (e : Engine) (c : CombId) (en : Nat × Nat) : Engine :=
  let n := countIf (isEntry en.1 en.2) (combOf e c).act
  bumpComb (onComb e c fun cb => { cb with act := cb.act.filter fun l => !isEntry en.1 en.2 l }) c .actDropped n

/-- A line kept in a comb's activation store (R221, R223); `d` is the depth of R222. -/
def keepLine (e : Engine) (c : CombId) (d : Nat) (l : ActLine) : Engine :=
  let en := (l.mb, l.layer)
  let mine := (actEntries (combOf e c).act).filter fun x => x.1 == l.mb
  let e := if en ∉ mine ∧ d ≤ mine.length then (match mine with | o :: _ => dropEntry e c o | [] => e) else e
  let same (x : ActLine) : Bool := x.addr == l.addr && isEntry l.mb l.layer x
  if (combOf e c).act.any same then onComb e c fun cb => { cb with act := updFirst same (fun _ => l) cb.act }
  else if Config.actLines ≤ (combOf e c).act.length then
    match actEntries (combOf e c).act with
    | o :: _ => if o = en then e else onComb (dropEntry e c o) c fun cb => { cb with act := cb.act ++ [l] }
    | [] => e
  else onComb e c fun cb => { cb with act := cb.act ++ [l] }

/-- The store's line for an address, the newest first (R224, assumptions/127). -/
def actLookup (e : Engine) (c : CombId) (addr : Nat) : Option ActLine :=
  (combOf e c).act.reverse.find? fun l => l.addr == addr

/-- An entry released in every comb (R225). -/
def releaseEntry (e : Engine) (mb layer : Nat) : Engine :=
  { e with combs := e.combs.map fun cb => { cb with act := cb.act.filter fun l => !isEntry mb layer l } }

/-- Every entry released (R225). -/
def releaseStores (e : Engine) : Engine := { e with combs := e.combs.map fun cb => { cb with act := [] } }

/-! ### Weight versions -/

/-- The version table entry of a handle. -/
def verOf (e : Engine) (h : Nat) : Option VerEntry :=
  match e.sch.run with
  | none => none
  | some g => g.versions.find? fun v => v.handle == h

/-- An entry changed. -/
def onVer (e : Engine) (h : Nat) (f : VerEntry → VerEntry) : Engine :=
  onGraph e fun g => { g with versions := updFirst (fun v => v.handle == h) f g.versions }

/-- The slot that a holder has pinned. -/
def pinOf (v : VerEntry) (holder : Nat) : Option Nat := (v.pins.find? fun p => p.2 == holder).map Prod.fst

/-- A task's own pin holder, apart from every micro-batch tag (R236). -/
def ownPin (task : Nat) : Nat := task + 64

/-- A task that reads its PARAM's codes pins its slot as it is dispatched (R236, R240, R242): the slot it reads. -/
def pinTask (e : Engine) (i : Nat) (t : TaskRec) : Option Nat × Engine :=
  match verOf e t.param with
  | none => (none, e)
  | some v =>
    if v.slots = 1 then (some v.current, e)
    else
      let holder := if t.mbValid then t.mb else ownPin i
      match pinOf v holder with
      | some s => (some s, e)
      | none => (some v.current, onVer e t.param fun v => { v with pins := v.pins ++ [(v.current, holder)] })

/-- A pin released (R237, R236). -/
def unpin (e : Engine) (h holder : Nat) : Engine :=
  onVer e h fun v => { v with pins := v.pins.filter fun p => p.2 != holder }

/-- UNPIN: a task of step s releases the pin of its micro-batch (R237); what it held is kept for a repeat of the step (R241). -/
def unpinMb (e : Engine) (h tag s : Nat) : Engine :=
  let e := onVer e h fun v => match pinOf v tag with
    | some sl => { v with freed := v.freed ++ [(sl, tag, s)] }
    | none => v
  unpin e h tag

/-- The pins as a repeat of step s finds them: micro-batches hold again what tasks of step s or later have released (R241). -/
def repin (s : Nat) (v : VerEntry) : VerEntry :=
  let back := v.freed.filter fun x => decide (s ≤ x.2.2)
  { v with
    freed := v.freed.filter fun x => decide (x.2.2 < s)
    pins := back.foldl (fun ps x => if ps.any fun p => p.2 == x.2.1 then ps else ps ++ [(x.1, x.2.1)]) v.pins }

/-- The slot that a step's first update task chose (R238). -/
def chosenIn (v : VerEntry) (s : Nat) : Option Nat := (v.chosen.find? fun p => p.1 == s).map Prod.snd

/-- The lowest slot that is neither CURRENT nor pinned (R238). -/
def freeSlot (v : VerEntry) : Option Nat :=
  (List.range v.slots).find? fun s => s != v.current && v.pins.all fun p => p.1 != s

/-- The slot that an update task of step s writes (R238): the step's, or a free one with the CURRENT slot's expected epoch
(R349); none: it waits (R239). -/
def chooseSlot (e : Engine) (h s : Nat) : Option Nat × Engine :=
  match verOf e h with
  | none => (none, e)
  | some v =>
    match chosenIn v s with
    | some sl => (some sl, e)
    | none =>
      match freeSlot v with
      | none => (none, e)
      | some sl => (some sl, onVer e h fun v => { v with
          chosen := v.chosen ++ [(s, sl)], epochs := updAt v.epochs sl fun _ => elemD v.epochs v.current none })

/-- A PUBLISH task that completed OK: the slot chosen in its step becomes CURRENT (R238). -/
def publish (e : Engine) (h s : Nat) : Engine :=
  onVer e h fun v => match chosenIn v s with
    | some sl => { v with current := sl }
    | none => v

/-- A layer switches to W8: counted and traced once (R191). -/
def switchW8 (e : Engine) (h : Nat) : Engine := logEvent (bump e .switched 1) 55 0x000A (fwFlags 3) (leBytes 3 h)

/-- CURRENT and FLAGS written back to the version table as the graph ends (text after Table 07-4). A tensor whose switch is due has no
later update here: it switches now, so that the flag carries the switch to the next graph (R190, R191, assumptions/114). -/
def writeVersions (e : Engine) : Engine :=
  match e.sch.run with
  | none => e
  | some g => ((List.range g.versions.length).zip g.versions).foldl (fun e (p : Nat × VerEntry) =>
      let e := if p.2.w8Due && !p.2.w8 then switchW8 e p.2.handle else e
      sendAll e .firmware (g.hdr.versionTable + 64 * p.1 + 4) [BitVec.ofNat 8 p.2.current, BitVec.ofNat 8 (b2n (p.2.w8 || p.2.w8Due))] false) e

end Sys2Proof.Machine
end

