-- ==== Sys2Proof/Machine/Operands.lean ====
section
/-! DEFINITION. Machine/Operands.lean: operand forms. Element addresses and out-of-bounds handling (R53 to R58, R79 to R82,
R246, R252, R253), weight row records (R43 to R46, R59 to R71), tile maps (R132 to R134), streamed codes (R34 to R38) and
outlier transforms (R181 to R186). -/

namespace Sys2Proof.Machine

/-! ### Bytes as a unit reads them -/

/-- What a unit reads from: bytes by address, and the poison mark of a line. Never part of State. -/
structure View where
  byte : Nat → Byte
  mark : Nat → Bool

/-- Memory with the engine's outstanding writes. -/
def memView (m : Mem) (e : Engine) : View := ⟨viewByte m e, fun l => viewPoison m e (l % 2 ^ 46)⟩

/-- n bytes as a number. -/
def View.nat (v : View) (a n : Nat) : Nat := leNat ((span a n).map v.byte)
/-- n bits from a bit address. -/
def View.bitsAt (v : View) (b n : Nat) : Nat := bits (v.nat (b / 8) ((b % 8 + n + 7) / 8)) (b % 8) n
/-- Whether a byte range touches a poisoned line. -/
def View.marked (v : View) (a n : Nat) : Bool := (linesOf a n).any v.mark

/-- A line set laid over a view: the first landed line of each number. -/
def overlay (ls : List SlotLine) (v : View) : View where
  byte a := match ls.find? fun l => l.landed && l.line == lineOf a with
    | some l => elemD l.data (a % 64) 0
    | none => v.byte a
  mark n := match ls.find? fun l => l.landed && l.line == n with
    | some l => l.poison
    | none => v.mark n

/-- A ring as one interval's feeder reads it: the lines that landed for it, over memory. -/
def ringView (m : Mem) (e : Engine) (r : Ring) (k : Reader) : View := overlay (r.lines.filter fun l => k ∈ l.need) (memView m e)

/-- The index buffer of a stream over memory. -/
def indexView (m : Mem) (e : Engine) (st : Stream) : View := overlay st.index (memView m e)

/-! ### Element addresses -/

/-- Where an access goes: a bit address, or the fill value, poisoned where a poisoned index value chose it (R254). -/
inductive Loc where
  | bitAt (b : Nat)
  | fill (poison : Bool)
  deriving DecidableEq, Repr

/-- An access with its out-of-bounds counts (R79, R81), and the start of its block where the access is of the block's first
element: a block is counted there, once (R57, R58). -/
structure Access where
  loc : Loc
  clamped : Nat := 0
  filled : Nat := 0
  block : Option Nat := none
  deriving DecidableEq, Repr

/-- An index stream as the data stream that it drives takes it: its number of elements, and the value at a position with
whether its line is poisoned (R252, R254). -/
structure IxSrc where
  elems : Nat := 0
  val : Nat → Nat × Bool := fun p => (p, false)

/-- Elements of a descriptor. -/
def dElems (d : Desc) : Nat := dSize d 0 * dSize d 1 * dSize d 2 * dSize d 3 * dSize d 4

/-- Passes of a dimension: one for each element of the index stream along the indexed one (R252), its size otherwise. -/
def dimPasses (d : Desc) (elems k : Nat) : Nat := if d.indexEn && d.indexDim == k then elems else dSize d k

/-- The outermost dimension, from k0 on, that makes more than one pass. The walk's number is not cut there: what runs past that
dimension is out of bounds along it. -/
def lastDim (d : Desc) (elems k0 : Nat) : Nat :=
  ((List.range (5 - k0)).map fun i => 4 - i).find? (fun k => decide (1 < dimPasses d elems k)) |>.getD k0

/-- Indices of dimensions k to 4 at place p of the walk, dimension k innermost (R246). -/
def splitFrom (d : Desc) (elems last : Nat) : (fuel : Nat) → (k p : Nat) → List Nat
  | 0, _, _ => []
  | n + 1, k, p =>
    if last ≤ k then p :: List.replicate n 0
    else (p % dimPasses d elems k) :: splitFrom d elems last n (k + 1) (p / dimPasses d elems k)

/-- Indices of dimensions k0 to 4 at place p of a descriptor's walk (R246, assumptions/30). -/
def splitWalk (d : Desc) (elems k0 p : Nat) : List Nat := splitFrom d elems (lastDim d elems k0) (5 - k0) k0 p

/-- Byte address of element p of an index stream, in its own element order (R246, R252). -/
def indexAddr (ix : Desc) (p : Nat) : Nat :=
  let i := splitWalk ix 0 0 p
  ix.base + 4 * elemD i 0 0 + dStride ix 1 * elemD i 1 0 + dStride ix 2 * elemD i 2 0 + dStride ix 3 * elemD i 3 0 +
    dStride ix 4 * elemD i 4 0

/-- The place in an index stream's walk with its offending index replaced by its dimension's size − 1: past the end of the walk it is the
outermost dimension's that offends (R79). -/
def clampPlace (ix : Desc) (p : Nat) : Nat :=
  let inner := dElems ix / dSize ix (lastDim ix 0 0)
  dElems ix - inner + p % inner

/-- The element that position p of an index stream reads: p itself, the edge element where the stream is clamped, none where
it is filled (R79, R81). -/
def indexPlace (e : Engine) (ix : Desc) (p : Nat) : Option Nat :=
  if dElems ix = 0 then none else if p < dElems ix then some p else if clamps e then some (clampPlace ix p) else none

/-- Index value p and whether its line is poisoned. -/
def indexVal (e : Engine) (v : View) (ix : Desc) (p : Nat) : Nat × Bool :=
  match indexPlace e ix p with
  | some q => (v.nat (indexAddr ix q) 4, v.mark (lineOf (indexAddr ix q)))
  | none => (ix.fill.toNat, false)

/-- Clamped and filled accesses of an index stream at a list of positions (R79, R81). -/
def indexFaults (e : Engine) (ix : Desc) (ps : List Nat) : Nat × Nat :=
  (countIf (fun p => decide (dElems ix ≤ p) && (indexPlace e ix p).isSome) ps, countIf (fun p => (indexPlace e ix p).isNone) ps)

/-- Blocks of an index stream that positions begin and that start off a 64-byte boundary (R57, R58). -/
def indexBlocks (e : Engine) (ix : Desc) (ps : List Nat) : Nat :=
  countIf (fun p => match indexPlace e ix p with
    | some q => q == p && p % max 1 (dSize ix 0) == 0 && indexAddr ix q % 64 != 0
    | none => false) ps

/-- Bits that one unit of dimension 0 spans; WROW counts bytes (Table 08-3). -/
def dimZeroBits (d : Desc) : Nat := if d.layout = lWROW then 8 else elemBits d.format

/-- One dimension's term of the address in bits, or the fill: the size test of R79 and R81 and the index modes of R253. -/
def dimTerm (e : Engine) (d : Desc) (ix : IxSrc) (k i : Nat) : Access :=
  let size := dSize d k
  if size = 0 then ⟨.fill false, 0, 1, none⟩
  else
    let unit := if k = 0 then dimZeroBits d else 8 * dStride d k
    let indexed := d.indexEn && d.indexDim == k
    let (v, p) := if indexed then ix.val i else (i, false)
    if p then ⟨.fill true, 0, 0, none⟩
    else if indexed && d.indexMode then
      let g := elemD d.strides k 0
      if v < size * g then ⟨.bitAt (64 * v), 0, 0, none⟩
      else if clamps e then ⟨.bitAt (64 * ((size - 1) * g)), 1, 0, none⟩
      else ⟨.fill false, 0, 1, none⟩
    else if v < size then ⟨.bitAt (unit * v), 0, 0, none⟩
    else if clamps e then ⟨.bitAt (unit * (size - 1)), 1, 0, none⟩
    else ⟨.fill false, 0, 1, none⟩

/-- Terms joined: the first fill wins, a clamped access counts once. -/
def joinAccess (a b : Access) : Access :=
  match a.loc, b.loc with
  | .bitAt x, .bitAt y => ⟨.bitAt (x + y), max a.clamped b.clamped, 0, a.block⟩
  | .fill p, _ => ⟨.fill p, 0, a.filled, a.block⟩
  | _, .fill p => ⟨.fill p, 0, b.filled, a.block⟩

/-- The address of an element by its indices (R246). `free0` leaves dimension 0 untested (R61). -/
def locateAt (e : Engine) (d : Desc) (ix : IxSrc) (free0 : Bool) (i0 : Nat) (rest : List Nat) : Access :=
  let outer := ([1, 2, 3, 4].zip rest).foldl
    (fun acc p => joinAccess acc (dimTerm e d ix p.1 p.2)) ⟨.bitAt (8 * d.base), 0, 0, none⟩
  let outer := { outer with block := if i0 = 0 then (match outer.loc with | .bitAt b => some (b / 8) | .fill _ => none) else none }
  if free0 then joinAccess outer ⟨.bitAt (8 * i0), 0, 0, none⟩ else joinAccess outer (dimTerm e d ix 0 i0)

/-- The address of an element by its index of dimension 0 and its place in the walk of the outer dimensions: a token, a
channel, a weight row, a zero-map row (Table 08-3). -/
def locate (e : Engine) (d : Desc) (ix : IxSrc) (free0 : Bool) (i0 i1 : Nat) : Access :=
  locateAt e d ix free0 i0 (splitWalk d ix.elems 1 i1)

/-- The address of element p of a plain array, in the order of its walk (R246). -/
def locateFlat (e : Engine) (d : Desc) (ix : IxSrc) (p : Nat) : Access :=
  match splitWalk d ix.elems 0 p with
  | i0 :: rest => locateAt e d ix false i0 rest
  | [] => locate e d ix false p 0

/-- The position of the index stream that an element uses (R252). -/
def ixPos (d : Desc) (elems i0 i1 : Nat) : Nat :=
  if d.indexDim = 0 then i0 else elemD (splitWalk d elems 1 i1) (d.indexDim - 1) 0

/-- The same for element p of a plain array. -/
def ixPosFlat (d : Desc) (elems p : Nat) : Nat := elemD (splitWalk d elems 0 p) d.indexDim 0

/-- An F32 word from an element's bits, widened exactly (R29). -/
def widen (fmt v : Nat) : Word :=
  if fmt = fF16 then f16ToF32 (v % 2 ^ 16) else if fmt = fBF16 then bf16ToF32 (v % 2 ^ 16) else w32 v

/-- A streamed element as a feeder takes it: its value, whether its line is poisoned, whether it is pad (R56). -/
structure Elem where
  w : Word := 0
  poison : Bool := false
  pad : Bool := true
  deriving DecidableEq, Repr, Inhabited

/-- Indices of dimensions 0 and 1 of the element at token t, channel c (Table 08-3, R571). -/
def tcIndex (d : Desc) (t c : Nat) : Nat × Nat := if d.layout = lCV32T then (t, c) else (c, t)

/-- Pad of a CV32 or CV32T vector, or beyond the last pass of dimension 0 in LINEAR (R56, R571): presented as 0 and never read. An index stream
along dimension 0 gives it its passes (R252). -/
def isPad (d : Desc) (elems i0 : Nat) : Bool :=
  let s := dimPasses d elems 0
  s != 0 && decide (s ≤ i0) && (d.layout == lLINEAR || decide (i0 < ceilDiv s 32 * 32))

/-- An activation or gradient element (t, c). -/
def actElem (e : Engine) (v : View) (ix : IxSrc) (d : Desc) (t c : Nat) : Elem :=
  let (i0, i1) := tcIndex d t c
  if isPad d ix.elems i0 then {}
  else match (locate e d ix false i0 i1).loc with
    | .bitAt b => ⟨widen d.format (v.bitsAt b (elemBits d.format)), v.mark (lineOf (b / 8)), false⟩
    | .fill p => ⟨widen d.format d.fill.toNat, p, false⟩

/-- The access that fetches element (t, c); none for pad. -/
def actAccess (e : Engine) (ix : IxSrc) (d : Desc) (t c : Nat) : Option Access :=
  let (i0, i1) := tcIndex d t c
  if isPad d ix.elems i0 then none else some (locate e d ix false i0 i1)

/-! ### Streamed codes -/

/-- A coded row (Table 02-3, R35, R36): scale, codes, and what the observers and faults take from it. -/
structure RowCode where
  scale : Word := 0
  codes : List Int := []
  bad : Bool := false
  zero : Bool := false
  flat : Bool := false
  uflow : Nat := 0
  nonzero : Nat := 0
  bin : Option Nat := none
  deriving DecidableEq, Repr, Inhabited

/-- 2^-100, the floor of Table 02-3 order 3. -/
def rowFloor : Word := fPow2Neg 100

/-- The largest magnitude of a list, +0 for none. -/
def maxMag (l : List Word) : Word := l.foldl (fun m w => if fLt m (fAbs w) then fAbs w else m) 0

/-- One streamed row coded at Q, halving level d (R35 to R37, R177). -/
def codeRow (wide : Bool) (d : Nat) (es : List Elem) : RowCode :=
  let vals := es.map Elem.w
  if vals.any fBad then { codes := vals.map fun _ => 0, bad := true }
  else
    let m := maxMag vals
    let live := es.filter fun x => !x.pad
    let bin := if fZero m then none else some (min 63 (bits m.toNat 23 8 - 96))
    let flat := !fZero m && live.all fun x => fAbs x.w == m
    if fLt m rowFloor then { codes := vals.map fun _ => 0, zero := true, flat := flat, bin := bin }
    else
      let q : Nat := if wide then 32767 else 127
      let two := fOfQuot (2 ^ d) 1
      let s := fMul (fDivNat m q) two
      let r := fMul (fNatDiv q m) (fPow2Neg d)
      let codes := vals.map fun w => clampInt (vRoundInt (vMul (f32Val w) (f32Val r))) (-(q : Int)) q
      let nz := vals.zip codes |>.filter fun p => !fZero p.1
      { scale := s, codes := codes, flat := flat, bin := bin, nonzero := nz.length
        uflow := countIf (fun (p : Word × Int) => p.2 == 0) nz }

/-- The part of a code that a pass presents (R38). -/
def codePart (p : Pass) (q : Int) : Int :=
  match p with
  | .whole => q
  | .high => q / 256
  | .low => q % 256

/-! ### Outlier transforms -/

/-- Transform codes of Table 09-2. -/
def xHAD32 : Nat := 1
def xHAD64 : Nat := 2
def xSMOOTH : Nat := 3

/-- One butterfly stage of width h over a block (R182). -/
def hadStage (h : Nat) (v : List Word) : List Word :=
  (List.range v.length).map fun i =>
    if i / h % 2 = 0 then fAdd (elemD v i 0) (elemD v (i + h) 0) else fSub (elemD v (i - h) 0) (elemD v i 0)

/-- The normalised Walsh–Hadamard transform of a block of 32 or 64 (R182). -/
def hadamard (b : Nat) (v : List Word) : List Word :=
  let v := v ++ List.replicate (b - v.length) 0
  let v := (if b = 32 then [1, 2, 4, 8, 16] else [1, 2, 4, 8, 16, 32]).foldl (fun v h => hadStage h v) v
  let c : Word := if b = 32 then 0x3E3504F3 else fPow2Neg 3
  v.map fun w => fMul w c

/-- Block size of a transform, 0 for none and SMOOTH. -/
def hadBlock (x : Nat) : Nat := if x = xHAD32 then 32 else if x = xHAD64 then 64 else 0

/-- The transform along consecutive channels that start at a multiple of the block (R182, R183, R185). -/
def transform (x : Nat) (smooth : Nat → Word) (c0 : Nat) (v : List Word) : List Word :=
  if x = xSMOOTH then (List.range v.length).zip v |>.map fun p => fMul p.2 (smooth (c0 + p.1))
  else if hadBlock x = 0 then v
  else ((blocks (hadBlock x) v.length v).flatMap (hadamard (hadBlock x))).take v.length

/-- The transform on elements: a pad lane stays pad, the value it takes in the block counts as an element's. -/
def transformElems (x : Nat) (smooth : Nat → Word) (c0 : Nat) (es : List Elem) : List Elem :=
  (es.zip (transform x smooth c0 (es.map Elem.w))).map fun p => { p.1 with w := if p.1.pad then 0 else p.2 }

/-! ### Weight row records -/

/-- One byte of a descriptor's fill pattern (R79, R288). -/
def fillByte (d : Desc) (a : Nat) : Byte :=
  let b := elemBits d.format
  if b = 32 then BitVec.ofNat 8 (d.fill.toNat / 256 ^ ((a - d.base) % 4))
  else if b = 16 then BitVec.ofNat 8 (d.fill.toNat / 256 ^ ((a - d.base) % 2))
  else if b = 8 then BitVec.ofNat 8 d.fill.toNat
  else if b = 4 then BitVec.ofNat 8 (17 * (d.fill.toNat % 16))
  else if bit d.fill.toNat 0 then 255 else 0

/-- Where a weight row that the fill value answers is read (R81): no address of memory. -/
def fillRow : Nat := 2 ^ 60
/-- The same for a row that a poisoned index value chose (R254). -/
def fillRowBad : Nat := 2 ^ 61

/-- A view with the fill value's bytes where no memory lies. -/
def fillView (d : Desc) (v : View) : View := { v with byte := fun a => if a < fillRow then v.byte a else fillByte d a }

/-- The minimum scale (R47) from the sampled HUB_FMT_CTRL: E of 1 to 126, otherwise 24. -/
def minScaleOf (fmtCtrl : Nat) : Word :=
  let x := bits fmtCtrl 8 8
  fPow2Neg (if 1 ≤ x ∧ x ≤ 126 then x else 24)

/-- MASKFMT that a mask mode calls for: dense, NM, FREE. -/
def maskFmt (mask : Nat) : Nat := if mask = 0 then 0 else if mask = 3 then 2 else 1

/-- A row header judged by Table 02-6 and R350. `expected` is none where no epoch is compared. -/
def rowHeader (v : View) (mask : Nat) (minScale : Word) (expected : Option (Option Nat)) (addr : Nat) : WRow :=
  let s := w32 (v.nat addr 4)
  let z := v.nat (addr + 4) 1
  let fl := v.nat (addr + 5) 1
  let ep := v.nat (addr + 6) 2
  let wide := bit fl 0
  let neg := bit s.toNat 31 && !fZero s
  let bad := v.marked addr 8
  if fBad s ∨ neg ∨ bits fl 3 2 ≠ maskFmt mask ∨ (¬ wide ∧ 15 < z) then
    { addr := addr, wide := wide, rejected := true, epoch := ep, poison := bad }
  else
    let low := fLt s minScale
    { addr := addr, s := if low then minScale else s, z := z, wide := wide, floored := low, epoch := ep, poison := bad
      mismatch := match expected with | none => false | some x => x != some ep }

/-- Width in bits of a code. -/
def codeBits (r : WRow) : Nat := if r.wide then 8 else 4

/-- A dense code (R62). -/
def denseCode (v : View) (r : WRow) (k : Nat) : Nat := v.bitsAt (8 * (r.addr + 8) + codeBits r * k) (codeBits r)

/-- The occupied slots of an NM group as (position code, code, slot) (R64, R65). -/
def nmGroup (v : View) (r : WRow) (n g : Nat) : List (Nat × Nat × Nat) :=
  let b := 3 + codeBits r
  let sl := (List.range n).map fun i =>
    let f := v.bitsAt (8 * (r.addr + 8) + (g * n + i) * b) b
    (f % 8, f / 8, i)
  let p i := (elemD sl i (0, 0, 0)).1
  if p 1 < p 0 then []
  else
    let occ := 1 + ((List.range (n - 1)).takeWhile fun i => p i < p (i + 1)).length
    sl.take occ

/-- FREE records decoded (R69, R71, R146): non-zeros (k, code, rank), non-zeros dropped beyond the row end, whether the
region ended before the end record, the records read, and the position that the last of them reaches. `left` is the number of
whole records the region holds. -/
structure FreeRow where
  nz : List (Nat × Nat × Nat) := []
  oor : Nat := 0
  short : Bool := false
  records : Nat := 0
  reach : Nat := 0
  deriving DecidableEq, Repr, Inhabited

def freeLoop (rec : Nat → Nat × Nat) (qmax kEnd : Nat) : (left : Nat) → (i k rank : Nat) → FreeRow → FreeRow
  | 0, i, k, _, acc => { acc with short := true, records := i, reach := k }
  | left + 1, i, k, rank, acc =>
    let (run, q) := rec i
    if run = 15 then
      if q = qmax then { acc with records := i + 1, reach := k }
      else freeLoop rec qmax kEnd left (i + 1) (k + 15) rank acc
    else
      let k := k + run
      if acc.oor ≠ 0 ∨ kEnd ≤ k then freeLoop rec qmax kEnd left (i + 1) (k + 1) rank { acc with oor := acc.oor + 1 }
      else freeLoop rec qmax kEnd left (i + 1) (k + 1) (rank + 1) { acc with nz := acc.nz ++ [(k, q, rank)] }

/-- A FREE row of a region of `region` bytes. -/
def freeRow (v : View) (r : WRow) (kEnd region : Nat) : FreeRow :=
  let b := 4 + codeBits r
  freeLoop (fun i => let f := v.bitsAt (8 * (r.addr + 8) + i * b) b; (f % 16, f / 16)) (2 ^ codeBits r - 1) kEnd
    (8 * (region - 8) / b) 0 0 0 {}

/-- Address of weight row n's record (R59, R246): the row pitch, or the index stream's placement. A FREE row of a descriptor whose SIZE0
is 0 is filled (R81); a dense or NM row is never tested against SIZE0 (R61). -/
def rowAddr (e : Engine) (mask : Nat) (d : Desc) (ix : IxSrc) (n : Nat) : Access :=
  locate e d ix (mask != 3 || dSize d 0 != 0) 0 n

/-- A FREE row's record as the feeder reads it: a byte at or beyond SIZE0 is out of bounds along dimension 0, and its index is replaced by
SIZE0 − 1, or the fill value answers (R79); a dense or NM row's bytes are never out of bounds (R61). -/
def recordView (e : Engine) (mask : Nat) (d : Desc) (addr : Nat) (v : View) : View :=
  let past (a : Nat) : Bool := mask == 3 && decide (addr < fillRow ∧ addr + dSize d 0 ≤ a)
  { v with byte := fun a => if past a then (if clamps e then v.byte (addr + dSize d 0 - 1) else fillByte d a) else v.byte a }

/-- Bytes of a FREE row's record that lie within SIZE0, of n. -/
def recordWithin (mask : Nat) (d : Desc) (n : Nat) : Nat := if mask = 3 then min n (dSize d 0) else n

/-- Bytes of a FREE row's region (R71): the row pitch, or SIZE0 for every index placement (assumptions/94). -/
def freeRegion (d : Desc) : Nat := if d.indexEn then dSize d 0 else dStride d 1

/-- Payload length of a row by Table 03-2; `recs` records in FREE. -/
def payloadLen (mask : Nat) (wide : Bool) (k recs : Nat) : Nat :=
  let g := ceilDiv k 8
  let n := nmOf mask
  if mask = 0 then (if wide then k else ceilDiv k 2)
  else if mask = 3 then ceilDiv (recs * (if wide then 12 else 8)) 8
  else ceilDiv (g * n * (if wide then 11 else 7)) 8

/-- The byte span, from the record's start, that holds positions k0 to k0+n-1 of a dense or NM row; header apart. -/
def rowSpan (mask : Nat) (wide : Bool) (k0 n : Nat) : Nat × Nat :=
  let (lo, hi) :=
    if mask = 0 then (let b := if wide then 8 else 4; (k0 * b, (k0 + n) * b))
    else (let b := nmOf mask * (if wide then 11 else 7); (k0 / 8 * b, ceilDiv (k0 + n) 8 * b))
  (8 + lo / 8, ceilDiv hi 8 - lo / 8)

/-! ### Tile maps -/

/-- A tile map entry (Table 05-5). -/
structure MapEntry where
  valid : Bool
  split : Nat
  seg : Nat
  line : Nat
  deriving DecidableEq, Repr, Inhabited

/-- A tile map (Tables 05-4 and 05-5): cap, first group, entries. -/
structure TileMap where
  cap : Nat
  g0 : Nat
  entries : List MapEntry
  deriving DecidableEq, Repr, Inhabited

/-- A tile map from its 272 bytes. -/
def parseMap (bs : List Byte) : TileMap :=
  { cap := 2 ^ (field bs 0 1 % 4), g0 := field bs 4 4
    entries := (List.range 64).map fun i =>
      let w := field bs (16 + 4 * i) 4
      ⟨bit w 31, bits w 29 2, bits w 26 3, bits w 0 24⟩ }

/-- A tile map is valid (R134). -/
def mapOk (bs : List Byte) (addr lines : Nat) (freeSplit : Bool) : Bool :=
  let t := parseMap bs
  let vs := t.entries.filter MapEntry.valid
  addr % 8 == 0 && decide (field bs 0 1 ≤ 3) && zeroBytes bs 1 3 && zeroBytes bs 8 8 &&
  (List.range 64).all (fun i => bits (field bs (16 + 4 * i) 4) 24 2 == 0) &&
  vs.all fun x => decide (x.line < lines) && (freeSplit || x.split == 0) &&
    (let same := vs.filter fun y => y.line == x.line
     same.length == 2 ^ x.split && same.all (fun y => y.split == x.split) &&
     (List.range (2 ^ x.split)).all fun m => countIf (fun y => y.seg == m) same == 1)

end Sys2Proof.Machine
end

