-- ==== Sys2Proof/Machine/Feed.lean ====
section
/-! DEFINITION. Machine/Feed.lean: what the feeders present for one interval of a tile: placement (R93, R127, R132), dense
steps (R89 to R96), sparse steps (R114 to R126), the sampled product (R127 to R130), group overflow (R137 to R143), positions
beyond the row end (R145 to R148), zero maps (R149 to R153, R186), folding and sums (R167 to R175). -/

namespace Sys2Proof.Machine

/-! ### Placement -/

/-- The sampled weight-gradient product (R127, R154). -/
def sampledOf (t : TaskRec) (mask : Nat) : Bool := t.kind == kDW && mask != 0 && !tMaskStep t
/-- A sparse forward or input-gradient product. -/
def slotted (t : TaskRec) (mask : Nat) : Bool := decide (t.kind ≤ kDX) && mask != 0
/-- Tiles described by tile maps (R132). -/
def mapped (t : TaskRec) (mask : Nat) : Bool := mask == 3 && (decide (t.kind ≤ kDX) || sampledOf t mask)

/-- Tiles along the frame columns. -/
def tileCols (t : TaskRec) (mask : Nat) : Nat :=
  if sampledOf t mask then ceilDiv (ceilDiv t.outCols 8) (64 / max 1 (nmOf mask)) else ceilDiv t.outCols 64

/-- Tiles of a product task (R298 text). -/
def tileCount (t : TaskRec) (mask : Nat) : Nat :=
  if mapped t mask then t.tileCount else ceilDiv t.outRows 64 * tileCols t mask

/-- Positions of a weight row. -/
def rowK (t : TaskRec) (mask : Nat) : Nat :=
  if t.kind = kFWD then t.redLen else if t.kind = kDX then (if mask = 0 then t.outCols else t.outRows) else t.outCols

/-- Where a tile lies: the row that each frame row carries with its segments and segment index, the first column (a group in
the sampled product), and the cap. -/
structure Geo where
  rows : List (Option (Nat × Nat × Nat)) := []
  c0 : Nat := 0
  cap : Nat := 8
  deriving DecidableEq, Repr, Inhabited

/-- Bytes of a tile's map in memory (R132). -/
def mapBytes (v : View) (t : TaskRec) (tile : Nat) : List Byte := (span (t.tilemapBase + 272 * tile) 272).map v.byte

/-- The geometry of a tile from its map's bytes; a FREE forward or input-gradient tile takes its column block from its number modulo the column
tiles (assumptions/31). -/
def geoOf (map : List Byte) (t : TaskRec) (mask tile : Nat) : Geo :=
  let nc := max 1 (tileCols t mask)
  if mapped t mask then
    let mp := parseMap map
    { rows := mp.entries.map fun x => if x.valid then some (x.line, 2 ^ x.split, x.seg) else none
      c0 := if sampledOf t mask then mp.g0 else 64 * (tile % nc), cap := mp.cap }
  else
    let r0 := 64 * (tile / nc)
    { rows := (List.range 64).map fun i => if r0 + i < t.outRows then some (r0 + i, 1, 0) else none
      c0 := (if sampledOf t mask then 64 / max 1 (nmOf mask) else 64) * (tile % nc), cap := if mask = 0 then 8 else nmOf mask }

/-- Groups of X that a sampled tile covers (R127). -/
def laneGroups (g : Geo) : Nat := 64 / max 1 g.cap

/-- The reference that carries weight codes, and the streamed operand that can widen (R177). -/
def weightRole (t : TaskRec) (mask : Nat) : Nat := if t.kind = kDW then rSIDE0 else if mask = 0 then rCOL else rROW
def streamRole (t : TaskRec) (mask : Nat) : Nat := if t.kind = kDW then rROW else if mask = 0 then rROW else rCOL

/-! ### What one interval reads -/

/-- Everything a feeder of one interval needs: the engine and memory, the task, its layer, geometry, span along the reduced
dimension, level and width, and a view for each descriptor reference. `held` is what the frame's scale bank holds (R165), `zok`
tells the zero-map lines that have landed, `smooth` and `factorBad` the smoothing factors with the poison of their lines (R184),
`first` where the tile's first interval starts and `hview` what that one reads of the weight records: a forward tile's headers come
with it. `narrow` is what the tile's first interval settled of R427. Never part of State. -/
structure Feed where
  e : Engine
  t : TaskRec
  mask : Nat
  xform : Nat
  policy : Nat
  smooth : Nat → Word
  geo : Geo
  start : Nat
  len : Nat
  level : Nat
  wide : Bool
  minScale : Word
  expected : Option (Option Nat)
  desc : Nat → Desc
  view : Nat → View
  ix : Nat → IxSrc
  zmap : Bool
  zok : Nat → Bool := fun _ => true
  held : List (Nat × WRow) := []
  factorBad : Bool := false
  first : Nat := 0
  hview : Option View := none
  narrow : Option Bool := none

/-- The zero-map bit of vector v of token t; a poisoned map line reads as all bits 0 (Table 12-2). -/
def Feed.zbit (f : Feed) (t v : Nat) : Bool :=
  f.zmap && (match (locate f.e (f.desc rZIN) (f.ix rZIN) false v t).loc with
    | .bitAt b => !(f.view rZIN).mark (lineOf (b / 8)) && (f.view rZIN).bitsAt b 1 == 1
    | .fill p => !p && bit (f.desc rZIN).fill.toNat 0)

/-- X[t, c], 0 without a read under a set zero-map bit (R76). -/
def Feed.xElem (f : Feed) (role t c : Nat) : Elem :=
  if f.zbit t (c / 32) then { pad := false } else actElem f.e (f.view role) (f.ix role) (f.desc role) t c

/-- X[t, c0 .. c0+n-1] transformed (R181). -/
def Feed.xRow (f : Feed) (role t c0 n : Nat) : List Elem :=
  transformElems f.xform f.smooth c0 ((span c0 n).map (f.xElem role t))

/-- dY[t, n] as stored. -/
def Feed.dy (f : Feed) (role t n : Nat) : Elem := actElem f.e (f.view role) (f.ix role) (f.desc role) t n

/-- The header of weight row n as the feeder holds or reads it (R46, R165, R350); at a fill location the fill value answers,
header included (R81, R82). -/
def Feed.wrow (f : Feed) (n : Nat) : WRow :=
  let role := weightRole f.t f.mask
  match f.held.find? fun p => p.1 == n with
  | some p => p.2
  | none =>
    let v := f.hview.getD (f.view role)
    let read (a : Nat) := rowHeader v f.mask f.minScale f.expected a
    match (rowAddr f.e f.mask (f.desc role) (f.ix role) n).loc with
    | .bitAt b => rowHeader (recordView f.e f.mask (f.desc role) (b / 8) v) f.mask f.minScale f.expected (b / 8)
    | .fill p => { read (if p then fillRowBad else fillRow) with poison := p }

/-- Records of a FREE row as (record, position it reaches), to the end record, the row end or the region's end. -/
def freeTrace (rec : Nat → Nat × Nat) (qmax kEnd : Nat) : (left i k : Nat) → List (Nat × Option Nat)
  | 0, _, _ => []
  | left + 1, i, k =>
    let (run, q) := rec i
    if run = 15 then
      if q = qmax then [(i, none)] else (i, some (k + 14)) :: freeTrace rec qmax kEnd left (i + 1) (k + 15)
    else if kEnd ≤ k + run then [(i, none)]
    else (i, some (k + run)) :: freeTrace rec qmax kEnd left (i + 1) (k + run + 1)

/-- Records first to last that positions k0 to k0+n-1 of a FREE row take, the record that ends them included. -/
def freeNeed (v : View) (r : WRow) (kEnd region k0 n : Nat) : Option (Nat × Nat) :=
  let b := 4 + codeBits r
  let tr := freeTrace (fun i => let f := v.bitsAt (8 * (r.addr + 8) + i * b) b; (f % 16, f / 16)) (2 ^ codeBits r - 1) kEnd
    (8 * (region - 8) / b) 0 0
  let past (lim : Nat) (x : Nat × Option Nat) : Bool := match x.2 with | none => true | some p => decide (lim ≤ p)
  match tr.find? (past k0), tr.getLast? with
  | some a, some z => some (a.1, ((tr.find? (past (k0 + n))).getD z).1)
  | none, some z => some (z.1, z.1)
  | _, none => none

/-- Poison reaches the row from its record (R148, assumptions/95): a dense or NM row's from its header and the bytes of positions
k0 to k0+n-1, a FREE row's from its header and its records up to the last one that the interval reads. -/
def Feed.wmarked (f : Feed) (r : WRow) (k0 n : Nat) : Bool :=
  let v := f.view (weightRole f.t f.mask)
  let d := f.desc (weightRole f.t f.mask)
  let sp :=
    if f.mask = 3 then
      match freeNeed (recordView f.e f.mask d r.addr v) r (rowK f.t f.mask) (freeRegion d) k0 n with
      | some (_, i1) => (8, recordWithin f.mask d (8 + ceilDiv ((i1 + 1) * (4 + codeBits r)) 8) - 8)
      | none => (8, 0)
    else rowSpan f.mask r.wide k0 n
  r.poison || (decide (r.addr < fillRow) && v.marked (r.addr + sp.1) sp.2)

/-- A weight row with its slots by group over positions k0 to k0+n-1 (groups ascending, (position code, code, rank in the
row)), slots beyond the row end, and whether it is suspect (R71, R145, R146, R148). -/
structure SlotRow where
  hdr : WRow
  slots : List (Nat × Nat × Nat × Nat) := []
  oor : Nat := 0
  suspect : Bool := false
  poison : Bool := false
  deriving Repr, Inhabited

/-- The slots of weight row n as (k, group, code, rank). What lies at the end of a FREE row is met by the interval that reads so
far (R71, R146). -/
def Feed.slotRow (f : Feed) (n k0 len : Nat) : SlotRow :=
  let r := f.wrow n
  let v := recordView f.e f.mask (f.desc (weightRole f.t f.mask)) r.addr (f.view (weightRole f.t f.mask))
  let kEnd := rowK f.t f.mask
  let within := min len (kEnd - k0)
  let marked := f.wmarked r k0 within
  if r.rejected ∨ r.mismatch ∨ marked then { hdr := r, poison := marked || r.rejected || r.mismatch }
  else if f.mask = 3 then
    let fr := freeRow v r kEnd (freeRegion (f.desc (weightRole f.t f.mask)))
    { hdr := r, slots := (fr.nz.filter fun x => decide (k0 ≤ x.1 ∧ x.1 < k0 + len)).map fun x => (x.1, x.1 / 8, x.2.1, x.2.2)
      oor := if kEnd ≤ k0 + len then fr.oor else 0
      suspect := (decide (kEnd ≤ k0 + len) && fr.oor != 0) || (fr.short && decide (min kEnd fr.reach ≤ k0 + len)) }
  else
    let nn := nmOf f.mask
    let all := (span (k0 / 8) (ceilDiv (k0 + within) 8 - k0 / 8)).flatMap fun g =>
      (nmGroup v r nn g).map fun s => (8 * g + s.1, g, s.2.1, g * nn + s.2.2)
    let out := countIf (fun s => decide (kEnd ≤ s.1)) all
    { hdr := r, slots := all.filter (fun s => decide (s.1 < kEnd) && decide (k0 ≤ s.1 ∧ s.1 < k0 + len))
      oor := out, suspect := out != 0 }

/-! ### Overflowing groups -/

/-- One slot that a frame row presents: position code, code, weight row (R125), rank in the weight row. -/
structure Slot where
  p : Nat
  q : Nat
  n : Nat
  rank : Nat
  deriving DecidableEq, Repr, Inhabited

/-- Policies of Table 09-2. -/
def pEXACT : Nat := 0
def pTRIM : Nat := 1
def pTRAP : Nat := 2

/-- |S × (q − Z)| of a slot (R141). -/
def slotMag (hdr : Nat → WRow) (s : Slot) : FVal :=
  let r := hdr s.n
  vAbs (vMul (f32Val r.s) (.fin (decide (s.q < r.z)) (((s.q : Int) - r.z).natAbs) 0))

/-- The `cap` slots of largest magnitude, ties to the lower rank, in ascending rank (R141). -/
def trimSlots (hdr : Nat → WRow) (cap : Nat) (l : List Slot) : List Slot :=
  let ix := (List.range l.length).zip l
  let best := (sortBy (fun (a b : Nat × Slot) => vLt (slotMag hdr b.2) (slotMag hdr a.2) ||
    (!vLt (slotMag hdr a.2) (slotMag hdr b.2) && decide (a.1 < b.1))) ix).take cap
  (ix.filter fun x => best.any fun y => y.1 == x.1).map Prod.snd

/-- Regular and excess slots of a group under the layer's policy, and slots dropped (R124, R139, R141). -/
def splitGroup (policy : Nat) (hdr : Nat → WRow) (cap : Nat) (l : List Slot) : List Slot × List Slot × Nat :=
  if l.length ≤ cap then (l, [], 0)
  else if policy = pEXACT then (l.take cap, l.drop cap, 0)
  else (trimSlots hdr cap l, [], l.length - cap)

/-! ### Built intervals -/

/-- One pass of an interval as it enters the frame. -/
structure PassIn where
  pass : Pass
  rank : Nat := 0
  steps : List StepIn
  sc : Scales
  deriving Repr, Inhabited

/-- An interval as the feeders present it: its passes in order and what its commit counts and marks. -/
structure Built where
  passes : List PassIn := []
  counts : Counts := {}
  poison : Bool := false
  suspect : Bool := false
  trap : Bool := false
  opmode : Nat := 0
  deriving Repr, Inhabited

/-- The passes of a width (R92, R174). -/
def passList (wide : Bool) : List Pass := if wide then [.high, .low] else [.whole]

/-- What streamed rows add to the observers and faults (R187, Table 02-3). -/
def rowCounts (rs : List RowCode) : Counts :=
  { uflow := sumNat (rs.map RowCode.uflow), nonzero := sumNat (rs.map RowCode.nonzero)
    zeroRows := countIf RowCode.zero rs, flatRows := countIf RowCode.flat rs, nonfinite := countIf RowCode.bad rs }

/-- Histogram bins of rows, with the HIST_SRC code of their operand (R187). -/
def histBins (src : Nat) (rs : List RowCode) : List (Nat × Nat) := (rs.filterMap RowCode.bin).map fun b => (src, b)

/-- Weight rows of Table 02-6 and R350 counted. -/
def hdrCounts (rs : List WRow) : Counts :=
  { badHeaders := countIf WRow.rejected rs, floored := countIf WRow.floored rs, epochMiss := countIf WRow.mismatch rs }

/-- Counts joined. -/
def Counts.join (a b : Counts) : Counts :=
  { excess := a.excess + b.excess, ovfSteps := a.ovfSteps + b.ovfSteps, trimmed := a.trimmed + b.trimmed
    zskip := a.zskip + b.zskip, oor := a.oor + b.oor, uflow := a.uflow + b.uflow, nonzero := a.nonzero + b.nonzero
    zeroRows := a.zeroRows + b.zeroRows, flatRows := a.flatRows + b.flatRows, hist := a.hist ++ b.hist
    nonfinite := a.nonfinite + b.nonfinite, badHeaders := a.badHeaders + b.badHeaders, floored := a.floored + b.floored
    epochMiss := a.epochMiss + b.epochMiss }

/-- A coded row of each frame lane, an absent lane all zeros (R95); with whether any element read was poisoned. -/
def laneRows (wide : Bool) (level : Nat) (n : Nat) (rows : List (Option (List Elem))) : List RowCode :=
  rows.map fun r => match r with | some es => codeRow wide level es | none => { codes := List.replicate n 0 }

/-- Whether any element is poisoned. -/
def anyPoison (rows : List (Option (List Elem))) : Bool := rows.any fun r => (r.getD []).any Elem.poison

/-- The coded rows that are present. -/
def present (rows : List (Option (List Elem))) (rs : List RowCode) : List RowCode :=
  (rows.zip rs).filterMap fun p => if p.1.isSome then some p.2 else none

/-- Positions taken two at a time in dense W4 mode (R89, R90), one at a time otherwise. -/
def pairUp (pair : Bool) : (fuel : Nat) → List Nat → List (Nat × Option Nat)
  | 0, _ => []
  | _ + 1, [] => []
  | _ + 1, [a] => [(a, none)]
  | n + 1, a :: b :: l => if pair then (a, some b) :: pairUp pair n l else (a, none) :: pairUp pair n (b :: l)

/-- Dense steps of one pass: row codes by pass part, column codes whole, over the positions kept. -/
def denseSteps (p : Pass) (pair : Bool) (ks : List Nat) (rows : List RowCode) (cols : List (List Int)) : List StepIn :=
  (pairUp pair ks.length ks).map fun (a, b) =>
    let r (x : RowCode) : RowOp := .code (codePart p (elemD x.codes a 0)) (match b with | some b => codePart p (elemD x.codes b 0) | none => 0)
    let c (x : List Int) : ColOp := .code (elemD x a 0) (match b with | some b => elemD x b 0 | none => 0)
    { accB := false, rows := rows.map r, cols := cols.map c }

/-- Σ of a row's presented codes over the kept positions, each times a weight (R168). -/
def rowSum (p : Pass) (ks : List Nat) (w : Nat → Int) (r : RowCode) : Int :=
  sumInt (ks.map fun k => codePart p (elemD r.codes k 0) * w k)

/-- A vector's zero-map bit as a pair of R186 takes it: a vector beyond the channels is the padding of R185, all zeros
(assumptions/96). -/
def Feed.zpair (f : Feed) (t v : Nat) : Bool := decide ((if f.t.kind = kFWD then f.t.redLen else f.t.outCols) ≤ 32 * v) || f.zbit t v

/-- Vectors of k that are skipped for the whole tile (R150, R186): zero-map bit 1 for every token. -/
def Feed.skipVec (f : Feed) (tokens : List Nat) (v : Nat) : Bool :=
  let one v := f.zmap && tokens.all fun t => f.zpair t v
  if f.xform = xHAD64 then one (v / 2 * 2) && one (v / 2 * 2 + 1) else one v

/-- Tokens of the tile that the columns (or rows) carry. -/
def tokensAt (t0 ext : Nat) : List (Option Nat) := (List.range 64).map fun j => if t0 + j < ext then some (t0 + j) else none

/-- Weight rows whose headers the feeder reads for this interval, as they count (R46, R350): those in the scale bank have been
counted as they were loaded, mask records count with a tile's first interval (assumptions/97). -/
def Feed.rowFaults (f : Feed) (rs : List (Nat × WRow)) : Counts :=
  if f.t.kind = kDW ∧ f.start ≠ 0 then {}
  else hdrCounts ((rs.filter fun r => f.held.all fun p => p.1 != r.1).map Prod.snd)

/-- Rows by number, each once however many frame rows its segments take. -/
def onceRows {α : Type} (l : List (Nat × α)) : List (Nat × α) :=
  l.foldl (fun acc x => if acc.any fun y => y.1 == x.1 then acc else acc ++ [x]) []

/-! ### Dense products -/

/-- A weight code as presented in a dense product: 0 in a rejected row, the zero point on an epoch mismatch (R46, R350). -/
def Feed.wcode (f : Feed) (r : WRow) (k : Nat) : Int :=
  if r.rejected then 0 else if r.mismatch then r.z else denseCode (f.view (weightRole f.t f.mask)) r k

/-- The dense forward product of one interval (Table 04-3, Table 06-3). -/
def Feed.denseFwd (f : Feed) : Built :=
  let toks := f.geo.rows.map fun r => r.map Prod.fst
  let live := toks.filterMap id
  let xs := toks.map fun t => t.map fun t => f.xRow rROW t f.start f.len
  let rows := laneRows f.wide f.level f.len xs
  let ns := (List.range 64).map fun j => if f.geo.c0 + j < f.t.outCols then some (f.geo.c0 + j) else none
  let hs := ns.map fun n => n.map f.wrow
  let real := hs.filterMap id
  let named := ns.filterMap fun n => n.map fun n => (n, f.wrow n)
  let pair := real.all fun h => !h.wide
  let cols := hs.map fun h => match h with
    | some h => (span f.start f.len).map (f.wcode h)
    | none => List.replicate f.len 0
  let keep := (List.range f.len).filter fun k => !f.skipVec live ((f.start + k) / 32)
  let mk p : PassIn :=
    { pass := p, steps := denseSteps p pair keep rows cols
      sc := { a := rows.map RowCode.scale, b := hs.map fun h => (h.map WRow.s).getD 0
              z := hs.map fun h => (h.map WRow.z).getD 0, rsum := rows.map (rowSum p keep fun _ => 1) } }
  let all := present xs rows
  let steps n := if pair then ceilDiv n 2 else n
  let cnt := ((rowCounts all).join (f.rowFaults named)).join
    { hist := histBins 0 all, zskip := steps f.len - steps keep.length }
  { passes := (passList f.wide).map mk, counts := cnt
    poison := anyPoison xs || f.factorBad || real.any (fun h => h.rejected || h.mismatch || f.wmarked h f.start f.len) || cnt.nonfinite != 0
    opmode := b2n pair }

/-- Folded gradients g[t, n] = RN(dY × S_n) of a row of n (R173). -/
def Feed.folded (f : Feed) (role t : Nat) (hs : List WRow) : List Elem :=
  ((span f.start f.len).zip hs).map fun p => let x := f.dy role t p.1; { x with w := if x.pad then 0 else fMul x.w p.2.s }

/-- Every weight row that an input-gradient tile reads has WIDTH 0 (R427): rows whose lines have not landed are judged as memory
holds them, and the answer of the tile's first interval stands for the whole tile (assumptions/98). -/
def Feed.allNarrow (f : Feed) : Bool := (List.range f.t.redLen).all fun n => !(f.wrow n).wide

/-- The dense input-gradient product of one interval. -/
def Feed.denseDx (f : Feed) : Built :=
  let hs := (span f.start f.len).map f.wrow
  let xs := f.geo.rows.map fun r => r.map fun r => f.folded rROW r.1 hs
  let rows := laneRows f.wide f.level f.len xs
  let pair := f.narrow.getD f.allNarrow
  let cols := (List.range 64).map fun j =>
    if f.geo.c0 + j < f.t.outCols then hs.map fun h => f.wcode h (f.geo.c0 + j) else List.replicate f.len 0
  let keep := List.range f.len
  let zs := hs.map WRow.z
  let mk p : PassIn :=
    { pass := p, steps := denseSteps p pair keep rows cols
      sc := { a := rows.map RowCode.scale, rsum := rows.map (rowSum p keep fun k => (elemD zs k 0 : Nat)) } }
  let all := present xs rows
  let cnt := ((rowCounts all).join (f.rowFaults ((span f.start f.len).zip hs))).join { hist := histBins 1 all }
  { passes := (passList f.wide).map mk, counts := cnt
    poison := anyPoison xs || hs.any (fun h => h.rejected || h.mismatch || f.wmarked h f.geo.c0 (min 64 (f.t.outCols - f.geo.c0))) ||
      cnt.nonfinite != 0
    opmode := b2n pair }

/-- dY by channel over the interval's tokens, each on a frame row (Table 06-2). -/
def Feed.dyRows (f : Feed) : List (Option (List Elem)) :=
  f.geo.rows.map fun r => r.map fun r => (span f.start f.len).map fun t => f.dy rROW t r.1

/-- X over the interval's tokens for channels c0 to c0+n-1, transformed along k, by token. -/
def Feed.xBlock (f : Feed) (c0 n : Nat) : List (List Elem) := (span f.start f.len).map fun t => f.xRow rCOL t c0 n

/-- Tokens that a zero map skips in the weight gradient (R151): every vector of the channels read is marked. -/
def Feed.keepTokens (f : Feed) (c0 n : Nat) : List Nat :=
  (List.range f.len).filter fun t => !(f.zmap && n != 0 && (span (c0 / 32) (ceilDiv (c0 + n) 32 - c0 / 32)).all fun v =>
    if f.xform = xHAD64 then f.zpair (f.start + t) (v / 2 * 2) && f.zpair (f.start + t) (v / 2 * 2 + 1) else f.zbit (f.start + t) v)

/-- Ownership of mask positions by a dense cell grid on a mask step (R155): element rank of the mask position. -/
def Feed.maskOwn (f : Feed) : List (List (Option (Nat × Nat))) × List (Nat × SlotRow) :=
  let srs := f.geo.rows.map fun r => r.map fun r => f.slotRow r.1 f.geo.c0 64
  (srs.map fun sr => (List.range 64).map fun j => match sr with
    | some s => (s.slots.find? fun x => x.1 == f.geo.c0 + j).map fun x => (0, x.2.2.2)
    | none => none, onceRows ((f.geo.rows.zip srs).filterMap fun p => p.1.bind fun r => p.2.map fun s => (r.1, s)))

/-- The dense weight-gradient product of one interval (R91), a mask step's included (R154). -/
def Feed.denseDw (f : Feed) : Built :=
  let ys := f.dyRows
  let rows := laneRows f.wide f.level f.len ys
  let n := min 64 (f.t.outCols - f.geo.c0)
  let xb := f.xBlock f.geo.c0 n
  let xs := (List.range 64).map fun j => if j < n then some (xb.map fun r => elemD r j {}) else none
  let xr := laneRows false 0 f.len xs
  let keep := f.keepTokens f.geo.c0 n
  let (own, named) := if f.mask = 0 then ([], []) else f.maskOwn
  let srs := named.map Prod.snd
  let mk p : PassIn :=
    { pass := p, steps := denseSteps p false keep rows (xr.map RowCode.codes)
      sc := { a := rows.map RowCode.scale, b := xr.map RowCode.scale, own := own } }
  let ally := present ys rows
  let allx := present xs xr
  let cnt := (((rowCounts ally).join { nonfinite := countIf RowCode.bad allx }).join (f.rowFaults (named.map fun x => (x.1, x.2.hdr)))).join
    { hist := histBins 2 ally ++ histBins 3 allx, zskip := f.len - keep.length
      oor := if f.start = 0 then sumNat (srs.map SlotRow.oor) else 0 }
  { passes := (passList f.wide).map mk, counts := cnt
    poison := anyPoison ys || anyPoison xs || f.factorBad || srs.any SlotRow.poison || cnt.nonfinite != 0
    suspect := srs.any SlotRow.suspect }

/-! ### Sparse forward and input-gradient products -/

/-- One segment's slots of a group (R133). -/
def segment (s m : Nat) (l : List Slot) : List Slot :=
  ((List.range l.length).zip l).filterMap fun p => if p.1 % s = m then some p.2 else none

/-- A frame row's slots of each group of the interval with their regular and excess parts. -/
structure RowGroups where
  groups : List (List Slot × List Slot) := []
  dropped : Nat := 0
  overflow : Bool := false
  deriving Repr, Inhabited

/-- A frame row's groups settled under the layer's policy (R137 to R143). -/
def settleRow (policy : Nat) (hdr : Nat → WRow) (cap : Nat) (groups : List (List Slot)) : RowGroups :=
  let l := groups.map (splitGroup policy hdr cap)
  { groups := l.map fun x => (x.1, x.2.1), dropped := sumNat (l.map fun x => x.2.2)
    overflow := groups.any fun g => decide (cap < g.length) }

/-- The largest number of slots that any frame row presents of a group, regular (`ex` false) or excess. -/
def groupSteps (rows : List RowGroups) (g : Nat) (ex : Bool) : Nat :=
  rows.foldl (fun n r => let x := elemD r.groups g ([], []); max n (if ex then x.2.length else x.1.length)) 0

/-- A slot as a row operand; null where the row has none (R115). -/
def rowSlot (l : List Slot) (s : Nat) : RowOp := match l[s]? with | some x => .slot true x.p x.q | none => .slot false 0 0

/-- The steps of one group: slot s of every row against the group's registers. -/
def slotSteps (rows : List RowGroups) (g n : Nat) (ex : Bool) (cols : List ColOp) : List StepIn :=
  (List.range n).map fun s =>
    { accB := false, cols := cols
      rows := rows.map fun r => let x := elemD r.groups g ([], []); rowSlot (if ex then x.2 else x.1) s }

/-- All steps of a sparse interval: ordinary steps by group, then the overflow pass (R116, R135, R139). -/
def sparseSteps (nm : Nat) (rows : List RowGroups) (gs : List Nat) (cols : Nat → List ColOp) : List StepIn :=
  (gs.flatMap fun g => slotSteps rows g (if nm = 0 then groupSteps rows g false else nm) false (cols g)) ++
  (gs.flatMap fun g => slotSteps rows g (groupSteps rows g true) true (cols g))

/-- Steps of some groups. -/
def stepsOf (nm : Nat) (rows : List RowGroups) (gs : List Nat) (ex : Bool) : Nat :=
  sumNat (gs.map fun g => if ex then groupSteps rows g true else if nm = 0 then groupSteps rows g false else nm)

/-- A lane's group register: eight codes with their correction elements (R117, R170). -/
def groupReg (p : Pass) (codes : List Int) (w : List Int) (g : Nat) : ColOp :=
  let c := (List.range 8).map fun i => codePart p (elemD codes (8 * g + i) 0)
  .group c ((List.range 8).map fun i => elemD c i 0 * elemD w (8 * g + i) 0)

/-- Slots of a weight row as groups of the interval in row view. -/
def rowView (n g0 count : Nat) (sr : SlotRow) : List (List Slot) :=
  (span g0 count).map fun g => (sr.slots.filter fun x => x.2.1 == g).map fun x => ⟨x.1 % 8, x.2.2.1, n, x.2.2.2⟩

/-- A sparse forward or input-gradient interval from its frame rows' groups, streamed rows and correction weights. Overflow and trim
are settled for every group, those of skipped vectors included; excess and steps count where they are presented (assumptions/99). -/
def Feed.sparse (f : Feed) (groups : List (Option (List (List Slot)))) (hdr : Nat → WRow) (named : List (Nat × SlotRow))
    (xs : List (Option (List Elem))) (w : List Int) (fwd : Bool) (rowS : List Word) (rowZ : List Nat) : Built :=
  let srs := named.map Prod.snd
  let cols := laneRows f.wide f.level f.len xs
  let nm := nmOf f.mask
  let rows := groups.map fun g => match g with
    | some g => settleRow f.policy hdr f.geo.cap g
    | none => {}
  let count := ceilDiv f.len 8
  let toks := (tokensAt f.geo.c0 f.t.outCols).filterMap id
  let keep := (List.range count).filter fun g => !(fwd && f.skipVec toks ((f.start + 8 * g) / 32))
  let skip := (List.range count).filter fun g => fwd && f.skipVec toks ((f.start + 8 * g) / 32)
  let mk p : PassIn :=
    { pass := p, steps := sparseSteps nm rows keep fun g => cols.map fun r => groupReg p r.codes w g
      sc := { a := cols.map RowCode.scale, aCols := true, b := rowS, bRows := true, z := rowZ } }
  let ov := rows.any RowGroups.overflow
  let all := present xs cols
  let cnt := ((rowCounts all).join (f.rowFaults (named.map fun x => (x.1, x.2.hdr)))).join
    { hist := histBins (if fwd then 0 else 1) all
      excess := sumNat (rows.map fun r => sumNat (keep.map fun g => (elemD r.groups g ([], [])).2.length))
      ovfSteps := stepsOf nm rows keep true, trimmed := sumNat (rows.map RowGroups.dropped)
      zskip := stepsOf nm rows skip false + stepsOf nm rows skip true, oor := sumNat (srs.map SlotRow.oor) }
  { passes := (passList f.wide).map mk, counts := cnt, opmode := 2
    poison := anyPoison xs || (fwd && f.factorBad) || srs.any SlotRow.poison || cnt.nonfinite != 0
    suspect := srs.any SlotRow.suspect, trap := f.policy == pTRAP && ov }

/-- The sparse forward product of one interval (Table 05-2). -/
def Feed.sparseFwd (f : Feed) : Built :=
  let srs := f.geo.rows.map fun r => r.map fun r => (r, f.slotRow r.1 f.start f.len)
  let groups := srs.map fun x => x.map fun (r, sr) => (rowView r.1 (f.start / 8) (ceilDiv f.len 8) sr).map (segment r.2.1 r.2.2)
  let xs := (tokensAt f.geo.c0 f.t.outCols).map fun t => t.map fun t => f.xRow rCOL t f.start f.len
  let real := srs.filterMap id
  let hdr n := match real.find? fun x => x.1.1 == n with | some x => x.2.hdr | none => {}
  f.sparse groups hdr (onceRows (real.map fun x => (x.1.1, x.2))) xs (List.replicate f.len 1) true
    (srs.map fun x => match x with | some x => x.2.hdr.s | none => 0) (srs.map fun x => match x with | some x => x.2.hdr.z | none => 0)

/-- The column view of position k over the interval's rows (R123): for each block of eight rows the occupied slots at k. -/
def columnView (start : Nat) (rows : List SlotRow) (k : Nat) : List (List Slot) :=
  (blocks 8 rows.length ((List.range rows.length).zip rows)).map fun b => b.filterMap fun (i, sr) =>
    (sr.slots.find? fun x => x.1 == k).map fun x => ⟨i % 8, x.2.2.1, start + i, x.2.2.2⟩

/-- The sparse input-gradient product of one interval. -/
def Feed.sparseDx (f : Feed) : Built :=
  let ks := f.geo.rows.filterMap fun r => r.map Prod.fst
  let k0 := ks.foldl min (ks.headD 0)
  let k1 := ks.foldl max 0
  let srs := (span f.start f.len).map fun n => f.slotRow n (k0 / 8 * 8) (k1 + 1 - k0 / 8 * 8)
  let groups := f.geo.rows.map fun r => r.map fun r => (columnView f.start srs r.1).map (segment r.2.1 r.2.2)
  let hs := srs.map SlotRow.hdr
  let xs := (tokensAt f.geo.c0 f.t.outCols).map fun t => t.map fun t => f.folded rCOL t hs
  f.sparse groups (fun n => elemD hs (n - f.start) {}) ((span f.start f.len).zip srs) xs (hs.map fun h => (h.z : Nat)) false [] []

/-! ### The sampled weight-gradient product -/

/-- The owned slots of a frame row by column lane in pass r (R128, R140): lane j owns rank (j mod c) + r·c of its group. -/
def ownedSlots (cap r : Nat) (groups : List (List Slot)) : List (Option (Nat × Nat)) :=
  (List.range 64).map fun j => ((elemD groups (j / max 1 cap) [])[j % max 1 cap + r * cap]?).map fun s => (s.p, s.rank)

/-- The sampled weight-gradient product of one interval (R127 to R130, R140). -/
def Feed.sampled (f : Feed) : Built :=
  let lanes := laneGroups f.geo
  let kEnd := f.t.outCols
  let k0 := 8 * f.geo.c0
  let n := min (8 * lanes) (kEnd - k0)
  let ys := f.dyRows
  let rows := laneRows f.wide f.level f.len ys
  let xb := f.xBlock k0 n
  let xs := (List.range (8 * lanes)).map fun k => if k < n then some (xb.map fun r => elemD r k {}) else none
  let xr := laneRows false 0 f.len xs
  let keep := f.keepTokens k0 n
  let srs := f.geo.rows.map fun r => r.map fun r => (r, f.slotRow r.1 k0 (8 * lanes))
  let real := srs.filterMap id
  let hdr m := match real.find? fun x => x.1.1 == m with | some x => x.2.hdr | none => {}
  let raw := srs.map fun x => match x with
    | some (r, sr) => (rowView r.1 f.geo.c0 lanes sr).map (segment r.2.1 r.2.2)
    | none => []
  let exact := f.policy == pEXACT
  let settled := raw.map fun gs => if exact then gs else (settleRow f.policy hdr f.geo.cap gs).groups.map Prod.fst
  let ov := raw.any fun gs => gs.any fun g => decide (f.geo.cap < g.length)
  let most := settled.foldl (fun a gs => gs.foldl (fun a g => max a g.length) a) 1
  let ranks := max 1 (ceilDiv most (max 1 f.geo.cap))
  let scale k : Word := (elemD xr k {}).scale
  let regs t : List ColOp := (List.range 64).map fun j =>
    let g := j / max 1 f.geo.cap
    .group ((List.range 8).map fun i => elemD (elemD xr (8 * g + i) {}).codes t 0) []
  let mk r p : PassIn :=
    let own := settled.map (ownedSlots f.geo.cap r)
    let owner := own.map fun o => o.map fun x => x.map Prod.fst
    { pass := p, rank := r
      steps := keep.map fun t => {
        accB := false, sampled := true, owner := owner, cols := regs t
        rows := rows.map fun x => .code (codePart p (elemD x.codes t 0)) 0 }
      sc := { a := rows.map RowCode.scale, own := own
              lane := (List.range 64).map fun j => (List.range 8).map fun i => scale (8 * (j / max 1 f.geo.cap) + i) } }
  let ally := present ys rows
  let allx := present xs xr
  let named := onceRows (real.map fun x => (x.1.1, x.2))
  let all := named.map Prod.snd
  let cnt := (((rowCounts ally).join { nonfinite := countIf RowCode.bad allx }).join (f.rowFaults (named.map fun x => (x.1, x.2.hdr)))).join
    { hist := histBins 2 ally ++ histBins 3 allx, zskip := f.len - keep.length
      oor := if f.start = 0 then sumNat (all.map SlotRow.oor) else 0
      excess := if exact then sumNat (settled.map fun gs => sumNat (gs.map fun g => g.length - f.geo.cap)) else 0
      ovfSteps := (ranks - 1) * f.len
      trimmed := if exact then 0 else sumNat (raw.map fun gs => sumNat (gs.map fun g => g.length - f.geo.cap)) }
  { passes := (List.range ranks).flatMap fun r => (passList f.wide).map (mk r)
    counts := cnt, opmode := 2
    poison := anyPoison ys || anyPoison xs || f.factorBad || all.any SlotRow.poison || cnt.nonfinite != 0
    suspect := all.any SlotRow.suspect, trap := f.policy == pTRAP && ov }

/-- An interval of any product as its frame takes it. -/
def Feed.build (f : Feed) : Built :=
  if f.t.kind = kFWD then (if f.mask = 0 then f.denseFwd else f.sparseFwd)
  else if f.t.kind = kDX then (if f.mask = 0 then f.denseDx else f.sparseDx)
  else if sampledOf f.t f.mask then f.sampled else f.denseDw

end Sys2Proof.Machine
end

