-- ==== Sys2Proof/Machine/Stream.lean ====
section
/-! DEFINITION. Machine/Stream.lean: which bytes a task's streams read, interval by interval, and the rings that hold them:
R57 to R61, R76, R79, R158 to R162, R184, R229, R230, R246, R252 to R254, R258 to R266, R280 to R283, R320, R574. -/

namespace Sys2Proof.Machine

/-! ### Contexts, descriptors and rings -/

/-- A task context. -/
def ctxOf (e : Engine) (c : CombId) (x : Fin 4) : Option Ctx := ((combOf e c).ctxs[x.val]?).getD none

/-- The context that holds a task. -/
def ctxFor (e : Engine) (c : CombId) (task : Nat) : Option (Fin 4 × Ctx) :=
  (allFrames.filterMap fun x => (ctxOf e c x).map fun k => (x, k)).find? fun p => p.2.task == task

/-- A context changed. -/
def onCtx (e : Engine) (c : CombId) (x : Fin 4) (f : Ctx → Ctx) : Engine :=
  onComb e c fun cb => { cb with ctxs := updAt cb.ctxs x.val fun o => o.map f }

/-- Key of a reference's index descriptor among a context's descriptors. -/
def ixKey (role : Nat) : Nat := 16 + role

/-- A context's descriptor for a reference, as re-armed and with its version's address (R274, R574). -/
def descFor (k : Ctx) (role : Nat) : Option Desc := (k.descs.find? fun p => p.1 == role).map Prod.snd

/-- A ring of a comb. -/
def ringOf (e : Engine) (c : CombId) (r : Nat) : Option Ring := ((combOf e c).rings[r]?).getD none

/-- A bound ring changed. -/
def onRing (e : Engine) (c : CombId) (r : Nat) (f : Ring → Ring) : Engine :=
  onComb e c fun cb => { cb with rings := updAt cb.rings r fun o => o.map f }

/-- The references of write streams. -/
def isWriteRole (role : Nat) : Bool := role == rOUT || role == rZOUT

/-- The index streams of a context's write streams changed. -/
def onOuts (i role : Nat) (f : Stream → Stream) (k : Ctx) : Ctx :=
  if k.task = i then { k with outs := updFirst (fun s => s.role == role) f k.outs } else k

/-- A stream of a ring changed, or the index stream of a write stream, which stands in its task's context. -/
def onStream (e : Engine) (c : CombId) (r task role : Nat) (f : Stream → Stream) : Engine :=
  let one (g : Ring) : Ring := { g with streams := updFirst (fun s => s.task == task && s.role == role) f g.streams }
  onComb e c fun cb =>
    if isWriteRole role then { cb with ctxs := cb.ctxs.map fun o => o.map (onOuts task role f) }
    else { cb with rings := updAt cb.rings r fun o => o.map one }

/-- Feeder ring f reads a descriptor's ring, directly or through SHARE (R265). -/
def feederReads (d : Desc) (f : Nat) : Bool := d.ring == f || (decide (d.ring < 8) && bit d.share.toNat f)
/-- The side ring of a frame reads a descriptor's ring, directly or through SHARE bits 0 to 3 (R572). -/
def sideReads (d : Desc) (f : Nat) : Bool := d.ring == 8 + f || (decide (8 ≤ d.ring ∧ d.ring < 12) && bit d.share.toNat f)

/-- The frames on which a product task's tiles may run (R573). -/
def framesFor (k : Ctx) (t : TaskRec) (mask : Nat) : List FrameId :=
  allFrames.filter fun f =>
    (match descFor k rROW, descFor k rCOL with
      | some a, some b => feederReads a (2 * f.val) && feederReads b (2 * f.val + 1)
      | _, _ => false) &&
    (if t.kind = kDW ∧ mask ≠ 0 then (match descFor k rSIDE0 with | some s => sideReads s f.val | none => false) else true)

/-- Slots held and credits of a ring (R261). -/
def ringHeld (g : Ring) : Nat := if g.head.wrap = g.tail.wrap then g.tail.idx - g.head.idx else g.slots - g.head.idx + g.tail.idx
def ringCredits (g : Ring) : Nat := g.slots - ringHeld g

/-- A ring pointer advanced (R261). -/
def ringAdvance (p : RingPtr) (slots : Nat) : RingPtr :=
  if p.idx + 1 = slots then { wrap := !p.wrap, idx := 0 } else { p with idx := p.idx + 1 }

/-! ### Buffers that a stage has not handed on -/

/-- Whether a line lies in the buffer that a handle names. -/
def inBuffer (h : Handle) (line : Nat) : Bool := decide (h.addr < 64 * line + 64 ∧ 64 * line < h.addr + h.len)

/-- Whether a line lies between the first and the last byte that a descriptor can reach. -/
def inExtent (d : Desc) (line : Nat) : Bool :=
  let reach (i : Nat) : Nat := (dSize d i - 1) * dStride d i
  let size := (dSize d 0 * elemBits d.format + 7) / 8 + reach 1 + reach 2 + reach 3 + reach 4
  decide (d.base < 64 * line + 64 ∧ 64 * line < d.base + size)

/-- The comb before one on the comb ring. -/
def combBefore (e : Engine) (c : CombId) : CombId := (((allCombs.filter (· < c)).reverse ++ (allCombs.filter (c < ·)).reverse).find? (enabled e)).getD c

/-- A line is part of an output that a stage of the comb before hands on by its ring queue (CHAIN of 1) and whose handle this comb has not popped:
the consumer waits for it (R278, R271, assumptions/135). Only a stage that was dispatched before the reader counts. -/
def handleDue (e : Engine) (c : CombId) (order line : Nat) : Bool :=
  let b := combBefore e c
  let cb := combOf e b
  let had (task : Nat) : Bool := (combOf e c).buffers.any fun x => x.task == task && inBuffer x.h line
  (cb.chain ++ cb.ringQ).any (fun x => x.dest == 1 && x.part.isNone && inBuffer x.h line) ||
  cb.ctxs.any fun o => match o with
    | none => false
    | some k => match taskOf e k.task with
      | none => false
      | some t => t.record.chain == 1 && decide (k.order < order) && !had k.task &&
          (match descFor k rOUT with | some d => inExtent d line | none => false)

/-! ### What reads a ring line -/

/-- References read once for a whole tile, and not per interval: the side operands and the mask records of R572. -/
def perTile (role : Nat) : Bool := decide (rSIDE0 ≤ role)

/-- The reader of an interval's lines. -/
def readerOf (task role tile start : Nat) : Reader := ⟨task, tile, if perTile role then 0 else start⟩

/-- A reader's lines in a ring. -/
def linesFor (g : Ring) (k : Reader) : List SlotLine := g.lines.filter fun l => decide (k ∈ l.need)

/-- A reader's line has landed. -/
def landedFor (g : Ring) (k : Reader) (line : Nat) : Bool := (linesFor g k).any fun l => l.line == line && l.landed

/-- A reader's line is in the ring, landed or requested. -/
def heldFor (g : Ring) (k : Reader) (line : Nat) : Bool := (linesFor g k).any fun l => l.line == line

/-! ### The carousel -/

/-- Byte offset of a carousel tensor in the image, in table order (text after Table 09-1). -/
def imageOffset (tab : List (Nat × Nat)) (h : Nat) : Nat := sumNat ((tab.takeWhile fun x => x.1 != h).map Prod.snd)

/-- A shard that a comb holds. -/
def shardIn (ca : Carousel) (shard : Nat) : Option Shard :=
  if ca.own.num = shard then some ca.own else ca.extras.find? fun x => x.num == shard

/-- A comb's carousel serves the tiles of a task whose shard it holds at the version that the task reads (R282, R283). -/
def carouselServes (e : Engine) (c : CombId) (t : TaskRec) (slot : Option Nat) : Bool :=
  match e.sch.run, (combOf e c).carousel with
  | some g, some ca =>
    tShard t && !ca.stale &&
    (match shardIn ca t.affinity, indexOf? (fun x => x.1 == t.param) g.carousel, slot with
      | some sh, some i, some s => (sh.versions[i]?) == some s
      | _, _, _ => false)
  | _, _ => false

/-- Where a task's weight records lie in the shard that its comb's carousel holds: the place in the shard of an address. -/
def carouselAt (e : Engine) (c : CombId) (t : TaskRec) (slot : Option Nat) (a : Nat) : Option (Shard × Nat) :=
  if !carouselServes e c t slot then none
  else match e.sch.run, (combOf e c).carousel, verOf e t.param with
  | some g, some ca, some v =>
    let base := elemD v.codes (slot.getD 0) 0
    let len := ((g.carousel.find? fun x => x.1 == t.param).map Prod.snd).getD 0
    let lo := g.hdr.shardBytes * t.affinity
    let o := imageOffset g.carousel t.param + (a - base)
    if base ≤ a ∧ a < base + len ∧ lo ≤ o ∧ o < lo + g.hdr.shardBytes then (shardIn ca t.affinity).map fun x => (x, o - lo) else none
  | _, _, _ => none

/-- A byte of a task's weight records as its comb's carousel holds it. -/
def carouselByte (e : Engine) (c : CombId) (t : TaskRec) (slot : Option Nat) (a : Nat) : Option Byte :=
  (carouselAt e c t slot a).bind fun x => x.1.bytes[x.2]?

/-- The mark of the shard line that holds an address. -/
def carouselMark (e : Engine) (c : CombId) (t : TaskRec) (slot : Option Nat) (a : Nat) : Option Bool :=
  (carouselAt e c t slot a).map fun x => decide (x.2 / 64 ∈ x.1.bad)

/-- A view with the carousel's bytes laid over it. -/
def carouselView (e : Engine) (c : CombId) (t : TaskRec) (slot : Option Nat) (v : View) : View where
  byte a := (carouselByte e c t slot a).getD (v.byte a)
  mark n :=
    match carouselMark e c t slot (64 * n), carouselMark e c t slot (64 * n + 63) with
    | some a, some b => a || b
    | some a, none => a || v.mark n
    | none, some b => b || v.mark n
    | none, none => v.mark n

/-! ### The feed of one interval -/

/-- The layer's mask mode of a task. -/
def maskOf (e : Engine) (t : TaskRec) : Nat := layMask (layerOf e t)

/-- A stream of a ring by its task and reference. -/
def streamOf (g : Ring) (task role : Nat) : Option Stream := g.streams.find? fun s => s.task == task && s.role == role

/-- The stream of a reference: of a ring, or the index stream of a write stream. -/
def streamIn (e : Engine) (c : CombId) (r task role : Nat) : Option Stream :=
  if isWriteRole role then (ctxFor e c task).bind fun p => p.2.outs.find? fun s => s.role == role
  else (ringOf e c r).bind fun g => streamOf g task role

/-- The index stream of a reference: values that its stream has taken from its index buffer (R254), those not taken yet as memory holds
them. -/
def ixOf (m : Mem) (e : Engine) (c : CombId) (k : Ctx) (role : Nat) : IxSrc :=
  match descFor k role, descFor k (ixKey role) with
  | some d, some ix =>
    let taken := match streamIn e c d.ring k.task role with | some s => s.taken | none => []
    { elems := dElems ix
      val := fun p => match taken.find? fun x => x.1 == p with | some x => x.2 | none => indexVal e (memView m e) ix p }
  | _, _ => {}

/-- What a reference reads for one interval: the landed lines of its ring over memory, and, where it carries the weight records,
the carousel over them and the fill value where a row lies at no address. -/
def roleView (m : Mem) (e : Engine) (c : CombId) (k : Ctx) (t : TaskRec) (slot : Option Nat) (tile start role : Nat) : View :=
  let v := match (descFor k role).bind fun d => ringOf e c d.ring with
    | some g => ringView m e g (readerOf k.task role tile start)
    | none => memView m e
  if role = weightRole t (maskOf e t) then fillView ((descFor k role).getD default) (carouselView e c t slot v) else v

/-- The expected epoch that a task's rows are compared with (R349, R350): none without a version table entry. -/
def expectedOf (e : Engine) (t : TaskRec) (slot : Option Nat) : Option (Option Nat) :=
  (verOf e t.param).map fun v => elemD v.epochs (slot.getD v.current) none

/-- The sampled registers of the running graph. -/
def samplesOf (e : Engine) : Samples := match e.sch.run with | some g => g.samples | none => {}

/-- The reference that carries X. -/
def xRole (t : TaskRec) (mask : Nat) : Nat := if t.kind = kFWD then streamRole t mask else rCOL

/-- The reference with whose lines the smoothing factors come (R184): X, or the folded dY's of the input gradient. -/
def smoothRole (t : TaskRec) (mask : Nat) : Nat := if t.kind = kDX then streamRole t mask else xRole t mask

/-- The scale bank that holds a tile's rows, in whichever frame runs it (R165). -/
def bankOf (e : Engine) (c : CombId) (task tile : Nat) : Option ScaleBank :=
  (combOf e c).frames.findSome? fun fr => (fr.banks.filterMap id).find? fun b => b.task == task && b.tile == tile

/-- The smoothing factors held for an interval or, in the input gradient, for a tile (R184). -/
def smoothOf (e : Engine) (c : CombId) (task tile base : Nat) : Option SmoothHeld :=
  (combOf e c).frames.findSome? fun fr => fr.smooth.find? fun s => s.task == task && s.tile == tile && s.base == base

/-- The interval that factors serve: all of a tile's in the input gradient. -/
def smoothBase (t : TaskRec) (base : Nat) : Nat := if t.kind = kDX then 0 else base

/-- The start of a tile's first interval: its resume offset (R317, R318). -/
def tileStart (tk : Task) (tile : Nat) : Nat := lookupD tk.offsets tile 0

/-- Where a tile's first interval starts and how long its intervals are, as judged before its first fetch (R160). -/
def cutOf (k : Ctx) (tile : Nat) : Option (Nat × Nat) := (k.cuts.find? fun p => p.1 == tile).map Prod.snd

/-- The start of a tile's first interval in its comb. -/
def resumeAt (e : Engine) (k : Ctx) (tile : Nat) : Nat :=
  match cutOf k tile, taskOf e k.task with
  | some p, _ => p.1
  | none, some tk => tileStart tk tile
  | none, none => 0

/-- The feed of an interval of a tile in a comb. -/
def feedOf (m : Mem) (e : Engine) (c : CombId) (k : Ctx) (t : TaskRec) (map : List Byte) (tile : Nat) (p : Part)
    (wide : Bool) : Feed :=
  let lay := layerOf e t
  let mask := maskOf e t
  let slot := (taskOf e k.task).bind Task.slotPin
  let factors := smoothOf e c k.task tile (smoothBase t p.base)
  let fv := roleView m e c k t slot tile p.base (smoothRole t mask)
  let first := resumeAt e k tile
  let zg := (descFor k rZIN).bind fun d => ringOf e c d.ring
  { e := e, t := t, mask := mask, xform := layXform lay, policy := layPolicy lay
    smooth := fun i => match factors with | some h => lookupD h.vals i 0 | none => w32 (fv.nat (laySmooth lay + 4 * i) 4)
    factorBad := match factors with | some h => h.poison | none => false
    held := if t.kind = kFWD then (match bankOf e c k.task tile with | some b => b.rows | none => []) else []
    zok := fun l => match zg with | some g => landedFor g (readerOf k.task rZIN tile p.base) l | none => true
    first := first
    hview := if t.kind = kFWD ∧ p.start ≠ first then some (roleView m e c k t slot tile first (weightRole t mask)) else none
    geo := geoOf map t mask tile, start := p.start, len := p.len, level := p.level, wide := wide
    minScale := minScaleOf (samplesOf e).fmtCtrl.toNat, expected := expectedOf e t slot
    desc := fun r => (descFor k r).getD default
    view := roleView m e c k t slot tile p.base
    ix := ixOf m e c k
    zmap := (tRef t rZIN).isSome }

/-! ### The lines that an interval needs -/

/-- What an interval needs of one reference: lines in stream order, whether they are all known, index positions used,
out-of-bounds accesses, and for each block that it begins off a 64-byte boundary the first line that it reads of it (R57, R58). -/
structure Need where
  lines : List Nat := []
  known : Bool := true
  positions : List Nat := []
  clamped : Nat := 0
  filled : Nat := 0
  misaligned : List Nat := []
  deriving Repr, Inhabited

/-- The lines that n bits from a bit address touch. -/
def bitLines (b n : Nat) : List Nat := linesOf (b / 8) ((b % 8 + n + 7) / 8)

/-- A list without its repeats in a row. -/
def runs (l : List Nat) : List Nat :=
  (l.foldl (fun acc a => match acc with | b :: _ => if a = b then acc else a :: acc | [] => [a]) []).reverse

/-- An access list as a need: an element of n bits at each. -/
def needOf (acc : List Access) (n : Nat) (positions : List Nat) : Need :=
  { lines := dedup (runs (acc.flatMap fun a => match a.loc with | .bitAt b => bitLines b n | .fill _ => []))
    positions := dedup (runs positions), clamped := sumNat (acc.map Access.clamped), filled := sumNat (acc.map Access.filled)
    misaligned := (dedup (runs (acc.filterMap Access.block))).filterMap fun b => if b % 64 != 0 then some (lineOf b) else none }

/-- Needs joined, the first one's lines ahead. -/
def Need.join (a b : Need) : Need :=
  { lines := dedup (a.lines ++ b.lines), known := a.known && b.known, positions := dedup (a.positions ++ b.positions)
    clamped := a.clamped + b.clamped, filled := a.filled + b.filled, misaligned := a.misaligned ++ b.misaligned }

/-- Tokens and channels in the order in which a descriptor's stream walks them: dimension 0 innermost (R246). -/
def walkOrder (d : Desc) (ts cs : List Nat) (keep : Nat → Nat → Bool) : List (Nat × Nat) :=
  if d.layout = lCV32T then cs.flatMap fun c => ts.filterMap fun t => if keep t c then some (t, c) else none
  else ts.flatMap fun t => cs.filterMap fun c => if keep t c then some (t, c) else none

/-- The blocks that the tokens and channels given begin off a 64-byte boundary, each by the first line that is read of it: a zero map may
skip the block's own first vectors (R58, R76). -/
def firstLines (f : Feed) (d : Desc) (ix : IxSrc) (ts cs : List Nat) (keep : Nat → Nat → Bool) : List Nat :=
  let t := d.layout == lCV32T
  let inner := if t then ts else cs
  if !inner.contains 0 then []
  else (if t then cs else ts).filterMap fun o =>
    let at_ (i : Nat) : Option Access := if t then actAccess f.e ix d i o else actAccess f.e ix d o i
    let bit_ (a : Access) : Option Nat := match a.loc with | .bitAt b => some (b / 8) | .fill _ => none
    match (at_ 0).bind bit_, inner.find? fun i => if t then keep i o else keep o i with
    | some b, some i => if b % 64 = 0 then none else ((at_ i).bind bit_).map lineOf
    | _, _ => none

/-- The activation or gradient elements (t, c) that a reference reads, of the tokens and channels given. -/
def needElems (f : Feed) (role : Nat) (ts cs : List Nat) (keep : Nat → Nat → Bool) : Need :=
  let d := f.desc role
  let ix := f.ix role
  let tcs := walkOrder d ts cs keep
  let n := needOf (tcs.filterMap fun x => actAccess f.e ix d x.1 x.2) (elemBits d.format)
    (if d.indexEn then tcs.filterMap fun x => let i := tcIndex d x.1 x.2; if isPad d ix.elems i.1 then none else some (ixPos d ix.elems i.1 i.2) else [])
  { n with misaligned := firstLines f d ix ts cs keep }

/-- Elements of a plain array (R246). -/
def needFlat (f : Feed) (role : Nat) (is : List Nat) : Need :=
  let d := f.desc role
  let ix := f.ix role
  needOf (is.map (locateFlat f.e d ix)) (elemBits d.format) (if d.indexEn then is.map (ixPosFlat d ix.elems) else [])

/-- The zero-map bits of vectors vs of tokens ts. -/
def needBits (f : Feed) (ts vs : List Nat) : Need :=
  let d := f.desc rZIN
  let ix := f.ix rZIN
  needOf (ts.flatMap fun t => vs.map fun v => locate f.e d ix false v t) 1
    (if d.indexEn then ts.flatMap fun t => vs.map fun v => ixPos d ix.elems v t else [])

/-- Whether an interval's feeder reads row headers: a forward tile's come with its first interval (R165). -/
def Feed.readsHeaders (f : Feed) : Bool := f.t.kind != kFWD || f.start == f.first

/-- The lines of weight row n's record that positions k0 to k0+len-1 need, and whether they are all known; what a line
holds is known once it has landed (R61, R69). A forward tile's headers come with its first interval (R165). -/
def rowNeed (f : Feed) (landed : Nat → Bool) (n k0 len : Nat) : Access × List Nat × Bool :=
  let role := weightRole f.t f.mask
  let a := rowAddr f.e f.mask (f.desc role) (f.ix role) n
  match a.loc with
  | .fill _ => (a, [], true)
  | .bitAt b =>
    let addr := b / 8
    let d := f.desc role
    let hl := if f.readsHeaders then linesOf addr (recordWithin f.mask d 8) else []
    if !hl.all landed then (a, hl, false)
    else
      let r := f.wrow n
      if f.mask = 3 then
        match freeNeed (recordView f.e f.mask d addr (f.view role)) r (rowK f.t f.mask) (freeRegion d) k0 len with
        | none => (a, hl, true)
        | some (i0, i1) =>
          let w := 4 + codeBits r
          let lo := 8 + i0 * w / 8
          let hi := 8 + ceilDiv ((i1 + 1) * w) 8
          let a := if recordWithin f.mask d hi < hi then (if clamps f.e then { a with clamped := 1 } else { a with filled := 1 }) else a
          let ls := linesOf (addr + min lo (dSize d 0 - 1)) (recordWithin f.mask d hi - min lo (dSize d 0 - 1))
          let seen := ls.takeWhile landed
          (a, dedup (hl ++ seen ++ (ls.drop seen.length).take 1), seen.length == ls.length)
      else
        let kEnd := rowK f.t f.mask
        let n' := min (k0 + len) (if f.mask = 0 then kEnd else ceilDiv kEnd 8 * 8) - k0
        let sp := rowSpan f.mask r.wide k0 n'
        (a, dedup (hl ++ (if n' = 0 then [] else linesOf (addr + sp.1) sp.2)), true)

/-- The weight rows that an interval reads and the positions it takes of each. -/
def weightRows (f : Feed) : List Nat × Nat × Nat :=
  let carried := dedup (f.geo.rows.filterMap fun r => r.map Prod.fst)
  if f.t.kind = kFWD then
    if f.mask = 0 then ((span f.geo.c0 64).filter (· < f.t.outCols), f.start, f.len) else (carried, f.start, f.len)
  else if f.t.kind = kDX then
    if f.mask = 0 then (span f.start f.len, f.geo.c0, min 64 (f.t.outCols - f.geo.c0))
    else
      let k0 := carried.foldl min (carried.headD 0) / 8 * 8
      (span f.start f.len, k0, carried.foldl max 0 + 1 - k0)
  else if sampledOf f.t f.mask then (carried, 8 * f.geo.c0, 8 * laneGroups f.geo)
  else (carried, f.geo.c0, 64)

/-- Rows in stream order up to the first whose lines are not all known (R262). -/
def knownRows : List (Access × List Nat × Bool) → List (Access × List Nat × Bool)
  | [] => []
  | x :: l => if x.2.2 then x :: knownRows l else [x]

/-- What the weight records of an interval need, row after row. An out-of-bounds row is one access for each interval that reads
it (assumptions/100). -/
def needRows (f : Feed) (landed : Nat → Bool) : Need :=
  let role := weightRole f.t f.mask
  let d := f.desc role
  let (ns, k0, len) := weightRows f
  let l := ns.map fun n => rowNeed f landed n k0 len
  { lines := dedup ((knownRows l).flatMap fun x => x.2.1), known := l.all fun x => x.2.2
    positions := if d.indexEn then ns.map (ixPos d (f.ix role).elems 0) else []
    clamped := sumNat (l.map fun x => x.1.clamped), filled := sumNat (l.map fun x => x.1.filled)
    misaligned := (if f.readsHeaders then l else []).filterMap fun x => match x.1.block with
      | some b => if b % 64 != 0 then some (lineOf b) else none
      | none => none }

/-- Tokens and channels of X that an interval reads. -/
def xElems (f : Feed) : List Nat × List Nat :=
  if f.t.kind = kFWD then
    (if f.mask = 0 then f.geo.rows.filterMap fun r => r.map Prod.fst else (tokensAt f.geo.c0 f.t.outCols).filterMap id, span f.start f.len)
  else
    let k0 := if sampledOf f.t f.mask then 8 * f.geo.c0 else f.geo.c0
    let n := min (if sampledOf f.t f.mask then 8 * laneGroups f.geo else 64) (f.t.outCols - k0)
    (span f.start f.len, span k0 n)

/-- Tokens and channels of dY that an interval reads. -/
def yElems (f : Feed) : List Nat × List Nat :=
  let rows := f.geo.rows.filterMap fun r => r.map Prod.fst
  if f.t.kind = kDX then (if f.mask = 0 then rows else (tokensAt f.geo.c0 f.t.outCols).filterMap id, span f.start f.len)
  else (span f.start f.len, rows)

/-- The channels whose smoothing factors an interval needs (R184): those of its X, or a tile's output channels in the input
gradient. -/
def smoothChans (f : Feed) : List Nat :=
  if f.xform ≠ xSMOOTH then []
  else if f.t.kind ≠ kDX then (xElems f).2
  else if f.mask = 0 then (span f.geo.c0 64).filter (· < f.t.outCols)
  else dedup (f.geo.rows.filterMap fun r => r.map Prod.fst)

/-- Address of a channel's smoothing factor (R183). -/
def factorAt (f : Feed) (k : Nat) : Nat := laySmooth (layerOf f.e f.t) + 4 * k

/-- The lines of the smoothing factors that come with a reference (R184). -/
def needFactors (f : Feed) (role : Nat) : Need :=
  if role ≠ smoothRole f.t f.mask ∨ (f.t.kind = kDX ∧ f.start ≠ f.first) then {}
  else { lines := dedup (runs ((smoothChans f).flatMap fun k => linesOf (factorAt f k) 4)) }

/-- Tokens and vectors whose zero-map bits an interval reads. -/
def zVectors (f : Feed) : List Nat × List Nat := let x := xElems f; (x.1, dedup (runs (x.2.map fun k => k / 32)))

/-- X of an interval: a vector whose zero-map bit is set is not read (R76), so the bits must have landed first. -/
def needX (f : Feed) (role : Nat) : Need :=
  let x := xElems f
  if f.zmap && !((needBits f (zVectors f).1 (zVectors f).2).lines.all f.zok) then { known := false }
  else needElems f role x.1 x.2 fun t c => !f.zbit t (c / 32)

/-- What the side operands of a row reduction need for a tile (R230): y or x̂, ρ by token, γ by channel. -/
def needSide (f : Feed) (role : Nat) : Need :=
  let rows := f.geo.rows.filterMap fun r => r.map Prod.fst
  let cols := (span f.geo.c0 64).filter (· < f.t.outCols)
  let (ts, cs) := if f.mask = 0 then (rows, cols) else (cols, rows)
  let cs := dedup (cs.filter (· < f.t.rowLen))
  if role = rSIDE0 then needElems f role ts cs fun _ _ => true
  else needFlat f role (if role = rSIDE1 then dedup ts else cs)

/-- Rows and channels of the logits (R320). -/
def logitsSize (d : Desc) : Nat × Nat := (32, if d.layout = lCV32T then dSize d 1 else dSize d 0)

/-- What an operand of a drain-only or SELECT task needs (R229, R320). -/
def needPlain (f : Feed) (role : Nat) : Need :=
  if f.t.kind = kSELECT then
    let n := logitsSize (f.desc role)
    needElems f role (List.range n.1) (List.range n.2) fun _ _ => true
  else if role = rROW ∨ role = rSIDE0 then needElems f role (List.range f.t.outRows) (List.range f.t.rowLen) fun _ _ => true
  else needFlat f role (List.range (if role = rSIDE1 then f.t.outRows else f.t.rowLen))

/-- What a reference of a task needs for one interval, or for a drain-only or SELECT task as a whole. -/
def needFor (f : Feed) (role : Nat) (landed : Nat → Bool) : Need :=
  if !isProduct f.t then needPlain f role
  else if role = weightRole f.t f.mask ∧ (f.t.kind ≠ kDW ∨ f.mask ≠ 0) then needRows f landed
  else if role = rZIN then needBits f (zVectors f).1 (zVectors f).2
  else if perTile role then needSide f role
  else if role = xRole f.t f.mask ∧ f.t.kind ≠ kDX then (needX f role).join (needFactors f role)
  else (needElems f role (yElems f).1 (yElems f).2 fun _ _ => true).join (needFactors f role)

/-! ### Interval lengths -/

/-- The staging interval length that a record asks for (R158, Table 06-1). -/
def ilenOf (t : TaskRec) : Nat :=
  if t.ilen = 0 then (if t.kind = kDW then 256 else min 4096 (ceilDiv t.redLen 64 * 64)) else 64 * min t.ilen 64

/-- Distinct lines of byte runs (address, length) that rise. -/
def runLines (rs : List (Nat × Nat)) : Nat :=
  (rs.foldl (fun (acc : Nat × Option Nat) r =>
    if r.2 = 0 then acc
    else
      let lo := lineOf r.1
      let hi := lineOf (r.1 + r.2 - 1)
      (acc.1 + (hi + 1 - lo) - (if acc.2 = some lo then 1 else 0), some hi)) (0, none)).1

/-- Lines of runs of n bytes at outer places that an index stream chooses: nothing but their number is known. -/
def looseLines (outer n : Nat) : Nat := outer * (ceilDiv n 64 + 1)

/-- Lines of an operand whose runs start at index i0 of dimension 0, n of its elements at each outer place (R160). -/
def denseLines (f : Feed) (role i0 n : Nat) (outer : List Nat) : Nat :=
  let d := f.desc role
  let bytes := ceilDiv (n * elemBits d.format) 8
  if d.indexEn then (if d.indexDim = 0 then outer.length * n else looseLines outer.length bytes)
  else runLines (outer.map fun o => match (locate f.e d {} true 0 o).loc with
    | .bitAt b => (b / 8 + i0 * elemBits d.format / 8, ceilDiv (i0 * elemBits d.format % 8 + n * elemBits d.format) 8)
    | .fill _ => (0, 0))

/-- Lines of an interval's weight records (R160): exact in a dense or NM row whose place is known, one record for each position and
the end record in a FREE row, but never more than the rows' regions. -/
def recordLines (f : Feed) (role : Nat) : Nat :=
  let d := f.desc role
  let (ns, k0, n) := weightRows f
  let wide := d.format == fW8
  let header := f.readsHeaders
  let free := min (freeRegion d) (8 + payloadLen 3 wide 0 (n + 1))
  let sp := rowSpan f.mask wide k0 n
  if f.mask = 3 then
    if d.indexEn then ns.length * (ceilDiv free 64 + 1)
    else
      let rows := ns.filterMap fun n => match (rowAddr f.e f.mask d {} n).loc with | .bitAt b => some (b / 8) | .fill _ => none
      if k0 = 0 then runLines (rows.map fun a => (a, free))
      else min (rows.length * (ceilDiv free 64 + 1)) (runLines (rows.map fun a => (a, freeRegion d)))
  else if d.indexEn then ns.length * (ceilDiv sp.2 64 + 1 + (if header && k0 != 0 then 1 else 0))
  else runLines (ns.flatMap fun n => match (rowAddr f.e f.mask d {} n).loc with
    | .bitAt b => (if header then [(b / 8, 8)] else []) ++ [(b / 8 + sp.1, sp.2)]
    | .fill _ => [])

/-- The bound of R160 on the lines that a reference needs for the feed's interval: nothing of it depends on data. The X groups of a sampled
product count in full, also past the tensor's last channel. -/
def boundLines (f : Feed) (role : Nat) : Nat :=
  let flat (d : Desc) (ts cs : List Nat) : Nat :=
    let (inner, outer) := if d.layout = lCV32T then (ts, cs) else (cs, ts)
    denseLines f role (inner.headD 0) (inner.foldl max 0 + 1 - inner.headD 0) (dedup outer)
  if role = weightRole f.t f.mask ∧ (f.t.kind ≠ kDW ∨ f.mask ≠ 0) then recordLines f role
  else if role = rZIN then (let z := zVectors f; denseLines f role (z.2.headD 0) z.2.length (dedup z.1))
  else
    let x := if role = xRole f.t f.mask ∧ f.t.kind ≠ kDX then
        (if sampledOf f.t f.mask then ((xElems f).1, span (8 * f.geo.c0) (8 * laneGroups f.geo)) else xElems f)
      else yElems f
    flat (f.desc role) x.1 x.2 + (needFactors f role).lines.length

/-- The references whose lines an interval's feeders read. -/
def feederRoles (f : Feed) : List Nat :=
  [rROW, rCOL] ++ (if f.zmap && f.t.kind != kDX then [rZIN] else []) ++ (if f.t.kind = kDW ∧ f.mask ≠ 0 then [rSIDE0] else [])

/-- Whether an interval fits in the rings of both feeders (R160). -/
def intervalFits (c : CombId) (k : Ctx) (f : Feed) : Bool :=
  (List.range 12).all fun r =>
    let mine := (feederRoles f).filter fun x => match descFor k x with | some d => d.ring == r | none => false
    mine.isEmpty || decide (sumNat (mine.map (boundLines f)) ≤
      Config.slotLines * (match ringOf f.e c r with | some g => g.slots | none => 0))

/-- Whether every interval of a tile fits when it is cut at `len` from its start (R159, R160). -/
def lenFits (c : CombId) (k : Ctx) (f : Feed) (len : Nat) : Bool :=
  (List.range (max 1 (ceilDiv (f.t.redLen - f.start) len))).all fun i =>
    let s := f.start + i * len
    intervalFits c k { f with start := s, len := min len (f.t.redLen - s) }

/-- Every ring that a task's references name is bound, so that a tile can be judged (R260). -/
def ringsKnown (e : Engine) (c : CombId) (k : Ctx) (roles : List Nat) : Bool :=
  roles.all fun r => match descFor k r with | some d => (ringOf e c d.ring).isSome | none => true

/-- The interval length that a tile is judged to have (R160): the record's, or the largest multiple of 64 that fits; none where
not even 64 do. -/
def judgeLen (m : Mem) (e : Engine) (c : CombId) (k : Ctx) (t : TaskRec) (map : List Byte) (tile : Nat) : Option Nat :=
  let want := ilenOf t
  let s := resumeAt e k tile
  let f := feedOf m e c k t map tile { base := s, start := s, len := 0 } false
  ((List.range 64).map fun i => 64 * (64 - i)).find? fun l => decide (l ≤ max want 64) && lenFits c k f l

/-- The interval length of a tile: as judged before its first fetch, or as it would be judged now. -/
def tileLen (m : Mem) (e : Engine) (c : CombId) (k : Ctx) (t : TaskRec) (map : List Byte) (tile : Nat) : Option Nat :=
  match cutOf k tile with
  | some p => some p.2
  | none => judgeLen m e c k t map tile

/-- A tile judged: its cut is kept in its context (R160). -/
def keepCut (m : Mem) (e : Engine) (c : CombId) (x : Fin 4) (k : Ctx) (t : TaskRec) (map : List Byte) (tile : Nat) : Engine :=
  match cutOf k tile, judgeLen m e c k t map tile with
  | none, some l => onCtx e c x fun k => { k with cuts := k.cuts ++ [(tile, resumeAt e k tile, l)] }
  | _, _ => e

/-- Intervals of a tile from an offset (R159, R318). -/
def cutParts (start red len : Nat) : (fuel : Nat) → List Part
  | 0 => []
  | n + 1 =>
    if red ≤ start then []
    else { base := start, start := start, len := min len (red - start) } :: cutParts (start + len) red len n

/-! ### Filling a ring -/

/-- The references that have streams of their own in a product task. -/
def streamRoles (t : TaskRec) : List Nat :=
  [rROW, rCOL, rZIN, rSIDE0, rSIDE1, rSIDE2].filter fun r => (tRef t r).isSome && !(r == rZIN && t.kind == kDX)

/-- The references of a task that name rings of its comb. -/
def ringRoles (t : TaskRec) : List Nat :=
  if isProduct t then streamRoles t
  else if t.kind = kDRAIN then [rROW, rSIDE0, rSIDE1, rSIDE2].filter fun r => (tRef t r).isSome
  else if t.kind = kSELECT then [rSIDE0].filter fun r => (tRef t r).isSome
  else []

/-- Tiles that a task's streams walk: a drain-only or SELECT task's operands are one. -/
def streamTiles (t : TaskRec) (mask : Nat) : Nat := if isProduct t then tileCount t mask else 1

/-- A line that is in the ring for another reader of the task joins this one's data without a request (R265, assumptions/131). -/
def coalesce (g : Ring) (k : Reader) (line : Nat) : Option Ring :=
  let same (l : SlotLine) : Bool := l.line == line && l.need.any fun x => x.task == k.task
  if g.lines.any same then some { g with lines := updFirst same (fun l => { l with need := l.need ++ [k] }) g.lines }
  else none

/-- A new line at the ring's tail, where a slot is open or a credit is free (R261, R262). -/
def appendLine (g : Ring) (k : Reader) (role line : Nat) : Option Ring :=
  let l slot : SlotLine := { ser := g.nextSer, slot := slot, line := line, role := role, need := [k], by_ := some k }
  if g.tailCount < Config.slotLines then
    let s := if g.tail.idx = 0 then g.slots - 1 else g.tail.idx - 1
    some { g with lines := g.lines ++ [l s], tailCount := g.tailCount + 1, nextSer := g.nextSer + 1 }
  else if 0 < ringCredits g then
    some { g with lines := g.lines ++ [l g.tail.idx], tailCount := 1, nextSer := g.nextSer + 1, tail := ringAdvance g.tail g.slots }
  else none

/-- A slot at HEAD can be released: every line of it has landed and no interval still needs one, and it is not being
filled (R162, R263). -/
def headFree (g : Ring) : Bool :=
  decide (0 < ringHeld g) &&
  (g.lines.all fun l => l.slot != g.head.idx || (l.landed && l.need.isEmpty)) &&
  !(decide (g.tailCount < Config.slotLines) && g.head.idx == (if g.tail.idx = 0 then g.slots - 1 else g.tail.idx - 1))

/-- HEAD advances over released slots (R263). -/
def advanceHead : (fuel : Nat) → Ring → Ring
  | 0, g => g
  | n + 1, g =>
    if headFree g then
      advanceHead n { g with lines := g.lines.filter (fun l => l.slot != g.head.idx), head := ringAdvance g.head g.slots }
    else g

/-- A stream of a ring whose lines a line is among: the one that fetched it. -/
def ownsLine (s : Stream) (l : SlotLine) : Bool := s.role == l.role && l.need.any fun k => k.task == s.task

/-- The stream that fetches a line. -/
def lineStream (g : Ring) (l : SlotLine) : Option Stream := g.streams.find? fun s => ownsLine s l

/-- The first line of a ring, or of an index buffer of its streams, that faulted and has not landed: the line, its stream, and whether it
is an index line. -/
def faultLine (g : Ring) : Option (SlotLine × Stream × Bool) :=
  match g.lines.find? fun l => !l.asked && !l.landed with
  | some l => some (l, (lineStream g l).getD default, false)
  | none => (g.streams.findSome? fun s => (s.index.find? fun l => !l.asked && !l.landed).map fun l => (l, s)).map fun p => (p.1, p.2, true)

/-- A ring after readers or streams have left it: lines that nothing reads and that no request is out for are gone, and a ring none of whose
lines is left to fault is parked no more (R286). -/
def settleRing (g : Ring) : Ring :=
  let g := { g with lines := g.lines.filter fun l => l.landed || l.asked || !l.need.isEmpty }
  if (faultLine g).isSome then g else { g with parked := false, event := none }

/-- A reader dropped from a ring's lines, and the slots that this frees released. -/
def dropReader (k : Reader) (g : Ring) : Ring :=
  advanceHead 8 { g with lines := g.lines.map fun l => { l with need := l.need.filter (· ≠ k) } }

/-- Every reader of a tile dropped. -/
def dropTile (task tile : Nat) (g : Ring) : Ring :=
  advanceHead 8 { g with lines := g.lines.map fun l => { l with need := l.need.filter fun k => !(k.task == task && k.tile == tile) } }

/-- An interval's slots released in every feeder ring (R162). -/
def releaseInterval (e : Engine) (c : CombId) (k : Reader) : Engine :=
  (List.range 8).foldl (fun e r => onRing e c r (dropReader k)) e

/-- Everything that a tile held in its comb's rings released. -/
def releaseTile (e : Engine) (c : CombId) (task tile : Nat) : Engine :=
  (List.range 12).foldl (fun e r => onRing e c r (dropTile task tile)) e

/-- Whether a part of a tile reads a reference's lines as landed and complete (R161). -/
def roleReady (e : Engine) (c : CombId) (k : Ctx) (f : Feed) (tile base role : Nat) : Bool :=
  match descFor k role with
  | none => true
  | some d =>
    match ringOf e c d.ring with
    | none => false
    | some g =>
      let key := readerOf k.task role tile base
      let carried (l : Nat) : Bool := role == weightRole f.t f.mask &&
        (carouselByte e c f.t ((taskOf e k.task).bind Task.slotPin) (64 * l)).isSome
      let landed l := landedFor g key l || carried l
      let n := needFor f role landed
      let ixOk := match descFor k (ixKey role), streamOf g k.task role with
        | some _, some s => n.positions.all fun p => s.taken.any fun x => x.1 == p
        | some _, none => false
        | none, _ => true
      n.known && ixOk && n.lines.all landed

/-- References that a frame's row feeder and column feeder take an interval from. -/
def rowRoles (t : TaskRec) (mask : Nat) : List Nat :=
  [rROW] ++ (if t.kind = kFWD ∧ mask = 0 then [rZIN] else []) ++ (if t.kind = kDW ∧ mask ≠ 0 then [rSIDE0] else [])
def colRoles (t : TaskRec) (mask : Nat) : List Nat :=
  [rCOL] ++ (if t.kind = kDX ∨ (t.kind = kFWD ∧ mask = 0) then [] else [rZIN])

/-- A reader consumes those of its lines that `p` picks (R268): each line counts once, in the window of the stream that fetched it. -/
def consumeWhen (p : SlotLine → Bool) (k : Reader) (g : Ring) : Ring :=
  let fresh := (linesFor g k).filter fun l => p l && !l.used
  { g with
    lines := g.lines.map fun l => if k ∈ l.need ∧ p l then { l with used := true } else l
    streams := g.streams.map fun s =>
      let n := 64 * countIf (ownsLine s) fresh
      { s with tte := { s.tte with waiting := s.tte.waiting - n, now := s.tte.now + n, frozen := s.tte.frozen && n == 0 } } }

/-- A reader consumes its lines (R268). -/
def consumeLines (k : Reader) (g : Ring) : Ring := consumeWhen (fun _ => true) k g

end Sys2Proof.Machine
end

