-- ==== Sys2Proof/Machine/Drain.lean ====
section
/-! DEFINITION. Machine/Drain.lean: what the drain unit computes and stores: correction and de-quantisation (R167 to R175),
brood adds (R130, R155, R195, R203), running tile and merge (R136, R172), inverse transform (R181 to R183), row reductions
(R227 to R234), conversion and store (R29 to R33, R56, R75, R221, R571). -/

namespace Sys2Proof.Machine

/-! ### De-quantisation -/

/-- Whether a task stores its product through OUT; a weight gradient with a brood destination does not (text after R298). -/
def storing (t : TaskRec) : Bool := t.kind != kDW || t.dst == 0

/-- Frame cell of place x of read-out line r. -/
def lineCell (dirCols : Bool) (r x : Nat) : Nat × Nat := if dirCols then (x, r) else (r, x)

/-- The value of frame cell (i, j) among read-out lines. -/
def cellOf {α : Type} (dirCols : Bool) (ls : List (List α)) (i j : Nat) (d : α) : α :=
  if dirCols then elemD (elemD ls j []) i d else elemD (elemD ls i []) j d

/-- The correction term K of Table 06-3. -/
def corrTerm (t : TaskRec) (mask : Nat) (sc : Scales) (i j : Nat) (corr : Int) : Int :=
  if t.kind = kDW then 0
  else if mask = 0 then (if t.kind = kFWD then (elemD sc.z j 0 : Nat) * elemD sc.rsum i 0 else elemD sc.rsum i 0)
  else if t.kind = kFWD then (elemD sc.z i 0 : Nat) * corr
  else corr

/-- The corrected integers of an attempt by read-out line (R171 step 1). -/
def corrected (dirCols : Bool) (t : TaskRec) (mask : Nat) (a : Attempt) : List (List Int) :=
  (List.range 64).map fun r =>
    let l := elemD a.reads r default
    (List.range 64).map fun x =>
      let p := lineCell dirCols r x
      (elemD l.vals x 0).toInt - corrTerm t mask a.sc p.1 p.2 (elemD l.corr x 0).toInt

/-- The two passes of S16 combined (R174). -/
def widen16 (high low : List (List Int)) : List (List Int) :=
  (List.range 64).map fun r => (List.range 64).map fun x => 256 * elemD (elemD high r []) x 0 + elemD (elemD low r []) x 0

/-- The scale factor b of a cell, none where it is 1 (Table 06-3). -/
def factorB (sc : Scales) (i j : Nat) : Option Word :=
  if !sc.lane.isEmpty then
    some (match elemD (elemD sc.own i []) j none with | some o => elemD (elemD sc.lane j []) o.1 0 | none => 0)
  else if sc.b.isEmpty then none
  else some (elemD sc.b (if sc.bRows then i else j) 0)

/-- De-quantised values by read-out line (R171 steps 2 to 4). -/
def dequant (dirCols : Bool) (sc : Scales) (cs : List (List Int)) : List (List Word) :=
  (List.range 64).map fun r => (List.range 64).map fun x =>
    let p := lineCell dirCols r x
    let a := elemD sc.a (if sc.aCols then p.2 else p.1) 0
    fMul (fOfInt (elemD (elemD cs r []) x 0)) (match factorB sc p.1 p.2 with | none => a | some b => fMul a b)

/-! ### Adds into brood regions -/

/-- What a weight row is to a frame row of a tile: row, segments, segment. -/
def rowAt (g : Geo) (i : Nat) : Option (Nat × Nat × Nat) := elemD g.rows i none

/-- Element of a region for weight row n, position k, rank in the row (Table 07-2). -/
def regionIndex (m : Mem) (e : Engine) (h n k rank width : Nat) : Nat :=
  match regionOf e h with
  | none => 0
  | some r =>
    if r.layout = 0 then n * r.rowLen + k
    else if r.layout = 1 then n * r.rowLen + rank
    else if r.layout = 2 then viewNat m e (r.rowStart + 4 * n) 4 + rank
    else n * width + k

/-- The committed passes of one interval: values by line, with each pass's scales. -/
abbrev Values := List (List (List Word) × Scales)

/-- The mask positions that a cell's values belong to: (position k, rank, value) for each pass; in a dense product every
position, on a mask step only mask positions (R155). -/
def cellVals (t : TaskRec) (mask : Nat) (g : Geo) (vs : Values) (i j : Nat) : List (Nat × Nat × Word) :=
  vs.filterMap fun v =>
    let w := cellOf false v.1 i j 0
    if sampledOf t mask then
      (elemD (elemD v.2.own i []) j none).map fun o => (8 * (g.c0 + j / max 1 g.cap) + o.1, o.2, w)
    else
      let k := g.c0 + j
      if t.outCols ≤ k then none
      else if mask = 0 then some (k, k, w)
      else (elemD (elemD v.2.own i []) j none).map fun o => (k, o.2, w)

/-- The masked-out value of a mask-step cell (R155): position and value. -/
def cellOut (t : TaskRec) (mask : Nat) (g : Geo) (vs : Values) (i j : Nat) : Option (Nat × Word) :=
  match vs with
  | v :: _ =>
    let k := g.c0 + j
    if mask ≠ 0 ∧ !sampledOf t mask ∧ k < t.outCols ∧ (elemD (elemD v.2.own i []) j none).isNone then some (k, cellOf false v.1 i j 0)
    else none
  | [] => none

/-- φ of a factor code (Table 06-8). -/
def phi (rho z qmax : Nat) : Word :=
  if rho = 0x80 then fOfInt (-(z : Int))
  else if rho = 0x7F then fOfInt ((qmax : Int) - z)
  else fDivNat (fOfInt (toSigned 8 rho)) 128

/-- The argument record of the graph's update of a tensor (Table 10-1): the first UPDATE or MASK record that names it. -/
def updArgOf (m : Mem) (e : Engine) (h : Nat) : Option UpdArg :=
  match e.sch.run with
  | none => none
  | some g => (List.range g.hdr.tasks).findSome? fun j =>
      let t := parseTask g.hdr (viewBytes m e (g.hdr.taskBase + 128 * j) 128)
      if (t.kind = kUPDATE ∨ t.kind = kMASK) ∧ t.param = h then some (parseUpd (viewBytes m e t.arg.toNat 128)) else none

/-- CODE_PITCH and FACTOR_PITCH of a tensor (Table 10-1), free where no update of the graph names them (assumptions/16). -/
def planePitch (m : Mem) (e : Engine) (f : Feed) : Nat × Nat :=
  match updArgOf m e f.t.param with
  | some u => (u.codePitch, u.factorPitch)
  | none => (8 * Config.freeCodePitch (rowK f.t f.mask), 64 * Config.freeFactorPitch (rowK f.t f.mask))

/-- Row n's zero point and largest code, and the address of its factors (R193). -/
def factorRow (m : Mem) (e : Engine) (f : Feed) (v : VerEntry) (slot n : Nat) : Nat × Nat × Nat :=
  let pitch := planePitch m e f
  let plane := elemD v.factors slot 0 + pitch.2 * n
  if f.mask = 0 then
    let rowAddr' := elemD v.codes slot 0 + pitch.1 * n
    (viewNat m e (rowAddr' + 4) 1, if bit (viewNat m e (rowAddr' + 5) 1) 0 then 255 else 15, plane)
  else
    let h := f.wrow n
    (h.z, if h.wide then 255 else 15, plane)

/-- The scale-gradient partial sum of weight row n over a tile (R195), and whether a factor line is poisoned. -/
def scaleSum (m : Mem) (e : Engine) (f : Feed) (v : VerEntry) (slot n : Nat) (vs : Values) : Word × Bool :=
  let (z, qmax, plane) := factorRow m e f v slot n
  let cells := (List.range 64).flatMap fun j => (List.range 64).flatMap fun i =>
    match rowAt f.geo i with
    | some r => if r.1 = n then cellVals f.t f.mask f.geo vs i j else []
    | none => []
  cells.foldl (fun acc c =>
    let a := plane + c.2.1
    (fAdd acc.1 (fMul c.2.2 (phi (viewNat m e a 1) z qmax)), acc.2 || viewPoison m e (lineOf a % 2 ^ 46))) (0, false)

/-- The adds of each read-out line of a committed weight-gradient interval (R130, R155, R195), and whether a factor line
poisons them. -/
def gradAdds (m : Mem) (e : Engine) (f : Feed) (slot : Nat) (vs : Values) : List (List (Nat × Nat × Word)) × Bool :=
  let t := f.t
  let K := t.outCols
  let rows := f.geo.rows
  let main := (List.range 64).map fun i =>
    match rowAt f.geo i with
    | none => []
    | some (n, _, _) =>
      ((List.range 64).flatMap fun j =>
        (if t.dst = 0 then [] else (cellVals t f.mask f.geo vs i j).map fun x => (t.dst, regionIndex m e t.dst n x.1 x.2.1 K, x.2.2)) ++
        (match cellOut t f.mask f.geo vs i j with | some (k, w) => [(t.aux1, n * K + k, w)] | none => []))
  match tScaleGrad t, verOf e t.param with
  | true, some v =>
    let sums := (List.range 64).map fun i =>
      match rowAt f.geo i with
      | none => none
      | some (n, _, _) => if rows.findIdx (fun (x : Option (Nat × Nat × Nat)) => (x.map Prod.fst) == some n) = i then some (n, scaleSum m e f v slot n vs) else none
    ((main.zip sums).map fun p => p.1 ++ (match p.2 with | some (n, w, _) => [(t.aux0, n, w)] | none => []),
      sums.any fun s => match s with | some (_, _, b) => b | none => false)
  | _, _ => (main, false)

/-! ### The finished tile -/

/-- T + v by read-out line; an interval without rows adds nothing (R153, R172). -/
def addTile (running rows : List (List Word)) : List (List Word) :=
  if rows.isEmpty then running
  else (List.range 64).map fun r => (List.range 64).map fun x => fAdd (elemD (elemD running r []) x 0) (elemD (elemD rows r []) x 0)

/-- The output element (token or weight row, channel) of frame cell (i, j), where it lies inside the output (Table 04-3, R95). -/
def outCoord (f : Feed) (i j : Nat) : Option (Nat × Nat) :=
  match rowAt f.geo i with
  | none => none
  | some (r, _, _) =>
    let k := f.geo.c0 + j
    if f.t.outCols ≤ k then none
    else if f.mask ≠ 0 ∧ f.t.kind ≠ kDW then some (k, r) else some (r, k)

/-- A cell's finished value: its running-tile value, or the merged segments of a split line at the line's first segment,
none at the others (R136). -/
def mergedVal (dirCols : Bool) (f : Feed) (tile : List (List Word)) (i j : Nat) : Option Word :=
  match rowAt f.geo i with
  | none => none
  | some (r, s, seg) =>
    if s ≤ 1 then some (cellOf dirCols tile i j 0)
    else if seg ≠ 0 then none
    else some ((List.range s).foldl (fun acc q =>
      match f.geo.rows.findIdx? (fun x => x == some (r, s, q)) with
      | some i' => fAdd acc (cellOf dirCols tile i' j 0)
      | none => acc) 0)

/-- The finished tile by read-out line as (token or row, channel, value), before any epilogue. -/
def finished (dirCols : Bool) (f : Feed) (tile : List (List Word)) : List (List (Nat × Nat × Word)) :=
  (List.range 64).map fun r => (List.range 64).filterMap fun x =>
    let p := lineCell dirCols r x
    match outCoord f p.1 p.2, mergedVal dirCols f tile p.1 p.2 with
    | some o, some w => some (o.1, o.2, w)
    | _, _ => none

/-- Value of element (t, c) of a finished tile. -/
def tileVal (ls : List (List (Nat × Nat × Word))) (t c : Nat) : Option Word :=
  (ls.flatten.find? fun x => x.1 == t && x.2.1 == c).map fun x => x.2.2

/-- The inverse transform of dX along k (Table 06-6, R182, R183): each aligned block, absent channels as zeros. -/
def inverse (f : Feed) (ls : List (List (Nat × Nat × Word))) : List (List (Nat × Nat × Word)) :=
  if f.t.kind ≠ kDX ∨ f.xform = 0 then ls
  else if f.xform = xSMOOTH then ls.map fun l => l.map fun x => (x.1, x.2.1, fMul x.2.2 (f.smooth x.2.1))
  else
    let b := hadBlock f.xform
    ls.map fun l => l.map fun x =>
      let k0 := x.2.1 / b * b
      let v := (span k0 b).map fun k => (tileVal ls x.1 k).getD 0
      (x.1, x.2.1, elemD (hadamard b v) (x.2.1 - k0) 0)

/-! ### Row reductions -/

/-- A side operand element as F32, with its line's poison. -/
def sideVal (f : Feed) (role i0 : Nat) : Word × Bool :=
  let d := f.desc role
  match (locateFlat f.e d (f.ix role) i0).loc with
  | .bitAt b => (widen d.format ((f.view role).bitsAt b (elemBits d.format)), (f.view role).mark (lineOf (b / 8)))
  | .fill p => (widen d.format d.fill.toNat, p)

/-- One token row of a reduction: channel, d, y or x̂, γ (1 where no gain is named), with poison or a non-finite input. -/
structure RedRow where
  t : Nat
  xs : List (Nat × Word × Word × Option Word)
  rho : Word
  bad : Bool
  deriving Repr, Inhabited

/-- Inputs of a token row, channels below C in ascending order (R227, R230). -/
def redRow (f : Feed) (tok : Nat) (ds : List (Nat × Word × Bool)) : RedRow :=
  let ds := sortBy (fun a b => decide (a.1 < b.1)) (ds.filter fun x => decide (x.1 < f.t.rowLen))
  let side c := actElem f.e (f.view rSIDE0) (f.ix rSIDE0) (f.desc rSIDE0) tok c
  let norm := (tRef f.t rSIDE1).isSome
  let gain := (tRef f.t rSIDE2).isSome
  let rho := if norm then sideVal f rSIDE1 tok else (0, false)
  let xs := ds.map fun x => (x.1, x.2.1, (side x.1).w, if gain then some (sideVal f rSIDE2 x.1).1 else none)
  { t := tok, xs := xs, rho := rho.1
    bad := rho.2 || fBad rho.1 || ds.any (fun x => x.2.2 || fBad x.2.1) ||
      ds.any (fun x => (side x.1).poison || fBad (side x.1).w) ||
      (gain && ds.any fun x => let g := sideVal f rSIDE2 x.1; g.2 || fBad g.1) }

/-- σ_t (R231). -/
def sigmaOf (r : RedRow) : Word := r.xs.foldl (fun a x => fAdd a (fMul x.2.2.1 x.2.1)) 0
/-- dx of a soft-maximum row (R231). -/
def smaxDx (r : RedRow) (sigma : Word) : List (Nat × Word) := r.xs.map fun x => (x.1, fMul x.2.2.1 (fSub x.2.1 sigma))
/-- g of a normalisation element (R232). -/
def gainOf (x : Nat × Word × Word × Option Word) : Word := match x.2.2.2 with | some g => fMul x.2.1 g | none => x.2.1
/-- α_t and β_t (R232). -/
def alphaOf (r : RedRow) : Word := r.xs.foldl (fun a x => fAdd a (gainOf x)) 0
def betaOf (r : RedRow) : Word := r.xs.foldl (fun a x => fAdd a (fMul (gainOf x) x.2.2.1)) 0
/-- dx of a normalisation row (R232). -/
def normDx (r : RedRow) (c : Nat) (alpha beta : Word) : List (Nat × Word) :=
  let m1 := fDivNat alpha c
  let m2 := fDivNat beta c
  r.xs.map fun x => (x.1, fMul r.rho (fSub (fSub (gainOf x) m1) (fMul x.2.2.1 m2)))

/-- A line after its epilogue: stored elements, adds, and whether its outputs are poisoned. -/
structure LineOut where
  elems : List (Nat × Nat × Word) := []
  adds : List (Nat × Nat × Word) := []
  poison : Bool := false
  deriving Repr, Inhabited

/-- Elements of a line replaced channel by channel. -/
def replaceVals (l : List (Nat × Nat × Word)) (vs : List (Nat × Word)) : List (Nat × Nat × Word) :=
  l.map fun x => match vs.find? fun v => v.1 == x.2.1 with | some v => (x.1, x.2.1, v.2) | none => x

/-- The epilogues of product tasks on one token row (Table 07-3, R231, R232, R234). -/
def epilogueRow (f : Feed) (l : List (Nat × Nat × Word)) : LineOut :=
  match l with
  | [] => {}
  | x :: _ =>
    let r := redRow f x.1 (l.map fun y => (y.2.1, y.2.2, false))
    let code := f.t.epilogue
    if code = 1 then { elems := replaceVals l (smaxDx r (sigmaOf r)), poison := r.bad }
    else if code = 2 then { elems := l, adds := [(f.t.dst, r.t, sigmaOf r)], poison := r.bad }
    else if code = 3 then { elems := replaceVals l (normDx r f.t.rowLen (alphaOf r) (betaOf r)), poison := r.bad }
    else
      { elems := replaceVals l (r.xs.map fun x => (x.1, gainOf x))
        adds := [(f.t.dst, 2 * r.t, alphaOf r), (f.t.dst, 2 * r.t + 1, betaOf r)], poison := r.bad }

/-- dγ and dβ of a normalisation tile (R233): one add for each channel below C, tokens ascending. -/
def gainAdds (f : Feed) (ls : List (List (Nat × Nat × Word))) : List (Nat × Nat × Word) :=
  let toks := sortBy (fun a b => decide (a.1 < b.1)) (ls.filterMap fun l => l.head?.map fun x => (x.1, l))
  let chans := dedup (ls.flatten.filterMap fun x => if x.2.1 < f.t.rowLen then some x.2.1 else none)
  let d (l : List (Nat × Nat × Word)) c := ((l.find? fun x => x.2.1 == c).map fun x => x.2.2).getD 0
  let xh t c := (actElem f.e (f.view rSIDE0) (f.ix rSIDE0) (f.desc rSIDE0) t c).w
  if f.t.epilogue ≠ 3 ∧ f.t.epilogue ≠ 4 then []
  else chans.flatMap fun c =>
    (if f.t.aux0 = 0 then [] else [(f.t.aux0, c, toks.foldl (fun a x => fAdd a (fMul (d x.2 c) (xh x.1 c))) 0)]) ++
    (if f.t.aux1 = 0 then [] else [(f.t.aux1, c, toks.foldl (fun a x => fAdd a (d x.2 c)) 0)])

/-- The tile as its lines leave the drain unit: merged, inverse-transformed, reduced (R136, R172, R231, R232, R234). A poisoned line of
smoothing factors poisons all of it. -/
def tileLines (dirCols : Bool) (f : Feed) (tile : List (List Word)) : List LineOut :=
  let ls := inverse f (finished dirCols f tile)
  let bad := f.t.kind == kDX && f.xform == xSMOOTH && f.factorBad
  if f.t.epilogue = 0 then ls.map fun l => { elems := l, poison := bad }
  else ls.map fun l => let o := epilogueRow f l; { o with poison := o.poison || bad }

/-- The parameter gradients of a tile (R233) with whether a row of it poisons them (R234). -/
def tileGains (dirCols : Bool) (f : Feed) (tile : List (List Word)) : List (Nat × Nat × Word) × Bool :=
  let ls := inverse f (finished dirCols f tile)
  if f.t.epilogue = 0 then ([], false)
  else (gainAdds f ls, (tileLines dirCols f tile).any LineOut.poison)

/-! ### Conversion and store -/

/-- An element's bits in the output format (R29, R31), with whether it is a NaN or an infinity (R30). -/
def convert (e : Engine) (t : TaskRec) (fmt addr : Nat) (w : Word) : Nat × Bool :=
  if fmt = fF16 then let b := f32ToF16 w; (b, badF16 b)
  else if fmt = fBF16 then
    let s := samplesOf e
    let b := if tSr t && bit s.fmtCtrl.toNat 0 then
        f32ToBF16Stochastic (srBits s.srSeed.toNat t.step addr % 2 ^ 16) w
      else f32ToBF16 w
    (b, badBF16 b)
  else (w.toNat, fBad w)

/-- One element of a store: address, bytes, non-finite; none where it is dropped. With the out-of-bounds counts and whether a
poisoned index value dropped it (R79, R254). -/
structure OutElem where
  bytes : List (Nat × Byte) := []
  bad : Bool := false
  clamped : Nat := 0
  filled : Nat := 0
  dropped : Bool := false
  block : Option Nat := none
  deriving Repr, Inhabited

/-- A store of one element at indices i0, i1. -/
def outElem (e : Engine) (t : TaskRec) (d : Desc) (ix : IxSrc) (pad : Bool) (i0 i1 : Nat) (w : Word) : OutElem :=
  let a := locate e d ix pad i0 i1
  match a.loc with
  | .fill p => { filled := a.filled, dropped := p }
  | .bitAt b =>
    let addr := b / 8
    let (v, bad) := convert e t d.format addr w
    { bytes := (List.range (elemBits d.format / 8)).zip (leBytes (elemBits d.format / 8) v) |>.map fun p => (addr + p.1, p.2)
      bad := bad, clamped := a.clamped, block := a.block }

/-- An element (token, channel) of the output; channels beyond SIZE0 of a LINEAR tensor and pad are not written (R56, R571). -/
def outAt (e : Engine) (t : TaskRec) (d : Desc) (ix : IxSrc) (x : Nat × Nat × Word) : Option OutElem :=
  let (i0, i1) := tcIndex d x.1 x.2.1
  if isPad d ix.elems i0 then none else some (outElem e t d ix false i0 i1 x.2.2)

/-- +0 for the pad of each last vector that a line stores into (R56); where an index stream places the elements of dimension 0 there is none. -/
def padElems (e : Engine) (d : Desc) (ix : IxSrc) (l : List (Nat × Nat × Word)) : List OutElem :=
  let s := dSize d 0
  if (d.layout ≠ lCV32 ∧ d.layout ≠ lCV32T) ∨ s % 32 = 0 ∨ (d.indexEn ∧ d.indexDim = 0) then []
  else
    let outer := dedup (l.filterMap fun x =>
      let (i0, i1) := tcIndex d x.1 x.2.1
      if i0 < s ∧ i0 / 32 = (s - 1) / 32 then some i1 else none)
    outer.flatMap fun i1 => (span s (ceilDiv s 32 * 32 - s)).map fun i0 =>
      let a := locate e d ix false 0 i1
      match a.loc with
      | .fill _ => {}
      | .bitAt b =>
        let addr := b / 8 + i0 * (elemBits d.format / 8)
        { bytes := (List.range (elemBits d.format / 8)).map fun i => (addr + i, 0) }

/-- The bytes of a store by memory line, with each line's non-finite mark, lines in the order they are met. -/
def groupLines (os : List OutElem) : List (Nat × List (Nat × Byte) × Bool) :=
  let ls := dedup (os.flatMap fun o => o.bytes.map fun b => b.1 % 2 ^ 52 / 64)
  ls.map fun l =>
    (l, (os.flatMap fun o => o.bytes.filterMap fun b => if b.1 % 2 ^ 52 / 64 = l then some (b.1 % 64, b.2) else none),
      os.any fun o => o.bad && o.bytes.any fun b => b.1 % 2 ^ 52 / 64 == l)

/-- The latest byte at each offset, offsets rising (R82). -/
def lastBytes (bs : List (Nat × Byte)) : List (Nat × Byte) :=
  (List.range 64).filterMap fun o => (bs.reverse.find? fun b => b.1 == o).map fun b => (o, b.2)

/-- The act-store layer tag, depth and micro-batch of a KEEP line (R221, R222). -/
def actDepth (e : Engine) : Nat :=
  match e.sch.run with
  | some g => if g.hdr.actDepth = 0 then e.boot.cfg.actDepth else g.hdr.actDepth
  | none => 4

/-- One memory line written by a comb's drain unit, kept where the record says so (R221, R416). -/
def storeLine (m : Mem) (e : Engine) (c : CombId) (x : Fin 4) (task : Nat) (t : TaskRec) (line : Nat) (bs : List (Nat × Byte))
    (p : Bool) : Engine :=
  let e := sendLine e (.comb c x task) line (lastBytes bs) p
  let e := if p then bumpComb e c .linesOut 1 else e
  if tKeep t then
    let d := viewLine m e line
    keepLine e c (actDepth e) { addr := 64 * line, data := d, check := crc32c d, poison := viewPoison m e line, mb := t.mb, layer := t.layer }
  else e

/-- A vector's 32 stored elements are all ±0 and no line of it is poisoned (R75). -/
def zeroVector (m : Mem) (e : Engine) (addr : Nat) : Bool :=
  (List.range 32).all (fun i => viewNat m e (addr + 2 * i) 2 % 2 ^ 15 == 0) &&
  (linesOf addr 64).all fun l => !viewPoison m e (l % 2 ^ 46)

/-- A bit of memory written, its byte's others kept. -/
def sendBit (m : Mem) (e : Engine) (who : Writer) (b : Nat) (on poison : Bool) : Engine :=
  let old := (viewByte m e (b / 8)).toNat
  let new := old - at' (b2n (bit old (b % 8))) (b % 8) + at' (b2n on) (b % 8)
  sendLine e who (lineOf (b / 8)) [(b / 8 % 64, BitVec.ofNat 8 new)] poison

/-- The bits that follow the last vector's in a zero-map row: they are written 0 (R74). -/
def zmapTail (z : Desc) : Nat := let v := dSize z 0; ceilDiv v 64 * 64 - v

/-- The zero-map bits of the vectors that a line stored into (R74, R75), with their out-of-bounds accesses (R79, R81), the
misaligned rows that they begin (R58) and writes that a poisoned index value drops (R254). -/
def storeZmap (m : Mem) (e : Engine) (c : CombId) (x : Fin 4) (task : Nat) (d z : Desc) (ix zx : IxSrc)
    (l : List (Nat × Nat × Word)) : Engine :=
  if d.layout ≠ lCV32 ∨ d.format ≠ fF16 then e
  else
    let poison := match taskOf e task with | some t => t.poisonIn | none => false
    (dedup (l.filterMap fun y => if y.2.1 < dSize d 0 then some (y.1, y.2.1 / 32) else none)).foldl (fun e v =>
      let zt := locate e z zx false v.2 v.1
      let e := bumpComb (bumpComb e c .oobClamped zt.clamped) c .oobFilled zt.filled
      let e := match zt.block with | some b => bumpComb e c .misaligned (b2n (b % 64 != 0)) | none => e
      match (locate e d ix false (32 * v.2) v.1).loc, zt.loc with
      | .bitAt a, .bitAt b =>
        let e := sendBit m e (.comb c x task) b (zeroVector m e (a / 8)) poison
        if v.2 + 1 = dSize z 0 then (List.range (zmapTail z)).foldl (fun e i => sendBit m e (.comb c x task) (b + 1 + i) false poison) e
        else e
      | _, .fill true => poisonEvent (markOut e task) c.val codeHalted
      | _, _ => e) e

/-- The index positions that lines of an output use of a write reference's index stream: OUT's, or the zero map's, one bit for a vector
(R252, R254, R75). -/
def outPositions (k : Ctx) (role : Nat) (l : List (Nat × Nat × Word)) : List Nat :=
  match descFor k rOUT, descFor k role, descFor k (ixKey role) with
  | some d, some w, some ix =>
    let n := dElems ix
    if role = rZOUT then
      (if d.layout ≠ lCV32 ∨ d.format ≠ fF16 then [] else dedup (l.filterMap fun y =>
        if y.2.1 < dSize d 0 then some (ixPos w n (y.2.1 / 32) y.1) else none))
    else dedup (l.filterMap fun y =>
      let i := tcIndex d y.1 y.2.1
      if isPad d n i.1 then none else some (ixPos d n i.1 i.2))
  | _, _, _ => []

/-- The index values that lines of an output use have been taken from their buffers (R254). -/
def outHere (k : Ctx) (l : List (Nat × Nat × Word)) : Bool :=
  k.outs.all fun s => (outPositions k s.role l).all fun p => s.taken.any fun x => x.1 == p

/-- One output line converted and stored; `poison` covers all its lines. The index values that place it have been taken before (R254). -/
def storeOut (m : Mem) (e : Engine) (c : CombId) (x : Fin 4) (k : Ctx) (t : TaskRec) (l : List (Nat × Nat × Word)) (poison : Bool) :
    Engine :=
  match descFor k rOUT with
  | none => e
  | some d =>
    let ix := ixOf m e c k rOUT
    let os := l.filterMap (outAt e t d ix)
    let e := bumpComb e c .oobClamped (sumNat (os.map OutElem.clamped))
    let e := bumpComb e c .oobFilled (sumNat (os.map OutElem.filled))
    let e := bumpComb e c .misaligned (countIf (fun b => b % 64 != 0) (dedup (os.filterMap OutElem.block)))
    let ls := groupLines (os ++ padElems e d ix l)
    let new := !poison && (ls.any (fun y => y.2.2) || os.any OutElem.dropped)
    let e := ls.foldl (fun e y => storeLine m e c x k.task t y.1 y.2.1 (poison || y.2.2)) e
    let e := if (poison && !ls.isEmpty) || new then poisonEvent (markOut e k.task) c.val codeHalted else e
    match descFor k rZOUT with
    | some z =>
      storeZmap m e c x k.task d z ix (ixOf m e c k rZOUT) l
    | none => e

/-! ### Handing adds over -/

/-- The regions that a line of adds names. -/
def addHandles (adds : List (Nat × Nat × Word)) : List Nat := dedup (adds.map Prod.fst)

/-- The entry that carries one line's adds into a spilled region to the capping unit (R214, Table 08-8). -/
def spillEntry (e : Engine) (c : CombId) (t : TaskRec) (task tile reach row h : Nat) (adds : List (Nat × Word))
    (poison ends last waited : Bool) : HandleEntry :=
  let r := (regionOf e h).getD default
  let first := adds.foldl (fun a x => min a x.1) ((adds.head?.map Prod.fst).getD 0)
  { h := { addr := r.accAddr + 4 * first, len := 4 * adds.length, tag := BitVec.ofNat 16 (if r.scratch then t.mb else r.bucket)
           poison := poison, last := ends && last, onchip := false, src := BitVec.ofNat 8 c.val }
    region := h, task := task, tile := tile, reach := reach, row := row, adds := adds, ends := ends, waited := waited }

/-- The accumulator lines of a region that adds fall in. -/
def addedLines (adds : List (Nat × Word)) : Nat := (dedup (adds.map fun a => a.1 / 16)).length

/-- The adds of one line handed to their regions: resident ones are made, spilled ones queue for the capping unit; `brood` poisons the
resident ones alone (R405, R407), `ends` marks
the interval's last line, `last` the task's last tile (Table 08-8), `waited` a row whose wait has been counted (R209). -/
def handAdds (e : Engine) (c : CombId) (t : TaskRec) (task tile reach row : Nat) (adds : List (Nat × Nat × Word))
    (poison brood ends last waited : Bool) : Engine :=
  let hs := addHandles adds
  let part h := (adds.filter fun a => a.1 == h).map Prod.snd
  let e := hs.foldl (fun e h => if spilled e h then e else addRow e c h t.step task (part h) (poison || brood)) e
  let sp := hs.filter (spilled e)
  let e := bumpComb e c .linesOut (if poison then sumNat (sp.map fun h => addedLines (part h)) else 0)
  sp.foldl (fun e h => onComb e c fun cb => { cb with chain := cb.chain ++
    [spillEntry e c t task tile reach row h (part h) poison (ends && sp.getLast? == some h) last waited] }) e

/-- An add of the line must wait for a read-out (R209). -/
def addsWait (e : Engine) (step : Nat) (adds : List (Nat × Nat × Word)) : Bool :=
  (addHandles adds).any fun h => !spilled e h && addWaits e h step

end Sys2Proof.Machine
end

