-- ==== Sys2Proof/Machine/LinkPort.lean ====
section
/-! DEFINITION. Machine/LinkPort.lean: a link port by itself: training and the waggle exchange (R367 to R371, R456 to R458),
flits and their CRC (R372), sequencing and resending (R374), credits (R376), reduction groups and their control messages (R377), and a
bucket's read-out as a fence meets it (R394). -/

namespace Sys2Proof.Machine

/-! ### Flits -/

/-- A flit's header and payload (Table 11-4). -/
def flitBody (f : Flit) : List Byte :=
  leBytes 2 f.tag.toNat ++ leBytes 4 f.offset.toNat ++ [f.hopRank, f.kind] ++ leBytes 4 f.step.toNat ++ [f.attempt, f.group] ++
    leBytes 2 f.lseq.toNat ++ takeBytes f.payload 0 256

/-- The flit with its CRC (R372). -/
def sealFlit (f : Flit) : Flit := { f with crc := crc32c (flitBody f) }

/-- The flit with its CRC inverted (R375). -/
def stompFlit (f : Flit) : Flit := { f with crc := ~~~(crc32c (flitBody f)) }

/-- The CRC holds. -/
def crcGood (f : Flit) : Bool := f.crc == crc32c (flitBody f)

/-- KIND's fields: the kind, the POISON bit. -/
def flitKind (f : Flit) : Nat := f.kind.toNat % 8
def flitPoison (f : Flit) : Bool := bit f.kind.toNat 3

/-- KIND of a flit of a kind on a port that runs a version; 1 before one is negotiated. -/
def kindByte (kind : Nat) (poison : Bool) (version : Nat) : Byte :=
  BitVec.ofNat 8 (kind + 8 * b2n poison + 16 * (if version = 0 then 1 else version))

/-- Kinds of Table 11-4. -/
def kFull : Nat := 0
def kSign : Nat := 1
def kResult : Nat := 2
def kControl : Nat := 3

/-- Opcodes of control flits (R372); CAPS, ACCEPT and READY as R371 and assumptions/51 give them. -/
def opCaps : Nat := 0x01
def opAccept : Nat := 0x02
def opReady : Nat := 0x03
def opOk : Nat := 0x10
def opFail : Nat := 0x11
def opSeal : Nat := 0x12
def opRepeat : Nat := 0x13
def opAbandon : Nat := 0x14
def opJoin : Nat := 0x15
def opGo : Nat := 0x16
def opAck : Nat := 0x30
def opNak : Nat := 0x31
def opCredit : Nat := 0x32

/-- Fields of a control payload (R372). -/
def msgOp (f : Flit) : Nat := field f.payload 0 1
def msgTag (f : Flit) : Nat := field f.payload 2 2
def msgStep (f : Flit) : Nat := field f.payload 4 4
def msgAttempt (f : Flit) : Nat := field f.payload 8 1
def msgReason (f : Flit) : Nat := field f.payload 9 1
def msgLseq (f : Flit) : BitVec 16 := BitVec.ofNat 16 (field f.payload 10 2)
def msgGen (f : Flit) : Nat := field f.payload 12 4

/-- A payload of 256 bytes, zero after those given (R371, R372). -/
def pad256 (bs : List Byte) : List Byte := takeBytes bs 0 256

/-- An ACK or NAK that names an LSEQ (R374). -/
def seqFlit (op version : Nat) (lseq : BitVec 16) : Flit :=
  { tag := 0, offset := 0, hopRank := 0, kind := kindByte kControl false version, step := 0, attempt := 0, group := 0, lseq := 0
    payload := pad256 (leBytes 10 op ++ leBytes 2 lseq.toNat), crc := 0 }

/-- A CREDIT with the running totals of channels 0 to 2, modulo 2^16 (R376; the layout within bytes 16 to 23, assumptions/52). -/
def creditFlit (version g0 g1 : Nat) : Flit :=
  { tag := 0, offset := 0, hopRank := 0, kind := kindByte kControl false version, step := 0, attempt := 0, group := 0, lseq := 0
    payload := pad256 (leBytes 16 opCredit ++ leBytes 2 g0 ++ leBytes 2 g1 ++ leBytes 4 0), crc := 0 }

/-- A waggle message (R371). -/
def waggleFlit (bs : List Byte) : Flit :=
  { tag := 0, offset := 0, hopRank := 0, kind := kindByte kControl false 1, step := 0, attempt := 0, group := 0, lseq := 0
    payload := pad256 bs, crc := 0 }

/-! ### The port's settings -/

/-- The link group island of a port. -/
def linkIsland (p : PortId) : Nat := 51 + p.val / 6

/-- The port is clocked and its outputs are not held: its island runs, and the engine is not in NAP or HIBERNATE nor under pad
hold (R559, R562). -/
def linkOn (e : Engine) (p : PortId) : Bool := awake e && !e.pwr.padHold && (islandOf e (linkIsland p)).started

/-- The port's island also has its clock, so that it sends and its timers end (R17, R544). -/
def linkRuns (e : Engine) (p : PortId) : Bool := linkOn e p && !(islandOf e (linkIsland p)).stopped

/-- The port may train: enabled by fuse and by ENABLE (R368). -/
def portOn (e : Engine) (p : PortId) : Bool := portFuseOn e p && bit (rwVal e (.portCtrl p)) 0 && e.boot.cfg.hasLink

/-- MAX_VER of the port: the lower of the port's limit and LNK_PORT_CTRL, where 0 is sampled as 3 (R367, R371). -/
def maxVer (e : Engine) (p : PortId) : Nat :=
  let v := bits (rwVal e (.portCtrl p)) 1 2
  if v = 0 then 3 else v

/-- VER_MASK of the port (R367, Table 11-3). -/
def verMask (e : Engine) (p : PortId) : Nat :=
  sumNat ((List.range 4).map fun v =>
    if 1 ≤ v ∧ v ≤ maxVer e p ∧ (p.val < 12 ∨ 2 ≤ v) then 2 ^ v else 0)

/-- Features that a version allows: [0] SIGN, [1] STOMP (Table 11-1). -/
def featuresOf (v : Nat) : Nat := if v = 3 then 3 else if v = 2 then 2 else 0

/-- The CAPS that the port sends (Table 11-3); RX_CREDITS is Table 11-5's channels 0 and 1 together. -/
def ownCaps (e : Engine) (p : PortId) : Flit :=
  let role := (elemD e.boot.cfg.link p.val {}).role
  let id := fuseWord e 0 + fuseWord e 1 * 2 ^ 32
  waggleFlit ([0x01, BitVec.ofNat 8 (maxVer e p), BitVec.ofNat 8 (verMask e p), 0x03] ++ leBytes 2 192 ++
    [BitVec.ofNat 8 p.val, role] ++ leBytes 8 id)

/-- The version and features that the two CAPS give; none: no version in common (R369, R370). -/
def choice (e : Engine) (p : PortId) (c : Caps) : Option (Nat × Nat) :=
  match [3, 2, 1].find? fun v => bit (verMask e p) v && bit c.verMask.toNat v with
  | some v => some (v, Nat.land (Nat.land 3 c.features.toNat) (featuresOf v))
  | none => none

/-- An unsequenced flit to send: the newest of its kind stands (R374). -/
def pushUns (p : Port) (f : Flit) : Port := { p with uns := (p.uns.filter fun g => msgOp g != msgOp f) ++ [f] }

/-! ### Training and the waggle exchange -/

/-- Training at rate 0: the outputs are set and lk_p_train_req rises (R456). -/
def trainAt0 (e : Engine) (p : PortId) (st : PortState) : Engine :=
  let c := elemD e.boot.cfg.link p.val {}
  onPort e p fun q => { q with
    state := st, wstep := .none, caps := none, accept := none, readySeen := false, uns := []
    rate := 0, laneMap := c.laneMap, polarity := c.polarity, trainReq := true, lock := false }

/-- Step 1 of Table 11-2 on locked lanes: CAPS is sent. -/
def sendCaps (e : Engine) (p : PortId) : Engine :=
  let f := ownCaps e p
  onPort e p fun q => { q with state := .waggle, wstep := .caps, caps := none, accept := none, readySeen := false, uns := [f] }

/-- The exchange at step 1: on lanes locked at rate 0, else after training there. -/
def startExchange (e : Engine) (p : PortId) : Engine :=
  let q := portOf e p
  if q.lock ∧ q.rate = 0 then sendCaps e p else trainAt0 e p .training

/-- RESULT flits that a port brought hold no credit of its next link (R376). -/
def forgetSource (p : PortId) (b : Bucket) : Bucket := { b with out := b.out.map fun x => if x.1 = some p then (none, x.2) else x }

/-- The port goes DOWN: what it held for resending is lost (R374), and so is what waits in its receive buffer (assumptions/53). -/
def portDown (e : Engine) (p : PortId) (reason : Nat) : Engine :=
  let e := { e with lnk := { e.lnk with buckets := e.lnk.buckets.map (forgetSource p) } }
  onPort e p fun q => { q with
    state := .down, wstep := .none, reason := reason, version := 0, features := 0, caps := none, accept := none
    readySeen := false, trainReq := false, retryWait := false, held := [], resend := none, tries := none, skipping := false
    unacked := 0, uns := [], waitRx := [] }

/-- The port is UP with the credits of Table 11-5; flits that wait in `down` hold theirs again. -/
def portUp (q : Port) : Port :=
  { q with
    state := .up, wstep := .none, restarts := 0, reason := 0, caps := none, accept := none, readySeen := false
    txSeq := 0, held := [], resend := none, tries := none, rxSeq := 0, skipping := false, unacked := 0
    credit0 := 96, credit1 := 96 - q.down.length, peer0 := 0, peer1 := 0, grant0 := 0, grant1 := 0, waitRx := [] }

/-- LANE_LOCK (R369, R456): lk_p_lock rises; CAPS is sent, or READY once the lanes have retrained. -/
def laneLock (e : Engine) (p : PortId) : Engine :=
  let q := portOf e p
  if !linkOn e p || !q.trainReq then e
  else
    let e := onPort e p fun q => { q with lock := true, trainReq := false }
    if q.state = .waggle ∧ q.wstep = .retrain then
      onPort e p fun q =>
        let q := pushUns { q with wstep := .ready } (waggleFlit [0x03])
        if q.readySeen then portUp q else q
    else sendCaps e p

/-- Step 3: the partner's ACCEPT against this end's; they agree and the lanes retrain, or step 1 is repeated. -/
def compareAccepts (e : Engine) (p : PortId) : Engine :=
  let q := portOf e p
  match q.caps, q.accept with
  | some c, some a =>
    (match choice e p c with
     | some (v, f) =>
       if a.1.toNat = v ∧ a.2.toNat = f then
         onPort e p fun q => { q with
           version := v, features := BitVec.ofNat 8 f, rate := v, trainReq := true, lock := false, wstep := .retrain }
       else sendCaps e p
     | none => e)
  | _, _ => e

/-- CAPS_RECEIVE (R367, R369, R370): FP2 records the partner; ACCEPT is sent, or the port goes DOWN. -/
def capsReceive (e : Engine) (p : PortId) (c : Caps) : Engine :=
  let q := portOf e p
  if !linkOn e p || q.state != .waggle then e
  else
    let e := onPort e p fun q => { q with partner := c.deviceId, partnerPort := c.port }
    if q.wstep ≠ .caps then e
    else match choice e p c with
      | none => portDown e p 1
      | some (v, f) =>
        let e := onPort e p fun q =>
          pushUns { q with caps := some c, wstep := .accept } (waggleFlit [0x02, BitVec.ofNat 8 v, 0, BitVec.ofNat 8 f])
        compareAccepts e p

/-- ACCEPT_RECEIVE (R369). -/
def acceptReceive (e : Engine) (p : PortId) (v f : Byte) : Engine :=
  let q := portOf e p
  if !linkOn e p || q.state != .waggle then e
  else if q.wstep = .caps ∨ q.wstep = .accept then
    let e := onPort e p fun q => { q with accept := some (v, f) }
    if q.wstep = .accept then compareAccepts e p else e
  else e

/-- READY_RECEIVE (R369). -/
def readyReceive (e : Engine) (p : PortId) : Engine :=
  let q := portOf e p
  if !linkOn e p || q.state != .waggle then e
  else if q.wstep = .ready then onPort e p portUp
  else if q.wstep = .retrain then onPort e p fun q => { q with readySeen := true }
  else e

/-- WAGGLE_TIMEOUT (R370): a step has waited for 1 ms. -/
def waggleTimeout (e : Engine) (p : PortId) : Engine :=
  let q := portOf e p
  if !linkRuns e p || q.state != .waggle then e
  else if q.restarts < 3 then startExchange (onPort e p fun q => { q with restarts := q.restarts + 1 }) p
  else onPort (portDown e p 2) p fun q => { q with retryWait := true }

/-- WAGGLE_RETRY_TIMER (R370): 100 ms after DOWN with reason TIMEOUT. -/
def waggleRetry (e : Engine) (p : PortId) : Engine :=
  if linkRuns e p && (portOf e p).retryWait then
    startExchange (onPort e p fun q => { q with retryWait := false, restarts := 0 }) p
  else e

/-- The port begins to train from any state (R368, R562). -/
def beginTraining (e : Engine) (p : PortId) : Engine :=
  let r := (portOf e p).reason
  let e := portDown e p r
  trainAt0 (onPort e p fun q => { q with restarts := 0 }) p .training

/-- LNK_PORT_CTRL takes its RW fields. -/
def storePortCtrl (e : Engine) (p : PortId) (v : Word) : Engine := storeRw e (.portCtrl p) v

/-- A port that ENABLE turns off is DISABLED. -/
def portOff (e : Engine) (p : PortId) : Engine :=
  onPort (portDown e p 0) p fun q => { q with state := .disabled, lock := false }

/-- RETRAIN (R370, LNK_PORT_CTRL): a write with RETRAIN 1: the port drops its link and starts the exchange again. -/
def retrainWrite (p : PortId) (v : Word) (e : Engine) : Engine :=
  let e := storePortCtrl e p v
  if !portOn e p then portOff e p
  else if linkOn e p then beginTraining e p
  else e

/-- PORT_ENABLE (R368, R456): a write with RETRAIN 0: ENABLE starts a disabled port's training, or stops the port. -/
def enableWrite (p : PortId) (v : Word) (e : Engine) : Engine :=
  let e := storePortCtrl e p v
  if !portOn e p then (if (portOf e p).state = .disabled then e else portOff e p)
  else if linkOn e p ∧ (portOf e p).state = .disabled then beginTraining e p
  else e

/-- LOCK_LOSS (R457): lk_p_lock falls. While UP the port goes DOWN; the exchange starts again at rate 0 when the lock rises. -/
def lockLoss (e : Engine) (p : PortId) : Engine :=
  let q := portOf e p
  if !linkOn e p || !q.lock then e
  else if q.state = .up then
    trainAt0 (bump (portDown e p 4) .linkPhyLost 1) p .down
  else if q.state = .waggle then
    (if q.restarts < 3 then trainAt0 (onPort e p fun q => { q with restarts := q.restarts + 1 }) p .training
     else onPort (portDown e p 2) p fun q => { q with retryWait := true, lock := false })
  else onPort e p fun q => { q with lock := false }

/-! ### Sequenced flits -/

/-- A flit to discard: NAK with the expected LSEQ, once until that flit arrives (R374). -/
def nakOnce (q : Port) : Port :=
  if q.skipping then q else pushUns { q with skipping := true } (seqFlit opNak q.version q.rxSeq)

/-- A received sequenced flit whose CRC fails (R374, R458). -/
def badFlit (e : Engine) (p : PortId) : Engine := onPort (bump e (.crcErrors p) 1) p nakOnce

/-- The ACK that names the last good flit (R374). -/
def pushAck (q : Port) : Port := pushUns { q with unacked := 0 } (seqFlit opAck q.version (q.rxSeq - 1))

/-- A sequenced flit arrives (R374): the port, and whether the flit is taken. -/
def rxSequenced (e : Engine) (p : PortId) (f : Flit) : Engine × Bool :=
  let q := portOf e p
  if !linkOn e p || q.state != .up then (e, false)
  else if !crcGood f then (badFlit e p, false)
  else if f.lseq ≠ q.rxSeq then (onPort e p nakOnce, false)
  else
    let e := onPort e p fun q =>
      let q := { q with rxSeq := q.rxSeq + 1, skipping := false, unacked := q.unacked + 1 }
      if 32 ≤ q.unacked then pushAck q else q
    (if flitKind f < 3 then bump e (.rxFlits p) 1 else e, true)

/-- A credit of channel 0 or 1 goes back to the partner (R376). -/
def returnCredit (e : Engine) (p : PortId) (ch : Nat) : Engine :=
  onPort e p fun q =>
    if q.state ≠ .up then q
    else
      let q := if ch = 0 then { q with grant0 := (q.grant0 + 1) % 2 ^ 16 } else { q with grant1 := (q.grant1 + 1) % 2 ^ 16 }
      pushUns q (creditFlit q.version q.grant0 q.grant1)

/-- An unsequenced flit of an opcode arrives; a bad CRC drops it (R374). -/
def rxUnsequenced (e : Engine) (p : PortId) (op : Nat) (f : Flit) (act : Port → Port) : Engine :=
  let q := portOf e p
  if !linkOn e p || q.state != .up then e
  else if !crcGood f then bump e (.crcErrors p) 1
  else if flitKind f ≠ kControl ∨ msgOp f ≠ op then e
  else onPort e p act

/-- The first n held flits are acknowledged. -/
def freeHeld (n : Nat) (q : Port) : Port :=
  if n = 0 then q
  else
    let rest := q.held.drop n
    { q with held := rest, tries := none, resend := if rest.isEmpty then none else q.resend.map fun i => i - n }

/-- Resending begins from the oldest held flit (R374); after eight resends of it in a row the port goes DOWN and runs the
exchange again. -/
def resendOldest (e : Engine) (p : PortId) : Engine :=
  let q := portOf e p
  match q.held with
  | [] => e
  | f :: _ =>
    let n := match q.tries with | some (s, k) => if s = f.lseq then k else 0 | none => 0
    if 8 ≤ n then trainAt0 (portDown e p 3) p .down
    else onPort e p fun q => { q with resend := some 0, tries := some (f.lseq, n + 1) }

/-- ACK_RECEIVE (R374): every held flit up to the one named is free. -/
def ackReceive (e : Engine) (p : PortId) (f : Flit) : Engine :=
  rxUnsequenced e p opAck f fun q =>
    match indexOf? (fun (h : Flit) => h.lseq == msgLseq f) q.held with
    | some i => freeHeld (i + 1) q
    | none => q

/-- NAK_RECEIVE (R374): flits before the one named have arrived; resending begins there. -/
def nakReceive (e : Engine) (p : PortId) (f : Flit) : Engine :=
  let q := portOf e p
  if !linkOn e p || q.state != .up then e
  else if !crcGood f then bump e (.crcErrors p) 1
  else if flitKind f ≠ kControl ∨ msgOp f ≠ opNak then e
  else match indexOf? (fun (h : Flit) => h.lseq == msgLseq f) q.held with
    | some i => resendOldest (onPort e p (freeHeld i)) p
    | none => if msgLseq f = q.txSeq then onPort e p fun q => freeHeld q.held.length q else e

/-- CREDIT_RECEIVE (R376): the partner's running totals. -/
def creditReceive (e : Engine) (p : PortId) (f : Flit) : Engine :=
  rxUnsequenced e p opCredit f fun q =>
    let g0 := field f.payload 16 2
    let g1 := field f.payload 18 2
    { q with
      credit0 := q.credit0 + (g0 + 2 ^ 16 - q.peer0) % 2 ^ 16, peer0 := g0
      credit1 := q.credit1 + (g1 + 2 ^ 16 - q.peer1) % 2 ^ 16, peer1 := g1 }

/-- ACK_TIMER (R374): 200 ns after a good flit that is not acknowledged. -/
def ackTimer (e : Engine) (p : PortId) : Engine :=
  let q := portOf e p
  if linkRuns e p && q.state == .up && q.unacked != 0 then onPort e p pushAck else e

/-- RESEND_TIMEOUT (R374): 2 us without ACK or NAK while flits are held. -/
def resendTimeout (e : Engine) (p : PortId) : Engine :=
  if linkRuns e p && (portOf e p).state == .up then resendOldest e p else e

/-- RX_BEAT_DISCARD (R458). -/
def beatDiscard (e : Engine) (p : PortId) : Engine :=
  if linkOn e p && (portOf e p).state == .up then badFlit e p else e

/-- The next sequenced flit put on the wire with its LSEQ, and held (R374). -/
def sendSequenced (p : Port) (f : Flit) (stomp : Bool) : Port :=
  let f := { f with lseq := p.txSeq, kind := kindByte (flitKind f) (flitPoison f) p.version }
  let f := if stomp then stompFlit f else sealFlit f
  { p with tx := some f, held := p.held ++ [f], txSeq := p.txSeq + 1 }

/-- Flits of the receive buffer that are given up go with their credits (R387); `gone` are counted as stale. -/
def dropWaiting (e : Engine) (gone : Flit → Bool) : Engine :=
  allPorts.foldl (fun e p =>
    let l := (portOf e p).waitRx.filter gone
    let e := onPort e p fun q => { q with waitRx := q.waitRx.filter fun f => !gone f }
    l.foldl (fun e f => returnCredit (bump e .staleFlits 1) p (if flitKind f = kResult then 1 else 0)) e) e

/-- Flits of discarded buckets leave a port's queues; those of channel 1 give their credits back. -/
def purgePort (gone : Flit → Bool) (q : Port) : Port :=
  let n := countIf gone q.down
  { q with down := q.down.filter (fun f => !gone f), replay := q.replay.filter (fun f => !gone f), credit1 := q.credit1 + n }

/-! ### Buckets and groups -/

/-- A bucket by its place in the order of dispatch, changed. -/
def onBucket (e : Engine) (order : Nat) (f : Bucket → Bucket) : Engine :=
  { e with lnk := { e.lnk with buckets := updFirst (fun b => b.order == order) f e.lnk.buckets } }

/-- A bucket by its place in the order of dispatch. -/
def bucketAt (e : Engine) (order : Nat) : Option Bucket := e.lnk.buckets.find? fun b => b.order == order

/-- ACTIVE or LANDED. -/
def unsealed (b : Bucket) : Bool := b.state == .active || b.state == .landed

/-- The ACTIVE bucket of a tag. -/
def activeTag (e : Engine) (tag : Nat) : Option Bucket := e.lnk.buckets.find? fun b => b.state == .active && b.tag == tag

/-- A bucket's flit positions. -/
def groupsIn (b : Bucket) : Nat := b.entries / 128

/-- A reduction group of a generation. -/
def groupAt (e : Engine) (id gen : Nat) : Option Group := e.lnk.groups.find? fun g => g.id == id && g.generation == gen

/-- A group of a generation changed. -/
def onGroup (e : Engine) (id gen : Nat) (f : Group → Group) : Engine :=
  { e with lnk := { e.lnk with groups := updFirst (fun g => g.id == id && g.generation == gen) f e.lnk.groups } }

/-- The generation of a group that a step's buckets name (R401), or the newest one known. -/
def groupFor (e : Engine) (id step : Nat) : Option Group :=
  match e.lnk.buckets.find? fun b => b.known && b.group == id && b.step == step with
  | some b => groupAt e id b.generation
  | none => e.lnk.groups.reverse.find? fun g => g.id == id

/-- The present attempt of a step. -/
def stepAttempt (g : Group) (step : Nat) : Nat := lookupD g.attempt step 0

/-- A step of the group is sealed. -/
def stepSealed (g : Group) (step : Nat) : Bool := match g.sealed with | some s => decide (step ≤ s) | none => false

/-- Tree 0 of a group. -/
def tree0 (g : Group) : Tree := elemD g.trees 0 ⟨0, none, []⟩

/-- REPEAT_LIMIT as sampled (R396, LNK_CTRL). -/
def repeatLimit (e : Engine) : Nat :=
  let v := match e.sch.run with | some g => g.samples.lnkCtrl.toNat | none => rwVal e .lnkCtrl
  if bits v 24 8 = 0 then 3 else bits v 24 8

/-! ### Control messages -/

/-- A control message of a group (R372). -/
def ctlFlit (g : Group) (op tag step attempt reason gen : Nat) : Flit :=
  { tag := 0, offset := 0, hopRank := BitVec.ofNat 8 (tree0 g).rank, kind := kindByte kControl false 0, step := w32 step
    attempt := BitVec.ofNat 8 attempt, group := BitVec.ofNat 8 g.id, lseq := 0
    payload := pad256 (leBytes 2 op ++ leBytes 2 tag ++ leBytes 4 step ++ leBytes 1 attempt ++ leBytes 3 reason ++ leBytes 4 gen)
    crc := 0 }

/-- A control flit queued on a port. -/
def pushCtl (e : Engine) (f : Flit) (p : PortId) : Engine := onPort e p fun q => { q with ctl := q.ctl ++ [f] }

/-- A control message that this device sends itself. -/
def pushOwn (e : Engine) (f : Flit) : Engine := { e with lnk := { e.lnk with own := e.lnk.own ++ [f] } }

/-- A message toward the leader (R377): up tree 0, or to itself. -/
def sendUp (e : Engine) (g : Group) (f : Flit) : Engine :=
  match (tree0 g).parent with
  | some p => pushCtl e { f with hopRank := BitVec.ofNat 8 (tree0 g).rank } p
  | none => pushOwn e f

/-- A message down tree 0 to the children (R377). -/
def sendDown (e : Engine) (g : Group) (f : Flit) : Engine :=
  ((tree0 g).children.map Prod.fst).foldl (fun e p => pushCtl e { f with hopRank := BitVec.ofNat 8 (tree0 g).rank } p) e

/-- The leader's multicast: to the children and to itself. -/
def multicast (e : Engine) (g : Group) (f : Flit) : Engine := pushOwn (sendDown e g f) f

/-- OK or FAIL of a bucket (R388, R394). -/
def tellLeader (e : Engine) (b : Bucket) (op reason : Nat) : Engine :=
  match groupAt e b.group b.generation with
  | some g => sendUp e g (ctlFlit g op b.tag b.step b.attempt reason 0)
  | none => e

/-- Reasons of a FAIL, numbered in the spec's order of first mention (assumptions/54). -/
def failDeadline : Nat := 1
def failPoison : Nat := 2
def failFence : Nat := 3
def failStopped : Nat := 4

/-- A bucket's root, or a member that has lost a region, reports its failure once (R394). -/
def failBucket (e : Engine) (b : Bucket) (reason : Nat) : Engine :=
  if b.failed then e
  else tellLeader (onBucket e b.order fun b => { b with failed := true, deadlineOn := false }) b opFail reason

/-! ### The read-out -/

/-- The regions of an ALLREDUCE bucket in map order, with their first entries (R381). -/
def bucketLayout (e : Engine) (tag : Nat) : List (Region × Nat) × Nat :=
  match e.sch.run with
  | none => ([], 0)
  | some g => (g.regions.filter fun r => r.bucket == tag && !r.scratch).foldl (fun (acc : List (Region × Nat) × Nat) r =>
      let at_ := ceilDiv acc.2 128 * 128
      (acc.1 ++ [(r, at_)], at_ + r.elements)) ([], 0)

/-- A bucket reads a region that a comb holds. -/
def readsFrom (e : Engine) (c : CombId) (b : Bucket) : Bool :=
  b.reading && (bucketLayout e b.tag).1.any fun x => !x.1.frozen && x.1.place == .resident c

/-- A bucket that has lost a region in the middle of its read-out forms no further contribution (R394, assumptions/64). -/
def cutBucket (b : Bucket) : Bucket :=
  { b with reading := false, own := [], up := [], sums := b.sums.filter fun s => s.ops.isEmpty }

/-- The buckets whose read-out a fence of comb c breaks off: each tells the leader (R394, R413 step 4). -/
def fenceBuckets (e : Engine) (c : CombId) : Engine :=
  (e.lnk.buckets.filter (readsFrom e c)).foldl (fun e b => failBucket (onBucket e b.order cutBucket) (cutBucket b) failFence) e

/-! ### Credits of discarded flits -/

/-- The RESULT flits that a discarded bucket still held give their credits back (R376). -/
def freeOut (e : Engine) (b : Bucket) : Engine :=
  b.out.foldl (fun e x => match x.1 with | some p => returnCredit e p 1 | none => e) e

/-! ### The rows -/

/-- The island that takes a control message: the port's link group, or for one of this device's own the leader's, link group 0. -/
def msgIsland : MsgSrc → Nat
  | .port p _ => linkIsland p
  | .own => 51

def execLaneLock (p : PortId) (s : State) : Host.Outcome State Fault Refusal :=
  .next (crossing s (linkIsland p) (.laneLock p) fun s => onEngine s fun e => laneLock e p)
def execCapsReceive (p : PortId) (c : Caps) (s : State) : Host.Outcome State Fault Refusal :=
  .next (crossing s (linkIsland p) (.capsReceive p c) fun s => onEngine s fun e => capsReceive e p c)
def execAcceptReceive (p : PortId) (version features : Byte) (s : State) : Host.Outcome State Fault Refusal :=
  .next (crossing s (linkIsland p) (.acceptReceive p version features) fun s => onEngine s fun e => acceptReceive e p version features)
def execReadyReceive (p : PortId) (s : State) : Host.Outcome State Fault Refusal :=
  .next (crossing s (linkIsland p) (.readyReceive p) fun s => onEngine s fun e => readyReceive e p)
def execWaggleTimeout (p : PortId) (s : State) : Host.Outcome State Fault Refusal := .next (onEngine s fun e => waggleTimeout e p)
def execWaggleRetryTimer (p : PortId) (s : State) : Host.Outcome State Fault Refusal := .next (onEngine s fun e => waggleRetry e p)
def execRetrain (p : PortId) (src : WriteSrc) (s : State) : Host.Outcome State Fault Refusal :=
  .next (bySourceIf s src (.portCtrl p) (fun v => bit v.toNat 3) (retrainWrite p))
def execPortEnable (p : PortId) (src : WriteSrc) (s : State) : Host.Outcome State Fault Refusal :=
  .next (bySourceIf s src (.portCtrl p) (fun v => !bit v.toNat 3) (enableWrite p))
def execLockLoss (p : PortId) (s : State) : Host.Outcome State Fault Refusal :=
  .next (crossing s (linkIsland p) (.lockLoss p) fun s => onEngine s fun e => lockLoss e p)
def execAckReceive (p : PortId) (f : Flit) (s : State) : Host.Outcome State Fault Refusal :=
  .next (crossing s (linkIsland p) (.ackReceive p f) fun s => onEngine s fun e => ackReceive e p f)
def execNakReceive (p : PortId) (f : Flit) (s : State) : Host.Outcome State Fault Refusal :=
  .next (crossing s (linkIsland p) (.nakReceive p f) fun s => onEngine s fun e => nakReceive e p f)
def execAckTimer (p : PortId) (s : State) : Host.Outcome State Fault Refusal := .next (onEngine s fun e => ackTimer e p)
def execResendTimeout (p : PortId) (s : State) : Host.Outcome State Fault Refusal :=
  .next (onEngine s fun e => resendTimeout e p)
def execRxBeatDiscard (p : PortId) (s : State) : Host.Outcome State Fault Refusal :=
  .next (crossing s (linkIsland p) (.rxBeatDiscard p) fun s => onEngine s fun e => beatDiscard e p)

end Sys2Proof.Machine
end

