-- ==== Sys2Proof/Machine/Fence.lean ====
section
/-! DEFINITION. Machine/Fence.lean: the propolis fence (R111, R217, R279, R285, R317, R318, R413 to R415) and what abandoning a
task leaves (R315, R316). -/

namespace Sys2Proof.Machine

/-! ### Tasks that run again -/

/-- Whether a task runs in a comb. -/
def runsIn (t : Task) (c : CombId) : Bool := t.life == .running (.comb c)

/-- A task as it runs again: resident, ready, at the head of its class queue (R318); `whole` discards its progress. -/
def againTask (whole : Bool) (t : Task) : Task :=
  { t with life := .ready, head := true, reissued := true, slotPin := t.slotPin, lost := false
           doneTiles := if whole then [] else t.doneTiles, commTiles := if whole then [] else t.doneTiles
           offsets := if whole then [] else t.offsets }

/-- A task re-issued after a fence, resident or completed (R217, R318), and counted. -/
def reissue (e : Engine) (i : Nat) (whole : Bool) : Engine :=
  match e.sch.run with
  | none => e
  | some g =>
    if g.tasks.any fun t => t.index == i then bump (onTask e i (againTask whole)) .reissued 1
    else
      match g.retired.find? fun t => t.index == i with
      | none => e
      | some t =>
        bump (onGraph e fun g => { g with
          tasks := g.tasks ++ [{ againTask whole t with again := true }]
          retired := dropFirst (fun t => t.index == i) g.retired }) .reissued 1

/-! ### What a comb forgets of a task -/

/-- A frame that abandons every uncommitted interval (R103, R111, R315): cells and skew cleared. -/
def emptyFrame (fr : Frame) : Frame :=
  { fr with mode := .idle, cells := [], pipe := [], nextB := false, jobs := [], steps := [], flight := [], flush := 0
            high := [], passes := [], out := [], running := [], merge := [], drainOnly := none, held := []
            banks := [none, none, none, none], smooth := [] }

/-- A frame holds work of a task. -/
def frameHolds (fr : Frame) (i : Nat) : Bool :=
  fr.jobs.any (fun j => j.task == i) || fr.flight.any (fun a => a.task == i) || fr.out.any (fun o => o.task == i) || fr.drainOnly == some i

/-- The register files without a task's banks and factors. -/
def filesWithout (i : Nat) (fr : Frame) : Frame :=
  { fr with banks := fr.banks.map fun o => o.bind fun b => if b.task = i then none else some b
            smooth := fr.smooth.filter fun h => h.task != i }

/-- A frame without a task's work but the committed rows that `keep` names: other tiles restart their uncommitted intervals (R103). -/
def frameWithout (i : Nat) (keep : OutJob → Bool) (fr : Frame) : Frame :=
  if !frameHolds fr i then fr
  else
    let owner := match fr.out with | o :: _ => some (o.task, keep o) | [] => fr.jobs.head?.map fun j => (j.task, false)
    let first := match owner with | some (t, k) => t == i && !k | none => true
    let fr := { fr with
      cells := [], pipe := [], steps := [], flight := [], flush := 0, mode := .idle, high := [], passes := []
      jobs := (fr.jobs.filter fun j => j.task != i).map fun j => { j with entered := 0, pass := 0 }
      out := fr.out.filter fun o => o.task != i || keep o
      running := if first then [] else fr.running, merge := if first then [] else fr.merge
      drainOnly := if fr.drainOnly = some i then none else fr.drainOnly
      held := if fr.drainOnly = some i then [] else fr.held }
    if fr.out.any fun o => o.task == i then fr else filesWithout i fr

/-- A ring without a task's streams and lines. -/
def ringWithout (i : Nat) (g : Ring) : Ring :=
  advanceHead 8 <| settleRing { g with
    streams := g.streams.filter fun s => s.task != i
    lines := g.lines.map fun l => { l with need := l.need.filter fun k => k.task != i } }

/-- A ring that no stream and no persistent descriptor holds is unbound, and its slots return to the pool (R260, R273). -/
def unbindRings (cb : Comb) : Comb :=
  let idle (o : Option Ring) : Bool := match o with | some g => g.streams.isEmpty && g.persist.isNone | none => false
  { cb with
    freeSlots := cb.freeSlots + sumNat (cb.rings.filterMap fun o => if idle o then o.map Ring.slots else none)
    rings := cb.rings.map fun o => if idle o then none else o }

/-- A task's context, tiles, streams and park records gone from a comb. -/
def combWithout (i : Nat) (cb : Comb) : Comb :=
  let ctx := indexOf? (fun o => match o with | some k => k.task == i | none => false) cb.ctxs
  unbindRings { cb with
    ctxs := cb.ctxs.map fun o => match o with | some k => if k.task = i then none else some k | none => none
    frames := cb.frames.map (frameWithout i fun _ => false)
    rings := cb.rings.map fun o => o.map (ringWithout i)
    chain := cb.chain.filter fun x => x.task != i
    parks := cb.parks.map fun p => if p.state != .free && some p.ctx.val == ctx then {} else p }

/-- A task abandoned wherever a comb holds it. -/
def dropTask (e : Engine) (i : Nat) : Engine := mapCombs e (combWithout i)

/-! ### The fence -/

/-- Handles that a comb pushed and that no consumer has popped, out of every queue (R279). -/
def withoutSrc (c : CombId) (q : List HandleEntry) : List HandleEntry := q.filter fun x => x.h.src.toNat != c.val
def fromSrc (c : CombId) (q : List HandleEntry) : List HandleEntry := q.filter fun x => x.h.src.toNat == c.val

/-- Handles that a comb pushed, or has yet to push, and that no consumer has popped (R279). -/
def unpopped (e : Engine) (c : CombId) : List HandleEntry :=
  let cb := combOf e c
  (cb.chain ++ cb.ringQ ++ cb.outQ ++ fromSrc c e.hf.hand ++ fromSrc c e.cap.queue ++ e.lnk.linkQ.flatMap (fromSrc c)).filter fun x =>
    x.part.isNone

/-- The tasks whose handles a fence discards. -/
def discarded (e : Engine) (c : CombId) : List Nat := dedup ((unpopped e c).map HandleEntry.task)

/-- The tiles whose output handles a fence discards: they run again (R279). -/
def lostTiles (e : Engine) (c : CombId) : List (Nat × Nat) :=
  dedup ((unpopped e c).filterMap fun x => if x.adds.isEmpty then some (x.task, x.tile) else none)

/-- A tile that is not done after all. -/
def reopenTile (e : Engine) (x : Nat × Nat) : Engine :=
  onTask e x.1 fun t => { t with doneTiles := t.doneTiles.filter (· ≠ x.2), commTiles := t.commTiles.filter (· ≠ x.2) }

/-- A fenced comb's state (R111, R225, R279): tiles, contexts, queues, activation store and carousel gone; rings, park records
and counters stay for the registers (R569). -/
def fencedComb (cb : Comb) : Comb :=
  { cb with ctxs := [none, none, none, none], frames := cb.frames.map emptyFrame, act := [], ringQ := [], outQ := [], chain := [], buffers := []
            cache := [], carousel := none, persist := [] }

/-- The next enabled comb after one, ascending and wrapping. -/
def nextEnabled (e : Engine) (c : CombId) : Option CombId := (combsAfter c).find? (enabled e)

/-- The shards that a fenced comb would work on next: those on their way to it after those that it covers (R281, R285). -/
def lostNext (l : Carousel) : List Nat := l.extras.map Shard.num ++ (l.incoming.map Shard.num).toList

/-- A carousel that takes over a fenced comb's `l`: its shards are read from memory (R285). Where the fenced comb was still to hand its own
shard on, that one comes first, and what is left of the slots of the shard on its way to it is taken. Where the shard had been handed on,
only those that were to follow are taken over. Where the fenced comb had turned already, what is left of the shard on its way here is read
from memory, and its own follows. -/
def coverLost (l ca : Carousel) : Carousel :=
  let mem (ns : List Nat) : List Shard := ns.map fun s => { num := s }
  if (shardIn ca l.own.num).isSome then { ca with extras := ca.extras ++ mem (lostNext l) }
  else match ca.incoming with
  | some i =>
    if i.num = l.own.num then
      { ca with extras := ca.extras ++ mem (l.own.num :: l.extras.map Shard.num), incoming := l.incoming.map fun x => { num := x.num }, got := l.got
                rotated := ca.rotated ++ (if l.sending then l.own.num :: l.extras.map Shard.num else l.rotated) }
    else
      let line := i.num :: l.own.num :: l.extras.map Shard.num
      { ca with extras := ca.extras ++ mem line.dropLast, incoming := (line.getLast?).map fun s => { num := s }, got := 64 }
  | none =>
    { ca with extras := ca.extras ++ mem (l.own.num :: l.extras.map Shard.num), incoming := l.incoming.map fun x => { num := x.num }, got := l.got
              rotated := ca.rotated ++ (if l.sending then l.own.num :: l.extras.map Shard.num else l.rotated) }

/-- A fenced comb's shard falls to the next enabled comb (R285). -/
def coverShard (e : Engine) (c : CombId) (lost : Option Carousel) : Engine :=
  match nextEnabled e c, lost with
  | some d, some l => onComb e d fun cb => { cb with carousel := cb.carousel.map (coverLost l) }
  | _, _ => e

/-- The order in which R318 returns tasks: those of the comb's contexts first, by dispatch. -/
def combTasks (e : Engine) (c : CombId) : List Nat :=
  match e.sch.run with
  | none => []
  | some g => (sortBy (fun (a b : Task) => decide (a.order < b.order)) (g.tasks.filter fun t => runsIn t c)).map Task.index

/-- A write whose sender a reset clears, or whose graph has ended: it goes on to memory, and nothing waits for it (assumptions/62). -/
def orphanWrite (w : WriteReq) : WriteReq := { w with who := .firmware }

/-- Outstanding reads that `f` picks are forgotten: their tags stay in use until their responses come (R449), which find no taker. -/
def forgetReads (e : Engine) (f : ReadFor → Bool) : Engine :=
  { e with mp := { e.mp with reads := e.mp.reads.map fun r => if f r.dst then { r with dst := .gone } else r } }

/-- A comb's outstanding reads forgotten. -/
def dropReads (e : Engine) (c : CombId) : Engine :=
  forgetReads e fun d => match d with | .ring x _ _ | .index x _ _ _ => x == c | .light | .gone => false

/-- COMB_FENCE (R413): the propolis fence closes on a comb in RUN or ORPHANED. Cause 3 is a frame fault, 4 the host. -/
def fenceComb (e : Engine) (c : CombId) (cause frame : Nat) : Engine :=
  let mine := combTasks e c
  let lostHandles := discarded e c
  let tiles := lostTiles e c
  let shard := (combOf e c).carousel
  let e := { e with fences := updAt e.fences c.val fun _ => { cause := cause, frame := frame } }
  let e := onIsland e c.val fun s => { s with started := false, stretched := false, stopped := false, hold := false, lost := 0 }
  let e := dropReads (onComb e c fencedComb) c
  let e := { e with hf := { e.hf with hand := withoutSrc c e.hf.hand }, cap := { e.cap with queue := withoutSrc c e.cap.queue }
                    lnk := { e.lnk with linkQ := e.lnk.linkQ.map (withoutSrc c) } }
  let (e, rerun) := replaceRegions (fenceBuckets e c) c
  let e := (rerun.filter (· ∉ mine)).foldl dropTask e
  let e := (dedup (mine ++ rerun ++ lostHandles)).foldl (fun e i => reissue e i (decide (i ∈ rerun))) (tiles.foldl reopenTile e)
  let e := coverShard e c shard
  let e := raiseErr e errFence
  let e := if cause = 3 then raiseErr e errFrameFault else e
  let e := logEvent e 50 0x0002 0 [BitVec.ofNat 8 c.val, BitVec.ofNat 8 cause, BitVec.ofNat 8 frame]
  if (enabledCombs e).isEmpty then askStop (raiseErr e errCombLost) codeCombLost 0xF0 noTask else e

/-! ### Failing tasks -/

/-- HALT is the sampled poison policy (R419). -/
def halts (e : Engine) : Bool := bit (samplesOf e).poisonCtrl.toNat 0

/-- Under HALT a task that fails with TILE_MAP_INVALID or DESC_INVALID stops the graph as at the first poison (R134, R248); no other failure
does (R434). -/
def haltOnFail (e : Engine) (code : Nat) : Engine :=
  if halts e && (code == codeTileMapInvalid || code == codeDescInvalid) then askStop e codeHalted 0xF0 noTask else e

/-- A dispatched task fails with a code (R314): it holds its context until its completion. -/
def failTask (e : Engine) (i code : Nat) : Engine :=
  haltOnFail (onTask e i fun t => { t with failed := some (t.failed.getD code) }) code

/-- A committed row of a failed task that is still written (R102, R134): adds, and the rows of a tile whose last interval has committed. -/
def outStays (fr : Frame) (i : Nat) (o : OutJob) : Bool :=
  o.task == i && (!storing o.record || fr.out.any fun x => x.task == i && x.tile == o.tile && x.lastOfTile)

/-- A ring of a failed task: its streams go but those of the side operands that rows still to be written wait for. -/
def ringFailed (i : Nat) (side : Bool) (g : Ring) : Ring :=
  let stays (s : Stream) : Bool := s.task != i || (side && perTile s.role)
  let reads (k : Reader) (l : SlotLine) : Bool := k.task != i || (side && perTile l.role)
  advanceHead 8 <| settleRing { g with
    streams := g.streams.filter stays, lines := g.lines.map fun l => { l with need := l.need.filter fun k => reads k l } }

/-- A task that fails with work in a comb: its uncommitted intervals are abandoned, its committed rows are written. -/
def failInComb (e : Engine) (i code : Nat) : Engine :=
  let left (cb : Comb) : Comb :=
    let side := cb.frames.any fun fr => fr.out.any (outStays fr i)
    { cb with frames := cb.frames.map (fun fr => frameWithout i (outStays fr i) fr)
              rings := cb.rings.map fun o => o.map (ringFailed i side) }
  failTask (mapCombs e left) i code

end Sys2Proof.Machine
end

