-- ==== Sys2Proof/Machine/Frame.lean ====
section
/-! DEFINITION. Machine/Frame.lean: tiles issued to a frame (R104, R134, R159, R160, R166, R185, R282, R283, R310) and one
frame cycle (R87, R88, R97 to R99, R105 to R110, R153, R161, R271, R551). -/

namespace Sys2Proof.Machine

/-! ### Issuing tiles -/

/-- The product task that a context runs, with its layer's mask mode. -/
def productOf (e : Engine) (k : Ctx) : Option (Task × Nat) :=
  match taskOf e k.task with
  | some tk => if isProduct tk.record && tk.failed.isNone && (match tk.life with | .running _ => true | _ => false) then
      some (tk, maskOf e tk.record) else none
  | none => none

/-- The next tile of a context that has not been issued (R310, R318). -/
def nextTile (k : Ctx) (tk : Task) (mask : Nat) : Option Nat :=
  let n := tileCount tk.record mask
  let rec go : (fuel i : Nat) → Option Nat
    | 0, _ => none
    | fuel + 1, i => if n ≤ i then none else if i ∈ tk.doneTiles then go fuel (i + 1) else some i
  go (n + 1) k.nextTile

/-- The lowest tile of a task that is not complete. -/
def lowestTile (tk : Task) (n : Nat) : Nat := ((List.range (n + 1)).find? fun i => i ∉ tk.doneTiles).getD n

/-- The shard that a task is bound to has landed in its comb, or is read from memory for a fenced comb (R282, R285). -/
def shardHere (e : Engine) (c : CombId) (t : TaskRec) : Bool :=
  if !tShard t then true
  else match (combOf e c).carousel with
  | none => false
  | some ca => !ca.stale && ((ca.own.num == t.affinity && !ca.sending) || ca.extras.any fun x => x.num == t.affinity)

/-- The first slot of a tile is filling or full in the ring of a reference (R310). -/
def roleFilling (e : Engine) (c : CombId) (k : Ctx) (tk : Task) (mask tile role : Nat) : Bool :=
  match descFor k role with
  | none => false
  | some d =>
    match ringOf e c d.ring with
    | none => false
    | some g =>
      (g.lines.any fun l => l.need.any fun r => r.task == k.task && r.tile == tile) ||
      (g.streams.any fun s => s.task == k.task && s.role == role && (s.ended || decide (tile < s.tile))) ||
      (role == weightRole tk.record mask && carouselServes e c tk.record tk.slotPin)

/-- The first slot of a tile is filling or full in both feeders' rings (R310). -/
def tileFilling (e : Engine) (c : CombId) (k : Ctx) (tk : Task) (mask tile : Nat) : Bool :=
  [rROW, rCOL].all (roleFilling e c k tk mask tile)

/-- A tile's transform blocks start at multiples of B along k (R185). -/
def xformOk (f : Feed) : Bool :=
  let b := hadBlock f.xform
  if b = 0 then true
  else if f.t.kind = kFWD then f.start % b == 0
  else if f.t.kind = kDX ∧ f.mask ≠ 0 then
    let ks := f.geo.rows.filterMap fun r => r.map Prod.fst
    ks.foldl min (ks.headD 0) % b == 0
  else if sampledOf f.t f.mask then 8 * f.geo.c0 % b == 0
  else f.geo.c0 % b == 0

/-- Lines of a task's layer as its tile maps name them (R134). -/
def mapLines (t : TaskRec) (mask : Nat) : Nat := if t.kind = kDX then rowK t mask else t.outRows

/-- A tile map starts at channel 0: one of its frame rows is the layer's line 0 (R228, assumptions/110). -/
def startsAtZero (map : List Byte) : Bool := (parseMap map).entries.any fun x => x.valid && x.line == 0

/-- The error of a tile that can not run: an invalid or poisoned tile map, a misaligned transform, a FULL code off channel 0 (R228),
no interval that fits the task's rings, once all are bound (R260). -/
def tileError (m : Mem) (e : Engine) (c : CombId) (k : Ctx) (tk : Task) (mask tile : Nat) : Option Nat :=
  let t := tk.record
  let v := memView m e
  let addr := t.tilemapBase + 272 * tile
  let map := if mapped t mask then mapBytes v t tile else []
  let split := match e.sch.run with | some g => g.hdr.freeSplit | none => false
  if mapped t mask && (!mapOk map addr (mapLines t mask) split || v.marked addr 272) then some codeTileMapInvalid
  else
    let s := resumeAt e k tile
    let f := feedOf m e c k t map tile { base := s, start := s, len := 0 } false
    if !xformOk f then some codeXformAlign
    else if (t.epilogue == 1 || t.epilogue == 3) && mapped t mask && !startsAtZero map then some codeRowSpan
    else if ringsKnown e c k (streamRoles t) && (tileLen m e c k t map tile).isNone then some codeTaskInvalid
    else none

/-- A context whose next tile could be issued to a frame: place, context, task, mask, tile. -/
structure Cand where
  x : Fin 4
  k : Ctx
  tk : Task
  mask : Nat
  tile : Nat

/-- The contexts that serve a frame, with their next tiles. -/
def candidates (e : Engine) (c : CombId) (f : FrameId) : List Cand :=
  allFrames.filterMap fun x =>
    match ctxOf e c x with
    | none => none
    | some k =>
      match productOf e k with
      | none => none
      | some (tk, mask) =>
        if f ∈ framesFor k tk.record mask then (nextTile k tk mask).map fun i => ⟨x, k, tk, mask, i⟩ else none

/-- A candidate may be issued now (R282, R310). -/
def issuable (e : Engine) (c : CombId) (a : Cand) : Bool :=
  tileFilling e c a.k a.tk a.mask a.tile && ringsKnown e c a.k (streamRoles a.tk.record) && shardHere e c a.tk.record &&
  decide (a.tile < lowestTile a.tk (tileCount a.tk.record a.mask) + 64)

/-- A tile's weight rows take a bank of the channel scale register file: a forward tile's rows, an input-gradient tile's windows
(R165, assumptions/101). -/
def takesBank (t : TaskRec) : Bool := decide (t.kind ≤ kDX)

/-- A frame can accept a tile of a task (R104, R166, R310): no drain-only or SELECT task holds its drain unit, and a register bank
is free for the tile. -/
def accepts (fr : Frame) (t : TaskRec) : Bool := fr.drainOnly.isNone && (!takesBank t || fr.banks.any Option.isNone)

/-- A bank claimed for a tile. -/
def claimBank (t : TaskRec) (task tile : Nat) (fr : Frame) : Frame :=
  if !takesBank t then fr
  else { fr with banks := updFirst Option.isNone (fun _ => some { task := task, tile := tile }) fr.banks }

/-- A tile's bank and smoothing factors let go: at its last commit (R166, R184). -/
def freeBank (task tile : Nat) (fr : Frame) : Frame :=
  { fr with banks := fr.banks.map fun o => match o with | some b => if b.task == task && b.tile == tile then none else some b | none => none }

/-- The smoothing factors of an interval, or of a tile, let go (R184). -/
def freeSmooth (task tile base : Nat) (fr : Frame) : Frame :=
  { fr with smooth := fr.smooth.filter fun h => !(h.task == task && h.tile == tile && h.base == base) }

/-- A tile issued: its job with its parts, counted where its interval was shortened or its shard is read from memory. -/
def issueTile (m : Mem) (e : Engine) (c : CombId) (f : FrameId) (a : Cand) : Engine :=
  let t := a.tk.record
  let map := if mapped t a.mask then mapBytes (memView m e) t a.tile else []
  let len := (tileLen m e c a.k t map a.tile).getD 64
  let parts := cutParts (resumeAt e a.k a.tile) t.redLen len (ceilDiv t.redLen 64 + 1)
  let parts := if parts.isEmpty then [{ base := 0, start := 0, len := 0 }] else parts
  let job : TileJob := { task := a.k.task, ctx := a.x, tile := a.tile, map := map,
                         parts := parts.map fun p => { p with wide := tWide t } }
  let e := onFrame (keepCut m e c a.x a.k t map a.tile) c f fun fr => claimBank t a.k.task a.tile { fr with jobs := fr.jobs ++ [job] }
  let short := decide (len < ilenOf t ∧ len < t.redLen) && !a.k.capped
  let e := if short then bumpComb e c .ilenCapped 1 else e
  let e := if tShard t && !carouselServes e c t a.tk.slotPin then bumpComb e c .carouselRefetch 1 else e
  onCtx e c a.x fun k => { k with nextTile := a.tile + 1, capped := k.capped || short }

/-- The class that a candidate's tiles rank by: an aged task's lie above every class 2 task's (R310, R313). -/
def tileRank (tk : Task) : Nat := if tk.aged && decide (2 ≤ tk.record.cls) then 3 else 2 * tk.record.cls

/-- TILE_ISSUE: a tile that can not run fails its task; otherwise the next tile of the lowest class and earliest dispatch is
issued (R310). -/
def tileIssue (m : Mem) (e : Engine) (c : CombId) (f : FrameId) : Engine :=
  if !works e c then e
  else
    let cs := candidates e c f
    match cs.findSome? fun a => (tileError m e c a.k a.tk a.mask a.tile).map fun code => (a, code) with
    | some (a, code) =>
      let e := if code = codeXformAlign then bumpComb e c .xformAlign 1 else e
      failInComb e a.k.task code
    | none =>
        let ok := cs.filter fun a => accepts (frameOf e c f) a.tk.record && issuable e c a
        match minBy (fun a => tileRank a.tk) (sortBy (fun a b => decide (a.k.order < b.k.order)) ok) with
        | some a => issueTile m e c f a
        | none => e

/-! ### Entering steps -/

/-- The tile whose parts have not all entered, and the part due. -/
def dueJob (fr : Frame) : Option (TileJob × Part) :=
  (fr.jobs.find? fun j => decide (j.entered < j.parts.length)).bind fun j => (j.parts[j.entered]?).map fun p => (j, p)

/-- The drain condition for the attempt that would fill accumulator b (R106). -/
def drainHolds (fr : Frame) (b : Bool) : Bool :=
  let staging := fr.out.any fun o => o.staged && o.accB == b && decide (o.next < 64)
  fr.flight.any fun a => a.accB == b && !a.skip && a.age.isSome &&
    (a.reads.isEmpty || (decide (a.reads.length < 64) && staging))

/-- The direction in which a task's tiles are read out (Table 04-3). -/
def dirColsOf (k : Ctx) (t : TaskRec) (mask : Nat) : Bool :=
  if t.kind = kDW then false
  else xor (mask != 0) (match descFor k rOUT with | some d => d.layout == lCV32T | none => false)

/-- Lines of an interval whose slot check fails as the feeders read them (R405): poisoned in their slots and counted. -/
def checkSlots (e : Engine) (c : CombId) (roles : List (Nat × Reader)) : Engine :=
  roles.foldl (fun e rk =>
    match ringOf e c rk.1 with
    | none => e
    | some g =>
      let bad (l : SlotLine) : Bool := decide (rk.2 ∈ l.need) && l.landed && !l.poison && crc32c l.data != l.check
      let n := countIf bad g.lines
      let mark (l : SlotLine) : SlotLine := if bad l then { l with poison := true } else l
      if n = 0 then e
      else poisonEvent (bumpComb (onRing e c rk.1 fun g => { g with lines := g.lines.map mark }) c .slotCrc n) c.val codeHalted) e

/-- The rings and readers of an interval. -/
def intervalReaders (k : Ctx) (t : TaskRec) (mask tile base : Nat) : List (Nat × Reader) :=
  (rowRoles t mask ++ colRoles t mask).filterMap fun role =>
    (descFor k role).map fun d => (d.ring, readerOf k.task role tile base)

/-- Lines consumed by an interval's first presentation, in the windows of their streams (R268). -/
def consume (e : Engine) (c : CombId) (rs : List (Nat × Reader)) : Engine :=
  rs.foldl (fun e rk => onRing e c rk.1 (consumeLines rk.2)) e

/-- One part's feed with its context and task. -/
structure PartFeed where
  k : Ctx
  tk : Task
  mask : Nat
  feed : Feed

/-- The width of a part's attempts: what its first one settled, or S16 in a task that WIDE_STICKY keeps there (R180, R189). -/
def partWide (k : Ctx) (p : Part) : Bool := p.wide || (!p.begun && k.wide)

/-- The feed of the part that is due. -/
def partFeed (m : Mem) (e : Engine) (c : CombId) (j : TileJob) (p : Part) : Option PartFeed :=
  match ctxOf e c j.ctx, taskOf e j.task with
  | some k, some tk => some ⟨k, tk, maskOf e tk.record, { feedOf m e c k tk.record j.map j.tile p (partWide k p) with narrow := j.narrow }⟩
  | _, _ => none

/-- Every pass of an interval is without steps (R153). -/
def skipped (b : Built) : Bool := b.passes.all fun p => p.steps.isEmpty

/-- The attempt of pass `i` of a built interval. -/
def attemptOf (f : PartFeed) (j : TileJob) (p : Part) (b : Built) (i : Nat) (acc : Bool) : Attempt :=
  let pin := elemD b.passes i default
  { task := j.task, tile := j.tile, base := p.base, start := p.start, len := p.len, level := p.level, wide := f.feed.wide
    pass := pin.pass, rank := pin.rank, ranks := (b.passes.foldl (fun n q => max n q.rank) 0) + 1, accB := acc
    dirCols := dirColsOf f.k f.tk.record f.mask, skip := skipped b, sc := pin.sc
    poison := b.poison, suspect := b.suspect, trap := b.trap, counts := b.counts }

/-- The job's place after pass i has begun. -/
def passBegun (b : Built) (i : Nat) (j : TileJob) : TileJob :=
  if i + 1 < b.passes.length then { j with pass := i + 1 } else { j with pass := 0, entered := j.entered + 1 }

/-- A job of a frame changed, found by task and tile. -/
def onJob (fr : Frame) (task tile : Nat) (f : TileJob → TileJob) : Frame :=
  { fr with jobs := updFirst (fun j => j.task == task && j.tile == tile) f fr.jobs }

/-- Header faults of Table 02-6 and R350 counted. -/
def countHeaders (e : Engine) (c : CombId) (n : Counts) : Engine :=
  bumpComb (bumpComb (bumpComb e c .badHeaders n.badHeaders) c .scaleFloored n.floored) c .epochMismatch n.epochMiss

/-- A forward tile's row headers loaded into its bank, and counted, as its first interval begins (R164, R165, assumptions/97). -/
def loadBank (e : Engine) (c : CombId) (f : FrameId) (pf : PartFeed) (tile : Nat) : Engine :=
  let fd := pf.feed
  let waits (b : ScaleBank) : Bool := b.task == pf.k.task && b.tile == tile && !b.loaded
  let mine (o : Option ScaleBank) : Bool := match o with | some b => waits b | none => false
  if fd.t.kind ≠ kFWD ∨ !(frameOf e c f).banks.any mine then e
  else
    let rows := (weightRows fd).1.map fun n => (n, fd.wrow n)
    let e := countHeaders e c (hdrCounts (rows.map Prod.snd))
    onFrame e c f fun fr => { fr with banks := updFirst mine (fun o => o.map fun b => { b with loaded := true, rows := rows }) fr.banks }

/-- An input-gradient interval's last window of up to 64 rows, as the feeder's walk leaves it in the tile's bank (R165). -/
def walkBank (e : Engine) (c : CombId) (f : FrameId) (pf : PartFeed) (tile : Nat) : Engine :=
  let fd := pf.feed
  let mine (o : Option ScaleBank) : Bool := match o with | some b => b.task == pf.k.task && b.tile == tile | none => false
  if fd.t.kind ≠ kDX then e
  else
    let ns := span (fd.start + (fd.len - 1) / 64 * 64) (fd.len - (fd.len - 1) / 64 * 64)
    onFrame e c f fun fr => { fr with banks := updFirst mine (fun o => o.map fun b =>
      { b with loaded := true, rows := ns.map fun n => (n, fd.wrow n) }) fr.banks }

/-- The smoothing factors that an interval needs and its frame does not hold. -/
def factorsDue (e : Engine) (c : CombId) (pf : PartFeed) (tile base : Nat) : List Nat :=
  if (smoothOf e c pf.k.task tile (smoothBase pf.tk.record base)).isSome then [] else smoothChans pf.feed

/-- Entries of a frame's smoothing register file (R184); an interval whose factors find no room in it waits for an earlier one's
commit (assumptions/102). -/
def smoothSize : Nat := 4096

/-- Factors held in a frame's smoothing register file (R184). -/
def smoothUsed (fr : Frame) : Nat := sumNat (fr.smooth.map fun h => h.vals.length)

/-- An interval's smoothing factors held as it begins (R184). -/
def loadSmooth (e : Engine) (c : CombId) (f : FrameId) (pf : PartFeed) (tile base : Nat) : Engine :=
  let ks := factorsDue e c pf tile base
  if ks.isEmpty then e
  else
    let role := smoothRole pf.tk.record pf.mask
    let v := pf.feed.view role
    let h : SmoothHeld := {
      task := pf.k.task, tile := tile, base := smoothBase pf.tk.record base
      vals := ks.map fun k => (k, w32 (v.nat (factorAt pf.feed k) 4)), poison := ks.any fun k => v.marked (factorAt pf.feed k) 4 }
    onFrame e c f fun fr => { fr with smooth := fr.smooth ++ [h] }

/-- What a tile's first interval settles for all of it: whether a dense input-gradient tile runs in dense W4 mode (R427). -/
def settleNarrow (fd : Feed) (j : TileJob) : TileJob :=
  if fd.t.kind = kDX ∧ fd.mask = 0 ∧ j.narrow = none then { j with narrow := some fd.allNarrow } else j

/-- What a part's first attempt settles: its width (R180, R189; assumptions/126). -/
def settlePart (wide : Bool) (p : Part) : Part := { p with begun := true, wide := wide }

/-- A line of a shard whose slot check fails as a feeder reads it (R405). -/
def shardLineBad (s : Shard) (l : Nat) : Bool := l ∉ s.bad && crc32c ((s.bytes.drop (64 * l)).take 64) != elemD s.checks l 0

/-- The lines of its comb's shard that an interval's feeder reads and whose slot check fails, as (shard, line). -/
def shardFaults (e : Engine) (c : CombId) (pf : PartFeed) : List (Nat × Nat) :=
  let t := pf.tk.record
  if !carouselServes e c t pf.tk.slotPin then []
  else
    let ls := (needFor pf.feed (weightRole t pf.mask) fun _ => true).lines
    dedup ((ls.flatMap fun l => [64 * l, 64 * l + 63]).filterMap fun a => (carouselAt e c t pf.tk.slotPin a).bind fun x =>
      if shardLineBad x.1 (x.2 / 64) then some (x.1.num, x.2 / 64) else none)

/-- Those lines marked poisoned in their slots, and counted (R405). -/
def checkShard (e : Engine) (c : CombId) (pf : PartFeed) : Engine :=
  let bad := shardFaults e c pf
  let mark (s : Shard) : Shard := { s with bad := s.bad ++ (bad.filter fun x => x.1 == s.num).map Prod.snd }
  if bad.isEmpty then e
  else
    let e := onComb e c fun cb => { cb with carousel := cb.carousel.map fun ca => { ca with own := mark ca.own, extras := ca.extras.map mark } }
    poisonEvent (bumpComb e c .slotCrc bad.length) c.val codeHalted

/-- What the feeders do before the first steps of a due part: the slot checks of what they read, the lines consumed, the registers loaded
(R165, R184, R268, R405). -/
def readyPart (m : Mem) (e : Engine) (c : CombId) (f : FrameId) (j : TileJob) (p : Part) : Engine :=
  match partFeed m e c j p with
  | none => e
  | some pf0 =>
    let rs := intervalReaders pf0.k pf0.tk.record pf0.mask j.tile p.base
    let e := if j.pass = 0 then checkShard (consume (checkSlots e c rs) c rs) c pf0 else e
    match partFeed m e c j p with
    | some pf => walkBank (loadSmooth (loadBank e c f pf j.tile) c f pf j.tile p.base) c f pf j.tile
    | none => e

/-- The due pass begins (R88, R92, R105): its attempt joins the flight and its steps stand ready; a skipped interval
joins it without steps, and leaves it in the same cycle (R153). A group overflow under TRAP fails the task from its decoding on (R142, R143). -/
def beginPass (m : Mem) (e : Engine) (c : CombId) (f : FrameId) (j : TileJob) (p : Part) : Engine :=
  let e := readyPart m e c f j p
  match partFeed m e c j p with
  | none => e
  | some pf =>
    let b := pf.feed.build
    let e := if b.trap then onTask e j.task fun t => { t with late := some (t.late.getD codeGroupOverflow) } else e
    let e := if pf.feed.wide then onTask e j.task fun t => { t with wide := true } else e
    onFrame e c f fun fr =>
      let a := attemptOf pf j p b j.pass fr.nextB
      let fr := onJob fr j.task j.tile fun j => settleNarrow pf.feed { j with parts := updAt j.parts j.entered (settlePart pf.feed.wide) }
      let fr := onJob fr j.task j.tile (if skipped b then (fun j => { j with pass := 0, entered := j.entered + 1 }) else passBegun b j.pass)
      if skipped b then { fr with flight := fr.flight ++ [a] }
      else
        { fr with flight := fr.flight ++ [a], steps := (elemD b.passes j.pass default).steps.map (fun s => { s with accB := fr.nextB })
                  fillB := fr.nextB, nextB := !fr.nextB, dirCols := a.dirCols, opmode := b.opmode }

/-! ### Stall causes -/

/-- Lines that a dispatched bucket's results will be written to (LINK of Table 08-7). -/
def linkAwaits (e : Engine) (line : Nat) : Bool :=
  e.lnk.buckets.any fun b => (b.state == .waiting || b.state == .active) &&
    decide (b.result / 64 ≤ line ∧ line < (b.result + b.entries * (if b.resultF32 then 4 else 2) + 63) / 64)

/-- A reference that a frame waits for: context, task, reference, tile and start of the interval. -/
structure Waits where
  k : Ctx
  tk : Task
  role : Nat
  tile : Nat
  base : Nat

/-- The reader whose lines a frame waits for. -/
def Waits.reader (w : Waits) : Reader := readerOf w.k.task w.role w.tile w.base

/-- The ring of a reference that a frame waits for. -/
def Waits.ring (w : Waits) (e : Engine) (c : CombId) : Option Ring := (descFor w.k w.role).bind fun d => ringOf e c d.ring

/-- What a frame waits for: the references of the part that is due whose data have not landed, or of the next tiles of the contexts
that serve it whose rings are not filling. -/
def waitingRoles (m : Mem) (e : Engine) (c : CombId) (f : FrameId) : List Waits :=
  match dueJob (frameOf e c f) with
  | some (j, p) =>
    (match partFeed m e c j p with
    | some pf => ((rowRoles pf.tk.record pf.mask ++ colRoles pf.tk.record pf.mask).filter fun r =>
        !roleReady e c pf.k pf.feed j.tile p.base r).map fun r => ⟨pf.k, pf.tk, r, j.tile, p.base⟩
    | none => [])
  | none => (candidates e c f).flatMap fun a =>
      ([rROW, rCOL].filter fun r => !roleFilling e c a.k a.tk a.mask a.tile r).map fun r => ⟨a.k, a.tk, r, a.tile, resumeAt e a.k a.tile⟩

/-- A write stream of a task in this comb is parked, or its index stream is (R254, R289). -/
def writeParked (e : Engine) (c : CombId) (task : Nat) : Bool :=
  e.mp.writes.any (fun w => w.parked && (match w.who with | .comb d _ t => d == c && t == task | _ => false)) ||
  (match ctxFor e c task with | some (_, k) => k.outs.any Stream.parked | none => false)

/-- The drain unit waits for a side operand of a finished tile whose ring is parked (R230, R286). -/
def sideParked (e : Engine) (c : CombId) (o : OutJob) : Bool :=
  o.lastOfTile && o.final.isNone && o.record.epilogue != 0 && (match ctxFor e c o.task with
    | some (_, k) => [rSIDE0, rSIDE1, rSIDE2].any fun r => (tRef o.record r).isSome &&
        (match (descFor k r).bind fun d => ringOf e c d.ring with | some g => g.parked | none => false)
    | none => false)

/-- The handle queue that a task's outputs go to is full (R276, R278). -/
def outputFull (e : Engine) (c : CombId) (t : TaskRec) : Bool :=
  let full (q : List HandleEntry) : Bool := decide (Config.handleQueue ≤ q.length)
  (t.chain == 1 && full (combOf e c).ringQ) ||
  ((decide (2 ≤ t.chain) || [t.dst, t.aux0, t.aux1].any fun h => h != 0 && spilled e h) && full (combOf e c).outQ)

/-- Tasks whose work a frame holds or would take. -/
def frameTasks (e : Engine) (c : CombId) (f : FrameId) : List TaskRec :=
  (frameOf e c f).out.map OutJob.record ++ (candidates e c f).map fun a => a.tk.record

/-- The contexts that serve a frame and wait for a shard that has not come (R282). -/
def shardWaits (e : Engine) (c : CombId) (f : FrameId) : List TaskRec :=
  ((candidates e c f).map fun a => a.tk.record).filter fun t => !shardHere e c t

/-- A task waits for its shard to be loaded at a step boundary while the update of its own tensor waits for a version slot (R239,
assumptions/105). A wait for a rotation is none (R282). -/
def updateAwaited (e : Engine) (c : CombId) (t : TaskRec) : Bool :=
  match e.cap.waiting, (combOf e c).carousel with
  | some j, some ca => ca.stale && t.param == j.param
  | _, _ => false

/-- A reference that a frame waits for needs a line whose handle its comb has not popped (R278, DEPENDENCE of Table 08-7). -/
def handleWaits (m : Mem) (e : Engine) (c : CombId) (w : Waits) : Bool :=
  let map := if mapped w.tk.record (maskOf e w.tk.record) then mapBytes (memView m e) w.tk.record w.tile else []
  let len := match cutOf w.k w.tile with | some p => p.2 | none => 0
  let f := feedOf m e c w.k w.tk.record map w.tile { base := w.base, start := w.base, len := min len (w.tk.record.redLen - w.base) } w.k.wide
  match w.ring e c with
  | none => false
  | some g => (needFor f w.role (landedFor g w.reader)).lines.any fun l => !heldFor g w.reader l && handleDue e c w.k.order l

/-- The cause of Table 08-7 for a cycle in which the frame starts no step, the drain condition and the flush given (assumptions/129). -/
def stallCause (m : Mem) (e : Engine) (c : CombId) (f : FrameId) (drain : Bool) : CombCtr :=
  let ws := waitingRoles m e c f
  let parked (w : Waits) : Bool := match w.ring e c with | some g => g.parked | none => false
  let link (w : Waits) : Bool := match w.ring e c with
    | some g => g.lines.any fun l => !l.landed && linkAwaits e l.line && decide (w.reader ∈ l.need)
    | none => false
  let starved (w : Waits) : Bool := match w.ring e c with
    | some g => ringCredits g == 0 && decide (Config.slotLines ≤ g.tailCount) && (linesFor g w.reader).isEmpty
    | none => false
  if ws.any parked || (frameOf e c f).out.any (fun o => writeParked e c o.task || sideParked e c o) then .stallXlat
  else if (shardWaits e c f).any (updateAwaited e c) then .stallVpin
  else if drain then .stallDrain
  else if !(shardWaits e c f).isEmpty || ws.any (handleWaits m e c) then .stallDep
  else if ws.any link then .stallLink
  else if ws.any starved || (frameTasks e c f).any (outputFull e c) then .stallCredit
  else .stallMem

/-- Some context that serves the frame can not issue its next tile (R271). -/
def waitsForTile (e : Engine) (c : CombId) (f : FrameId) : Bool := (candidates e c f).any fun a => !issuable e c a

/-! ### One frame cycle -/

/-- Whether a staging row of the buffer for accumulator b is free (R100). -/
def stagingFree (fr : Frame) (b : Bool) (r : Nat) : Bool := fr.out.all fun o => !o.staged || o.accB != b || decide (r < o.next)

/-- The attempt whose next line is readable, by its place in the flight (R97, R106). `moving` tells whether operands move. -/
def readable (fr : Frame) (moving : Bool) : Option (Nat × Attempt) :=
  match indexOf? (fun a => !a.skip && decide (a.reads.length < 64)) fr.flight with
  | none => none
  | some i =>
    match fr.flight[i]?, (fr.flight[i]?).bind Attempt.age with
    | some a, some n =>
      let r := a.reads.length
      let done := if r < 63 then decide (r + 64 ≤ n) else decide (128 ≤ n) || (n == 127 && moving)
      let earlier := (fr.flight.take i).any fun b => b.accB == a.accB && !b.skip
      if done && !earlier && stagingFree fr a.accB r then some (i, a) else none
    | _, _ => none

/-- The drain unit's part of a cycle before operands move: one line read and cleared (R98, R99). -/
def readOut (fr : Frame) (moving : Bool) : Frame :=
  match readable fr moving with
  | none => fr
  | some (i, a) =>
    let (l, cs) := readLine a.dirCols a.accB a.reads.length fr.cells
    { fr with cells := cs, flight := updAt fr.flight i fun a => { a with reads := a.reads ++ [l], since := 0 } }

/-- The corner, read with line 63 once it has accumulated (R97). -/
def readEnd (fr : Frame) (read : Option (Nat × Attempt)) : Frame :=
  match read with
  | some (i, a) =>
    if a.reads.length = 63 then
      let (x, cs) := readCorner a.accB fr.cells
      { fr with cells := cs, flight := updAt fr.flight i fun a => { a with reads := updAt a.reads 63 fun l => { l with corner := x } } }
    else fr
  | none => fr

/-- Operands move by one cell and every cell takes the step that reaches it. -/
def moveFrame (inp : Option StepIn) (fr : Frame) : Frame :=
  let pipe := shift fr.pipe inp
  { fr with pipe := pipe, cells := accumulate pipe fr.cells
            flight := fr.flight.map fun a => { a with age := a.age.map (· + 1) } }

/-- The attempt whose last step has just entered starts to age (R97). -/
def lastEntered (fr : Frame) : Frame :=
  let n := fr.flight.length
  { fr with flight := updAt fr.flight (n - 1) fun a => { a with age := some 0 } }

/-- Cycles since a complete read-out (R101). -/
def sinceRead (fr : Frame) : Frame :=
  { fr with flight := fr.flight.map fun a => if a.reads.length = 64 then { a with since := a.since + 1 } else a }

/-- What the frame does in a cycle: nothing moves, null or a due step enters. -/
inductive Move where
  | still
  | null
  | enter
  deriving DecidableEq, Repr

/-- The cycle's movement of the frame: read-out, movement, corner. -/
def cycleFrame (mv : Move) (fr : Frame) : Frame :=
  let moving := mv != .still
  let rd := readable fr moving
  let fr := readOut (sinceRead fr) moving
  let fr := match mv with
    | .still => fr
    | .null => moveFrame none fr
    | .enter =>
      let fr := moveFrame fr.steps.head? { fr with steps := fr.steps }
      let fr := { fr with steps := fr.steps.tail }
      if fr.steps.isEmpty then lastEntered fr else fr
  readEnd fr rd

/-- A cycle of 64 withheld for the duty (R551): the withheld ones are spread evenly. -/
def withheld (duty beat : Nat) : Bool := (beat + 1) * duty / 64 != beat * duty / 64

/-- The time to empty of the streams that a frozen frame waits for is 0 (R268). -/
def freezeRings (m : Mem) (e : Engine) (c : CombId) (f : FrameId) : Engine :=
  (waitingRoles m e c f).foldl (fun e w => match descFor w.k w.role with
    | some d => onStream e c d.ring w.k.task w.role fun s => { s with tte := { s.tte with frozen := true } }
    | none => e) e

/-- Freezes of one cycle: the row feeder is short, the column feeder is short, the drain condition holds. -/
structure Freeze where
  row : Bool
  col : Bool
  drain : Bool

/-- The feeders and the drain unit as the cycle finds them, for a frame with a due step; a row that is read in this cycle has been
read for a step that starts in it (R99). -/
def freezeOf (m : Mem) (e : Engine) (c : CombId) (fr : Frame) (rowLate colLate : Bool) : Freeze :=
  if !fr.steps.isEmpty then ⟨rowLate, colLate, false⟩
  else match dueJob fr with
  | none => ⟨false, false, false⟩
  | some (j, p) =>
    match partFeed m e c j p with
    | none => ⟨true, true, false⟩
    | some pf =>
      let full := decide (smoothSize < smoothUsed fr + (factorsDue e c pf j.tile p.base).length)
      let ok := fun role => roleReady e c pf.k pf.feed j.tile p.base role && !(full && role == smoothRole pf.tk.record pf.mask)
      ⟨rowLate || !(rowRoles pf.tk.record pf.mask).all ok, colLate || !(colRoles pf.tk.record pf.mask).all ok, drainHolds (readOut fr true) fr.nextB⟩

end Sys2Proof.Machine
end

