-- ==== Sys2Proof/Machine/Verdict.lean ====
section
/-! DEFINITION. Machine/Verdict.lean: the verdict on an interval (R92, R101 to R103, R174, R176 to R180, R187 to R189, R408 to
R412), its commit (R102, R140, R142, R144, R147, R162, R225, R237, R281) and the frame cycle that commits skipped intervals
(R153). -/

namespace Sys2Proof.Machine

/-! ### Commit -/

/-- HIST_SRC of a comb as it stands when an interval commits (CMB_OBS_CTRL, R187). -/
def histSrc (e : Engine) (c : CombId) : Nat := rwVal e (.cmbObsCtrl c) % 4

/-- What a commit adds to its comb's counters (R144, R187). The format and header faults of the committed attempt count here too: once
for each committed interval or part (assumptions/103). -/
def countCommit (e : Engine) (c : CombId) (n : Counts) : Engine :=
  let e := bumpComb (bumpComb (bumpComb e c .ovfLane n.excess) c .ovfSteps n.ovfSteps) c .trimDropped n.trimmed
  let e := bumpComb (bumpComb (bumpComb e c .zmapSkipped n.zskip) c .oorSlots n.oor) c .uflow n.uflow
  let e := bumpComb (bumpComb (bumpComb e c .zeroRows n.zeroRows) c .flatRows n.flatRows) c .nonfiniteRows n.nonfinite
  let src := histSrc e c
  let e := (n.hist.filter fun h => h.1 == src).foldl (fun e h => bumpComb e c (.hist (Fin.ofNat 64 h.2)) 1) (countHeaders e c n)
  onComb e c fun cb => { cb with nonzero := min (2 ^ 32 - 1) (cb.nonzero + n.nonzero) }

/-- A ROTATE task of a shard has committed: the rotation begins once the tasks of every shard that the comb works on have (R281, R285). -/
def rotateShard (shard : Nat) (ca : Carousel) : Carousel :=
  let done := insertNat shard ca.rotated
  if !ca.sending && (ca.own :: ca.extras).all fun x => decide (x.num ∈ done) then { ca with sending := true, sent := 0, rotated := [] }
  else { ca with rotated := done }

/-- The comb's carousel hears of a ROTATE task's commit (R281). A task that names no shard rotates its comb's own one. -/
def startRotation (e : Engine) (c : CombId) (t : TaskRec) : Engine :=
  onComb e c fun cb => { cb with carousel := cb.carousel.map fun ca => rotateShard (if tShard t then t.affinity else ca.own.num) ca }

/-- A task has committed its last interval: UNPIN, LAST_USE and ROTATE take effect (R225, R237, R281). -/
def taskCommitted (e : Engine) (c : CombId) (t : TaskRec) : Engine :=
  let e := if tUnpin t && t.mbValid then unpinMb e t.param t.mb t.step else e
  let e := if tLastUse t then releaseEntry e t.mb t.layer else e
  if tRotate t then startRotation e c t else e

/-- Entries for the capping unit that hold a tile's adds: in the comb, in the hub, or not yet applied. -/
def spillPending (e : Engine) (c : CombId) (task tile : Nat) : Bool :=
  let mine (x : HandleEntry) : Bool := x.task == task && x.tile == tile && !x.adds.isEmpty
  (combOf e c).chain.any mine || (combOf e c).outQ.any mine || e.hf.hand.any mine || e.cap.queue.any mine

/-- A tile whose outputs have all left the comb is done (R317). -/
def settleTile (e : Engine) (c : CombId) (task tile : Nat) : Engine :=
  let waits := (combOf e c).frames.any fun fr => fr.out.any fun o => o.task == task && o.tile == tile
  onTask e task fun t =>
    if tile ∈ t.commTiles && !waits && !spillPending e c task tile then { t with doneTiles := insertNat tile t.doneTiles } else t

/-- A tile's resume offset advances (R317). -/
def advanceOffset (e : Engine) (task tile reach : Nat) : Engine :=
  onTask e task fun t => { t with offsets := assign t.offsets tile (max reach (lookupD t.offsets tile 0)) }

/-- What an interval's commit counts and marks, skipped or not (R144, R147, R187): its tile's first suspect or trapped interval counts
the tile. -/
def settleMarks (e : Engine) (c : CombId) (j : TileJob) (a : Attempt) : Engine :=
  let e := countCommit e c a.counts
  let e := if a.suspect && !j.suspect then bumpComb (onTask e j.task fun t => { t with metaSuspect := true }) c .suspectTiles 1 else e
  if a.trap && !j.trap then bumpComb e c .trapTiles 1 else e

/-- A tile's marks with a committed attempt's. -/
def joinMarks (a : Attempt) (j : TileJob) : TileJob :=
  { j with poison := j.poison || a.poison, suspect := j.suspect || a.suspect, trap := j.trap || a.trap }

/-- Slots and smoothing factors of an interval released once none of its parts is left (R162, R184); an input-gradient tile's factors
stay for the drain unit. -/
def releasePart (e : Engine) (c : CombId) (f : FrameId) (t : TaskRec) (j : TileJob) (base : Nat) (rest : List Part) : Engine :=
  if rest.any fun q => q.base == base then e
  else
    let e := if t.kind = kDX then e else onFrame e c f (freeSmooth j.task j.tile base)
    releaseInterval e c ⟨j.task, j.tile, base⟩

/-- An interval commits with its values (R102): staging rows wait for write-out, the interval is counted, its slots are released, and with
the tile's last one its register bank (R166). One whose steps zero maps skip is not counted, a split part neither (R153; DESIGN CHOICE,
assumptions/141). -/
def commitPart (m : Mem) (e : Engine) (c : CombId) (f : FrameId) (a : Attempt) (vals : Values) : Engine :=
  match (frameOf e c f).jobs.find? (fun j => j.task == a.task && j.tile == a.tile), taskOf e a.task with
  | some j, some tk =>
    match j.parts with
    | [] => e
    | p :: rest =>
      let t := tk.record
      match partFeed m e c j p with
      | none => e
      | some pf =>
        let last := rest.isEmpty
        let slot := match tk.slotPin with | some s => s | none => 0
        let (adds, bad) := if t.kind = kDW ∧ !a.skip then gradAdds m e pf.feed slot vals else ([], false)
        let poison := a.poison || a.trap || tk.poisonIn || j.poison || j.trap || bad
        let out : OutJob := {
          task := a.task, tile := a.tile, record := t, reach := p.start + p.len, lastOfTile := last, accB := a.accB
          dirCols := a.dirCols, order := (combOf e c).commits, adds := adds, map := j.map, staged := !a.skip
          fresh := a.skip && !j.ran, poison := poison
          rows := if storing t && !a.skip then (match vals with | v :: _ => v.1 | [] => []) else [] }
        let e := onComb e c fun cb => { cb with commits := cb.commits + 1 }
        let e := if last || !a.skip then onFrame e c f fun fr => { fr with out := fr.out ++ [out] } else e
        let e := onFrame e c f fun fr =>
          let fr := onJob fr a.task a.tile fun j => joinMarks a { j with parts := rest, entered := j.entered - 1, ran := j.ran || !a.skip }
          { fr with jobs := fr.jobs.filter fun j => !j.parts.isEmpty }
        let e := settleMarks e c j a
        let e := if a.skip then e else bumpFrame e c f .intervals 1
        let e := if poison && last && storing t then markOut e a.task else e
        let e := releasePart e c f t j p.base rest
        if !last then e
        else
          let e := onFrame e c f (freeBank a.task a.tile)
          let e := if t.epilogue = 0 then releaseTile e c a.task a.tile else e
          let e := onTask e a.task fun t => { t with commTiles := insertNat a.tile t.commTiles }
          match taskOf e a.task with
          | some tk => if tk.commTiles.length = tileCount t pf.mask then taskCommitted e c t else e
          | none => e
  | _, _ => e

/-- The interval at the front of a frame's flight commits with its values, and counts in FRM_INTERVALS; a part that zero maps skip whole has
no such attempt and counts in none (DESIGN CHOICE, assumptions/141). -/
def commit (m : Mem) (e : Engine) (c : CombId) (f : FrameId) (a : Attempt) (vals : Values) : Engine :=
  commitPart m (onFrame e c f fun fr => { fr with flight := fr.flight.tail, high := [], passes := [] }) c f a vals

/-- An attempt at a halving level above 0 or on a split part has ended on its own (R179). -/
def countReplay (e : Engine) (c : CombId) (f : FrameId) (a : Attempt) : Engine :=
  if a.level = 0 then e
  else onTask (bumpFrame e c f .ovfReplays 1) a.task fun t => { t with replays := min 0xFFFF (t.replays + 1) }

/-- An interval without steps, with others of its tile still to commit, commits where its first step would have entered (R153): it adds nothing,
so earlier intervals of the tile may still be in flight; where it was the tile's last one, the running tile is stored once they have
committed (assumptions/104). -/
def passOver (e : Engine) (c : CombId) (f : FrameId) (t : TaskRec) (j : TileJob) (p : Part) (a : Attempt) : Engine :=
  let rest := j.parts.eraseIdx j.entered
  let e := onFrame e c f fun fr => onJob fr j.task j.tile fun j => joinMarks a { j with parts := rest }
  let e := settleMarks e c j a
  let e := releasePart e c f t j p.base rest
  let waits := (frameOf e c f).out.any fun o => o.task == j.task && o.tile == j.tile
  if j.entered = 0 ∧ !waits then advanceOffset e j.task j.tile (p.start + p.len) else e

/-! ### Failing -/

/-- Cycles until the skew is empty (R103): the youngest step leaves the corner cell. -/
def flushCycles (pipe : List (Option StepIn)) : Nat :=
  match indexOf? Option.isSome pipe with
  | some i => 129 - i
  | none => 0

/-- The accumulator that the first pass of an attempt's interval filled: passes alternate (R88, R92). -/
def firstAcc (a : Attempt) : Bool :=
  let place := (if a.wide then 2 * a.rank else a.rank) + (if a.pass == .low then 1 else 0)
  if place % 2 = 1 then !a.accB else a.accB

/-- The frame after a failed interval (R103): every entered interval is abandoned, cells and flags are cleared, the skew
empties; the first accumulator filled again is the failed interval's. -/
def abandon (a : Attempt) (fr : Frame) : Frame :=
  { fr with mode := .replayFlush, cells := [], pipe := [], steps := [], flight := [], high := [], passes := []
            flush := flushCycles fr.pipe, nextB := firstAcc a, fillB := firstAcc a
            jobs := fr.jobs.map fun j => { j with entered := 0, pass := 0 } }

/-- The parts of an interval or part split in two (R176): the first a multiple of 64; a second one of no element is none. -/
def splitPart (p : Part) : List Part :=
  let a := 64 * ((p.len + 127) / 128)
  ([{ p with len := a, level := 1, split := true }, { p with start := p.start + a, len := p.len - a, level := 1, split := true }]).filter
    fun q => q.len != 0

/-- The failed interval is due again as the parts given. -/
def runAgain (e : Engine) (c : CombId) (f : FrameId) (a : Attempt) (parts : Part → List Part) : Engine :=
  onFrame e c f fun fr => abandon a (onJob fr a.task a.tile fun j =>
    { j with parts := match j.parts with | p :: ps => parts p ++ ps | [] => [] })

/-! ### The verdict -/

/-- What R408 to R410 find for an attempt. -/
def checkOf (a : Attempt) : CheckFail :=
  let sampled := !a.sc.lane.isEmpty
  (checkFails 24 sampled (accSet a.dirCols a.reads)).join (checkFails 29 sampled (corrSet a.dirCols a.reads))

/-- A check mismatch (R411, R412): retried once in 1 ms, else a frame fault that fences the comb. -/
def mismatch (e : Engine) (c : CombId) (f : FrameId) (a : Attempt) : Engine :=
  let (i, j) := (checkOf a).locate (!a.sc.lane.isEmpty)
  let e := onComb e c fun cb => { cb with checkLast := w32 (at' f.val 24 + at' i 8 + j) }
  let again := match (frameOf e c f).mismatch with
    | some x => decide (e.hub.cycle ≤ x + Config.checkWindow)
    | none => false
  let e := onFrame e c f fun fr => { fr with mismatch := some e.hub.cycle }
  if again then fenceComb e c 3 f.val
  else
    let e := raiseErr (bumpComb e c .checkRetries 1) errCheckRetry
    let e := onTask e a.task fun t => { t with replays := min 0xFFFF (t.replays + 1) }
    onFrame e c f (abandon a)

/-- An overflow takes R176's next step. -/
def overflow (e : Engine) (c : CombId) (f : FrameId) (a : Attempt) : Engine :=
  let e := countReplay e c f a
  if a.level = 0 then runAgain e c f a fun p => [{ p with level := 1 }]
  else bumpFrame (runAgain e c f a splitPart) c f .splits 1

/-- The underflow limit of a task in 1/256; none disables the wide fall-back (R188). -/
def ufLimitOf (e : Engine) (t : TaskRec) : Option Nat :=
  let reg := bits (samplesOf e).qntCtrl.toNat 16 8
  let v := if t.ufLimit ≠ 0 then t.ufLimit else if reg = 0 then 0x10 else reg
  if v = 255 then none else some v

/-- The interval's first S8 attempt underflows above its limit (R180, R188); a split's parts are not tested (assumptions/125). -/
def underflows (e : Engine) (a : Attempt) (split : Bool) : Bool :=
  match taskOf e a.task with
  | none => false
  | some tk =>
    match ufLimitOf e tk.record with
    | none => false
    | some l => !a.wide && a.level == 0 && !split && decide (l * a.counts.nonzero < 256 * a.counts.uflow)

/-- WIDE_STICKY as sampled (R189, R196). -/
def wideSticky (e : Engine) : Bool := bit (samplesOf e).qntCtrl.toNat 0

/-- The wide re-run (R180, R189). The task's later intervals in the frame, entered or not, settle their width anew: whether one had
entered is timing, which no result depends on (R109). -/
def wideRerun (e : Engine) (c : CombId) (f : FrameId) (a : Attempt) : Engine :=
  let e := bumpComb e c .wideReruns 1
  let again (j : TileJob) : TileJob := if j.task = a.task then { j with parts := j.parts.map fun p => { p with begun := false } } else j
  let e := onFrame e c f fun fr => { fr with jobs := fr.jobs.map again }
  let e := if wideSticky e then
      (match ctxFor e c a.task with | some (x, _) => onCtx e c x fun k => { k with wide := true } | none => e) else e
  runAgain e c f a fun p => [{ p with wide := true, begun := true }]

/-- A passing verdict: a pass that is not the interval's last is held by the drain unit apart from the staging buffers (R92, R140,
assumptions/123), the last one commits. -/
def pass (m : Mem) (e : Engine) (c : CombId) (f : FrameId) (a : Attempt) (t : TaskRec) (mask : Nat) : Engine :=
  let cs := corrected a.dirCols t mask a
  if a.pass = .high then onFrame e c f fun fr => { fr with flight := fr.flight.tail, high := cs }
  else
    let fr := frameOf e c f
    let v := dequant a.dirCols a.sc (if a.pass = .low then widen16 fr.high cs else cs)
    let vs : Values := fr.passes ++ [(v, a.sc)]
    if a.rank + 1 < a.ranks then onFrame e c f fun fr => { fr with flight := fr.flight.tail, high := [], passes := vs }
    else commit m (countReplay e c f a) c f a vs

/-- The attempt at the front has all its read-outs and four cycles have passed (R101). -/
def verdictDue (fr : Frame) : Option Attempt :=
  match fr.flight with
  | a :: _ => if !a.skip && a.reads.length = 64 && 4 ≤ a.since && fr.mode != .replayFlush then some a else none
  | [] => none

/-- INTERVAL_VERDICT. -/
def verdict (m : Mem) (e : Engine) (c : CombId) (f : FrameId) (lane : LaneFault) : Engine :=
  if !works e c then e
  else match verdictDue (frameOf e c f) with
  | none => e
  | some a =>
    match taskOf e a.task with
    | none => e
    | some tk =>
      let split := match (frameOf e c f).jobs.find? (fun j => j.task == a.task && j.tile == a.tile) with
        | some j => (match j.parts with | p :: _ => p.split | [] => false)
        | none => false
      let e := if lane then laneEvent (bumpComb e c .laneMismatch 1) else e
      let final := a.pass != .high && a.rank + 1 == a.ranks
      if lane || !(checkOf a).ok then mismatch e c f a
      else if a.reads.any ReadLine.ovf then overflow e c f a
      else if final && underflows e a split then wideRerun e c f a
      else pass m e c f a tk.record (maskOf e tk.record)

def execIntervalVerdict (c : CombId) (f : FrameId) (lane : LaneFault) (s : State) : Host.Outcome State Fault Refusal :=
  .next (reading s [] fun m e => verdict m e c f lane)

/-! ### The frame cycle -/

/-- A due interval without steps commits (R153): its attempt leaves the flight that it joined, and while others of its tile have not committed
it is passed over; otherwise the drain unit converts and stores the running tile. -/
def skipPart (m : Mem) (e : Engine) (c : CombId) (f : FrameId) (t : TaskRec) (j : TileJob) (p : Part) : Engine :=
  let e := beginPass m e c f j p
  match (frameOf e c f).flight.getLast? with
  | none => e
  | some a =>
    let e := onFrame e c f fun fr =>
      onJob { fr with flight := fr.flight.dropLast } j.task j.tile fun j => { j with entered := j.entered - 1 }
    let e := countReplay e c f a
    match (frameOf e c f).jobs.find? fun x => x.task == j.task && x.tile == j.tile with
    | some j => if j.parts.length = 1 then commitPart m e c f a [] else passOver e c f t j p a
    | none => e

/-- Intervals without steps pass where their first steps would have entered (R153, assumptions/104). -/
def passSkips (m : Mem) (c : CombId) (f : FrameId) (rowLate colLate : Bool) : (fuel : Nat) → Engine → Engine
  | 0, e => e
  | n + 1, e =>
    let fr := frameOf e c f
    match dueJob fr with
    | none => e
    | some (j, p) =>
      let z := freezeOf m e c fr rowLate colLate
      if !fr.steps.isEmpty || z.row || z.col then e
      else
        match partFeed m e c j p with
        | none => e
        | some pf => if !skipped pf.feed.build then e else passSkips m c f rowLate colLate n (skipPart m e c f pf.tk.record j p)

/-- A frame cycle of an enabled comb, the duty and the flush apart (R87, R106 to R110). A cycle in which null steps enter is an idle one
(R110). -/
def liveCycle (m : Mem) (e : Engine) (c : CombId) (f : FrameId) (rowLate colLate : Bool) : Engine :=
  let e := passSkips m c f rowLate colLate ((frameOf e c f).jobs.foldl (fun n j => n + j.parts.length) 0) e
  let fr := frameOf e c f
  let due := !fr.steps.isEmpty || (dueJob fr).isSome
  let z := if due then freezeOf m e c fr rowLate colLate else ⟨false, false, false⟩
  let e := if due && !z.row && !z.col && !z.drain && fr.steps.isEmpty then
      (match dueJob fr with | some (j, p) => beginPass m e c f j p | none => e) else e
  let mv : Move := if !due then .null else if z.row || z.col then .still else if z.drain then .null else .enter
  let frozen := due && (z.row || z.col || z.drain)
  let e := onFrame e c f (cycleFrame mv)
  let fr := frameOf e c f
  let mode : FrameMode :=
    if frozen then (if z.drain then .frozenDrain else if z.row then .frozenRowf else .frozenColf)
    else if due then .run else .idle
  let e := onFrame e c f fun fr => { fr with mode := mode }
  let e := if frozen then bumpFrame e c f (if z.drain then .freezeDrain else if z.row then .freezeRowf else .freezeColf) 1 else e
  let e := if !frozen && anyStep fr.pipe then bumpFrame e c f .active 1 else e
  let e := if z.row || z.col then freezeRings m e c f else e
  if mv = .enter then e
  else if due || waitsForTile e c f then bumpComb e c (stallCause m e c f z.drain) 1
  else e

/-- FRAME_STEP: one cycle of the comb's island for a frame. A stretched cycle is one nominal cycle longer (R272, R544). In a flush
the skew is gone and no cycle counts as active (R103, assumptions/124). -/
def frameStep (m : Mem) (e : Engine) (c : CombId) (f : FrameId) (rowLate colLate : Bool) : Engine :=
  if !works e c then e
  else
    let fr := frameOf e c f
    let e := if islandStretched e c.val && frameDue fr then bumpComb e c .stallDroop 1 else e
    let hold := withheld (dutyNow e) fr.beat
    let e := onFrame e c f fun fr => { fr with beat := (fr.beat + 1) % 64 }
    if fr.mode = .replayFlush then
      let e := bumpComb e c .stallReplay 1
      if hold then e else onFrame e c f fun fr => { sinceRead fr with flush := fr.flush - 1 }
    else if hold then (if frameDue fr || waitsForTile e c f then bumpComb e c .stallThermal 1 else e)
    else liveCycle m e c f rowLate colLate

/-- REPLAY_RESTART (R103): the skew is empty, and steps may enter again from the failed interval. -/
def replayRestart (e : Engine) (c : CombId) (f : FrameId) : Engine :=
  let fr := frameOf e c f
  if works e c && fr.mode == .replayFlush && fr.flush == 0 then onFrame e c f fun fr => { fr with mode := .run } else e

def execTileIssue (c : CombId) (f : FrameId) (rd : List MemLine) (s : State) : Host.Outcome State Fault Refusal :=
  .next (readingIn s c rd fun m e => tileIssue m e c f)
def execFrameStep (c : CombId) (f : FrameId) (rowLate colLate : Bool) (s : State) : Host.Outcome State Fault Refusal :=
  .next (reading s [] fun m e => frameStep m e c f rowLate colLate)
def execReplayRestart (c : CombId) (f : FrameId) (s : State) : Host.Outcome State Fault Refusal :=
  .next (onEngine s fun e => replayRestart e c f)

end Sys2Proof.Machine
end

