-- ==== Sys2Proof/Machine/Writeout.lean ====
section
/-! DEFINITION. Machine/Writeout.lean: staging rows written out (R102, R172, R205 to R209, R214, R231 to R234) and drain-only
tasks (R228 to R232). -/

namespace Sys2Proof.Machine

/-! ### Staging rows -/

/-- The feed that a committed tile's last store works with. -/
def outFeed (m : Mem) (e : Engine) (c : CombId) (o : OutJob) : Option (Fin 4 × Ctx × Feed) :=
  (ctxFor e c o.task).map fun p => (p.1, p.2, feedOf m e c p.2 o.record o.map o.tile { base := 0, start := 0, len := 0 } false)

/-- The side operands of a row reduction that a task names. -/
def sideRoles (t : TaskRec) : List Nat := if t.epilogue = 0 then [] else [rSIDE0, rSIDE1, rSIDE2].filter fun r => (tRef t r).isSome

/-- The split lines of a finished tile, merged in the frame's merge region (R136): line and values by column. -/
def mergedRows (dirCols : Bool) (f : Feed) (tile : List (List Word)) : List (Nat × List Word) :=
  ((List.range 64).zip f.geo.rows).filterMap fun x => match x.2 with
    | some (n, s, 0) => if s ≤ 1 then none else some (n, (List.range 64).map fun j => (mergedVal dirCols f tile x.1 j).getD 0)
    | _ => none

/-- A line of a side operand that a product tile reads, or of its index stream, is poisoned: every output line of the tile is (R417). -/
def sideMarked (f : Feed) : Bool :=
  (sideRoles f.t).any fun r =>
    let n := needSide f r
    n.lines.any (f.view r).mark || n.positions.any fun p => ((f.ix r).val p).2

/-- The tile as its lines leave, formed at the last commit's write-out (R136, R172, R231 to R234); its side slots are released. -/
def finishTile (e : Engine) (c : CombId) (f : FrameId) (fd : Feed) (o : OutJob) (running : List (List Word)) : Engine :=
  let tile := addTile running o.rows
  let ls := tileLines o.dirCols fd tile
  let gains := tileGains o.dirCols fd tile
  let side := sideMarked fd
  let bad := (List.range ls.length).filter fun i => side || (elemD ls i {}).poison
  let e := onFrame e c f fun fr => { fr with merge := mergedRows o.dirCols fd tile, out := updAt fr.out 0 fun o =>
    { o with final := some (ls.map LineOut.elems), finalPoison := bad, extra := gains.1, extraBad := side || gains.2
             adds := (List.range ls.length).map fun i => elemD o.adds i [] ++ (elemD ls i {}).adds } }
  if o.record.epilogue = 0 then e else releaseTile e c o.task o.tile

/-- Regions that a product task's epilogue adds into (Table 07-3, R233). -/
def epilogueHandles (t : TaskRec) : List Nat :=
  (if t.epilogue = 2 ∨ t.epilogue = 4 then [t.dst] else []) ++ (if t.epilogue = 3 ∨ t.epilogue = 4 then [t.aux0, t.aux1] else [])

/-- The adds that leave with the next row of a committed interval: its line's, and after the last line the parameter gradients. -/
def rowAdds (o : OutJob) : List (Nat × Nat × Word) := elemD o.adds o.next [] ++ (if o.next = 63 then o.extra else [])

/-- The regions that a committed interval has yet to add into; those of an epilogue that is not formed count (R206). -/
def jobHandles (o : OutJob) : List Nat :=
  addHandles ((o.adds.drop o.next).flatten ++ o.extra) ++ (if o.lastOfTile && o.final.isNone then epilogueHandles o.record else [])

/-- Another drain unit of the comb holds an earlier commit's adds into a region that these adds name (R206). -/
def earlierAdds (e : Engine) (c : CombId) (f : FrameId) (o : OutJob) (hs : List Nat) : Bool :=
  ((List.range 4).zip (combOf e c).frames).any fun p => p.1 != f.val && p.2.out.any fun x =>
    decide (x.order < o.order) && (jobHandles x).any fun h => h != 0 && decide (h ∈ hs)

/-- The last line of an interval with adds into a spilled region. -/
def lastSpill (e : Engine) (o : OutJob) (r : Nat) : Bool :=
  (o.adds.drop (r + 1)).all fun l => l.all fun a => !spilled e a.1

/-- Every other tile of a task has left the comb's frames (LAST of Table 08-8). -/
def lastToLeave (e : Engine) (c : CombId) (o : OutJob) : Bool :=
  (match taskOf e o.task with | some tk => decide (tk.commTiles.length = tileCount o.record (maskOf e o.record)) | none => false) &&
  (combOf e c).frames.all fun fr => fr.out.all fun x => x.task != o.task || x.tile == o.tile

/-- Bytes of a staging row (R100): 64 F32 results. -/
def rowBytes : Nat := 256

/-- The output of a drain-only task, token by token. -/
def drainPlaces (t : TaskRec) : List (Nat × Nat × Word) :=
  (List.range t.outRows).flatMap fun tok => (List.range t.rowLen).map fun ch => (tok, ch, 0)

/-- A staging row goes to its destination; `brood` poisons the brood lines that it adds into (R405, R407). What is left of a transfer
whose write fault is unresolvable is dropped (R289). -/
def writeRow (m : Mem) (e : Engine) (c : CombId) (f : FrameId) (o : OutJob) (brood : Bool) : Engine :=
  let r := o.next
  let t := o.record
  let bad := o.poison || decide (r ∈ o.finalPoison)
  let e := match storing t, o.lastOfTile, o.final with
    | true, true, some ls =>
      if o.doomed then e
      else (match ctxFor e c o.task with
        | some (x, k) => storeOut m (onCtx e c x fun k => { k with tte := { k.tte with now := k.tte.now + rowBytes } }) c x k t (elemD ls r []) bad
        | none => e)
    | true, false, _ => onFrame e c f fun fr =>
        let run := if fr.running.isEmpty then List.replicate 64 [] else fr.running
        { fr with running := updAt run r fun l => (List.range 64).map fun x => fAdd (elemD l x 0) (elemD (elemD o.rows r []) x 0) }
    | _, _, _ => e
  let adds := elemD o.adds r []
  let last := o.lastOfTile && t.chain == 0 && lastToLeave e c o
  let e := if bad && !adds.isEmpty then markOut e o.task else e
  let e := handAdds e c t o.task o.tile o.reach r adds bad brood (lastSpill e o r && !(o.extra.any fun a => spilled e a.1)) last o.waited
  let e := if r = 63 ∧ !o.extra.isEmpty then
      (let bad := o.poison || o.extraBad
       handAdds (if bad then markOut e o.task else e) c t o.task o.tile o.reach r o.extra bad brood true last o.waited) else e
  onFrame e c f fun fr => { fr with out := updAt fr.out 0 fun o => { o with next := o.next + 1, waited := false } }

/-- The bytes that a finished tile stores: the lowest address, their number and whether a line of them is poisoned. -/
def tileBuffer (m : Mem) (e : Engine) (c : CombId) (k : Ctx) (o : OutJob) : Nat × Nat × Bool :=
  let d := (descFor k rOUT).getD default
  let bs := ((o.final.getD []).flatten.filterMap (outAt e o.record d (ixOf m e c k rOUT))).flatMap OutElem.bytes
  let lo := bs.foldl (fun a b => min a b.1) ((bs.head?.map Prod.fst).getD 0)
  (lo, bs.length, (dedup (bs.map fun b => lineOf b.1 % 2 ^ 46)).any (viewPoison m e))

/-- The handle of a finished tile's output joins the chain that its task names (Table 08-8, Table 09-3, R276, R278, assumptions/106). -/
def chainHandle (m : Mem) (e : Engine) (c : CombId) (o : OutJob) : Engine :=
  let t := o.record
  match ctxFor e c o.task with
  | none => e
  | some (_, k) =>
    if t.chain = 0 then e
    else
      let b := tileBuffer m e c k o
      let tag := if t.chain = 3 then (match regionOf e t.dst with | some r => r.bucket | none => 0) else t.mb
      let h : Handle := {
        addr := b.1, len := b.2.1, tag := BitVec.ofNat 16 tag, poison := b.2.2, last := lastToLeave e c o, onchip := false
        src := BitVec.ofNat 8 c.val }
      onComb e c fun cb => { cb with chain := cb.chain ++ [{ h := h, task := o.task, tile := o.tile, reach := o.reach, dest := t.chain }] }

/-- Every row of a committed interval has left its staging buffer: its progress is recorded (R317). -/
def endJob (m : Mem) (e : Engine) (c : CombId) (f : FrameId) (o : OutJob) : Engine :=
  let e := onFrame e c f fun fr => { fr with out := fr.out.tail }
  let spill := spillPending e c o.task o.tile
  let e := if storing o.record || spill then e else advanceOffset e o.task o.tile o.reach
  if !o.lastOfTile then e
  else
    let e := onFrame e c f fun fr => freeSmooth o.task o.tile 0 (if o.fresh then fr else { fr with running := [], merge := [] })
    let e := onFrame e c f fun fr => if (fr.jobs.any fun j => j.task == o.task) || fr.out.any fun x => x.task == o.task then fr
      else match taskOf e o.task with | some t => if t.failed.isSome then filesWithout o.task fr else fr | none => fr
    chainHandle m (settleTile e c o.task o.tile) c o

/-- The slot checks of a finished tile's side operands, as the drain unit reads them (R405). -/
def checkSides (e : Engine) (c : CombId) (k : Ctx) (o : OutJob) : Engine :=
  checkSlots e c ((sideRoles o.record).filterMap fun r => (descFor k r).map fun d => (d.ring, readerOf o.task r o.tile 0))

/-- A lane mismatch of the drain unit as it writes a row out or runs a drain-only task: as a check mismatch, not located (R407, R411, R412).
The retry repeats the work from what the drain unit still holds (assumptions/34). -/
def drainLane (e : Engine) (c : CombId) (f : FrameId) (task : Nat) : Engine :=
  let e := laneEvent (bumpComb e c .laneMismatch 1)
  let e := onComb e c fun cb => { cb with checkLast := w32 (at' f.val 24 + at' 127 8 + 127) }
  let again := match (frameOf e c f).mismatch with
    | some x => decide (e.hub.cycle ≤ x + Config.checkWindow)
    | none => false
  let e := onFrame e c f fun fr => { fr with mismatch := some e.hub.cycle }
  if again then fenceComb e c 3 f.val
  else onTask (raiseErr (bumpComb e c .checkRetries 1) errCheckRetry) task fun t => { t with replays := min 0xFFFF (t.replays + 1) }

/-- STAGING_ROW_WRITEOUT: the next row of the oldest committed interval, once its destination accepts it and the index values that place it have
landed (R254). -/
def writeout (m : Mem) (e : Engine) (c : CombId) (f : FrameId) (fault : RowFault) : Engine :=
  if !works e c then e
  else match (frameOf e c f).out with
  | [] => e
  | o :: _ =>
    let last := storing o.record && o.lastOfTile
    let e := match last, o.final, outFeed m e c o with
      | true, none, some (_, k, fd) =>
        if (sideRoles o.record).all (roleReady e c k fd o.tile 0) then finishTile (checkSides e c k o) c f fd o (if o.fresh then [] else (frameOf e c f).running) else e
      | _, _, _ => e
    match (frameOf e c f).out with
    | [] => e
    | o :: _ =>
      let adds := rowAdds o
      let hs := addHandles adds
      let placed := match ctxFor e c o.task, o.final with
        | some (_, k), some ls => o.doomed || outHere k (elemD ls o.next [])
        | _, _ => true
      if (last && (o.final.isNone || !placed)) || writeParked e c o.task then e
      else if addsWait e o.record.step adds then
        if o.waited then e
        else bumpComb (onFrame e c f fun fr => { fr with out := updAt fr.out 0 fun o => { o with waited := true } }) c .stepWaits 1
      else if earlierAdds e c f o hs || (hs.any (spilled e) && !(combOf e c).chain.isEmpty) then e
      else if fault.drain then drainLane e c f o.task
      else
        let brood := hs.any fun h => !spilled e h
        let e := if fault.add && brood then laneEvent (bumpComb e c .laneMismatch 1) else e
        let e := writeRow m e c f o (fault.add || fault.crc)
        match (frameOf e c f).out with
        | o :: _ => if 64 ≤ o.next then endJob m e c f o else e
        | [] => e

def execStagingRowWriteout (c : CombId) (f : FrameId) (fault : RowFault) (s : State) : Host.Outcome State Fault Refusal :=
  .next (reading s [] fun m e => writeout m e c f fault)

/-! ### Drain-only tasks -/

/-- A frame's drain unit is free for a drain-only or SELECT task: no interval of the frame is uncommitted or still leaves (R310). -/
def drainFree (fr : Frame) : Bool := fr.jobs.isEmpty && fr.flight.isEmpty && fr.out.isEmpty && fr.drainOnly.isNone

/-- The drain-only task that a frame's drain unit holds or can take: its side ring is the one that the task's operands
name (R229, R310, R573). -/
def drainTask (e : Engine) (c : CombId) (f : FrameId) : Option (Fin 4 × Ctx × Task) :=
  let held := (frameOf e c f).drainOnly
  let taken (i : Nat) : Bool := (combOf e c).frames.any fun fr => fr.drainOnly == some i
  let ok (x : Fin 4) (k : Ctx) (tk : Task) : Option (Fin 4 × Ctx × Task) :=
    if tk.record.kind = kDRAIN ∧ tk.failed.isNone ∧ tk.commTiles = [] ∧ tk.life = .running (.comb c) ∧
        (held = some k.task ∨ (drainFree (frameOf e c f) ∧ !taken k.task)) then
      (match descFor k rROW with | some d => if sideReads d f.val then some (x, k, tk) else none | none => none)
    else none
  let all := allFrames.filterMap fun x => match ctxOf e c x with
    | some k => (match taskOf e k.task with | some tk => ok x k tk | none => none)
    | none => none
  minBy (fun a => a.2.1.order) all

/-- A comb's activation store laid over a view (R224). -/
def actView (e : Engine) (c : CombId) (v : View) : View where
  byte a := match actLookup e c (64 * lineOf a) with | some l => elemD l.data (a % 64) 0 | none => v.byte a
  mark n := match actLookup e c (64 * n) with | some l => l.poison || crc32c l.data != l.check | none => v.mark n

/-- Operand lines that drain units hold for a task. -/
def drainHeld (e : Engine) (c : CombId) (task : Nat) : List SlotLine :=
  (combOf e c).frames.flatMap fun fr => if fr.drainOnly = some task then fr.held else []

/-- The feed of a drain-only or SELECT task: its operands are one tile, read from its rings and from what the drain unit has taken of them
(assumptions/35). -/
def drainFeed (m : Mem) (e : Engine) (c : CombId) (k : Ctx) (t : TaskRec) : Feed :=
  let lines (r : Nat) : List SlotLine := match (descFor k r).bind fun d => ringOf e c d.ring with
    | some g => linesFor g (readerOf k.task r 0 0)
    | none => []
  { feedOf m e c k t [] 0 { base := 0, start := 0, len := 0 } false with
    view := fun r => overlay (lines r ++ drainHeld e c k.task) (memView m e) }

/-- An operand of a drain-only or SELECT task is there: its stream has ended, and every line of it in its ring has landed (R230, R264). -/
def operandHere (e : Engine) (c : CombId) (k : Ctx) (role : Nat) : Bool :=
  match (descFor k role).bind fun d => ringOf e c d.ring with
  | none => false
  | some g =>
    match streamOf g k.task role with
    | none => false
    | some s => s.ended && (linesFor g (readerOf k.task role 0 0)).all SlotLine.landed

/-- Every operand of a drain-only or SELECT task is there. -/
def operandsHere (e : Engine) (c : CombId) (k : Ctx) (t : TaskRec) : Bool := (ringRoles t).all (operandHere e c k)

/-- Rings that a drain-only or SELECT task's operands come through. -/
def drainRings (k : Ctx) (t : TaskRec) : List Nat := dedup ((ringRoles t).filterMap fun r => (descFor k r).map Desc.ring)

/-- The drain unit reads what has landed of a task's operands: slot checks (R405), lines taken from their slots and consumed (R268), and the
slots released, so that an operand larger than its ring passes through it (R261 to R264, assumptions/35). -/
def takeLanded (e : Engine) (c : CombId) (f : FrameId) (k : Ctx) (t : TaskRec) : Engine :=
  let key := readerOf k.task rROW 0 0
  let e := checkSlots e c ((drainRings k t).map fun r => (r, key))
  let lines := (drainRings k t).flatMap fun r => match ringOf e c r with
    | some g => (linesFor g key).filter SlotLine.landed
    | none => []
  let drop (l : SlotLine) : SlotLine := if l.landed then { l with need := l.need.filter (· ≠ key) } else l
  let e := (drainRings k t).foldl (fun e r => onRing e c r fun g =>
    advanceHead 8 (let g := consumeWhen SlotLine.landed key g; { g with lines := g.lines.map drop })) e
  onFrame e c f fun fr => { fr with held := fr.held ++ lines.map fun l => { l with need := [] } }

/-- The element of an operand indexed by one number, as F32 with poison. -/
def drainScratch (m : Mem) (e : Engine) (h i : Nat) : Word × Bool := regionVal m e h i

/-- dx of one token of a drain-only task, with whether its lines are poisoned (R229, R231, R232, R234). -/
def drainRow (m : Mem) (f : Feed) (tok : Nat) : List (Nat × Word) × Bool :=
  let t := f.t
  let ds := (List.range t.rowLen).map fun ch =>
    let x := actElem f.e (f.view rROW) (f.ix rROW) (f.desc rROW) tok ch
    (ch, x.w, x.poison)
  if t.epilogue = 7 then
    let w := w32 (t.arg.toNat % 2 ^ 32)
    let row := ds.map fun x => (x, actElem f.e (f.view rSIDE0) (f.ix rSIDE0) (f.desc rSIDE0) tok x.1)
    (row.map fun p => (p.1.1, fMul w (fSub p.1.2.1 p.2.w)),
      row.any fun p => p.1.2.2 || fBad p.1.2.1 || p.2.poison || fBad p.2.w)
  else
    let r := redRow f tok ds
    if t.epilogue = 5 then
      let s := drainScratch m f.e t.dst tok
      (smaxDx r s.1, r.bad || s.2 || fBad s.1)
    else
      let a := drainScratch m f.e t.dst (2 * tok)
      let b := drainScratch m f.e t.dst (2 * tok + 1)
      (normDx r t.rowLen a.1 b.1, r.bad || a.2 || b.2 || fBad a.1 || fBad b.1)

/-- Another drain-only task of a step that names a SCRATCH region and is not complete (R211). -/
def otherDrain (m : Mem) (e : Engine) (h i step : Nat) : Bool :=
  match e.sch.run with
  | none => false
  | some g =>
    let names (t : TaskRec) : Bool := t.kind == kDRAIN && t.dst == h && t.step == step
    g.tasks.any (fun t => t.index != i && names t.record && t.commTiles.isEmpty) ||
    (span g.fetch (g.hdr.tasks - g.fetch)).any fun j => names (parseTask g.hdr (viewBytes m e (g.hdr.taskBase + 128 * j) 128))

/-- A SCRATCH region is cleared at the commit of the step's last drain-only task that names it (R209, R211). -/
def scratchClear (m : Mem) (e : Engine) (t : TaskRec) (i : Nat) : Engine :=
  match regionOf e t.dst with
  | some r => if r.scratch && !otherDrain m e t.dst i t.step then clearRegion e r else e
  | none => e

/-- DRAIN_ONLY_RUN: a drain unit of a frame without uncommitted intervals takes the task and the lines that have landed for it, and once its
operands are there it forms and stores dx of every token. The frame accepts no tile until the task completes (R310). -/
def drainOnlyRun (m : Mem) (e : Engine) (c : CombId) (f : FrameId) (lane : LaneFault) : Engine :=
  if !works e c then e
  else match drainTask e c f with
  | none => e
  | some (x, k, tk) =>
    let e := takeLanded (onFrame e c f fun fr => { fr with drainOnly := some k.task }) c f k tk.record
    if !operandsHere e c k tk.record || !outHere k (drainPlaces tk.record) || writeParked e c k.task then e
    else if lane then drainLane e c f k.task
    else
      let t := tk.record
      let fd := drainFeed m e c k t
      let e := (List.range t.outRows).foldl (fun e tok =>
        let (dx, bad) := drainRow m fd tok
        storeOut m e c x k t (dx.map fun p => (tok, p.1, p.2)) (bad || tk.poisonIn)) e
      let e := onTask e k.task fun t => { t with commTiles := [0], doneTiles := [0] }
      let e := taskCommitted e c t
      if t.epilogue = 7 then e else scratchClear m e t k.task

def execDrainOnlyRun (c : CombId) (f : FrameId) (rd : List MemLine) (lane : LaneFault) (s : State) :
    Host.Outcome State Fault Refusal :=
  .next (readingIn s c rd fun m e => drainOnlyRun m e c f lane)

end Sys2Proof.Machine
end

