-- ==== Sys2Proof/Machine/Port.lean ====
section
/-! DEFINITION. Machine/Port.lean: the memory port and the comb foragers: rings bound and filled (R224, R252 to R266, R574),
deadline arbitration (R267 to R269), responses (R264, R404, R405, R449 to R453), page faults (R286 to R290, R454). -/

namespace Sys2Proof.Machine

/-! ### Rings bound, streams attached -/

/-- Running tasks of a comb with a reference bound to a ring, in order of dispatch: context, task, reference, descriptor. -/
def ringUsers (e : Engine) (c : CombId) (r : Nat) : List (Fin 4 × Ctx × Task × Nat × Desc) :=
  let ks := sortBy (fun (a b : Fin 4 × Ctx) => decide (a.2.order < b.2.order)) (allFrames.filterMap fun x => (ctxOf e c x).map fun k => (x, k))
  ks.flatMap fun p => match taskOf e p.2.task with
    | none => []
    | some tk => (ringRoles tk.record).filterMap fun role =>
        match descFor p.2 role with
        | some d => if d.ring = r ∧ tk.failed.isNone then some (p.1, p.2, tk, role, d) else none
        | none => none

/-- A stream of a task joins its ring (R262, R274): it starts at its first tile not done. -/
def attachOne (g : Ring) (u : Fin 4 × Ctx × Task × Nat × Desc) : Ring :=
  let (x, k, tk, role, d) := u
  if g.streams.any fun s => s.task == k.task && s.role == role then g
  else
    let first := ((List.range (tk.doneTiles.length + 1)).find? fun i => i ∉ tk.doneTiles).getD 0
    let s : Stream := { task := k.task, ctx := x, role := role, tile := first, start := tileStart tk first, opened := [first] }
    { g with streams := g.streams ++ [s]
             persist := if d.persist then some (tk.record.descBatch, (tRef tk.record role).getD 0) else g.persist }

/-- Streams of every running task that names a bound ring. -/
def attachStreams (e : Engine) (c : CombId) (r : Nat) : Engine :=
  (ringUsers e c r).foldl (fun e u => onRing e c r fun g => attachOne g u) e

/-- RING_BIND (R260). -/
def ringBind (e : Engine) (c : CombId) (r : Fin 12) : Engine :=
  if !works e c then e
  else match ringOf e c r.val, ringUsers e c r.val with
  | some _, _ => attachStreams e c r.val
  | none, [] => e
  | none, u :: _ =>
    let want := u.2.2.2.2.credits
    let free := (combOf e c).freeSlots
    let n := min want free
    if n < 3 then e
    else
      let e := if n < want then bumpComb e c .ringShrunk 1 else e
      let e := onComb e c fun cb => { cb with
        freeSlots := cb.freeSlots - n, rings := updAt cb.rings r.val fun _ => some { slots := n, tailCount := Config.slotLines } }
      attachStreams e c r.val

def execRingBind (c : CombId) (ring : Fin 12) (s : State) : Host.Outcome State Fault Refusal :=
  .next (onEngine s fun e => ringBind e c ring)

/-! ### Landing -/

/-- A line lands in its slot (R264), and waits there for its stream's consumer (R268). -/
def landLine (e : Engine) (c : CombId) (r ser : Nat) (data : List Byte) (poison : Bool) : Engine :=
  let land (l : SlotLine) : SlotLine := { l with landed := true, data := data, check := crc32c data, poison := poison }
  onRing e c r fun g =>
    let own := ((g.lines.find? fun l => l.ser == ser).bind (lineStream g)).map fun s => (s.task, s.role)
    let add (s : Stream) : Stream := { s with tte := { s.tte with waiting := s.tte.waiting + 64 } }
    { g with lines := updFirst (fun l => l.ser == ser) land g.lines
             streams := g.streams.map fun s => if own = some (s.task, s.role) then add s else s }

/-- The descriptor of a stream. -/
def streamDesc (e : Engine) (c : CombId) (s : Stream) : Desc := ((ctxOf e c s.ctx).bind fun k => descFor k s.role).getD default

/-- The descriptor of a stream's index stream. -/
def indexDesc (e : Engine) (c : CombId) (s : Stream) : Desc := ((ctxOf e c s.ctx).bind fun k => descFor k (ixKey s.role)).getD default

/-- A line of fill. -/
def fillLine (d : Desc) (line : Nat) : List Byte := (List.range 64).map fun i => fillByte d (64 * line + i)

/-- Poisoned lines that land in a comb's slots (CMB_POISON_EVENTS, R420); index lines land in none (R254). -/
def landedPoison (e : Engine) (c : CombId) (n code : Nat) : Engine :=
  if n = 0 then e else poisonEvent (bumpComb e c .linesIn n) c.val code

/-! ### Filling a ring -/

/-- A line request that a forager waits to make: line, destination, class, and the stream that it is for. -/
structure Want where
  line : Nat
  dst : ReadFor
  cls : Nat
  task : Nat
  role : Nat
  deriving DecidableEq, Repr

/-- What one move of a stream comes to. -/
inductive Fill where
  | moved (e : Engine)
  | want (w : Want)
  | blocked

/-- An activation-store line whose check fails is marked here (R405, R420); one that was kept poisoned was marked before. -/
def storeMarked (e : Engine) (c : CombId) (a : ActLine) : Engine :=
  if !a.poison && crc32c a.data != a.check then poisonEvent e c.val codeHalted else e

/-- The map of a tile as a stream reads it. -/
def streamMap (m : Mem) (e : Engine) (t : TaskRec) (mask tile : Nat) : List Byte :=
  if mapped t mask then mapBytes (memView m e) t tile else []

/-- A stream moves on, its present tile at `cur` or through: of the tiles that it has begun, to the one that is least far, so that the readers of
a shared ring are served side by side (R265, R266, assumptions/131); else it begins the lowest tile that is neither begun nor done. -/
def nextStreamTile (tk : Task) (cur : Option (Nat × Nat)) (s : Stream) : Stream :=
  match minBy (fun (x : Nat × Nat) => x.2 * 2 ^ 32 + x.1) (cur.toList ++ s.others) with
  | some x => { s with tile := x.1, start := x.2, others := (cur.toList ++ s.others).filter (· ≠ x) }
  | none =>
    let t := ((List.range (s.opened.length + tk.doneTiles.length + 1)).find? fun i => i ∉ s.opened ∧ i ∉ tk.doneTiles).getD 0
    { s with tile := t, start := tileStart tk t, opened := s.opened ++ [t] }

/-- The tiles that the frames of a shared ring work on, and that their stream has not begun (R265). -/
def headTiles (e : Engine) (c : CombId) (k : Ctx) (t : TaskRec) (s : Stream) : List Nat :=
  let fs := framesFor k t (maskOf e t)
  if !isProduct t || decide (fs.length ≤ 1) then []
  else (fs.filterMap fun f => match (frameOf e c f).jobs.head? with
    | some j => if j.task = k.task then some j.tile else none
    | none => none).filter fun i => i ∉ s.opened

/-- A stream begins tiles for the frames that have taken them. -/
def beginTiles (tk : Task) (ts : List Nat) (s : Stream) : Stream :=
  { s with others := s.others ++ ts.map fun i => (i, tileStart tk i), opened := s.opened ++ ts }

/-- A data line of an interval comes to the ring: joined, served from the activation store, delivered as fill, or requested. -/
def fetchLine (e : Engine) (c : CombId) (r : Fin 12) (g : Ring) (s : Stream) (d : Desc) (key : Reader) (line : Nat) : Fill :=
  match coalesce g key line with
  | some g' => .moved (onRing e c r.val fun _ => g')
  | none =>
    match appendLine g key s.role line with
    | none => .blocked
    | some g' =>
      let e' := onRing e c r.val fun _ => g'
      if s.filling then
        .moved (landedPoison (landLine e' c r.val g.nextSer (fillLine d line) true) c 1 codePageFaultRead)
      else match actLookup e c (64 * line) with
        | some a =>
          let bad := a.poison || crc32c a.data != a.check
          let e' := bumpComb (landLine e' c r.val g.nextSer a.data bad) c .actHits 1
          .moved (storeMarked (if bad then bumpComb e' c .linesIn 1 else e') c a)
        | none => .want ⟨line, .ring c r g.nextSer, d.deadline, s.task, s.role⟩

/-- A park record of a comb freed. -/
def freePark (e : Engine) (c : CombId) (r : Nat) (st : ParkState) : Engine :=
  let free (p : Park) : Park := if p.state = st ∧ p.ring = r ∧ !p.write then {} else p
  onComb e c fun cb => { cb with parks := cb.parks.map free }

/-- The stream whose lines come next: of the earliest task's, the one that is least far, so that operands that share a ring are packed
interval by interval, a zero map ahead of its data (R76, R262, assumptions/108). -/
def nextStream (g : Ring) : Option Stream :=
  match g.streams.find? fun s => !s.ended with
  | none => none
  | some s0 =>
    let through (s : Stream) : Nat := s.opened.length - s.others.length
    let key (s : Stream) : Nat := ((through s * 2 ^ 40 + (if perTile s.role then 0 else s.start)) * 2 ^ 32 + s.tile) * 2 + b2n (s.role != rZIN)
    minBy key (g.streams.filter fun s => !s.ended && s.task == s0.task)

/-- A stream's end: it fills no more, the slot that it was filling is closed (R262), and the record of a fill is free (R290). -/
def endStream (e : Engine) (c : CombId) (r : Fin 12) (s : Stream) : Engine :=
  let e := if s.filling || s.fillIndex then freePark e c r.val .filling else e
  onRing (onStream e c r.val s.task s.role fun s => { s with ended := true }) c r.val fun g => { g with tailCount := Config.slotLines }

/-- A failed task's stream goes on only for side operands that its committed rows still wait for. -/
def streamDone (e : Engine) (c : CombId) (tk : Task) (s : Stream) : Bool :=
  decide (streamTiles tk.record (maskOf e tk.record) ≤ s.tile) ||
  (tk.failed.isSome && !(perTile s.role &&
    (combOf e c).frames.any fun fr => fr.out.any fun o => o.task == s.task && ((s.tile :: s.others.map Prod.fst).any fun i => decide (i ≤ o.tile))))

/-- Index positions taken from lines that have landed, with their out-of-bounds counts and the blocks that they begin (R58, R79, R81, R254;
assumptions/128). -/
def takeIndex (m : Mem) (e : Engine) (c : CombId) (r : Fin 12) (s : Stream) (ix : Desc) (ps : List Nat) : Engine :=
  let oob := indexFaults e ix ps
  let vals := ps.map fun p => (p, indexVal e (indexView m e s) ix p)
  let e' := bumpComb (onStream e c r.val s.task s.role fun s => { s with taken := s.taken ++ vals }) c .misaligned (indexBlocks e ix ps)
  bumpComb (bumpComb e' c .oobClamped oob.1) c .oobFilled oob.2

/-- The next move of an index stream for the positions that an interval needs (R252, R254): none once all are taken. Its buffer holds 64
lines of 64 bytes; one that no position waits for makes room. -/
def indexStep (m : Mem) (e : Engine) (c : CombId) (r : Fin 12) (s : Stream) (ix : Desc) (ps : List Nat) : Option Fill :=
  let left := ps.filter fun p => s.taken.all fun x => x.1 != p
  let lineAt (p : Nat) : Option Nat := (indexPlace e ix p).map fun q => lineOf (indexAddr ix q)
  match left with
  | [] => none
  | p :: _ =>
    match lineAt p with
    | none => some (.moved (takeIndex m e c r s ix (left.filter fun p => (lineAt p).isNone)))
    | some l =>
      match s.index.find? fun x => x.line == l with
      | some x => some (if x.landed then .moved (takeIndex m e c r s ix (left.filter fun p => lineAt p == some l)) else .blocked)
      | none =>
        let put (x : SlotLine) : Engine := onStream e c r.val s.task s.role fun s => { s with index := s.index ++ [x] }
        let idle (x : SlotLine) : Bool := x.landed && left.all fun p => lineAt p != some x.line
        if Config.indexLines ≤ s.index.length then
          some (if s.index.any idle then .moved (onStream e c r.val s.task s.role fun s => { s with index := s.index.filter fun x => !idle x })
            else .blocked)
        else if s.fillIndex then
          let data := fillLine ix l
          some (.moved (poisonEvent (put { line := l, landed := true, data := data, check := crc32c data, poison := true }) c.val codePageFaultRead))
        else match actLookup e c (64 * l) with
          | some a =>
            let bad := a.poison || crc32c a.data != a.check
            let e := bumpComb (put { line := l, landed := true, data := a.data, check := crc32c a.data, poison := bad }) c .actHits 1
            some (.moved (storeMarked e c a))
          | none => some (.want ⟨l, .index c r s.task s.role, ix.deadline, s.task, s.role⟩)

/-- Of the blocks that an interval begins, those whose first line was fetched for this reader: one that another tile of the task had fetched is
the same block read again from the ring (R58, R265). -/
def ownBlocks (g : Ring) (key : Reader) (ls : List Nat) : Nat :=
  countIf (fun n => (linesFor g key).all fun l => l.line != n || l.by_ == some key) ls

/-- The interval's next data line, or the next interval once all are known and requested. A line that a stage has yet to hand on is waited
for (R278). -/
def dataStep (e : Engine) (c : CombId) (r : Fin 12) (g : Ring) (s : Stream) (tk : Task) (d : Desc) (key : Reader) (n : Need)
    (have_ : Nat → Bool) (len : Nat) : Fill :=
  match n.lines.find? fun l => !have_ l with
  | some l =>
    if handleDue e c (match ctxOf e c s.ctx with | some k => k.order | none => 0) l then .blocked else fetchLine e c r g s d key l
  | none =>
    if !n.known then .blocked
    else
      let e := bumpComb (bumpComb (bumpComb e c .oobClamped n.clamped) c .oobFilled n.filled) c .misaligned (ownBlocks g key n.misaligned)
      let cur := if perTile s.role || !isProduct tk.record || decide (tk.record.redLen ≤ s.start + len) then none else some (s.tile, s.start + len)
      .moved (onStream e c r.val s.task s.role (nextStreamTile tk cur))

/-- One move of a stream at its interval: its index values first, then its data lines (R252, R254, R262). -/
def streamStep (m : Mem) (e : Engine) (c : CombId) (r : Fin 12) (g : Ring) (s : Stream) (k : Ctx) (tk : Task) (map : List Byte) (len : Nat) :
    Fill :=
  let t := tk.record
  let mask := maskOf e t
  let f := feedOf m e c k t map s.tile { base := s.start, start := s.start, len := len } k.wide
  let key := readerOf s.task s.role s.tile s.start
  let carried (l : Nat) : Bool := s.role == weightRole t mask && (carouselByte e c t tk.slotPin (64 * l)).isSome
  let n := needFor f s.role fun l => landedFor g key l || carried l
  match (descFor k (ixKey s.role)).bind fun ix => indexStep m e c r s ix n.positions with
  | some x => x
  | none => dataStep e c r g s tk ((descFor k s.role).getD default) key n
      (fun l => heldFor g key l || carried l || (drainHeld e c s.task).any fun x => x.line == l) len

/-- One move of a ring's next stream. A product's tile is judged before its first fetch, once every ring of the task is bound (R160, R260). -/
def fillStep (m : Mem) (e : Engine) (c : CombId) (r : Fin 12) : Fill :=
  match (ringOf e c r.val).bind fun g => (nextStream g).map fun s => (g, s) with
  | none => .blocked
  | some (g, s) =>
    match ctxOf e c s.ctx, taskOf e s.task with
    | some k, some tk =>
      let t := tk.record
      let mask := maskOf e t
      if streamDone e c tk s then .moved (endStream e c r s)
      else if !isProduct t then streamStep m e c r g s k tk [] 0
      else if !(headTiles e c k t s).isEmpty then .moved (onStream e c r.val s.task s.role (beginTiles tk (headTiles e c k t s)))
      else if !perTile s.role ∧ t.redLen ≤ s.start then .moved (onStream e c r.val s.task s.role (nextStreamTile tk none))
      else if !ringsKnown e c k (streamRoles t) || (tileError m e c k tk mask s.tile).isSome then .blocked
      else
        let map := streamMap m e t mask s.tile
        match cutOf k s.tile with
        | none => .moved (keepCut m e c s.ctx k t map s.tile)
        | some cut => streamStep m e c r g s k tk map (min cut.2 (t.redLen - s.start))
    | _, _ => .blocked

/-- A line of a ring that is to be asked for again (R287, R405), or an index line. -/
def pendingWant (e : Engine) (c : CombId) (r : Fin 12) (g : Ring) : Option Want :=
  match g.lines.find? fun l => !l.asked && !l.landed with
  | some l =>
    let s := (lineStream g l).getD default
    some ⟨l.line, .ring c r l.ser, (streamDesc e c s).deadline, s.task, s.role⟩
  | none =>
    (g.streams.findSome? fun s => (s.index.find? fun l => !l.asked && !l.landed).map fun l => (s, l)).map fun p =>
      ⟨p.2.line, .index c r p.1.task p.1.role, (indexDesc e c p.1).deadline, p.1.task, p.1.role⟩

/-- The lines of a context's output that its drain units have yet to store and whose places are known: a drain-only task's from its dispatch, a
product's from the forming of its finished tiles. -/
def outAhead (e : Engine) (c : CombId) (k : Ctx) (t : TaskRec) : List (Nat × Nat × Word) :=
  if t.kind = kDRAIN then drainPlaces t
  else (combOf e c).frames.flatMap fun fr => fr.out.flatMap fun o =>
    if o.task = k.task && !o.doomed then (match o.final with | some ls => (ls.drop o.next).flatten | none => []) else []

/-- The index stream of a write stream moves on (R254): its values are fetched ahead of the write-out, into its buffer. -/
def fillOut (m : Mem) (c : CombId) (task role : Nat) : (fuel : Nat) → Engine → Engine × Option Want
  | 0, e => (e, none)
  | n + 1, e =>
    match ctxFor e c task, taskOf e task, streamIn e c 0 task role with
    | some (_, k), some tk, some s =>
      let ix := (descFor k (ixKey role)).getD default
      if s.parked then (e, none)
      else match s.index.find? fun l => !l.asked && !l.landed with
      | some l => (e, some ⟨l.line, .index c 0 task role, ix.deadline, task, role⟩)
      | none =>
        match indexStep m e c 0 s ix (outPositions k role (outAhead e c k tk.record)) with
        | some (.moved e) => fillOut m c task role n e
        | some (.want w) => (e, some w)
        | _ => (e, none)
    | _, _, _ => (e, none)

/-- A ring's forager moves on until it waits for a grant, a landing or a credit. -/
def fillRing (m : Mem) (c : CombId) (r : Fin 12) : (fuel : Nat) → Engine → Engine × Option Want
  | 0, e => (e, none)
  | n + 1, e =>
    match ringOf e c r.val with
    | none => (e, none)
    | some g =>
      if g.parked then (e, none)
      else match pendingWant e c r g with
      | some w => (e, some w)
      | none =>
        match fillStep m e c r with
        | .moved e => fillRing m c r n e
        | .want w => (e, some w)
        | .blocked => (e, none)

/-- Moves of one forager within one command. -/
def fillFuel : Nat := 4096

/-- What waits for a channel's grant: a line of a comb's stream, a source line of the light path, a write. -/
inductive Bid where
  | read (c : CombId) (r : Fin 12) (w : Want)
  | light (line : Nat)
  | write (w : WriteReq)
  deriving DecidableEq, Repr

/-- The streams of a comb move on: the wants of its rings, and of the index streams of its write streams. -/
def fillComb (m : Mem) (acc : Engine × List Bid) (c : CombId) : Engine × List Bid :=
  let add (c : CombId) (r : Fin 12) (bs : List Bid) (x : Engine × Option Want) : Engine × List Bid :=
    (x.1, match x.2 with | some w => bs ++ [.read c r w] | none => bs)
  let acc := (List.finRange 12).foldl (fun acc r => match ringOf acc.1 c r.val with
    | none => acc
    | some _ => add c r acc.2 (fillRing m c r fillFuel acc.1)) acc
  let outs := (combOf acc.1 c).ctxs.flatMap fun o => match o with | some k => k.outs.map fun s => (s.task, s.role) | none => []
  outs.foldl (fun acc x => add c 0 acc.2 (fillOut m c x.1 x.2 fillFuel acc.1)) acc

/-- Every comb's forager moves on: what it waits for. -/
def fillAll (m : Mem) (e : Engine) : Engine × List Bid :=
  allCombs.foldl (fun acc c => if !works acc.1 c then acc else fillComb m acc c) (e, [])

/-! ### The light path's lines -/

/-- The short descriptor in execution changed. -/
def onLight (e : Engine) (f : LightMove → LightMove) : Engine := { e with hf := { e.hf with opened := e.hf.opened.map f } }

/-- Line requests of the light path that are outstanding (R256). -/
def lightOut (e : Engine) : Nat :=
  countIf (fun r => r.dst == .light) e.mp.reads +
  (match e.hf.light with | some l => countIf (fun w => w.sent && w.who == .hub l.1) e.mp.writes | none => 0)

/-- The light path's next source line, while fewer than four of its requests are outstanding (R256). -/
def lightBid (e : Engine) : List Bid :=
  match e.hf.opened with
  | some o => if o.parked || decide (Config.lightLines ≤ lightOut e) then []
    else (o.lines.find? fun l => !l.asked && !l.landed).toList.map fun l => .light l.line
  | none => []

/-- The mark of a line that a short descriptor writes: any source byte of it from a poisoned line, or a poisoned input of its
task (R314). -/
def lightMark (o : LightMove) (line : Nat) : Bool :=
  o.lines.any fun l => l.poison && (List.range o.len).any fun i => (o.dst + i) / 64 % 2 ^ 46 == line && lineOf (o.src + i) == l.line

/-- The bytes that a short descriptor moves. -/
def lightBytes (o : LightMove) : List Byte :=
  if o.fill then List.replicate o.len o.byte
  else (List.range o.len).map fun i => match o.lines.find? fun l => l.line == lineOf (o.src + i) with
    | some l => elemD l.data ((o.src + i) % 64) 0
    | none => 0

/-- A short descriptor whose source has landed hands its writes to the memory port; each of its two runs is a block of R58 (assumptions/115). -/
def lightWrite (e : Engine) (task : Nat) (o : LightMove) : Engine :=
  let tainted := match taskOf e task with | some t => t.poisonIn | none => false
  let off (a : Nat) : Nat := b2n (a % 64 != 0)
  let e := bump e .hubMisaligned (off o.dst + if o.fill then 0 else off o.src)
  let e := sendBytes e (.hub task) o.dst (lightBytes o) fun l => tainted || lightMark o l
  let e := if tainted || o.lines.any SlotLine.poison then poisonEvent (markOut e task) 50 codeHalted else e
  onLight e fun o => { o with written := true }

/-- The light path goes on: its writes once its source has landed, and the next entry once they are answered (R256). A transfer whose writes an
unresolvable fault dropped is none that completed (R257, R289). -/
def lightStep (e : Engine) : Engine :=
  match e.hf.light, e.hf.opened with
  | some (task, i), some o =>
    let e := if !o.written && o.lines.all SlotLine.landed then lightWrite e task o else e
    let done : Bool := (match e.hf.opened with | some o => o.written | none => false) && !writesOpen e task
    if done then
      let e := if writesLost e (.hub task) then e else bump e .light 1
      { e with hf := { e.hf with light := some (task, i + 1), opened := none } }
    else e
  | _, _ => e

/-! ### Deadline arbitration -/

/-- OFFSET of a class in ns, as sampled (R269, FRG_DL_OFFSET). -/
def dlOffset (e : Engine) (cls : Nat) : Nat := 16 * bits (samplesOf e).dlOffset.toNat (8 * cls) 8

/-- A stream's time to empty in ns (R268). -/
def tteOf (e : Engine) (c : CombId) (t : Tte) : Nat :=
  let mhz := if islandStretched e c.val then islandMHz e c.val / 2 else islandMHz e c.val
  if t.frozen then 0
  else if t.last = 0 then 65535
  else min 65535 (t.waiting * 1000 * 1024 / (mhz * t.last))

/-- Bytes from a descriptor's base that its dimensions cover without an index stream. -/
def descBytes (d : Desc) : Nat :=
  ceilDiv (dSize d 0 * dimZeroBits d) 8 + [1, 2, 3, 4].foldl (fun n k => n + (dSize d k - 1) * dStride d k) 0

/-- The write descriptor whose stream a line belongs to: the zero map's where the line lies in it, else OUT's. -/
def writeRole (k : Ctx) (line : Nat) : Nat :=
  match descFor k rZOUT with
  | some z => if z.base / 64 ≤ line ∧ 64 * line < z.base + descBytes z then rZOUT else rOUT
  | none => rOUT

/-- The time to empty of a comb's write stream (R268): the bytes of the rows that its drain units have yet to store, at their write-out rate; 0
while a frame's drain condition holds for a committed interval of it. -/
def writeTte (e : Engine) (c : CombId) (k : Ctx) : Nat :=
  let rows (fr : Frame) : Nat := sumNat (fr.out.map fun o => if o.task = k.task && o.lastOfTile && storing o.record && !o.doomed then 64 - o.next else 0)
  let held (fr : Frame) : Bool := drainHolds fr fr.nextB && fr.out.any fun o => o.task == k.task
  tteOf e c { k.tte with waiting := rowBytes * sumNat ((combOf e c).frames.map rows), frozen := (combOf e c).frames.any held }

/-- The descriptor by which a comb's write goes. -/
def writeDesc (e : Engine) (w : WriteReq) : Option (CombId × Ctx × Desc) :=
  match w.who with
  | .comb c _ t => (ctxFor e c t).bind fun p => (descFor p.2 (writeRole p.2 w.line)).map fun d => (c, p.2, d)
  | _ => none

/-- The deadline class of a write (Table 08-6): its descriptor's; the light path's and a checkpoint's 3, another of the capping unit 1, and 1 as
well where the table names none (DESIGN CHOICE, assumptions/150). -/
def writeClass (e : Engine) (w : WriteReq) : Nat :=
  match writeDesc e w, w.who with
  | some d, _ => d.2.2.deadline
  | none, .hub t => if t = noTask then 1 else 3
  | none, .cap t => if (taskOf e t).any fun k => k.record.kind == kCKPT then 3 else 1
  | none, _ => 1

/-- The line, the class, the time to empty and the place in the round robin of a bid: the 50 combs, the hub forager, the capping unit
(R267 to R269). A stream without a window that has ended has consumed nothing in one; the light path waits for each of its lines. -/
def Bid.line : Bid → Nat
  | .read _ _ w => w.line
  | .light l => l
  | .write w => w.line
def Bid.cls (e : Engine) : Bid → Nat
  | .read _ _ w => w.cls
  | .light _ => 3
  | .write w => writeClass e w
def Bid.tte (e : Engine) : Bid → Nat
  | .read c r w =>
    if isWriteRole w.role then (match ctxFor e c w.task with | some p => writeTte e c p.2 | none => 0)
    else (match (ringOf e c r.val).bind fun g => streamOf g w.task w.role with | some s => tteOf e c s.tte | none => 0)
  | .light _ => 0
  | .write w => match writeDesc e w with | some d => writeTte e d.1 d.2.1 | none => 65535
def Bid.seat : Bid → Nat
  | .read c _ _ => c.val
  | .light _ => 50
  | .write w => match w.who with | .comb c _ _ => c.val | .cap _ => 51 | _ => 50

/-- The deadline key of a bid (R267). -/
def dlKey (e : Engine) (b : Bid) : Nat := b.tte e + (if b.cls e < 3 then dlOffset e (b.cls e) else 0)

/-- Whether the island from which a write goes has its clock (R17). -/
def writerMoves (e : Engine) (w : Writer) : Bool :=
  match w with
  | .comb c _ _ => !(islandOf e c.val).stopped
  | .cap _ => !(islandOf e 54).stopped
  | _ => true

/-- The next write of each write stream on a channel, but for one that has parked (R289) and the light path's beyond its four requests (R256). -/
def writeBids (e : Engine) (ch : ChanId) : List Bid :=
  let held (w : WriteReq) : Bool := (e.mp.writes.any fun x => x.parked && x.who == w.who) || !writerMoves e w.who ||
    (match e.hf.light with | some l => w.who == .hub l.1 && decide (Config.lightLines ≤ lightOut e) | none => false)
  (e.mp.writes.foldl (fun (acc : List WriteReq) w =>
    if w.sent || w.parked || w.chan != ch || acc.any fun x => x.who == w.who then acc else acc ++ [w]) []).filterMap fun w =>
      if held w then none else some (.write w)

/-- The bid that a channel grants: class 3 only when no other waits, then the smallest key, then round robin (R267, R269). -/
def choose (e : Engine) (ch : ChanId) (bs : List Bid) : Option Bid :=
  let bs := bs.filter fun b => chanOf b.line == ch
  let fore := bs.filter fun b => decide (b.cls e < 3)
  let bs := if fore.isEmpty then bs else fore
  let turn (b : Bid) : Nat := (b.seat + 52 - (e.mp.rr + 1) % 52) % 52
  minBy (fun b => dlKey e b * 64 + turn b) bs

/-- A read request for one line. -/
def askLine (e : Engine) (dst : ReadFor) (line tries : Nat) : Engine :=
  let ch := chanOf line
  match freeId e ch with
  | none => e
  | some i => { e with mp := { e.mp with reads := e.mp.reads ++ [{ chan := ch, id := BitVec.ofNat 10 i, addr := 64 * line, dst := dst, tries := tries }] } }

/-- The granted line's request (R262, R287): a new line takes its place in the ring, a line asked for again keeps it. -/
def grant (e : Engine) (c : CombId) (r : Fin 12) (w : Want) : Engine :=
  let e := match w.dst with
    | .ring _ _ ser => onRing e c r.val fun g =>
        if g.lines.any fun l => l.ser == ser then
          { g with lines := updFirst (fun l => l.ser == ser) (fun l => { l with asked := true }) g.lines }
        else g
    | .index _ _ task role => onStream e c r.val task role fun s =>
        if s.index.any fun l => l.line == w.line then
          { s with index := updFirst (fun l => l.line == w.line) (fun l => { l with asked := true }) s.index }
        else { s with index := s.index ++ [{ line := w.line, asked := true }] }
    | .light | .gone => e
  let e := if isWriteRole w.role then e else freePark e c r.val .resuming
  askLine e w.dst w.line 0

/-- The stream's new line put at the ring's tail, as its request is granted. -/
def placeLine (e : Engine) (c : CombId) (r : Fin 12) (w : Want) : Engine :=
  match w.dst, ringOf e c r.val with
  | .ring _ _ ser, some g =>
    if g.lines.any fun l => l.ser == ser then e
    else
      match streamOf g w.task w.role with
      | some s =>
        (match appendLine g (readerOf s.task s.role s.tile s.start) s.role w.line with
        | some g' => onRing e c r.val fun _ => g'
        | none => e)
      | none => e
  | _, _ => e

/-- A write goes out under a free tag (R449). -/
def sendWrite (e : Engine) (w : WriteReq) : Engine :=
  match freeId e w.chan with
  | none => e
  | some i =>
    let mine (x : WriteReq) : Bool := !x.sent && !x.parked && x.who == w.who && x.chan == w.chan
    { e with mp := { e.mp with writes := updFirst mine (fun x => { x with sent := true, id := BitVec.ofNat 10 i }) e.mp.writes } }

/-- A source line of the light path is requested. -/
def askLight (e : Engine) (line : Nat) : Engine :=
  askLine (onLight e fun o => { o with lines := updFirst (fun l => l.line == line) (fun l => { l with asked := true }) o.lines }) .light line 0

/-- The grant of a bid (R267); the comb's streams take up at once what the granted line serves as well (R265). -/
def grantBid (m : Mem) (e : Engine) (b : Bid) : Engine :=
  let e := { e with mp := { e.mp with rr := b.seat } }
  match b with
  | .read c r w => (fillComb m (grant (placeLine e c r w) c r w, []) c).1
  | .light line => askLight e line
  | .write w => sendWrite e w

/-! ### Parks -/

/-- Dimensions with size above 1 (CMB_PF_STATE.DIMS). -/
def dimsOf (d : Desc) : Nat := countIf (1 < ·) d.sizes

/-- Bytes that a dimension's index adds to an address, as its index stream places pass p of it (R253). -/
def passBytes (e : Engine) (d : Desc) (ix : IxSrc) (p : Nat) : Nat :=
  match (dimTerm e d ix d.indexDim p).loc with | .bitAt b => b / 8 | .fill _ => 0

/-- The pass of an indexed dimension whose block holds a line (R286, CMB_PF_IDXPOS). -/
def indexPass (e : Engine) (d : Desc) (ix : IxSrc) (line : Nat) : Nat :=
  let inner := if d.indexDim = 0 then 1 else max 1 (ceilDiv (dSize d 0 * dimZeroBits d) 8)
  let hit (p : Nat) : Bool :=
    let a := d.base + passBytes e d ix p
    decide (a / 64 ≤ line ∧ line ≤ (a + inner - 1) / 64)
  ((List.range ix.elems).find? hit).getD 0

/-- The index of a line's first element in each dimension (R286): along an indexed dimension the index value, or the pass where the
value is an offset (assumptions/109). -/
def resumeIndex (e : Engine) (d : Desc) (ix : IxSrc) (line pass : Nat) : List Nat :=
  let moved := if d.indexEn then passBytes e d ix pass else 0
  let at_ := if d.indexEn && !d.indexMode then (ix.val pass).1 else pass
  let off := 64 * line - d.base - moved
  let (left, is) := [4, 3, 2, 1].foldl (fun (acc : Nat × List Nat) k =>
    let st := dStride d k
    if d.indexEn && d.indexDim == k then (acc.1, at_ :: acc.2)
    else if st = 0 ∨ dSize d k ≤ 1 then (acc.1, 0 :: acc.2)
    else let i := min (acc.1 / st) (dSize d k - 1); (acc.1 - i * st, i :: acc.2)) (off, [])
  let i0 := ceilDiv (8 * left) (dimZeroBits d)
  if d.indexEn && d.indexDim == 0 then at_ :: is
  else if d.layout ≠ lWROW ∧ 0 < dSize d 0 ∧ dSize d 0 ≤ i0 then 0 :: updAt is 0 (· + 1)
  else i0 :: is

/-- A record of a stream parked at a line. -/
def parkAt (e : Engine) (d : Desc) (ix : IxSrc) (ring : Nat) (write : Bool) (ctx : Fin 4) (line : Nat) : Park :=
  let pass := if d.indexEn then indexPass e d ix line else 0
  { state := .parked, ring := ring, write := write, ctx := ctx, dims := dimsOf d, line := line
    index := resumeIndex e d ix line pass, pos := pass }

/-- The park record of a ring's stream (R286); of an index line, its place in its own stream. -/
def parkRecord (m : Mem) (e : Engine) (c : CombId) (r : Fin 12) (l : SlotLine) (s : Stream) (index : Bool) : Park :=
  let ix := match ctxOf e c s.ctx with | some k => ixOf m e c k s.role | none => {}
  if index then
    let d := indexDesc e c s
    let p := parkAt e d {} r.val false s.ctx l.line
    { p with pos := (64 * l.line - d.base) / 4 }
  else parkAt e (streamDesc e c s) ix r.val false s.ctx l.line

/-- A free park record taken (R290). -/
def takePark (ps : List Park) (p : Park) : Option (List Park) :=
  (indexOf? (fun x => x.state == .free) ps).map fun i => updAt ps i fun _ => p

/-- A ring's record, if it holds one. -/
def ringPark (e : Engine) (c : CombId) (r : Nat) : Option Park :=
  (combOf e c).parks.find? fun p => p.state != .free && p.ring == r && !p.write

/-- A parked ring writes its record, once one is free, and counts as parked then (R286, R290); a further fault's record replaces the one that it finds (R287). The ring
parks as a whole (assumptions/130). -/
def parkRing (m : Mem) (e : Engine) (c : CombId) (r : Fin 12) : Engine :=
  match (ringOf e c r.val).bind faultLine with
  | none => e
  | some (l, s, index) =>
    let rec_ := parkRecord m e c r l s index
    if (ringPark e c r.val).isSome then
      let put (p : Park) : Park := if p.state != .free && p.ring == r.val && !p.write then rec_ else p
      let again : Bool := match ringPark e c r.val with | some p => p.state != .parked | none => false
      let e := onComb e c fun cb => { cb with parks := cb.parks.map put }
      if again then bump e .parked 1 else e
    else match takePark (combOf e c).parks rec_ with
      | some ps => bump (onComb e c fun cb => { cb with parks := ps }) .parked 1
      | none => e

/-- A read stream meets a faulting line (R286). -/
def readFault (m : Mem) (e : Engine) (c : CombId) (r : Fin 12) : Engine :=
  parkRing m (onRing e c r.val fun g => { g with parked := true }) c r

/-- The comb and context, or the hub, that a write stream belongs to. -/
def sameWriter (a b : Writer) : Bool := a == b

/-- A write stream's record (R289): its resume index vector where the task stores by a descriptor. -/
def writePark (m : Mem) (e : Engine) (line : Nat) (w : Writer) : Park :=
  match w with
  | .comb c x _ =>
    (match ctxOf e c x with
    | some k =>
      let role := writeRole k line
      (match descFor k role with
      | some d => parkAt e d (ixOf m e c k role) 31 true x line
      | none => { state := .parked, ring := 31, write := true, ctx := x, line := line })
    | none => { state := .parked, ring := 31, write := true, ctx := x, line := line })
  | _ => { state := .parked, ring := 31, write := true, line := line }

/-- The park records of a writer's forager. -/
def parksOf (e : Engine) (w : Writer) : List Park := match w with | .comb c _ _ => (combOf e c).parks | _ => e.hf.parks

/-- The park records of a writer's forager replaced. -/
def setParks (e : Engine) (w : Writer) (ps : List Park) : Engine :=
  match w with
  | .comb c _ _ => onComb e c fun cb => { cb with parks := ps }
  | _ => { e with hf := { e.hf with parks := ps } }

/-- A record that shows a writer's park: the line is one of its parked writes. -/
def hasWritePark (e : Engine) (w : Writer) : Bool :=
  (parksOf e w).any fun p => p.write && p.state != .free && e.mp.writes.any fun x => x.parked && x.line == p.line && sameWriter x.who w

/-- A write stream takes a free record, and counts as parked then (R290). -/
def parkWrite (m : Mem) (e : Engine) (w : WriteReq) : Engine :=
  match takePark (parksOf e w.who) (writePark m e w.line w.who) with
  | some ps => bump (setParks e w.who ps) .parked 1
  | none => e

/-- A write stream meets a faulting line (R289). -/
def writeFault (m : Mem) (e : Engine) (w : WriteReq) : Engine :=
  let mark (x : WriteReq) : WriteReq := if x.sent && x.chan == w.chan && x.id == w.id then { x with parked := true, sent := false } else x
  let e := { e with mp := { e.mp with writes := e.mp.writes.map mark } }
  if hasWritePark e w.who then e else parkWrite m e w

/-- The park record of the index stream of a write stream (R254, R286): it holds the write stream, and shows the line of the index stream. -/
def outPark (e : Engine) (c : CombId) (s : Stream) : Option Park :=
  (s.index.find? fun l => !l.asked && !l.landed).map fun l =>
    let d := indexDesc e c s
    { parkAt e d {} 31 true s.ctx l.line with pos := (64 * l.line - d.base) / 4 }

/-- The record that an index stream of a write stream holds. -/
def outParked (e : Engine) (c : CombId) (s : Stream) : Option Park :=
  (combOf e c).parks.find? fun p => p.state != .free && p.write && p.ctx == s.ctx && s.index.any fun l => !l.asked && !l.landed && l.line == p.line

/-- It takes a free record, and counts as parked then (R290). -/
def parkOut (e : Engine) (c : CombId) (task role : Nat) : Engine :=
  match streamIn e c 0 task role with
  | none => e
  | some s =>
    if !s.parked || (outParked e c s).isSome then e
    else match (outPark e c s).bind (takePark (combOf e c).parks) with
    | some ps => bump (onComb e c fun cb => { cb with parks := ps }) .parked 1
    | none => e

/-- The index stream of a write stream meets a faulting line. -/
def outFault (e : Engine) (c : CombId) (task role : Nat) : Engine :=
  parkOut (onStream e c 0 task role fun s => { s with parked := true }) c task role

/-- The line that the light path has parked at. -/
def lightLine (e : Engine) : Option Nat :=
  match e.hf.opened with
  | some o => if o.parked then (o.lines.find? fun l => !l.asked && !l.landed).map SlotLine.line else none
  | none => none

/-- The light path's record among the hub forager's. -/
def lightParked (e : Engine) : Bool := e.hf.parks.any fun p => p.state != .free && !p.write

/-- The light path takes a free record of the hub forager, and counts as parked then (R257, R286, R290). -/
def parkLight (e : Engine) : Engine :=
  if lightParked e then e
  else match (lightLine e).bind fun l => takePark e.hf.parks { state := .parked, ring := 31, write := false, line := l } with
  | some ps => bump { e with hf := { e.hf with parks := ps } } .parked 1
  | none => e

/-- The light path meets a faulting line. -/
def lightFault (e : Engine) : Engine := parkLight (onLight e fun o => { o with parked := true })

/-! ### Resuming and finishing parked streams -/

/-- A line number lies in the page that an event names: `page` is bits 51 to 16 of its address (Table 14-5). -/
def inPage (size : BitVec 2) (page line : Nat) : Bool :=
  let n := if size = 0 then 16 else if size = 1 then 21 else 30
  64 * line / 2 ^ n == 2 ^ 16 * page / 2 ^ n

/-- A parked read stream resumes (R287): the lines that have not landed are asked for again. -/
def resumeRead (e : Engine) (c : CombId) (r : Nat) : Engine :=
  let mark (p : Park) : Park := if p.ring = r ∧ !p.write ∧ p.state = .parked then { p with state := .resuming } else p
  let e := onRing e c r fun g => { g with parked := false }
  onComb e c fun cb => { cb with parks := cb.parks.map mark }

/-- The park record of a write stream freed. -/
def freeWritePark (e : Engine) (w : Writer) (line : Nat) : Engine :=
  setParks e w ((parksOf e w).map fun p => if p.write && p.line == line && p.state != .free then {} else p)

/-- A parked write stream resumes (R287, R289). -/
def resumeWrite (e : Engine) (w : Writer) (line : Nat) : Engine :=
  let e := freeWritePark e w line
  let go (x : WriteReq) : WriteReq := if x.parked && sameWriter x.who w then { x with parked := false } else x
  { e with mp := { e.mp with writes := e.mp.writes.map go } }

/-- An unresolvable read fault (R288): what has not landed of the transfer arrives as poisoned fill, the lines not yet asked for as the stream
comes to them. Of a faulting index line, the rest of the index stream does. -/
def readUnresolved (e : Engine) (c : CombId) (r : Fin 12) : Engine :=
  match (ringOf e c r.val).bind fun g => (faultLine g).map fun x => (g, x) with
  | none => e
  | some (g, _, s, index) =>
    let d := streamDesc e c s
    let lost := if index then [] else g.lines.filter fun x => !x.landed && ownsLine s x
    let e := lost.foldl (fun e x => landLine e c r.val x.ser (fillLine d x.line) true) e
    let fillIx (x : SlotLine) : SlotLine :=
      if x.landed then x else let b := fillLine (indexDesc e c s) x.line; { x with landed := true, data := b, check := crc32c b, poison := true }
    let e := if index then onStream e c r.val s.task s.role fun s => { s with index := s.index.map fillIx } else e
    let n := if index then countIf (fun x => !x.landed) s.index else lost.length
    let e := if index then poisonEvent (bump e .unresolved 1) c.val codePageFaultRead else landedPoison (bump e .unresolved 1) c n codePageFaultRead
    let e := onRing e c r.val fun g => { g with parked := false, event := none }
    if s.ended then freePark e c r.val .parked
    else
      let mark (p : Park) : Park := if p.ring = r.val ∧ !p.write ∧ p.state = .parked then { p with state := .filling } else p
      let e := onStream e c r.val s.task s.role fun s => if index then { s with fillIndex := true } else { s with filling := true }
      onComb e c fun cb => { cb with parks := cb.parks.map mark }

/-- The island at which a writer's poison events are logged. -/
def writerIsland (w : Writer) : Nat := match w with | .comb c _ _ => c.val | .hub _ => 50 | .cap _ => 54 | .link _ => 51 | .firmware | .log => 55

/-- An unresolvable write fault (R289): every write of the transfer that has not completed is dropped, those waiting for a response and the
rows that the drain units still hold, and the task fails at its end. -/
def writeUnresolved (e : Engine) (w : Writer) (line : Nat) : Engine :=
  let e := bump (freeWritePark e w line) .unresolved 1
  let doom (x : WriteReq) : WriteReq := if sameWriter x.who w then { x with doomed := true, bytes := [], poison := false, clean := false } else x
  let e := { e with mp := { e.mp with writes := (e.mp.writes.filter fun x => x.sent || !sameWriter x.who w).map doom } }
  let rows (i : Nat) (fr : Frame) : Frame := { fr with out := fr.out.map fun o => if o.task = i then { o with doomed := true } else o }
  let e := match w with
    | .comb c _ i => onComb e c fun cb => { cb with frames := cb.frames.map (rows i) }
    | _ => e
  let e := match writerTask w with
    | some t => onTask e t fun t => { t with late := some (t.late.getD codePageFault), poisonOut := true, lost := true }
    | none => if w == .log then logWritten e false else e
  poisonEvent e (writerIsland w) codeHalted

/-- The index stream of a write stream resumes (R287). -/
def resumeOut (e : Engine) (c : CombId) (p : Park) (s : Stream) : Engine :=
  let e := onComb e c fun cb => { cb with parks := cb.parks.map fun q => if q = p then {} else q }
  onStream e c 0 s.task s.role fun s => { s with parked := false, event := none }

/-- An unresolvable fault of it (R288): the rest of its lines arrive as poisoned fill, and the writes that their values place are dropped (R254). -/
def fillOutIndex (e : Engine) (c : CombId) (p : Park) (s : Stream) : Engine :=
  let fillIx (x : SlotLine) : SlotLine :=
    if x.landed then x else let b := fillLine (indexDesc e c s) x.line; { x with landed := true, data := b, check := crc32c b, poison := true }
  let e := onComb e c fun cb => { cb with parks := cb.parks.map fun q => if q = p then { q with state := .filling } else q }
  let e := onStream e c 0 s.task s.role fun s => { s with index := s.index.map fillIx, parked := false, event := none, fillIndex := true }
  poisonEvent (bump e .unresolved 1) c.val codePageFaultRead

/-- The index stream of a write stream that a comb's record holds. -/
def outOf (e : Engine) (c : CombId) (p : Park) : Option Stream :=
  ((ctxOf e c p.ctx).map Ctx.outs).getD [] |>.find? fun s => s.parked && s.index.any fun l => !l.asked && !l.landed && l.line == p.line

/-- The light path's record freed. -/
def freeLight (e : Engine) : Engine := { e with hf := { e.hf with parks := e.hf.parks.map fun p => if p.write then p else {} } }

/-- The light path resumes, or what has not landed of its source arrives as its fill byte, poisoned (R257, R287, R288). -/
def lightEvent (e : Engine) (op : XlatOp) : Engine :=
  let e := freeLight e
  match op with
  | .retry => onLight e fun o => { o with parked := false, event := none }
  | .abort =>
    let fill (o : LightMove) (l : SlotLine) : SlotLine :=
      if l.landed then l else { l with landed := true, data := List.replicate 64 o.byte, check := crc32c (List.replicate 64 o.byte), poison := true }
    let e := onLight e fun o => { o with parked := false, event := none, lines := o.lines.map (fill o) }
    lightStep (poisonEvent (bump e .unresolved 1) 50 codePageFaultRead)

/-- A writer whose record shows a line. -/
def writerOf (e : Engine) (mine : Writer → Bool) (line : Nat) : Option Writer :=
  (e.mp.writes.find? fun w => w.parked && w.line == line && mine w.who).map WriteReq.who

/-- Whether a write stream parks in a comb's records. -/
def combWriter (c : CombId) (w : Writer) : Bool := match w with | .comb d _ _ => d == c | _ => false
/-- Whether a write stream parks in the hub forager's records. -/
def hubWriter (w : Writer) : Bool := match w with | .comb _ _ _ => false | _ => true

/-- One record of a comb's forager takes a translation event. -/
def eventOn (e : Engine) (c : CombId) (op : XlatOp) (p : Park) : Engine :=
  if p.state != .parked then e
  else if p.write then
    (match writerOf e (combWriter c) p.line with
    | some w => (match op with | .retry => resumeWrite e w p.line | .abort => writeUnresolved e w p.line)
    | none => match outOf e c p, op with
      | some s, .retry => resumeOut e c p s
      | some s, .abort => fillOutIndex e c p s
      | none, _ => e)
  else match op with
    | .retry => resumeRead e c p.ring
    | .abort => readUnresolved e c (Fin.ofNat 12 p.ring)

/-- One record of the hub forager takes a translation event. -/
def eventOnHub (e : Engine) (op : XlatOp) (p : Park) : Engine :=
  if p.state != .parked then e
  else if !p.write then lightEvent e op
  else match writerOf e hubWriter p.line with
    | some w => (match op with | .retry => resumeWrite e w p.line | .abort => lightStep (writeUnresolved e w p.line))
    | none => e

/-- Whether a writer's streams are of a comb that works, or the hub's (R569). -/
def writerOn (e : Engine) (w : Writer) : Bool := match w with | .comb c _ _ => enabled e c | _ => true

/-- An event kept for a ring that has faulted in the page and has not parked yet (text after R454). -/
def noteRing (e : Engine) (op : XlatOp) (size : BitVec 2) (page : Nat) (c : CombId) (r : Fin 12) : Engine :=
  match ringOf e c r.val with
  | none => e
  | some g =>
    let hit := g.parked && (ringPark e c r.val).isNone && (match faultLine g with | some l => inPage size page l.1.line | none => false)
    if hit then onRing e c r.val fun g => { g with event := some op } else e

/-- An event kept for the index stream of a write stream. -/
def noteOut (e : Engine) (op : XlatOp) (size : BitVec 2) (page : Nat) (c : CombId) (s : Stream) : Stream :=
  if s.parked && (outParked e c s).isNone && s.index.any fun l => !l.asked && !l.landed && inPage size page l.line then { s with event := some op } else s

/-- The index streams of a comb's write streams. -/
def combOuts (e : Engine) (c : CombId) : List Stream := (combOf e c).ctxs.flatMap fun o => match o with | some k => k.outs | none => []

/-- An event kept for every stream that has faulted in the page and has not parked yet. -/
def noteWaiting (e : Engine) (op : XlatOp) (size : BitVec 2) (page : Nat) : Engine :=
  let e := (enabledCombs e).foldl (fun e c => (List.finRange 12).foldl (fun e r => noteRing e op size page c r) e) e
  let e := (enabledCombs e).foldl (fun e c => (combOuts e c).foldl (fun e s => onStream e c 0 s.task s.role (noteOut e op size page c)) e) e
  let e := match lightLine e with
    | some l => if !lightParked e && inPage size page l then onLight e fun o => { o with event := some op } else e
    | none => e
  let waits (w : WriteReq) : Bool := w.parked && !hasWritePark e w.who && inPage size page w.line && writerOn e w.who
  { e with mp := { e.mp with writes := e.mp.writes.map fun w => if waits w then { w with event := some op } else w } }

/-- An event applied to every record in its page; a fenced comb's records stay (R569). -/
def applyEvent (e : Engine) (op : XlatOp) (size : BitVec 2) (page : Nat) : Engine :=
  let e := (enabledCombs e).foldl (fun e c =>
    ((combOf e c).parks.filter fun p => inPage size page p.line).foldl (fun e p => eventOn e c op p) e) e
  (e.hf.parks.filter fun p => inPage size page p.line).foldl (fun e p => eventOnHub e op p) e

/-- A faulted ring without a record takes a free one (R290), and an event that was held for it applies (text after R454). -/
def parkWaitingRing (m : Mem) (e : Engine) (c : CombId) (r : Fin 12) : Engine :=
  match ringOf e c r.val with
  | none => e
  | some g =>
    if !g.parked || (ringPark e c r.val).isSome then e
    else
      let e := parkRing m e c r
      match ringPark e c r.val, g.event with
      | some p, some op => eventOn (onRing e c r.val fun g => { g with event := none }) c op p
      | _, _ => e

/-- A faulted write stream without a record takes a free one, and an event that was held for it applies. -/
def parkWaitingWrite (m : Mem) (e : Engine) (w : WriteReq) : Engine :=
  if !w.parked || hasWritePark e w.who || !writerOn e w.who then e
  else
    let e := parkWrite m e w
    match w.event, (parksOf e w.who).find? fun p => p.write && p.state == .parked && p.line == w.line with
    | some op, some p => (match w.who with | .comb c _ _ => eventOn e c op p | _ => eventOnHub e op p)
    | _, _ => e

/-- The index stream of a write stream that has faulted takes a free record, and an event that was held for it applies. -/
def parkWaitingOut (e : Engine) (c : CombId) (s : Stream) : Engine :=
  let e := parkOut e c s.task s.role
  match s.event, outParked e c s with
  | some op, some p => eventOn e c op p
  | _, _ => e

/-- The light path that has faulted takes a free record, and an event that was held for it applies. -/
def parkWaitingLight (e : Engine) : Engine :=
  let e := parkLight e
  match e.hf.opened.bind LightMove.event with
  | some op => if lightParked e then lightEvent e op else e
  | none => e

/-- A translation event reaches the foragers. -/
def takeEvent (e : Engine) (x : XlatOp × Nat × Nat) : Engine :=
  applyEvent (noteWaiting e x.1 (BitVec.ofNat 2 x.2.1) x.2.2) x.1 (BitVec.ofNat 2 x.2.1) x.2.2

/-- Events that came while the hub's clock was stopped are taken, and records that are free go to the waiting streams (R290, R544). -/
def settleParks (m : Mem) (e : Engine) : Engine :=
  let e := e.mp.heldXlat.foldl takeEvent { e with mp := { e.mp with heldXlat := [] } }
  let e := (enabledCombs e).foldl (fun e c => (List.finRange 12).foldl (fun e r => parkWaitingRing m e c r) e) e
  let e := (enabledCombs e).foldl (fun e c => (combOuts e c).foldl (fun e s => parkWaitingOut e c s) e) e
  parkWaitingLight (e.mp.writes.foldl (parkWaitingWrite m) e)

/-- What waits for a channel's grant: the streams of a running graph, and writes. -/
def bidsFor (m : Mem) (e : Engine) (ch : ChanId) : Engine × List Bid :=
  let (e, bs) := if running e then fillAll m e else (e, [])
  (e, bs ++ (if running e then lightBid e else []) ++ writeBids e ch)

/-- LINE_REQUEST_GRANT: one request, while a tag of the channel is free (R449). A record that a stream frees as it resumes or ends its fill
goes to a waiting one (R290). -/
def lineGrant (m : Mem) (e : Engine) (ch : ChanId) : Engine :=
  if !hubAlive e then e
  else
    let (e, bs) := bidsFor m e ch
    settleParks m (if (freeId e ch).isNone then e else match choose e ch bs with
      | some b => grantBid m e b
      | none => e)

/-- TRANSLATION_EVENT (R454). One that comes while a dip has stopped the hub's clock waits for it (R17, R544); where the boundary is not open
nothing is parked. -/
def translationEvent (m : Mem) (e : Engine) (op : XlatOp) (size : BitVec 2) (page : Nat) : Engine :=
  if size = 3 ∨ !awake e ∨ e.pwr.padHold then e
  else if (islandOf e 50).stopped then { e with mp := { e.mp with heldXlat := e.mp.heldXlat ++ [(op, size.toNat, page)] } }
  else settleParks m (takeEvent e (op, size.toNat, page))

/-- PAGE_FAULT_TIMEOUT (R288). -/
def faultTimeout (m : Mem) (e : Engine) (who : Forager) (record : Nat) : Engine :=
  if !hubAlive e then e
  else match who with
  | .comb c => if !enabled e c then e
    else (match (combOf e c).parks[record]? with | some p => settleParks m (eventOn e c .abort p) | none => e)
  | .hub => (match e.hf.parks[record]? with | some p => settleParks m (eventOnHub e .abort p) | none => e)

def execTranslationEvent (op : XlatOp) (size : BitVec 2) (page : Nat) (s : State) : Host.Outcome State Fault Refusal :=
  .next (reading s [] fun m e => translationEvent m e op size page)
def execPageFaultTimeout (who : Forager) (record : Nat) (s : State) : Host.Outcome State Fault Refusal :=
  .next (reading s [] fun m e => faultTimeout m e who record)

/-! ### Read responses -/

/-- The line that a request of a ring waits for is asked for again. -/
def unask (e : Engine) (q : ReadReq) : Engine :=
  match q.dst with
  | .ring c r ser => onRing e c r.val fun g =>
      let ls := updFirst (fun l => l.ser == ser && !l.landed) (fun l => { l with asked := false }) g.lines
      { g with lines := ls }
  | .index c r task role => onStream e c r.val task role fun s =>
      let ls := updFirst (fun l => l.line == lineOf q.addr) (fun l => { l with asked := false }) s.index
      { s with index := ls }
  | .light => onLight e fun o => { o with lines := updFirst (fun l => l.line == lineOf q.addr && !l.landed) (fun l => { l with asked := false }) o.lines }
  | .gone => e

/-- The comb whose forager a request is of; the hub forager's where there is none. -/
def reqComb (q : ReadReq) : Option CombId := match q.dst with | .ring c _ _ | .index c _ _ _ => some c | .light | .gone => none

/-- The line that a request is for has not landed: it may have been filled meanwhile (R288). -/
def stillOpen (e : Engine) (q : ReadReq) : Bool :=
  let due (l : SlotLine) : Bool := l.line == lineOf q.addr && !l.landed
  match q.dst with
  | .ring c r ser => (ringOf e c r.val).any fun g => g.lines.any fun l => l.ser == ser && !l.landed
  | .index c r task role => (streamIn e c r.val task role).any fun s => s.index.any due
  | .light => e.hf.opened.any fun o => o.lines.any due
  | .gone => false

/-- A line delivered: into its slot, into the index buffer, or to the light path, which marks a poisoned one as it writes. -/
def deliver (e : Engine) (q : ReadReq) (data : List Byte) (poison : Bool) : Engine :=
  let land (ls : List SlotLine) : List SlotLine := updFirst (fun l => l.line == lineOf q.addr && !l.landed)
    (fun l => { l with landed := true, data := data, check := crc32c data, poison := poison }) ls
  if !stillOpen e q then e
  else match q.dst with
    | .ring c r ser =>
      let e := landLine e c r.val ser data poison
      if poison then landedPoison e c 1 codeHalted else e
    | .index c r task role =>
      let e := onStream e c r.val task role fun s => { s with index := land s.index }
      if poison then poisonEvent e c.val codeHalted else e
    | .light => lightStep (onLight e fun o => { o with lines := land o.lines })
    | .gone => e

/-- The outstanding read that a response answers. -/
def readFor (e : Engine) (ch : ChanId) (id : BitVec 10) : Option ReadReq := e.mp.reads.find? fun q => q.chan == ch && q.id == id

/-- The island of the forager that a read response goes to. -/
def readIsland (e : Engine) (ch : ChanId) (id : BitVec 10) : Nat := match (readFor e ch id).bind reqComb with | some c => c.val | none => 50

/-- A line that fails its fabric check is requested once more; a second failure lands it poisoned (Table 12-1). -/
def checkFailed (e : Engine) (q : ReadReq) (l : RespLine) : Engine :=
  if !stillOpen e q then e
  else if q.tries = 0 then
    askLine (match reqComb q with | some c => bumpComb e c .fabricRetry 1 | none => bump e .hubFabricRetry 1) q.dst (lineOf q.addr) 1
  else deliver e q (takeBytes l.data 0 64) true

/-- A stream meets a faulting line (R286): the comb's ring, the index stream of a write stream, or the light path. -/
def faultAt (m : Mem) (e : Engine) (q : ReadReq) : Engine :=
  if !stillOpen e q then e
  else
    let e := unask e q
    match q.dst with
    | .ring c r _ => readFault m e c r
    | .index c r task role => if isWriteRole role then outFault e c task role else readFault m e c r
    | .light => lightFault e
    | .gone => e

/-- MEMORY_READ_RESPONSE (R264, R405, R452): the engine and whether the line was verified. -/
def readResponse (m : Mem) (e : Engine) (ch : ChanId) (id : BitVec 10) (status : RespStatus) (l : RespLine) : Engine × Option MemLine :=
  match readFor e ch id with
  | none => (e, none)
  | some q =>
    let e := { e with mp := { e.mp with reads := dropFirst (fun x => x.chan == ch && x.id == id) e.mp.reads } }
    let data := takeBytes l.data 0 64
    match status with
    | .fault => (faultAt m e q, none)
    | .check => (checkFailed e q l, none)
    | .ok =>
      if fabricCheck data q.addr != l.check then (checkFailed e q l, none)
      else (deliver e q data l.poison, some { addr := q.addr, data := data, poison := l.poison })

def execLineRequestGrant (ch : ChanId) (s : State) : Host.Outcome State Fault Refusal :=
  .next (reading s [] fun m e => lineGrant m e ch)

/-- What a verified line holds is known of memory from then on. -/
def execMemoryReadResponse (ch : ChanId) (id : BitVec 10) (status : RespStatus) (line : RespLine) (s : State) :
    Host.Outcome State Fault Refusal :=
  .next (crossing s (readIsland s.eng ch id) (.memoryReadResponse ch id status line) fun s =>
    let (e, l) := readResponse s.mem s.eng ch id status line
    { s with eng := e, mem := absorb s.mem (match l with | some l => [l] | none => []) })

/-! ### Write responses -/

/-- Memory with an answered write in it. -/
def commitWrite (m : Mem) (w : WriteReq) : Mem :=
  memMark (memPutLine m w.line w.bytes) w.line (if wholeLine w then w.poison else memPoison m w.line || w.poison)

/-- The outstanding write that a response with a channel and a tag answers. -/
def answers (ch : ChanId) (id : BitVec 10) (w : WriteReq) : Bool := w.sent && w.chan == ch && w.id == id

/-- Older outstanding writes of the line lose the bytes that a completed later one covers. -/
def supersede (ws : List WriteReq) (w : WriteReq) : List WriteReq :=
  let i := (indexOf? (answers w.chan w.id) ws).getD 0
  let keep (b : Nat × Byte) : Bool := w.bytes.all fun c => c.1 != b.1
  ((ws.take i).map fun x => if x.line = w.line then { x with bytes := x.bytes.filter keep } else x) ++ ws.drop (i + 1)

/-- What follows a write's end: the log's next record (R525), the light path's next entry (R256). -/
def written (e : Engine) (w : WriteReq) (ok : Bool) : Engine := lightStep (if w.who == .log then logWritten e ok else e)

/-- The task whose write goes out with every poison bit set ends with POISON_OUT (R419, R453). -/
def markWriter (e : Engine) (w : WriteReq) : Engine := match writerTask w.who with | some t => markOut e t | none => e

/-- The outstanding write that a response answers. -/
def writeFor (e : Engine) (ch : ChanId) (id : BitVec 10) : Option WriteReq := e.mp.writes.find? (answers ch id)

/-- The island of the forager that a write response goes to. -/
def writeIsland (e : Engine) (ch : ChanId) (id : BitVec 10) : Nat :=
  match (writeFor e ch id).map WriteReq.who with
  | some (.comb c _ _) => c.val
  | some (.cap _) => 54
  | _ => 50

/-- MEMORY_WRITE_RESPONSE (R289, R453). A third CHECK drops the write (assumptions/36). -/
def writeResponse (m : Mem) (e : Engine) (ch : ChanId) (id : BitVec 10) (status : RespStatus) : Engine × Mem :=
  match writeFor e ch id with
  | none => (e, m)
  | some w =>
    let gone := { e with mp := { e.mp with writes := dropFirst (answers ch id) e.mp.writes } }
    match status with
    | .ok => (written { e with mp := { e.mp with writes := supersede e.mp.writes w } } w (!w.doomed), commitWrite m w)
    | .fault => if w.doomed then (written gone w false, m) else (writeFault m e w, m)
    | .check =>
      let again (f : WriteReq → WriteReq) : Engine :=
        { e with mp := { e.mp with writes := e.mp.writes.map fun x => if answers ch id x then f x else x } }
      if w.tries = 1 then (again fun x => { x with tries := 2 }, m)
      else if w.tries = 2 then
        (poisonEvent (bump (markWriter (again fun x => { x with tries := 3, poison := true }) w) .writeRejects 1) (writerIsland w.who) codeHalted, m)
      else (written gone w false, m)

def execMemoryWriteResponse (ch : ChanId) (id : BitVec 10) (status : RespStatus) (s : State) : Host.Outcome State Fault Refusal :=
  .next (crossing s (writeIsland s.eng ch id) (.memoryWriteResponse ch id status) fun s =>
    let (e, m) := writeResponse s.mem s.eng ch id status
    { s with eng := e, mem := m })

end Sys2Proof.Machine
end

