-- ==== Sys2Proof/Machine/Handles.lean ====
section
/-! DEFINITION. Machine/Handles.lean: handle queues and stage chains (R276 to R279, R214), the weight carousel's rotation and
reload (R280 to R285), short descriptors (R255 to R257). -/

namespace Sys2Proof.Machine

/-! ### Queues -/

/-- A handle queue has room (R276). -/
def queueRoom (q : List HandleEntry) : Bool := decide (q.length < Config.handleQueue)

/-- The comb at the other end of a comb's ring queue; a comb alone sends to itself (Table 08-9). -/
def ringPeer (e : Engine) (c : CombId) : CombId := (nextEnabled e c).getD c

/-- An entry that a comb may push: the handle of a stored output only once every line of it has been written (R278). -/
def pushReady (e : Engine) (x : HandleEntry) : Bool := !x.adds.isEmpty || !writesOpen e x.task

/-- A comb's oldest entry for a chain, where it may be pushed. -/
def chainFront (e : Engine) (c : CombId) (ring : Bool) : Option HandleEntry :=
  match (combOf e c).chain.find? fun x => (x.dest == 1) == ring with
  | some x => if pushReady e x then some x else none
  | none => none

/-! ### The carousel's rotation -/

/-- Slots of a shard. -/
def shardSlots (e : Engine) : Nat := match e.sch.run with | some g => ceilDiv g.hdr.shardBytes 32768 | none => 0

/-- Slot i of a shard: its 32 KiB and their poisoned lines. -/
def shardPart (s : Shard) (i : Nat) : Shard :=
  { s with bytes := (s.bytes.drop (32768 * i)).take 32768, checks := (s.checks.drop (512 * i)).take 512, bad := s.bad.filter fun l => l / 512 == i }

/-- The carousel slot that a comb sends next. -/
def slotEntry (e : Engine) (c : CombId) : Option HandleEntry :=
  match (combOf e c).carousel with
  | none => none
  | some ca =>
    if ca.sending && decide (ca.sent < shardSlots e) then
      let p := shardPart ca.own ca.sent
      let h : Handle := {
        addr := ca.sent, len := 32768, tag := 0, poison := !p.bad.isEmpty, last := ca.sent + 1 == shardSlots e
        onchip := true, src := BitVec.ofNat 8 c.val }
      some { h := h, tile := ca.sent, part := some p, dest := 1 }
    else none

/-- A shard that a comb does not hold: its tiles read memory (R283, R285). -/
def inMemory (num : Nat) : Shard := { num := num }

/-- Second shards that a carousel buffer has slots for, n slots to a shard (R280, R285). -/
def extraRoom (n : Nat) (ca : Carousel) : Nat := if n = 0 then 0 else (ca.slots - (n + 2)) / n

/-- The second shards: those beyond the slots reserved for them stay in memory (R285). -/
def fitExtras (room : Nat) (l : List Shard) : List Shard := l.take room ++ (l.drop room).map fun x => inMemory x.num

/-- A rotation that has sent every slot and received every slot ends (R281, R285): the shards that the comb covers move one
place on, the arrived one to the farthest. -/
def settleCarousel (n : Nat) (ca : Carousel) : Carousel :=
  match ca.incoming with
  | some i =>
    if ca.sending && decide (n ≤ ca.sent) && decide (n ≤ ca.got) then
      let line := ca.extras ++ [i]
      { ca with own := line.headD i, extras := fitExtras (extraRoom n ca) line.tail, incoming := none, got := 0, sent := 0, sending := false
                rotated := [] }
    else ca
  | none => ca

/-- A comb's carousel changed, and its rotation ended where it is complete. -/
def onCarousel (e : Engine) (c : CombId) (f : Carousel → Carousel) : Engine :=
  let n := shardSlots e
  onComb e c fun cb => { cb with carousel := cb.carousel.map fun ca => settleCarousel n (f ca) }

/-- A slot arrives: the receiver takes it while its own outgoing slot, or one of the two extra slots, is free (R281). -/
def slotFits (ca : Carousel) (i : Nat) : Bool := decide (i < ca.sent + 2) && ca.got == i

/-- An arrived slot appended to the incoming shard; a comb without a carousel buffer, and one that takes over a shard of which a
fenced comb had slots, reads it from memory (R280, R285), and so does one whose slots are of different versions (R283). -/
def takeSlot (p : Shard) (ca : Carousel) : Carousel :=
  match ca.incoming with
  | none => { ca with incoming := some (if ca.slots = 0 then inMemory p.num else p), got := 1 }
  | some i =>
    let vs := if i.versions = p.versions then i.versions else []
    { ca with incoming := some { i with bytes := i.bytes ++ p.bytes, checks := i.checks ++ p.checks, versions := vs, bad := i.bad ++ p.bad }, got := ca.got + 1 }

/-! ### HANDLE_PUSH -/

/-- A comb pushes onto its ring queue: a handle of the chain to the next comb, or a slot of its shard. -/
def pushRing (e : Engine) (c : CombId) : Engine :=
  if !works e c || !queueRoom (combOf e c).ringQ then e
  else match chainFront e c true with
  | some x => onComb e c fun cb => { cb with chain := dropFirst (fun y => y.dest == 1) cb.chain, ringQ := cb.ringQ ++ [x] }
  | none =>
    match slotEntry e c with
    | some x => onCarousel (onComb e c fun cb => { cb with ringQ := cb.ringQ ++ [x] }) c fun ca => { ca with sent := ca.sent + 1 }
    | none => e

/-- A comb's drain units push onto its outbound queue (R214, R277). -/
def pushOut (e : Engine) (c : CombId) : Engine :=
  if !works e c || !queueRoom (combOf e c).outQ then e
  else match chainFront e c false with
  | some x => onComb e c fun cb => { cb with chain := dropFirst (fun y => y.dest != 1) cb.chain, outQ := cb.outQ ++ [x] }
  | none => e

/-- The hub passes a handle that it holds on to the capping unit or a link group, by its chain (Table 08-9). -/
def pushHub (e : Engine) (dest : Nat) (q : List HandleEntry) (put : Engine → HandleEntry → Engine) : Engine :=
  match e.hf.hand with
  | [] => e
  | x :: rest => if x.dest = dest ∧ queueRoom q then put { e with hf := { e.hf with hand := rest } } x else e

/-- HANDLE_PUSH: the producer pushes while its island has its clock (R17). -/
def handlePush (e : Engine) (q : QueueId) : Engine :=
  match q with
  | .combRing c => pushRing e c
  | .outbound c => pushOut e c
  | .capping => if !running e then e else pushHub e 2 e.cap.queue fun e x => { e with cap := { e.cap with queue := e.cap.queue ++ [x] } }
  | .link g => if !running e then e else pushHub e 3 (elemD e.lnk.linkQ g.val []) fun e x =>
      { e with lnk := { e.lnk with linkQ := updAt e.lnk.linkQ g.val fun l => l ++ [x] } }

/-! ### HANDLE_POP -/

/-- A buffer that a comb has popped, kept while its producer runs. -/
def takeBuffer (e : Engine) (x : HandleEntry) (cb : Comb) : Comb :=
  let going (y : HandleEntry) : Bool := match taskOf e y.task with | some t => (match t.life with | .running _ => true | _ => false) | none => false
  { cb with buffers := (cb.buffers ++ [x]).filter going }

/-- The next comb pops a comb's ring queue: a carousel slot is written into the slot that it fits, or discarded where the comb has come to read
the shard from memory (R285); another handle names a buffer that the comb's streams may read from now on (R278). -/
def popRing (e : Engine) (c : CombId) : Engine :=
  match (combOf e c).ringQ with
  | [] => e
  | x :: rest =>
    let d := ringPeer e c
    let popped := onComb e c fun cb => { cb with ringQ := rest }
    if !works e d then e
    else match x.part with
    | none => onComb popped d (takeBuffer e x)
    | some p =>
      match (combOf e d).carousel with
      | some ca => if c != d && (shardIn ca p.num).isSome then popped
        else if slotFits ca x.tile then onCarousel popped d (takeSlot p) else e
      | none => popped

/-- The hub pops a comb's outbound queue once it has passed on the handle before. -/
def popOut (e : Engine) (c : CombId) : Engine :=
  match (combOf e c).outQ, e.hf.hand with
  | x :: rest, [] =>
    let e := onComb e c fun cb => { cb with outQ := rest }
    { e with hf := { e.hf with hand := [x] } }
  | _, _ => e

/-- The comb that produced a handle. -/
def srcComb (x : HandleEntry) : CombId := Fin.ofNat 50 x.h.src.toNat

/-- The capping unit pops its queue once it has applied the entry before: the last handle of an interval records its progress
(R317). -/
def popCap (e : Engine) : Engine :=
  match e.cap.queue, e.cap.spill with
  | x :: rest, [] =>
    let e := { e with cap := { e.cap with queue := rest, spill := if x.adds.isEmpty then [] else [x] } }
    let e := if x.ends then advanceOffset e x.task x.tile x.reach else e
    if x.adds.isEmpty then e else settleTile e (srcComb x) x.task x.tile
  | _, _ => e

/-- HANDLE_POP: the consumer pops while its island has its clock (R17). -/
def handlePop (e : Engine) (q : QueueId) : Engine :=
  match q with
  | .combRing c => popRing e c
  | .outbound c => if !running e then e else popOut e c
  | .capping => if !capWorks e then e else popCap e
  | .link g => if !inAction e || (islandOf e (51 + g.val)).stopped then e else { e with lnk := { e.lnk with linkQ := updAt e.lnk.linkQ g.val List.tail } }

def execHandlePush (q : QueueId) (s : State) : Host.Outcome State Fault Refusal := .next (onEngine s fun e => handlePush e q)
def execHandlePop (q : QueueId) (s : State) : Host.Outcome State Fault Refusal := .next (onEngine s fun e => handlePop e q)

/-! ### SHARD_RELOAD -/

/-- The address of a byte of the carousel image, where it lies in a tensor (text after Table 09-1): each tensor's records at
its slot's CODES address. -/
def imageAddr (e : Engine) (versions : List Nat) (tab : List (Nat × Nat)) (o : Nat) : Option Nat :=
  let rec go : List (Nat × Nat) → List Nat → Nat → Option Nat
    | [], _, _ => none
    | (h, len) :: rest, vs, o =>
      if o < len then (verOf e h).map fun v => elemD v.codes (vs.headD 0) 0 + o else go rest vs.tail (o - len)
  go tab versions o

/-- The CURRENT slot of each carousel tensor. -/
def currentSlots (e : Engine) (tab : List (Nat × Nat)) : List Nat :=
  tab.map fun x => match verOf e x.1 with | some v => v.current | none => 0

/-- A shard as memory holds it at the given versions (R280, R284). -/
def loadShard (m : Mem) (e : Engine) (num : Nat) : Shard :=
  match e.sch.run with
  | none => { num := num }
  | some g =>
    let vs := currentSlots e g.carousel
    let lo := g.hdr.shardBytes * num
    let n := min g.hdr.shardBytes (sumNat (g.carousel.map Prod.snd) - lo)
    let addrs := (span lo n).map (imageAddr e vs g.carousel)
    let bytes := addrs.map fun a => match a with | some a => viewByte m e a | none => 0
    { num := num, versions := vs, bytes := bytes
      checks := (List.range (ceilDiv n 64)).map fun l => crc32c ((bytes.drop (64 * l)).take 64)
      bad := (List.range (ceilDiv n 64)).filter fun l => ((addrs.drop (64 * l)).take 64).any fun a =>
        match a with | some a => viewPoison m e (lineOf a % 2 ^ 46) | none => false }

/-- A second shard, the j-th that a comb covers, finds slots in its pool, or stays in memory (R285). -/
def reloadExtra (m : Mem) (e : Engine) (c : CombId) (j num : Nat) : Engine :=
  let n := shardSlots e
  let held := match (combOf e c).carousel with | some ca => decide (j < extraRoom n ca) | none => false
  let room := held || decide (n ≤ (combOf e c).freeSlots)
  let e := if room && !held then onComb e c fun cb => { cb with freeSlots := cb.freeSlots - n } else e
  if !room then e
  else
    let s := loadShard m e num
    let e := landedPoison e c s.bad.length codeHalted
    onComb e c fun cb => { cb with carousel := cb.carousel.map fun ca =>
      { ca with slots := if held then ca.slots else ca.slots + n, extras := updAt ca.extras j fun _ => s } }

/-- A comb with a carousel buffer loads its shard and those that it covers (R284, R285). -/
def reloadHeld (m : Mem) (e : Engine) (c : CombId) (ca : Carousel) : Engine :=
  let s := loadShard m e ca.own.num
  let e := onComb e c fun cb => { cb with carousel := cb.carousel.map fun ca => { ca with own := s } }
  let e := landedPoison e c s.bad.length codeHalted
  ((List.range ca.extras.length).zip ca.extras).foldl (fun e x => reloadExtra m e c x.1 x.2.num) e

/-- SHARD_RELOAD (R284, R285): at a step boundary a comb reloads its shard at the CURRENT version. A rotation that is still under way ends
first: the shard that the step's tasks are bound to is the one that it brings. -/
def shardReload (m : Mem) (e : Engine) (c : CombId) : Engine :=
  match (combOf e c).carousel with
  | none => e
  | some ca =>
    if !works e c || !ca.stale || ca.sending then e
    else
      let e := onComb e c fun cb => { cb with carousel := cb.carousel.map fun ca => { ca with stale := false } }
      if ca.slots = 0 then e else reloadHeld m e c ca

def execShardReload (c : CombId) (rd : List MemLine) (s : State) : Host.Outcome State Fault Refusal :=
  .next (readingIn s c rd fun m e => shardReload m e c)

/-! ### SHORT_DESCRIPTOR -/

/-- A short descriptor is invalid (R257). -/
def shortBad (bs : List Byte) : Bool :=
  decide (256 < field bs 16 2) || (!bit (field bs 18 1) 0 && !addrOk (field bs 0 8)) || !addrOk (field bs 8 8) || decide (1 < field bs 18 1) ||
  !zeroBytes bs 19 1 || !zeroBytes bs 21 3 || !zeroBytes bs 24 8

/-- The LIGHT task ends with a status and a code. -/
def endLight (e : Engine) (task status code : Nat) : Engine :=
  let e := onTask e task fun t => { t with life := .ended .hub status code }
  { e with hf := { e.hf with light := none } }

/-- A list that ends with DESC_INVALID: under HALT the graph stops as at a first poison (R248, R257). -/
def failLight (e : Engine) (task : Nat) : Engine :=
  let e := endLight e task 3 codeDescInvalid
  haltOnFail e codeDescInvalid

/-- A short descriptor in execution: the source lines that it asks for, each once (R256); none where it fills. -/
def lightMove (bs : List Byte) : LightMove :=
  let n := field bs 16 2
  let src := field bs 0 8
  let fill := bit (field bs 18 1) 0
  { src := src, dst := field bs 8 8, len := n, fill := fill, byte := BitVec.ofNat 8 (field bs 20 1)
    lines := if fill then [] else (dedup ((linesOf src n).map (· % 2 ^ 46))).map fun l => { line := l } }

/-- The mark of a line that a copy writes: any source byte of it from a poisoned line. -/
def copyMark (m : Mem) (e : Engine) (src dst n : Nat) (line : Nat) : Bool :=
  (List.range n).any fun i => (dst + i) / 64 % 2 ^ 46 == line && viewPoison m e (lineOf (src + i))

/-- SHORT_DESCRIPTOR: once the one before it is complete (R256), the next entry of the running list is taken up: its lines are requested and
written under their channels' grants. One with LEN 0 ends the list (R255), an invalid one fails the task (R257). An entry that
has LEN 0 and a reserved bit set is invalid (DESIGN CHOICE, assumptions/143). -/
def shortDescriptor (m : Mem) (e : Engine) : Engine :=
  match e.hf.light with
  | none => e
  | some (task, i) =>
    if !running e || e.hf.opened.isSome then e
    else match taskOf e task with
    | none => { e with hf := { e.hf with light := none } }
    | some tk =>
      let a := tk.record.arg.toNat + 32 * i
      let bs := viewBytes m e a 32
      let marked := viewPoisoned m e a 32
      if marked || shortBad bs then failLight (if marked then poisonEvent e 50 codeHalted else e) task
      else if field bs 16 2 = 0 then endLight e task 1 0
      else lightStep { e with hf := { e.hf with opened := some (lightMove bs) } }

def execShortDescriptor (rd : List MemLine) (s : State) : Host.Outcome State Fault Refusal :=
  .next (reading s rd shortDescriptor)

end Sys2Proof.Machine
end

