-- ==== Sys2Proof/Machine/Admit.lean ====
section
/-! DEFINITION. Machine/Admit.lean: a graph's admission (R293 to R296, R200, R202, R235, R280, R319, R349, R415) and its end
(R468, R518, R225, R273, R532). -/

namespace Sys2Proof.Machine

/-! ### Reading a graph's structures -/

/-- Bytes of a structure of a graph: from memory, or from FP1's own area for a checkpoint graph (R519). -/
def subBytes (m : Mem) (e : Engine) (s : Submitted) (a n : Nat) : List Byte :=
  match s.ckpt with
  | some k => cellsRead e.sch.ckptArea (512 * k + a) n
  | none => viewBytes m e a n

/-- Whether a structure lies on a poisoned line. -/
def subPoisoned (m : Mem) (e : Engine) (s : Submitted) (a n : Nat) : Bool :=
  match s.ckpt with
  | some _ => false
  | none => viewPoisoned m e a n

/-- A structure line that memory returns poisoned is the hub's poison event (R420). -/
def noteRead (e : Engine) (bad : Bool) : Engine := if bad then poisonEvent e 50 codeHalted else e

/-- The elements of a list whose key repeats an earlier one. -/
def repeats : List Nat → Bool
  | [] => false
  | a :: l => decide (a ∈ l) || repeats l

/-! ### The end of a graph -/

/-- FP0 sets an envelope, at once or as it is READY again. -/
def askEnvelope (e : Engine) (t : Nat) : Engine :=
  if procUp e 0 then setEnvelope e t else { e with pwr := { e.pwr with envKept := some t } }

/-- ORPHANED is entered (R532 step 3); a PARK is answered. -/
def enterOrphaned (e : Engine) : Engine :=
  let e := askEnvelope e 2
  let e := { e with boot := { e.boot with state := .orphaned }, mbx := { e.mbx with host := .orphaned } }
  let e := logEvent e 55 0x0006 (fwFlags 1) [BitVec.ofNat 8 e.sch.queue.length]
  let waits := e.mbx.parkReplies
  waits.foldl (fun e c => reply e c 0 []) { e with mbx := { e.mbx with parkReplies := [] } }

/-- Driver-loss handling goes on once no graph runs and FP1 is up (R529, R532). -/
def orphanIfDue (e : Engine) : Engine :=
  if e.mbx.host == .draining && e.sch.run.isNone && e.boot.state == .run && procUp e 1 then enterOrphaned e else e

/-- The words of a GRAPH_DONE (R518). -/
def doneWords (s : Submitted) (outcome code first completed : Nat) : List Word :=
  [w32 s.gid, s.cookie, w32 (outcome + 256 * code), w32 first, w32 completed]

/-- The GRAPH_ABORT commands that waited for a graph's end are answered (R511). -/
def answerAborts (e : Engine) (gid : Nat) : Engine :=
  let waits := e.mbx.abortReplies
  let e := { e with mbx := { e.mbx with abortReplies := waits.filter fun p => p.1 ≠ gid } }
  (waits.filter fun p => p.1 = gid).foldl (fun e p => reply e p.2 0 []) e

/-- FP1 logs a graph's end and posts its GRAPH_DONE (R518, trace point 0x0004). -/
def tellDone (e : Engine) (ws : List Word) : Engine :=
  let e := announce (logEvent e 55 0x0004 (fwFlags 1) (ws.flatMap fun w => leBytes 4 w.toNat)) 0xC1 ws
  answerAborts e (ws.headD 0).toNat

/-- A graph ends for the host: GRAPH_DONE in HUB_DONE in hardware, the message once FP1 is up (R468, R518, R529). -/
def reportDone (e : Engine) (s : Submitted) (outcome code first completed : Nat) : Engine :=
  let ws := doneWords s outcome code first completed
  let e := { e with hub := { e.hub with graphDone := true }, sch := { e.sch with done := insertNat s.gid e.sch.done } }
  if procUp e 1 then tellDone e ws else { e with mbx := { e.mbx with doneWaits := e.mbx.doneWaits ++ [ws] } }

/-- A comb as no graph runs: contexts, rings, carousel, queues and stores empty (R225, R260, R273). -/
def idleComb (cb : Comb) : Comb :=
  { cb with ctxs := [none, none, none, none], freeSlots := Config.poolSlots, rings := List.replicate 12 none
            frames := cb.frames.map emptyFrame, parks := List.replicate 8 {}, cache := [], evicted := [], act := [], ringQ := [], outQ := []
            chain := [], buffers := [], carousel := none, persist := [] }

/-- The link groups as no graph runs: unicasts to dropped ports go on (R400), a group that has GO keeps its generation and GO, and one
without joins again with its next bucket (R401, R402, assumptions/87). -/
def idleLinks (l : Links) : Links :=
  { l with
    buckets := (l.buckets.filter fun b => b.state == .done && !b.drops.isEmpty).map fun b => { b with dispatched := false }
    groups := (l.groups.filter Group.go).map fun g => { g with attempt := [], oks := [], acted := [], sealed := none }
    own := [], linkQ := [[], [], []], abandoned := [] }

/-- What the engine holds for a running graph, released (R225, R273, R294). A fenced comb's registers keep what they show
(R569). -/
def releaseGraph (e : Engine) : Engine :=
  let e := (enabledCombs e).foldl (fun e c => dropReads (onComb e c idleComb) c) e
  let e := freeBrood (releaseStores (forgetReads e fun d => d == .light))
  let e := e.lnk.buckets.foldl freeOut e
  let e := { e with
    hf := { e.hf with light := none, opened := none, cache := [], hand := [], parks := List.replicate 16 {} }
    cap := { e.cap with job := none, waiting := none, queue := [], spill := [] }
    lnk := idleLinks e.lnk
    mp := { e.mp with heldXlat := [], writes := e.mp.writes.map fun w => if w.who == .log then w else orphanWrite w } }
  let e := dropWaiting e fun _ => true
  { e with sch := { e.sch with run := none, phase := .idle } }

/-- The running graph ends with an outcome (R518): 0 COMPLETED, 1 STOPPED, 3 ABORTED. -/
def endGraph (e : Engine) (outcome code : Nat) : Engine :=
  match e.sch.run with
  | none => e
  | some g =>
    let e := writeVersions e
    let code := if g.sub.ckpt.isSome && (outcome == 0 || g.ckptCode != 0) then g.ckptCode else code
    let e := { e with sch := { e.sch with lastTable := some (g.hdr.versionTable, g.hdr.versionEntries), fetched := g.fetch } }
    let e := reportDone e g.sub outcome code (g.firstErr.getD noTask) e.sch.completedCount
    orphanIfDue (releaseGraph e)

/-! ### Admission -/

/-- FP1 may admit a graph (R293, R529, R532). -/
def admitReady (e : Engine) : Bool :=
  running e && procUp e 1 && e.sch.run.isNone && (e.mbx.host != .draining && e.mbx.host != .orphaned) && !e.sch.queue.isEmpty

/-- The registers sampled at admission (R294 step 1). -/
def sampleRegs (e : Engine) : Samples :=
  { fmtCtrl := w32 (rwVal e .hubFmtCtrl), srSeed := w32 (rwVal e .hubSrSeed), qntCtrl := w32 (rwVal e .hubQntCtrl)
    poisonCtrl := w32 (rwVal e .hubPoisonCtrl), schCtrl := w32 (rwVal e .schCtrl), lnkCtrl := w32 (rwVal e .lnkCtrl)
    dlOffset := w32 (rwVal e .frgDlOffset) }

/-- A counter of a comb or of one of its frames. -/
def combCounter (c : CombId) : Ctr → Bool
  | .comb d _ | .frame d _ _ => d == c
  | _ => false

/-- A register of a comb's window that holds RW fields. -/
def combFields (c : CombId) : RegName → Bool
  | .cmbRingStatus d | .cmbPfSel d | .cmbObsCtrl d | .cmbObsHist d => d == c
  | _ => false

/-- A comb whose unfence is pending rejoins with nothing in it, every register at its reset value (R415, R569): its island starts and
locks again. -/
def rejoin (e : Engine) (c : CombId) : Engine :=
  if !(fenceOf e c).pending then e
  else
    let e := { e with fences := updAt e.fences c.val fun _ => {} }
    let e := onIsland e c.val fun s => { s with started := true, locked := true }
    let e := { e with ctr := e.ctr.filter fun p => !combCounter c p.1, rw := e.rw.filter fun p => !combFields c p.1 }
    onComb e c fun _ => {}

/-- Combs enabled at this admission: those enabled now and those that rejoin (R294 step 3). -/
def admitCount (e : Engine) : Nat := countIf (fun c => enabled e c || (fenceOf e c).pending) allCombs

/-- Record i of a table in memory. -/
def tableRow (m : Mem) (e : Engine) (base size i : Nat) : List Byte := viewBytes m e (base + size * i) size

/-- The carousel table of a header; none: the graph is refused (R294, R295). -/
def readCarousel (m : Mem) (e : Engine) (h : GraphHdr) : Option (List (Nat × Nat)) :=
  let rows := (List.range h.carouselEntries).map (tableRow m e h.carouselTable 16)
  let tab := rows.map parseCarousel
  if viewPoisoned m e h.carouselTable (16 * h.carouselEntries) || !rows.all carouselOk then none
  else if h.carouselEntries ≠ 0 ∧ admitCount e * h.shardBytes < sumNat (tab.map Prod.snd) then none
  else some tab

/-- The version table with the expected epoch of each CURRENT slot (R235, R349); none: the graph is refused. -/
def readVersions (m : Mem) (e : Engine) (h : GraphHdr) : Option (List VerEntry) :=
  let rows := (List.range h.versionEntries).map (tableRow m e h.versionTable 64)
  let vs := rows.map parseVer
  if viewPoisoned m e h.versionTable (64 * h.versionEntries) || !((rows.zip vs).all fun p => verOk p.1 p.2) ||
      repeats (vs.map VerEntry.handle) then none
  else some (vs.map fun v =>
    { v with epochs := updAt v.epochs v.current fun _ => some (viewNat m e (elemD v.codes v.current 0 + 6) 2) })

/-- The layer table; an entry on a poisoned line is held as one that breaks Table 09-2 (R296). -/
def readLayers (m : Mem) (e : Engine) (s : Submitted) (h : GraphHdr) : List (List Byte) :=
  if s.ckpt.isSome then []
  else (List.range 256).map fun i =>
    if viewPoison m e (lineOf (h.layerTable + 16 * i)) then List.replicate 16 0xFF else tableRow m e h.layerTable 16 i

/-- The generation table (R319); some none: none is named. -/
def readGen (m : Mem) (e : Engine) (h : GraphHdr) : Option (Option Gen) :=
  if h.genTable = 0 then some none
  else if viewPoisoned m e h.genTable 576 then none
  else some (some (parseGen (viewBytes m e h.genTable 576)))

/-- The brood map, not placed; none: the graph is refused (R199, R294). -/
def readRegions (m : Mem) (e : Engine) (h : GraphHdr) : Option (List Region) :=
  let rows := (List.range h.broodEntries).map (tableRow m e h.broodMap 32)
  let rs := rows.map parseRegion
  if viewPoisoned m e h.broodMap (32 * h.broodEntries) || !((rows.zip rs).all fun p => regionOk p.1 p.2) ||
      repeats (rs.map Region.handle) then none
  else some rs

/-- ACTIVE of each sequence context as SCH_GEN_ACTIVE shows it. -/
def genBits (g : Option Gen) : Word :=
  match g with
  | none => 0
  | some g => w32 (sumNat ((List.range 32).map fun x => if (elemD g.ctxs x ⟨false, 0, 0, 0⟩).active then 2 ^ x else 0))

/-- What HUB_MODE_STATUS shows of the graph: POLICY, ORDER, SCHEDULE, V_MINUS_2. -/
def graphModeBits (s : Samples) (h : GraphHdr) : BitVec 5 :=
  BitVec.ofNat 5 (at' (b2n (bit s.poisonCtrl.toNat 0)) 4 + at' (b2n h.arrival) 3 + at' (b2n h.interleaved) 2 + h.vMinus2)

/-- A comb loads its shard into a carousel buffer reserved from its pool; where the pool is too small, its tasks read the
shard from memory (R280). -/
def loadCarousel (m : Mem) (e : Engine) (l : Nat) (c : CombId) : Engine :=
  let n := shardSlots e + 2
  if (combOf e c).freeSlots < n then onComb e c fun cb => { cb with carousel := some { slots := 0, own := { num := l } } }
  else
    let s := loadShard m e l
    let e := onComb e c fun cb => { cb with freeSlots := cb.freeSlots - n, carousel := some { slots := n, own := s } }
    landedPoison e c s.bad.length codeHalted

/-- The start positions written to POS_ADDR (R319). -/
def writePositions (e : Engine) (g : Gen) : Engine :=
  sendAll e (.hub noTask) g.posAddr ((g.ctxs.take 32).flatMap fun x => leBytes 4 x.pos) false

/-- A graph is refused at admission and runs no task (R294). -/
def refuse (e : Engine) (s : Submitted) (code : Nat) (bad : Bool) : Engine :=
  let e := if bad then raiseErr e errPoison else e
  reportDone (captureErr e 0xF0 code noTask) s 2 code noTask e.sch.completedCount

/-- Whether any structure that refuses a graph lies on a poisoned line. -/
def admitPoison (m : Mem) (e : Engine) (s : Submitted) (h : GraphHdr) : Bool :=
  subPoisoned m e s s.addr 128 || viewPoisoned m e h.carouselTable (16 * h.carouselEntries) ||
  viewPoisoned m e h.versionTable (64 * h.versionEntries) || (h.genTable != 0 && viewPoisoned m e h.genTable 576) ||
  viewPoisoned m e h.broodMap (32 * h.broodEntries)

/-- The header address that trace point 0x0003 shows. A checkpoint graph's header lies in the hub store, for which the
spec states no address: a free value. -/
def headerAddr (e : Engine) (s : Submitted) : Nat × Engine :=
  match s.ckpt with
  | none => (s.addr, e)
  | some _ =>
    let (n, e) := drawFree e
    let (k, e) := drawFree e
    ((Config.freeWord n).toNat + (Config.freeWord k).toNat * 2 ^ 32, e)

/-- The graph as the scheduler starts it at task 0 (R294 step 7). -/
def startGraph (m : Mem) (e : Engine) (g : Graph) : Engine :=
  let e := { e with sch := { e.sch with
    run := some g, phase := .run, modeBits := graphModeBits g.samples g.hdr, genActive := genBits g.gen, fetched := 0, completedCount := 0 } }
  let e := placeRegions e
  let e := if g.hdr.carouselEntries = 0 then e
    else ((List.range g.logical.length).zip g.logical).foldl (fun e p => loadCarousel m e p.1 p.2) e
  let e := match g.gen with | some t => writePositions e t | none => e
  let e := noteRead e (!g.layers.isEmpty && viewPoisoned m e g.hdr.layerTable 4096)
  let (addr, e) := headerAddr e g.sub
  logEvent e 55 0x0003 (fwFlags 1) ([BitVec.ofNat 8 g.sub.gid, 0, 0, 0] ++ leBytes 8 addr)

/-- The rest of an admission once the header is valid (R294 steps 3 to 7). -/
def admitTables (m : Mem) (e : Engine) (s : Submitted) (h : GraphHdr) : Engine :=
  let smp := sampleRegs e
  let bad := admitPoison m e s h
  match readCarousel m e h with
  | none => refuse e s codeGraphInvalid bad
  | some tab =>
    let e := allCombs.foldl rejoin e
    match readVersions m e h, readGen m e h with
    | some vs, some gen =>
      if !tab.all fun x => vs.any fun v => v.handle == x.1 then refuse e s codeGraphInvalid bad
      else match readRegions m e h with
      | none => refuse e s codeBroodMapInvalid bad
      | some rs => startGraph m e {
          sub := s, hdr := h, samples := smp, logical := enabledCombs e, regions := rs, versions := vs
          layers := readLayers m e s h, gen := gen, carousel := tab }
    | _, _ => refuse e s codeGraphInvalid bad

/-- GRAPH_ADMIT (R293, R294): the oldest submitted graph. -/
def graphAdmit (m : Mem) (e : Engine) : Engine :=
  if !admitReady e then e
  else match e.sch.queue with
  | [] => e
  | s :: rest =>
    let e := rearmErr { e with sch := { e.sch with queue := rest } }
    let bs := subBytes m e s s.addr 128
    let h := parseHeader bs
    if subPoisoned m e s s.addr 128 then refuse e s codeGraphInvalid true
    else if s.addr % 128 ≠ 0 ∨ !headerOk bs h then refuse e s codeGraphInvalid false
    else admitTables m e s h

def execGraphAdmit (rd : List MemLine) (s : State) : Host.Outcome State Fault Refusal := .next (reading s rd graphAdmit)

end Sys2Proof.Machine
end

