-- ==== Sys2Proof/Machine/CapRow.lean ====
section
/-! DEFINITION. Machine/CapRow.lean: the capping unit's arithmetic and rows: the recurrence (R337 to R340), re-quantisation
(R41, R42, R47 to R50, R194), scale initialisation (R348), weight row records as it reads and writes them (R43, R62 to R70, R193). -/

namespace Sys2Proof.Machine

/-! ### The recurrence -/

/-- A word of a copied coefficient entry (Table 10-2). -/
def coefOf (c : List Word) (i : Nat) : Word := elemD c i 0

/-- acc() of R337: present terms added left to right, +0 with none; a term whose coefficient is ±0 is absent (R338). -/
def accTerms (ts : List (Word × Word)) : Word :=
  match (ts.filter fun p => !fZero p.1).map fun p => fMul p.1 p.2 with
  | [] => 0
  | a :: l => l.foldl fAdd a

/-- sign() of R338. -/
def fSign (x : Word) : Word :=
  if fNan x then w32 (fNanBits fmtF32) else if fZero x then 0 else if bit x.toNat 31 then 0xBF800000 else 0x3F800000

/-- A value clamped to ±|lim|; ±0 disables the clamp (Table 10-2). -/
def clampMag (x lim : Word) : Word :=
  if fZero lim then x
  else if fLt (fAbs lim) x then fAbs lim
  else if fLt x (fNeg (fAbs lim)) then fNeg (fAbs lim)
  else x

/-- The recurrence of R337 for one element: w′, m′, v′. -/
def updElem (c : List Word) (lr w m v gin : Word) : Word × Word × Word :=
  let k := coefOf c
  let g := clampMag (fMul (k 14) gin) (k 15)
  let gg := fMul g g
  let m1 := accTerms [(k 0, m), (k 1, g), (k 2, gg), (k 3, w)]
  let v1 := accTerms [(k 4, v), (k 5, g), (k 6, gg), (k 7, fAbs g)]
  let q := if fZero (k 8) then 0 else fDiv m1 (fAdd (fSqrt v1) (k 13))
  let d := accTerms [(k 8, q), (k 9, g), (k 10, w), (k 11, fSign m1)]
  (clampMag (fSub w (fMul lr d)) (k 16), m1, v1)

/-- pw of R339: x to the power t, from the most significant set bit of t. -/
def fPow (x : Word) (t : Nat) : Word :=
  ((List.range (Nat.log2 t)).reverse).foldl (fun r i => let r := fMul r r; if bit t i then fMul r x else r) x

/-- lr_t of R339. -/
def lrOf (c : List Word) (step : Nat) : Word :=
  let k := coefOf c
  if bit (k 17).toNat 1 then
    let one : Word := 0x3F800000
    fDiv (fMul (k 12) (fSqrt (fSub one (fPow (k 4) (step + 1))))) (fSub one (fPow (k 0) (step + 1)))
  else k 12

/-- Bytes of a moment in a group's format (R340). -/
def momBytes (c : List Word) : Nat := if bit (coefOf c 17).toNat 0 then 2 else 4

/-- A BF16 or F32 element widened (R340). -/
def readFloat (v : View) (size addr : Nat) : Word :=
  if size = 2 then bf16ToF32 (v.nat addr 2) else w32 (v.nat addr 4)

/-- An F32 value's bytes as stored: BF16 rounds to nearest, ties to even. -/
def floatBytes (size : Nat) (w : Word) : List Byte :=
  if size = 2 then leBytes 2 (f32ToBF16 w) else leBytes 4 w.toNat

/-! ### Re-quantisation -/

/-- A re-quantised row: scale, zero point, FLAT, whether a scale clamp set CLAMPED, codes clamped, codes and factor bytes. -/
structure Quant where
  scale : Word
  zp : Nat
  flat : Bool := false
  clamped : Nat := 0
  codes : List Nat := []
  rho : List Int := []
  deriving Repr, Inhabited

/-- round_half_even(w · r), the product exact (R41). -/
def codeAt (w r : Word) : Int := vRoundInt (vMul (f32Val w) (f32Val r))

/-- ρ of a code that is not clamped (R194). -/
def rhoOf (w r : Word) (q z : Int) : Int :=
  let x := vAdd (f32Val (fOfInt (q - z))) (vNeg (vMul (f32Val w) (f32Val r)))
  clampInt (vRoundInt (vMul (.fin false 128 0) x)) (-64) 64

/-- One value's code before the clamp, as code, clamped and factor (R41, R42, Table 06-8). -/
def quantOne (w r : Word) (z qmax k : Int) : Nat × Bool × Int :=
  let raw := k + z
  let q := clampInt raw 0 qmax
  if raw < 0 then (0, true, -128) else if qmax < raw then (qmax.toNat, true, 127) else (q.toNat, false, rhoOf w r q z)

/-- All values of a row are equal. -/
def allEqual (ws : List Word) : Bool :=
  match ws with
  | [] => false
  | a :: l => l.all fun b => !fLt a b && !fLt b a

/-- A row re-quantised with scale s and zero point z: flat under R49, without values under R50, otherwise under R41. -/
def quantRow (minScale s : Word) (z qmax : Nat) (ws : List Word) : Quant :=
  let flat := allEqual ws
  let s := if flat && fLt s minScale then minScale else s
  let r := fDiv 0x3F800000 s
  let k0 := match ws with | w :: _ => codeAt w r | [] => 0
  let z' : Int := if flat then clampInt (-k0) 0 qmax else z
  let qs := ws.map fun w => quantOne w r z' qmax (if flat then k0 else codeAt w r)
  { scale := s, zp := z'.toNat, flat := flat, clamped := countIf (fun q => q.2.1) qs, codes := qs.map Prod.fst, rho := qs.map fun q => q.2.2 }

/-- R48: a new scale, whether the minimum replaced it, and whether that sets CLAMPED. -/
def floorScale (s minScale : Word) : Word × Bool × Bool :=
  if fBad s ∨ fZero s ∨ fLt s 0 then (minScale, true, true)
  else if fLt s minScale then (minScale, true, false)
  else (s, false, false)

/-- The smallest and the largest value of a row. -/
def minF (l : List Word) : Word := match l with | [] => 0 | a :: l => l.foldl (fun m w => if fLt w m then w else m) a
def maxF (l : List Word) : Word := match l with | [] => 0 | a :: l => l.foldl (fun m w => if fLt m w then w else m) a

/-- Scale initialisation (R348) of a row that is not flat: the fitted scale; none leaves it unchanged. -/
def initScale (margin z qmax : Nat) (ws : List Word) : Option Word :=
  let f := fOfQuot (256 + margin) 256
  let lo := fMul (minF ws) f
  let hi := fMul (maxF ws) f
  let q1 := if fLt 0 hi ∧ z < qmax then some (fDiv hi (fOfInt ((qmax : Int) - z))) else none
  let q2 := if fLt lo 0 ∧ 0 < z then some (fDiv (fNeg lo) (fOfInt z)) else none
  match q1, q2 with
  | some a, some b => some (if fLt a b then b else a)
  | some a, none => some a
  | none, some b => some b
  | none, none => none

/-! ### Rows as read -/

/-- A weight row as the capping unit reads it: header, FLAGS, occupied positions with code, element place and factor byte, the
row's first element and its element count, the bytes of its record and of its factors, its record count on a FREE layer, whether a
line read is poisoned. -/
structure CapRow where
  hdr : WRow
  flags : Nat := 0
  pos : List Nat := []
  codes : List Nat := []
  places : List Nat := []
  rho : List Nat := []
  base : Nat := 0
  count : Nat := 0
  codeLen : Nat := 0
  factorLen : Nat := 0
  records : Nat := 0
  poison : Bool := false
  deriving Repr, Inhabited

/-- Largest code of a width. -/
def qmaxOf (wide : Bool) : Nat := if wide then 255 else 15

/-- The minimum scale of the running graph (R47). -/
def capMinScale (e : Engine) : Word := minScaleOf (samplesOf e).fmtCtrl.toNat

/-- Addresses of row n's record and factors in a slot (R331). -/
def codeAddr (e : Engine) (j : CapJob) (slot n : Nat) : Nat :=
  (match verOf e j.param with | some v => elemD v.codes slot 0 | none => 0) + n * j.arg.codePitch
def factorAddr (e : Engine) (j : CapJob) (slot n : Nat) : Nat :=
  (match verOf e j.param with | some v => elemD v.factors slot 0 | none => 0) + n * j.arg.factorPitch

/-- The expected epoch of a slot (R349). -/
def slotEpoch (e : Engine) (j : CapJob) (slot : Nat) : Option Nat :=
  (verOf e j.param).bind fun v => elemD v.epochs slot none

/-- The header of row n in the slot that the job reads, judged by R46 and R349. -/
def capHeader (m : Mem) (e : Engine) (j : CapJob) (n : Nat) : WRow :=
  rowHeader (memView m e) j.mode (capMinScale e) (some (slotEpoch e j j.from_)) (codeAddr e j j.from_ n)

/-- A row whose header fails R46 orders 1 to 3 or carries the wrong epoch (Table 10-4, R353). -/
def headerBad (r : WRow) : Bool := r.rejected || r.mismatch

/-- Occupied positions of a row as (position, code, element place), with the record bytes after the header and the row's element
count (Table 07-2, R193). -/
def rowContent (m : Mem) (e : Engine) (j : CapJob) (r : WRow) : List (Nat × Nat × Nat) × Nat × Nat :=
  let v := memView m e
  let k := j.arg.k
  if j.mode = 0 then ((List.range k).map fun i => (i, denseCode v r i, i), payloadLen 0 r.wide k 0, k)
  else if j.mode = 3 then
    let fr := freeRow v r k j.arg.codePitch
    (fr.nz.map fun x => (x.1, x.2.1, x.2.2), payloadLen 3 r.wide k fr.records, fr.nz.length)
  else
    let nn := nmOf j.mode
    ((List.range (ceilDiv k 8)).flatMap fun g => (nmGroup v r nn g).map fun s => (8 * g + s.1, s.2.1, g * nn + s.2.2),
      payloadLen j.mode r.wide k 0, j.arg.rowLen)

/-- First element of row n and whether its ROW_START line is poisoned (Table 07-2). -/
def rowBase (m : Mem) (e : Engine) (j : CapJob) (n : Nat) : Nat × Bool :=
  if j.mode = 3 ∧ !j.arg.linear then
    (viewNat m e (j.arg.rowStart + 4 * n) 4, viewPoison m e (lineOf (j.arg.rowStart + 4 * n) % 2 ^ 46))
  else (n * j.arg.rowLen, false)

/-- Row n as the job reads it (R341). -/
def capRow (m : Mem) (e : Engine) (j : CapJob) (n : Nat) : CapRow :=
  let r := capHeader m e j n
  let v := memView m e
  let flags := v.nat (r.addr + 5) 1
  let fa := factorAddr e j j.from_ n
  let records := if j.mode = 3 then (freeRow v r j.arg.k j.arg.codePitch).records else 0
  if r.rejected then
    { hdr := r, flags := flags, records := records, codeLen := j.arg.codePitch, factorLen := j.arg.factorPitch, poison := viewPoisoned m e r.addr 8 }
  else
    let (nz, plen, count) := rowContent m e j r
    let (base, bad) := rowBase m e j n
    { hdr := r, flags := flags, pos := nz.map Prod.fst, codes := nz.map fun x => x.2.1, places := nz.map fun x => x.2.2
      rho := nz.map fun x => v.nat (fa + x.2.2) 1, base := base, count := count, records := records, codeLen := 8 + plen, factorLen := count
      poison := bad || viewPoisoned m e r.addr (8 + plen) || viewPoisoned m e fa count }

/-- The freeze bit of row n and whether its line is poisoned (R333). -/
def freezeBit (m : Mem) (e : Engine) (j : CapJob) (n : Nat) : Bool × Bool :=
  if j.arg.freeze = 0 then (false, false)
  else
    let a := j.arg.freeze + n / 8
    (bit (viewNat m e a 1) (n % 8), viewPoison m e (lineOf a % 2 ^ 46))

/-! ### Rows as written -/

/-- Whether the running task's outputs are poisoned throughout (R314). -/
def taintedTask (e : Engine) (i : Nat) : Bool := match taskOf e i with | some t => t.poisonIn | none => false

/-- A task of the capping unit has marked lines poisoned (R30, R420). -/
def capMarked (e : Engine) (i : Nat) (bad : Bool) : Engine := if bad then poisonEvent (markOut e i) 54 codeHalted else e

/-- Bytes written by a capping-unit task. -/
def capWrite (e : Engine) (i addr : Nat) (bs : List Byte) : Engine :=
  let bad := taintedTask e i
  capMarked (sendAll e (.cap i) addr bs bad) i bad

/-- Bytes copied with the mark of the lines they come from (R342, R361, Table 12-2). -/
def capCopy (m : Mem) (e : Engine) (i src dst n : Nat) : Engine :=
  let bad := taintedTask e i
  let e' := sendBytes e (.cap i) dst (viewBytes m e src n) fun l => bad || copyMark m e src dst n l
  if bad || viewPoisoned m e src n then markOut e' i else e'

/-- A row copied from the slot that the job reads into its target (R342). -/
def copyRow (m : Mem) (e : Engine) (j : CapJob) (n : Nat) (r : CapRow) : Engine :=
  match j.target with
  | none => e
  | some t =>
    let e' := capCopy m e j.task (codeAddr e j j.from_ n) (codeAddr e j t n) r.codeLen
    capCopy m e' j.task (factorAddr e j j.from_ n) (factorAddr e j t n) r.factorLen

/-- Fields of b bits packed from bit 0 upwards. -/
def packBits (b : Nat) (fs : List Nat) : List Byte :=
  leBytes (ceilDiv (b * fs.length) 8) (fs.foldr (fun f acc => f % 2 ^ b + 2 ^ b * acc) 0)

/-- Slots of one NM group in canonical form (R67): occupied (position code, code) first. -/
def nmSlots (n z : Nat) (occ : List (Nat × Nat)) : List (Nat × Nat) :=
  match occ.getLast? with
  | none => (7, z) :: List.replicate (n - 1) (0, z)
  | some l => (occ ++ List.replicate (n - occ.length) (l.1, z)).take n

/-- FREE records of non-zeros (k, code) in ascending k (R68 to R70). -/
def freeRecords (wide : Bool) : (prev : Nat) → List (Nat × Nat) → List Nat
  | _, [] => [15 + 16 * qmaxOf wide]
  | prev, (k, q) :: l => List.replicate ((k - prev) / 15) 15 ++ [(k - prev) % 15 + 16 * q] ++ freeRecords wide (k + 1) l

/-- A row's payload from its occupied positions and codes (R62 to R70). -/
def encodeRow (mode : Nat) (wide : Bool) (k z : Nat) (nz : List (Nat × Nat)) : List Byte :=
  let cb := if wide then 8 else 4
  if mode = 0 then packBits cb (nz.map Prod.snd)
  else if mode = 3 then packBits (4 + cb) (freeRecords wide 0 nz)
  else packBits (3 + cb) ((List.range (ceilDiv k 8)).flatMap fun g =>
    (nmSlots (nmOf mode) z ((nz.filter fun x => x.1 / 8 == g).map fun x => (x.1 % 8, x.2))).map fun s => s.1 + 8 * s.2)

/-- Blocks of a row's record off a 64-byte boundary, read and written (R58, assumptions/115). -/
def countRow (e : Engine) (j : CapJob) (n : Nat) : Engine :=
  let off (a : Nat) : Nat := b2n (a % 64 != 0)
  bump e .hubMisaligned (off (codeAddr e j j.from_ n) + off (codeAddr e j (j.target.getD j.from_) n))

/-- A row has W8 room: with its present record count on a FREE layer (R332). -/
def roomW8 (j : CapJob) (r : CapRow) : Bool := decide (8 + payloadLen j.mode true j.arg.k r.records ≤ j.arg.codePitch)

/-- Header and payload length of a row at a width (R341, Table 03-2). -/
def recordLen (mode : Nat) (wide : Bool) (k : Nat) (pos : List Nat) : Nat :=
  8 + payloadLen mode wide k (if mode = 3 then (freeRecords wide 0 (pos.map fun p => (p, 0))).length else 0)

/-- FLAGS of a written header (Table 02-5). -/
def flagsByte (mode : Nat) (clamped flat wide : Bool) : Nat :=
  at' (maskFmt mode) 3 + at' (b2n clamped) 2 + at' (b2n flat) 1 + b2n wide

/-- A header's eight bytes (Table 02-4). -/
def headerBytes (s : Word) (z flags epoch : Nat) : List Byte := leBytes 4 s.toNat ++ leBytes 1 z ++ leBytes 1 flags ++ leBytes 2 epoch

/-- Factor bytes of a row by element place, 0 for an unoccupied slot (R193, R194). -/
def factorBytes (count : Nat) (places : List Nat) (rho : List Int) : List Byte :=
  (List.range count).map fun i => match (places.zip rho).find? fun p => p.1 == i with
    | some p => BitVec.ofInt 8 p.2
    | none => 0

/-- A float as it is stored is a NaN or an infinity (R29, R30, R340). -/
def storedBad (size : Nat) (w : Word) : Bool := if size = 2 then badBF16 (f32ToBF16 w) else fBad w

/-- The lines that hold a NaN or an infinity of floats stored from address a (R30). -/
def badLines (size a : Nat) (ws : List Word) : List Nat :=
  dedup (((List.range ws.length).zip ws).flatMap fun x =>
    if storedBad size x.2 then (linesOf (a + size * x.1) size).map (· % 2 ^ 46) else [])

/-- Floats of a row at consecutive elements, the lines of those that are not finite marked poisoned (R30). -/
def putFloats (e : Engine) (i size addr base : Nat) (ws : List Word) : Engine :=
  let a := addr + size * base
  let tainted := taintedTask e i
  let bad := badLines size a ws
  capMarked (sendBytes e (.cap i) a (ws.flatMap (floatBytes size)) fun l => tainted || decide (l ∈ bad)) i (tainted || !bad.isEmpty)

/-- A stored float of 2 or 4 bytes as F32. -/
def storedF32 (size x : Nat) : Word := if size = 2 then bf16ToF32 x else w32 x

/-- Stored floats written as they are, the lines of those that are not finite marked poisoned (R30, R357). -/
def putStored (e : Engine) (i size addr : Nat) (xs : List Nat) : Engine :=
  let tainted := taintedTask e i
  let bad := badLines size addr (xs.map (storedF32 size))
  capMarked (sendBytes e (.cap i) addr (xs.flatMap (leBytes size)) fun l => tainted || decide (l ∈ bad)) i (tainted || !bad.isEmpty)

end Sys2Proof.Machine
end

