-- ==== Sys2Proof/Machine/Cap.lean ====
section
/-! DEFINITION. Machine/Cap.lean: the capping unit's tasks (R325 to R349, R190, R191, R235, R238 to R240), spilled adds
(R203, R205, R209, R213 to R216) and the checkpoint (R359 to R363). -/

namespace Sys2Proof.Machine

/-! ### The end of a task -/

/-- The capping unit reports its task done. -/
def endCap (e : Engine) (i status code : Nat) : Engine :=
  let e := onTask e i fun t => { t with life := .ended .cap status code }
  { e with cap := { e.cap with job := none, waiting := none } }

/-- A task of the capping unit fails (R314). HALT acts on poison alone, not on the failure (R434). -/
def failCap (e : Engine) (i code : Nat) : Engine := endCap e i 3 code

/-! ### Starting an UPDATE or MASK task -/

/-- Every field of the record that the capping unit does not use is 0 (R328). -/
def capFieldsZero (t : TaskRec) : Bool :=
  let f := t.flags.toNat
  [0, 1, 4, 5, 6, 7, 8, 9, 10, 11].all (fun i => !bit f i) && t.ilen == 0 && t.ufLimit == 0 && t.epilogue == 0 && t.chain == 0 &&
  t.descBatch == 0 && t.drefs.all (· == 0) && t.rowLen == 0 && t.outRows == 0 && t.outCols == 0 && t.redLen == 0 &&
  t.tileCount == 0 && t.tilemapBase == 0 && t.rearmBase == 0 && t.rearmIndex == 0 && (t.kind == kMASK || t.aux1 == 0)

/-- The mask modes that ROW_LEN can stand for (Table 10-1): K for DENSE and LINEAR, G × N for NM, 0 for FREE. -/
def argModes (u : UpdArg) : List Nat :=
  let g := ceilDiv u.k 8
  (if u.rowLen = u.k then [0] else []) ++
    (if u.linear then [] else
      (if u.rowLen = 2 * g then [1] else []) ++ (if u.rowLen = 4 * g then [2] else []) ++ (if u.rowLen = 0 then [3] else []))

/-- The mask mode of a task's tensor. Where K and G × N are one number, the MASKFMT of the first row header at the CURRENT slot tells
them apart (R349 reads the EPOCH there; assumptions/49). -/
def argMode (m : Mem) (e : Engine) (t : TaskRec) (u : UpdArg) : Option Nat :=
  match argModes u, verOf e t.param with
  | [], _ => none
  | [x], _ => some x
  | x :: _, none => some x
  | x :: l, some v =>
    let fmt := bits (viewNat m e (elemD v.codes v.current 0 + 5) 1) 3 2
    some (((x :: l).find? fun y => maskFmt y == fmt).getD x)

/-- A coefficient entry as a task copies it (R335). -/
def coefEntry (e : Engine) (g : Nat) : List Word := (List.range 20).map fun i => coefWord e (20 * g + i)

/-- The slot that a task reads (R341, R353). -/
def sourceSlot (v : VerEntry) (t : TaskRec) (target : Nat) : Nat :=
  if t.kind = kMASK ∧ t.step ∈ v.updated then target else v.current

/-- A task that has its slot begins (R191, R235, R353). -/
def beginCap (e : Engine) (j : CapJob) (target : Nat) : Engine :=
  match verOf e j.param, taskOf e j.task with
  | some v, some tk =>
    let src := sourceSlot v tk.record target
    if elemD v.factors src 0 = 0 ∨ elemD v.factors target 0 = 0 then failCap e j.task codeTaskInvalid
    else if j.kind = kMASK then
      { e with cap := { e.cap with waiting := none, job := some { j with from_ := src, target := some target } } }
    else
      let e := onVer e j.param fun v => { v with updated := insertNat tk.record.step v.updated, w8 := v.w8 || v.w8Due, w8Due := false }
      let e := if v.w8Due && !v.w8 then switchW8 e j.param else e
      { e with cap := { e.cap with
          waiting := none, job := some { j with from_ := src, target := some target, w8 := v.w8 || v.w8Due } } }
  | _, _ => failCap e j.task codeTaskInvalid

/-- The largest STEP of the tasks that have started: one that failed as it was dispatched has not (R363). -/
def noteStep (e : Engine) (s : Nat) : Engine :=
  if e.cap.job.isSome || e.cap.waiting.isSome then { e with cap := { e.cap with lastStep := some (max s (e.cap.lastStep.getD 0)) } } else e

/-- An UPDATE or MASK task starts, or waits for a version slot (R238, R239), or fails. A task that waits keeps the coefficient entries that
it copied at its dispatch (R335; DESIGN CHOICE, assumptions/146). -/
def beginUpd (m : Mem) (e : Engine) (i : Nat) (t : TaskRec) : Engine :=
  let a := t.arg.toNat
  let bs := viewBytes m e a 128
  let u := parseUpd bs
  let e := noteRead e (viewPoisoned m e a 128)
  match argMode m e t u with
  | none => failCap e i codeTaskInvalid
  | some mode =>
    let c := coefEntry e u.group
    let sc := coefEntry e u.scaleGroup
    let j : CapJob := {
      task := i, kind := t.kind, param := t.param, arg := u, coef := c, scoef := sc, lrT := lrOf c t.step, slrT := lrOf sc t.step, mode := mode }
    if !capFieldsZero t || a % 64 ≠ 0 || viewPoisoned m e a 128 || !updOk bs (t.kind == kMASK) u then failCap e i codeTaskInvalid
    else if u.linear then
      (if t.kind = kMASK ∨ t.param ≠ 0 ∨ tPublish t then failCap e i codeTaskInvalid
       else { e with cap := { e.cap with job := some j } })
    else match verOf e t.param with
    | none => failCap e i codeTaskInvalid
    | some v =>
      if t.kind = kMASK ∧ mode = 0 then failCap e i codeTaskInvalid
      else if v.slots = 1 then failCap e i codeVersionNone
      else match chooseSlot e t.param t.step with
      | (some s, e) => beginCap e j s
      | (none, e) => { e with cap := { e.cap with waiting := some j } }

/-- An UPDATE or MASK task dispatched to the capping unit. -/
def startUpd (m : Mem) (e : Engine) (i : Nat) (t : TaskRec) : Engine := noteStep (beginUpd m e i t) t.step

/-- VERSION_SLOT_FREE (R239): the waiting task proceeds once R238 gives it a slot. -/
def versionFree (e : Engine) : Engine :=
  match e.cap.waiting with
  | none => e
  | some j =>
    if !capWorks e then e
    else match taskOf e j.task with
    | none => { e with cap := { e.cap with waiting := none } }
    | some tk => (match chooseSlot e j.param tk.record.step with
      | (some s, e) => beginCap e j s
      | (none, e) => e)

/-! ### Turns -/

/-- The task's row may go: no spill line waits, or it is the task's turn (R326). -/
def rowTurn (e : Engine) : Bool := e.cap.spill.isEmpty || e.cap.turn

/-- A row of the task has been taken. -/
def rowTaken (e : Engine) (f : CapJob → CapJob) : Engine :=
  { e with cap := { e.cap with turn := false, job := e.cap.job.map f } }

/-! ### Rows of an UPDATE task -/

/-- The clamp limit of R190; none disables the W8 switch. CLAMP_LIMIT 0x00 is sampled as 0x04 (HUB_QNT_CTRL). -/
def clampLimit (e : Engine) (t : TaskRec) : Option Nat :=
  let d := bits (samplesOf e).qntCtrl.toNat 8 8
  let x := if t.clampLimit ≠ 0 then t.clampLimit else if d = 0 then 4 else d
  if x = 0xFF then none else some x

/-- The layer's clamp fraction judged at the end of an UPDATE of a W4 layer (R190, R191). -/
def judgeClamp (e : Engine) (j : CapJob) (t : TaskRec) : Engine :=
  match clampLimit e t with
  | none => e
  | some lim =>
    if j.w8 ∨ !j.w4 ∨ j.codesClamped * 256 ≤ lim * j.codesWritten then e
    else if j.room then onVer e j.param fun v => { v with w8Due := true }
    else bump e .noRoom 1

/-- The last row has been taken: the task is done (R237, R358). -/
def finishUpd (e : Engine) (j : CapJob) : Engine :=
  match taskOf e j.task with
  | none => { e with cap := { e.cap with job := none } }
  | some tk =>
    let t := tk.record
    let e := if j.kind = kUPDATE ∧ !j.arg.linear then judgeClamp e j t else e
    let e := if tUnpin t && t.mbValid then unpinMb e t.param t.mb t.step else e
    endCap e j.task 1 0

/-- Counts of a re-quantised row (R42, R49, R190). -/
def countQuant (e : Engine) (q : Quant) : Engine := bump (bump e .clamped q.clamped) .flatRows (b2n q.flat)

/-- The new scale of a row (R343 steps 2 and 3): scale, scale moments to write, floored, CLAMPED, not finite. -/
structure NewScale where
  s : Word
  moms : Option (Word × Word) := none
  floored : Bool := false
  clamped : Bool := false
  bad : Bool := false
  deriving Repr, Inhabited

/-- Step 2 of R343 for row n with present scale s. -/
def trainScale (m : Mem) (e : Engine) (j : CapJob) (n : Nat) (s : Word) : NewScale :=
  let u := j.arg
  let v := memView m e
  let sz := momBytes j.scoef
  if !u.scaleTrain then { s := s }
  else
    let g := readFloat v (if u.gradF32 then 4 else 2) (u.sgrad + (if u.gradF32 then 4 else 2) * n)
    let m0 := readFloat v sz (u.smom + 2 * sz * n)
    let v0 := readFloat v sz (u.smom + 2 * sz * n + sz)
    let (s1, m1, v1) := updElem j.scoef j.slrT s m0 v0 g
    if fBad s1 then { s := s, bad := true }
    else let (s', fl, cl) := floorScale s1 (capMinScale e); { s := s', moms := some (m1, v1), floored := fl, clamped := cl }

/-- Step 3 of R343: the scale fitted to the values of a row that is not flat; one that is, or that fits no scale, keeps what step 2
left (R348, assumptions/116). -/
def fitScale (e : Engine) (j : CapJob) (z : Nat) (wide : Bool) (ws : List Word) (x : NewScale) : NewScale :=
  if !j.arg.scaleInit then x
  else
    let x := { x with moms := if j.arg.scaleTrain then some (0, 0) else none }
    if ws.isEmpty ∨ allEqual ws then x
    else match initScale (bits (coefOf j.scoef 17).toNat 8 8) z (qmaxOf wide) ws with
      | none => x
      | some y => let (s', fl, cl) := floorScale y (capMinScale e); { x with s := s', floored := fl, clamped := cl }

/-- Steps 2 and 3 of R343 for row n with present scale s, zero point z and values ws. -/
def newScale (m : Mem) (e : Engine) (j : CapJob) (n : Nat) (s : Word) (z : Nat) (wide : Bool) (ws : List Word) : NewScale :=
  fitScale e j z wide ws (trainScale m e j n s)

/-- Scale, zero point and width with which a row's update begins, and whether the minimum scale was put in: a W4 row that is to be
written W8 is converted first (R191, R345, assumptions/117). -/
def startScale (e : Engine) (j : CapJob) (r : WRow) : Word × Nat × Bool × Bool :=
  if j.w8 && !r.wide then
    let s := fMul r.s (fPow2Neg 3)
    if fLt s (capMinScale e) then (capMinScale e, 8 * r.z + 68, true, true) else (s, 8 * r.z + 68, true, r.floored)
  else (r.s, r.z, r.wide, r.floored)

/-- Whether a line that row n's update reads beside its record is poisoned (Table 10-4 order 2). -/
def stateMarked (m : Mem) (e : Engine) (j : CapJob) (n base count : Nat) : Bool :=
  let u := j.arg
  let ms := momBytes j.coef
  let gs := if u.gradF32 then 4 else 2
  viewPoisoned m e (u.master + 4 * base) (4 * count) || viewPoisoned m e (u.m + ms * base) (ms * count) ||
  viewPoisoned m e (u.v + ms * base) (ms * count) || viewPoisoned m e (u.grad + gs * base) (gs * count) ||
  (u.scaleTrain && (viewPoisoned m e (u.sgrad + gs * n) gs ||
    viewPoisoned m e (u.smom + 2 * momBytes j.scoef * n) (2 * momBytes j.scoef)))

/-- The recurrence over a row's elements; an unoccupied NM slot is forced to +0 (R344). -/
def updElems (m : Mem) (e : Engine) (j : CapJob) (base count : Nat) (occ : Option (List Nat)) : List (Word × Word × Word) :=
  let u := j.arg
  let v := memView m e
  let ms := momBytes j.coef
  let gs := if u.gradF32 then 4 else 2
  (List.range count).map fun i =>
    let x := updElem j.coef j.lrT (w32 (v.nat (u.master + 4 * (base + i)) 4)) (readFloat v ms (u.m + ms * (base + i)))
      (readFloat v ms (u.v + ms * (base + i))) (readFloat v gs (u.grad + gs * (base + i)))
    match occ with
    | some l => if i ∈ l then x else (0, 0, 0)
    | none => x

/-- Master weights and moments written in place (R343 step 5). -/
def putState (e : Engine) (j : CapJob) (base : Nat) (xs : List (Word × Word × Word)) : Engine :=
  let u := j.arg
  let ms := momBytes j.coef
  let e := putFloats e j.task 4 u.master base (xs.map Prod.fst)
  let e := putFloats e j.task ms u.m base (xs.map fun x => x.2.1)
  putFloats e j.task ms u.v base (xs.map fun x => x.2.2)

/-- Some element's w′, m′ or v′ is not finite (Table 10-4 order 3). -/
def anyBad (xs : List (Word × Word × Word)) : Bool := xs.any fun x => fBad x.1 || fBad x.2.1 || fBad x.2.2

/-- A row without codes (R347). -/
def linearRow (m : Mem) (e : Engine) (j : CapJob) (n : Nat) : Engine :=
  let base := n * j.arg.rowLen
  let (frozen, fbad) := freezeBit m e j n
  if frozen && !fbad then bump e .frozenRows 1
  else if fbad || stateMarked m e j n base j.arg.rowLen then poisonEvent (bump e .skippedPoison 1) 54 codeHalted
  else
    let xs := updElems m e j base j.arg.rowLen none
    if anyBad xs then bump e .skippedNonfinite 1 else putState e j base xs

/-- A row updated and re-quantised (R343 to R345): the engine with what the job counts of it. -/
def writeUpdated (e : Engine) (j : CapJob) (n : Nat) (r : CapRow) (xs : List (Word × Word × Word)) (ns : NewScale) (z : Nat) (wide : Bool)
    (ws : List Word) : Engine × (CapJob → CapJob) :=
  let q := quantRow (capMinScale e) ns.s z (qmaxOf wide) ws
  let e := putState e j r.base xs
  let e := match ns.moms with
    | some (a, b) => putFloats e j.task (momBytes j.scoef) j.arg.smom (2 * n) [a, b]
    | none => e
  let e := countQuant (bump e .scaleFloored (b2n ns.floored)) q
  let cl := !ws.isEmpty && (decide (0 < q.clamped) || ns.clamped)
  let t := j.target.getD 0
  let e := capWrite e j.task (codeAddr e j t n)
    (headerBytes q.scale q.zp (flagsByte j.mode cl q.flat wide) r.hdr.epoch ++ encodeRow j.mode wide j.arg.k q.zp (r.pos.zip q.codes))
  let e := capWrite e j.task (factorAddr e j t n) (factorBytes r.count r.places q.rho)
  (e, fun j => { j with codesWritten := j.codesWritten + ws.length, codesClamped := j.codesClamped + q.clamped, w4 := j.w4 || !r.hdr.wide })

/-- One row of an UPDATE task with codes: the first outcome of Table 10-4 that applies. -/
def codedRow (m : Mem) (e : Engine) (j : CapJob) (n : Nat) : Engine × (CapJob → CapJob) :=
  let r := capRow m e j n
  let e := countRow e j n
  let (frozen, fbad) := freezeBit m e j n
  let room (k : CapJob) : CapJob := { k with room := k.room && roomW8 j r }
  let marked := fbad || r.poison || (!r.hdr.rejected && stateMarked m e j n r.base r.count)
  if frozen && !fbad then (bump (copyRow m e j n r) .frozenRows 1, room)
  else if marked || headerBad r.hdr then
    let e := bump (copyRow m e j n r) .skippedPoison 1
    (if marked then poisonEvent e 54 codeHalted else e, room)
  else
    let (s, z, wide, low) := startScale e j r.hdr
    let e := bump e .scaleFloored (b2n low)
    let xs := updElems m e j r.base r.count (if j.mode = 1 ∨ j.mode = 2 then some r.places else none)
    let ws := r.places.map fun i => (elemD xs i (0, 0, 0)).1
    let ns := newScale m e j n s z wide ws
    if anyBad xs || ns.bad then (bump (copyRow m e j n r) .skippedNonfinite 1, room)
    else if j.arg.codePitch < recordLen j.mode wide j.arg.k r.pos then (bump (copyRow m e j n r) .maskNoRoom 1, room)
    else let (e, f) := writeUpdated e j n r xs ns z wide ws; (e, fun j => f (room j))

/-- A row that a lane mismatch leaves copied under Table 10-4 order 2 (R407). -/
def laneRow (m : Mem) (e : Engine) (j : CapJob) (n : Nat) : Engine × (CapJob → CapJob) :=
  let e := bump (laneEvent (bump e .hubLaneMismatch 1)) .skippedPoison 1
  if j.arg.linear then (e, id)
  else
    let r := capRow m e j n
    (copyRow m (countRow e j n) j n r, fun k => { k with room := k.room && roomW8 j r })

/-- UPDATE_ROW (R341): the next row of the running UPDATE task. -/
def updateRow (m : Mem) (e : Engine) (lane : LaneFault) : Engine :=
  match e.cap.job with
  | none => e
  | some j =>
    if !capWorks e || j.kind ≠ kUPDATE || !rowTurn e then e
    else
      let (e, f) :=
        if lane then laneRow m e j j.row
        else if j.arg.linear then (linearRow m e j j.row, id)
        else codedRow m e j j.row
      let e := rowTaken e fun j => { f j with row := j.row + 1 }
      match e.cap.job with
      | some j => if j.arg.rows ≤ j.row then finishUpd e j else e
      | none => e

/-! ### Spilled adds -/

/-- The step of a task that has added, resident or completed. -/
def stepOf (e : Engine) (i : Nat) : Nat :=
  match e.sch.run with
  | none => 0
  | some g => match (g.tasks ++ g.retired).find? fun t => t.index == i with
    | some t => t.record.step
    | none => 0

/-- A candidate region that its MASK task has read starts again at +0 before its next add (text after R216). -/
def freshCandidate (e : Engine) (r : Region) : Engine :=
  if r.stale then onRegion (zeroSpilled e r) r.handle fun r => { r with stale := false } else e

/-- The element of an add in a spilled region under R203, with the hub's out-of-bounds counts. -/
def spillElem (e : Engine) (r : Region) (i : Nat) : Option Nat × Engine :=
  match regionElem e r i with
  | (x, true) => (x, e)
  | (some x, false) => (some x, bump e .hubOobClamped 1)
  | (none, false) => (none, bump e .hubOobFilled 1)

/-- One add by read-add-write (R205, R208, R213); a line that memory returns poisoned, or that the add poisons, is an event (R420). -/
def spillOne (m : Mem) (e : Engine) (task : Nat) (r : Region) (i : Nat) (v : Word) (bad : Bool) : Engine :=
  let a := r.accAddr + 4 * i
  let line := lineOf a % 2 ^ 46
  let old := viewPoison m e line
  let s := fAdd (w32 (viewNat m e a 4)) v
  let e' := sendBytes e (.cap task) a (leBytes 4 s.toNat) fun _ => old || bad || fBad s
  capMarked e' task (old || bad || fBad s)

/-- The line of the accumulator that an add falls in, clamped under R203. -/
def addLine (e : Engine) (r : Region) (i : Nat) : Nat := lineOf (r.accAddr + 4 * ((regionElem e r i).1).getD i)

/-- The line that an entry adds into first. -/
def firstLine (e : Engine) (r : Region) (l : List (Nat × Word)) : Nat := match l with | a :: _ => addLine e r a.1 | [] => 0

/-- The wait of a staging row counted: every entry that carries adds of the row knows it (R209). -/
def rowWaited (e : Engine) (x : HandleEntry) : Engine :=
  let mark (y : HandleEntry) : HandleEntry :=
    if y.task = x.task ∧ y.tile = x.tile ∧ y.reach = x.reach ∧ y.row = x.row then { y with waited := true } else y
  { e with
    combs := e.combs.map fun cb => { cb with chain := cb.chain.map mark, outQ := cb.outQ.map mark }
    hf := { e.hf with hand := e.hf.hand.map mark }
    cap := { e.cap with queue := e.cap.queue.map mark, spill := e.cap.spill.map mark } }

/-- SPILL_ADD (R213, R214, R326): the adds of the waiting entry that fall in one line. An entry that waits under R209 leaves the turn to the
task. -/
def spillAdd (m : Mem) (e : Engine) (fault : AddFault) : Engine :=
  match e.cap.spill with
  | [] => e
  | x :: rest =>
    if !capWorks e || (e.cap.job.isSome && e.cap.turn) then e
    else match regionOf e x.region with
    | none => { e with cap := { e.cap with spill := rest } }
    | some r =>
      let step := stepOf e x.task
      if addWaits e x.region step then
        let e := if x.waited then e else bumpComb (rowWaited e x) (srcComb x) .stepWaits 1
        { e with cap := { e.cap with turn := true } }
      else
        let e := if fault.lane then laneEvent (bump e .hubLaneMismatch 1) else e
        let e := freshCandidate e r
        let l := firstLine e r x.adds
        let now := x.adds.filter fun a => addLine e r a.1 == l
        let later := x.adds.filter fun a => addLine e r a.1 != l
        let e := now.foldl (fun e a => match spillElem e r a.1 with
          | (some i, e) => spillOne m e x.task r i a.2 (x.h.poison || fault.lane || fault.crc)
          | (none, e) => e) e
        let e := onRegion e x.region fun r =>
          { r with touched := true, step := (if r.touched then r.step else step), addedBy := insertNat x.task r.addedBy }
        let e := bump e .spillAdds 1
        { e with cap := { e.cap with turn := true, spill := if later.isEmpty then rest else { x with adds := later } :: rest } }

/-! ### The checkpoint -/

/-- A checkpoint argument record (Table 10-5). -/
def parseCkpt (bs : List Byte) : CkptJob :=
  { list := field bs 0 8, entries := field bs 8 4, coefDst := field bs 16 8, manifest := field bs 24 8 }

/-- The record keeps its ranges, reserved bits and alignment (R359). -/
def ckptOk (bs : List Byte) (c : CkptJob) : Bool :=
  [c.list, c.coefDst, c.manifest].all addrOk && c.list % 32 == 0 && decide (1 ≤ c.entries ∧ c.entries ≤ 65536) && zeroBytes bs 12 4 &&
  c.coefDst % 64 == 0 && c.manifest % 64 == 0 && zeroBytes bs 32 32

/-- A CHECKPOINT task starts (R359, R363). -/
def startCkpt (m : Mem) (e : Engine) (i : Nat) (t : TaskRec) : Engine :=
  let a := t.arg.toNat
  let bs := viewBytes m e a 64
  let c := parseCkpt bs
  let bad := viewPoisoned m e a 64
  let e := noteRead e bad
  let late := match e.cap.lastStep with | some s => decide (t.step < s) | none => false
  if late then failCap e i codeCkptOrder
  else if a % 64 ≠ 0 ∨ bad ∨ !ckptOk bs c then failCap e i codeTaskInvalid
  else { e with cap := { e.cap with job := some { task := i, kind := kCKPT, param := 0, ckpt := some c } } }

/-- Where an entry of the list copies from (Table 10-6); none: the entry is invalid. -/
def ckptSource (e : Engine) (bs : List Byte) : Option Nat :=
  let kind := field bs 0 1
  let h := field bs 1 3
  let src := field bs 8 8
  if !zeroBytes bs 4 4 || field bs 24 8 = 0 || !addrOk (field bs 16 8) || !addrOk src then none
  else if kind = 0 then (if h = 0 then some src else none)
  else if 2 < kind ∨ src ≠ 0 then none
  else match verOf e h with
  | none => none
  | some v =>
    let a := elemD (if kind = 1 then v.codes else v.factors) v.current 0
    if a = 0 then none else some a

/-- The coefficient table as it is written (R360). -/
def coefBytes (e : Engine) : List Byte := (List.range 64).flatMap fun g => (coefEntry e g).flatMap fun w => leBytes 4 w.toNat

/-- The manifest (Table 10-7). -/
def manifestBytes (e : Engine) (step : Nat) (c : CkptJob) : List Byte :=
  leBytes 4 0x57324350 ++ [1, 0, 0, 0] ++ leBytes 4 step ++ leBytes 4 (samplesOf e).srSeed.toNat ++ leBytes 4 (samplesOf e).fmtCtrl.toNat ++
    leBytes 4 c.entries ++ leBytes 4 (min (2 ^ 32 - 1) c.poisoned) ++ leBytes 4 (crc32c (coefBytes e)).toNat ++ List.replicate 32 0

/-- The coefficient table and the manifest end the task (R360, R362). -/
def endCkpt (e : Engine) (i : Nat) (c : CkptJob) : Engine :=
  let step := stepOf e i
  let e := capWrite e i c.coefDst (coefBytes e)
  let e := capWrite e i c.manifest (manifestBytes e step c)
  let e := { e with cap := { e.cap with ckptStep := w32 step } }
  endCap e i 1 0

/-- CHECKPOINT_ENTRY_COPY (R360, R361): the next entry of the list; the last one ends the task. A lane mismatch is an event alone: what is
written is a copy already (R407, assumptions/137). -/
def ckptCopy (lane : LaneFault) (m : Mem) (e : Engine) : Engine :=
  match e.cap.job with
  | none => e
  | some j =>
    match j.ckpt with
    | none => e
    | some c =>
      if !capWorks e || !rowTurn e then e
      else
        let a := c.list + 32 * c.next
        let bs := viewBytes m e a 32
        let bad := viewPoisoned m e a 32
        match ckptSource e bs with
        | none => failCap (noteRead e bad) j.task codeTaskInvalid
        | some src =>
          if bad then failCap (noteRead e bad) j.task codeTaskInvalid
          else
            let n := field bs 24 8
            let lost := countIf (viewPoison m e) (linesOf src n)
            let e := if lane then laneEvent (bump e .hubLaneMismatch 1) else e
            let e := capCopy m e j.task src (field bs 16 8) n
            let e := if 0 < lost then poisonEvent e 54 codeHalted else e
            let c := { c with next := c.next + 1, poisoned := c.poisoned + lost }
            if c.entries ≤ c.next then endCkpt e j.task c
            else rowTaken e fun j => { j with ckpt := some c }

/-! ### Dispatch -/

/-- The capping unit can accept a task (R309, R325). -/
def capFree (e : Engine) : Bool := e.cap.job.isNone && e.cap.waiting.isNone

/-- A task dispatched to the capping unit starts. -/
def startCap (m : Mem) (e : Engine) (i : Nat) (t : TaskRec) : Engine :=
  if t.kind = kCKPT then startCkpt m e i t else startUpd m e i t

def execSpillAdd (fault : AddFault) (s : State) : Host.Outcome State Fault Refusal :=
  .next (reading s [] fun m e => spillAdd m e fault)
def execUpdateRow (rd : List MemLine) (lane : LaneFault) (s : State) : Host.Outcome State Fault Refusal :=
  .next (reading s rd fun m e => updateRow m e lane)
def execVersionSlotFree (s : State) : Host.Outcome State Fault Refusal := .next (onEngine s versionFree)
def execCheckpointEntryCopy (rd : LaneRead) (s : State) : Host.Outcome State Fault Refusal :=
  .next (reading s rd.rd (ckptCopy rd.lane))

end Sys2Proof.Machine
end

