-- ==== Sys2Proof/Machine/MaskStep.lean ====
section
/-! DEFINITION. Machine/MaskStep.lean: MASK tasks: repair, prune and regrow of NM blocks and FREE rows (R352 to R358, R154). -/

namespace Sys2Proof.Machine

/-! ### Positions -/

/-- An occupied position of a block or of a FREE row: row and column offset, magnitude and what moves with it (R357): code,
factor byte, master weight and moments as stored. `fixed` marks a position of a row that takes no part (R354). -/
structure MaskPos where
  r : Nat
  c : Nat
  mag : Word := 0
  code : Nat := 0
  rho : Byte := 0
  w : Nat := 0
  mm : Nat := 0
  v : Nat := 0
  fixed : Bool := false
  deriving DecidableEq, Repr, Inhabited

/-- A position that stands before another in ascending magnitude, ties to the lower row, then the lower column (R355). -/
def lowerMag (a b : MaskPos) : Bool :=
  if fLt a.mag b.mag then true
  else if fLt b.mag a.mag then false
  else decide (a.r < b.r ∨ (a.r = b.r ∧ a.c < b.c))

/-- The first of a list under an order. -/
def firstOf {α : Type} (before : α → α → Bool) : List α → Option α
  | [] => none
  | a :: l => some (l.foldl (fun m b => if before b m then b else m) a)

/-- The lowest-magnitude position of a list. -/
def lowestMag (l : List MaskPos) : Option MaskPos := firstOf lowerMag l

/-- A list without the position at (r, c). -/
def removePos (l : List MaskPos) (p : MaskPos) : List MaskPos := l.filter fun x => !(x.r == p.r && x.c == p.c)

/-- Positions held by row r and by column c. -/
def rowCnt (l : List MaskPos) (r : Nat) : Nat := countIf (fun x => x.r == r) l
def colCnt (l : List MaskPos) (c : Nat) : Nat := countIf (fun x => x.c == c) l

/-- Step 1 of R355: positions removed until no row or column holds more than N, or no unfrozen one can be. -/
def repairBlock (n : Nat) : (fuel : Nat) → List MaskPos → List MaskPos
  | 0, l => l
  | fuel + 1, l =>
    match lowestMag (l.filter fun x => !x.fixed && decide (n < rowCnt l x.r ∨ n < colCnt l x.c)) with
    | some p => repairBlock n fuel (removePos l p)
    | none => l

/-- Step 2 of R355: the positions kept and those pruned. -/
def pruneBlock : (prune : Nat) → List MaskPos → List MaskPos → List MaskPos × List MaskPos
  | 0, l, gone => (l, gone)
  | p + 1, l, gone =>
    match lowestMag (l.filter fun x => !x.fixed) with
    | some x => pruneBlock p (removePos l x) (gone ++ [x])
    | none => (l, gone)

/-- A candidate for regrowth: its place, magnitude and the code it takes. -/
structure MaskCand where
  r : Nat
  c : Nat
  mag : Word
  z : Nat := 0
  deriving DecidableEq, Repr, Inhabited

/-- Descending magnitude, ties to the lower row, then the lower column (R355). -/
def higherCand (a b : MaskCand) : Bool :=
  if fLt b.mag a.mag then true
  else if fLt a.mag b.mag then false
  else decide (a.r < b.r ∨ (a.r = b.r ∧ a.c < b.c))

/-- A regrown position (R357). -/
def regrown (x : MaskCand) : MaskPos := { r := x.r, c := x.c, code := x.z }

/-- Step 3 of R355 over the candidates in order: at most `left` insertions under the row and column limit n. -/
def regrowBlock (n : Nat) : List MaskCand → (left : Nat) → List MaskPos → Nat × List MaskPos
  | [], _, l => (0, l)
  | _, 0, l => (0, l)
  | x :: xs, left + 1, l =>
    if rowCnt l x.r < n ∧ colCnt l x.c < n then
      let (k, l) := regrowBlock n xs left (l ++ [regrown x])
      (k + 1, l)
    else regrowBlock n xs (left + 1) l

/-! ### Reading -/

/-- Rows of the present block row that lie inside the tensor. -/
def blockRows (j : CapJob) : List Nat := (List.range 8).filter fun r => decide (8 * j.row + r < j.arg.rows)

/-- The job as it reads its target slot, into which its rows have been copied. -/
def atTarget (j : CapJob) : CapJob := { j with from_ := j.target.getD j.from_ }

/-- Size of a candidate or gradient element. -/
def candBytes (u : UpdArg) : Nat := if u.gradF32 then 4 else 2

/-- The candidate of position (n, k), where it is eligible by value: finite, above 0 in magnitude, its line not poisoned (R354). -/
def candMag (m : Mem) (e : Engine) (u : UpdArg) (n k : Nat) : Option Word :=
  let s := candBytes u
  let a := u.cand + s * (n * u.k + k)
  let x := readFloat (memView m e) s a
  if fBad x || fZero x || viewPoison m e (lineOf a % 2 ^ 46) then none else some (fAbs x)

/-- A position of a row as it is stored at element `el` of the tensor and place `pl` of the row. -/
def readPos (m : Mem) (e : Engine) (j : CapJob) (r c n code base pl : Nat) (fixed : Bool) : MaskPos :=
  let v := memView m e
  let ms := momBytes j.coef
  let w := v.nat (j.arg.master + 4 * (base + pl)) 4
  { r := r, c := c, mag := fAbs (w32 w), code := code, rho := viewByte m e (factorAddr e j j.from_ n + pl), w := w
    mm := v.nat (j.arg.m + ms * (base + pl)) ms, v := v.nat (j.arg.v + ms * (base + pl)) ms, fixed := fixed }

/-- Whether the state of a row's elements is poisoned. -/
def maskMarked (m : Mem) (e : Engine) (j : CapJob) (base count : Nat) : Bool :=
  let ms := momBytes j.coef
  viewPoisoned m e (j.arg.master + 4 * base) (4 * count) || viewPoisoned m e (j.arg.m + ms * base) (ms * count) ||
    viewPoisoned m e (j.arg.v + ms * base) (ms * count)

/-- How a MASK task treats a row: copied for its header (R353), copied for a poisoned line, frozen, or taking part. -/
inductive RowClass where
  | badHeader | held | frozen | free
  deriving DecidableEq, Repr, Inhabited

/-- The class of row n. A row copied for a poisoned line keeps its EPOCH, and its positions count in their blocks as a frozen row's do
(Table 12-2; DESIGN CHOICE, assumptions/147). -/
def classify (m : Mem) (e : Engine) (j : CapJob) (n : Nat) (r : CapRow) : RowClass :=
  let (frz, fbad) := freezeBit m e j n
  if headerBad r.hdr then .badHeader
  else if frz && !fbad then .frozen
  else if fbad || r.poison || maskMarked m e j r.base r.count then .held
  else .free

/-- A row copied under Table 10-4 order 2. -/
def maskCopy (m : Mem) (e : Engine) (j : CapJob) (n : Nat) (r : CapRow) (poisoned : Bool) : Engine :=
  let e := bump (copyRow m e j n r) .skippedPoison 1
  if poisoned then poisonEvent e 54 codeHalted else e

/-- The epoch that the task writes (R358). -/
def newEpoch (e : Engine) (j : CapJob) : Option Nat := (slotEpoch e j j.from_).map fun x => (x + 1) % 2 ^ 16

/-- A row's EPOCH written in the target slot. -/
def putEpoch (e : Engine) (j : CapJob) (ep : Option Nat) (n : Nat) : Engine :=
  match ep with
  | some x => capWrite e j.task (codeAddr e j (j.target.getD 0) n + 6) (leBytes 2 x)
  | none => e

/-- Poisoned fields of the row that opens a block row: which rows are skipped and which held, with the rows that stay carried
into the target slot. -/
def openRows (m : Mem) (e : Engine) (j : CapJob) : Engine × List Nat × List Nat :=
  (blockRows j).foldl (fun (acc : Engine × List Nat × List Nat) r =>
    let (e, skip, held) := acc
    let n := 8 * j.row + r
    let cr := capRow m e j n
    let e := countRow e j n
    match classify m e j n cr with
    | .badHeader => (maskCopy m e j n cr cr.poison, skip ++ [r], held)
    | .held => (maskCopy m e j n cr true, skip, held ++ [r])
    | .frozen | .free => (if j.target = some j.from_ then e else copyRow m e j n cr, skip, held)) (e, [], [])

/-! ### NM blocks -/

/-- The positions that row r of the block holds. -/
def blockPos (m : Mem) (e : Engine) (j : CapJob) (frozen : Nat → Bool) (r : Nat) : List MaskPos :=
  let n := 8 * j.row + r
  let nn := nmOf j.mode
  let h := capHeader m e j n
  let base := n * j.arg.rowLen
  ((nmGroup (memView m e) h nn j.block).filter fun s => decide (8 * j.block + s.1 < j.arg.k)).map fun s =>
    readPos m e j r s.1 n s.2.1 base (j.block * nn + s.2.2) (frozen r)

/-- The candidates of the block, best first (R354, R355). -/
def blockCands (m : Mem) (e : Engine) (j : CapJob) (rows : List Nat) (l gone : List MaskPos) : List MaskCand :=
  let taken (r c : Nat) : Bool := (l ++ gone).any fun x => x.r == r && x.c == c
  sortBy higherCand (rows.flatMap fun r => (List.range 8).filterMap fun c =>
    let n := 8 * j.row + r
    let k := 8 * j.block + c
    if j.arg.k ≤ k || taken r c then none
    else (candMag m e j.arg n k).map fun x => { r := r, c := c, mag := x, z := (capHeader m e j n).z })

/-- Bits replaced in a byte string. -/
def putBits (bs : List Byte) (lo n v : Nat) : List Byte :=
  let x := leNat bs
  leBytes bs.length (x - at' (bits x lo n) lo + at' (v % 2 ^ n) lo)

/-- One row's group of the block written back in canonical form (R357, R67); behind the row's last field its last byte holds 0 (R63). -/
def writeGroup (m : Mem) (e : Engine) (j : CapJob) (r : Nat) (l : List MaskPos) : Engine :=
  let n := 8 * j.row + r
  let nn := nmOf j.mode
  let h := capHeader m e j n
  let occ := sortBy (fun a b => decide (a.c < b.c)) (l.filter fun x => x.r == r)
  let b := 3 + codeBits h
  let lo := j.block * nn * b
  let first := h.addr + 8 + lo / 8
  let len := ceilDiv (lo % 8 + nn * b) 8
  let fs := (nmSlots nn h.z (occ.map fun x => (x.c, x.code))).map fun s => s.1 + 8 * s.2
  let val := fs.foldr (fun f acc => f % 2 ^ b + 2 ^ b * acc) 0
  let el := n * j.arg.rowLen + j.block * nn
  let ms := momBytes j.coef
  let at_ (f : MaskPos → Nat) (i : Nat) : Nat := match occ[i]? with | some x => f x | none => 0
  let slots := List.range nn
  let last := decide (ceilDiv j.arg.k 8 ≤ j.block + 1)
  let e := capWrite e j.task first (putBits (viewBytes m e first len) (lo % 8) (if last then 8 * len - lo % 8 else nn * b) val)
  let e := putStored e j.task 4 (j.arg.master + 4 * el) (slots.map (at_ MaskPos.w))
  let e := putStored e j.task ms (j.arg.m + ms * el) (slots.map (at_ MaskPos.mm))
  let e := putStored e j.task ms (j.arg.v + ms * el) (slots.map (at_ MaskPos.v))
  capWrite e j.task (factorAddr e j j.from_ n + j.block * nn) (slots.map fun i => match occ[i]? with | some x => x.rho | none => 0)

/-- One 8 × 8 block (R355). `j` reads the target slot. -/
def nmBlock (m : Mem) (e : Engine) (j : CapJob) : Engine :=
  let live := (blockRows j).filter fun r => decide (r ∉ j.skipRows)
  let frz (r : Nat) : Bool := decide (r ∈ j.heldRows) || (let x := freezeBit m e j (8 * j.row + r); x.1 && !x.2)
  let open_ := live.filter fun r => !frz r
  let n := nmOf j.mode
  let l0 := live.flatMap (blockPos m e j frz)
  let l1 := repairBlock n 64 l0
  let (l2, gone) := pruneBlock j.arg.prune l1 []
  let (k, l3) := regrowBlock n (blockCands m e j open_ l2 gone) gone.length l2
  let e := bump e .repaired (l0.length - l1.length)
  let e := bump e .pruned gone.length
  let e := bump e .regrown k
  let e := bump e .regrowShort (b2n (decide (k < gone.length)))
  open_.foldl (fun e r => writeGroup m e j r l3) e

/-! ### The end of a MASK task -/

/-- The candidate region has been read, and its content is discarded (R156). A task with AUX1 0 discards none; adds of a later mask step that
came after the read-out go with the region (DESIGN CHOICE, assumptions/140). -/
def candidateRead (e : Engine) (t : TaskRec) : Engine :=
  if t.aux1 = 0 then e else onRegion e t.aux1 fun r => { r with stale := true, touched := false, addedBy := [] }

/-- The last row has been taken (R349, R358, R237). -/
def finishMask (e : Engine) (j : CapJob) : Engine :=
  match taskOf e j.task with
  | none => { e with cap := { e.cap with job := none } }
  | some tk =>
    let ep := newEpoch e j
    let e := onVer e j.param fun v => { v with epochs := updAt v.epochs (j.target.getD 0) fun _ => ep }
    finishUpd (candidateRead e tk.record) j

/-- The job's place after a block or row; the last one ends the task. -/
def maskNext (e : Engine) (j : CapJob) (row block : Nat) (skip held : List Nat) (done : Bool) : Engine :=
  let e := rowTaken e fun j => { j with row := row, block := block, skipRows := skip, heldRows := held }
  if done then finishMask e j else e

/-- A lane mismatch on a block (R407): its open rows are copied rows from here on, each counted, and the block stays as it stands
(assumptions/137). -/
def laneBlock (e : Engine) (j : CapJob) (skip held : List Nat) : Engine × List Nat :=
  let new := (blockRows j).filter fun r => decide (r ∉ skip ∧ r ∉ held)
  (bump (laneEvent (bump e .hubLaneMismatch 1)) .skippedPoison new.length, held ++ new)

/-- MASK_BLOCK (R355): the next block of an NM layer, its block row opened at the first one and given its new epoch at the last. -/
def maskBlock (lane : LaneFault) (m : Mem) (e : Engine) : Engine :=
  match e.cap.job with
  | none => e
  | some j =>
    if !capWorks e || j.kind ≠ kMASK || j.mode = 3 || !rowTurn e then e
    else
      let ep := newEpoch e j
      let (e, skip, held) := if j.block = 0 then openRows m e j else (e, j.skipRows, j.heldRows)
      let (e, held) := if lane then laneBlock e j skip held else (nmBlock m e { atTarget j with skipRows := skip, heldRows := held }, held)
      if j.block + 1 < ceilDiv j.arg.k 8 then maskNext e j j.row (j.block + 1) skip held false
      else
        let rows := (blockRows j).filter fun r => decide (r ∉ skip ∧ r ∉ held)
        let e := rows.foldl (fun e r => putEpoch e j ep (8 * j.row + r)) e
        maskNext e j (j.row + 1) 0 [] [] (decide (j.arg.rows ≤ 8 * (j.row + 1)))

/-! ### FREE rows -/

/-- The candidates of a FREE row, best first, ties by ascending k (R356). -/
def rowCands (m : Mem) (e : Engine) (j : CapJob) (n z : Nat) (l : List MaskPos) : List MaskCand :=
  sortBy higherCand ((List.range j.arg.k).filterMap fun k =>
    if l.any fun x => x.c == k then none else (candMag m e j.arg n k).map fun x => { r := 0, c := k, mag := x, z := z })

/-- A FREE row's new record, factors, master weights and moments written (R356, R357); leftover elements hold +0. -/
def writeFree (m : Mem) (e : Engine) (j : CapJob) (n : Nat) (r : CapRow) (ep : Option Nat) (l : List MaskPos) : Engine :=
  let t := j.target.getD 0
  let ms := momBytes j.coef
  let s := sortBy (fun a b => decide (a.c < b.c)) l
  let at_ (f : MaskPos → Nat) (i : Nat) : Nat := match s[i]? with | some x => f x | none => 0
  let els := List.range r.count
  let hdr := viewBytes m e r.hdr.addr 6 ++ leBytes 2 (ep.getD r.hdr.epoch)
  let e := capWrite e j.task (codeAddr e j t n) (hdr ++ encodeRow 3 r.hdr.wide j.arg.k r.hdr.z (s.map fun x => (x.c, x.code)))
  let e := capWrite e j.task (factorAddr e j t n) (els.map fun i => match s[i]? with | some x => x.rho | none => 0)
  let e := putStored e j.task 4 (j.arg.master + 4 * r.base) (els.map (at_ MaskPos.w))
  let e := putStored e j.task ms (j.arg.m + ms * r.base) (els.map (at_ MaskPos.mm))
  putStored e j.task ms (j.arg.v + ms * r.base) (els.map (at_ MaskPos.v))

/-- A FREE row that takes part (R356). -/
def freeMaskRow (m : Mem) (e : Engine) (j : CapJob) (n : Nat) (r : CapRow) : Engine :=
  let ep := newEpoch e j
  let l0 := (List.range r.pos.length).map fun i =>
    readPos m e j 0 (elemD r.pos i 0) n (elemD r.codes i 0) r.base (elemD r.places i 0) false
  let (l1, gone) := pruneBlock j.arg.prune l0 []
  let new := ((rowCands m e j n r.hdr.z l0).take gone.length).map regrown
  let l2 := l1 ++ new
  let ks := (sortBy (fun a b => decide (a.c < b.c)) l2).map MaskPos.c
  if j.arg.codePitch < recordLen 3 r.hdr.wide j.arg.k ks then
    putEpoch (bump (if j.target = some j.from_ then e else copyRow m e j n r) .maskNoRoom 1) j ep n
  else
    let e := bump (bump e .pruned gone.length) .regrown new.length
    writeFree m (bump e .regrowShort (b2n (decide (new.length < gone.length)))) j n r ep l2

/-- MASK_FREE_ROW (R356): the next row of a FREE layer; a lane mismatch copies it (R407). -/
def maskFreeRow (lane : LaneFault) (m : Mem) (e : Engine) : Engine :=
  match e.cap.job with
  | none => e
  | some j =>
    if !capWorks e || j.kind ≠ kMASK || j.mode ≠ 3 || !rowTurn e then e
    else
      let n := j.row
      let cr := capRow m e j n
      let e := countRow e j n
      let e := if lane then maskCopy m (laneEvent (bump e .hubLaneMismatch 1)) j n cr false else match classify m e j n cr with
        | .badHeader => maskCopy m e j n cr cr.poison
        | .held => maskCopy m e j n cr true
        | .frozen => putEpoch (if j.target = some j.from_ then e else copyRow m e j n cr) j (newEpoch e j) n
        | .free => freeMaskRow m e j n cr
      maskNext e j (n + 1) 0 [] [] (decide (j.arg.rows ≤ n + 1))

def execMaskBlock (rd : LaneRead) (s : State) : Host.Outcome State Fault Refusal := .next (reading s rd.rd (maskBlock rd.lane))
def execMaskFreeRow (rd : LaneRead) (s : State) : Host.Outcome State Fault Refusal := .next (reading s rd.rd (maskFreeRow rd.lane))

end Sys2Proof.Machine
end

