-- ==== Sys2Proof/Machine/Complete.lean ====
section
/-! DEFINITION. Machine/Complete.lean: tasks complete (R299 to R302, R311, R314, R236, R238, R273), SELECT (R320), generation loops
(R321, R322), the step repeat (R316). -/

namespace Sys2Proof.Machine

/-! ### How a task ends -/

/-- A task has ended with a status and a code, and waits for its completion record; a failure under HALT stops the graph (R142,
R314). -/
def endTask (e : Engine) (i : Nat) (u : ExecUnit) (status code : Nat) : Engine :=
  let e := onTask e i fun t => { t with life := .ended u status code }
  if status = 3 then haltOnFail e code else e

/-- The iteration of the loop that a task belongs to (ITER of Table 09-5); 0 outside a loop. -/
def iterOf (e : Engine) (i : Nat) : Nat :=
  match (e.sch.run.bind Graph.gen).bind fun g => g.loops.find? fun l => decide (l.first ≤ i ∧ i ≤ l.task) with
  | some l => l.iters
  | none => 0

/-- A completion record (Table 09-5). -/
def completionBytes (e : Engine) (t : Task) (u : ExecUnit) (status code : Nat) : List Byte :=
  let flags := b2n t.metaSuspect + 2 * b2n t.poisonOut + 4 * b2n t.poisonIn + 8 * b2n t.reissued + 16 * b2n t.wide
  [BitVec.ofNat 8 status, BitVec.ofNat 8 code, BitVec.ofNat 8 flags, BitVec.ofNat 8 (unitByte u)] ++
    leBytes 2 (min 0xFFFF t.replays) ++ leBytes 2 (iterOf e t.index)

/-- The hub writes a task's completion record (R302); a failure is reported (R421, HUB_ERR_STATUS bit 4). -/
def writeCompletion (e : Engine) (t : Task) (u : ExecUnit) (status code : Nat) : Engine :=
  match e.sch.run with
  | none => e
  | some g =>
    let bs := completionBytes e t u status code
    let at_ := g.hdr.completionBase + 8 * t.index
    let e := match g.sub.ckpt with
      | some k => { e with sch := { e.sch with ckptArea := cellsPutAll e.sch.ckptArea (512 * k + at_) bs } }
      | none => sendAll e (.hub noTask) at_ bs false
    let e := if g.sub.ckpt.isSome ∧ 3 ≤ status then onGraph e fun g => { g with ckptCode := code } else e
    if status = 3 then captureErr (raiseErr e errTaskFailed) (unitByte u) code t.index else e

/-! ### Successors -/

/-- Arrivals of a task (R300), counted without bound: past 65,535 they exceed every PRED_COUNT (DESIGN CHOICE, assumptions/145). -/
def arrivalsOf (g : Graph) (i : Nat) : Nat := sumNat (g.arrivals.filterMap fun a => if a.1 = i then some a.2.2 else none)

/-- One arrival of task t from task p. -/
def addArrival (t p : Nat) : List (Nat × Nat × Nat) → List (Nat × Nat × Nat)
  | [] => [(t, p, 1)]
  | a :: l => if a.1 = t ∧ a.2.1 = p then (t, p, a.2.2 + 1) :: l else a :: addArrival t p l

/-- PRED_COUNT of a task that has been fetched. -/
def predsOf (g : Graph) (i : Nat) : Option Nat :=
  ((g.tasks ++ g.retired).find? fun t => t.index == i).map fun t => t.record.predCount

/-- A fetched task whose predecessors have all arrived is ready; too many arrivals fail the graph (R300). -/
def settleReady (e : Engine) (i : Nat) : Engine :=
  match e.sch.run with
  | none => e
  | some g =>
    match predsOf g i with
    | none => e
    | some n =>
      if n < arrivalsOf g i then askStop e codeTaskInvalid 0xF0 noTask
      else if arrivalsOf g i = n then onTask e i fun t => { t with life := if t.life = .fetched then .ready else t.life }
      else e

/-- Codes with which a task fails before it has written its outputs (R314). -/
def failsEarly (code : Nat) : Bool :=
  decide (code ∈ [codeDescInvalid, codeTaskInvalid, codeTileMapInvalid, codeRowSpan, codeXformAlign, codeVersionNone, codeEpochStale,
    codeCkptOrder])

/-- Edge j of a task (R299). -/
def releaseEdge (m : Mem) (t : Task) (bad : Bool) (e : Engine) (j : Nat) : Engine :=
  match e.sch.run with
  | none => e
  | some g =>
    if g.stop.isSome then e
    else
      let a := g.hdr.edgeBase + 4 * (t.record.succIndex + j)
      let s := leNat (subBytes m e g.sub a 4)
      if subPoisoned m e g.sub a 4 then askStop (noteRead e true) codeTaskInvalid 0xF0 noTask
      else if s ≤ t.index ∨ g.hdr.tasks ≤ s then askStop e codeGraphCycle 0xF0 noTask
      else
        let e := onGraph e fun g => { g with
          arrivals := addArrival s t.index g.arrivals, poisoned := if bad then (s, t.index) :: g.poisoned else g.poisoned }
        settleReady e s

/-- The successors of a completed task are released (R300, R314). -/
def releaseSuccs (m : Mem) (e : Engine) (t : Task) (bad : Bool) : Engine :=
  (List.range t.record.succCount).foldl (releaseEdge m t bad) e

/-! ### Completion -/

/-- The completed tasks are counted (SCH_COMPLETED). -/
def countCompleted (e : Engine) : Engine :=
  match e.sch.run with
  | none => e
  | some g => { e with sch := { e.sch with completedCount := g.completed.length } }

/-- MB_CLOSE: the open micro-batch of the task's tag closes (R311). -/
def closeMb (t : TaskRec) : List MicroBatch → List MicroBatch
  | [] => []
  | x :: l => if x.tag = t.mb ∧ x.closedStep.isNone then { x with closedStep := some t.step } :: l else x :: closeMb t l

/-- A task leaves the window (R303). -/
def retireTask (e : Engine) (t : Task) : Engine :=
  countCompleted (onGraph e fun g => { g with
    tasks := g.tasks.filter fun x => x.index != t.index
    retired := (g.retired.filter fun x => x.index != t.index) ++ [t]
    completed := (g.completed.filter fun x => x.1 != t.index) ++ [(t.index, t.record.step)]
    mbs := if t.record.mbClose && t.record.mbValid then closeMb t.record g.mbs else g.mbs })

/-- A ring without the streams of a task that has ended. -/
def ringAfter (i : Nat) (g : Ring) : Ring :=
  advanceHead 8 <| settleRing { g with
    streams := g.streams.filter fun s => s.task != i
    lines := g.lines.map fun l => { l with need := l.need.filter fun k => k.task != i } }

/-- A frame whose drain unit a completed task held accepts tiles again (R310). -/
def freeDrain (i : Nat) (fr : Frame) : Frame := if fr.drainOnly = some i then { fr with drainOnly := none, held := [] } else fr

/-- A completed task's context and streams freed in its comb; rows still on their way out stay (R260, R310 text). -/
def freeCtx (i : Nat) (cb : Comb) : Comb :=
  let ctx := indexOf? (fun o => match o with | some k => k.task == i | none => false) cb.ctxs
  unbindRings { cb with
    ctxs := cb.ctxs.map fun o => match o with | some k => if k.task = i then none else some k | none => none
    rings := cb.rings.map fun o => o.map (ringAfter i)
    frames := cb.frames.map (freeDrain i)
    parks := cb.parks.map fun p => if p.state != .free && some p.ctx.val == ctx then {} else p }

/-- RELEASE: the persistent descriptor named by OUT is released (R273). -/
def releasePersist (t : TaskRec) (cb : Comb) : Comb :=
  match tRef t rOUT with
  | none => cb
  | some n =>
    let d := (t.descBatch, n)
    unbindRings { cb with
      persist := cb.persist.filter fun x => x != d
      rings := cb.rings.map fun o => o.map fun g => { g with persist := if g.persist = some d then none else g.persist } }

/-- What a comb gives back when a task of it completes. -/
def freeInComb (e : Engine) (u : ExecUnit) (t : Task) : Engine :=
  match u with
  | .comb c =>
    let e := onComb e c (freeCtx t.index)
    if tRelease t.record then onComb e c (releasePersist t.record) else e
  | _ => e

/-- Rows or adds of completed tasks are still on their way to their regions. -/
def rowsLeft (e : Engine) : Bool :=
  let adds (q : List HandleEntry) : Bool := q.any fun x => !x.adds.isEmpty
  (e.combs.any fun cb => (cb.frames.any fun fr => !fr.out.isEmpty) || adds cb.chain || adds cb.outQ) || adds e.hf.hand || adds e.cap.queue ||
    adds e.cap.spill

/-- The graph would end with task i while rows are on their way: the task waits for them (assumptions/40). -/
def lastWaits (e : Engine) (i : Nat) : Bool :=
  match e.sch.run with
  | none => false
  | some g => decide (g.hdr.tasks ≤ g.fetch) && g.tasks.all (fun t => t.index == i) && rowsLeft e

/-- Every task has completed. -/
def allDone (e : Engine) : Bool :=
  match e.sch.run with
  | none => false
  | some g => g.stop.isNone && decide (g.hdr.tasks ≤ g.fetch) && g.tasks.isEmpty

/-- A task completes: its record is written, what it held is released, its successors are released unless they have been before
(R217, R301), and the graph ends with its last task. `release` is false for a loop task that starts another iteration. -/
def finishTask (m : Mem) (e : Engine) (t : Task) (u : ExecUnit) (status code : Nat) (release : Bool) : Engine :=
  let r := t.record
  let e := writeCompletion e t u status code
  let e := freeInComb (retireTask e t) u t
  let e := unpin e r.param (ownPin t.index)
  let e := if tPublish r && status == 1 then publish e r.param r.step else e
  let e := if release && !t.again then releaseSuccs m e t (status == 3 && failsEarly code) else e
  if release && allDone e then endGraph e 0 0 else e

/-! ### SELECT -/

/-- Elements of row x of the logits as (value, poisoned), with the channels that it holds. -/
def logitsRow (f : Feed) (x : Nat) : List (Word × Bool) :=
  let d := f.desc rSIDE0
  let n := if d.layout = lCV32T then dSize d 1 else dSize d 0
  (List.range n).map fun c => let y := actElem f.e (f.view rSIDE0) (f.ix rSIDE0) d x c; (y.w, y.poison)

/-- The index of the largest element, the lowest on ties; 0xFFFFFFFF for a row with a NaN or a poisoned line (R320). -/
def selectToken (row : List (Word × Bool)) : Nat :=
  if row.any fun y => y.2 || fNan y.1 then 0xFFFFFFFF
  else (row.foldl (fun (acc : Nat × Nat × Option Word) y =>
    let (i, best, w) := acc
    match w with
    | none => (i + 1, i, some y.1)
    | some b => if fLt b y.1 then (i + 1, i, some y.1) else (i + 1, best, some b)) (0, 0, none)).2.1

/-- The frame whose drain unit a SELECT task takes: the lowest free one, whose side ring reads the logits where any does (R310, R320,
assumptions/107). -/
def selectFrame (e : Engine) (c : CombId) (k : Ctx) : Option FrameId :=
  let reads (f : FrameId) : Bool := match descFor k rSIDE0 with | some d => sideReads d f.val | none => false
  (if allFrames.any reads then allFrames.filter reads else allFrames).find? fun f => drainFree (frameOf e c f)

/-- The frame whose drain unit holds a SELECT task, or is to hold it. -/
def selectHolder (e : Engine) (c : CombId) (k : Ctx) : Option FrameId :=
  (allFrames.find? fun f => (frameOf e c f).drainOnly == some k.task).or (selectFrame e c k)

/-- The 32 tokens of a SELECT task are written (R320) by the drain unit that it holds until it completes (R310). -/
def writeTokens (m : Mem) (e : Engine) (c : CombId) (x : Fin 4) (k : Ctx) (tk : Task) : Engine :=
  let f := drainFeed m e c k tk.record
  let toks := (List.range 32).map fun t => selectToken (logitsRow f t)
  let addr := match e.sch.run.bind Graph.gen with | some g => g.tokenAddr | none => 0
  let e := sendAll e (.comb c x k.task) addr (toks.flatMap (leBytes 4)) tk.poisonIn
  let e := if tk.poisonIn then poisonEvent (markOut e k.task) c.val codeHalted else e
  taskCommitted (onTask e k.task fun t => { t with commTiles := [0], doneTiles := [0] }) c tk.record

/-- A SELECT task takes a drain unit and the logits that have landed, and writes its tokens once they all have (R230, R320). -/
def selectTokens (m : Mem) (e : Engine) (c : CombId) (x : Fin 4) (k : Ctx) (tk : Task) : Engine :=
  match selectHolder e c k with
  | none => e
  | some fr =>
    let e := takeLanded (onFrame e c fr fun s => { s with drainOnly := some k.task }) c fr k tk.record
    if operandsHere e c k tk.record then writeTokens m e c x k tk else e

/-! ### Generation loops -/

/-- One sequence context after an iteration (R322). -/
def genContext (m : Mem) (e : Engine) (x : Nat) : Engine :=
  match e.sch.run.bind Graph.gen with
  | none => e
  | some g =>
    let c := elemD g.ctxs x ⟨false, 0, 0, 0⟩
    if !c.active then e
    else
      let a := g.tokenAddr + 4 * x
      let k := viewNat m e a 4
      let e := noteRead e (viewPoisoned m e a 4)
      let c' := if k = c.stop ∨ k = 0xFFFFFFFF ∨ c.maxPos ≤ c.pos + 1 then { c with active := false } else { c with pos := c.pos + 1 }
      let e := onGraph e fun g => { g with gen := g.gen.map fun t => { t with ctxs := updAt t.ctxs x fun _ => c' } }
      if c'.active then sendAll e (.hub noTask) (g.posAddr + 4 * x) (leBytes 4 c'.pos) false else e

/-- The body runs again (R322): its arrivals, completions and records are dropped, and the fetch point rewinds. -/
def rewindLoop (e : Engine) (first i : Nat) : Engine :=
  let outside (x : Nat) : Bool := decide (x < first ∨ i < x)
  countCompleted (onGraph e fun g => { g with
    fetch := first, tasks := g.tasks.filter (fun t => outside t.index), retired := g.retired.filter (fun t => outside t.index)
    completed := g.completed.filter (fun x => outside x.1), arrivals := g.arrivals.filter (fun a => outside a.2.1)
    poisoned := g.poisoned.filter (fun a => outside a.2), lastStep := 0 })

/-- GEN_LOOP_ITERATE: a GEN_LOOP task completes (R322). -/
def genLoop (m : Mem) (e : Engine) (t : Task) : Engine :=
  let e := (List.range 32).foldl (genContext m) e
  let first := t.record.arg.toNat % 2 ^ 20
  let live := match e.sch.run.bind Graph.gen with | some g => g.ctxs.any GenCtx.active | none => false
  let bits := genBits (e.sch.run.bind Graph.gen)
  let e := finishTask m e t .hub 1 0 false
  let e := onGraph e fun g => { g with gen := g.gen.map fun x =>
    { x with loops := x.loops.map fun l => if l.task = t.index then { l with iters := l.iters + 1 } else l } }
  let e := { e with sch := { e.sch with genActive := bits, genIter := min (e.sch.genIter + 1) (2 ^ 32 - 1) } }
  if live then rewindLoop e first t.index
  else
    let e := releaseSuccs m e t false
    if allDone e then endGraph e 0 0 else e

/-! ### TASK_COMPLETE -/

/-- A comb task whose work is done completes (R301). -/
def combDone (m : Mem) (e : Engine) (c : CombId) (t : Task) : Engine :=
  let r := t.record
  let u : ExecUnit := .comb c
  let done (e : Engine) : Engine := match t.late with
    | some code => finishTask m e t u 3 code true
    | none => finishTask m e t u 1 0 true
  match t.failed with
  | some code => if (combOf e c).frames.any fun fr => fr.out.any fun o => o.task == t.index then e else finishTask m e t u 3 code true
  | none =>
    if isProduct r then
      let n := tileCount r (maskOf e r)
      if t.commTiles.length = n ∧ (storing r → t.doneTiles.length = n) then
        done (if n = 0 then taskCommitted e c r else e)
      else e
    else if r.kind = kDRAIN then (if t.commTiles = [] then e else done e)
    else match t.commTiles, ctxFor e c t.index with
      | [], some (x, k) => selectTokens m e c x k t
      | [], none => e
      | _, _ => done e

/-- TASK_COMPLETE: a task whose unit has done its work, and whose writes have been answered, completes (R301). -/
def completeTask (m : Mem) (e : Engine) (i : Nat) : Engine :=
  match e.sch.run, taskOf e i with
  | some g, some t =>
    if !running e || g.stop.isSome || writesOpen e i || lastWaits e i then e
    else match t.life with
      | .ended u status code => (match t.late with
        | some late => if status = 1 then finishTask m e t u 3 late true else finishTask m e t u status code true
        | none => finishTask m e t u status code true)
      | .running (.comb c) => combDone m e c t
      | .running .hub => if t.record.kind = kGENLOOP then genLoop m e t else e
      | _ => e
  | _, _ => e

def execTaskComplete (index : Nat) (rd : List MemLine) (s : State) : Host.Outcome State Fault Refusal :=
  .next (reading s rd fun m e => completeTask m e index)

/-! ### The step repeat -/

/-- Queue entries that tasks below an index made. -/
def entriesBelow (n : Nat) (q : List HandleEntry) : List HandleEntry := q.filter fun x => x.task < n || x.part.isSome

/-- The capping unit abandons a task of index n or above, and adds made by such tasks (R316 step 1). -/
def capBelow (n : Nat) (c : Cap) : Cap :=
  let keep (j : CapJob) : Option CapJob := if j.task < n then some j else none
  { c with job := c.job.bind keep, waiting := c.waiting.bind keep, queue := entriesBelow n c.queue, spill := entriesBelow n c.spill }

/-- A comb's handles made by tasks below an index; every persistent descriptor is released (R273), and a step s that runs again is a
boundary for the carousel again (R284). -/
def combBelow (n s : Nat) (cb : Comb) : Comb :=
  unbindRings { cb with
    buffers := entriesBelow n cb.buffers
    carousel := cb.carousel.map fun ca => if s ≤ ca.step.getD 0 ∧ ca.step.isSome then { ca with stale := true, step := some s, rotated := [] } else ca
    chain := entriesBelow n cb.chain, outQ := entriesBelow n cb.outQ, ringQ := entriesBelow n cb.ringQ, persist := []
    rings := cb.rings.map fun o => o.map fun g => { g with persist := none }
    frames := cb.frames.map fun fr => { fr with out := fr.out.filter fun o => o.task < n } }

/-- The micro-batches as they were before step s (R316 item 3). -/
def mbsBefore (s : Nat) (l : List MicroBatch) : List MicroBatch :=
  (l.filter fun x => x.openStep < s).map fun x => { x with closedStep := match x.closedStep with | some t => if s ≤ t then none else some t | none => none }

/-- The light path without a task that a step repeat discards. -/
def lightBelow (n : Nat) (h : HubForager) : HubForager :=
  match h.light with
  | some l => if l.1 < n then h else { h with light := none, opened := none }
  | none => h

/-- The first task index of step s (R316 item 4). -/
def firstIndex (g : Graph) (s : Nat) : Nat :=
  match minBy id (g.firstOfStep.filterMap fun p => if s ≤ p.1 then some p.2 else none) with
  | some n => n
  | none => g.fetch

/-- STEP_REPEAT (R316, R212, R225, R273). -/
def stepRepeat (e : Engine) (s : Nat) : Engine :=
  match e.sch.run with
  | none => e
  | some g =>
    let n := firstIndex g s
    let gone := (g.tasks.filter fun t => n ≤ t.index).map Task.index
    let e := gone.foldl dropTask e
    let e := mapCombs e (combBelow n s)
    let e := if (lightBelow n e.hf).light.isNone then forgetReads e fun d => d == .light else e
    let e := { e with
      cap := capBelow n e.cap
      hf := lightBelow n { e.hf with hand := entriesBelow n e.hf.hand }
      lnk := { e.lnk with linkQ := e.lnk.linkQ.map (entriesBelow n) } }
    let e := onGraph e fun g => { g with
      fetch := n, tasks := g.tasks.filter (fun t => t.index < n), retired := g.retired.filter (fun t => t.index < n)
      completed := g.completed.filter (fun x => x.1 < n), arrivals := g.arrivals.filter (fun a => a.2.1 < n)
      poisoned := g.poisoned.filter (fun a => a.2 < n), mbs := mbsBefore s g.mbs, lastStep := 0
      firstOfStep := g.firstOfStep.filter (fun p => p.1 < s), versions := g.versions.map (repin s)
      gen := g.gen.map fun x => { x with loops := x.loops.filter fun l => l.task < n } }
    countCompleted (releaseStores (repeatClear e s))

end Sys2Proof.Machine
end

