-- ==== Sys2Proof/Machine/Sched.lean ====
section
/-! DEFINITION. Machine/Sched.lean: task records fetched (R297, R298, R303, R307, R316, R321), ready tasks dispatched (R305 to R313,
R219, R228, R229, R236, R248 to R251, R273 to R275, R284, R351, R572 to R574), tasks aged (R313). -/

namespace Sys2Proof.Machine

/-! ### TASK_FETCH -/

/-- Task record i of a graph. -/
def taskRecAt (m : Mem) (e : Engine) (g : Graph) (i : Nat) : TaskRec := parseTask g.hdr (subBytes m e g.sub (g.hdr.taskBase + 128 * i) 128)

/-- The first index at or above i that is neither resident nor completed. -/
def nextIndex (g : Graph) : (fuel : Nat) → Nat → Nat
  | 0, i => i
  | n + 1, i => if g.tasks.any (fun t => t.index == i) || g.completed.any (fun x => x.1 == i) then nextIndex g n (i + 1) else i

/-- A fetched record that is not valid for its graph (R296, R298, R307; TILE_COUNT of Table 09-3; R319, R320). A SELECT or GEN_LOOP task in a
graph without a generation table is not (DESIGN CHOICE, assumptions/144). -/
def recordBad (e : Engine) (g : Graph) (t : TaskRec) : Bool :=
  let free := isProduct t && maskOf e t == 3
  t.bad || (isProduct t && !layerOk (layerOf e t)) ||
    (tShard t && (g.carousel.isEmpty || decide (g.logical.length ≤ t.affinity))) ||
    (!free && t.tileCount != 0) ||
    ((t.kind == kSELECT || t.kind == kGENLOOP) && g.gen.isNone)

/-- The successors that a record names. -/
def succsOf (m : Mem) (e : Engine) (g : Graph) (t : TaskRec) : List Nat :=
  (List.range t.succCount).map fun j => leNat (subBytes m e g.sub (g.hdr.edgeBase + 4 * (t.succIndex + j)) 4)

/-- A loop whose body or edges break R321. -/
def loopBad (m : Mem) (e : Engine) (g : Graph) (first i : Nat) : Bool :=
  decide (i < first) ||
  (List.range i).any fun j =>
    let t := taskRecAt m e g j
    if j < first then (succsOf m e g t).any fun s => decide (first < s ∧ s < i)
    else t.kind == kGENLOOP || (succsOf m e g t).any fun s => decide (s < first ∨ i < s)

/-- A task of a loop's body has been dispatched. -/
def bodyBegun (g : Graph) (first i : Nat) : Bool :=
  let body (n : Nat) : Bool := decide (first ≤ n ∧ n < i)
  g.tasks.any (fun t => body t.index && (match t.life with | .fetched => false | .ready => false | _ => true)) ||
    g.completed.any fun x => body x.1

/-- Loops whose body starts count their iterations from 0 (R321, SCH_GEN_ITER; assumptions/111). -/
def startLoops (e : Engine) (starts : GenLoop → Bool) : Engine :=
  let new (l : GenLoop) : Bool := !l.started && starts l
  if (e.sch.run.bind Graph.gen).any (fun x => x.loops.any new) then
    let e := onGraph e fun g => { g with gen := g.gen.map fun x =>
      { x with loops := x.loops.map fun l => if new l then { l with started := true } else l } }
    { e with sch := { e.sch with genIter := 0 } }
  else e

/-- A loop joins the books as its record is fetched (R321). -/
def enterLoop (m : Mem) (e : Engine) (g : Graph) (i : Nat) (t : TaskRec) : Engine :=
  let first := t.arg.toNat % 2 ^ 20
  if loopBad m e g first i then askStop e codeTaskInvalid 0xF0 noTask
  else if g.gen.any (fun x => x.loops.any fun l => l.task == i) then e
  else
    let e := onGraph e fun g => { g with gen := g.gen.map fun x => { x with loops := x.loops ++ [{ first := first, task := i }] } }
    startLoops e fun l => bodyBegun g l.first l.task

/-- A record enters the window. -/
def enterTask (m : Mem) (e : Engine) (g : Graph) (i : Nat) (t : TaskRec) (marked : Bool) : Engine :=
  let e := onGraph e fun g => { g with
    fetch := i + 1, tasks := g.tasks ++ [{ index := i, record := t }], lastStep := if marked then g.lastStep else t.step
    firstOfStep := if marked || g.firstOfStep.any (fun p => p.1 == t.step) then g.firstOfStep else g.firstOfStep ++ [(t.step, i)] }
  if marked || recordBad e g t then settleReady (endTask e i .hub 3 codeTaskInvalid) i
  else settleReady (if t.kind = kGENLOOP then enterLoop m e g i t else e) i

/-- TASK_FETCH (R297, R303): the next record that the window has room for. A record on a poisoned line is not used: its task
fails (Table 12-2). -/
def taskFetch (m : Mem) (e : Engine) : Engine :=
  match e.sch.run with
  | none => e
  | some g =>
    if !running e || g.stop.isSome || decide (g.hdr.tasks ≤ g.fetch) || decide (Config.windowTasks ≤ g.tasks.length) then e
    else
      let i := nextIndex g (g.hdr.tasks - g.fetch) g.fetch
      if g.hdr.tasks ≤ i then onGraph e fun g => { g with fetch := g.hdr.tasks }
      else
        let t := taskRecAt m e g i
        let marked := subPoisoned m e g.sub (g.hdr.taskBase + 128 * i) 128
        let e := noteRead e marked
        if !marked && decide (t.step < g.lastStep) then askStop e codeTaskInvalid 0xF0 noTask
        else enterTask m e g i t marked

def execTaskFetch (rd : List MemLine) (s : State) : Host.Outcome State Fault Refusal := .next (reading s rd taskFetch)

/-! ### TASK_AGE -/

/-- AGE_US as sampled (SCH_CTRL). -/
def ageUs (e : Engine) : Nat := bits (samplesOf e).schCtrl.toNat 8 16

/-- TASK_AGE (R313). -/
def taskAge (e : Engine) (i : Nat) : Engine :=
  if !running e || ageUs e = 0 then e
  else onTask e i fun t => if t.life = .ready ∧ t.record.cls = 2 then { t with aged := true } else t

def execTaskAge (index : Nat) (s : State) : Host.Outcome State Fault Refusal := .next (onEngine s fun e => taskAge e index)

/-! ### Order of dispatch -/

/-- The open micro-batch of a tag. -/
def openMb (g : Graph) (tag : Nat) : Option MicroBatch := g.mbs.find? fun x => x.tag == tag && x.closedStep.isNone

/-- The next sequence number, and its tag (R311, R316). -/
def nextMb (g : Graph) : Nat := ((List.range (g.mbs.length + 1)).find? fun n => g.mbs.all fun x => x.num != n).getD 0
def mbTag (g : Graph) (n : Nat) : Nat := (g.hdr.firstMb + n) % 64

/-- The sequence number that a task's tag stands for. -/
def mbNum (g : Graph) (t : TaskRec) : Option Nat :=
  if !t.mbValid then none
  else match openMb g t.mb with
  | some x => some x.num
  | none => if mbTag g (nextMb g) = t.mb then some (nextMb g) else none

/-- A task's micro-batch lets it be dispatched (R311); a re-issued task was dispatched before. -/
def mbReady (g : Graph) (t : Task) : Bool :=
  !t.record.mbValid || t.reissued || (openMb g t.record.mb).isSome ||
    (mbTag g (nextMb g) == t.record.mb && decide (countIf (fun x => x.closedStep.isNone) g.mbs < g.hdr.mbWindow))

/-- The schedule's key of a class 0 or 1 task, smaller first; keyless tasks rank last (R312). One that runs again keeps its key (R437). -/
def mbKey (g : Graph) (t : Task) : List Nat :=
  match t.mbNum.or (mbNum g t.record) with
  | none => [1, 0, 0, 0]
  | some n =>
    if g.hdr.interleaved then
      let vs := if t.record.cls = 1 then t.record.vstage else vStages g.hdr - 1 - t.record.vstage
      [0, n / g.hdr.stages, vs, n % g.hdr.stages]
    else [0, n, 0, 0]

/-- A ready task's rank (R305, R312, R313, R318). -/
def rankOf (g : Graph) (t : Task) : List Nat :=
  let cls := if t.aged then 1 else t.record.cls
  [cls, b2n t.aged, b2n !t.head] ++ (if cls < 2 ∧ !t.aged then mbKey g t else [0, 0, 0, 0]) ++ [t.index]

/-- Lexicographic order. -/
def lexLt : List Nat → List Nat → Bool
  | a :: l, b :: r => if a < b then true else if b < a then false else lexLt l r
  | [], _ :: _ => true
  | _, [] => false

/-- A class 2 task that has not aged, or a class 3 task (R308, R313). -/
def isFiller (t : Task) : Bool := decide (2 ≤ t.record.cls) && !t.aged

/-- Contexts of a comb that a task may take (R306, R308): none while a dip has stopped its clock (R17). -/
def eligible (e : Engine) (c : CombId) (filler : Bool) : Nat :=
  let cs := (combOf e c).ctxs
  let free := countIf Option.isNone cs
  if (islandOf e c.val).stopped then 0
  else if filler then
    let used := countIf (fun o => match o with
      | some k => (match taskOf e k.task with | some t => isFiller t | none => false)
      | none => false) cs
    min free (bits (samplesOf e).schCtrl.toNat 0 2 - used)
  else free

/-- The comb that a logical number stands for (R318). -/
def combFor (e : Engine) (g : Graph) (l : Nat) : Option CombId :=
  match g.logical[l]? with
  | none => none
  | some c => if enabled e c then some c else nextEnabled e c

/-- The comb that is receiving a shard, or holds it (R306). -/
def shardComb (e : Engine) (s : Nat) : Option CombId :=
  let ins (c : CombId) : Bool := match (combOf e c).carousel with
    | some ca => (match ca.incoming with | some x => x.num == s | none => false)
    | none => false
  let has (c : CombId) : Bool := match (combOf e c).carousel with | some ca => (shardIn ca s).isSome | none => false
  ((enabledCombs e).find? ins).or ((enabledCombs e).find? has)

/-- The comb with the most eligible free contexts, the lowest index on ties. -/
def freestComb (e : Engine) (filler : Bool) : Option CombId :=
  minBy (fun c => 4 - eligible e c filler) (enabledCombs e)

/-- The comb that a task goes to (R306, R307). -/
def targetOf (e : Engine) (g : Graph) (t : Task) : Option CombId :=
  let r := t.record
  match (if r.dst = 0 then none else regionOf e r.dst).bind fun x => match x.place with | .resident c => some c | _ => none with
  | some c => some c
  | none =>
    match (if tShard r then shardComb e r.affinity else none) with
    | some c => some c
    | none => if r.affinity < g.logical.length then combFor e g r.affinity else freestComb e (isFiller t)

/-! ### Descriptors at dispatch -/

/-- A batch as the forager fetches it: the entries on poisoned lines are marked (R250). -/
def fetchBatch (m : Mem) (e : Engine) (a : Nat) : Batch :=
  { addr := a, bytes := viewBytes m e a 1024, bad := (List.range 16).filter fun i => viewPoison m e (lineOf (a + 64 * i) % 2 ^ 46) }

/-- A batch holds a descriptor of a dispatched task of the comb, or a bound persistent one (R250). -/
def batchHeld (cb : Comb) (a : Nat) : Bool :=
  cb.persist.any (fun p => p.1 == a) || cb.ctxs.any fun o => match o with | some k => decide (a ∈ k.batches) | none => false

/-- A comb's cache with a batch at its front; when four are full the least recently used goes that neither the comb nor the task being
dispatched (`hold`) holds (R250). Where all four are held, the batch is used and not kept (assumptions/112). -/
def keepBatch (hold : List Nat) (b : Batch) (cb : Comb) : Comb :=
  let rest := cb.cache.filter fun x => x.addr != b.addr
  if rest.length < Config.combBatches then { cb with cache := b :: rest }
  else match rest.reverse.find? fun x => !batchHeld cb x.addr && decide (x.addr ∉ hold) with
    | some x => { cb with cache := b :: rest.filter fun y => y.addr != x.addr, evicted := insertNat x.addr cb.evicted }
    | none => { cb with evicted := insertNat b.addr cb.evicted }

/-- A batch kept in a comb's cache. -/
def cacheBatch (e : Engine) (c : CombId) (hold : List Nat) (b : Batch) : Engine := onComb e c (keepBatch hold b)

/-- A batch at hand in a comb: cached, or fetched, and counted where the cache had given it up (R251, R291). The answer tells whether
it was cached or counted. -/
def batchFor (m : Mem) (e : Engine) (c : CombId) (hold : List Nat) (a : Nat) : Batch × Bool × Engine :=
  match (combOf e c).cache.find? fun x => x.addr == a with
  | some b => (b, true, cacheBatch e c hold b)
  | none =>
    let b := fetchBatch m e a
    let again := decide (a ∈ (combOf e c).evicted)
    let e := if again then bumpComb e c .descRefetch 1 else e
    (b, again, landedPoison (cacheBatch e c hold b) c b.bad.length codeHalted)

/-- A task's persistent descriptor that REARM names: the one of OUT, else the one of ROW (R274, Table 09-3). -/
def rearmEntry (b : Batch) (t : TaskRec) : Option Nat :=
  let pick (r : Nat) : Option Nat := (tRef t r).bind fun n => if (batchDesc b.bytes n).persist then some n else none
  (pick rOUT).or (pick rROW)

/-- A descriptor re-armed in a batch: new BASE, and new INDEX_REF unless 0 (R274). -/
def rearmBytes (bs : List Byte) (n : Nat) (t : TaskRec) : List Byte :=
  let o := 64 * n
  let bs := bs.take o ++ leBytes 8 t.rearmBase ++ bs.drop (o + 8)
  if t.rearmIndex = 0 then bs else bs.take (o + 48) ++ leBytes 8 t.rearmIndex ++ bs.drop (o + 56)

/-- PERSIST_REARM (R274, R275): the batch as the task finds it. -/
def rearm (e : Engine) (c : CombId) (t : TaskRec) (b : Batch) (known : Bool) : Batch × Engine :=
  if !tRearm t then (b, e)
  else match rearmEntry b t with
  | none => (b, e)
  | some n =>
    let b := { b with bytes := rearmBytes b.bytes n t }
    (b, cacheBatch (if known then e else bumpComb e c .descRefetch 1) c [] b)

/-- A named descriptor: its reference, entry, itself, the descriptor of its index stream, and whether either cannot be used. -/
structure NamedDesc where
  role : Nat
  entry : Nat
  d : Desc
  ix : Option Desc := none
  bad : Bool := false
  deriving Repr, Inhabited

/-- The batch that holds a descriptor's index descriptor. -/
def indexBatch (d : Desc) : Nat := d.indexRef / 1024 * 1024

/-- The batches that a task's descriptors come from. -/
def batchesOf (t : TaskRec) (l : List NamedDesc) : List Nat :=
  dedup (t.descBatch :: (l.filter fun x => x.ix.isSome).map fun x => indexBatch x.d)

/-- A descriptor with its index descriptor, which comes by its own batch (R247, R249). -/
def nameDesc (m : Mem) (e : Engine) (c : CombId) (hold : List Nat) (b : Batch) (role n : Nat) : NamedDesc × Engine :=
  let d := batchDesc b.bytes n
  let marked := decide (n ∈ b.bad)
  if d.indexEn && d.indexRef != 0 && d.indexRef % 64 == 0 then
    let (ib, _, e) := batchFor m e c hold (indexBatch d)
    let k := d.indexRef % 1024 / 64
    let ix := batchDesc ib.bytes k
    ({ role := role, entry := n, d := d, ix := some ix, bad := marked || decide (k ∈ ib.bad) || !descOk d ix }, e)
  else ({ role := role, entry := n, d := d, bad := marked || !descOk d default }, e)

/-- Every descriptor that a comb task names, with re-arming done (R248, R273 to R275). -/
def nameDescs (m : Mem) (e : Engine) (c : CombId) (t : TaskRec) : List NamedDesc × Engine :=
  if (List.range 8).all fun r => (tRef t r).isNone then ([], e)
  else
    let (b, known, e) := batchFor m e c [] t.descBatch
    let (b, e) := rearm e c t b known
    (List.range 8).foldl (fun (acc : List NamedDesc × Engine) r =>
      match tRef t r with
      | some n => let (x, e) := nameDesc m acc.2 c (batchesOf t acc.1) b r n; (acc.1 ++ [x], e)
      | none => acc) ([], e)

/-! ### Checks at dispatch -/

/-- A named descriptor by reference. -/
def named (l : List NamedDesc) (role : Nat) : Option Desc := (l.find? fun x => x.role == role).map NamedDesc.d

/-- FORMAT is F16, BF16 or F32. -/
def floatFmt (d : Desc) : Bool := decide (d.format ≤ fF32)

/-- ROW and COL of a product task (R573). -/
def rowColOk (t : TaskRec) (mask : Nat) (l : List NamedDesc) : Bool :=
  match named l rROW, named l rCOL with
  | some a, some b =>
    let w := if t.kind = kDW then none else some (weightRole t mask)
    !a.dir && !b.dir && decide (a.ring < 8 ∧ a.ring % 2 = 0) && decide (b.ring < 8 ∧ b.ring % 2 = 1) &&
      ((a.layout == lWROW) == (w == some rROW)) && ((b.layout == lWROW) == (w == some rCOL))
  | _, _ => false

/-- OUT and DST of a product task (R573); the SUM codes name their row-sum region in DST (R229, assumptions/33). -/
def outOk (t : TaskRec) (mask : Nat) (l : List NamedDesc) : Bool :=
  let sum := t.epilogue == 2 || t.epilogue == 4
  if t.kind = kDW then
    match named l rOUT with
    | some d => t.dst == 0 && mask == 0 && d.dir && floatFmt d && d.layout == lLINEAR
    | none => t.dst != 0
  else
    match named l rOUT with
    | some d => (if sum then t.dst != 0 else t.dst == 0) && d.dir && floatFmt d && decide (d.layout ≤ lCV32T)
    | none => false

/-- SIDE0 of a weight gradient on a sparse layer (R572). -/
def maskRecordsOk (t : TaskRec) (mask : Nat) (l : List NamedDesc) : Bool :=
  if t.kind = kDW ∧ mask ≠ 0 then
    match named l rSIDE0 with
    | some d => !d.dir && d.layout == lWROW && decide (8 ≤ d.ring ∧ d.ring < 12) && decide (d.share.toNat < 16)
    | none => false
  else true

/-- No operand but the weight records, and the mask records of a weight gradient, is a WROW stream (R572, R573). -/
def rowsOnly (t : TaskRec) (mask : Nat) (l : List NamedDesc) : Bool :=
  l.all fun x => x.d.layout != lWROW ||
    (if t.kind = kDW then decide (mask ≠ 0 ∧ x.role = rSIDE0) else decide (x.role = weightRole t mask))

/-- A handle that is named is held by the brood map (R198). -/
def handleOk (e : Engine) (h : Nat) : Bool := h == 0 || (regionOf e h).isSome

/-- AUX1 of a mask-step weight gradient (R155). -/
def candidateOk (e : Engine) (t : TaskRec) : Bool :=
  if t.kind = kDW ∧ tMaskStep t then
    match regionOf e t.aux1 with
    | some r => r.layout == 3 && r.spill
    | none => false
  else true

/-- The slot that a task reads has a factor plane, where the task needs one (R235). -/
def factorsOk (e : Engine) (t : TaskRec) (slot : Option Nat) : Bool :=
  if t.kind = kDW ∧ tScaleGrad t then
    match verOf e t.param with
    | some v => elemD v.factors (slot.getD v.current) 0 != 0
    | none => false
  else true

/-- Add destinations of a comb task are in the brood map (R198, R233). -/
def destsOk (e : Engine) (t : TaskRec) : Bool :=
  let norm := t.epilogue == 3 || t.epilogue == 4
  handleOk e t.dst && (!(t.kind == kDW && tScaleGrad t) || handleOk e t.aux0) && (!norm || (handleOk e t.aux0 && handleOk e t.aux1))

/-- Side operands that a reduction names (R229): codes 1 to 6 read SIDE0, the normalisations SIDE1; SIDE2 is for the
normalisations alone. -/
def sidesOk (t : TaskRec) (l : List NamedDesc) : Bool :=
  let side (r : Nat) : Bool := match named l r with | some d => !d.dir && decide (8 ≤ d.ring ∧ d.ring < 12) | none => false
  let norm := t.epilogue == 3 || t.epilogue == 4 || t.epilogue == 6
  if t.epilogue = 0 then true
  else side rSIDE0 && (if norm then side rSIDE1 else true) && ((named l rSIDE2).isNone || (norm && side rSIDE2))

/-- A product task's references break no rule (R198, R155, R235, R572, R573). -/
def productOk (e : Engine) (t : TaskRec) (mask : Nat) (slot : Option Nat) (l : List NamedDesc) (k : Ctx) : Bool :=
  rowColOk t mask l && outOk t mask l && maskRecordsOk t mask l && rowsOnly t mask l && candidateOk e t && destsOk e t && factorsOk e t slot &&
    (t.kind == kDW || sidesOk t l) && !(framesFor k t mask).isEmpty

/-- A drain-only task's references break no rule (R229, assumptions/37). -/
def drainOk (e : Engine) (t : TaskRec) (l : List NamedDesc) : Bool :=
  let side (r : Nat) : Bool := match named l r with | some d => !d.dir && decide (8 ≤ d.ring ∧ d.ring < 12) | none => false
  let out := match named l rOUT with | some d => d.dir && floatFmt d | none => false
  side rROW && out && sidesOk t l &&
    (if t.epilogue = 7 then t.dst == 0 else (regionOf e t.dst).isSome)

/-- A SELECT task names its logits (R320, assumptions/37). -/
def selectOk (l : List NamedDesc) : Bool :=
  match named l rSIDE0 with
  | some d => !d.dir && decide (8 ≤ d.ring ∧ d.ring < 12) && floatFmt d && decide (d.layout ≤ lCV32T)
  | none => false

/-- EPILOGUE is reserved, or paired with the wrong kind (R228, R229). -/
def pairBad (t : TaskRec) : Bool :=
  let ep := t.epilogue
  !(if isProduct t then decide (ep ≤ 4) else if t.kind = kDRAIN then decide (5 ≤ ep ∧ ep ≤ 7) else ep == 0)

/-- A row reduction's conditions are broken: a CV32 destination, and for the FULL codes a row of one tile (R227, R228). -/
def spanBad (t : TaskRec) (mask : Nat) (l : List NamedDesc) : Bool :=
  let ep := t.epilogue
  let cv := match named l rOUT with | some d => d.layout == lCV32 | none => false
  let chans := if mask = 0 then t.outCols else t.outRows
  ep != 0 && (!cv || ((ep == 1 || ep == 3) && (decide (64 < t.rowLen) || decide (64 < chans))))

/-- The micro-batch reads an older epoch than CURRENT's (R351). -/
def epochStale (e : Engine) (t : TaskRec) : Bool :=
  (t.kind == kDW || tScaleGrad t) && t.mbValid &&
  match verOf e t.param with
  | none => false
  | some v => match pinOf v t.mb with
    | some s => elemD v.epochs s none != elemD v.epochs v.current none
    | none => false

/-- A task that reads its PARAM's codes or factors (R236). -/
def readsParam (t : TaskRec) (mask : Nat) : Bool :=
  t.kind == kFWD || t.kind == kDX || (t.kind == kDW && (mask != 0 || tScaleGrad t))

/-- The slot that a task reads, pinned where it pins (R236, R240, R242). -/
def readSlot (e : Engine) (i : Nat) (t : TaskRec) (mask : Nat) : Option Nat × Engine :=
  if readsParam t mask then pinTask e i t
  else match verOf e t.param with
    | none => (none, e)
    | some v => (some ((pinOf v (if t.mbValid then t.mb else ownPin i)).getD v.current), e)

/-- The descriptors of a context: a WROW descriptor that carries PARAM's records takes its slot's address (R574). -/
def ctxDescs (e : Engine) (t : TaskRec) (mask : Nat) (slot : Option Nat) (l : List NamedDesc) : AMap Nat Desc :=
  l.flatMap fun x =>
    let d := if x.d.layout = lWROW ∧ x.role = weightRole t mask then
        match verOf e t.param with
        | some v => { x.d with base := elemD v.codes (slot.getD v.current) 0 }
        | none => x.d
      else x.d
    (x.role, d) :: (match x.ix with | some ix => [(ixKey x.role, ix)] | none => [])

/-! ### Dispatch to a comb -/

/-- A comb task fails as it is dispatched: it takes no context (R248, R573). -/
def failAt (e : Engine) (i : Nat) (c : CombId) (code : Nat) : Engine :=
  let e := if code = codeDescInvalid then bumpComb e c .descInvalid 1 else e
  let e := if code = codeEpochStale then bumpComb e c .epochStale 1 else e
  endTask e i (.comb c) 3 code

/-- The code with which a comb task fails at dispatch: DESC_INVALID, TASK_INVALID, ROW_SPAN, EPOCH_STALE, in this order, a wrong
epilogue first among the last three (R228, R229, R248, R351, R573). -/
def dispatchCode (e : Engine) (t : TaskRec) (mask : Nat) (slot : Option Nat) (l : List NamedDesc) (k : Ctx) : Option Nat :=
  let refsOk := if isProduct t then productOk e t mask slot l k else if t.kind = kDRAIN then drainOk e t l else selectOk l
  if l.any NamedDesc.bad then some codeDescInvalid
  else if pairBad t then some codeRowSpan
  else if !refsOk then some codeTaskInvalid
  else if spanBad t mask l then some codeRowSpan
  else if epochStale e t then some codeEpochStale
  else none

/-- The step that a graph began with. -/
def firstStep (g : Graph) : Option Nat := minBy id (g.firstOfStep.map Prod.fst)

/-- A SHARD task of a later step than its comb last served, or than the graph began with, makes the comb's shard stale until it is
reloaded (R284). -/
def stepShard (e : Engine) (c : CombId) (t : TaskRec) : Engine :=
  if !tShard t then e
  else
    let last (ca : Carousel) : Nat := (ca.step.or (e.sch.run.bind firstStep)).getD t.step
    let turn (ca : Carousel) : Carousel :=
      { ca with step := some (max t.step (last ca)), stale := ca.stale || decide (last ca < t.step) }
    onComb e c fun cb => { cb with carousel := cb.carousel.map turn }

/-- A comb task takes the lowest free context of its comb (R306, R310). -/
def takeCtx (e : Engine) (i : Nat) (c : CombId) (k : Ctx) : Engine :=
  match indexOf? Option.isNone (combOf e c).ctxs with
  | none => e
  | some x =>
    let outs := [rOUT, rZOUT].filterMap fun r =>
      if (descFor k (ixKey r)).isSome then some ({ task := k.task, ctx := Fin.ofNat 4 x, role := r } : Stream) else none
    let e := onComb e c fun cb => { cb with ctxs := updAt cb.ctxs x fun _ => some { k with outs := outs } }
    let e := onTask e i fun t => { t with life := .running (.comb c) }
    (dedup (k.descs.map fun p => p.2.ring)).foldl (fun e r => attachStreams e c r) e

/-- A comb task starts in its comb, or fails. -/
def startComb (m : Mem) (e : Engine) (tk : Task) (c : CombId) : Engine :=
  let t := tk.record
  let i := tk.index
  let mask := if isProduct t then maskOf e t else 0
  let (l, e) := nameDescs m e c t
  let view := match verOf e t.param with
    | some v => some ((pinOf v (if t.mbValid then t.mb else ownPin i)).getD v.current)
    | none => none
  let k : Ctx := {
    task := i, order := (match e.sch.run with | some g => g.dispatches | none => 0), descs := ctxDescs e t mask view l
    batches := batchesOf t l }
  match dispatchCode e t mask view l k with
  | some code => failAt e i c code
  | none =>
    let (slot, e) := readSlot e i t mask
    let k := { k with descs := ctxDescs e t mask slot l }
    let e := onTask e i fun t => { t with slotPin := slot }
    let e := onComb (stepShard e c t) c fun cb => { cb with
      persist := dedup (cb.persist ++ (l.filter fun x => x.d.persist).map fun x => (t.descBatch, x.entry)) }
    takeCtx e i c k

/-! ### TASK_DISPATCH -/

/-- Adds into a region of a step up to s are still on their way (R209, R211). -/
def addsOnWay (e : Engine) (h s : Nat) : Bool :=
  let into (q : List HandleEntry) : Bool := q.any fun x => x.region == h && !x.adds.isEmpty && decide (stepOf e x.task ≤ s)
  let holds (o : OutJob) : Bool := decide (o.record.step ≤ s) && (o.adds.drop o.next).any fun l => l.any fun a => a.1 == h
  e.combs.any (fun cb => cb.frames.any (fun fr => fr.out.any holds) ||
    into cb.chain || into cb.outQ) || into e.hf.hand || into e.cap.queue || into e.cap.spill ||
  (match e.sch.run with | some g => g.tasks.any fun t => t.again && t.record.dst == h && decide (t.record.step ≤ s) | none => false)

/-- A weight gradient into a frozen region (R219). -/
def skips (e : Engine) (t : TaskRec) : Bool :=
  t.kind == kDW && (match (if t.dst = 0 then none else regionOf e t.dst) with | some r => r.frozen | none => false)

/-- A task executed by the capping unit. -/
def isCap (t : TaskRec) : Bool := t.kind == kUPDATE || t.kind == kMASK || t.kind == kCKPT

/-- The task's target can take it now (R306, R309). -/
def canGo (e : Engine) (g : Graph) (t : Task) : Bool :=
  let k := t.record.kind
  mbReady g t &&
  (if skips e t.record then true
   else if isCombTask t.record then
     (match targetOf e g t with | some c => decide (0 < eligible e c (isFiller t)) | none => false) &&
       !(k == kDRAIN && t.record.dst != 0 && addsOnWay e t.record.dst t.record.step)
   else if isCap t.record then capFree e && !(islandOf e 54).stopped && !(k == kMASK && t.record.aux1 != 0 && addsOnWay e t.record.aux1 t.record.step)
   else if k = kLIGHT then e.hf.light.isNone
   else if k = kBARRIER then !lastWaits e t.index
   else true)

/-- A micro-batch opens at the dispatch of its first task (R311). -/
def openAt (g : Graph) (t : Task) : List MicroBatch :=
  if t.record.mbValid && !t.reissued && (openMb g t.record.mb).isNone then
    g.mbs ++ [{ num := nextMb g, tag := t.record.mb, openStep := t.record.step }]
  else g.mbs

/-- What every dispatch does: the micro-batch opens, the task takes its place in the order, a failed predecessor marks it (R311,
R314). -/
def beginDispatch (e : Engine) (g : Graph) (t : Task) : Engine :=
  let tainted := g.poisoned.any fun p => p.1 == t.index
  let e := onGraph e fun g => { g with mbs := openAt g t, dispatches := g.dispatches + 1 }
  let e := onTask e t.index fun x => { x with head := false, order := g.dispatches, mbNum := x.mbNum.or (mbNum g x.record), poisonIn := x.poisonIn || tainted }
  let e := startLoops e fun l => decide (l.first ≤ t.index ∧ t.index < l.task)
  if tainted && !t.reissued then bump e .poisonIn 1 else e

/-- A task skipped for its frozen destination (R219, R301). -/
def skipTask (m : Mem) (e : Engine) (g : Graph) (t : Task) : Engine :=
  match targetOf e g t with
  | some c => finishTask m (bumpComb e c .frozenSkipped 1) t (.comb c) 2 0 true
  | none => finishTask m e t .hub 2 0 true

/-- A BUCKET task's bucket enters WAITING (Table 11-8), or the one that a step repeat returned to WAITING is dispatched again
(R395). -/
def takeBucket (e : Engine) (i step : Nat) : Engine :=
  let n := e.lnk.admissions
  let mine (b : Bucket) : Bool := b.task == i && !b.dispatched && b.state == .waiting
  let l := if e.lnk.buckets.any mine then updFirst mine (fun b => { b with dispatched := true, order := n }) e.lnk.buckets
    else e.lnk.buckets ++ [{ parseBucket [] i step with order := n }]
  { e with lnk := { e.lnk with buckets := l, admissions := n + 1 } }

/-- A BUCKET task whose record asks for a BROADCAST in SIGN (R426); a record that cannot be read is left to its admission. -/
def signBroadcast (m : Mem) (e : Engine) (t : TaskRec) : Bool :=
  let a := t.arg.toNat
  let b := parseBucket (viewBytes m e a 64) 0 0
  a % 64 == 0 && addrOk a && !viewPoisoned m e a 64 && b.broadcast && b.sign

/-- A dispatched task of each kind goes to its unit (Table 09-4). -/
def startTask (m : Mem) (e : Engine) (g : Graph) (t : Task) : Engine :=
  let r := t.record
  let i := t.index
  let go (e : Engine) (u : ExecUnit) : Engine := onTask e i fun t => { t with life := .running u }
  if skips e r then skipTask m e g t
  else if isCombTask r then (match targetOf e g t with | some c => startComb m e t c | none => e)
  else if r.epilogue ≠ 0 then
    endTask e i (if r.kind = kBUCKET then .link else if isCap r then .cap else .hub) 3 codeRowSpan
  else if isCap r then startCap m (go e .cap) i r
  else if r.kind = kBUCKET then
    (if signBroadcast m e r then endTask e i .link 3 codeTaskInvalid else takeBucket (go e .link) i r.step)
  else if r.kind = kLIGHT then
    (if r.arg.toNat % 32 = 0 then { go e .hub with hf := { e.hf with light := some (i, 0) } } else endTask e i .hub 3 codeTaskInvalid)
  else if r.kind = kBARRIER then finishTask m e t .hub 1 0 true
  else go e .hub

/-- TASK_DISPATCH (R305, R306, R309, R312): the best-ranked ready task whose target can take it. -/
def taskDispatch (m : Mem) (e : Engine) : Engine :=
  match e.sch.run with
  | none => e
  | some g =>
    if !running e || g.stop.isSome then e
    else
      let able := g.tasks.filter fun t => t.life == .ready && canGo e g t
      match firstOf (fun a b => lexLt (rankOf g a) (rankOf g b)) able with
      | none => e
      | some t =>
        let e := beginDispatch e g t
        match taskOf e t.index with
        | some t => startTask m e g t
        | none => e

def execTaskDispatch (rd : List MemLine) (s : State) : Host.Outcome State Fault Refusal := .next (reading s rd taskDispatch)

end Sys2Proof.Machine
end

