-- ==== Sys2Proof/Machine/LinkReduce.lean ====
section
/-! DEFINITION. Machine/LinkReduce.lean: buckets on the links (R378 to R393): admission, activation, partial sums, results and
their multicast (R400), data and result flits. -/

namespace Sys2Proof.Machine

/-! ### Results -/

/-- A bucket is DONE and its task ends (R383, R389). -/
def bucketDone (e : Engine) (b : Bucket) : Engine :=
  let e := onBucket e b.order fun b => { b with state := .done }
  endTask (if b.poisonResult then onTask e b.task fun t => { t with poisonOut := true } else e) b.task .link 1 0

/-- BUCKET_LAND (R383): the last result flit has been written; in a sealed step the bucket is DONE at once (R389). -/
def landBucket (e : Engine) (b : Bucket) : Engine :=
  let e := onBucket e b.order fun b => { b with state := .landed, own := [], sums := [], up := [] }
  match groupAt e b.group b.generation with
  | some g => if stepSealed g b.step then bucketDone e b else e
  | none => e

/-- A RESULT flit's 128 entries at RESULT_ADDR, as BF16 or widened to F32 (R388). The lines of NaNs and infinities are marked (R30), a
broadcast's too, whose entries are BF16 as well (DEDUCED, assumptions/136). -/
def writeResult (e : Engine) (b : Bucket) (f : Flit) : Engine :=
  let n := if b.resultF32 then 4 else 2
  let a := b.result + 128 * n * (f.offset.toNat % 2 ^ 18)
  let ws := (List.range 128).map fun j => bf16ToF32 (field f.payload (2 * j) 2)
  let bad := badLines n a ws
  let e := if flitPoison f || !bad.isEmpty then raiseErr e errPoison else e
  let bs := if b.resultF32 then ws.flatMap fun w => leBytes 4 w.toNat else takeBytes f.payload 0 256
  sendBytes e (.link b.task) a bs fun l => flitPoison f || decide (l ∈ bad)

/-- The child ports of a bucket's multicast, without those dropped. -/
def openKids (b : Bucket) : List PortId := (b.children.map Prod.fst).filter fun p => b.drops.all fun d => d.1 != p

/-- A port can take a flit of channel 1 (R376). -/
def hasCredit (e : Engine) (p : PortId) : Bool := let q := portOf e p; q.state == .up && decide (0 < q.credit1)

/-- A flit enters a child port's queue and takes its credit. -/
def pushDown (e : Engine) (b : Bucket) (f : Flit) (p : PortId) : Engine :=
  let f := { f with hopRank := BitVec.ofNat 8 b.rank }
  onPort e p fun q => { q with down := q.down ++ [f], credit1 := q.credit1 - 1 }

/-- The first flit that waits for its multicast goes to every child port at once and is written (R388, R400 text). -/
def forwardOne (e : Engine) (order : Nat) : Engine :=
  match bucketAt e order with
  | none => e
  | some b =>
    match b.out with
    | [] => e
    | x :: rest =>
      if !(openKids b).all (hasCredit e) then e
      else
        let e := (openKids b).foldl (fun e p => pushDown e b x.2 p) e
        let e := match x.1 with | some p => returnCredit e p 1 | none => e
        let b' := { b with out := rest, got := b.got + 1, poisonResult := b.poisonResult || flitPoison x.2 }
        let e := writeResult (onBucket e order fun _ => b') b x.2
        if b'.got = groupsIn b then landBucket e b' else e

/-- A bucket's multicast as far as credits allow. -/
def forwardBucket (e : Engine) (b : Bucket) : Engine := (List.range b.out.length).foldl (fun e _ => forwardOne e b.order) e

/-- Every multicast as far as credits allow, the oldest bucket first: RESULT flits keep no order of SEQ (R386; DESIGN CHOICE, assumptions/148). -/
def forwardAll (e : Engine) : Engine :=
  (sortBy (fun (a b : Bucket) => decide (a.order < b.order)) e.lnk.buckets).foldl forwardBucket e

/-- A broadcast's root sends OK as soon as its last flit has been sent (R390). -/
def broadcastOk (e : Engine) (b : Bucket) : Engine :=
  let mine (f : Flit) : Bool := f.tag.toNat == b.tag && f.step.toNat == b.step && f.attempt.toNat == b.attempt
  if b.broadcast && b.parent.isNone && unsealed b && b.got == groupsIn b && !b.okSent && allPorts.all (fun p => !(portOf e p).down.any mine) then
    tellLeader (onBucket e b.order fun b => { b with okSent := true }) b opOk 0
  else e

/-- Every broadcast that this device has finished sending. -/
def broadcastsOk (e : Engine) : Engine := e.lnk.buckets.foldl broadcastOk e

/-- Every multicast moves on. -/
def moveMulticasts (e : Engine) : Engine := broadcastsOk (forwardAll e)

/-- A data flit of a bucket. -/
def dataFlit (b : Bucket) (kind off : Nat) (poison : Bool) (payload : List Byte) : Flit :=
  { tag := BitVec.ofNat 16 b.tag, offset := BitVec.ofNat 32 off, hopRank := BitVec.ofNat 8 b.rank, kind := kindByte kind poison 0
    step := w32 b.step, attempt := BitVec.ofNat 8 b.attempt, group := BitVec.ofNat 8 b.group, lseq := 0, payload := payload, crc := 0 }

/-- 128 BF16 entries as a payload. -/
def fullPayload (vals : List Nat) : List Byte := pad256 (vals.flatMap (leBytes 2))

/-- The regions of a bucket are cleared as their last line has been read out (R210). -/
def releaseRegions (e : Engine) (b : Bucket) : Engine :=
  (bucketLayout e b.tag).1.foldl (fun e x => if x.1.frozen then e else clearRegion e x.1) e

/-- Every entry of a bucket's own contribution has left: summed at the root, sent on the parent's port elsewhere. -/
def allRead (b : Bucket) : Bool := if b.parent.isNone then b.formed == groupsIn b else decide (groupsIn b ≤ b.upNext)

/-- A bucket's read-out ends (R210, assumptions/64). -/
def endReading (e : Engine) (order : Nat) : Engine :=
  match bucketAt e order with
  | some b => if b.reading && allRead b then releaseRegions (onBucket e order fun b => { b with reading := false }) b else e
  | none => e

/-- RESULT_FORM (R388, R394): the root forms a result flit; with the last one, and none poisoned, it sends OK. -/
def formResult (e : Engine) (b : Bucket) (off : Nat) (vals : List Nat) (poison : Bool) : Engine :=
  let f := dataFlit b kResult off poison (fullPayload vals)
  let last := b.formed + 1 == groupsIn b
  let e := onBucket e b.order fun b =>
    { b with out := b.out ++ [(none, f)], formed := b.formed + 1, deadlineOn := b.deadlineOn && !last }
  let e := endReading e b.order
  let e := if poison then failBucket (bump e .poisonSums 1) b failPoison else e
  if last && !poison && !b.failed && !b.okSent then
    tellLeader (onBucket e b.order fun b => { b with okSent := true }) b opOk 0
  else e

/-! ### Partial sums -/

/-- The operands of a flit position in the order that they are added (R378): FIXED by rank, ARRIVAL as they came. -/
def inOrder (e : Engine) (ops : List Operand) : List Operand :=
  let arrival := match e.sch.run with | some g => g.hdr.arrival | none => false
  if arrival then ops else sortBy (fun (a b : Operand) => decide (a.rank < b.rank)) ops

/-- bf16_rne(acc) of a position's operands, with its poison (R378, R379). -/
def sumOps (ops : List Operand) : List Nat × Bool :=
  let wide (o : Operand) : List Word := o.vals.map bf16ToF32
  match ops with
  | [] => ([], false)
  | a :: l =>
    let acc := l.foldl (fun acc o => List.zipWith fAdd acc (wide o)) (wide a)
    let out := acc.map f32ToBF16
    (out, ops.any Operand.poison || out.any badBF16)

/-- The poison that this device's own adder makes of a position (R420). -/
def sumEvent (e : Engine) (island : Nat) (ops : List Operand) (poison : Bool) : Engine :=
  if poison && !ops.any Operand.poison then poisonEvent e island codeHalted else e

/-- A formed flit takes its place among those to send; one that was sent stomped is made good where it is held (R375). -/
def formUp (e : Engine) (b : Bucket) (u : UpFlit) : Engine :=
  if b.upNext ≤ u.offset then
    onBucket e b.order fun b => { b with up := insertBy (fun (x y : UpFlit) => decide (x.offset < y.offset)) u b.up }
  else match b.parent with
    | none => e
    | some p => onPort e p fun q =>
        let f := dataFlit b kFull u.offset u.poison u.payload
        let f := { f with kind := kindByte kFull u.poison q.version }
        let mine (h : Flit) : Bool := h.tag == f.tag && h.step == f.step && h.attempt == f.attempt && h.offset == f.offset && !crcGood h
        { q with held := updFirst mine (fun h => sealFlit { f with lseq := h.lseq }) q.held }

/-- A position whose operands are all present (R378). -/
def formPosition (e : Engine) (b : Bucket) (island off : Nat) (ops : List Operand) : Engine :=
  let l := inOrder e ops
  let (vals, poison) := sumOps l
  let e := sumEvent e island l poison
  match b.parent with
  | none => formResult e b off vals poison
  | some _ => formUp e b { offset := off, sign := false, payload := fullPayload vals, poison := poison }

/-- The operands that a position has. -/
def opsAt (b : Bucket) (off : Nat) : List Operand :=
  match b.sums.find? fun s => s.offset == off with
  | some s => s.ops
  | none => match b.own[off]? with | some o => [o] | none => []

/-- A child's operand of one position (R378); the position is formed once every operand is present. The answer tells whether
the operand was one that the position awaited. -/
def takeOperand (e : Engine) (order island off : Nat) (o : Operand) : Engine × Bool :=
  match bucketAt e order with
  | none => (e, false)
  | some b =>
    let ops := opsAt b off
    if groupsIn b ≤ off ∨ (ops.any fun x => x.rank == o.rank) ∨ (b.sums.any fun s => s.offset == off && s.ops.isEmpty) then (e, false)
    else
      let ops := ops ++ [o]
      let rest := b.sums.filter fun s => s.offset != off
      if ops.length = b.children.length + 1 then
        let e := onBucket e order fun b => { b with sums := rest ++ [⟨off, []⟩] }
        (formPosition e b island off ops, true)
      else (onBucket e order fun b => { b with sums := rest ++ [⟨off, ops⟩] }, true)

/-- A BF16 value negated; a NaN stays the canonical one (R27). -/
def negBF16 (v : Nat) : Nat := if 0x7F80 < v % 0x8000 then 0x7FC0 else Nat.xor v 0x8000

/-- The groups of a DATA_SIGN payload that lie within the bucket, as operands by offset (R392). -/
def signOperands (b : Bucket) (f : Flit) (rank : Nat) (poison : Bool) : List (Nat × Operand) :=
  let o := f.offset.toNat % 2 ^ 18
  (List.range 14).filterMap fun i =>
    if groupsIn b ≤ o + i then none
    else
      let sc := field f.payload (18 * i + 16) 2
      let neg (j : Nat) : Bool := bit (field f.payload (18 * i + j / 8) 1) (j % 8)
      some (o + i, { rank := rank, vals := (List.range 128).map fun j => if neg j then negBF16 sc else sc, poison := poison })

/-- A data flit's operands by offset. -/
def flitOperands (b : Bucket) (f : Flit) (rank : Nat) (poison : Bool) : List (Nat × Operand) :=
  if flitKind f = kSign then signOperands b f rank poison
  else [(f.offset.toNat % 2 ^ 18, { rank := rank, vals := (List.range 128).map fun j => field f.payload (2 * j) 2, poison := poison })]

/-- A data flit for an ACTIVE bucket meets the adders of its port (R378, R387, R407): its credit goes back; one that the bucket
does not await is stale. -/
def addFlit (e : Engine) (b : Bucket) (p : PortId) (f : Flit) (lane : Bool) : Engine :=
  let e := returnCredit e p 0
  match b.children.find? fun c => c.1 == p with
  | none => bump e .staleFlits 1
  | some c =>
    if b.broadcast then bump e .staleFlits 1
    else
      let e := if lane then poisonEvent (bump (laneEvent e) .hubLaneMismatch 1) (linkIsland p) codeHalted else e
      let (e, any) := (flitOperands b f c.2 (flitPoison f || lane)).foldl (fun (acc : Engine × Bool) o =>
        let (e, ok) := takeOperand acc.1 b.order (linkIsland p) o.1 o.2
        (e, acc.2 || ok)) (e, false)
      if any then e else bump e .staleFlits 1

/-- A RESULT flit for an ACTIVE bucket waits for its multicast (R388, R390). -/
def addResult (e : Engine) (b : Bucket) (p : PortId) (f : Flit) : Engine :=
  if b.parent = some p ∧ f.offset.toNat % 2 ^ 18 = b.got + b.out.length ∧ b.got + b.out.length < groupsIn b then
    onBucket e b.order fun b => { b with out := b.out ++ [(some p, f)] }
  else returnCredit (bump e .staleFlits 1) p 1

/-- GROUP, STEP and ATTEMPT of a flit belong to a bucket that is WAITING or ACTIVE (R387); a bucket not yet admitted names its
step alone. -/
def belongs (e : Engine) (f : Flit) : Bool :=
  e.lnk.buckets.any fun b => (b.state == .waiting || b.state == .active) && b.step == f.step.toNat &&
    (!b.known || (b.group == f.group.toNat && b.attempt == f.attempt.toNat))

/-- The ACTIVE bucket that a data or RESULT flit is for. -/
def target (e : Engine) (f : Flit) : Option Bucket :=
  e.lnk.buckets.find? fun b => b.state == .active && b.tag == f.tag.toNat && b.step == f.step.toNat && b.group == f.group.toNat &&
    b.attempt == f.attempt.toNat

/-- A data or RESULT flit that has been taken: to its bucket, into the receive buffer, or discarded (R387). -/
def placeFlit (e : Engine) (p : PortId) (f : Flit) (lane : Bool) : Engine :=
  match target e f with
  | some b => if flitKind f = kResult then addResult e b p f else addFlit e b p f lane
  | none =>
    if belongs e f then onPort e p fun q => { q with waitRx := q.waitRx ++ [f] }
    else returnCredit (bump e .staleFlits 1) p (if flitKind f = kResult then 1 else 0)

/-- Flits of the receive buffers that belong to no bucket any more are discarded. -/
def dropStale (e : Engine) : Engine := dropWaiting e fun f => !belongs e f

/-- What waited in the receive buffers for a bucket that is now ACTIVE (R387), in each port's order of arrival. -/
def replayWaiting (e : Engine) (b : Bucket) : Engine :=
  let mine (f : Flit) : Bool := f.tag.toNat == b.tag && f.step.toNat == b.step && f.group.toNat == b.group && f.attempt.toNat == b.attempt
  allPorts.foldl (fun e p =>
    let l := (portOf e p).waitRx.filter mine
    let e := onPort e p fun q => { q with waitRx := q.waitRx.filter fun f => !mine f }
    l.foldl (fun e f => placeFlit e p f false) e) e

/-! ### Stomped sums -/

/-- The buckets that have contribution flits left for a port. -/
def sendsOn (e : Engine) (p : PortId) : List Bucket :=
  e.lnk.buckets.filter fun b => b.state == .active && !b.broadcast && b.parent == some p && decide (b.upNext < groupsIn b)

/-- It is a bucket's turn on a port: of its step's buckets only the lowest SEQ that has flits left sends (R386). -/
def upTurn (e : Engine) (p : PortId) (b : Bucket) : Bool :=
  (sendsOn e p).all fun x => !(x.group == b.group && x.step == b.step && decide (x.seq < b.seq))

/-- With STOMP on the parent's link, a sum that the failed flit would have completed has set out when its CRC fails: it leaves
with its CRC inverted, and stays held until it is formed again (R375). Of a DATA_SIGN flit's positions the first one's sum has set
out (assumptions/118). -/
def stompSum (e : Engine) (p : PortId) (f : Flit) : Engine :=
  match target e f with
  | none => e
  | some b =>
    match b.parent, b.children.find? fun c => c.1 == p with
    | some up, some c =>
      let off := f.offset.toNat % 2 ^ 18
      let q := portOf e up
      let free := q.state == .up && q.resend.isNone && decide (q.held.length < Config.resendWindow) && q.uns.isEmpty &&
        q.ctl.isEmpty && q.down.isEmpty && q.replay.isEmpty && decide (0 < q.credit0)
      let ops := opsAt b off
      if 1 < flitKind f ∨ !bit q.features.toNat 1 ∨ !free ∨ !upTurn e up b ∨ b.upNext ≠ off ∨ ops.length ≠ b.children.length ∨ (ops.any fun o => o.rank == c.2) ∨
          groupsIn b ≤ off then e
      else
        let x := ((flitOperands b f c.2 (flitPoison f)).map Prod.snd).take 1
        let (vals, poison) := sumOps (inOrder e (ops ++ x))
        let e := onPort e up fun q => { sendSequenced q (dataFlit b kFull off poison (fullPayload vals)) true with credit0 := q.credit0 - 1 }
        let e := endReading (onBucket e b.order fun b => { b with upNext := off + 1 }) b.order
        bump (bump e (.stomped up) 1) (.txFlits up) 1
    | _, _ => e

/-- DATA_FLIT_RECEIVE (R374, R375, R378, R387). -/
def dataReceive (e : Engine) (p : PortId) (f : Flit) (lane : Bool) : Engine :=
  if crcGood f then
    if 1 < flitKind f then e
    else
      let (e, ok) := rxSequenced e p f
      if ok then moveMulticasts (placeFlit e p f lane) else e
  else
    let q := portOf e p
    let inTurn := linkOn e p && q.state == .up && !q.skipping && f.lseq == q.rxSeq
    (rxSequenced (if inTurn then stompSum e p f else e) p f).1

/-- A flit with its POISON bit set. -/
def markFlit (f : Flit) : Flit := { f with kind := BitVec.ofNat 8 (Nat.lor f.kind.toNat 8) }

/-- A RESULT flit whose widening to F32 meets a lane mismatch (R406, R407): poisoned. -/
def widenFault (e : Engine) (p : PortId) (f : Flit) : Engine × Flit :=
  match target e f with
  | some b => if b.resultF32 then (poisonEvent (laneEvent (bump e .hubLaneMismatch 1)) (linkIsland p) codeHalted, markFlit f) else (e, f)
  | none => (e, f)

/-- RESULT_FLIT_RECEIVE (R388, R390). -/
def resultReceive (e : Engine) (p : PortId) (r : RxFlit) : Engine :=
  let f := r.flit
  if crcGood f && flitKind f != kResult then e
  else
    let (e, ok) := rxSequenced e p f
    if !ok then e
    else
      let (e, f) := if r.lane then widenFault e p f else (e, f)
      moveMulticasts (placeFlit e p f false)

/-! ### A bucket's own contribution -/

/-- ENTRIES and REGIONS agree with the brood map (R381). -/
def layoutOk (e : Engine) (b : Bucket) : Bool :=
  let (l, stop) := bucketLayout e b.tag
  b.broadcast || (b.regions == l.length && b.entries == ceilDiv stop 128 * 128)

/-- A region as it is read out (R210, R220): a frozen one gives +0. -/
def regionOut (m : Mem) (e : Engine) (r : Region) : List (Word × Bool) :=
  if r.frozen then List.replicate r.elements (0, false) else regionVals m e r

/-- A device's own entries as F32 with the poison of their lines (R381, R382). -/
def ownEntries (m : Mem) (e : Engine) (b : Bucket) : List (Word × Bool) :=
  let l := (bucketLayout e b.tag).1.foldl (fun (acc : List (Word × Bool)) x =>
    acc ++ List.replicate (x.2 - acc.length) (0, false) ++ regionOut m e x.1) []
  l ++ List.replicate (b.entries - l.length) (0, false)

/-- Sign mode's entries of one group (R391): the operand c_j and the residuals. -/
def signGroup (rank : Nat) (bs es : List (Word × Bool)) : Operand × List Word :=
  let x := List.zipWith (fun b e => fAdd b.1 e.1) bs es
  let t := x.foldl (fun t v => fAdd t (fAbs v)) 0
  let sc := f32ToBF16 (fDivNat t 128)
  let c := x.map fun v => if fLt v 0 then negBF16 sc else sc
  let poison := (bs ++ es).any Prod.snd || x.any fBad || badBF16 sc
  ({ rank := rank, vals := c, poison := poison }, List.zipWith (fun v k => fSub v (bf16ToF32 k)) x c)

/-- One group of the sign contribution: the error plane of the step before is read, this step's is written (R391). -/
def signStep (m : Mem) (b : Bucket) (acc : List Operand × Engine) (i : Nat) (bs : List (Word × Bool)) : List Operand × Engine :=
  let e := acc.2
  let src := b.err + (b.step + 1) % 2 * b.entries * 4 + 512 * i
  let dst := b.err + b.step % 2 * b.entries * 4 + 512 * i
  let es := (List.range 128).map fun j => (w32 (viewNat m e (src + 4 * j) 4), viewPoison m e (lineOf (src + 4 * j)))
  let e := noteRead e (es.any Prod.snd)
  let (o, res) := signGroup b.rank bs es
  let e := if o.poison && !(bs ++ es).any Prod.snd then poisonEvent e 51 codeHalted else e
  let bad := badLines 4 dst res
  (acc.1 ++ [o], sendBytes e (.link b.task) dst (res.flatMap fun w => leBytes 4 w.toNat) fun l => o.poison || decide (l ∈ bad))

/-- The poison that faults of the read-out put on flit positions (R405, R407), with the events of the link adders' lanes. -/
def faultyOps (e : Engine) (ops : List Operand) (r : ReadOut) : List Operand × Engine :=
  let n := countIf (fun i => decide (i < ops.length)) (dedup r.lane)
  let hit (i : Nat) : Bool := decide (i ∈ r.lane ∨ i ∈ r.crc)
  let e := if 0 < n then laneEvent (bump e .hubLaneMismatch n) else e
  let new := ops.zipIdx.any fun o => hit o.2 && !o.1.poison
  (ops.zipIdx.map fun o => { o.1 with poison := o.1.poison || hit o.2 }, if new then poisonEvent e 51 codeHalted else e)

/-- A device's own contribution by flit position (R382, R391). -/
def ownOperands (m : Mem) (e : Engine) (b : Bucket) (poison : Bool) : List Operand × Engine :=
  let gs := blocks 128 (groupsIn b) ((ownEntries m e b).map fun x => (x.1, x.2 || poison))
  if b.sign then gs.zipIdx.foldl (fun acc g => signStep m b acc g.2 g.1) ([], e)
  else (gs.map fun g => { rank := b.rank, vals := g.map fun x => f32ToBF16 x.1, poison := g.any Prod.snd }, e)

/-- Groups of a DATA_SIGN flit (R392). -/
def signPayload (ops : List Operand) : List Byte :=
  pad256 (ops.flatMap fun o =>
    ((List.range 16).map fun k => BitVec.ofNat 8 (sumNat ((List.range 8).map fun j => b2n (bit (elemD o.vals (8 * k + j) 0) 15) * 2 ^ j))) ++
      leBytes 2 (elemD o.vals 0 0 % 0x8000))

/-- A leaf sends its signs as DATA_SIGN where its parent link has SIGN (R393). -/
def sendsSigns (e : Engine) (b : Bucket) : Bool :=
  b.sign && b.children.isEmpty && (match b.parent with | some p => bit (portOf e p).features.toNat 0 | none => false)

/-- A leaf's sign contribution from group k on, as its parent's link takes it (R392, R393). -/
def leafUp (e : Engine) (b : Bucket) (k : Nat) : List UpFlit :=
  let ops := b.own.drop k
  if sendsSigns e b then
    (blocks 14 (groupsIn b) ops).zipIdx.map fun g =>
      { offset := k + 14 * g.2, sign := true, payload := signPayload g.1, poison := g.1.any Operand.poison }
  else ops.zipIdx.map fun o =>
    { offset := k + o.2, sign := false, payload := fullPayload o.1.vals, poison := o.1.poison || o.1.vals.any badBF16 }

/-- The flits that a bucket has to send up: a leaf's signs as its parent's link takes them now (R393). -/
def upFlits (e : Engine) (b : Bucket) : List UpFlit :=
  if b.sign && b.children.isEmpty && b.parent.isSome && b.state == .active then leafUp e b b.upNext else b.up

/-- The contribution of a node without children is formed at once. -/
def formLeaf (e : Engine) (b : Bucket) (ops : List Operand) : Engine :=
  if sendsSigns e b then onBucket e b.order fun b => { b with up := leafUp e b b.upNext }
  else ops.zipIdx.foldl (fun e o => match bucketAt e b.order with
    | some b => formPosition e b 51 o.2 [o.1]
    | none => e) e

/-! ### BUCKET_ADMIT -/

/-- A group of a generation becomes known (R402): this device sends its JOIN, and its deadline for GO begins. -/
def newGroup (e : Engine) (g : Group) : Engine :=
  let e := { e with lnk := { e.lnk with groups := e.lnk.groups ++ [g] } }
  sendUp e g (ctlFlit g opJoin 0 0 0 0 g.generation)

/-- Every port that a descriptor names is UP (R377). -/
def portsUp (e : Engine) (g : Group) : Bool :=
  g.trees.all fun t => (match t.parent with | some p => (portOf e p).state == .up | none => true) &&
    t.children.all fun c => (portOf e c.1).state == .up

/-- A JOIN that this device holds or passes on (R402): the leader counts it and multicasts GO once it has all M, unless the time for them
is over. -/
def handleJoin (e : Engine) (g : Group) (f : Flit) : Engine :=
  match (tree0 g).parent with
  | some _ => sendUp e g f
  | none =>
    let e := onGroup e g.id g.generation fun g => { g with joins := g.joins + 1 }
    if g.joins + 1 = g.members ∧ !g.late then multicast e g (ctlFlit g opGo 0 0 0 0 g.generation) else e

/-- A control message came from one of the group's children, or from its parent, in tree 0 (R377). -/
def fromChild (g : Group) (p : PortId) : Bool := (tree0 g).children.any fun c => c.1 == p
def fromParent (g : Group) (p : PortId) : Bool := (tree0 g).parent == some p

/-- JOINs that came before the descriptor. -/
def earlyJoins (e : Engine) (g : Group) : Engine :=
  let mine (x : PortId × Flit) : Bool := x.2.group.toNat == g.id && msgGen x.2 == g.generation
  let l := e.lnk.early.filter mine
  let e := { e with lnk := { e.lnk with early := e.lnk.early.filter fun x => !mine x } }
  l.foldl (fun e x => match groupAt e g.id g.generation with
    | some g => if fromChild g x.1 then handleJoin e g x.2 else bump e .staleFlits 1
    | none => e) e

/-- The leader seals a step once it holds OK from every SEQ (R389). -/
def checkSeal (e : Engine) (id step : Nat) : Engine :=
  match groupFor e id step with
  | none => e
  | some g =>
    let a := stepAttempt g step
    match e.lnk.buckets.find? fun b => b.known && b.group == id && b.step == step with
    | none => e
    | some b =>
      let tags := dedup ((g.oks.filter fun o => o.2.1 == step && o.2.2 == a).map Prod.fst)
      if (tree0 g).parent.isSome ∨ tags.length ≠ b.stepBuckets ∨ (step, a) ∈ g.acted ∨ stepSealed g step then e
      else
        let e := onGroup e id g.generation fun g => { g with acted := g.acted ++ [(step, a)] }
        multicast e g (ctlFlit g opSeal 0 step a 0 0)

/-- A bucket that FP2 refuses leaves the links; its task fails (R380, R426). -/
def refuseBucket (e : Engine) (b : Bucket) : Engine :=
  endTask { e with lnk := { e.lnk with buckets := e.lnk.buckets.filter fun x => x.order != b.order } } b.task .link 3 codeTaskInvalid

/-- A valid bucket is admitted (R384). -/
def admitBucket (e : Engine) (old b : Bucket) (g : Group) : Engine :=
  let fresh := (groupAt e g.id g.generation).isNone
  let e := if fresh then newGroup e g else onGroup e g.id g.generation fun x => { x with trees := g.trees, members := g.members }
  let t := elemD g.trees b.tree ⟨0, none, []⟩
  let a := match groupAt e g.id g.generation with | some x => stepAttempt x b.step | none => 0
  let e := onBucket e old.order fun _ => { b with
    order := old.order, group := g.id, generation := g.generation, rank := t.rank, parent := t.parent, children := t.children
    admitted := true, known := true, attempt := a }
  checkSeal (dropStale (earlyJoins e g)) g.id b.step

/-- BUCKET_ADMIT (R384): the oldest dispatched BUCKET task that FP2 has not admitted. -/
def bucketAdmit (m : Mem) (e : Engine) : Engine :=
  let due := e.lnk.buckets.filter fun b => b.dispatched && !b.admitted && b.state == .waiting
  if !running e || !procUp e 2 then e
  else match minBy Bucket.order due with
  | none => e
  | some old =>
    match taskOf e old.task with
    | none => e
    | some t =>
      let a := t.record.arg.toNat
      let bs := viewBytes m e a 64
      let b := parseBucket bs old.task old.step
      let gb := viewBytes m e b.groupAddr 272
      let g := parseGroup gb
      let bad := viewPoisoned m e a 64
      if a % 64 ≠ 0 ∨ !addrOk a then refuseBucket e old
      else if bad then refuseBucket (noteRead e true) old
      else if !bucketOk bs b ∨ (b.broadcast && b.sign) ∨ !layoutOk e b then refuseBucket e old
      else if viewPoisoned m e b.groupAddr 272 then refuseBucket (noteRead e true) old
      else if !groupOk gb g ∨ !portsUp e g ∨ g.trees.length ≤ b.tree then refuseBucket e old
      else admitBucket e old b g

/-! ### BUCKET_ACTIVATE -/

/-- Every bucket of the step with a lower SEQ is ACTIVE, LANDED or DONE (R385). -/
def lowerActive (e : Engine) (b : Bucket) : Bool :=
  let l := e.lnk.buckets.filter fun x => x.dispatched && x.known && x.group == b.group && x.step == b.step && decide (x.seq < b.seq) && x.state != .waiting
  (dedup (l.map Bucket.seq)).length == b.seq

/-- No earlier step of the group is unsealed (R385). -/
def earlierSealed (e : Engine) (b : Bucket) : Bool :=
  e.lnk.buckets.all fun x => !(x.known && x.state != .done && x.group == b.group && decide (x.step < b.step)) ||
    (match groupAt e x.group x.generation with | some g => stepSealed g x.step | none => true)

/-- A region can be read out: its comb's clock runs (R17, R544). -/
def canRead (e : Engine) (r : Region) : Bool :=
  match r.place with
  | .resident c => !(islandOf e c.val).stopped
  | _ => true

/-- The conditions of R385, with no add of its step into the bucket's regions still on its way (R209), and their combs' clocks running
(R17). -/
def canActivate (e : Engine) (b : Bucket) : Bool :=
  b.admitted && b.state == .waiting &&
  decide (countIf (fun x : Bucket => x.state == .active) e.lnk.buckets < Config.activeBuckets) &&
  (e.lnk.buckets.all fun x => !(unsealed x && x.tag == b.tag)) && lowerActive e b && earlierSealed e b &&
  (match groupAt e b.group b.generation with | some g => g.go | none => false) &&
  (b.broadcast || (bucketLayout e b.tag).1.all fun x => canRead e x.1 && !addsOnWay e x.1.handle b.step)

/-- A broadcast's root takes the source into its multicast (R390). -/
def sendSource (m : Mem) (e : Engine) (b : Bucket) : Engine :=
  let fl := (List.range (groupsIn b)).map fun i =>
    let bad := viewPoisoned m e (b.src + 256 * i) 256
    ((none : Option PortId), dataFlit b kResult i bad (viewBytes m e (b.src + 256 * i) 256))
  let e := noteRead e (fl.any fun x => flitPoison x.2)
  onBucket e b.order fun b => { b with out := fl }

/-- The regions of a bucket hold its step until they have been read out: adds of a later step wait (R209), into one that holds nothing
too. -/
def holdRegions (e : Engine) (b : Bucket) : Engine :=
  (bucketLayout e b.tag).1.foldl (fun e x =>
    if x.1.frozen then e else onRegion e x.1.handle fun r => { r with touched := true, step := if r.touched then r.step else b.step }) e

/-- A line of a spilled region that memory returns poisoned as the bucket reads it out (R420). -/
def spilledMarked (m : Mem) (e : Engine) (b : Bucket) : Bool :=
  (bucketLayout e b.tag).1.any fun x => !x.1.frozen && x.1.place == .spilled && viewPoisoned m e x.1.accAddr (4 * x.1.elements)

/-- An ALLREDUCE bucket releases its regions for read-out and forms what it can (R210, R386). -/
def contribute (m : Mem) (e : Engine) (b : Bucket) (r : ReadOut) : Engine :=
  let tainted := match taskOf e b.task with | some t => t.poisonIn | none => false
  let e := noteRead e (spilledMarked m e b)
  let (ops, e) := ownOperands m e b tainted
  let (ops, e) := faultyOps e ops r
  let b := { b with own := ops, reading := true, deadlineOn := b.parent.isNone }
  let e := holdRegions (onBucket e b.order fun _ => b) b
  if b.children.isEmpty then formLeaf e b ops else e

/-- BUCKET_ACTIVATE (R385, R386, R387, R390). -/
def bucketActivate (r : ReadOut) (tag : Nat) (m : Mem) (e : Engine) : Engine :=
  let stopped := match e.sch.run with | some g => g.stop.isSome | none => true
  if !running e || stopped then e
  else match e.lnk.buckets.find? fun b => b.tag == tag && canActivate e b with
  | none => e
  | some b =>
    let b := { b with state := .active }
    let e := onBucket e b.order fun _ => b
    let e := if b.broadcast then (if b.parent.isNone then sendSource m e b else e) else contribute m e b r
    moveMulticasts (replayWaiting e b)

/-! ### Flits leave -/

/-- The bucket whose next contribution flit a port sends (R386): in the order of step and SEQ. -/
def nextUp (e : Engine) (p : PortId) : Option Bucket :=
  let ready (b : Bucket) : Bool := match upFlits e b with | u :: _ => u.offset == b.upNext | [] => false
  let lt (a b : Bucket) : Bool := decide (a.step < b.step ∨ (a.step = b.step ∧ (a.seq < b.seq ∨ (a.seq = b.seq ∧ a.order < b.order))))
  (sortBy lt ((sendsOn e p).filter fun b => upTurn e p b && ready b)).head?

/-- The next contribution or partial-sum flit of a bucket sent (R386, R393). -/
def sendUpFlit (e : Engine) (p : PortId) (b : Bucket) : Engine :=
  match upFlits e b with
  | [] => e
  | u :: rest =>
  let f := dataFlit b (if u.sign then kSign else kFull) u.offset u.poison u.payload
  let e := onPort e p fun q => { sendSequenced q f false with credit0 := q.credit0 - 1 }
  let step := if u.sign then 14 else 1
  let e := endReading (onBucket e b.order fun b => { b with up := rest, upNext := u.offset + step }) b.order
  let last := u.offset % 14 == 13 || u.offset + 1 == groupsIn b
  let e := if b.sign && b.children.isEmpty && !u.sign && last then bump e (.signExpanded p) 1 else e
  bump e (.txFlits p) 1

/-- The next flit held again for resending (R374): one stomped and not yet formed again waits (R375). -/
def resendFlit (e : Engine) (p : PortId) (i : Nat) : Engine :=
  match (portOf e p).held[i]? with
  | none => onPort e p fun q => { q with resend := none }
  | some f =>
    if !crcGood f then e
    else bump (onPort e p fun q => { q with tx := some f, resend := if i + 1 < q.held.length then some (i + 1) else none }) (.retries p) 1

/-- FLIT_SEND (R373 to R376, R386, R400): control before data, resending before new flits, then channel 1, a unicast replay, and
channel 0. -/
def flitSend (e : Engine) (p : PortId) : Engine :=
  let q := portOf e p
  if !linkRuns e p then e
  else match q.uns with
  | f :: l => if q.state = .up ∨ q.state = .waggle then onPort e p fun q => { q with tx := some (sealFlit f), uns := l } else e
  | [] =>
    if q.state ≠ .up then e
    else match q.resend with
    | some i => resendFlit e p i
    | none =>
      if Config.resendWindow ≤ q.held.length then e
      else match q.ctl, q.down, q.replay with
      | f :: l, _, _ => onPort e p fun q => { sendSequenced q f false with ctl := l }
      | [], f :: l, _ => broadcastsOk (bump (onPort e p fun q => { sendSequenced q f false with down := l }) (.txFlits p) 1)
      | [], [], rs =>
        match rs with
        | f :: l =>
          if 0 < q.credit1 then bump (onPort e p fun q => { sendSequenced q f false with replay := l, credit1 := q.credit1 - 1 }) (.txFlits p) 1
          else if 0 < q.credit0 then (match nextUp e p with | some b => sendUpFlit e p b | none => e)
          else e
        | [] =>
          if 0 < q.credit0 then (match nextUp e p with | some b => sendUpFlit e p b | none => e)
          else e

/-- CREDIT_RECEIVE (R376): the partner's credits, with which multicasts move on. -/
def creditTaken (e : Engine) (p : PortId) (f : Flit) : Engine := moveMulticasts (creditReceive e p f)

def execBucketAdmit (rd : List MemLine) (s : State) : Host.Outcome State Fault Refusal := .next (reading s rd bucketAdmit)
def execBucketActivate (tag : BitVec 16) (rd : ReadOut) (s : State) : Host.Outcome State Fault Refusal :=
  .next (reading s rd.rd (bucketActivate rd tag.toNat))
def execDataFlitReceive (p : PortId) (f : Flit) (lane : LaneFault) (s : State) : Host.Outcome State Fault Refusal :=
  .next (crossing s (linkIsland p) (.dataFlitReceive p f lane) fun s => onEngine s fun e => dataReceive e p f lane)
def execResultFlitReceive (p : PortId) (f : RxFlit) (s : State) : Host.Outcome State Fault Refusal :=
  .next (crossing s (linkIsland p) (.resultFlitReceive p f) fun s => onEngine s fun e => resultReceive e p f)
def execCreditReceive (p : PortId) (f : Flit) (s : State) : Host.Outcome State Fault Refusal :=
  .next (crossing s (linkIsland p) (.creditReceive p f) fun s => onEngine s fun e => creditTaken e p f)
def execFlitSend (p : PortId) (s : State) : Host.Outcome State Fault Refusal := .next (onEngine s fun e => flitSend e p)

end Sys2Proof.Machine
end

