-- ==== Sys2Proof/Machine/LinkCtl.lean ====
section
/-! DEFINITION. Machine/LinkCtl.lean: the reduction control messages (R389, R394 to R398, R402), the timers of a bucket (R394, R399,
R402), the patience and the unicast replay (R400). -/

namespace Sys2Proof.Machine

/-! ### Taking a message -/

/-- A control message of an opcode: from a port, where it is sequenced, or the oldest that this device sent itself. The
answer is the message and the port that brought it. -/
def takeMsg (e : Engine) (m : MsgSrc) (op : Nat) : Engine × Option (Flit × Option PortId) :=
  match m with
  | .port p f =>
    if crcGood f && (flitKind f != kControl || msgOp f != op) then (e, none)
    else
      let (e, ok) := rxSequenced e p f
      (e, if ok then some (f, some p) else none)
  | .own =>
    match e.lnk.own.find? fun f => msgOp f == op with
    | some f => ({ e with lnk := { e.lnk with own := dropFirst (fun f => msgOp f == op) e.lnk.own } }, some (f, none))
    | none => (e, none)

/-- A message that goes toward the leader: its group known, and it came from a child or from this device (R377). -/
def upward (e : Engine) (f : Flit) (p : Option PortId) (g : Option Group) (act : Engine → Group → Engine) : Engine :=
  match g, p with
  | some g, some p => if fromChild g p then (if (tree0 g).parent.isSome then sendUp e g f else act e g) else bump e .staleFlits 1
  | some g, none => act e g
  | none, _ => bump e .staleFlits 1

/-- A message from the leader: passed on to the children and acted on; from this device it is the leader's own (R377). -/
def downward (e : Engine) (f : Flit) (p : Option PortId) (g : Option Group) (act : Engine → Group → Engine) : Engine :=
  match g, p with
  | some g, some p => if fromParent g p then act (sendDown e g f) g else bump e .staleFlits 1
  | some g, none => act e g
  | none, _ => bump e .staleFlits 1

/-- The group that a message names, for its step. -/
def msgGroup (e : Engine) (f : Flit) : Option Group := groupFor e f.group.toNat (msgStep f)

/-! ### OK, FAIL, SEAL -/

/-- OK at the leader (R389); after the first FAIL of the attempt it is ignored (R395). -/
def leaderOk (f : Flit) (e : Engine) (g : Group) : Engine :=
  let s := msgStep f
  let a := msgAttempt f
  if a ≠ stepAttempt g s ∨ stepSealed g s ∨ (s, a) ∈ g.acted then e
  else checkSeal (onGroup e g.id g.generation fun g => { g with oks := g.oks ++ [(msgTag f, s, a)] }) g.id s

/-- OK_RECEIVE (R389). -/
def okReceive (e : Engine) (m : MsgSrc) : Engine :=
  match takeMsg e m opOk with
  | (e, some (f, p)) => upward e f p (msgGroup e f) (leaderOk f)
  | (e, none) => e

/-- FAIL at the leader (R395 to R397): the first of the present attempt makes a REPEAT, or an ABANDON past the limit and after a
member's stop. -/
def leaderFail (f : Flit) (e : Engine) (g : Group) : Engine :=
  let s := msgStep f
  let a := msgAttempt f
  if a ≠ stepAttempt g s ∨ stepSealed g s ∨ (s, a) ∈ g.acted then e
  else
    let e := onGroup e g.id g.generation fun g => { g with acted := g.acted ++ [(s, a)] }
    if msgReason f = failStopped then multicast e g (ctlFlit g opAbandon 0 s a failStopped 0)
    else if repeatLimit e < a + 1 then multicast e g (ctlFlit g opAbandon 0 s a (msgReason f) 0)
    else multicast e g (ctlFlit g opRepeat 0 s (a + 1) 0 0)

/-- FAIL_RECEIVE (R395, R396, R397). -/
def failReceive (e : Engine) (m : MsgSrc) : Engine :=
  match takeMsg e m opFail with
  | (e, some (f, p)) => upward e f p (msgGroup e f) (leaderFail f)
  | (e, none) => e

/-- A step is sealed at this member (R389): every LANDED bucket of it is DONE. -/
def sealStep (f : Flit) (e : Engine) (g : Group) : Engine :=
  let s := msgStep f
  if msgAttempt f ≠ stepAttempt g s ∨ stepSealed g s then e
  else
    let e := onGroup e g.id g.generation fun g => { g with sealed := some s }
    (e.lnk.buckets.filter fun b => b.group == g.id && b.step == s && b.known && b.state == .landed).foldl bucketDone e

/-- SEAL_RECEIVE (R389). -/
def sealReceive (e : Engine) (m : MsgSrc) : Engine :=
  match takeMsg e m opSeal with
  | (e, some (f, p)) => downward e f p (msgGroup e f) (sealStep f)
  | (e, none) => e

/-! ### REPEAT and ABANDON -/

/-- A bucket returned to WAITING until its task is dispatched again (R395). -/
def resetBucket (b : Bucket) : Bucket :=
  { b with
    state := .waiting, admitted := false, dispatched := false, own := [], sums := [], up := [], upNext := 0, formed := 0, out := []
    got := 0, drops := [], poisonResult := false, reading := false, deadlineOn := false, failed := false, okSent := false }

/-- Flits of step s or later leave every port (R395). -/
def purgeFlits (e : Engine) (s : Nat) : Engine :=
  let gone (f : Flit) : Bool := decide (s ≤ f.step.toNat)
  let e := { e with lnk := { e.lnk with ports := e.lnk.ports.map (purgePort gone) } }
  dropWaiting e gone

/-- The attempts of a group after REPEAT(s, a) of group g: step s of g under a, and every other step from s on that has a discarded bucket
under the next number (R395 items 1 and 2, assumptions/65). -/
def nextAttempts (e : Engine) (g x : Group) (s a : Nat) : Group :=
  let mine := e.lnk.buckets.filter fun b => b.known && b.group == x.id && b.generation == x.generation && unsealed b && decide (s ≤ b.step)
  let x' := { x with attempt := (dedup (mine.map Bucket.step)).foldl (fun m t => assign m t (lookupD x.attempt t 0 + 1)) x.attempt }
  if x.id = g.id ∧ x.generation = g.generation then { x' with attempt := assign x'.attempt s a, oks := x.oks.filter fun o => decide (o.2.1 < s) } else x'

/-- The attempt of a bucket that waits, as its group has it. -/
def waitAttempt (e : Engine) (b : Bucket) : Nat :=
  match groupAt e b.group b.generation with
  | some g => if b.known then stepAttempt g b.step else b.attempt
  | none => b.attempt

/-- A member repeats a step under a new attempt (R395, trace point 0x000B). -/
def repeatStep (f : Flit) (e : Engine) (g : Group) : Engine :=
  let s := msgStep f
  let a := msgAttempt f
  let stopped : Bool := match e.sch.run with | some r => r.stop.isSome | none => true
  if a ≤ stepAttempt g s ∨ stepSealed g s ∨ stopped then e
  else
    let e := logEvent (bump e .repeats 1) 50 0x000B 0 (leBytes 4 s ++ [BitVec.ofNat 8 a])
    let e := e.lnk.buckets.foldl (fun e b => if s ≤ b.step ∧ b.dispatched then freeOut e b else e) e
    let e := { e with lnk := { e.lnk with groups := e.lnk.groups.map fun x => nextAttempts e g x s a } }
    let later (b : Bucket) : Bucket :=
      if s ≤ b.step ∧ (b.dispatched ∨ b.state = .waiting) then { resetBucket b with attempt := waitAttempt e b } else b
    let e := { e with lnk := { e.lnk with buckets := e.lnk.buckets.map later } }
    stepRepeat (purgeFlits e s) s

/-- REPEAT_RECEIVE (R395, R316). -/
def repeatReceive (e : Engine) (m : MsgSrc) : Engine :=
  match takeMsg e m opRepeat with
  | (e, some (f, p)) => downward e f p (msgGroup e f) (repeatStep f)
  | (e, none) => e

/-- A member stops its graph after an ABANDON of a step that is not sealed (R398). -/
def abandonStep (f : Flit) (e : Engine) (g : Group) : Engine :=
  if stepSealed g (msgStep f) ∨ e.sch.run.isNone then e
  else
    let e := { e with lnk := { e.lnk with abandoned := insertNat g.id e.lnk.abandoned } }
    askStop e (if msgReason f = failStopped then codeGroupAbandon else codeRepeatLimit) 0xF2 noTask

/-- ABANDON_RECEIVE (R398). -/
def abandonReceive (e : Engine) (m : MsgSrc) : Engine :=
  match takeMsg e m opAbandon with
  | (e, some (f, p)) => downward e f p (msgGroup e f) (abandonStep f)
  | (e, none) => e

/-! ### JOIN and GO -/

/-- JOIN_RECEIVE (R402): for a generation that this device does not know yet, it waits. -/
def joinReceive (e : Engine) (m : MsgSrc) : Engine :=
  match takeMsg e m opJoin with
  | (e, some (f, p)) =>
    (match groupAt e f.group.toNat (msgGen f), p with
     | some g, some p => if fromChild g p then handleJoin e g f else bump e .staleFlits 1
     | some g, none => handleJoin e g f
     | none, some p => { e with lnk := { e.lnk with early := e.lnk.early ++ [(p, f)] } }
     | none, none => e)
  | (e, none) => e

/-- GO_RECEIVE (R402): the generation's buckets may become ACTIVE. -/
def goReceive (e : Engine) (m : MsgSrc) : Engine :=
  match takeMsg e m opGo with
  | (e, some (f, p)) =>
    downward e f p (groupAt e f.group.toNat (msgGen f)) fun e g => onGroup e g.id g.generation fun g => { g with go := true }
  | (e, none) => e

/-! ### Timers -/

/-- BUCKET_DEADLINE (R394): at the root, before its last result flit has formed. -/
def bucketDeadline (e : Engine) (tag : Nat) : Engine :=
  match activeTag e tag with
  | some b => if b.deadlineOn && hubAlive e then failBucket (bump e .deadlineExp 1) b failDeadline else e
  | none => e

/-- A member has finished sending its contributions for a step (R399). -/
def contributed (e : Engine) (b : Bucket) : Bool :=
  e.lnk.buckets.all fun x => !(x.known && x.group == b.group && x.step == b.step) || x.state == .landed || x.state == .done ||
    (x.state == .active && (x.broadcast || x.parent.isNone || decide (groupsIn x ≤ x.upNext)))

/-- The step of a bucket has been sealed here. -/
def sealedOf (e : Engine) (b : Bucket) : Bool :=
  match groupAt e b.group b.generation with | some g => stepSealed g b.step | none => false

/-- SEAL_WAIT_TIMEOUT (R399): neither SEAL nor REPEAT within twice the deadline. -/
def sealWait (e : Engine) (tag : Nat) : Engine :=
  match e.lnk.buckets.find? fun b => unsealed b && b.tag == tag with
  | some b => if contributed e b && !sealedOf e b && hubAlive e then askStop e codeLinkLost 0xF2 noTask else e
  | none => e

/-- JOIN_TIMEOUT (R402): an admitted bucket's group has received no GO within its deadline; a leader sends none after that. -/
def joinTimeout (e : Engine) (id : Nat) : Engine :=
  let waits (b : Bucket) : Bool := b.admitted && b.state == .waiting && b.group == id &&
    (match groupAt e id b.generation with | some g => !g.go | none => false)
  let late (g : Group) : Group := if g.id = id ∧ g.go = false then { g with late := true } else g
  if e.lnk.buckets.any waits && hubAlive e then
    askStop { e with lnk := { e.lnk with groups := e.lnk.groups.map late } } codeJoinTimeout 0xF2 noTask
  else e

/-! ### The patience -/

/-- A child port holds a bucket's multicast back (R400). -/
def heldBack (e : Engine) (p : PortId) (b : Bucket) : Bool := !b.out.isEmpty && decide (p ∈ openKids b) && !hasCredit e p

/-- PATIENCE_EXPIRY (R400): the port is dropped from the multicast that it has held back. -/
def patienceExpiry (e : Engine) (p : PortId) : Engine :=
  match minBy Bucket.order (e.lnk.buckets.filter (heldBack e p)) with
  | some b =>
    if linkRuns e p then moveMulticasts (bump (onBucket e b.order fun b => { b with drops := b.drops ++ [(p, b.got)] }) .dropped 1) else e
  | none => e

/-- Flit i of a bucket's result, read back from RESULT_ADDR. -/
def replayFlit (m : Mem) (e : Engine) (b : Bucket) (i : Nat) : Flit :=
  let n := if b.resultF32 then 512 else 256
  let a := b.result + n * i
  let vals := (List.range 128).map fun j =>
    if b.resultF32 then f32ToBF16 (w32 (viewNat m e (a + 4 * j) 4)) else viewNat m e (a + 2 * j) 2
  dataFlit b kResult i (viewPoisoned m e a n) (fullPayload vals)

/-- UNICAST_REPLAY (R400): once the multicast is complete, what a dropped port has not accepted is read from memory and sent to
it alone. -/
def unicastReplay (p : PortId) (m : Mem) (e : Engine) : Engine :=
  let due (b : Bucket) : Bool := (b.state == .landed || b.state == .done) && b.drops.any fun d => d.1 == p
  match minBy Bucket.order (e.lnk.buckets.filter due) with
  | none => e
  | some b =>
    if !hubAlive e then e
    else
      let first := match b.drops.find? fun d => d.1 == p with | some d => d.2 | none => 0
      let fl := (span first (groupsIn b - first)).map (replayFlit m e b)
      let e := onPort e p fun q => { q with replay := q.replay ++ fl }
      bump (onBucket e b.order fun b => { b with drops := b.drops.filter fun d => d.1 != p }) .replays 1

def execOkReceive (m : MsgSrc) (s : State) : Host.Outcome State Fault Refusal :=
  .next (crossing s (msgIsland m) (.okReceive m) fun s => onEngine s fun e => okReceive e m)
def execFailReceive (m : MsgSrc) (s : State) : Host.Outcome State Fault Refusal :=
  .next (crossing s (msgIsland m) (.failReceive m) fun s => onEngine s fun e => failReceive e m)
def execSealReceive (m : MsgSrc) (s : State) : Host.Outcome State Fault Refusal :=
  .next (crossing s (msgIsland m) (.sealReceive m) fun s => onEngine s fun e => sealReceive e m)
def execRepeatReceive (m : MsgSrc) (s : State) : Host.Outcome State Fault Refusal :=
  .next (crossing s (msgIsland m) (.repeatReceive m) fun s => onEngine s fun e => repeatReceive e m)
def execAbandonReceive (m : MsgSrc) (s : State) : Host.Outcome State Fault Refusal :=
  .next (crossing s (msgIsland m) (.abandonReceive m) fun s => onEngine s fun e => abandonReceive e m)
def execJoinReceive (m : MsgSrc) (s : State) : Host.Outcome State Fault Refusal :=
  .next (crossing s (msgIsland m) (.joinReceive m) fun s => onEngine s fun e => joinReceive e m)
def execGoReceive (m : MsgSrc) (s : State) : Host.Outcome State Fault Refusal :=
  .next (crossing s (msgIsland m) (.goReceive m) fun s => onEngine s fun e => goReceive e m)
def execBucketDeadline (tag : BitVec 16) (s : State) : Host.Outcome State Fault Refusal :=
  .next (onEngine s fun e => bucketDeadline e tag.toNat)
def execSealWaitTimeout (tag : BitVec 16) (s : State) : Host.Outcome State Fault Refusal :=
  .next (onEngine s fun e => sealWait e tag.toNat)
def execJoinTimeout (group : Byte) (s : State) : Host.Outcome State Fault Refusal :=
  .next (onEngine s fun e => joinTimeout e group.toNat)
def execPatienceExpiry (p : PortId) (s : State) : Host.Outcome State Fault Refusal :=
  .next (onEngine s fun e => patienceExpiry e p)
def execUnicastReplay (p : PortId) (rd : List MemLine) (s : State) : Host.Outcome State Fault Refusal :=
  .next (reading s rd (unicastReplay p))

end Sys2Proof.Machine
end

