-- ==== Sys2Proof/Machine/Stop.lean ====
section
/-! DEFINITION. Machine/Stop.lean: the running graph stops (R315, R397, R420). -/

namespace Sys2Proof.Machine

/-- A frame abandons its uncommitted intervals; committed rows stay (R103, R315). -/
def abandonIntervals (fr : Frame) : Frame :=
  { fr with
    mode := .idle, cells := [], pipe := [], nextB := false, jobs := [], steps := [], flight := [], flush := 0
    high := [], passes := [], drainOnly := none, held := [], banks := [none, none, none, none], smooth := [] }

/-- Rows of a frame's committed intervals leave as far as they can (R420: lines already committed are written). -/
def flushFrame (m : Mem) (c : CombId) (e : Engine) (f : FrameId) : Engine :=
  (List.range (64 * (frameOf e c f).out.length)).foldl (fun e _ => writeout m e c f {}) e

/-- Every frame abandons its uncommitted intervals, and committed rows are written out. -/
def haltFrames (m : Mem) (e : Engine) : Engine :=
  let e := mapCombs e fun cb => { cb with frames := cb.frames.map abandonIntervals }
  (enabledCombs e).foldl (fun e c => allFrames.foldl (flushFrame m c) e) e

/-- The error code with which a task has failed that a stop of the poison policy finds (R142, R248, R289). Any other stop abandons
every task (R315, assumptions/113). -/
def failedCode (stop : Nat) (t : Task) : Option Nat :=
  if stop ≠ codeHalted ∧ stop ≠ codePageFaultRead then none
  else match t.life with
  | .ended _ 3 code => some code
  | .running _ => t.failed.or t.late
  | _ => none

/-- The unit of a dispatched task. -/
def unitOf (t : Task) : Option ExecUnit :=
  match t.life with
  | .running u => some u
  | .ended u _ _ => some u
  | _ => none

/-- A dispatched, uncompleted task's record: FAILED where it has failed, else ABANDONED with the stop's code (R315, R420, R421). -/
def stopTask (code : Nat) (failed : Bool) (e : Engine) (t : Task) : Engine :=
  match unitOf t, failedCode code t with
  | some u, some k => if failed then writeCompletion e t u 3 k else e
  | some u, none => if failed then e else writeCompletion e t u 4 code
  | none, _ => e

/-- The steps and groups with unsealed buckets, by one bucket of each. -/
def unsealedSteps (e : Engine) : List Bucket :=
  (e.lnk.buckets.filter fun b => b.known && b.state != .done).foldl (fun acc b =>
    if acc.any fun x => x.group == b.group && x.generation == b.generation && x.step == b.step then acc else acc ++ [b]) []

/-- A stop told to the leader of a bucket's group (R397): where this device leads it, it acts on its own FAIL at once, since what it keeps of
the group ends with its graph. -/
def tellStop (e : Engine) (b : Bucket) : Engine :=
  match groupAt e b.group b.generation with
  | some g => if (tree0 g).parent.isNone then leaderFail (ctlFlit g opFail b.tag b.step b.attempt failStopped 0) e g else tellLeader e b opFail failStopped
  | none => e

/-- A member whose graph stops with unsealed buckets tells their leader (R397), but one whose ABANDON it has received. -/
def tellStopped (e : Engine) : Engine := ((unsealedSteps e).filter fun b => b.group ∉ e.lnk.abandoned).foldl tellStop e

/-- The code that a graph's stop reports: a write fault that came before the stop is the first of R420's codes. -/
def stopReport (g : Graph) (code : Nat) : Nat :=
  if code = codeHalted ∧ g.tasks.any fun t => t.late == some codePageFault then codePageFault else code

/-- GRAPH_STOP (R315): a stop that has been asked for is carried out. -/
def graphStop (m : Mem) (e : Engine) : Engine :=
  match e.sch.run with
  | none => e
  | some g =>
    match g.stop with
    | none => e
    | some code =>
      if !hubAlive e then e
      else
        let e := haltFrames m e
        let tasks := match e.sch.run with | some g => g.tasks | none => []
        let e := tasks.foldl (stopTask code true) e
        let e := tasks.foldl (stopTask code false) e
        let e := captureErr e g.stopUnit.toNat code g.stopTask
        let e := if code = codeAborted then e else raiseErr e errGraphStopped
        let e := tellStopped e
        endGraph e (if code = codeAborted then 3 else 1) (match e.sch.run with | some g => stopReport g code | none => code)

def execGraphStop (s : State) : Host.Outcome State Fault Refusal := .next (reading s [] graphStop)

end Sys2Proof.Machine
end

