-- ==== Sys2Proof/Machine/Mailbox.lean ====
section
/-! DEFINITION. Machine/Mailbox.lean: the mailboxes, the commands of Table 16-4, driver loss and adoption (R508 to R519,
R526, R530 to R534). -/

namespace Sys2Proof.Machine

/-! ### Sending, taking and answering -/

/-- SEND (R509): BUSY is set and the hub time kept; while BUSY it is an ignored write. -/
def send (e : Engine) : Engine :=
  if e.mbx.busy then bump e .mbxIgnored 1
  else { e with mbx := { e.mbx with busy := true, lastSend := some e.hub.cycle } }

/-- POP (R512): the oldest message leaves; IRQ_EN takes the written value. -/
def pop (e : Engine) (v : Word) : Engine :=
  let e := storeRw e .mbxRspCtrl v
  fillResponses { e with mbx := { e.mbx with ring := e.mbx.ring.drop 1 } }

/-- Opcodes of Table 16-4. -/
def opHello : Nat := 0x01
def opHeartbeat : Nat := 0x02
def opSubmit : Nat := 0x03
def opAbort : Nat := 0x04
def opFence : Nat := 0x05
def opUnfence : Nat := 0x06
def opModeSet : Nat := 0x07
def opCheckpoint : Nat := 0x08
def opLogQuery : Nat := 0x09
def opPark : Nat := 0x0A
def opAdopt : Nat := 0x0B

/-- The processor that serves an opcode (Table 16-1); none for an unknown opcode. -/
def msgOwner (op : Nat) : Option Nat :=
  if op = opModeSet then some 0
  else if op = opHeartbeat ∨ op = opLogQuery then some 3
  else if opHello ≤ op ∧ op ≤ opAdopt then some 1
  else none

/-- Payload words that an opcode needs (Table 16-4). -/
def msgWords (op : Nat) : Nat :=
  if op = opSubmit ∨ op = opCheckpoint then 3
  else if op = opHello then 2
  else if op = opAbort ∨ op = opFence ∨ op = opUnfence ∨ op = opModeSet then 1
  else 0

/-- The minor that introduced an opcode (Table 16-4). -/
def msgSince (op : Nat) : Nat := if op = opPark then 2 else if op = opCheckpoint then 1 else 0

/-- The engine states in which an opcode is served (Table 16-4). -/
def msgServed (op : Nat) (st : EngState) : Bool :=
  st == .run ||
  (st == .orphaned && (op == opHello || op == opHeartbeat || op == opLogQuery || op == opAdopt)) ||
  (st == .refused && (op == opHello || op == opHeartbeat || op == opLogQuery)) ||
  (st == .fwCheck && op == opHello)

/-- The commands that need an adopted host (text after Table 16-4). -/
def msgAdopted (op : Nat) : Bool := decide (opSubmit ≤ op ∧ op ≤ opCheckpoint) || op == opPark

/-- FP3 may take a command (R510, R529); in IDLE it returns to ACTIVE first. -/
def intakeReady (e : Engine) : Bool :=
  procUp e 3 && e.pwr.pstate == .active && e.mbx.busy &&
    decide (e.mbx.ring.length + Config.intakeRoom ≤ Config.ringMessages)

/-- The command in the mailbox. -/
def mailboxMsg (e : Engine) : Taken :=
  let h := rwVal e .mbxCmdHdr
  let len := rwVal e .mbxCmdLen
  { len := len
    msg := {
      major := BitVec.ofNat 8 (bits h 24 8), minor := BitVec.ofNat 8 (bits h 16 8), opcode := BitVec.ofNat 8 (bits h 8 8)
      seq := BitVec.ofNat 8 (bits h 0 8)
      words := (List.range (min 16 len)).map fun i => w32 (rwVal e (.mbxCmdData (Fin.ofNat 16 i))) } }

/-- The status code of an opcode that no processor serves (R514, Table 16-3). -/
def unknownCode (e : Engine) (m : Msg) : Nat := if e.mbx.stated = some (m.major, m.minor) then 2 else 1

/-- COMMAND_INTAKE (R510): BUSY falls as FP3 copies the command and passes it to its owner. -/
def intake (e : Engine) : Engine :=
  if !intakeReady e then e
  else
    let t := mailboxMsg e
    let e := leaveWfi { e with mbx := { e.mbx with busy := false } }
    match msgOwner t.msg.opcode.toNat with
    | some _ => { e with mbx := { e.mbx with taken := e.mbx.taken ++ [t] } }
    | none => reply e t.msg (unknownCode e t.msg) []

/-- A taken command belongs to processor p. -/
def ownedBy (p : Nat) (t : Taken) : Bool := msgOwner t.msg.opcode.toNat == some p

/-- The oldest command of processor p, where p is up and the command is of the given opcode (R505, R530). -/
def frontFor (e : Engine) (p op : Nat) : Option Taken :=
  if procUp e p && awake e then
    (e.mbx.taken.find? (ownedBy p)).bind fun t => if t.msg.opcode.toNat = op then some t else none
  else none

/-- The oldest command of processor p leaves its list. -/
def takeFront (e : Engine) (p : Nat) : Engine :=
  { e with mbx := { e.mbx with taken := dropFirst (ownedBy p) e.mbx.taken } }

/-- A payload word of a command. -/
def msgWord (m : Msg) (i : Nat) : Nat := (elemD m.words i 0).toNat

/-- The status code with which a command other than HELLO is turned away before its arguments are read; 0: none (R514, R517, Table
16-3). The order of the checks is DEDUCED from the order of the codes (assumptions/67). -/
def screen (e : Engine) (t : Taken) : Nat :=
  let op := t.msg.opcode.toNat
  if e.mbx.stated ≠ some (t.msg.major, t.msg.minor) then 1
  else if (negotiated e).2.toNat < msgSince op then 2
  else if 16 < t.len ∨ t.len < msgWords op then 3
  else if !msgServed op e.boot.state then 7
  else if msgAdopted op && (e.mbx.host == .draining || e.mbx.host == .orphaned) then 6
  else 0

/-- Processor p serves its oldest command, when it is of opcode `op`: turned away under `screen`, or carried out. -/
def serve (e : Engine) (p op : Nat) (f : Msg → Engine → Engine) : Engine :=
  match frontFor e p op with
  | none => e
  | some t =>
    let code := screen e t
    let e := leaveWfi (takeFront e p)
    if code = 0 then f t.msg e else reply e t.msg code []

/-! ### HELLO and HEARTBEAT -/

/-- Graphs submitted and not done (R293). -/
def notDone (e : Engine) : Nat := e.sch.queue.length + b2n e.sch.run.isSome + e.mbx.doneWaits.length

/-- GRAPH_ID of the running graph as HELLO answers it. -/
def runningWord (e : Engine) : Word := match e.sch.run with | some g => w32 g.sub.gid | none => 0xFFFFFFFF

/-- The words of an OK reply to HELLO after its status. -/
def helloWords (e : Engine) : List Word :=
  [e.boot.fwInfo, w32 (stateCode e.boot.state), w32 (hostCode e.mbx.host), w32 (notDone e), runningWord e,
    w32 e.mbx.ring.length]

/-- An accepted HELLO (R514, R515, R516); while DRAINING or ORPHANED it sets the stated version only (R516). -/
def helloOk (e : Engine) (m : Msg) : Engine :=
  let v := msgWord m 0
  let lost := e.mbx.host == .draining || e.mbx.host == .orphaned
  let e := { e with
    boot := { e.boot with state := if e.boot.state == .fwCheck then .run else e.boot.state }
    mbx := { e.mbx with
      stated := some (m.major, m.minor), helloLost := lost
      hbTimeout := if lost then e.mbx.hbTimeout else if v = 0 then 2000 else v
      host := if lost then e.mbx.host else .live, hbRunning := e.mbx.hbRunning || !lost } }
  reply e m 0 (helloWords e)

/-- A HELLO that states another major (R515). -/
def helloOther (e : Engine) (m : Msg) : Engine :=
  let e := if e.boot.state == .fwCheck then { e with boot := { e.boot with state := .refused, fw := .refused } } else e
  reply e m 1 []

/-- HELLO (R515). -/
def hello (e : Engine) : Engine :=
  match frontFor e 1 opHello with
  | none => e
  | some t =>
    let e := leaveWfi (takeFront e 1)
    let v := msgWord t.msg 0
    if t.msg.major ≠ e.boot.fwMajor then helloOther e t.msg
    else if 16 < t.len ∨ t.len < 2 then reply e t.msg 3 []
    else if !msgServed opHello e.boot.state then reply e t.msg 7 []
    else if v ≠ 0 ∧ (v < 100 ∨ 60000 < v) then reply e t.msg 4 []
    else helloOk e t.msg

/-- HEARTBEAT (Table 16-4). -/
def heartbeat (e : Engine) : Engine :=
  serve e 3 opHeartbeat fun m e => reply e m 0 [w32 (stateCode e.boot.state), w32 (hostCode e.mbx.host)]

/-! ### Graphs -/

/-- FP1's queue has room (R293). -/
def graphRoom (e : Engine) : Bool := decide (notDone e < Config.graphQueue)

/-- A GRAPH_ID taken in rotation, 0 to 254 (Table 16-4). -/
def takeGid (e : Engine) : Nat × Engine :=
  let n := e.sch.nextGid
  (n, { e with sch := { e.sch with nextGid := (n + 1) % 255, done := e.sch.done.filter (· ≠ n) } })

/-- An address of two payload words, aligned to n bytes and within the address space. -/
def msgAddr (m : Msg) (i n : Nat) : Option Nat :=
  let a := msgWord m i + msgWord m (i + 1) * 2 ^ 32
  if a < 2 ^ 52 ∧ a % n = 0 then some a else none

/-- GRAPH_SUBMIT (R293). -/
def graphSubmit (e : Engine) : Engine :=
  serve e 1 opSubmit fun m e =>
    match msgAddr m 0 128 with
    | none => reply e m 4 []
    | some a =>
      if !graphRoom e then reply e m 5 []
      else
        let (gid, e) := takeGid e
        let s : Submitted := { gid := gid, addr := a, cookie := w32 (msgWord m 2) }
        reply { e with sch := { e.sch with queue := e.sch.queue ++ [s] } } m 0 [w32 gid]

/-- GRAPH_ABORT (R315, Table 16-4): a queued graph is removed; a running graph's stop is asked for, and the answer waits for its
end. -/
def abortGraph (e : Engine) (m : Msg) : Engine :=
  let gid := msgWord m 0
  if 254 < gid then reply e m 4 []
  else match e.sch.queue.find? fun s => s.gid == gid with
  | some s =>
    let e := { e with sch := { e.sch with queue := e.sch.queue.filter fun s => s.gid ≠ gid } }
    reply (reportDone e s 3 codeAborted noTask e.sch.completedCount) m 0 []
  | none =>
    if e.sch.run.any fun g => g.sub.gid == gid then
      askStop { e with mbx := { e.mbx with abortReplies := e.mbx.abortReplies ++ [(gid, m)] } } codeAborted 0xF0 noTask
    else reply e m (if gid ∈ e.sch.done then 0 else 9) []

/-- GRAPH_ABORT. -/
def graphAbort (e : Engine) : Engine := serve e 1 opAbort fun m e => abortGraph e m

/-- The 512-byte part of FP1's own area that a new checkpoint graph takes (R519): the lowest that no graph holds. -/
def ckptSlot (e : Engine) : Nat :=
  let held := e.sch.queue.filterMap Submitted.ckpt ++
    (match e.sch.run with | some g => g.sub.ckpt.toList | none => [])
  ((List.range Config.graphQueue).find? fun k => decide (k ∉ held)).getD 0

/-- The header of a checkpoint graph (R519, Table 09-1): its task lies at offset 128, its completion record at 256. -/
def ckptHeader (table : Option (Nat × Nat)) : List Byte :=
  let (va, ve) := table.getD (0, 0)
  leBytes 4 0x57324752 ++ [1, 0, 1, 1] ++ leBytes 4 1 ++ [0, 0] ++ leBytes 2 0 ++ leBytes 2 ve ++ leBytes 2 0 ++ leBytes 4 0 ++
    leBytes 8 128 ++ leBytes 8 0 ++ leBytes 8 0 ++ leBytes 8 va ++ leBytes 8 0 ++ leBytes 8 0 ++ leBytes 8 256 ++ leBytes 8 0 ++
    List.replicate 40 0

/-- The task record of a checkpoint graph (R519, Table 09-3): kind CHECKPOINT, class 3, any comb. -/
def ckptTask (arg step : Nat) : List Byte :=
  [BitVec.ofNat 8 kCKPT, 3, 0, 0] ++ leBytes 4 step ++ List.replicate 15 0 ++ [0xFF] ++ List.replicate 80 0 ++ leBytes 8 arg ++
    List.replicate 16 0

/-- CHECKPOINT_REQUEST (R519). -/
def checkpointRequest (e : Engine) : Engine :=
  serve e 1 opCheckpoint fun m e =>
    if !graphRoom e then reply e m 5 []
    else
      let k := ckptSlot e
      let arg := msgWord m 0 + msgWord m 1 * 2 ^ 32
      let (gid, e) := takeGid e
      let area := cellsPutAll e.sch.ckptArea (512 * k)
        (ckptHeader e.sch.lastTable ++ ckptTask arg (msgWord m 2) ++ List.replicate 256 0)
      let s : Submitted := { gid := gid, addr := 0, cookie := 0, ckpt := some k }
      reply { e with sch := { e.sch with queue := s :: e.sch.queue, ckptArea := area } } m 0 [w32 gid]

/-! ### Fences, envelopes, the log -/

/-- The comb that a command's word 0 names. -/
def msgComb (m : Msg) : Option CombId := if h : msgWord m 0 < 50 then some ⟨msgWord m 0, h⟩ else none

/-- FENCE_REQUEST (R413): a comb already fenced is answered OK. Under pad hold a fence that would write the running graph's regions waits
for the release (R562; DESIGN CHOICE, assumptions/152). -/
def fenceRequest (e : Engine) : Engine :=
  if e.pwr.padHold && e.sch.run.isSome then e
  else serve e 1 opFence fun m e =>
    match msgComb m with
    | none => reply e m 4 []
    | some c => reply (if enabled e c then fenceComb e c 4 0 else e) m 0 []

/-- UNFENCE_REQUEST (R415): UNFENCE_PENDING is set; not for a comb that is not fenced or fenced by fuse, nor for more than 48 combs
(R11). -/
def unfenceRequest (e : Engine) : Engine :=
  serve e 1 opUnfence fun m e =>
    match msgComb m with
    | none => reply e m 4 []
    | some c =>
      let f := fenceOf e c
      if f.cause ≤ 1 then reply e m 8 []
      else if f.pending then reply e m 0 []
      else if Config.maxEnabled ≤ admitCount e then reply e m 8 []
      else reply { e with fences := updAt e.fences c.val fun f => { f with pending := true } } m 0 []

/-- MODE_SET (R539): FP0 starts the change, and the answer comes as it completes; a second command waits for the first. -/
def modeSet (e : Engine) : Engine :=
  if e.mbx.modeReply.isSome then e
  else serve e 0 opModeSet fun m e =>
    if 2 < msgWord m 0 then reply e m 4 []
    else setEnvelope { e with mbx := { e.mbx with modeReply := some m } } (msgWord m 0)

/-- LOG_QUERY (R526): answered once every shadow record that fits has been moved. -/
def logQuery (e : Engine) : Engine :=
  serve e 3 opLogQuery fun m e =>
    logFlush { e with log := { e.log with queries := e.log.queries ++ [m] } }

/-! ### Driver loss and adoption -/

/-- FP1 starts driver-loss handling (R532): kind 0 is the timeout, 1 PARK. -/
def drainHost (e : Engine) (kind : Nat) : Engine :=
  let e := leaveWfi { e with mbx := { e.mbx with host := .draining } }
  orphanIfDue (logEvent e 55 0x0005 (fwFlags 1) [BitVec.ofNat 8 kind])

/-- PARK (R532): answered when the engine is ORPHANED. -/
def park (e : Engine) : Engine :=
  serve e 1 opPark fun m e => drainHost { e with mbx := { e.mbx with parkReplies := e.mbx.parkReplies ++ [m] } } 1

/-- An accepted ADOPT (R534). -/
def adoptOk (e : Engine) (m : Msg) : Engine :=
  let prev := hostCode e.mbx.host
  let count := e.mbx.ring.length
  let e := { e with
    boot := { e.boot with state := if e.boot.state == .orphaned then .run else e.boot.state }
    mbx := { e.mbx with host := .live, hbRunning := true } }
  let e := logEvent e 55 0x0007 (fwFlags 1) [BitVec.ofNat 8 prev]
  reply e m 0 [w32 (notDone e), w32 count]

/-- ADOPT (R534). -/
def adopt (e : Engine) : Engine :=
  serve e 1 opAdopt fun m e => if e.mbx.helloLost || e.mbx.host == .live then adoptOk e m else reply e m 8 []

/-- HEARTBEAT_TIMEOUT (R531, R532): in IDLE it wakes the engine first, and while FP1 is down it waits for READY. -/
def hbTimeout (e : Engine) : Engine :=
  if e.mbx.host == .live && e.mbx.hbRunning && e.boot.state == .run && awake e then
    if e.pwr.pstate == .idle || !procUp e 1 then { e with mbx := { e.mbx with expired := true } } else drainHost e 0
  else e

def execSend (src : WriteSrc) (s : State) : Host.Outcome State Fault Refusal :=
  .next (bySourceIf s src .mbxCmdCtrl (fun v => bit v.toNat 0) fun _ e => send e)
def execCommandIntake (s : State) : Host.Outcome State Fault Refusal := .next (onEngine s intake)
def execPop (src : WriteSrc) (s : State) : Host.Outcome State Fault Refusal :=
  .next (bySourceIf s src .mbxRspCtrl (fun v => bit v.toNat 31) fun v e => pop e v)
def execHello (s : State) : Host.Outcome State Fault Refusal := .next (onEngine s hello)
def execHeartbeat (s : State) : Host.Outcome State Fault Refusal := .next (onEngine s heartbeat)
def execGraphSubmit (s : State) : Host.Outcome State Fault Refusal := .next (onEngine s graphSubmit)
def execGraphAbort (s : State) : Host.Outcome State Fault Refusal := .next (onEngine s graphAbort)
def execFenceRequest (s : State) : Host.Outcome State Fault Refusal := .next (onEngine s fenceRequest)
def execUnfenceRequest (s : State) : Host.Outcome State Fault Refusal := .next (onEngine s unfenceRequest)
def execModeSet (s : State) : Host.Outcome State Fault Refusal := .next (onEngine s modeSet)
def execCheckpointRequest (s : State) : Host.Outcome State Fault Refusal := .next (onEngine s checkpointRequest)
def execLogQuery (s : State) : Host.Outcome State Fault Refusal := .next (onEngine s logQuery)
def execPark (s : State) : Host.Outcome State Fault Refusal := .next (onEngine s park)
def execAdopt (s : State) : Host.Outcome State Fault Refusal := .next (onEngine s adopt)
def execHeartbeatTimeout (s : State) : Host.Outcome State Fault Refusal := .next (onEngine s hbTimeout)

end Sys2Proof.Machine
end

