-- ==== Sys2Proof/Machine/Side.lean ====
section
/-! DEFINITION. Machine/Side.lean: the sideband target (R459 to R463) and the test port's instructions that only select a
register (R476, R477). -/

namespace Sys2Proof.Machine

/-- TEMP_MAX (Table 14-8): the hottest valid sensor in whole degrees, rounded down; with no valid sensor the spec states
no value, and a free one is drawn. -/
def tempMax (e : Engine) : Byte × Engine :=
  match hottest e with
  | some t => (BitVec.ofInt 8 (t / 16), e)
  | none => let (n, e) := drawFree e; (Config.freeByte n, e)

/-- Items 0x02 to 0x07 of Table 14-8 as they stand. -/
def liveItem (e : Engine) (i : Nat) : Byte × Engine :=
  match i with
  | 2 => (BitVec.ofNat 8 (stateCode e.boot.state), e)
  | 3 => (if e.boot.state == .run then BitVec.ofNat 8 (pstateCode e.pwr.pstate) else 0, e)
  | 4 => (BitVec.ofNat 8 e.pwr.envelope, e)
  | 5 => tempMax e
  | 6 => (BitVec.ofNat 8 (b2n e.pwr.stale), e)
  | _ => (e.hub.errStatus, e)

/-- Items 0x02 to 0x07 in order, each drawn in turn; frozen at entry into NAP or HIBERNATE (R463 text). -/
def liveItems (e : Engine) : List Byte × Engine :=
  (List.range 6).foldl (fun (acc : List Byte × Engine) i => let (b, e) := liveItem acc.2 (i + 2); (acc.1 ++ [b], e)) ([], e)

/-- An item of Table 14-8; reserved items read 0x00. -/
def sbItem (e : Engine) (i : Nat) : Byte × Engine :=
  if i = 0x00 then (0x57, e)
  else if i = 0x01 then (0x01, e)
  else if 2 ≤ i ∧ i ≤ 7 then
    match e.sb.frozen with
    | some l => (elemD l (i - 2) 0, e)
    | none => liveItem e i
  else if i = 0x08 then (e.sb.wakeCause, e)
  else if 0x10 ≤ i ∧ i ≤ 0x17 then (BitVec.ofNat 8 ((fuseWord e 0 + fuseWord e 1 * 2 ^ 32) / 256 ^ (i - 0x10)), e)
  else if i = 0x30 then (e.sb.scratch, e)
  else (0, e)

/-- SB_ADDRESS_MATCH (R459 to R461): only its own address is acknowledged; in NAP and HIBERNATE each match is a wake
event, latched and counted. -/
def sbMatch (e : Engine) (addr : BitVec 7) (dir : SbDir) : Engine :=
  if e.boot.state == .off then e
  else if addr ≠ e.boot.cfg.sbAddr then { e with sb := { e.sb with ack := false, dir := none } }
  else
    let e := { e with sb := { e.sb with ack := true, dir := some dir, first := true } }
    if asleep e then bump { e with pwr := { e.pwr with wakeLatched := true } } .sbWakes 1 else e

/-- SB_WRITE_BYTE (R462): the first byte sets the pointer; later ones write the item there and advance it. -/
def sbWrite (e : Engine) (b : Byte) : Engine :=
  if e.sb.dir ≠ some .write then e
  else if e.sb.first then { e with sb := { e.sb with ptr := b, first := false, ack := true } }
  else
    let sb := if e.sb.ptr = 0x30 then { e.sb with scratch := b } else e.sb
    { e with sb := { sb with ptr := e.sb.ptr + 1, ack := true } }

/-- SB_READ_BYTE (R462): the item at the pointer, which then advances. -/
def sbRead (e : Engine) : Engine :=
  if e.sb.dir ≠ some .read then e
  else
    let (b, e) := sbItem e e.sb.ptr.toNat
    { e with sb := { e.sb with out := b, ptr := e.sb.ptr + 1 } }

/-- The test port takes instructions: powered, and not held in NAP or HIBERNATE (R478). -/
def tapOn (e : Engine) : Bool := e.boot.state != .off && awake e

/-- TEST_LOCK (R477). -/
def testLocked (e : Engine) : Bool := bit (fuseWord e 18) 31

/-- The registers that an instruction selects. -/
def drBypass : Nat := 0
def drId : Nat := 1
def drScan : Nat := 2
def drMbist : Nat := 3

/-- The 32-bit identification register (R476). -/
def idcodeValue : Word := 0x15702B67

/-- The controller's state diagram (R476, IEEE 1149.1): the next state at a rising edge of tck. -/
def tapNext (s : TapState) (tms : Bool) : TapState :=
  match s, tms with
  | .reset, false => .idle | .reset, true => .reset
  | .idle, false => .idle | .idle, true => .selectDr
  | .selectDr, false => .captureDr | .selectDr, true => .selectIr
  | .captureDr, false => .shiftDr | .captureDr, true => .exit1Dr
  | .shiftDr, false => .shiftDr | .shiftDr, true => .exit1Dr
  | .exit1Dr, false => .pauseDr | .exit1Dr, true => .updateDr
  | .pauseDr, false => .pauseDr | .pauseDr, true => .exit2Dr
  | .exit2Dr, false => .shiftDr | .exit2Dr, true => .updateDr
  | .updateDr, false => .idle | .updateDr, true => .selectDr
  | .selectIr, false => .captureIr | .selectIr, true => .reset
  | .captureIr, false => .shiftIr | .captureIr, true => .exit1Ir
  | .shiftIr, false => .shiftIr | .shiftIr, true => .exit1Ir
  | .exit1Ir, false => .pauseIr | .exit1Ir, true => .updateIr
  | .pauseIr, false => .pauseIr | .pauseIr, true => .exit2Ir
  | .exit2Ir, false => .shiftIr | .exit2Ir, true => .updateIr
  | .updateIr, false => .idle | .updateIr, true => .selectDr

/-- What Capture-DR loads, lowest bit first: the 32-bit identification register, a 0 in the 1-bit bypass register; the scan chains and the
self-test's register are as the S2 arranges, and have no bits here (assumptions/153). -/
def drCapture (dr : Nat) : List Bool :=
  if dr = drId then (List.range 32).map fun i => idcodeValue.getLsbD i else if dr = drBypass then [false] else []

/-- One cycle of tck: what the controller's state does with tdi and tdo, then its next state (R476). -/
def tck (t : Tap) (tms tdi : Bool) : Tap :=
  let t := match t.state with
    | .reset => { t with ir := 0x01, dr := drId }
    | .captureIr => { t with irShift := 0x01 }
    | .shiftIr => { t with irShift := (if tdi then 0x80 else 0x00) + t.irShift / 2 }
    | .updateIr => { t with ir := t.irShift }
    | .captureDr => { t with drShift := drCapture t.dr, tdo := [] }
    | .shiftDr => { t with tdo := t.tdo ++ t.drShift.take 1, drShift := t.drShift.drop 1 ++ [tdi] }
    | _ => t
  { t with state := tapNext t.state tms }

/-- Cycles of tck. -/
def tcks (t : Tap) (l : List (Bool × Bool)) : Tap := l.foldl (fun t x => tck t x.1 x.2) t

/-- From any state through Test-Logic-Reset and Run-Test/Idle to Shift-IR, an instruction shifted in lowest bit first, and on to
Run-Test/Idle (DESIGN CHOICE of the walk, assumptions/153). -/
def irScan (t : Tap) (ir : Byte) : Tap :=
  tcks t (List.replicate 5 (true, false) ++ [(false, false), (true, false), (true, false), (false, false), (false, false)] ++
    (List.range 8).map (fun i => (i == 7, ir.getLsbD i)) ++ [(true, false), (false, false)])

/-- The selected register's n bits shifted out through Shift-DR, and on to Run-Test/Idle. -/
def drScanOut (t : Tap) (n : Nat) : Tap :=
  tcks t ([(true, false), (false, false), (false, false)] ++ (List.range n).map (fun i => (i + 1 == n, false)) ++
    [(true, false), (false, false)])

/-- The test port with an instruction loaded and the register that it selects. -/
def loadTap (t : Tap) (ir : Byte) (dr : Nat) : Tap := { irScan t ir with dr := dr }

/-- An instruction loaded with the register it selects. -/
def tapLoad (e : Engine) (ir : Byte) (dr : Nat) : Engine := { e with tap := loadTap e.tap ir dr }

/-- TAP_RESET (R476): five tck cycles with tms high, or trst_n low: Test-Logic-Reset, which loads IDCODE. -/
def tapReset (e : Engine) : Engine :=
  if tapOn e then { e with tap := { e.tap with state := .reset, ir := 0x01, dr := drId } } else e

/-- IDCODE (R476): the identification register selected and read out. -/
def tapIdcode (e : Engine) : Engine :=
  if tapOn e then
    let e := tapLoad e 0x01 drId
    { e with tap := drScanOut e.tap 32 }
  else e

/-- SCAN (R476, R477): valid only in TEST; elsewhere, and when locked, it is treated as BYPASS. -/
def tapScan (e : Engine) : Engine :=
  if !tapOn e then e
  else if e.boot.state == .test && !testLocked e then tapLoad e 0x20 drScan else tapLoad e 0x20 drBypass

/-- MBIST (R476, R477): the SRAM self-test; its result is a free value (assumptions/13). -/
def tapMbist (e : Engine) : Engine :=
  if !tapOn e then e
  else if e.boot.state == .test && !testLocked e then
    let (n, e) := drawFree (tapLoad e 0x21 drMbist)
    { e with tap := { e.tap with mbistRuns := e.tap.mbistRuns + 1, result := Config.freeMbist n } }
  else tapLoad e 0x21 drBypass

/-- Codes of Table 14-10 that act when the test port is not locked. -/
def tapActs (e : Engine) (code : Byte) : Bool :=
  code == 0x01 || (!testLocked e && (code == 0x10 || code == 0x11 || (e.boot.state == .test && (code == 0x20 || code == 0x21))))

/-- BYPASS (R476, R477): code 0xFF, and every code that does not act; the bypass register, captured as 0, is shifted once. -/
def tapBypass (e : Engine) (code : Byte) : Engine :=
  if tapOn e && !tapActs e code then
    let e := tapLoad e code drBypass
    { e with tap := drScanOut e.tap 1 }
  else e

def execTapReset (s : State) : Host.Outcome State Fault Refusal := .next (onEngine s tapReset)
def execIdcode (s : State) : Host.Outcome State Fault Refusal := .next (onEngine s tapIdcode)
def execScan (s : State) : Host.Outcome State Fault Refusal := .next (onEngine s tapScan)
def execMbist (s : State) : Host.Outcome State Fault Refusal := .next (onEngine s tapMbist)
def execBypass (code : Byte) (s : State) : Host.Outcome State Fault Refusal := .next (onEngine s fun e => tapBypass e code)
def execSbAddressMatch (addr : BitVec 7) (dir : SbDir) (s : State) : Host.Outcome State Fault Refusal :=
  .next (onEngine s fun e => sbMatch e addr dir)
def execSbWriteByte (b : Byte) (s : State) : Host.Outcome State Fault Refusal := .next (onEngine s fun e => sbWrite e b)
def execSbReadByte (s : State) : Host.Outcome State Fault Refusal := .next (onEngine s sbRead)

end Sys2Proof.Machine
end

