-- ==== Sys2Proof/Machine/Substate.lean ====
section
/-! DEFINITION. Machine/Substate.lean: IDLE, NAP and HIBERNATE, the return from them and pad hold (R557 to R563, R553, R469). -/

namespace Sys2Proof.Machine

/-- SUBSTATE_REQUEST: a write of TARGET (R557). -/
def substateRequest (e : Engine) (v : Word) : Engine := { e with pwr := { e.pwr with target := v.toNat % 4 } }

/-- FP0 to FP3 read WFI: all up, with nothing to serve (DESIGN CHOICE, assumptions/60: when firmware waits). -/
def allWaiting (e : Engine) : Bool :=
  (List.range 4).all (procUp e) && e.mbx.taken.isEmpty && !e.mbx.busy && !e.mbx.expired && e.mbx.modeReply.isNone &&
    e.pwr.envTarget.isNone

/-- No task is in flight (R557): spill adds wait in frames, queues and the capping unit until they are applied. -/
def nothingInFlight (e : Engine) : Bool :=
  (match e.sch.run with
   | none => true
   | some g => !g.tasks.any fun t => (unitOf t).isSome) &&
  (bucketsIn e .active).isEmpty && (bucketsIn e .landed).isEmpty && e.mp.reads.isEmpty && e.mp.writes.isEmpty &&
  !rowsLeft e && !logRoom e

/-- Entry may start (R557): from ACTIVE, or from IDLE into a deeper substate. -/
def entryReady (e : Engine) : Bool :=
  hubClock e && e.boot.state == .run && (e.pwr.pstate == .active && e.pwr.target != 0 || e.pwr.pstate == .idle && decide (2 ≤ e.pwr.target)) && allWaiting e && nothingInFlight e &&
    e.lnk.ports.all fun q => q.state != .waggle

/-- A processor in WFI, or running again. -/
def procsRun (e : Engine) (r : ProcRun) : Engine :=
  { e with fwp := { e.fwp with procs := e.fwp.procs.map fun p => { p with run := r } } }

/-- The engine as entry into NAP (2) or HIBERNATE (3) begins: the substate reads as TARGET, and pad hold latches the boundary outputs (R557,
R559 steps 1 and 2). -/
def sleeping (e : Engine) (t : Nat) : Engine :=
  { e with
    hub := { e.hub with padIrq := some (irqPins e) }
    pwr := { e.pwr with
      pstate := if t = 2 then .nap else .hibernate, padHold := true, wakeLatched := false, returnStep := 0, entryVid := e.pwr.vid } }

/-- The rest of R559: the sideband's items are frozen, and in NAP rail_core_vid is set to 30 as soon as R471 allows it; in HIBERNATE
rail_core_req falls. -/
def sleep (e : Engine) (t : Nat) : Engine :=
  let (items, e) := liveItems (sleeping e t)
  let e := { e with sb := { e.sb with frozen := some items } }
  if t = 2 then napVid e else { e with pwr := { e.pwr with coreReq := false, goodCore := false } }

/-- SUBSTATE_ENTRY (R557, R559); in NAP and HIBERNATE the shadows stay as they stood at entry (R563). -/
def substateEntry (s : State) : State :=
  if !entryReady s.eng then s
  else
    let t := s.eng.pwr.target
    let e := procsRun s.eng .wfi
    if t = 1 then { s with eng := { e with pwr := { e.pwr with pstate := .idle } } }
    else { s with eng := sleep e t, shadow := some (sleeping e t) }

/-- The substate becomes ACTIVE: TARGET clears (R558), the processors resume, FP0's loop begins again (R553). -/
def becomeActive (e : Engine) (cause : Byte) : Engine :=
  let e := procsRun e .run
  thermalReturn { e with pwr := { e.pwr with pstate := .active, target := 0 }, sb := { e.sb with wakeCause := cause } }

/-- Entry has completed (R560): in NAP rail_core_vid has moved to code 30, and rail_core_good is 1. -/
def entryDone (e : Engine) : Bool := e.pwr.pstate == .hibernate || (decide (e.pwr.vid = 30) && e.pwr.goodCore)

/-- Step 1 of Table 17-6: the entry code, and rail_core_good 1 after the 100 ns of R471; a drop in NAP ends there (R550). -/
def wakeRail (e : Engine) : Engine :=
  let e := railRise { e with pwr := { e.pwr with vid := e.pwr.entryVid, coreReq := true } }
  { e with pwr := { e.pwr with goodSince := true, vidOld := none } }

/-- WAKE_RETURN (R560, R561): the return sequence, with the regulator's answers in it. -/
def wakeReturn (e : Engine) : Engine :=
  if asleep e && e.pwr.wakeLatched && entryDone e then
    let e := wakeRail e
    becomeActive { e with pwr := { e.pwr with returnStep := 5 }, sb := { e.sb with frozen := none } } 1
  else e

/-- IDLE_RETURN (Table 17-5, text after R563): on a mailbox SEND, or on a heartbeat timeout that FP1 then acts on. -/
def idleReturn (e : Engine) : Engine :=
  if e.pwr.pstate == .idle && (e.mbx.busy || e.mbx.expired) then
    let e := becomeActive e (if e.mbx.busy then 2 else 0)
    if e.mbx.expired && procUp e 1 then drainHost { e with mbx := { e.mbx with expired := false } } 0 else e
  else e

/-- A port enabled to train starts training at rate 0 with DOWN_REASON 0 (R562). -/
def portFresh (e : Engine) (p : PortId) : Engine :=
  if portOn e p && (islandOf e (linkIsland p)).started then beginTraining (onPort e p fun q => { q with reason := 0 }) p else e

/-- PAD_RELEASE (R562): ignored while PSTATE is not ACTIVE; with no pad hold it releases nothing. -/
def padRelease (e : Engine) : Engine :=
  if e.pwr.pstate == .active && e.pwr.padHold then
    logFlush (allPorts.foldl portFresh { e with pwr := { e.pwr with padHold := false }, hub := { e.hub with padIrq := none } })
  else e

def execSubstateRequest (src : WriteSrc) (s : State) : Host.Outcome State Fault Refusal :=
  .next (bySource s src .pwrMode fun v e => substateRequest e v)
def execSubstateEntry (s : State) : Host.Outcome State Fault Refusal := .next (substateEntry s)
def execWakeReturn (s : State) : Host.Outcome State Fault Refusal := .next (refreshed (onEngine s wakeReturn))
def execIdleReturn (s : State) : Host.Outcome State Fault Refusal := .next (onEngine s idleReturn)
def execPadRelease (src : WriteSrc) (s : State) : Host.Outcome State Fault Refusal :=
  .next (bySourceIf s src .pwrPadRelease (fun v => bit v.toNat 0) fun _ e => padRelease e)

end Sys2Proof.Machine
end

