-- ==== Sys2Proof/Machine/Boot.lean ====
section
/-! DEFINITION. Machine/Boot.lean: cold start, fuses, the Atloth image, warm reset, TEST and OFF (R473, R478, R480 to R495,
R502 to R504, R465). -/

namespace Sys2Proof.Machine

/-! ### Fuses -/

/-- The substitute of a trim byte (Table 15-3): 0x80 for oscillators, 0x10 for droop levels, 0 for offsets and reserved bytes. -/
def trimSubst (b : Nat) : Nat := if b ≤ 56 then 0x80 else if 64 ≤ b ∧ b ≤ 120 then 0x10 else 0

/-- The substitute of an uncorrectable fuse word (Table 15-3). -/
def fuseSubst (i : Nat) : Word :=
  if 2 ≤ i ∧ i ≤ 14 then 0xFFFFFFFF
  else if i = 15 then 0x3FFFF
  else if i = 18 then 0x80000000
  else if 19 ≤ i ∧ i ≤ 66 then w32 (sumNat ((List.range 4).map fun k => at' (trimSubst (4 * (i - 19) + k)) (8 * k)))
  else 0

/-- A fuse word as FUSE_LOAD applies it (R484). -/
def fuseTaken (i : Nat) : FuseRead → Word
  | .good w => w
  | .corrected w => w
  | .uncorrectable => fuseSubst i

/-- FUSE_LOAD (R484, R486, R487): 68 words; every comb with a FENCE bit is fenced by fuse. -/
def fuseLoad (e : Engine) (env : ColdEnv) : Engine :=
  let words := (List.range 68).map fun i => fuseTaken i (elemD env.fuses i (.good 0))
  let e := { e with boot := { e.boot with
    fuses := words, fuseEcc := (env.fuses.take 68).any fun f => f == FuseRead.uncorrectable } }
  { e with fences := (List.range 50).map fun c => if fenceAtLoad e c then { cause := 1 } else {} }

/-! ### The Atloth image -/

/-- An SFDP read that finds its signature and a basic table of at least 9 DWORDs: the table's first DWORD (R465; the places within
SFDP are JESD216's, PRESUMED, assumptions/61). -/
def sfdpTable (bs : List Byte) : Option Nat :=
  if field bs 0 4 = 0x50444653 ∧ field bs 8 1 = 0x00 ∧ field bs 15 1 = 0xFF ∧ 9 ≤ field bs 11 1 ∧
      field bs 12 3 + 4 * field bs 11 1 ≤ bs.length then some (field bs (field bs 12 3) 4) else none

/-- The table reports 1-1-4 fast read (R465). -/
def sfdpQuad (bs : List Byte) : Bool := match sfdpTable bs with | some d => bit d 22 | none => false

/-- The table reports 4-byte-only addressing, where its read is used (R465). -/
def sfdpAddr4 (bs : List Byte) : Bool := match sfdpTable bs with | some d => bit d 22 && bits d 17 2 == 2 | none => false

/-- n bytes of the flash from offset o; a byte that the part does not deliver reads as erased. -/
def flashBytes (bs : List Byte) (o n : Nat) : List Byte :=
  let t := (bs.drop o).take n
  t ++ List.replicate (n - t.length) 0xFF

/-- A record of the image (R489). -/
structure ImageRec where
  type : Nat
  flags : Nat
  rver : Nat
  payload : List Byte
  deriving DecidableEq, Repr, Inhabited

/-- Registers that a DEFAULTS record may set, by offset (Table 15-6). -/
def defaultsReg (o : Nat) : Option RegName :=
  (regAt o).bind fun r => match r with
    | .hubFmtCtrl | .hubSrSeed | .hubQntCtrl | .hubPoisonCtrl | .hubErrMask | .hubDone | .frgDlOffset | .frgPfCtrl
    | .schCtrl | .lnkCtrl => some r
    | _ => none

/-- Payload length of RVER 1 by type (Table 15-6). -/
def recMin (t : Nat) : Nat := elemD [0, 8, 40, 144, 0, 4, 4, 4, 8, 4] t 0

/-- The payload of a record of types 1 to 9 obeys Table 15-6 (R492); a CALIB payload of more than 65,536 bytes does not (DESIGN CHOICE,
assumptions/149). -/
def payloadOk (t : Nat) (p : List Byte) : Bool :=
  decide (recMin t ≤ p.length) &&
  match t with
  | 1 => decide (field p 6 1 ≤ 2)
  | 3 => (List.range 18).all fun i => decide (field p (8 * i + 5) 1 ≤ 3) && field p (8 * i + 6) 2 == 0
  | 4 => (List.range (p.length / 8)).all fun i => field p (8 * i + 2) 2 == 0
  | 6 => decide (field p 0 1 < 128) && field p 1 3 == 0
  | 7 => decide (1 ≤ field p 0 1 ∧ field p 0 1 ≤ 15) && field p 1 3 == 0
  | 8 => decide (field p 0 8 < 2 ^ 50)
  | 9 => decide (p.length ≤ 65536)
  | _ => true

/-- A record passes R492 but for its place in the image; `seen` are the types before it. -/
def recOk (seen : List Nat) (r : ImageRec) : Bool :=
  decide (r.flags < 2) && r.rver != 0 && r.type != 0 &&
    (if r.type ≤ 9 then decide (r.type ∉ seen) && payloadOk r.type r.payload else !bit r.flags 0)

/-- The record at an offset of the image. -/
def recAt (img : List Byte) (o : Nat) : ImageRec :=
  { type := field img o 2, flags := field img (o + 2) 1, rver := field img (o + 3) 1
    payload := takeBytes img (o + 8) (field img (o + 4) 4) }

/-- Where the record after the one at an offset starts. -/
def recNext (img : List Byte) (o : Nat) : Nat := 4 * ceilDiv (o + 8 + field img (o + 4) 4) 4

/-- The records of an image, or the index of the first that fails (R492); `todo` are the records still to read, `i` the index of the
next, `got` those read, newest first. -/
def readRecs (img : List Byte) (len : Nat) : (todo : Nat) → (i o : Nat) → (got : List ImageRec) → List ImageRec × Option Nat
  | 0, i, o, got => (got.reverse, if o = len then none else some (i - 1))
  | n + 1, i, o, got =>
    if len < o + 8 ∨ len < recNext img o then (got.reverse, some i)
    else
      let r := recAt img o
      if recOk (got.map ImageRec.type) r then readRecs img len n (i + 1) (recNext img o) (r :: got)
      else (got.reverse, some i)

/-- What a record counts in SKIPPED (R492). -/
def recSkips (r : ImageRec) : Nat :=
  if 9 < r.type then 1
  else if r.type = 4 then
    countIf (fun i => (defaultsReg (field r.payload (8 * i) 2)).isNone) (List.range (r.payload.length / 8))
  else 0

/-- What CONFIG_LOAD makes of the flash (R491): the result, the records, the failing record. -/
structure ImageCheck where
  result : ImageResult
  recs : List ImageRec := []
  bad : Option Nat := none
  deriving DecidableEq, Repr, Inhabited

/-- The image's bytes as read (R465 step 4). -/
def imageBytes (env : ColdEnv) : List Byte :=
  flashBytes env.flash 0 (min (2 ^ 20) (max 16 (field (flashBytes env.flash 0 16) 8 4)))

/-- The checks of R491 in order. -/
def checkImage (env : ColdEnv) : ImageCheck :=
  let img := imageBytes env
  let first := field img 0 4
  let len := field img 8 4
  let n := field img 6 2
  if (sfdpTable env.sfdp).isNone ∧ (first = 0 ∨ first = 0xFFFFFFFF) then { result := .absent }
  else if first ≠ 0x414C5441 then { result := .badMagic }
  else if field img 4 1 ≠ 1 then { result := .badFormat }
  else if len < 16 ∨ 2 ^ 20 < len ∨ len % 4 ≠ 0 ∨ 1024 < n then { result := .badLength }
  else if (crc32c ((img.drop 16).take (len - 16))).toNat ≠ field img 12 4 then { result := .badCrc }
  else
    let (recs, bad) := readRecs img len n 0 16 []
    { result := if bad.isSome then .badRecord else .ok, recs := recs, bad := bad }

/-- One LINK entry (Table 15-6). -/
def linkEntry (p : List Byte) (i : Nat) : LinkCfg :=
  { laneMap := BitVec.ofNat 24 (field p (8 * i) 3), polarity := BitVec.ofNat 8 (field p (8 * i + 3) 1)
    role := BitVec.ofNat 8 (field p (8 * i + 4) 1), maxVer := BitVec.ofNat 8 (field p (8 * i + 5) 1) }

/-- The sideband address of an image; reserved addresses are not taken (R459). -/
def sbAddrOf (a : Nat) : BitVec 7 := if a < 8 ∨ 0x78 ≤ a then 0x5A else BitVec.ofNat 7 a

/-- One record's effect on the configuration (Table 15-6). -/
def applyCfg (c : Image) (r : ImageRec) : Image :=
  let p := r.payload
  match r.type with
  | 1 => { c with
      limits := [min 760 (field p 0 2), min 590 (field p 2 2), min 300 (field p 4 2)], defaultEnv := field p 6 1
      holdUs := if field p 7 1 = 0 then 50 else field p 7 1 }
  | 2 => { c with thermal := (List.range 10).map fun i => w32 (field p (4 * i) 4) }
  | 3 => { c with link := (List.range 18).map (linkEntry p), hasLink := true }
  | 5 => { c with
      mbxMin := (BitVec.ofNat 8 (field p 0 1), BitVec.ofNat 8 (field p 1 1))
      mbxMax := (BitVec.ofNat 8 (field p 2 1), BitVec.ofNat 8 (field p 3 1)) }
  | 6 => { c with sbAddr := sbAddrOf (field p 0 1) }
  | 7 => { c with actDepth := field p 0 1 }
  | 8 => { c with fences := (List.range 50).filter (bit (field p 0 8)) }
  | 9 => { c with calib := p }
  | _ => c

/-- One DEFAULTS entry: the register's fields at VALUE (Table 15-6). -/
def applyDefault (p : List Byte) (e : Engine) (i : Nat) : Engine :=
  match defaultsReg (field p (8 * i) 2) with
  | some r => setRw e r (field p (8 * i + 4) 4)
  | none => e

/-- MAX_VER of a port at reset under a LINK entry, 0 meaning 3. -/
def applyMaxVer (c : Image) (e : Engine) (p : PortId) : Engine :=
  let v := (elemD c.link p.val {}).maxVer.toNat
  setRw e (.portCtrl p) (2 * (if v = 0 then 3 else v))

/-- A record applied (R493). -/
def applyRec (e : Engine) (r : ImageRec) : Engine :=
  let e := { e with boot := { e.boot with cfg := applyCfg e.boot.cfg r } }
  if r.type = 4 then (List.range (r.payload.length / 8)).foldl (applyDefault r.payload) e
  else if r.type = 3 then allPorts.foldl (applyMaxVer e.boot.cfg) e
  else e

/-- Step 1 of R494. -/
def recordFence (e : Engine) (c : Nat) : Engine :=
  { e with fences := updAt e.fences c fun f => if f.cause = 0 then { f with cause := 2 } else f }

/-- Step 2 of R494 for one comb: a spare that the record does not name is unfenced while fewer than 48 combs are enabled. -/
def unfenceSpare (e : Engine) (c : Nat) : Engine :=
  if (enabledCombs e).length < Config.maxEnabled ∧ ((e.fences[c]?).getD {}).cause = 1 ∧ fuseSpare e c ∧ c ∉ e.boot.cfg.fences then
    { e with fences := updAt e.fences c fun _ => {} }
  else e

/-- A good image is applied in image order, then the enabled combs are fixed (R493, R494). -/
def applyImage (e : Engine) (recs : List ImageRec) : Engine :=
  let e := recs.foldl applyRec e
  (List.range 50).foldl unfenceSpare (e.boot.cfg.fences.foldl recordFence e)

/-- CONFIG_LOAD (R465, R491 to R495). -/
def configLoad (e : Engine) (env : ColdEnv) : Engine :=
  let c := checkImage env
  let img := imageBytes env
  let named := c.result != .absent && c.result != .badMagic
  let e := { e with boot := { e.boot with
    state := .configLoad, quad := sfdpQuad env.sfdp, addr4 := sfdpAddr4 env.sfdp, image := c.result
    fmtMajor := if named then BitVec.ofNat 8 (field img 4 1) else 0, fmtMinor := if named then BitVec.ofNat 8 (field img 5 1) else 0
    skipped := sumNat (c.recs.map recSkips), badRecord := match c.bad with | some i => min 0xFE i | none => 0xFF } }
  if c.result = .ok then applyImage e c.recs else e

/-! ### Cold start -/

/-- An island starts and locks. -/
def startIsland (e : Engine) (i : Nat) : Engine := onIsland e i fun s => { s with started := true, locked := true }

/-- Steps 6 and 7 of Table 15-2: the islands start, a fenced comb's excepted, and AWAIT_FW is entered. -/
def startIslands (e : Engine) : Engine :=
  let e := (span 51 5).foldl startIsland e
  let e := (enabledCombs e).foldl (fun e c => startIsland e c.val) e
  { e with boot := { e.boot with state := .awaitFw } }

/-- TEST is entered from a stage of the cold start (R481, R503). -/
def enterTest (e : Engine) (stage : EngState) : Engine :=
  { e with boot := { e.boot with state := .test, fromTest := some stage } }

/-- CONFIG_LOAD and what follows it in the cold start; a TEST_ENTER requested within takes effect at its end (R481). -/
def configAndStart (e : Engine) (env : ColdEnv) (test : Bool) : Engine :=
  let e := configLoad e env
  if test && !testLocked e then enterTest e .configLoad
  else if e.boot.image = .ok then startIslands e
  else e

/-- The engine as power leaves it: the count of free values and the port's read data and order of writes are not its own state. -/
def freshEngine (e : Engine) : Engine := { hub := { rdata := e.hub.rdata, free := e.hub.free, stamp := e.hub.stamp } }

/-- Steps 1 to 3 of Table 15-2: the always-on domain, the rails at code 40, the hub island. -/
def powerUp (e : Engine) : Engine :=
  let e := startIsland (startIsland (freshEngine e) 56) 50
  { e with
    pwr := { e.pwr with coreReq := true, sramReq := true, goodCore := true, goodSince := true }
    boot := { e.boot with state := .fuseLoad, hubLocked := true } }

/-- COLD_START (R483): from OFF only. -/
def coldStart (e : Engine) (env : ColdEnv) : Engine :=
  if e.boot.state ≠ .off then e
  else
    let e := fuseLoad (powerUp e) env
    if env.testAt = some false ∧ !testLocked e then
      let e := enterTest e .fuseLoad
      { e with boot := { e.boot with flash := some env } }
    else configAndStart e env (env.testAt == some true)

/-! ### Warm reset, TEST, OFF -/

/-- The running graph of RUN or ORPHANED stops with ABORTED (R478, R503). -/
def abortRunning (m : Mem) (e : Engine) : Engine :=
  if e.boot.state = .run ∨ e.boot.state = .orphaned then graphStop m (askStop e codeAborted 0xF0 noTask) else e

/-- The rails through a warm reset: the rail stays as it is, rail_core_vid moves to its reset code only while rail_core_good is 1, and the
comb step no higher than the code allows; what must wait is held (R471, R540). -/
def resetRail (p : Power) : Power :=
  let now : Engine := { pwr := {
    vid := p.vid, vidOld := p.vidOld, goodCore := p.goodCore, goodSince := p.goodSince, railDropped := p.railDropped
    coreReq := true, sramReq := true } }
  let low := decide (p.vid < minVid 2)
  let now := { now with pwr := { now.pwr with step := if low then min p.step 2 else 2, stepHeld := low && decide (p.step < 2) } }
  (if railReady now then driveVid now 40 else { now with pwr := { now.pwr with vidHeld := decide (p.vid ≠ 40) } }).pwr

/-- What a warm reset leaves before the islands restart (R503 step 3, R504, R535, Table 15-9). -/
def clearedEngine (e : Engine) : Engine :=
  let b := e.boot
  { hub := { rdata := e.hub.rdata, free := e.hub.free, stamp := e.hub.stamp }
    rw := e.rw.filter fun p => rwKept p.1
    ctr := e.ctr.filter fun p => p.1 = .authFails
    mp := { reads := e.mp.reads.map (fun r => { r with dst := .gone }), writes := (e.mp.writes.filter WriteReq.sent).map orphanWrite }
    fences := e.fences
    boot := { b with
      state := .recovery, fwDmaFault := false
      fwInfo := 0, fwMajor := 0, fwMinor := 0, staging := [] }
    fwp := { totals := e.fwp.totals }
    log := { seq := e.log.seq }
    cap := { coef := e.cap.coef, ckptStep := e.cap.ckptStep }
    pwr := resetRail e.pwr
    sb := { e.sb with frozen := none }
    tap := e.tap }

/-- An enabled port trains again once its link group runs (R368, LNK_PORT_CTRL kept). -/
def retrainKept (e : Engine) (p : PortId) : Engine := if portOn e p && linkOn e p then beginTraining e p else e

/-- The islands restart (R503 step 4): the always-on domain's counter has run on. -/
def restartIslands (e : Engine) (aon : Island) : Engine :=
  startIsland (startIsland (onIsland e 56 fun s => { s with cycles := aon.cycles, phase := aon.phase }) 56) 50

/-- Steps 2 to 5 of R503. -/
def recover (e : Engine) : Engine :=
  let aon := islandOf e 56
  let e := restartIslands (clearedEngine e) aon
  match e.boot.fromTest, e.boot.flash with
  | some .fuseLoad, some env =>
    configAndStart { e with boot := { e.boot with fromTest := none, flash := none } } env false
  | _, _ =>
    let e := { e with boot := { e.boot with fromTest := none, flash := none } }
    if e.boot.image = .ok then allPorts.foldl retrainKept (startIslands e)
    else { e with boot := { e.boot with state := .configLoad } }

/-- A warm reset (R503). -/
def warmReset (m : Mem) (e : Engine) : Engine := recover (abortRunning m e)

/-- States in which the key acts (R502). -/
def keyActs (st : EngState) : Bool :=
  st == .awaitFw || st == .fwCheck || st == .run || st == .refused || st == .orphaned

/-- WARM_RESET (R502): a write of CFG_RESET. -/
def resetWrite (m : Mem) (e : Engine) (v : Word) : Engine :=
  if v.toNat % 2 ^ 16 = 0x5752 ∧ keyActs e.boot.state then warmReset m e else e

/-- RAIL_AON_FALL (R473, R481): OFF; nothing in the engine survives. -/
def railAonFall (e : Engine) : Engine := freshEngine e

/-- TEST takes the engine (R478, R481): a running graph has stopped, and a substate ends. -/
def testTake (e : Engine) : Engine :=
  let st := e.boot.state
  { e with
    boot := { e.boot with state := .test, fromTest := if st = .configLoad then some .configLoad else none }
    pwr := { e.pwr with pstate := .active, target := 0 } }

/-- TEST_ENTER (R477, R478). -/
def testEnter (m : Mem) (e : Engine) : Engine :=
  if !tapOn e then e
  else if testLocked e then tapLoad e 0x10 drBypass
  else
    let e := tapLoad e 0x10 drBypass
    if e.boot.state = .test then e else testTake (abortRunning m e)

/-- TEST_EXIT (R477, R502): by warm reset. -/
def testExit (m : Mem) (e : Engine) : Engine :=
  if !tapOn e then e
  else
    let e := tapLoad e 0x11 drBypass
    if e.boot.state = .test ∧ !testLocked e then warmReset m e else e

def execColdStart (env : ColdEnv) (s : State) : Host.Outcome State Fault Refusal :=
  .next (onEngine s fun e => coldStart e env)
def execRailAonFall (s : State) : Host.Outcome State Fault Refusal := .next { onEngine s railAonFall with shadow := none, held := [] }
def execTestEnter (s : State) : Host.Outcome State Fault Refusal := .next (refreshed (reading s [] testEnter))

end Sys2Proof.Machine
end

