-- ==== Sys2Proof/Machine/Firmware.lean ====
section
/-! DEFINITION. Machine/Firmware.lean: firmware load, the checks of FW_CHECK, the processors' release, restart and READY, the observer
reading (R496 to R500, R505 to R507, R515, R528 to R531, R192). -/

namespace Sys2Proof.Machine

/-! ### Loading and checking -/

/-- FW_WINDOW_WRITE (R496, CFG_FW_WIN_DATA): four bytes at OFFSET, which advances and wraps at 4 MiB. -/
def windowWrite (e : Engine) (v : Word) : Engine :=
  if e.boot.state ≠ .awaitFw then e
  else
    let o := rwVal e .cfgFwWinAddr
    let e := { e with boot := { e.boot with staging := cellsPutAll e.boot.staging o (leBytes 4 v.toNat) } }
    setRw e .cfgFwWinAddr ((o + 4) % 2 ^ 22)

/-- The image's device address (CFG_FW_DMA_LO, CFG_FW_DMA_HI). -/
def fwDmaAddr (e : Engine) : Nat := rwVal e .cfgFwDmaLo + rwVal e .cfgFwDmaHi * 2 ^ 32

/-- Bytes that the DMA reads: LENGTH of the header there, where it lies in its range, else the header alone. -/
def fwDmaLen (m : Mem) (e : Engine) : Nat :=
  let n := viewNat m e (fwDmaAddr e + 8) 4
  if 256 ≤ n ∧ n ≤ 2 ^ 22 then n else 256

/-- FW_START (R496): in AWAIT_FW, FW_CHECK is entered; with SRC the image comes from memory. -/
def fwStart (m : Mem) (e : Engine) (v : Word) (faulted : Bool) : Engine :=
  let e := storeRw e .cfgFwCtrl v
  if e.boot.state ≠ .awaitFw then e
  else
    let b := { e.boot with state := .fwCheck, fw := .checking }
    if bit v.toNat 1 then
      let n := fwDmaLen m e
      let a := fwDmaAddr e
      let bad := faulted || viewPoisoned m e a n
      { e with boot := { b with staging := cellsPutAll b.staging 0 (viewBytes m e a n), fwDmaFault := bad } }
    else { e with boot := { b with fwDmaFault := false } }

/-- A segment of a firmware image (R496 text). -/
structure Segment where
  target : Nat
  memOff : Nat
  fileOff : Nat
  len : Nat
  deriving DecidableEq, Repr, Inhabited

/-- The segment table of an image. -/
def fwSegments (img : List Byte) : List Segment :=
  (List.range (field img 12 2)).map fun i =>
    let o := 256 + 16 * i
    ⟨field img o 1, field img (o + 4) 4, field img (o + 8) 4, field img (o + 12) 4⟩

/-- Bytes of a target's memory that segments may fill: 256 KiB, or 1 MiB without its last 64 KiB (R497). -/
def segRoom (t : Nat) : Nat := if t = 4 then 2 ^ 20 - 2 ^ 16 else 2 ^ 18

/-- A segment lies in the image behind the table, and in its memory (R497). -/
def segOk (img : List Byte) (s : Segment) : Bool :=
  decide (s.target ≤ 4) && decide (256 + 16 * field img 12 2 ≤ s.fileOff) && decide (s.fileOff + s.len ≤ field img 8 4) &&
    decide (s.memOff + s.len ≤ segRoom s.target)

/-- Two segments overlap: in the same memory (DEDUCED, assumptions/63). -/
def segClash (a b : Segment) : Bool :=
  decide (a.target = b.target ∧ a.memOff < b.memOff + b.len ∧ b.memOff < a.memOff + a.len)

/-- Some two segments overlap. -/
def segsClash : List Segment → Bool
  | [] => false
  | s :: l => l.any (segClash s) || segsClash l

/-- Reserved bytes of every segment entry are 0. -/
def segReserved (img : List Byte) : Bool :=
  (List.range (field img 12 2)).all fun i => field img (257 + 16 * i) 3 == 0

/-- Check 1 of R497: the header's ranges and reserved bytes. -/
def fwHeaderOk (img : List Byte) : Bool :=
  let len := field img 8 4
  let n := field img 12 2
  field img 0 4 == 0x57324657 && decide (1 ≤ n ∧ n ≤ 64) && decide (256 + 16 * n ≤ len ∧ len ≤ 2 ^ 22) && len % 4 == 0 &&
    field img 14 2 == 0 && field img 224 32 == 0 && (List.range 4).all fun p => decide (field img (16 + 4 * p) 4 < 2 ^ 18)

/-- Check 1 of R497. -/
def fwStructureOk (img : List Byte) : Bool :=
  fwHeaderOk img && segReserved img && (fwSegments img).all (segOk img) && !segsClash (fwSegments img)

/-- The 48 bytes of KEY_HASH (FUS_KEY_HASH). -/
def keyHash (e : Engine) : List Byte := (List.range 12).flatMap fun i => leBytes 4 (fuseWord e (2 + i))

/-- Check 2 of R497. -/
def fwKeyOk (e : Engine) (img : List Byte) : Bool := sha384 (takeBytes img 32 96) == keyHash e

/-- Check 3 of R497: ECDSA P-384 with SHA-384 over bytes 0 to 127 and 224 to LENGTH - 1. -/
def fwSigOk (img : List Byte) : Bool :=
  let b o := beNat (takeBytes img o 48)
  let signed := takeBytes img 0 128 ++ takeBytes img 224 (field img 8 4 - 224)
  ecdsaVerify (b 32) (b 80) (b 128) (b 176) (beNat (sha384 signed))

/-- A version as one number. -/
def verNum (v : Byte × Byte) : Nat := 256 * v.1.toNat + v.2.toNat

/-- Check 4 of R497. -/
def fwVersionOk (e : Engine) (img : List Byte) : Bool :=
  let v := 256 * field img 7 1 + field img 6 1
  decide (verNum e.boot.cfg.mbxMin ≤ v ∧ v ≤ verNum e.boot.cfg.mbxMax)

/-- The image in the staging area, as long as its header says where that lies in its range. -/
def stagedImage (e : Engine) : List Byte :=
  let n := leNat (cellsRead e.boot.staging 8 4)
  cellsRead e.boot.staging 0 (if 256 ≤ n ∧ n ≤ 2 ^ 22 then n else 256)

/-- The result of the checks of R497, in order. -/
def fwVerdict (e : Engine) (img : List Byte) : FwResult :=
  if e.boot.fwDmaFault || !fwStructureOk img then .badImage
  else if !fwKeyOk e img then .authFail
  else if !fwSigOk img then .authFail
  else if !fwVersionOk e img then .versionRange
  else .authOk

/-- Segments copied into one memory, in the order of the table. -/
def loadSegs (img : List Byte) (m : List Host.Cell) (ss : List Segment) : List Host.Cell :=
  ss.foldl (fun m s => cellsPutAll m s.memOff (takeBytes img s.fileOff s.len)) m

/-- The segments of a target. -/
def segsOf (img : List Byte) (t : Nat) : List Segment := (fwSegments img).filter fun s => s.target == t

/-- The loaded byte ranges of a target, read-only from the release on (R506). -/
def roOf (img : List Byte) (t : Nat) : List (Nat × Nat) := (segsOf img t).map fun s => (s.memOff, s.len)

/-- A processor at its release (R498). -/
def releaseProc (img : List Byte) (p : Nat) : Proc :=
  { run := .run, entry := field img (16 + 4 * p) 4, mem := loadSegs img [] (segsOf img p), ro := roOf img p }

/-- FIRMWARE_RELEASE (R498, R499): memories zeroed, segments and calibration copied, staging erased, FP0 to FP3 released. -/
def releaseFirmware (e : Engine) (img : List Byte) : Engine :=
  let shared := cellsPutAll (loadSegs img [] (segsOf img 4)) (2 ^ 20 - 2 ^ 16) e.boot.cfg.calib
  let ma := field img 7 1
  let mi := field img 6 1
  { e with
    boot := { e.boot with
      fw := .authOk, fwInfo := w32 (at' ma 24 + at' mi 16 + field img 4 2), fwMajor := BitVec.ofNat 8 ma
      fwMinor := BitVec.ofNat 8 mi, staging := [] }
    fwp := { e.fwp with procs := (List.range 4).map (releaseProc img), shared := shared, sharedRo := roOf img 4 } }

/-- A failed check (R497): back to AWAIT_FW, staging erased; each AUTH_FAIL counts. -/
def rejectFirmware (e : Engine) (r : FwResult) : Engine :=
  let e := { e with boot := { e.boot with state := .awaitFw, fw := r, staging := [] } }
  if r = .authFail then bump e .authFails 1 else e

/-- FW_CHECK_DONE (R497). -/
def fwCheckDone (e : Engine) : Engine :=
  if e.boot.state = .fwCheck ∧ e.boot.fw = .checking then
    let img := stagedImage e
    match fwVerdict e img with
    | .authOk => releaseFirmware e img
    | r => rejectFirmware e r
  else e

/-! ### Processors -/

/-- TRIP_C as FP0 writes it (text after R555): TJ_LIMIT + 10; for a TJ_LIMIT that is no whole degree, or whose sum leaves the
field, the spec states no value: a free one. -/
def tripDegrees (e : Engine) : Nat × Engine :=
  let tj := elemD e.boot.cfg.thermal 0 0
  match (List.range 246).find? fun d => decide (fOfQuot d 1 = tj) with
  | some d => (d + 10, e)
  | none => let (n, e) := drawFree e; ((Config.freeByte n).toNat, e)

/-- FP0 at a firmware start (R538 text, R552, R554, R555): the loop's coefficients, TRIP_C, DEFAULT_ENV. -/
def fp0Start (e : Engine) : Engine :=
  let e := { e with pwr := { e.pwr with thermal := { params := e.boot.cfg.thermal } } }
  let (d, e) := tripDegrees e
  let e := fwMark (setRw e .pwrThermCtrl (at' d 8 + bits (rwVal e .pwrThermCtrl) 0 8)) .pwrThermCtrl
  setEnvelope e e.boot.cfg.defaultEnv

/-- FP2 at a firmware start (R368): ENABLE for every port with a role. -/
def enableRole (e : Engine) (p : PortId) : Engine :=
  if (elemD e.boot.cfg.link p.val {}).role ≠ 0 then
    enableWrite p (w32 (rwVal e (.portCtrl p) ||| 1)) (fwMark e (.portCtrl p))
  else e

/-- What FP1 takes up as it is READY, or as its clock runs again after a dip (R529, R531, R532): messages and replies that wait, an expired
timeout, ORPHANED. -/
def fp1Resume (e : Engine) : Engine :=
  if !procUp e 1 then e else
  let waits := e.mbx.doneWaits
  let e := waits.foldl tellDone { e with mbx := { e.mbx with doneWaits := [] } }
  let e := if e.mbx.expired && e.pwr.pstate == .active then
      let e := { e with mbx := { e.mbx with expired := false } }
      if e.mbx.host = .live then drainHost e 0 else e
    else e
  orphanIfDue e

/-- What a processor does as it is READY: at its first start after release (`fresh`), or after a restart. -/
def readyActs (e : Engine) (p : Nat) (fresh : Bool) : Engine :=
  match p with
  | 0 => if fresh then fp0Start e else setEnvelope e (e.pwr.envKept.getD e.boot.cfg.defaultEnv)
  | 1 => fp1Resume e
  | 2 => if fresh then allPorts.foldl enableRole e else e
  | _ => if fresh && e.boot.state == .fwCheck then announce e 0xC0 [e.boot.fwInfo] else logFlush e

/-- A processor that may set READY: released or restarted, and not READY. -/
def mayReady (e : Engine) (p : Nat) : Bool :=
  let q := procOf e p
  (q.run == .run || q.run == .restarting) && !q.ready

/-- FP_READY (R528, R529). -/
def fpReady (e : Engine) (p : ProcId) : Engine :=
  if mayReady e p.val && awake e then
    let fresh := (procOf e p.val).fresh
    readyActs (onProc e p.val fun q => { q with run := .run, ready := true, fresh := false }) p.val fresh
  else e

/-- Causes of FWP_LAST_RESTART. -/
def causeWatchdog : Nat := 1
def causeProtect : Nat := 2
def causeSelf : Nat := 3

/-- FP0_CLAMP (R529): QUIET until the restarted FP0 sets an envelope. -/
def clampFp0 (e : Engine) : Engine :=
  lowerStep { e with fwp := { e.fwp with clampQuiet := true }, pwr := { e.pwr with envelope := 2 } }

/-- A processor restarts (R528): from RUN, or before it is READY again, where the cause tells that it has left reset at its ENTRY
address; its clock is gated in IDLE, NAP and HIBERNATE. -/
def restartProc (e : Engine) (p : ProcId) (cause : Nat) (pc : Word) : Engine :=
  if ((procOf e p.val).run ≠ .run ∧ (procOf e p.val).run ≠ .restarting) ∨ e.pwr.pstate ≠ .active then e
  else
    let e := onProc e p.val fun q => { q with run := .restarting, ready := false }
    let e := bump { e with fwp := { e.fwp with
      lastFp := p.val, lastCause := cause, lastPc := pc, totals := updAt e.fwp.totals p.val (· + 1) } } (.restarts p) 1
    let e := logEvent e 55 0x0001 0 ([BitVec.ofNat 8 p.val, BitVec.ofNat 8 cause, 0, 0] ++ leBytes 4 pc.toNat)
    if p.val = 0 then clampFp0 e else e

/-- A byte of private or shared memory is loaded, hence read-only (R506). -/
def isRo (e : Engine) (p : ProcId) (shared : Bool) (o : Nat) : Bool :=
  (if shared then e.fwp.sharedRo else (procOf e p.val).ro).any fun r => decide (r.1 ≤ o ∧ o < r.1 + r.2)

/-- PROTECT_STORE (R506): the store does not take effect, and the processor restarts. -/
def protectStore (e : Engine) (p : ProcId) (shared : Bool) (o : Nat) (pc : Word) : Engine :=
  if isRo e p shared o then restartProc e p causeProtect pc else e

/-! ### Observers -/

/-- Counters of Table 06-7 that FP3 reads in a comb. -/
def observerCtrs : List CombCtr :=
  [.uflow, .zeroRows, .flatRows] ++ (List.finRange 64).map CombCtr.hist

/-- FP3 reads a comb's observers through the internal path (R448): the counts are taken, and the non-zero count is copied with
the underflow count as a port read copies it. -/
def readObservers (e : Engine) (c : CombId) : Engine :=
  let e := observerCtrs.foldl (fun e k => rcTake e (.comb c k) 0) e
  onComb e c fun cb => { cb with nonzeroShadow := cb.nonzero, nonzero := 0 }

/-- The layers of the running graph's resident product tasks. -/
def observedLayers (e : Engine) : List Nat :=
  match e.sch.run with
  | none => []
  | some g => dedup ((g.tasks.filter fun t => isProduct t.record).map fun t => t.record.layer)

/-- One per-layer summary in the log: its trace point within FP3's groups and its payload are not in the spec: free values. -/
def summarise (e : Engine) (_layer : Nat) : Engine :=
  let (n, e) := drawFree e
  let (k, e) := drawFree e
  let bytes := (List.range 40).map fun i => Config.freeByte (40 * k + i)
  logEvent e 55 (0x7000 + (Config.freeWord n).toNat % 0x1000) (fwFlags 3) bytes

/-- OBSERVER_POLL (R192 text). -/
def observerPoll (e : Engine) : Engine :=
  if !(procUp e 3 && running e) then e
  else
    let e := leaveWfi e
    let e := (enabledCombs e).foldl readObservers e
    (observedLayers e).foldl summarise e

def execFwWindowWrite (src : WriteSrc) (s : State) : Host.Outcome State Fault Refusal :=
  .next (bySource s src .cfgFwWinData fun v e => windowWrite e v)
def execFwStart (src : WriteSrc) (rd : List MemLine) (faulted : Bool) (s : State) : Host.Outcome State Fault Refusal :=
  let m := absorb s.mem rd
  .next (bySourceIf { s with mem := m } src .cfgFwCtrl (fun v => bit v.toNat 0) fun v e => fwStart m e v faulted)
def execFwCheckDone (s : State) : Host.Outcome State Fault Refusal := .next (onEngine s fwCheckDone)
def execFpReady (p : ProcId) (s : State) : Host.Outcome State Fault Refusal := .next (onEngine s fun e => fpReady e p)
def execWatchdogExpiry (p : ProcId) (pc : Word) (s : State) : Host.Outcome State Fault Refusal :=
  .next (onEngine s fun e => restartProc e p causeWatchdog pc)
def execSelfRestart (p : ProcId) (pc : Word) (s : State) : Host.Outcome State Fault Refusal :=
  .next (onEngine s fun e => restartProc e p causeSelf pc)
def execProtectStore (p : ProcId) (shared : Bool) (offset : Nat) (pc : Word) (s : State) :
    Host.Outcome State Fault Refusal := .next (onEngine s fun e => protectStore e p shared offset pc)
def execObserverPoll (s : State) : Host.Outcome State Fault Refusal := .next (onEngine s observerPoll)

end Sys2Proof.Machine
end

