-- ==== Sys2Proof/Machine/Resume.lean ====
section
/-! DEFINITION. Machine/Resume.lean: the commands that stop an island's clock and those after which a stopped clock runs: supply dips, the warm
reset and the end of TEST (R17, R502, R503, R543 to R550). -/

namespace Sys2Proof.Machine

/-- The state that a command answers. -/
def answered (o : Host.Outcome State Fault Refusal) (s : State) : State := match o with | .next t => t | _ => s

/-- An entry that waited in a crossing is taken (R17). Only what comes through crossings waits there. -/
def takeHeld (s : State) (i : Instr) : State :=
  answered (match i with
    | .memoryReadResponse ch id st l => execMemoryReadResponse ch id st l s
    | .memoryWriteResponse ch id st => execMemoryWriteResponse ch id st s
    | .laneLock p => execLaneLock p s
    | .lockLoss p => execLockLoss p s
    | .capsReceive p c => execCapsReceive p c s
    | .acceptReceive p v f => execAcceptReceive p v f s
    | .readyReceive p => execReadyReceive p s
    | .ackReceive p f => execAckReceive p f s
    | .nakReceive p f => execNakReceive p f s
    | .creditReceive p f => execCreditReceive p f s
    | .rxBeatDiscard p => execRxBeatDiscard p s
    | .dataFlitReceive p f lane => execDataFlitReceive p f lane s
    | .resultFlitReceive p f => execResultFlitReceive p f s
    | .okReceive m => execOkReceive m s
    | .failReceive m => execFailReceive m s
    | .sealReceive m => execSealReceive m s
    | .repeatReceive m => execRepeatReceive m s
    | .abandonReceive m => execAbandonReceive m s
    | .joinReceive m => execJoinReceive m s
    | .goReceive m => execGoReceive m s
    | _ => .next s) s

/-- What waits in crossings is taken in order, as far as the clocks run; the rest waits on. -/
def takeAllHeld (s : State) : State := s.held.foldl takeHeld { s with held := [] }

/-- The firmware goes on as its clock, or the hub's, runs again: FP0 with its envelope, FP1 with what waits for it, FP3 with a flush. -/
def fwResume (before after : Engine) : Engine :=
  let ran (i : Nat) : Bool := (islandOf before i).stopped && !(islandOf after i).stopped
  if ran 50 || ran 55 then logFlush (fp1Resume (envProgress after)) else after

/-- What a command that may set clocks running leaves: the shadows are refreshed, the firmware goes on, and what waited in crossings is
taken. -/
def resumed (before : Engine) (s : State) : State := takeAllHeld (refreshed { s with eng := fwResume before s.eng })

/-- A stop of the hub's clock: the shadows keep their last values (text after R550). -/
def shadowed (before : Engine) (s : State) : State :=
  if awake s.eng && (islandOf s.eng 50).stopped && s.shadow.isNone then { s with shadow := some before } else s

def execDroopWarning (d : Supply) (s : State) : Host.Outcome State Fault Refusal :=
  .next (resumed s.eng (onEngine s fun e => droopWarning e d.island.val d.level.toNat))
def execDroopStop (d : Supply) (s : State) : Host.Outcome State Fault Refusal :=
  .next (shadowed s.eng (onEngine s fun e => droopStop e d.island.val d.level.toNat))
def execDroopClear (d : Supply) (ns : Word) (s : State) : Host.Outcome State Fault Refusal :=
  .next (resumed s.eng (onEngine s fun e => droopClear e d.island.val d.level.toNat ns.toNat))

/-- WARM_RESET (R502): a write of CFG_RESET. -/
def execWarmReset (src : WriteSrc) (s : State) : Host.Outcome State Fault Refusal :=
  .next (resumed s.eng (bySource s src .cfgReset fun v e => resetWrite s.mem e v))
def execTestExit (s : State) : Host.Outcome State Fault Refusal := .next (resumed s.eng (reading s [] testExit))

end Sys2Proof.Machine
end

