-- ==== Sys2Proof/Machine/Dispatch.lean ====
section
/-! DEFINITION. Machine/Dispatch.lean: one arm per command. -/

namespace Sys2Proof.Machine

/-- The effect of a command on everything but the queue. -/
def exec (i : Instr) (s : State) : Host.Outcome State Fault Refusal :=
  match i with
  | .cpWriteAccept addr data => Sys2Proof.Machine.execCpWriteAccept addr data s
  | .postedWriteApply => Sys2Proof.Machine.execPostedWriteApply s
  | .rcFieldRead addr late => Sys2Proof.Machine.execRcFieldRead addr late s
  | .badAccess addr write => Sys2Proof.Machine.execBadAccess addr write s
  | .cpPortReset => Sys2Proof.Machine.execCpPortReset s
  | .coefDataAccess acc => Sys2Proof.Machine.execCoefDataAccess acc s
  | .obsUflowRead c late => Sys2Proof.Machine.execObsUflowRead c late s
  | .errFirstRearm src => Sys2Proof.Machine.execErrFirstRearm src s
  | .warmReset src => Sys2Proof.Machine.execWarmReset src s
  | .fwWindowWrite src => Sys2Proof.Machine.execFwWindowWrite src s
  | .fwStart src rd faulted => Sys2Proof.Machine.execFwStart src rd faulted s
  | .fwCheckDone => Sys2Proof.Machine.execFwCheckDone s
  | .send src => Sys2Proof.Machine.execSend src s
  | .commandIntake => Sys2Proof.Machine.execCommandIntake s
  | .pop src => Sys2Proof.Machine.execPop src s
  | .hello => Sys2Proof.Machine.execHello s
  | .heartbeat => Sys2Proof.Machine.execHeartbeat s
  | .graphSubmit => Sys2Proof.Machine.execGraphSubmit s
  | .graphAbort => Sys2Proof.Machine.execGraphAbort s
  | .fenceRequest => Sys2Proof.Machine.execFenceRequest s
  | .unfenceRequest => Sys2Proof.Machine.execUnfenceRequest s
  | .modeSet => Sys2Proof.Machine.execModeSet s
  | .checkpointRequest => Sys2Proof.Machine.execCheckpointRequest s
  | .logQuery => Sys2Proof.Machine.execLogQuery s
  | .park => Sys2Proof.Machine.execPark s
  | .adopt => Sys2Proof.Machine.execAdopt s
  | .heartbeatTimeout => Sys2Proof.Machine.execHeartbeatTimeout s
  | .graphAdmit rd => Sys2Proof.Machine.execGraphAdmit rd s
  | .taskFetch rd => Sys2Proof.Machine.execTaskFetch rd s
  | .taskDispatch rd => Sys2Proof.Machine.execTaskDispatch rd s
  | .ringBind c ring => Sys2Proof.Machine.execRingBind c ring s
  | .taskAge index => Sys2Proof.Machine.execTaskAge index s
  | .taskComplete index rd => Sys2Proof.Machine.execTaskComplete index rd s
  | .graphStop => Sys2Proof.Machine.execGraphStop s
  | .tileIssue c f rd => Sys2Proof.Machine.execTileIssue c f rd s
  | .frameStep c f rowLate colLate => Sys2Proof.Machine.execFrameStep c f rowLate colLate s
  | .intervalVerdict c f lane => Sys2Proof.Machine.execIntervalVerdict c f lane s
  | .replayRestart c f => Sys2Proof.Machine.execReplayRestart c f s
  | .stagingRowWriteout c f fault => Sys2Proof.Machine.execStagingRowWriteout c f fault s
  | .drainOnlyRun c f rd lane => Sys2Proof.Machine.execDrainOnlyRun c f rd lane s
  | .lineRequestGrant ch => Sys2Proof.Machine.execLineRequestGrant ch s
  | .memoryReadResponse ch id status line => Sys2Proof.Machine.execMemoryReadResponse ch id status line s
  | .memoryWriteResponse ch id status => Sys2Proof.Machine.execMemoryWriteResponse ch id status s
  | .translationEvent op size page => Sys2Proof.Machine.execTranslationEvent op size page s
  | .pageFaultTimeout who record => Sys2Proof.Machine.execPageFaultTimeout who record s
  | .shortDescriptor rd => Sys2Proof.Machine.execShortDescriptor rd s
  | .handlePush q => Sys2Proof.Machine.execHandlePush q s
  | .handlePop q => Sys2Proof.Machine.execHandlePop q s
  | .shardReload c rd => Sys2Proof.Machine.execShardReload c rd s
  | .bucketAdmit rd => Sys2Proof.Machine.execBucketAdmit rd s
  | .bucketActivate tag rd => Sys2Proof.Machine.execBucketActivate tag rd s
  | .spillAdd fault => Sys2Proof.Machine.execSpillAdd fault s
  | .updateRow rd lane => Sys2Proof.Machine.execUpdateRow rd lane s
  | .versionSlotFree => Sys2Proof.Machine.execVersionSlotFree s
  | .maskBlock rd => Sys2Proof.Machine.execMaskBlock rd s
  | .maskFreeRow rd => Sys2Proof.Machine.execMaskFreeRow rd s
  | .checkpointEntryCopy rd => Sys2Proof.Machine.execCheckpointEntryCopy rd s
  | .laneLock p => Sys2Proof.Machine.execLaneLock p s
  | .capsReceive p caps => Sys2Proof.Machine.execCapsReceive p caps s
  | .acceptReceive p version features => Sys2Proof.Machine.execAcceptReceive p version features s
  | .readyReceive p => Sys2Proof.Machine.execReadyReceive p s
  | .waggleTimeout p => Sys2Proof.Machine.execWaggleTimeout p s
  | .waggleRetryTimer p => Sys2Proof.Machine.execWaggleRetryTimer p s
  | .retrain p src => Sys2Proof.Machine.execRetrain p src s
  | .lockLoss p => Sys2Proof.Machine.execLockLoss p s
  | .dataFlitReceive p f lane => Sys2Proof.Machine.execDataFlitReceive p f lane s
  | .resultFlitReceive p f => Sys2Proof.Machine.execResultFlitReceive p f s
  | .okReceive m => Sys2Proof.Machine.execOkReceive m s
  | .failReceive m => Sys2Proof.Machine.execFailReceive m s
  | .sealReceive m => Sys2Proof.Machine.execSealReceive m s
  | .repeatReceive m => Sys2Proof.Machine.execRepeatReceive m s
  | .abandonReceive m => Sys2Proof.Machine.execAbandonReceive m s
  | .joinReceive m => Sys2Proof.Machine.execJoinReceive m s
  | .goReceive m => Sys2Proof.Machine.execGoReceive m s
  | .ackReceive p f => Sys2Proof.Machine.execAckReceive p f s
  | .nakReceive p f => Sys2Proof.Machine.execNakReceive p f s
  | .creditReceive p f => Sys2Proof.Machine.execCreditReceive p f s
  | .flitSend p => Sys2Proof.Machine.execFlitSend p s
  | .ackTimer p => Sys2Proof.Machine.execAckTimer p s
  | .resendTimeout p => Sys2Proof.Machine.execResendTimeout p s
  | .bucketDeadline tag => Sys2Proof.Machine.execBucketDeadline tag s
  | .sealWaitTimeout tag => Sys2Proof.Machine.execSealWaitTimeout tag s
  | .joinTimeout group => Sys2Proof.Machine.execJoinTimeout group s
  | .patienceExpiry p => Sys2Proof.Machine.execPatienceExpiry p s
  | .unicastReplay p rd => Sys2Proof.Machine.execUnicastReplay p rd s
  | .coldStart env => Sys2Proof.Machine.execColdStart env s
  | .railAonFall => Sys2Proof.Machine.execRailAonFall s
  | .tapReset => Sys2Proof.Machine.execTapReset s
  | .idcode => Sys2Proof.Machine.execIdcode s
  | .testEnter => Sys2Proof.Machine.execTestEnter s
  | .testExit => Sys2Proof.Machine.execTestExit s
  | .scan => Sys2Proof.Machine.execScan s
  | .mbist => Sys2Proof.Machine.execMbist s
  | .bypass code => Sys2Proof.Machine.execBypass code s
  | .sbAddressMatch addr dir => Sys2Proof.Machine.execSbAddressMatch addr dir s
  | .sbWriteByte b => Sys2Proof.Machine.execSbWriteByte b s
  | .sbReadByte => Sys2Proof.Machine.execSbReadByte s
  | .railCoreDrop => Sys2Proof.Machine.execRailCoreDrop s
  | .railCoreRecover => Sys2Proof.Machine.execRailCoreRecover s
  | .droopWarning idx => Sys2Proof.Machine.execDroopWarning idx s
  | .droopStop idx => Sys2Proof.Machine.execDroopStop idx s
  | .droopClear idx ns => Sys2Proof.Machine.execDroopClear idx ns s
  | .droopHoldExpiry c => Sys2Proof.Machine.execDroopHoldExpiry c s
  | .voltageRequest src => Sys2Proof.Machine.execVoltageRequest src s
  | .frequencyRequest src => Sys2Proof.Machine.execFrequencyRequest src s
  | .heldRequestApply => Sys2Proof.Machine.execHeldRequestApply s
  | .freqChangeComplete => Sys2Proof.Machine.execFreqChangeComplete s
  | .sensorCode idx code => Sys2Proof.Machine.execSensorCode idx code s
  | .sensorTimeout idx => Sys2Proof.Machine.execSensorTimeout idx s
  | .staleTrip => Sys2Proof.Machine.execStaleTrip s
  | .thermalLoopTick => Sys2Proof.Machine.execThermalLoopTick s
  | .thermalRefit slow => Sys2Proof.Machine.execThermalRefit slow s
  | .substateRequest src => Sys2Proof.Machine.execSubstateRequest src s
  | .substateEntry => Sys2Proof.Machine.execSubstateEntry s
  | .wakeReturn => Sys2Proof.Machine.execWakeReturn s
  | .idleReturn => Sys2Proof.Machine.execIdleReturn s
  | .padRelease src => Sys2Proof.Machine.execPadRelease src s
  | .watchdogExpiry p pc => Sys2Proof.Machine.execWatchdogExpiry p pc s
  | .protectStore p shared offset pc => Sys2Proof.Machine.execProtectStore p shared offset pc s
  | .selfRestart p pc => Sys2Proof.Machine.execSelfRestart p pc s
  | .fpReady p => Sys2Proof.Machine.execFpReady p s
  | .observerPoll => Sys2Proof.Machine.execObserverPoll s
  | .logRecordArrive r => Sys2Proof.Machine.execLogRecordArrive r s
  | .logMove => Sys2Proof.Machine.execLogMove s
  | .logEnable src => Sys2Proof.Machine.execLogEnable src s
  | .portEnable p src => Sys2Proof.Machine.execPortEnable p src s
  | .rxBeatDiscard p => Sys2Proof.Machine.execRxBeatDiscard p s
  | .powerEstimate => Sys2Proof.Machine.execPowerEstimate s

end Sys2Proof.Machine
end

