-- ==== Sys2Proof/Machine/Tick.lean ====
section
/-! DEFINITION. Machine/Tick.lean: what one nominal hub period does when no command waits (DESIGN CHOICE, assumptions/1): the islands'
cycle counters (R521), the counters of waiting cycles (R239, R304), the windows of time-to-empty (R268). -/

namespace Sys2Proof.Machine

/-- Nominal frequency of an island in Hz; the slow oscillator's 32.768 kHz. -/
def islandHz (e : Engine) (i : Nat) : Nat := if i = 56 then 32768 else 1000000 * islandMHz e i

/-- Frequency of an island as it runs: halved while stretched, 0 while stopped (R544). -/
def runningHz (e : Engine) (i : Nat) : Nat :=
  if islandStopped e i then 0 else if islandStretched e i then islandHz e i / 2 else islandHz e i

/-- The hub's nominal frequency: a tick is one of its periods. -/
def tickHz : Nat := 1250000000

/-- Cycles of an island that end within the next tick. -/
def tickCycles (e : Engine) (i : Nat) : Nat := ((islandOf e i).phase + runningHz e i) / tickHz

/-- One island's counter after a tick, and how long a dip has stopped its clock. -/
def tickIsland (e : Engine) (i : Nat) (s : Island) : Island :=
  let t := s.phase + runningHz e i
  { s with
    cycles := s.cycles + BitVec.ofNat 64 (t / tickHz), phase := t % tickHz
    lost := if s.stopped then s.lost + islandHz e i else s.lost }

/-- What is left of the 100 ns after a change of rail_core_vid (R548). -/
def tickVid (o : Option (Nat × Nat)) : Option (Nat × Nat) :=
  match o with
  | some (v, n + 2) => some (v, n + 1)
  | _ => none

/-- The 100 ns are over after this tick with rail_core_good 1: what waits for the voltage goes on (R471). -/
def tickRail (e : Engine) : Engine := if !e.pwr.goodSince then settleRail e else e

/-- The time since a sensor was sampled: at 1 ms TEMP_FLAGS.STALE sets (Table 14-8). -/
def tickSample (p : Power) : Power :=
  { p with sampleAge := min 1250000 (p.sampleAge + 1), stale := p.stale || decide (1250000 ≤ p.sampleAge + 1) }

/-- A restarting processor leaves reset at its ENTRY address while its clock runs (R528 step 2, assumptions/81). -/
def tickProc (e : Engine) (q : Proc) : Proc :=
  if q.run == .restarting && e.pwr.pstate == .active && !(islandOf e 55).stopped then { q with run := .run } else q

/-- The end of a window of 1,024 island cycles (R268). -/
def endWindow (t : Tte) : Tte := { t with last := t.now, now := 0 }

/-- A ring's streams at the end of a window. -/
def windowRing (g : Ring) : Ring := { g with streams := g.streams.map fun s => { s with tte := endWindow s.tte } }

/-- A comb whose island ends a window of 1,024 cycles within the tick. -/
def tickComb (e : Engine) (c : Nat) (cb : Comb) : Comb :=
  let s := islandOf e c
  if s.cycles.toNat / 1024 < (s.cycles.toNat + tickCycles e c) / 1024 then
    { cb with rings := cb.rings.map fun o => o.map windowRing, ctxs := cb.ctxs.map fun o => o.map fun k => { k with tte := endWindow k.tte } }
  else cb

/-- The window is full and records are left to fetch (R304). -/
def windowFull (e : Engine) : Bool :=
  running e && match e.sch.run with
  | none => false
  | some g => decide (g.fetch < g.hdr.tasks ∧ Config.windowTasks ≤ g.tasks.length)

/-- One nominal hub period. -/
def tick (e : Engine) : Engine :=
  if e.boot.state == .off then e
  else
    let hub := tickCycles e 50
    let e' := bump e .windowFull (if windowFull e then hub else 0)
    let e' := bump e' .versionStall (if running e && e.cap.waiting.isSome then tickCycles e 54 else 0)
    tickRail { e' with
      hub := { e'.hub with cycle := e'.hub.cycle + hub }
      fwp := { e'.fwp with procs := e'.fwp.procs.map (tickProc e) }
      combs := e'.combs.zipIdx.map fun p => tickComb e p.2 p.1
      pwr := tickSample { e'.pwr with
        vidOld := tickVid e'.pwr.vidOld
        islands := e'.pwr.islands.zipIdx.map fun p => tickIsland e p.2 p.1 } }

end Sys2Proof.Machine
end

