-- ==== Sys2Proof/Machine/Step.lean ====
section
/-! DEFINITION. Machine/Step.lean: one step takes the command at the front of the queue. -/

namespace Sys2Proof.Machine

/-- One step: the front command runs on the state with the queue's rest; on an empty queue one nominal hub period passes
(DESIGN CHOICE, assumptions/1). -/
def step (s : State) : Host.Outcome State Fault Refusal :=
  match s.pending with
  | [] => .next (onEngine s tick)
  | c :: rest => exec c { s with pending := rest }

/-- The state with the command that a table word spells put at the front of its queue. -/
def State.withFetchWord (s : State) (nbits w : Nat) : State :=
  match decodeTableWord nbits w with
  | some c => { s with pending := c :: s.pending }
  | none => s

end Sys2Proof.Machine
end

