-- ==== Sys2Proof/Safety.lean ====
section
/-! DEFINITION. Safety.lean: the words in which the statements speak of states and commands: what a safe state is, what a
register write presents, which lines a command brings. -/

namespace Sys2Proof.Machine

/-- The lines of a ring in the order in which they came, under distinct numbers (R262). -/
def ringShaped (g : Ring) : Bool := rising (g.lines.map SlotLine.ser) && g.lines.all fun l => decide (l.ser < g.nextSer)

/-- A comb has four contexts, four frames, twelve rings and eight park records (Table 01-1, R259, R290, R310). -/
def combShaped (cb : Comb) : Bool :=
  cb.ctxs.length == 4 && cb.frames.length == 4 && cb.rings.length == 12 && cb.parks.length == 8 &&
    cb.rings.all fun o => o.all ringShaped

/-- The engine has the parts that the spec gives it: combs with their fences, islands, sensors, link ports, link groups, firmware
processors, park records (R11, R367, R474, R505, R536, R290); the response ring and the log's shadow stay within their entries (R511,
R524); the byte stores are in their canonical form. -/
def engineShaped (e : Engine) : Bool :=
  e.combs.length == 50 && e.combs.all combShaped && e.fences.length == 50 && e.pwr.islands.length == 57 &&
    e.pwr.sensors.length == 64 && e.lnk.ports.length == 18 && e.lnk.linkQ.length == 3 && e.fwp.procs.length == 4 &&
    e.fwp.totals.length == 4 && e.hf.parks.length == 16 && decide (e.mbx.ring.length ≤ 256) &&
    decide (e.log.shadow.length ≤ 16384) && cellsWf e.boot.staging && cellsWf e.sch.ckptArea && cellsWf e.fwp.shared &&
    e.fwp.procs.all fun p => cellsWf p.mem

/-- Every write of firmware's own accord came after the port writes accepted before it (R448). -/
def stampsOrdered (s : State) : Bool :=
  (s.eng.hub.fwAt.all fun x => decide (x.2 ≤ s.eng.hub.stamp)) && s.posted.all fun p => decide (p.stamp ≤ s.eng.hub.stamp)

/-- The invariant of every step: device memory in its canonical form, no more posted writes than the queue has entries (R442), the
engine in its shape, and the order of the writes that wait. -/
def Inv (s : State) : Prop :=
  s.mem.wf = true ∧ portWrites s.posted ≤ 32 ∧ engineShaped s.eng = true ∧ stampsOrdered s = true

/-- The hub answers accesses and applies writes: it has locked (R482), and its clock runs: neither NAP nor HIBERNATE holds it (R563) and no
dip has stopped it (R544). -/
def HubUp (e : Engine) : Prop := e.boot.hubLocked = true ∧ hubClock e = true

/-- A write of `v` to register `r` reaches its island: it is the head of the posted queue, and no later write of firmware has overtaken it,
or firmware makes it while no accepted write of the register waits (R442, R448). -/
def Presents (s : State) (src : WriteSrc) (r : RegName) (v : Word) : Prop :=
  match src with
  | .posted => ∃ p ps, s.posted = p :: ps ∧ postedReg p = some r ∧ p.data = v ∧ overtaken s.eng p r = false
  | .firmware w => postedFor s.posted r = false ∧ w = v

/-- A comb task's work is done: of a product every tile has committed, and where it stores its outputs every tile has been written; of
another task what it writes has left (R301). -/
def workDone (e : Engine) (tk : Task) : Prop :=
  if isProduct tk.record then
    tk.commTiles.length = tileCount tk.record (maskOf e tk.record) ∧
      (storing tk.record = true → tk.doneTiles.length = tileCount tk.record (maskOf e tk.record))
  else tk.commTiles ≠ []

/-- A task ends with a status and a code (Table 09-5): its unit has ended it, or a comb has done its work, or it failed there and has no
row on its way; a write fault turns OK into FAILED with its own code (R289). -/
def EndsWith (e : Engine) (tk : Task) (u : ExecUnit) (st code : Nat) : Prop :=
  (tk.life = .ended u st code ∧ (tk.late = none ∨ st ≠ 1)) ∨ (∃ k, tk.life = .ended u 1 k ∧ tk.late = some code ∧ st = 3) ∨
  ∃ c, u = .comb c ∧ tk.life = .running u ∧
    ((tk.failed = some code ∧ st = 3 ∧ ∀ fr ∈ (combOf e c).frames, ∀ o ∈ fr.out, o.task ≠ tk.index) ∨
     (tk.failed = none ∧ workDone e tk ∧ ((tk.late = none ∧ st = 1 ∧ code = 0) ∨ (tk.late = some code ∧ st = 3))))

/-- A step as the feeders form it: 64 rows and 64 columns that present codes on both sides (dense), slots against groups (sparse), or codes
against groups of which each cell takes the element that it owns (sampled). -/
def StepFormed (st : StepIn) : Prop :=
  st.rows.length = 64 ∧ st.cols.length = 64 ∧
    ((st.sampled = false ∧ (∀ r ∈ st.rows, ∃ x y, r = .code x y) ∧ ∀ c ∈ st.cols, ∃ u v, c = .code u v) ∨
     (st.sampled = false ∧ (∀ r ∈ st.rows, ∃ o p q, r = .slot o p q ∧ p < 8) ∧ ∀ c ∈ st.cols, ∃ e k, c = .group e k) ∨
     (st.sampled = true ∧ (∀ r ∈ st.rows, ∃ x y, r = .code x y) ∧ (∀ c ∈ st.cols, ∃ e k, c = .group e k) ∧
       ∀ i j p, elemD (elemD st.owner i []) j none = some p → p < 8))

/-- An accumulator `new` is `old` with `prod` added modulo 2^24 and `corr` modulo 2^29. -/
def AddsTo (old new : Acc) (prod corr : Int) : Prop :=
  new.val.toInt = (old.val.toInt + prod).bmod (2 ^ 24) ∧ new.corr.toInt = (old.corr.toInt + corr).bmod (2 ^ 29)

/-- The posted writes that wait once the write of a source has taken effect. -/
def restOf (s : State) (src : WriteSrc) : List Posted :=
  match src with
  | .posted => s.posted.tail
  | .firmware _ => s.posted

/-- The state with another engine once the write of a source has taken effect. -/
def afterWrite (s : State) (src : WriteSrc) (e : Engine) : State := { s with posted := restOf s src, eng := e }

/-- The state with another engine. -/
def withEng (s : State) (e : Engine) : State := { s with eng := e }

/-- The reply that a command's message gets (R511, R514): the negotiated version, its opcode plus 0x80, its SEQ, the status
code and further words. -/
def replyMsg (e : Engine) (m : Msg) (code : Nat) (ws : List Word) : Msg :=
  { major := (negotiated e).1, minor := (negotiated e).2, opcode := m.opcode + 0x80, seq := m.seq, words := w32 code :: ws }

/-- Byte ranges (address, length) inside the address space of which no two overlap. -/
def Apart (l : List (Nat × Nat)) : Prop :=
  l.Pairwise (fun a b => a.1 + a.2 ≤ b.1 ∨ b.1 + b.2 ≤ a.1) ∧ ∀ a ∈ l, a.1 + a.2 ≤ 2 ^ 52

/-- A position that a mask step keeps is as it stood; one that it grows has the zero point as its code and +0 for all else, and stands at a
place that is eligible (R354, R357). -/
def KeptOrGrown (l0 : List MaskPos) (grows : Nat → Nat → Bool) (z : Nat → Nat) (x : MaskPos) : Prop :=
  x ∈ l0 ∨ (grows x.r x.c = true ∧ x.code = z x.r ∧ x.rho = 0 ∧ x.w = 0 ∧ x.mm = 0 ∧ x.v = 0)

/-- Processor `p` is up and its oldest command is `t`, of opcode `op`; no check turns it away, and the ring has room for the
reply. -/
def Servable (e : Engine) (p op : Nat) (t : Taken) : Prop :=
  frontFor e p op = some t ∧ screen e t = 0 ∧ e.mbx.ring.length < 256

/-- The commands that wait after processor `p` has taken its oldest one. -/
def takenAfter (e : Engine) (p : Nat) : List Taken := dropFirst (ownedBy p) e.mbx.taken

/-- The selection of UPD_COEF_SEL after an access to word `w` of group `g` (R575): with AUTO_INC set, the next word, and group 63
is followed by group 0. -/
def coefNext (auto : Bool) (g w : Nat) : Nat :=
  if !auto then at' g 8 + w
  else if w = 19 then at' 1 31 + at' ((g + 1) % 64) 8
  else at' 1 31 + at' g 8 + (w + 1)

/-- Nothing but link port `p` has changed. -/
def OnlyPort (s t : State) (p : PortId) : Prop :=
  t = withEng s { s.eng with lnk := { s.eng.lnk with ports := t.eng.lnk.ports } } ∧
    ∀ q, q ≠ p → portOf t.eng q = portOf s.eng q

/-- Link port `p` has dropped its link: nothing else has changed but that what it brought holds no credit of it (R376). -/
def PortDropped (s t : State) (p : PortId) : Prop :=
  t = withEng s { s.eng with lnk := { s.eng.lnk with
      ports := t.eng.lnk.ports, buckets := s.eng.lnk.buckets.map (forgetSource p) } } ∧
    ∀ q, q ≠ p → portOf t.eng q = portOf s.eng q

/-- Nothing but the power unit, with the islands, has changed. -/
def OnlyPower (s t : State) : Prop := t = withEng s { s.eng with pwr := t.eng.pwr }

/-- No entry waits in a crossing, and the shadows are held exactly while the hub's clock stands (R17, R563, text after R550). -/
def Settled (s : State) : Prop := s.held = [] ∧ (s.shadow = none ↔ hubClock s.eng = true)

/-- The lines that a command brings from memory. -/
def linesOfCmd : Instr → List MemLine
  | .fwStart _ rd _ | .graphAdmit rd | .taskFetch rd | .taskDispatch rd | .taskComplete _ rd | .tileIssue _ _ rd
  | .drainOnlyRun _ _ rd _ | .shortDescriptor rd | .shardReload _ rd | .bucketAdmit rd
  | .updateRow rd _ | .unicastReplay _ rd => rd
  | .bucketActivate _ r => r.rd
  | .maskBlock r | .maskFreeRow r | .checkpointEntryCopy r => r.rd
  | _ => []

/-- Whether a command is an entry that comes to its island through a crossing (R17). -/
def crosses : Instr → Bool
  | .memoryReadResponse .. | .memoryWriteResponse .. | .laneLock .. | .lockLoss .. | .capsReceive .. | .acceptReceive ..
  | .readyReceive .. | .ackReceive .. | .nakReceive .. | .creditReceive .. | .rxBeatDiscard .. | .dataFlitReceive ..
  | .resultFlitReceive .. | .okReceive .. | .failReceive .. | .sealReceive .. | .repeatReceive .. | .abandonReceive ..
  | .joinReceive .. | .goReceive .. => true
  | _ => false

/-- Whether a command answers a request of the memory port. -/
def isMemResponse : Instr → Bool
  | .memoryReadResponse .. | .memoryWriteResponse .. => true
  | _ => false

end Sys2Proof.Machine
end

