-- ==== Sys2Proof/Certificates/Slice0/Obligations.lean ====
section
/-! DEFINITION. Certificates/Slice0/Obligations.lean: the statements for the provers. In each, `exec` and `step` are the
model's; a docstring names the rules that a statement formalises, or says that it is the model's own choice. -/

open Sys2Proof Sys2Proof.Machine

/-! ### The queue, memory and the posted writes -/

/-- The front command runs on the state with the queue's rest. -/
def Obligations.StepRunsFrontCommand : Prop :=
  ∀ (s : State) (c : Instr) (rest : List Instr), s.pending = c :: rest →
    Machine.step s = Machine.exec c { s with pending := rest }

/-- On an empty queue a step is one nominal hub period (assumptions/1, a choice of the model): every island's counter takes
the cycles that end in it (R521), by the island's own running frequency (R544), a processor that restarts leaves reset (assumptions/81),
and registers, ports and memory stay; so do the mailboxes, but where the 100 ns of a voltage change end in it (R471), with which a
MODE_SET can be answered. -/
def Obligations.IdleStepCountsCycles : Prop :=
  ∀ s : State, s.pending = [] → s.eng.boot.state ≠ .off → ∃ t, Machine.step s = .next t ∧
    t.pending = [] ∧ t.posted = s.posted ∧ t.mem = s.mem ∧
    (∀ i, i < s.eng.pwr.islands.length →
      (islandOf t.eng i).cycles = (islandOf s.eng i).cycles +
        BitVec.ofNat 64 (((islandOf s.eng i).phase + runningHz s.eng i) / 1250000000) ∧
      (islandOf t.eng i).phase = ((islandOf s.eng i).phase + runningHz s.eng i) % 1250000000 ∧
      (islandOf t.eng i).hold = (islandOf s.eng i).hold) ∧
    (∀ p, procOf t.eng p = tickProc s.eng (procOf s.eng p)) ∧
    t.eng.rw = s.eng.rw ∧ t.eng.mp = s.eng.mp ∧ t.eng.sch = s.eng.sch ∧ t.eng.lnk = s.eng.lnk ∧
    t.eng.boot = s.eng.boot ∧ t.eng.fences = s.eng.fences ∧ t.held = s.held ∧ t.shadow = s.shadow ∧
    (s.eng.pwr.goodSince = true ∨ s.eng.pwr.goodCore = false → t.eng.mbx = s.eng.mbx)

/-- Every command answers a next state, and leaves the commands behind it waiting. A command that answers no memory request
changes memory only by the lines that it brings (R416): memory is the lines absorbed, and every byte of another line reads
as before, with its mark. Where a command sets a stopped clock running, a memory response that waited in a crossing is taken with it
(R17): the statement is of states in which none waits. -/
def Obligations.CommandsFrameMemory : Prop :=
  (∀ (c : Instr) (s : State), ∃ t, Machine.exec c s = .next t ∧ t.pending = s.pending) ∧
  (∀ (c : Instr) (s t : State), isMemResponse c = false → (∀ h ∈ s.held, isMemResponse h = false) →
     Machine.exec c s = .next t →
     t.mem = absorb s.mem (linesOfCmd c) ∧
     (∀ a, (∀ l ∈ linesOfCmd c, lineOf l.addr ≠ a / 64) → memGet t.mem a = memGet s.mem a) ∧
     (∀ n, (∀ l ∈ linesOfCmd c, lineOf l.addr ≠ n) → memPoison t.mem n = memPoison s.mem n))

/-- Every step keeps the invariant: device memory stays in its canonical form, the posted queue within its 32 entries (R442) and in order
with firmware's writes (R448), and the engine keeps its parts: 50 combs with their contexts, frames, rings and park records, the lines of
a ring under distinct numbers, fences, islands, sensors, ports, processors, a response ring of 256 messages at most. -/
def Obligations.StepKeepsInv : Prop :=
  ∀ s t : State, Inv s → Machine.step s = .next t → Inv t

/-- The state after reset meets the invariant. -/
def Obligations.ResetMeetsInv : Prop :=
  Inv Machine.State.reset

/-- Memory in canonical form: a read after a write gives the byte written, other bytes read as before, and two memories
that read alike are equal. -/
def Obligations.CanonicalMemoryLaws : Prop :=
  (∀ (m : List Host.Cell) (a : Nat) (b : Byte), cellsWf m = true → cellsGet (cellsPut m a b) a = b) ∧
  (∀ (m : List Host.Cell) (a x : Nat) (b : Byte), cellsWf m = true → x ≠ a → cellsGet (cellsPut m a b) x = cellsGet m x) ∧
  (∀ m n : List Host.Cell, cellsWf m = true → cellsWf n = true → (∀ a, cellsGet m a = cellsGet n a) → m = n)

/-! ### The control port -/

/-- A write presented while the hub answers and the queue has room waits as its last entry; the selection of UPD_COEF_SEL is
taken at the port (R575); a write presented while 32 entries wait is not accepted (R442), nor one before hub lock (R482). A
read in the cycle after an accepted write of a plain RW register returns the written fields, though the write has not
reached its island (R443). cp_rst_n resets the port logic only: the posted queue and the read data; a firmware write that waits
behind it (R448) stays. -/
def Obligations.WritesQueueInOrder : Prop :=
  (∀ (s : State) (addr : BitVec 16) (data : Word) (r : RegName), regAt addr.toNat = some r → r ≠ .updCoefData →
     (s.eng.boot.hubLocked = true → portWrites s.posted < 32 →
       (r ≠ .updCoefSel → Machine.exec (.cpWriteAccept addr data) s = .next { s with
         posted := s.posted ++ [{ addr := addr.toNat, data := data, stamp := s.eng.hub.stamp + 1 }]
         eng := { s.eng with hub := { s.eng.hub with stamp := s.eng.hub.stamp + 1 } } }) ∧
       (r = .updCoefSel → Machine.exec (.cpWriteAccept addr data) s = .next { s with
         posted := s.posted ++ [{ addr := addr.toNat, data := data }], eng := setRw s.eng .updCoefSel data.toNat })) ∧
     (32 ≤ portWrites s.posted ∨ s.eng.boot.hubLocked = false → Machine.exec (.cpWriteAccept addr data) s = .next s)) ∧
  (∀ (s : State) (addr : BitVec 16) (data : Word) (r : RegName), regAt addr.toNat = some r →
     r ∈ [RegName.hubFmtCtrl, .hubSrSeed, .hubQntCtrl, .hubPoisonCtrl, .hubErrMask, .hubFenceSel, .schCtrl, .frgDlOffset,
       .frgPfCtrl, .lnkCtrl, .pwrThermMask, .pwrThermCtrl, .pwrTsSel, .clkIslSel, .fwpWdt, .logBaseLo, .logBaseHi, .logSize,
       .logTail, .fusTrimSel] →
     s.eng.boot.hubLocked = true → portWrites s.posted < 32 → stampsOrdered s = true →
     ∃ t u, Machine.exec (.cpWriteAccept addr data) s = .next t ∧ Machine.exec (.rcFieldRead addr []) t = .next u ∧
       u.eng.hub.rdata.toNat = Nat.land data.toNat (rwMask r) ∧ rwVal u.eng r = rwVal s.eng r ∧ u.posted = t.posted) ∧
  (∀ s : State, Machine.exec .cpPortReset s =
     .next { s with posted := s.posted.filter fun p => p.fw.isSome, eng := { s.eng with hub := { s.eng.hub with rdata := 0 } } })

/-- A read of a reserved or misaligned location returns 0, a write of it is ignored; each counts once in HUB_BAD_ACCESS,
which saturates, and its address is kept (R9, R447). A read never waits for the posted queue (R441); a write presented while the queue is
full is not accepted. Before hub lock a read of any location returns 0 and a write is dropped, and neither is counted (R482). -/
def Obligations.BadAccessCountsAndReadsZero : Prop :=
  (∀ (s : State) (addr : BitVec 16) (write : Bool), s.eng.boot.hubLocked = true →
    (regAt addr.toNat = none ∨ addr.toNat % 4 ≠ 0) →
    (write = false ∨ portWrites s.posted < 32 →
      ∃ t, Machine.exec (.badAccess addr write) s = .next t ∧ t.posted = s.posted ∧ t.mem = s.mem ∧
        ctrVal t.eng .badAccess = min 65535 (ctrVal s.eng .badAccess + 1) ∧
        (∀ k, k ≠ .badAccess → ctrVal t.eng k = ctrVal s.eng k) ∧
        t.eng.hub = { s.eng.hub with lastBad := addr, rdata := if write then s.eng.hub.rdata else 0 } ∧
        t.eng = { s.eng with hub := t.eng.hub, ctr := t.eng.ctr }) ∧
    (write = true → 32 ≤ portWrites s.posted → Machine.exec (.badAccess addr write) s = .next s)) ∧
  (∀ (s : State) (addr : BitVec 16), s.eng.boot.hubLocked = false →
    (∀ late, Machine.exec (.rcFieldRead addr late) s =
      .next (withEng s { s.eng with hub := { s.eng.hub with rdata := 0 } })) ∧
    Machine.exec (.badAccess addr false) s = .next (withEng s { s.eng with hub := { s.eng.hub with rdata := 0 } }) ∧
    (∀ (c : CombId) (late : Nat), Machine.exec (.obsUflowRead c late) s =
      .next (withEng s { s.eng with hub := { s.eng.hub with rdata := 0 } })) ∧
    Machine.exec (.coefDataAccess .portRead) s = .next (withEng s { s.eng with hub := { s.eng.hub with rdata := 0 } }) ∧
    (∀ data, Machine.exec (.cpWriteAccept addr data) s = .next s) ∧ Machine.exec (.badAccess addr true) s = .next s ∧
    (∀ v, Machine.exec (.coefDataAccess (.portWrite v)) s = .next s))

/-- A posted write takes effect as the head of the queue (R442): a register's RW fields take the written bits and every other register
keeps its own (R6); bit 0 of LOG_MASK0 reads 1 whatever is written; the selection of UPD_COEF_SEL was taken as the write was accepted
(R575), so that nothing more is stored; the firmware window's registers store in AWAIT_FW (R496). What firmware has written to the register
since the write was accepted stays, since the later write wins (R448): then nothing is stored. -/
def Obligations.PostedWriteTakesRwFields : Prop :=
  ∀ (s : State) (p : Posted) (ps : List Posted) (r : RegName), HubUp s.eng → s.posted = p :: ps → postedReg p = some r →
    p.coef = none → ownRow r p.data.toNat = false → (isMbxCmd r = true → s.eng.mbx.busy = false) → rwMask r ≠ 0 →
    (r ∈ [RegName.cfgFwWinAddr, .cfgFwDmaLo, .cfgFwDmaHi] → s.eng.boot.state = .awaitFw) →
    (overtaken s.eng p r = false → r ≠ .updCoefSel →
      ∃ t, Machine.exec .postedWriteApply s = .next t ∧ t.posted = ps ∧ t.mem = s.mem ∧ t.pending = s.pending ∧
        rwVal t.eng r = (if r = .logMask 0 then Nat.lor p.data.toNat 1 else Nat.land p.data.toNat (rwMask r)) ∧
        (∀ q, q ≠ r → rwVal t.eng q = rwVal s.eng q) ∧
        (r ≠ .hubDone → t.eng = { s.eng with rw := t.eng.rw })) ∧
    (r = .updCoefSel → Machine.exec .postedWriteApply s = .next { s with posted := ps }) ∧
    (overtaken s.eng p r = true → fwBits r = 0xFFFFFFFF → Machine.exec .postedWriteApply s = .next { s with posted := ps }) ∧
    (r = .pwrThermCtrl → overtaken s.eng p r = true → ∃ t, Machine.exec .postedWriteApply s = .next t ∧ t.posted = ps ∧
      rwVal t.eng r = Nat.land p.data.toNat 0xFF + Nat.land (rwVal s.eng r) 0xFF00 ∧
      (∀ q, q ≠ r → rwVal t.eng q = rwVal s.eng q) ∧ t.eng = { s.eng with rw := t.eng.rw } ∧ t.mem = s.mem)

/-- The other outcomes of a posted write: a 1 clears a W1C bit and a 0 leaves it (R6); a write of a register that has no
field to store and none that acts changes nothing but the queue (R7, R8); a write of an MBX_CMD_ register while BUSY
counts in IGNORED (R509); DUTY is taken up to 56, unless FP0's loop has written it since (R448); the firmware window's registers store
only in AWAIT_FW (R496). -/
def Obligations.PostedWriteOtherFields : Prop :=
  ∀ (s : State) (p : Posted) (ps : List Posted) (r : RegName), HubUp s.eng → s.posted = p :: ps → postedReg p = some r →
    p.coef = none → ownRow r p.data.toNat = false → (r ≠ .pwrThrottle → overtaken s.eng p r = false) →
    (r = .hubErrStatus → ∃ t, Machine.exec .postedWriteApply s = .next t ∧
      (∀ i, i < 8 → t.eng.hub.errStatus.getLsbD i = (s.eng.hub.errStatus.getLsbD i && !p.data.getLsbD i)) ∧
      t = { s with posted := ps, eng := { s.eng with hub := { s.eng.hub with errStatus := t.eng.hub.errStatus } } }) ∧
    (r = .pwrThermStatus → ∃ t, Machine.exec .postedWriteApply s = .next t ∧
      (∀ i, i < 4 → t.eng.pwr.thermStatus.getLsbD i = (s.eng.pwr.thermStatus.getLsbD i && !p.data.getLsbD i)) ∧
      t = { s with posted := ps, eng := { s.eng with pwr := { s.eng.pwr with thermStatus := t.eng.pwr.thermStatus } } }) ∧
    (r = .hubDone → ∃ t, Machine.exec .postedWriteApply s = .next t ∧ t.posted = ps ∧
      t.eng.hub = { s.eng.hub with graphDone := s.eng.hub.graphDone && !p.data.getLsbD 0 }) ∧
    (r = .pwrThrottle → Machine.exec .postedWriteApply s = .next { s with
      posted := ps
      eng := { s.eng with pwr := { s.eng.pwr with
        duty := if overtaken s.eng p .pwrThrottle then s.eng.pwr.duty else min 56 (p.data.toNat % 64) } } }) ∧
    (isMbxCmd r = true → s.eng.mbx.busy = true → Machine.exec .postedWriteApply s = .next { s with
      posted := ps, eng := { s.eng with ctr := assign s.eng.ctr .mbxIgnored (min 255 (ctrVal s.eng .mbxIgnored + 1)) } }) ∧
    (r ∈ [RegName.cfgFwWinAddr, .cfgFwDmaLo, .cfgFwDmaHi] → s.eng.boot.state ≠ .awaitFw →
      Machine.exec .postedWriteApply s = .next { s with posted := ps }) ∧
    (rwMask r = 0 → r ∉ [RegName.hubErrStatus, .pwrThermStatus, .pwrThrottle] → isMbxCmd r = false →
      Machine.exec .postedWriteApply s = .next { s with posted := ps })

/-- A read returns the register's value, and each of its counter fields loses the value shown: events counted after the
shadow was taken (`late`) remain, and a field that was saturated returns to 0 (R6, R445). Nothing else changes. While the shadows are not
refreshed, in NAP and HIBERNATE (R563) and while a dip has stopped the hub's clock, the read returns what they last showed. -/
def Obligations.CounterReadTakesShownValue : Prop :=
  ∀ (s : State) (addr : BitVec 16) (r : RegName) (late : List Nat), s.eng.boot.hubLocked = true →
    regAt addr.toNat = some r → r ≠ .updCoefData → (∀ c, r ≠ .cmbObsUflow c) →
    (s.shadow = none → ∃ t, Machine.exec (.rcFieldRead addr late) s = .next t ∧ t.posted = s.posted ∧ t.mem = s.mem ∧
      t.eng.hub = { s.eng.hub with rdata := w32 (readReg s.posted s.eng r late) } ∧
      (∀ i f, (rcFields s.posted s.eng r)[i]? = some f →
        ctrVal t.eng f.2 =
          (if rcShown s.eng f.2 (elemD late i 0) = ctrMax f.2 / ctrUnit f.2 then 0
           else ctrVal s.eng f.2 - rcShown s.eng f.2 (elemD late i 0) * ctrUnit f.2)) ∧
      (∀ k, k ∉ (rcFields s.posted s.eng r).map Prod.snd → ctrVal t.eng k = ctrVal s.eng k) ∧
      t.eng = { s.eng with hub := t.eng.hub, ctr := t.eng.ctr }) ∧
    (∀ sh, s.shadow = some sh → ∃ t, Machine.exec (.rcFieldRead addr late) s = .next t ∧ t.posted = s.posted ∧ t.mem = s.mem ∧
      t.eng.hub = { s.eng.hub with rdata := w32 (readReg s.posted { sh with rw := s.eng.rw } r []) } ∧
      (rcFields s.posted { sh with rw := s.eng.rw } r = [] → t.eng.ctr = s.eng.ctr ∧ t.shadow = s.shadow) ∧
      t.eng = { s.eng with hub := t.eng.hub, ctr := t.eng.ctr })

/-- An access to UPD_COEF_DATA with WORD below 20 and AUTO_INC set advances WORD, and GROUP after word 19; with AUTO_INC
clear the selection stays. A port read returns the selected word with the waiting writes to it, a firmware write stores the bits
that the word has, a port write waits with its word's index (R575). With WORD 20 to 31 a read returns 0, nothing is stored and
nothing advances. A read of CMB_OBS_UFLOW returns and takes the underflow count, copies the live count of non-zero elements to
CMB_OBS_NONZERO and clears it. -/
def Obligations.CoefAndObserverReads : Prop :=
  (∀ (s : State) (g w : Nat) (auto : Bool), g < 64 → w < 20 → s.eng.boot.hubLocked = true →
     rwVal s.eng .updCoefSel = at' (b2n auto) 31 + at' g 8 + w →
     (∃ t, Machine.exec (.coefDataAccess .portRead) s = .next t ∧ t.posted = s.posted ∧ t.mem = s.mem ∧
       (s.shadow = none → (∀ p ∈ s.posted, p.coef ≠ some (20 * g + w)) → t.eng.hub.rdata = coefWord s.eng (20 * g + w)) ∧
       (∀ p ps, s.posted = ps ++ [p] → p.coef = some (20 * g + w) →
         t.eng.hub.rdata.toNat = Nat.land p.data.toNat (coefMask (20 * g + w))) ∧
       rwVal t.eng .updCoefSel = coefNext auto g w ∧ t.eng.cap = s.eng.cap ∧ t.eng.ctr = s.eng.ctr) ∧
     (∃ t, Machine.exec (.coefDataAccess .fwRead) s = .next t ∧ t.posted = s.posted ∧ t.mem = s.mem ∧
       rwVal t.eng .updCoefSel = coefNext auto g w ∧ t.eng = { s.eng with rw := t.eng.rw }) ∧
     (∀ v : Word, portWrites s.posted < 32 → ∃ t, Machine.exec (.coefDataAccess (.portWrite v)) s = .next t ∧
       t.posted = s.posted ++ [{ addr := 0x1808, data := v, coef := some (20 * g + w) }] ∧ t.mem = s.mem ∧
       rwVal t.eng .updCoefSel = coefNext auto g w ∧ t.eng = { s.eng with rw := t.eng.rw }) ∧
     (∀ v : Word, ∃ t, Machine.exec (.coefDataAccess (.fwWrite v)) s = .next t ∧ t.mem = s.mem ∧
       (∀ p ∈ t.posted, p.coef ≠ some (20 * g + w)) ∧
       ((∀ p ∈ s.posted, p.coef ≠ some (20 * g + w)) → t.posted = s.posted) ∧
       coefWord t.eng (20 * g + w) = (if 18 ≤ w then coefWord s.eng (20 * g + w)
         else w32 (Nat.land v.toNat (if w = 17 then 0xFF03 else 0xFFFFFFFF))) ∧
       (∀ i, i ≠ 20 * g + w → coefWord t.eng i = coefWord s.eng i) ∧ rwVal t.eng .updCoefSel = coefNext auto g w ∧
       t.eng.cap = { s.eng.cap with coef := t.eng.cap.coef } ∧ t.eng = { s.eng with rw := t.eng.rw, cap := t.eng.cap })) ∧
  (∀ (s : State) (acc : CoefAccess), s.eng.boot.hubLocked = true → 20 ≤ bits (rwVal s.eng .updCoefSel) 0 5 →
     ∃ t, Machine.exec (.coefDataAccess acc) s = .next t ∧ t.mem = s.mem ∧ t.eng = { s.eng with hub := t.eng.hub } ∧
       (acc = .portRead → t.eng.hub.rdata = 0)) ∧
  (∀ (s : State) (c : CombId) (late : Nat), s.eng.boot.hubLocked = true → s.eng.combs.length = 50 → s.shadow = none →
     ctrVal s.eng (.comb c .uflow) < 2 ^ 32 →
     ∃ t, Machine.exec (.obsUflowRead c late) s = .next t ∧ t.posted = s.posted ∧ t.mem = s.mem ∧
       t.eng.hub.rdata = w32 (ctrVal s.eng (.comb c .uflow) - late) ∧
       ctrVal t.eng (.comb c .uflow) =
         (if ctrVal s.eng (.comb c .uflow) - late = 2 ^ 32 - 1 then 0 else min late (ctrVal s.eng (.comb c .uflow))) ∧
       (combOf t.eng c).nonzeroShadow = (combOf s.eng c).nonzero ∧ (combOf t.eng c).nonzero = 0 ∧
       (∀ d, d ≠ c → combOf t.eng d = combOf s.eng d) ∧ (∀ k, k ≠ .comb c .uflow → ctrVal t.eng k = ctrVal s.eng k))

/-- A 1 written to VALID clears HUB_ERR_FIRST and HUB_ERR_FIRST_TASK and arms the capture; the error bits stay. SEND sets
BUSY and records the hub's time; while BUSY it is an ignored write that counts (R509). POP removes the oldest message, does
nothing to an empty ring, and IRQ_EN takes the written value (R512); messages that waited for room follow in their order (R511). -/
def Obligations.WritesActAtOnce : Prop :=
  (∀ (s : State) (src : WriteSrc) (v : Word), HubUp s.eng → Presents s src .hubErrFirst v → v.getLsbD 31 = true →
     Machine.exec (.errFirstRearm src) s =
       .next (afterWrite s src { s.eng with hub := { s.eng.hub with errFirst := none, errTask := 0 } })) ∧
  (∀ (s : State) (src : WriteSrc) (v : Word), HubUp s.eng → Presents s src .mbxCmdCtrl v → v.getLsbD 0 = true →
     Machine.exec (.send src) s = .next (afterWrite s src
       (if s.eng.mbx.busy then { s.eng with ctr := assign s.eng.ctr .mbxIgnored (min 255 (ctrVal s.eng .mbxIgnored + 1)) }
        else { s.eng with mbx := { s.eng.mbx with busy := true, lastSend := some s.eng.hub.cycle } }))) ∧
  (∀ (s : State) (src : WriteSrc) (v : Word), HubUp s.eng → Presents s src .mbxRspCtrl v → v.getLsbD 31 = true →
     ∃ t, Machine.exec (.pop src) s = .next t ∧ t.posted = restOf s src ∧ t.mem = s.mem ∧
       t.eng.mbx = { s.eng.mbx with
         ring := s.eng.mbx.ring.tail ++ s.eng.mbx.backlog.take (256 - s.eng.mbx.ring.tail.length)
         backlog := s.eng.mbx.backlog.drop (256 - s.eng.mbx.ring.tail.length) } ∧
       rwVal t.eng .mbxRspCtrl = Nat.land v.toNat 0x10000 ∧ (∀ q, q ≠ .mbxRspCtrl → rwVal t.eng q = rwVal s.eng q) ∧
       t.eng = { s.eng with rw := t.eng.rw, mbx := t.eng.mbx })

/-! ### The mailboxes -/

/-- FP3 takes a command only with 9 free entries in the response ring; BUSY falls, and the command waits for its owner
behind those taken before it (R510, R530). The processor that leaves WFI clears TARGET (R558). A command that a check turns
away gets exactly one reply, its opcode plus 0x80 with the status code, and changes nothing else (R511, R514, R517, Tables 16-3 and
16-4): BAD_VERSION for another version than the stated one, BAD_OPCODE for an opcode that the negotiated minor does not have, BAD_LENGTH for
a length above 16 or below the opcode's words, WRONG_STATE in a state that does not serve it, NOT_ADOPTED for a command that needs an adopted
host; in that order (DEDUCED from the codes, assumptions/67). No message of the ring is lost. -/
def Obligations.CommandsTakenAndTurnedAway : Prop :=
  (∀ s : State, procUp s.eng 3 = true → s.eng.pwr.pstate = .active → s.eng.mbx.busy = true →
     (248 ≤ s.eng.mbx.ring.length → Machine.exec .commandIntake s = .next s) ∧
     (s.eng.mbx.ring.length < 248 → (msgOwner (mailboxMsg s.eng).msg.opcode.toNat).isSome = true →
       Machine.exec .commandIntake s = .next (withEng s { s.eng with
         mbx := { s.eng.mbx with busy := false, taken := s.eng.mbx.taken ++ [mailboxMsg s.eng] }
         pwr := { s.eng.pwr with target := 0 } })) ∧
     (s.eng.mbx.ring.length < 248 → msgOwner (mailboxMsg s.eng).msg.opcode.toNat = none →
       ∃ t code, Machine.exec .commandIntake s = .next t ∧ (code = 1 ∨ code = 2) ∧ t.posted = s.posted ∧
         t.eng.mbx = { s.eng.mbx with
           busy := false, ring := s.eng.mbx.ring ++ [replyMsg s.eng (mailboxMsg s.eng).msg code []] })) ∧
  (∀ (s : State) (c : Instr) (p op words since : Nat) (served : List EngState) (t : Taken) (code : Nat),
     (c, p, op, words, since, served) ∈ [
       (Instr.heartbeat, 3, 2, 0, 0, [EngState.run, .refused, .orphaned]), (.graphSubmit, 1, 3, 3, 0, [.run]),
       (.graphAbort, 1, 4, 1, 0, [.run]), (.fenceRequest, 1, 5, 1, 0, [.run]), (.unfenceRequest, 1, 6, 1, 0, [.run]),
       (.modeSet, 0, 7, 1, 0, [.run]), (.checkpointRequest, 1, 8, 3, 1, [.run]),
       (.logQuery, 3, 9, 0, 0, [.run, .refused, .orphaned]), (.park, 1, 10, 0, 2, [.run]),
       (.adopt, 1, 11, 0, 0, [.run, .orphaned])] →
     (c = .modeSet → s.eng.mbx.modeReply = none) →
     (c = .fenceRequest → s.eng.pwr.padHold = false ∨ s.eng.sch.run = none) →
     frontFor s.eng p op = some t → s.eng.mbx.ring.length < 256 →
     (s.eng.mbx.stated ≠ some (t.msg.major, t.msg.minor) ∧ code = 1) ∨
       (s.eng.mbx.stated = some (t.msg.major, t.msg.minor) ∧
         ((min t.msg.minor.toNat s.eng.boot.fwMinor.toNat < since ∧ code = 2) ∨
          (since ≤ min t.msg.minor.toNat s.eng.boot.fwMinor.toNat ∧
            (((16 < t.len ∨ t.len < words) ∧ code = 3) ∨
             (words ≤ t.len ∧ t.len ≤ 16 ∧
               ((s.eng.boot.state ∉ served ∧ code = 7) ∨
                (s.eng.boot.state ∈ served ∧ op ∈ [3, 4, 5, 6, 7, 8, 10] ∧
                  (s.eng.mbx.host = .draining ∨ s.eng.mbx.host = .orphaned) ∧ code = 6))))))) →
     Machine.exec c s = .next (withEng s (leaveWfi { s.eng with mbx := { s.eng.mbx with
       taken := takenAfter s.eng p, ring := s.eng.mbx.ring ++ [replyMsg s.eng t.msg code []] } })))

/-- HEARTBEAT is answered with the engine state and HOST_STATE and changes nothing else (Table 16-4, R533). LOG_QUERY (R526)
with no record that fits in the memory ring: the answer holds LOG_HEAD, the records in the shadow, LOG_LOST (not cleared) and
the four processors' restarts since cold start; while one fits, or its write is outstanding, the answer waits. -/
def Obligations.QueriesAnswerState : Prop :=
  (∀ (s : State) (t : Taken), Servable s.eng 3 opHeartbeat t →
     Machine.exec .heartbeat s = .next (withEng s (leaveWfi { s.eng with mbx := { s.eng.mbx with
       taken := takenAfter s.eng 3
       ring := s.eng.mbx.ring ++ [replyMsg s.eng t.msg 0 [w32 (stateCode s.eng.boot.state), w32 (hostCode s.eng.mbx.host)]] } }))) ∧
  (∀ (s : State) (t : Taken), Servable s.eng 3 opLogQuery t →
     (logRoom s.eng = false → s.eng.log.moving = false → s.eng.log.queries = [] →
       Machine.exec .logQuery s = .next (withEng s (leaveWfi { s.eng with mbx := { s.eng.mbx with
         taken := takenAfter s.eng 3
         ring := s.eng.mbx.ring ++ [replyMsg s.eng t.msg 0 ([w32 s.eng.log.head, w32 s.eng.log.shadow.length,
           w32 (ctrVal s.eng .logLost)] ++ (List.range 4).map fun p => w32 (elemD s.eng.fwp.totals p 0))] } }))) ∧
     (logRoom s.eng = true ∨ s.eng.log.moving = true → ∃ u, Machine.exec .logQuery s = .next u ∧
       u.eng.mbx = { s.eng.mbx with taken := takenAfter s.eng 3 } ∧ u.eng.log.queries = s.eng.log.queries ++ [t.msg] ∧
       (logFree s.eng = true → u.eng.log.moving = true) ∧ u.eng.log.shadow = s.eng.log.shadow ∧ u.mem = s.mem ∧
       u.posted = s.posted))

/-- HELLO (R515, R516): with the firmware's major it becomes the stated version, moves FW_CHECK to RUN and no other state,
sets HOST_STATE to LIVE unless the host is DRAINING or ORPHANED, and is answered OK; with another major it is answered
BAD_VERSION, moves FW_CHECK to REFUSED and leaves the stated version. With too few or too many words it is answered BAD_LENGTH, in a state
that does not serve it WRONG_STATE, with a heartbeat timeout out of its range BAD_ARG (Tables 16-3 and 16-4), and changes nothing else. -/
def Obligations.HelloSetsVersionAndState : Prop :=
  ∀ (s : State) (t : Taken), frontFor s.eng 1 opHello = some t → s.eng.mbx.ring.length < 256 →
    (t.msg.major ≠ s.eng.boot.fwMajor → ∃ u, Machine.exec .hello s = .next u ∧
      u.eng.boot.state = (if s.eng.boot.state = .fwCheck then .refused else s.eng.boot.state) ∧
      u.eng.mbx = { s.eng.mbx with
        taken := takenAfter s.eng 1, ring := s.eng.mbx.ring ++ [replyMsg s.eng t.msg 1 []] } ∧
      u.posted = s.posted ∧ u.mem = s.mem) ∧
    (∀ code, t.msg.major = s.eng.boot.fwMajor →
      ((t.len < 2 ∨ 16 < t.len) ∧ code = 3) ∨
        (2 ≤ t.len ∧ t.len ≤ 16 ∧
          ((s.eng.boot.state ∉ [EngState.fwCheck, .run, .refused, .orphaned] ∧ code = 7) ∨
           (s.eng.boot.state ∈ [EngState.fwCheck, .run, .refused, .orphaned] ∧ msgWord t.msg 0 ≠ 0 ∧
             (msgWord t.msg 0 < 100 ∨ 60000 < msgWord t.msg 0) ∧ code = 4))) →
      Machine.exec .hello s = .next (withEng s (leaveWfi { s.eng with mbx := { s.eng.mbx with
        taken := takenAfter s.eng 1, ring := s.eng.mbx.ring ++ [replyMsg s.eng t.msg code []] } }))) ∧
    (t.msg.major = s.eng.boot.fwMajor → 2 ≤ t.len → t.len ≤ 16 →
      (msgWord t.msg 0 = 0 ∨ 100 ≤ msgWord t.msg 0 ∧ msgWord t.msg 0 ≤ 60000) →
      s.eng.boot.state ∈ [EngState.fwCheck, .run, .refused, .orphaned] →
      ∃ u ws, Machine.exec .hello s = .next u ∧
        u.eng.boot = { s.eng.boot with state := if s.eng.boot.state = .fwCheck then .run else s.eng.boot.state } ∧
        u.eng.mbx.stated = some (t.msg.major, t.msg.minor) ∧
        u.eng.mbx.host = (if s.eng.mbx.host = .draining ∨ s.eng.mbx.host = .orphaned then s.eng.mbx.host else .live) ∧
        (s.eng.mbx.host ≠ .draining → s.eng.mbx.host ≠ .orphaned →
          u.eng.mbx.hbTimeout = (if msgWord t.msg 0 = 0 then 2000 else msgWord t.msg 0) ∧ u.eng.mbx.hbRunning = true) ∧
        u.eng.mbx.ring = s.eng.mbx.ring ++ [replyMsg u.eng t.msg 0 ws] ∧
        ws = [s.eng.boot.fwInfo, w32 (stateCode u.eng.boot.state), w32 (hostCode u.eng.mbx.host), w32 (notDone s.eng),
          runningWord s.eng, w32 s.eng.mbx.ring.length] ∧
        u.eng.mbx.taken = takenAfter s.eng 1 ∧ u.posted = s.posted ∧ u.mem = s.mem)

/-- GRAPH_SUBMIT (R293, Table 16-4): with fewer than eight graphs not done, an aligned header address joins the queue's end
under the next GRAPH_ID of the rotation, and is answered OK with it; with eight it is answered QUEUE_FULL, and an address that is not
aligned or out of range BAD_ARG.
CHECKPOINT_REQUEST (R519): with fewer than eight graphs not done, FP1's graph joins the queue at its head with a cookie of
0, under the next GRAPH_ID, and the command is answered OK with it; with eight it is answered QUEUE_FULL. -/
def Obligations.SubmitQueuesGraph : Prop :=
  (∀ (s : State) (t : Taken) (a : Nat), Servable s.eng 1 opSubmit t → msgAddr t.msg 0 128 = some a →
     (8 ≤ notDone s.eng → Machine.exec .graphSubmit s = .next (withEng s (leaveWfi { s.eng with mbx := { s.eng.mbx with
       taken := takenAfter s.eng 1, ring := s.eng.mbx.ring ++ [replyMsg s.eng t.msg 5 []] } }))) ∧
     (notDone s.eng < 8 → Machine.exec .graphSubmit s = .next (withEng s (leaveWfi { s.eng with
       sch := { s.eng.sch with
         nextGid := (s.eng.sch.nextGid + 1) % 255, done := s.eng.sch.done.filter (· ≠ s.eng.sch.nextGid)
         queue := s.eng.sch.queue ++ [{ gid := s.eng.sch.nextGid, addr := a, cookie := w32 (msgWord t.msg 2) }] }
       mbx := { s.eng.mbx with
         taken := takenAfter s.eng 1, ring := s.eng.mbx.ring ++ [replyMsg s.eng t.msg 0 [w32 s.eng.sch.nextGid]] } })))) ∧
  (∀ (s : State) (t : Taken), Servable s.eng 1 opSubmit t → msgAddr t.msg 0 128 = none →
     Machine.exec .graphSubmit s = .next (withEng s (leaveWfi { s.eng with mbx := { s.eng.mbx with
       taken := takenAfter s.eng 1, ring := s.eng.mbx.ring ++ [replyMsg s.eng t.msg 4 []] } }))) ∧
  (∀ (s : State) (t : Taken), Servable s.eng 1 opCheckpoint t → cellsWf s.eng.sch.ckptArea = true →
     (8 ≤ notDone s.eng → Machine.exec .checkpointRequest s = .next (withEng s (leaveWfi { s.eng with mbx := { s.eng.mbx with
       taken := takenAfter s.eng 1, ring := s.eng.mbx.ring ++ [replyMsg s.eng t.msg 5 []] } }))) ∧
     (notDone s.eng < 8 → ∃ u, Machine.exec .checkpointRequest s = .next u ∧
       u.eng.sch.queue = { gid := s.eng.sch.nextGid, addr := 0, cookie := 0, ckpt := some (ckptSlot s.eng) } :: s.eng.sch.queue ∧
       u.eng.sch.nextGid = (s.eng.sch.nextGid + 1) % 255 ∧ u.eng.sch.run = s.eng.sch.run ∧
       u.eng.mbx = { s.eng.mbx with
         taken := takenAfter s.eng 1, ring := s.eng.mbx.ring ++ [replyMsg s.eng t.msg 0 [w32 s.eng.sch.nextGid]] } ∧
       cellsRead u.eng.sch.ckptArea (512 * ckptSlot s.eng + 128) 8 =
         [7, 3, 0, 0] ++ leBytes 4 (msgWord t.msg 2) ∧
       cellsRead u.eng.sch.ckptArea (512 * ckptSlot s.eng + 128 + 104) 8 =
         leBytes 8 (msgWord t.msg 0 + msgWord t.msg 1 * 2 ^ 32) ∧
       u.posted = s.posted ∧ u.mem = s.mem))

/-- GRAPH_ABORT (Table 16-4, R518): a queued graph leaves the queue and ends with GRAPH_DONE of outcome ABORTED; a running
graph is asked to stop with ABORTED and the answer waits; a graph already done is answered OK with no effect; another is
answered UNKNOWN_GRAPH. -/
def Obligations.GraphAbortEndsGraph : Prop :=
  ∀ (s : State) (t : Taken), Servable s.eng 1 opAbort t → s.eng.mbx.ring.length < 254 → msgWord t.msg 0 < 255 →
    (∀ q, (s.eng.sch.queue.find? fun x => x.gid == msgWord t.msg 0) = some q → s.eng.mbx.abortReplies = [] →
      ∃ u, Machine.exec .graphAbort s = .next u ∧
        u.eng.sch.queue = (s.eng.sch.queue.filter fun x => x.gid ≠ msgWord t.msg 0) ∧ u.eng.hub.graphDone = true ∧
        u.eng.sch.run = s.eng.sch.run ∧ u.mem = s.mem ∧ u.posted = s.posted ∧
        (u.eng.mbx.ring.drop s.eng.mbx.ring.length).map Msg.words =
          [[w32 q.gid, q.cookie, w32 (3 + 256 * 19), w32 0x1FFFFF, w32 s.eng.sch.completedCount], [0]] ∧
        u.eng.mbx.ring.take s.eng.mbx.ring.length = s.eng.mbx.ring) ∧
    ((s.eng.sch.queue.find? fun x => x.gid == msgWord t.msg 0) = none → ∀ g, s.eng.sch.run = some g →
      g.sub.gid = msgWord t.msg 0 → g.stop = none →
      Machine.exec .graphAbort s = .next (withEng s (leaveWfi { s.eng with
        sch := { s.eng.sch with run := some { g with stop := some 19, stopUnit := 0xF0, stopTask := 0x1FFFFF } }
        mbx := { s.eng.mbx with
          taken := takenAfter s.eng 1, abortReplies := s.eng.mbx.abortReplies ++ [(msgWord t.msg 0, t.msg)] } }))) ∧
    ((s.eng.sch.queue.find? fun x => x.gid == msgWord t.msg 0) = none →
      (∀ g, s.eng.sch.run = some g → g.sub.gid ≠ msgWord t.msg 0) →
      Machine.exec .graphAbort s = .next (withEng s (leaveWfi { s.eng with mbx := { s.eng.mbx with
        taken := takenAfter s.eng 1
        ring := s.eng.mbx.ring ++ [replyMsg s.eng t.msg (if msgWord t.msg 0 ∈ s.eng.sch.done then 0 else 9) []] } })))

/-- FENCE_REQUEST (R413): an enabled comb is fenced with CAUSE 4: it is no longer enabled, its island's clock stops, its
contexts, queues and activation store are lost, HUB_ERR_STATUS bit 3 is set, and the command is answered OK. With a graph running, the tasks
in the comb's contexts are issued again, ready at the head of their class queue with the same record (R318), and the regions that the comb
held are placed elsewhere (R217). A comb fenced already is answered OK and nothing else changes; a number above 49 is answered BAD_ARG. Under
pad hold with a graph running the command waits (R562). UNFENCE_REQUEST (R415):
UNFENCE_PENDING is set for a comb fenced at run time or by the image while the enabled count of the next admission stays
below 48; a comb that is not fenced, or fenced by fuse, is answered NOT_ALLOWED (Table 16-4). -/
def Obligations.FenceRequestsCloseAndOpen : Prop :=
  (∀ s : State, s.eng.pwr.padHold = true → s.eng.sch.run.isSome = true → Machine.exec .fenceRequest s = .next s) ∧
  (∀ (s : State) (t : Taken), Servable s.eng 1 opFence t → s.eng.pwr.padHold = false ∨ s.eng.sch.run = none →
     (50 ≤ msgWord t.msg 0 → Machine.exec .fenceRequest s = .next (withEng s (leaveWfi { s.eng with mbx := { s.eng.mbx with
       taken := takenAfter s.eng 1, ring := s.eng.mbx.ring ++ [replyMsg s.eng t.msg 4 []] } }))) ∧
     (∀ c : CombId, c.val = msgWord t.msg 0 → enabled s.eng c = false →
       Machine.exec .fenceRequest s = .next (withEng s (leaveWfi { s.eng with mbx := { s.eng.mbx with
         taken := takenAfter s.eng 1, ring := s.eng.mbx.ring ++ [replyMsg s.eng t.msg 0 []] } }))) ∧
     (∀ c : CombId, c.val = msgWord t.msg 0 → enabled s.eng c = true → s.eng.fences.length = 50 → s.eng.combs.length = 50 →
       s.eng.pwr.islands.length = 57 →
       ∃ u, Machine.exec .fenceRequest s = .next u ∧ u.mem = s.mem ∧ u.posted = s.posted ∧
         fenceOf u.eng c = { cause := 4, frame := 0, pending := false } ∧ (∀ d, d ≠ c → fenceOf u.eng d = fenceOf s.eng d) ∧
         (islandOf u.eng c.val).started = false ∧ (combOf u.eng c).ctxs = [none, none, none, none] ∧
         (combOf u.eng c).act = [] ∧ (combOf u.eng c).outQ = [] ∧ (combOf u.eng c).ringQ = [] ∧
         u.eng.hub.errStatus.getLsbD 3 = true ∧
         (∀ i, i ≠ 3 → i ≠ 7 → u.eng.hub.errStatus.getLsbD i = s.eng.hub.errStatus.getLsbD i) ∧
         u.eng.mbx.ring = s.eng.mbx.ring ++ [replyMsg s.eng t.msg 0 []] ∧ u.eng.boot = s.eng.boot ∧ u.eng.rw = s.eng.rw ∧
         (s.eng.sch.run = none → u.eng.sch = s.eng.sch) ∧
         (∀ g, s.eng.sch.run = some g → (g.tasks.map Task.index).Nodup → (g.regions.map Region.handle).Nodup →
           ∃ g', u.eng.sch.run = some g' ∧
             (∀ tk ∈ g.tasks, runsIn tk c = true → ∃ tk', taskOf u.eng tk.index = some tk' ∧ tk'.life = .ready ∧
               tk'.head = true ∧ tk'.reissued = true ∧ tk'.record = tk.record) ∧
             (∀ r ∈ g'.regions, r.place ≠ .resident c) ∧
             g'.regions.map Region.handle = g.regions.map Region.handle))) ∧
  (∀ (s : State) (t : Taken) (c : CombId), Servable s.eng 1 opUnfence t → c.val = msgWord t.msg 0 → s.eng.fences.length = 50 →
     ((fenceOf s.eng c).cause ≤ 1 →
       Machine.exec .unfenceRequest s = .next (withEng s (leaveWfi { s.eng with mbx := { s.eng.mbx with
         taken := takenAfter s.eng 1, ring := s.eng.mbx.ring ++ [replyMsg s.eng t.msg 8 []] } }))) ∧
     (1 < (fenceOf s.eng c).cause → (fenceOf s.eng c).pending = false → admitCount s.eng < 48 →
       ∃ u, Machine.exec .unfenceRequest s = .next u ∧ fenceOf u.eng c = { fenceOf s.eng c with pending := true } ∧
         (∀ d, d ≠ c → fenceOf u.eng d = fenceOf s.eng d) ∧
         u = withEng s (leaveWfi { s.eng with
           fences := u.eng.fences
           mbx := { s.eng.mbx with
             taken := takenAfter s.eng 1, ring := s.eng.mbx.ring ++ [replyMsg s.eng t.msg 0 []] } })) ∧
     (1 < (fenceOf s.eng c).cause → (fenceOf s.eng c).pending = false → 48 ≤ admitCount s.eng →
       Machine.exec .unfenceRequest s = .next (withEng s (leaveWfi { s.eng with mbx := { s.eng.mbx with
         taken := takenAfter s.eng 1, ring := s.eng.mbx.ring ++ [replyMsg s.eng t.msg 8 []] } }))))

/-- MODE_SET (R539, R541, Table 16-4): to an envelope that is in effect it is answered at once; to another one the command
waits for its answer, FP0 requests the higher voltage before the higher frequency, and the lower frequency before the lower
voltage, and ENVELOPE still reads the old one. -/
def Obligations.ModeSetStartsChange : Prop :=
  ∀ (s : State) (t : Taken) (n : Nat), Servable s.eng 0 opModeSet t → s.eng.mbx.modeReply = none → msgWord t.msg 0 = n →
    n < 3 → s.eng.pwr.pstate = .active → hubClock s.eng = true → (∀ i ∈ s.eng.pwr.islands, i.hold = false) →
    s.eng.pwr.forced = false → s.eng.pwr.goodCore = true → s.eng.pwr.goodSince = true →
    s.eng.pwr.changing = false → s.eng.pwr.stepHeld = false → s.eng.pwr.vidHeld = false →
    s.eng.pwr.stepReq = s.eng.pwr.step → s.eng.pwr.vidReq = s.eng.pwr.vid →
    (s.eng.pwr.step = envStep n → s.eng.pwr.vid = envVid n → ∃ u, Machine.exec .modeSet s = .next u ∧
      u.eng.pwr = { s.eng.pwr with envelope := n, envTarget := none, envKept := some n, envSet := true, target := 0 } ∧
      u.eng.mbx = { s.eng.mbx with
        taken := takenAfter s.eng 0, ring := s.eng.mbx.ring ++ [replyMsg s.eng t.msg 0 []] } ∧
      u.posted = s.posted ∧ u.mem = s.mem) ∧
    (s.eng.pwr.vid < envVid n → minVid s.eng.pwr.step ≤ envVid n → ∃ u, Machine.exec .modeSet s = .next u ∧
      u.eng.pwr.vid = envVid n ∧ u.eng.pwr.goodSince = false ∧ u.eng.pwr.step = s.eng.pwr.step ∧
      u.eng.pwr.envelope = s.eng.pwr.envelope ∧ u.eng.pwr.envTarget = some n ∧
      u.eng.mbx = { s.eng.mbx with taken := takenAfter s.eng 0, modeReply := some t.msg } ∧ u.mem = s.mem) ∧
    (envVid n < s.eng.pwr.vid → envStep n < s.eng.pwr.step → ∃ u, Machine.exec .modeSet s = .next u ∧
      u.eng.pwr.step = envStep n ∧ u.eng.pwr.changing = true ∧ u.eng.pwr.vid = s.eng.pwr.vid ∧
      u.eng.pwr.envelope = s.eng.pwr.envelope ∧ u.eng.pwr.envTarget = some n ∧
      u.eng.mbx = { s.eng.mbx with taken := takenAfter s.eng 0, modeReply := some t.msg } ∧ u.mem = s.mem)

/-- PARK (R532): HOST_STATE becomes DRAINING and trace point 0x0005 is generated; while a graph runs, the engine stays in
RUN and the command's answer waits. With no graph running the engine enters ORPHANED, HOST_STATE reads ORPHANED and PARK is
answered OK. ADOPT (R534): accepted after a HELLO served while DRAINING or ORPHANED, or while HOST_STATE is LIVE: HOST_STATE
becomes LIVE, the heartbeat timeout runs, ORPHANED becomes RUN, the queue stays for admission, the envelope stays, and the
answer holds the graphs not done and COUNT before it. Any other ADOPT is answered NOT_ALLOWED. A heartbeat timeout (R531,
R532) drains the host as PARK does; while FP1 restarts, or in IDLE, it is kept for later; with no accepted HELLO no timeout
runs (R516). -/
def Obligations.HostLossParksAndAdopts : Prop :=
  (∀ (s : State) (t : Taken), Servable s.eng 1 opPark t → s.eng.boot.state = .run →
     (∀ g, s.eng.sch.run = some g → ∃ u, Machine.exec .park s = .next u ∧
       u.eng.mbx = { s.eng.mbx with
         taken := takenAfter s.eng 1, host := .draining, parkReplies := s.eng.mbx.parkReplies ++ [t.msg] } ∧
       u.eng.boot = s.eng.boot ∧ u.eng.sch = s.eng.sch ∧
       u.eng.log.inflight.map LogRec.traceId = s.eng.log.inflight.map LogRec.traceId ++ [0x0005] ∧
       u.posted = s.posted ∧ u.mem = s.mem) ∧
     (s.eng.sch.run = none → s.eng.mbx.parkReplies = [] → s.eng.mbx.modeReply = none →
       ∃ u, Machine.exec .park s = .next u ∧ u.eng.boot = { s.eng.boot with state := .orphaned } ∧
       u.eng.mbx.host = .orphaned ∧ u.eng.mbx.parkReplies = [] ∧ u.eng.sch = s.eng.sch ∧
       u.eng.mbx.ring = s.eng.mbx.ring ++ [replyMsg s.eng t.msg 0 []] ∧ u.posted = s.posted ∧ u.mem = s.mem)) ∧
  (∀ (s : State) (t : Taken), Servable s.eng 1 opAdopt t →
     (s.eng.mbx.helloLost = true ∨ s.eng.mbx.host = .live → ∃ u, Machine.exec .adopt s = .next u ∧
       u.eng.boot = { s.eng.boot with state := if s.eng.boot.state = .orphaned then .run else s.eng.boot.state } ∧
       u.eng.mbx = { s.eng.mbx with
         taken := takenAfter s.eng 1, host := .live, hbRunning := true
         ring := s.eng.mbx.ring ++ [replyMsg s.eng t.msg 0 [w32 (notDone s.eng), w32 s.eng.mbx.ring.length]] } ∧
       u.eng.sch = s.eng.sch ∧ u.eng.pwr = (leaveWfi s.eng).pwr ∧ u.posted = s.posted ∧ u.mem = s.mem) ∧
     (s.eng.mbx.helloLost = false → s.eng.mbx.host ≠ .live →
       Machine.exec .adopt s = .next (withEng s (leaveWfi { s.eng with mbx := { s.eng.mbx with
         taken := takenAfter s.eng 1, ring := s.eng.mbx.ring ++ [replyMsg s.eng t.msg 8 []] } })))) ∧
  (∀ s : State,
     (s.eng.mbx.host = .none → Machine.exec .heartbeatTimeout s = .next s) ∧
     (s.eng.mbx.host = .live → s.eng.mbx.hbRunning = true → s.eng.boot.state = .run →
       (s.eng.pwr.pstate = .idle ∨ s.eng.pwr.pstate = .active ∧ procUp s.eng 1 = false →
         Machine.exec .heartbeatTimeout s = .next (withEng s { s.eng with mbx := { s.eng.mbx with expired := true } })) ∧
       (s.eng.pwr.pstate = .active → procUp s.eng 1 = true → ∀ g, s.eng.sch.run = some g →
         ∃ u, Machine.exec .heartbeatTimeout s = .next u ∧ u.eng.mbx = { s.eng.mbx with host := .draining } ∧
         u.eng.boot = s.eng.boot ∧ u.eng.sch = s.eng.sch ∧
         u.eng.log.inflight.map LogRec.traceId = s.eng.log.inflight.map LogRec.traceId ++ [0x0005] ∧
         u.posted = s.posted ∧ u.mem = s.mem)))

/-! ### The scheduler -/

/-- GRAPH_ADMIT (R293, R294): the oldest submitted graph leaves the queue and HUB_ERR_FIRST is armed. A header that is not
valid refuses the graph with GRAPH_INVALID: GRAPH_DONE with outcome REFUSED, no task runs. With every table valid the graph
runs from task 0 with the registers as sampled and the enabled combs, those that rejoin among them, in ascending order. -/
def Obligations.GraphAdmitStartsOrRefuses : Prop :=
  ∀ (s : State) (rd : List MemLine) (sub : Submitted) (rest : List Submitted) (m : Mem) (bs : List Byte) (h : GraphHdr),
    m = landed s.mem rd → bs = subBytes m s.eng sub sub.addr 128 → h = parseHeader bs → admitReady s.eng = true →
    s.eng.sch.queue = sub :: rest → sub.ckpt = none → subPoisoned m s.eng sub sub.addr 128 = false →
    (¬(sub.addr % 128 = 0 ∧ headerOk bs h = true) → s.eng.mbx.ring.length < 256 → s.eng.mbx.abortReplies = [] →
      ∃ t, Machine.exec (.graphAdmit rd) s = .next t ∧ t.eng.sch.run = none ∧ t.eng.sch.queue = rest ∧
        t.eng.sch.done = insertNat sub.gid s.eng.sch.done ∧ t.eng.hub.graphDone = true ∧
        t.eng.hub.errFirst = some (0xF0, 16) ∧ t.eng.hub.errTask = 0x1FFFFF ∧
        (t.eng.mbx.ring.drop s.eng.mbx.ring.length).map Msg.words =
          [[w32 sub.gid, sub.cookie, w32 (2 + 256 * 16), w32 0x1FFFFF, w32 s.eng.sch.completedCount]] ∧
        t.eng.combs = s.eng.combs ∧ t.mem = absorb s.mem rd ∧ t.posted = s.posted) ∧
    (∀ tab vs gen rs, sub.addr % 128 = 0 → headerOk bs h = true → readCarousel m s.eng h = some tab →
      readVersions m s.eng h = some vs → readGen m s.eng h = some gen → readRegions m s.eng h = some rs →
      (∀ x ∈ tab, ∃ v ∈ vs, v.handle = x.1) →
      ∃ t g, Machine.exec (.graphAdmit rd) s = .next t ∧ t.eng.sch.run = some g ∧ g.sub = sub ∧ g.hdr = h ∧
        g.samples = sampleRegs s.eng ∧
        g.logical = allCombs.filter (fun c => enabled s.eng c || (fenceOf s.eng c).pending) ∧
        g.fetch = 0 ∧ g.tasks = [] ∧ g.completed = [] ∧ g.regions.map Region.handle = rs.map Region.handle ∧
        g.versions = vs ∧ t.eng.sch.queue = rest ∧ t.eng.sch.phase = .run ∧ t.eng.hub.errFirst = none ∧
        t.eng.mbx = s.eng.mbx ∧ t.mem = absorb s.mem rd ∧ t.posted = s.posted)

/-- TASK_FETCH (R297, R300, R303): with room in the window the next record that is neither resident nor completed enters it;
the task is ready at once where every predecessor has arrived, and more arrivals than PRED_COUNT stop the graph with
TASK_INVALID. A record that is not valid (R298) enters the window as a task of the hub that has failed with TASK_INVALID; a SELECT or
GEN_LOOP task of a graph without a generation table is held to be such (assumptions/144). -/
def Obligations.TaskFetchEntersWindow : Prop :=
  ∀ (s : State) (rd : List MemLine) (g : Graph) (m : Mem) (i : Nat) (r : TaskRec), m = landed s.mem rd →
    running s.eng = true → s.eng.sch.run = some g → g.stop = none → g.tasks.length < 4096 → g.fetch < g.hdr.tasks →
    i = nextIndex g (g.hdr.tasks - g.fetch) g.fetch → i < g.hdr.tasks → r = taskRecAt m s.eng g i →
    subPoisoned m s.eng g.sub (g.hdr.taskBase + 128 * i) 128 = false → g.lastStep ≤ r.step →
    recordBad s.eng g r = true ∨ r.kind ≠ kGENLOOP →
    ∃ t g', Machine.exec (.taskFetch rd) s = .next t ∧ t.eng.sch.run = some g' ∧ g'.fetch = i + 1 ∧
      g'.tasks = g.tasks ++ [{
        index := i, record := r
        life := if recordBad s.eng g r then .ended .hub 3 codeTaskInvalid
          else if arrivalsOf g i = r.predCount then .ready else .fetched }] ∧
      g'.stop = (if r.predCount < arrivalsOf g i then some 2 else none) ∧ g'.lastStep = r.step ∧
      g'.completed = g.completed ∧ g'.arrivals = g.arrivals ∧ g'.hdr = g.hdr ∧ g'.sub = g.sub ∧
      t.eng.combs = s.eng.combs ∧ t.eng.mbx = s.eng.mbx ∧ t.eng.mp = s.eng.mp ∧ t.mem = absorb s.mem rd ∧ t.posted = s.posted

/-- TASK_DISPATCH (R305, R306, R312) takes the ready task that its unit can take and that ranks before every other such
task. A LIGHT task starts its list in the hub; a BUCKET task's bucket enters WAITING, but a BROADCAST in SIGN fails with TASK_INVALID (R426);
a comb task takes a context of its comb, or fails there. TASK_AGE (R313) lets a class 2 task that waits rank with class 1. -/
def Obligations.DispatchTakesBestReady : Prop :=
  (∀ (s : State) (rd : List MemLine) (g : Graph) (tk : Task), running s.eng = true →
    s.eng.sch.run = some g → g.stop = none → taskOf s.eng tk.index = some tk → tk.life = .ready →
    canGo s.eng g tk = true → s.eng.combs.length = 50 →
    (∀ o ∈ g.tasks, o ≠ tk → o.life = .ready → canGo s.eng g o = true → lexLt (rankOf g tk) (rankOf g o) = true) →
    (tk.record.kind = kLIGHT → tk.record.epilogue = 0 → tk.record.arg.toNat % 32 = 0 →
      ∃ t g' tk', Machine.exec (.taskDispatch rd) s = .next t ∧ t.eng.sch.run = some g' ∧
        g'.dispatches = g.dispatches + 1 ∧ taskOf t.eng tk.index = some tk' ∧ tk'.life = .running .hub ∧
        tk'.order = g.dispatches ∧ tk'.record = tk.record ∧ t.eng.hf = { s.eng.hf with light := some (tk.index, 0) } ∧
        t.eng.combs = s.eng.combs ∧ t.eng.lnk = s.eng.lnk ∧ t.eng.mbx = s.eng.mbx ∧ t.mem = absorb s.mem rd ∧
        t.posted = s.posted) ∧
    (tk.record.kind = kBUCKET → tk.record.epilogue = 0 → signBroadcast (landed s.mem rd) s.eng tk.record = true →
      ∃ t tk', Machine.exec (.taskDispatch rd) s = .next t ∧ taskOf t.eng tk.index = some tk' ∧
        tk'.life = .ended .link 3 codeTaskInvalid ∧ t.eng.lnk = s.eng.lnk ∧ t.eng.combs = s.eng.combs ∧ t.mem = absorb s.mem rd) ∧
    (tk.record.kind = kBUCKET → tk.record.epilogue = 0 → signBroadcast (landed s.mem rd) s.eng tk.record = false →
      (∀ b ∈ s.eng.lnk.buckets, ¬(b.task = tk.index ∧ b.dispatched = false ∧ b.state = .waiting)) →
      ∃ t tk' b, Machine.exec (.taskDispatch rd) s = .next t ∧ taskOf t.eng tk.index = some tk' ∧
        tk'.life = .running .link ∧ t.eng.lnk.buckets = s.eng.lnk.buckets ++ [b] ∧ b.task = tk.index ∧
        b.step = tk.record.step ∧ b.state = .waiting ∧ b.dispatched = true ∧ b.order = s.eng.lnk.admissions ∧
        t.eng.lnk.admissions = s.eng.lnk.admissions + 1 ∧ t.eng.combs = s.eng.combs ∧ t.eng.hf = s.eng.hf ∧
        t.mem = absorb s.mem rd) ∧
    (isCombTask tk.record = true → skips s.eng tk.record = false →
      ∃ t tk' c, Machine.exec (.taskDispatch rd) s = .next t ∧ taskOf t.eng tk.index = some tk' ∧
        targetOf s.eng g tk = some c ∧ tk'.record = tk.record ∧
        ((tk'.life = .running (.comb c) ∧ ∃ k, some k ∈ (combOf t.eng c).ctxs ∧ k.task = tk.index) ∨
          ∃ code, tk'.life = .ended (.comb c) 3 code) ∧
        t.eng.mbx = s.eng.mbx ∧ t.eng.mp = s.eng.mp ∧ t.mem = absorb s.mem rd)) ∧
  (∀ (s : State) (i : Nat) (tk : Task), running s.eng = true → taskOf s.eng i = some tk → tk.life = .ready →
    tk.record.cls = 2 → 0 < ageUs s.eng →
    ∃ t, Machine.exec (.taskAge i) s = .next t ∧ taskOf t.eng i = some { tk with aged := true } ∧
      (∀ j, j ≠ i → taskOf t.eng j = taskOf s.eng j) ∧ t.eng = { s.eng with sch := t.eng.sch } ∧ t.mem = s.mem)

/-- RING_BIND (R260): a ring that tasks of a comb name takes the slots that CREDITS of its first descriptor asks for from the
comb's pool, or what is left there, which RING_SHRUNK counts; below three slots it waits. -/
def Obligations.RingBindTakesSlots : Prop :=
  ∀ (s : State) (c : CombId) (r : Fin 12) (want : Nat), works s.eng c = true →
    s.eng.combs.length = 50 → (combOf s.eng c).rings.length = 12 → ringOf s.eng c r.val = none →
    ((ringUsers s.eng c r.val).head?.map fun u => u.2.2.2.2.credits) = some want →
    (min want (combOf s.eng c).freeSlots < 3 → Machine.exec (.ringBind c r) s = .next s) ∧
    (3 ≤ min want (combOf s.eng c).freeSlots →
      ∃ t g, Machine.exec (.ringBind c r) s = .next t ∧ ringOf t.eng c r.val = some g ∧
        g.slots = min want (combOf s.eng c).freeSlots ∧ g.lines = [] ∧ g.parked = false ∧
        (∀ u ∈ ringUsers s.eng c r.val, ∃ q ∈ g.streams, q.task = u.2.1.task ∧ q.role = u.2.2.2.1) ∧
        (combOf t.eng c).freeSlots = (combOf s.eng c).freeSlots - min want (combOf s.eng c).freeSlots ∧
        ctrVal t.eng (.comb c .ringShrunk) =
          (if (combOf s.eng c).freeSlots < want then min 255 (ctrVal s.eng (.comb c .ringShrunk) + 1)
           else ctrVal s.eng (.comb c .ringShrunk)) ∧
        (∀ q, q ≠ r.val → ringOf t.eng c q = ringOf s.eng c q) ∧ (∀ d, d ≠ c → combOf t.eng d = combOf s.eng d) ∧
        t.eng = { s.eng with combs := t.eng.combs, ctr := t.eng.ctr } ∧ t.mem = s.mem ∧ t.posted = s.posted)

/-- TASK_COMPLETE (R301, R302, R303): a task that has done its work and whose writes have been answered gets its completion record at
COMPLETION_BASE + 8 × its index, leaves the window and its context, and counts as completed; a failure sets TASK_FAILED and, where
HUB_ERR_FIRST is armed, is captured there. Every other byte of memory reads as before. The last task of a graph ends it (R518): GRAPH_DONE
with outcome COMPLETED, code 0, the first failed task and the count. A SELECT task whose logits have all come writes the 32 tokens (R320). A
GEN_LOOP task (R322) moves every active context on by the token that its position drew, or ends it at its stop token, at 0xFFFFFFFF or at its
last position; with a context left active the fetch point returns to the body's first task. -/
def Obligations.TaskCompleteWritesRecord : Prop :=
  (∀ (s : State) (i : Nat) (rd : List MemLine) (g : Graph) (tk : Task) (u : ExecUnit) (st code : Nat), running s.eng = true →
    s.eng.sch.run = some g → g.stop = none → g.sub.ckpt = none → taskOf s.eng i = some tk → EndsWith s.eng tk u st code →
    writesOpen s.eng i = false → g.hdr.completionBase + 8 * i + 8 ≤ 2 ^ 52 → (∀ o ∈ g.tasks, o.index ≠ noTask) →
    ((∃ o ∈ g.tasks, o.index ≠ i) →
      ∃ t g', Machine.exec (.taskComplete i rd) s = .next t ∧ t.eng.sch.run = some g' ∧ taskOf t.eng i = none ∧
        g'.completed = g.completed.filter (fun x => x.1 ≠ i) ++ [(i, tk.record.step)] ∧
        viewBytes t.mem t.eng (g.hdr.completionBase + 8 * i) 8 = completionBytes s.eng tk u st code ∧
        (∀ a, a < 2 ^ 52 → a < g.hdr.completionBase + 8 * i ∨ g.hdr.completionBase + 8 * i + 8 ≤ a →
          viewByte t.mem t.eng a = viewByte (absorb s.mem rd) s.eng a) ∧
        (st = 3 → errBit t.eng errTaskFailed = true ∧ (s.eng.hub.errFirst = none →
          t.eng.hub.errFirst = some (BitVec.ofNat 8 (unitByte u), BitVec.ofNat 8 code) ∧ t.eng.hub.errTask = i)) ∧
        (∀ c, u = .comb c → (∀ k, some k ∈ (combOf t.eng c).ctxs → k.task ≠ i) ∧
          ∀ fr ∈ (combOf t.eng c).frames, fr.drainOnly ≠ some i) ∧
        t.eng.mbx = s.eng.mbx ∧ t.eng.rw = s.eng.rw ∧ t.mem = absorb s.mem rd ∧ t.posted = s.posted) ∧
    ((∀ o ∈ g.tasks, o.index = i) → g.hdr.tasks ≤ g.fetch → rowsLeft s.eng = false → tk.record.succCount = 0 →
      s.eng.mbx.host ≠ .draining → procUp s.eng 1 = true → s.eng.mbx.ring.length < 256 → s.eng.mbx.abortReplies = [] →
      ∃ t, Machine.exec (.taskComplete i rd) s = .next t ∧ t.eng.sch.run = none ∧ t.eng.sch.phase = .idle ∧ t.eng.hub.graphDone = true ∧
        t.eng.sch.queue = s.eng.sch.queue ∧ t.eng.mbx.ring.take s.eng.mbx.ring.length = s.eng.mbx.ring ∧
        (t.eng.mbx.ring.drop s.eng.mbx.ring.length).map (fun x => (x.opcode, x.words)) =
          [(0xC1, [w32 g.sub.gid, g.sub.cookie, 0, w32 (g.firstErr.getD (if st = 3 then i else noTask)),
            w32 ((g.completed.filter fun x => x.1 ≠ i).length + 1)])] ∧ t.mem = absorb s.mem rd)) ∧
  (∀ (s : State) (i : Nat) (rd : List MemLine) (g : Graph) (gn : Gen) (tk : Task) (c : CombId) (x : Fin 4) (k : Ctx) (f : FrameId)
      (e : Engine), running s.eng = true → s.eng.sch.run = some g → g.stop = none → g.gen = some gn → taskOf s.eng i = some tk →
    tk.life = .running (.comb c) → tk.failed = none → tk.record.kind = kSELECT → tk.commTiles = [] → tk.lost = false →
    (g.tasks.map Task.index).Nodup → s.eng.combs.length = 50 → writesOpen s.eng i = false → lastWaits s.eng i = false →
    gn.tokenAddr + 128 ≤ 2 ^ 52 → ctxFor s.eng c i = some (x, k) → selectHolder s.eng c k = some f →
    e = takeLanded (onFrame (readEng s rd) c f fun fr => { fr with drainOnly := some i }) c f k tk.record →
    (operandsHere e c k tk.record = true →
      ∃ t tk', Machine.exec (.taskComplete i rd) s = .next t ∧ taskOf t.eng i = some tk' ∧ tk'.commTiles = [0] ∧ tk'.life = tk.life ∧
        viewBytes t.mem t.eng gn.tokenAddr 128 = (List.range 32).flatMap (fun n =>
          leBytes 4 (selectToken (logitsRow (drainFeed (landed s.mem rd) e c k tk.record) n))) ∧
        writesOpen t.eng i = true ∧ t.mem = absorb s.mem rd) ∧
    (operandsHere e c k tk.record = false → ∃ t, Machine.exec (.taskComplete i rd) s = .next t ∧ taskOf t.eng i = some tk ∧
      t.eng.mp = s.eng.mp ∧ t.mem = absorb s.mem rd)) ∧
  (∀ (s : State) (i : Nat) (rd : List MemLine) (g : Graph) (gn : Gen) (tk : Task), running s.eng = true → s.eng.sch.run = some g →
    g.stop = none → g.sub.ckpt = none → g.gen = some gn → taskOf s.eng i = some tk → tk.life = .running .hub → tk.record.kind = kGENLOOP →
    writesOpen s.eng i = false → lastWaits s.eng i = false → gn.ctxs.length = 32 → gn.tokenAddr + 128 ≤ 2 ^ 52 →
    gn.posAddr + 128 ≤ gn.tokenAddr ∨ gn.tokenAddr + 128 ≤ gn.posAddr ∧ gn.posAddr + 128 ≤ 2 ^ 52 →
    ∀ next : Nat → GenCtx, (∀ x, x < 32 → ∀ c, gn.ctxs[x]? = some c →
      let w := viewNat (landed s.mem rd) s.eng (gn.tokenAddr + 4 * x) 4
      next x = (if !c.active then c
        else if w = c.stop ∨ w = 0xFFFFFFFF ∨ c.maxPos ≤ c.pos + 1 then { c with active := false } else { c with pos := c.pos + 1 })) →
    (∃ x, x < 32 ∧ (next x).active = true) →
    ∃ t g' gn', Machine.exec (.taskComplete i rd) s = .next t ∧ t.eng.sch.run = some g' ∧ g'.gen = some gn' ∧
      (∀ x, x < 32 → gn'.ctxs[x]? = some (next x)) ∧ g'.fetch = tk.record.arg.toNat % 2 ^ 20 ∧
      (∀ o ∈ g'.tasks, o.index < tk.record.arg.toNat % 2 ^ 20 ∨ i < o.index) ∧
      (∀ o ∈ g'.completed, o.1 < tk.record.arg.toNat % 2 ^ 20 ∨ i < o.1) ∧ t.eng.sch.genIter = min (s.eng.sch.genIter + 1) (2 ^ 32 - 1) ∧
      t.mem = absorb s.mem rd)

/-- GRAPH_STOP (R315, R468, R518): a stop that has been asked for ends the graph: no graph runs, GRAPH_DONE is set and posted
with the graph's ID, its cookie and the outcome STOPPED, or ABORTED, with the code; every enabled comb's contexts are
empty; GRAPH_STOPPED is set unless the host aborted. In NAP and HIBERNATE, under pad hold and while a dip has stopped the hub's clock
nothing happens (R544, R562). -/
def Obligations.GraphStopEndsGraph : Prop :=
  ∀ (s : State) (g : Graph) (code : Nat), s.eng.sch.run = some g → g.stop = some code →
    (hubAlive s.eng = false → Machine.exec .graphStop s = .next s) ∧
    (hubAlive s.eng = true → procUp s.eng 1 = true → s.eng.mbx.ring.length < 256 → s.eng.mbx.abortReplies = [] →
      s.eng.mbx.host ≠ .draining → g.sub.ckpt = none → s.eng.combs.length = 50 →
      (code = codeHalted → ∀ tk ∈ g.tasks, tk.late ≠ some codePageFault) →
      ∃ t, Machine.exec .graphStop s = .next t ∧ t.eng.sch.run = none ∧ t.eng.sch.phase = .idle ∧
        t.eng.sch.queue = s.eng.sch.queue ∧ t.eng.sch.done = insertNat g.sub.gid s.eng.sch.done ∧
        t.eng.hub.graphDone = true ∧ t.eng.mbx.ring.take s.eng.mbx.ring.length = s.eng.mbx.ring ∧
        (t.eng.mbx.ring.drop s.eng.mbx.ring.length).map (fun x => (x.opcode, x.words.take 3)) =
          [(0xC1, [w32 g.sub.gid, g.sub.cookie, w32 ((if code = codeAborted then 3 else 1) + 256 * code)])] ∧
        (code ≠ codeAborted → errBit t.eng errGraphStopped = true) ∧
        (∀ c, enabled s.eng c = true → (combOf t.eng c).ctxs = [none, none, none, none]) ∧
        t.eng.boot = s.eng.boot ∧ t.eng.rw = s.eng.rw ∧ t.mem = s.mem ∧ t.posted = s.posted)

/-! ### Frames -/

/-- A step reaches cell (i, j) i + j cycles after it enters (R87). A working cell adds the product that its row and column present, modulo 2^24
and with the sticky overflow flag (R85), to the accumulator that its interval fills (R88); the other accumulator keeps its value, and so does
every cell that no step has reached. The product is of codes; of a slot's code and the element of the group that its position code selects,
whose correction element an occupied slot adds to the correction sum (R118, R169); or of a code and the element of the group that the cell's
own slot selects, none in an idle cell (R128, R129). A check-column cell adds what the 64 cells of its row add, a check-row cell what those of
its column add, and the corner what all of them add, but nothing in the sampled product: modulo 2^24, their companions modulo 2^29, without an
overflow flag (R86, R131, R409, R410). -/
def Obligations.CellsTakeStepsInSkew : Prop :=
  ∀ (pipe : List (Option StepIn)) (cs : List (List Cell)) (i j : Nat), i < 65 → j < 65 →
    (∀ st, elemD pipe (i + j) none = some st →
      let old := accOf (cellAt cs i j) st.accB
      let new := accOf (cellAt (accumulate pipe cs) i j) st.accB
      accOf (cellAt (accumulate pipe cs) i j) (!st.accB) = accOf (cellAt cs i j) (!st.accB) ∧
      (∀ prod corr : Int, i < 64 → j < 64 →
        (∃ x y u v, st.rows[i]? = some (.code x y) ∧ st.cols[j]? = some (.code u v) ∧ prod = x * u + y * v ∧ corr = 0) ∨
          (∃ occ p q l k, st.rows[i]? = some (.slot occ p q) ∧ st.cols[j]? = some (.group l k) ∧ prod = q * elemD l p 0 ∧
            corr = if occ then elemD k p 0 else 0) ∨
          (∃ x y l k, st.rows[i]? = some (.code x y) ∧ st.cols[j]? = some (.group l k) ∧ corr = 0 ∧
            prod = match elemD (elemD st.owner i []) j none with | some p => x * elemD l p 0 | none => 0) →
        AddsTo old new prod corr ∧
          new.ovf = (old.ovf || decide (old.val.toInt + prod < -8388608 ∨ 8388608 ≤ old.val.toInt + prod))) ∧
      (StepFormed st → i = 64 ∨ j = 64 →
        let row := fun a => (List.range 64).map fun b => cellOp st a b
        let sum := if i < 64 then row i
          else if j < 64 then (List.range 64).map fun a => cellOp st a j
          else if st.sampled then [] else (List.range 64).flatMap row
        AddsTo old new (sumInt (sum.map Prod.fst)) (sumInt (sum.map Prod.snd)) ∧ new.ovf = old.ovf)) ∧
    (elemD pipe (i + j) none = none → cellAt (accumulate pipe cs) i j = cellAt cs i j)

/-- TILE_ISSUE (R134, R310, R313): a next tile that cannot run fails its task with its code; else the tile of the lowest class (an aged
task's before those of class 2) and the earliest dispatch that can be issued joins the frame, and its context moves on to the
next tile. -/
def Obligations.TileIssueTakesLowestClass : Prop :=
  ∀ (s : State) (c : CombId) (f : FrameId) (rd : List MemLine), works s.eng c = true →
    s.eng.combs.length = 50 → (combOf s.eng c).frames.length = 4 →
    (∀ a code, (candidates s.eng c f).findSome? (fun a => (tileError (landed s.mem rd) s.eng c a.k a.tk a.mask a.tile).map
        fun code => (a, code)) = some (a, code) →
      ∃ t tk, Machine.exec (.tileIssue c f rd) s = .next t ∧ taskOf t.eng a.k.task = some tk ∧ tk.failed = some code ∧
        (∀ j ∈ (frameOf t.eng c f).jobs, j.task ≠ a.k.task) ∧ t.mem = absorb s.mem rd ∧ t.posted = s.posted) ∧
    (∀ a ∈ candidates s.eng c f,
      (∀ b ∈ candidates s.eng c f, tileError (landed s.mem rd) s.eng c b.k b.tk b.mask b.tile = none) →
      accepts (frameOf s.eng c f) a.tk.record = true → issuable s.eng c a = true →
      (∀ b ∈ candidates s.eng c f, accepts (frameOf s.eng c f) b.tk.record = true → issuable s.eng c b = true → b ≠ a →
        tileRank a.tk < tileRank b.tk ∨ (tileRank a.tk = tileRank b.tk ∧ a.k.order < b.k.order)) →
      ∃ t j k, Machine.exec (.tileIssue c f rd) s = .next t ∧
        (frameOf t.eng c f).jobs = (frameOf s.eng c f).jobs ++ [j] ∧ j.task = a.k.task ∧ j.tile = a.tile ∧
        j.ctx = a.x ∧ j.entered = 0 ∧ ctxOf t.eng c a.x = some k ∧ k.task = a.k.task ∧ k.nextTile = a.tile + 1 ∧
        (frameOf t.eng c f).cells = (frameOf s.eng c f).cells ∧ (∀ g, g ≠ f → frameOf t.eng c g = frameOf s.eng c g) ∧
        (∀ d, d ≠ c → combOf t.eng d = combOf s.eng d) ∧ t.eng.sch = s.eng.sch ∧ t.mem = absorb s.mem rd)

/-- FRAME_STEP (R87, R106, R107, R108, R551): a due step enters when both feeders are ready and the drain condition does not hold: operands
move by one cell, and FRM_ACTIVE_CYCLES counts. With a feeder short nothing moves, and the freeze counter of that feeder counts; while the
drain unit has not read what the next interval would fill, null steps enter, and the drain's counter counts. A cycle that DUTY withholds moves
nothing, and STALL_THERMAL counts where a step is due. In REPLAY_FLUSH the skew empties. An interval whose steps zero maps skip commits where
its first step would have entered (R153): here the only one of a frame's only tile, whose row is stored, uncounted in FRM_INTERVALS
(assumptions/104). A frame of a comb that is fenced, or whose clock a dip has stopped, does nothing. -/
def Obligations.FrameStepMovesOrFreezes : Prop :=
  ∀ (s : State) (c : CombId) (f : FrameId) (rowLate colLate : Bool) (fr : Frame), fr = frameOf s.eng c f →
    s.eng.combs.length = 50 → (combOf s.eng c).frames.length = 4 →
    (works s.eng c = false → Machine.exec (.frameStep c f rowLate colLate) s = .next s) ∧
    (works s.eng c = true → withheld (dutyNow s.eng) fr.beat = true → ∃ t, Machine.exec (.frameStep c f rowLate colLate) s = .next t ∧
      frameOf t.eng c f = { fr with beat := (fr.beat + 1) % 64 } ∧ t.eng.sch = s.eng.sch ∧ t.mem = s.mem ∧ t.posted = s.posted ∧
      (fr.mode ≠ .replayFlush → frameDue fr = true →
        ctrVal t.eng (.comb c .stallThermal) = min (2 ^ 32 - 1) (ctrVal s.eng (.comb c .stallThermal) + 1))) ∧
    (works s.eng c = true → withheld (dutyNow s.eng) fr.beat = false →
      (fr.mode = .replayFlush → ∃ t, Machine.exec (.frameStep c f rowLate colLate) s = .next t ∧
        (frameOf t.eng c f).flush = fr.flush - 1 ∧ (frameOf t.eng c f).mode = .replayFlush ∧
        (frameOf t.eng c f).cells = fr.cells ∧ (frameOf t.eng c f).steps = fr.steps ∧
        ctrVal t.eng (.comb c .stallReplay) = min (2 ^ 32 - 1) (ctrVal s.eng (.comb c .stallReplay) + 1) ∧
        t.mem = s.mem ∧ t.posted = s.posted) ∧
      (∀ st rest, fr.mode ≠ .replayFlush → fr.steps = st :: rest →
        (rowLate = false → colLate = false → ∃ t, Machine.exec (.frameStep c f rowLate colLate) s = .next t ∧
          (frameOf t.eng c f).steps = rest ∧ (frameOf t.eng c f).pipe = shift fr.pipe (some st) ∧
          (frameOf t.eng c f).mode = .run ∧ (frameOf t.eng c f).jobs = fr.jobs ∧
          ((∀ a ∈ fr.flight, a.age = none) → (frameOf t.eng c f).cells = accumulate (shift fr.pipe (some st)) fr.cells) ∧
          ctrVal t.eng (.frame c f .active) = min (2 ^ 32 - 1) (ctrVal s.eng (.frame c f .active) + 1) ∧
          (∀ d, d ≠ c → combOf t.eng d = combOf s.eng d) ∧ t.eng.sch = s.eng.sch ∧ t.mem = s.mem ∧ t.posted = s.posted) ∧
        (rowLate = true ∨ colLate = true → ∃ t, Machine.exec (.frameStep c f rowLate colLate) s = .next t ∧
          (frameOf t.eng c f).steps = fr.steps ∧ (frameOf t.eng c f).pipe = fr.pipe ∧
          (frameOf t.eng c f).mode = (if rowLate then .frozenRowf else .frozenColf) ∧
          ctrVal t.eng (.frame c f (if rowLate then .freezeRowf else .freezeColf)) =
            min (2 ^ 32 - 1) (ctrVal s.eng (.frame c f (if rowLate then .freezeRowf else .freezeColf)) + 1) ∧
          ctrVal t.eng (.frame c f .active) = ctrVal s.eng (.frame c f .active) ∧
          ((∀ a ∈ fr.flight, a.age = none) → (frameOf t.eng c f).cells = fr.cells) ∧ t.mem = s.mem ∧ t.posted = s.posted)) ∧
      (∀ (e : Engine) (j : TileJob) (p : Part) (pf : PartFeed), fr.mode ≠ .replayFlush → islandStretched s.eng c.val = false →
        e = onFrame s.eng c f (fun fr => { fr with beat := (fr.beat + 1) % 64 }) → fr.steps = [] → dueJob fr = some (j, p) →
        partFeed s.mem e c j p = some pf →
        (freezeOf s.mem e c (frameOf e c f) rowLate colLate = ⟨false, false, true⟩ → skipped pf.feed.build = false →
          ∃ t, Machine.exec (.frameStep c f rowLate colLate) s = .next t ∧ (frameOf t.eng c f).mode = .frozenDrain ∧
          (frameOf t.eng c f).pipe = shift fr.pipe none ∧ (frameOf t.eng c f).steps = [] ∧ (frameOf t.eng c f).jobs = fr.jobs ∧
          ctrVal t.eng (.frame c f .freezeDrain) = min (2 ^ 32 - 1) (ctrVal s.eng (.frame c f .freezeDrain) + 1) ∧
          ctrVal t.eng (.frame c f .active) = ctrVal s.eng (.frame c f .active) ∧ t.eng.sch = s.eng.sch ∧ t.mem = s.mem) ∧
        (∀ pf', (freezeOf s.mem e c (frameOf e c f) rowLate colLate).row = false →
          (freezeOf s.mem e c (frameOf e c f) rowLate colLate).col = false → skipped pf.feed.build = true →
          partFeed s.mem (readyPart s.mem e c f j p) c j p = some pf' → skipped pf'.feed.build = true → fr.jobs = [j] → j.parts = [p] →
          fr.flight = [] →
          ∃ t o, Machine.exec (.frameStep c f rowLate colLate) s = .next t ∧ (frameOf t.eng c f).jobs = [] ∧
          (frameOf t.eng c f).flight = [] ∧ (frameOf t.eng c f).out = fr.out ++ [o] ∧ o.task = j.task ∧ o.tile = j.tile ∧
          o.reach = p.start + p.len ∧ o.lastOfTile = true ∧ o.staged = false ∧ (frameOf t.eng c f).mode = .idle ∧
          ctrVal t.eng (.frame c f .intervals) = ctrVal s.eng (.frame c f .intervals) ∧
          (∃ tk, taskOf t.eng j.task = some tk ∧ j.tile ∈ tk.commTiles) ∧ t.mem = s.mem)))

/-- INTERVAL_VERDICT (R101, R103, R176, R411, R412): a check mismatch is retried once, and a second one within 1 ms is a frame
fault that fences the comb; an overflow runs the interval again at halving level 1, and above level 0 splits it; an S8 attempt that underflows
above its limit runs again as S16 (R180). A verdict that passes on a high pass keeps its corrected integers for the low one, on an earlier
rank its values for the last one (R92, R140), and on the interval's last pass commits it: its rows wait for write-out, its part leaves the
tile, FRM_INTERVALS counts, and FRM_OVF_REPLAYS where it ran above level 0 (R179). -/
def Obligations.VerdictRetriesHalvesCommits : Prop :=
  ∀ (s : State) (c : CombId) (f : FrameId) (lane : Bool) (fr : Frame) (a : Attempt) (tk : Task) (j : TileJob) (p : Part)
    (ps : List Part), fr = frameOf s.eng c f → works s.eng c = true → s.eng.combs.length = 50 →
    s.eng.fences.length = 50 → (combOf s.eng c).frames.length = 4 → verdictDue fr = some a → taskOf s.eng a.task = some tk →
    fr.jobs.find? (fun j => j.task == a.task && j.tile == a.tile) = some j → j.parts = p :: ps →
    (lane = true ∨ (checkOf a).ok = false →
      ((∀ x, fr.mismatch = some x → x + 1250000 < s.eng.hub.cycle) →
        ∃ t, Machine.exec (.intervalVerdict c f lane) s = .next t ∧ (frameOf t.eng c f).mode = .replayFlush ∧
          (frameOf t.eng c f).flight = [] ∧ (frameOf t.eng c f).steps = [] ∧ (frameOf t.eng c f).cells = [] ∧
          (frameOf t.eng c f).mismatch = some s.eng.hub.cycle ∧ (frameOf t.eng c f).out = fr.out ∧
          ctrVal t.eng (.comb c .checkRetries) = min 255 (ctrVal s.eng (.comb c .checkRetries) + 1) ∧
          errBit t.eng errCheckRetry = true ∧ t.eng.fences = s.eng.fences ∧ t.mem = s.mem) ∧
      ((∃ x, fr.mismatch = some x ∧ s.eng.hub.cycle ≤ x + 1250000) →
        ∃ t, Machine.exec (.intervalVerdict c f lane) s = .next t ∧
          fenceOf t.eng c = { cause := 3, frame := f.val, pending := false } ∧ (∀ d, d ≠ c → fenceOf t.eng d = fenceOf s.eng d) ∧
          errBit t.eng errFrameFault = true ∧ errBit t.eng errFence = true ∧ t.mem = s.mem)) ∧
    (lane = false → (checkOf a).ok = true → a.reads.any ReadLine.ovf = true →
      ∃ t k, Machine.exec (.intervalVerdict c f lane) s = .next t ∧ (frameOf t.eng c f).mode = .replayFlush ∧
        (frameOf t.eng c f).flight = [] ∧
        (frameOf t.eng c f).jobs.find? (fun j => j.task == a.task && j.tile == a.tile) = some k ∧ k.entered = 0 ∧
        k.parts = (if a.level = 0 then [{ p with level := 1 }] else splitPart p) ++ ps ∧
        ctrVal t.eng (.frame c f .splits) =
          (if a.level = 0 then ctrVal s.eng (.frame c f .splits) else min 65535 (ctrVal s.eng (.frame c f .splits) + 1)) ∧
        (frameOf t.eng c f).out = fr.out ∧ t.mem = s.mem) ∧
    (lane = false → (checkOf a).ok = true → a.reads.any ReadLine.ovf = false →
      (a.pass = .high → ∃ t, Machine.exec (.intervalVerdict c f lane) s = .next t ∧
        frameOf t.eng c f = { fr with flight := fr.flight.tail, high := corrected a.dirCols tk.record (maskOf s.eng tk.record) a } ∧
        t.eng.sch = s.eng.sch ∧ t.eng.ctr = s.eng.ctr ∧ t.mem = s.mem) ∧
      (a.pass ≠ .high → a.rank + 1 < a.ranks → ∃ t v, Machine.exec (.intervalVerdict c f lane) s = .next t ∧
        v = dequant a.dirCols a.sc (if a.pass = .low then widen16 fr.high (corrected a.dirCols tk.record (maskOf s.eng tk.record) a)
          else corrected a.dirCols tk.record (maskOf s.eng tk.record) a) ∧
        frameOf t.eng c f = { fr with flight := fr.flight.tail, high := [], passes := fr.passes ++ [(v, a.sc)] } ∧
        t.eng.sch = s.eng.sch ∧ t.eng.ctr = s.eng.ctr ∧ t.mem = s.mem) ∧
      (a.pass ≠ .high → a.ranks = a.rank + 1 → underflows s.eng a p.split = true →
        ∃ t k, Machine.exec (.intervalVerdict c f lane) s = .next t ∧ (frameOf t.eng c f).mode = .replayFlush ∧
        (frameOf t.eng c f).flight = [] ∧
        (frameOf t.eng c f).jobs.find? (fun j => j.task == a.task && j.tile == a.tile) = some k ∧ k.entered = 0 ∧
        k.parts = { p with wide := true, begun := true } :: ps.map (fun q => { q with begun := false }) ∧
        ctrVal t.eng (.comb c .wideReruns) = min 65535 (ctrVal s.eng (.comb c .wideReruns) + 1) ∧
        (frameOf t.eng c f).out = fr.out ∧ t.mem = s.mem) ∧
      (a.pass ≠ .high → a.ranks = a.rank + 1 → underflows s.eng a p.split = false → (ctxOf s.eng c j.ctx).isSome = true →
        ∃ t o, Machine.exec (.intervalVerdict c f lane) s = .next t ∧ (frameOf t.eng c f).flight = fr.flight.tail ∧
        (frameOf t.eng c f).out = fr.out ++ [o] ∧ o.task = a.task ∧ o.tile = a.tile ∧ o.reach = p.start + p.len ∧
        o.lastOfTile = ps.isEmpty ∧ o.next = 0 ∧ (frameOf t.eng c f).mode = fr.mode ∧
        ctrVal t.eng (.frame c f .intervals) = min (2 ^ 32 - 1) (ctrVal s.eng (.frame c f .intervals) + 1) ∧
        ctrVal t.eng (.frame c f .ovfReplays) =
          (if a.level = 0 then ctrVal s.eng (.frame c f .ovfReplays) else min 65535 (ctrVal s.eng (.frame c f .ovfReplays) + 1)) ∧
        t.mem = s.mem))

/-- REPLAY_RESTART (R103): the frame runs again once its skew is empty. STAGING_ROW_WRITEOUT (R102, R172): a row of a tile that
commits more intervals is added to the running tile, element by element in F32, and the next row follows; a row of another
frame, and every other row of the tile, keeps its value. A lane mismatch of the drain unit (R407, R411, R412) counts as a check mismatch: the
row stays where it was for the retry, and a second one within 1 ms is a frame fault that fences the comb. A lane mismatch of the brood adds,
or a failed line check there, poisons the region's lines that the row adds into (R405, R407, R408). DRAIN_ONLY_RUN (R230, R310): the frame's
drain unit is held for the task and takes what has landed of its operands; the task waits until all of them have, and then has committed its
one tile. A lane mismatch makes it run again, the second time within 1 ms a frame fault. -/
def Obligations.DrainUnitRowsAndTasks : Prop :=
  ∀ (s : State) (c : CombId) (f : FrameId) (fr : Frame), fr = frameOf s.eng c f → works s.eng c = true →
    s.eng.combs.length = 50 → (combOf s.eng c).frames.length = 4 →
    (fr.mode = .replayFlush →
      (fr.flush = 0 → ∃ t, Machine.exec (.replayRestart c f) s = .next t ∧ frameOf t.eng c f = { fr with mode := .run } ∧
        (∀ g, g ≠ f → frameOf t.eng c g = frameOf s.eng c g) ∧ t.eng = { s.eng with combs := t.eng.combs } ∧ t.mem = s.mem) ∧
      (0 < fr.flush → Machine.exec (.replayRestart c f) s = .next s)) ∧
    (∀ o os fault, fr.out = o :: os → storing o.record = true → o.lastOfTile = false → o.next < 63 → elemD o.adds o.next [] = [] →
      writeParked s.eng c o.task = false → fr.running = [] ∨ fr.running.length = 64 →
      (fault.drain = false → ∃ t, Machine.exec (.stagingRowWriteout c f fault) s = .next t ∧
        (frameOf t.eng c f).out = { o with next := o.next + 1, waited := false } :: os ∧
        (∀ x, x < 64 → elemD (elemD (frameOf t.eng c f).running o.next []) x 0 =
          fAdd (elemD (elemD fr.running o.next []) x 0) (elemD (elemD o.rows o.next []) x 0)) ∧
        (∀ r, r ≠ o.next → elemD (frameOf t.eng c f).running r [] = elemD fr.running r []) ∧
        (∀ g, g ≠ f → frameOf t.eng c g = frameOf s.eng c g) ∧ t.eng.mp = s.eng.mp ∧ t.mem = s.mem) ∧
      (fault.drain = true → (∀ x, fr.mismatch = some x → x + 1250000 < s.eng.hub.cycle) →
        ∃ t, Machine.exec (.stagingRowWriteout c f fault) s = .next t ∧ (frameOf t.eng c f).out = fr.out ∧
        (frameOf t.eng c f).running = fr.running ∧ (frameOf t.eng c f).mismatch = some s.eng.hub.cycle ∧
        ctrVal t.eng (.comb c .laneMismatch) = min 255 (ctrVal s.eng (.comb c .laneMismatch) + 1) ∧
        ctrVal t.eng (.comb c .checkRetries) = min 255 (ctrVal s.eng (.comb c .checkRetries) + 1) ∧
        errBit t.eng errLaneMismatch = true ∧ errBit t.eng errCheckRetry = true ∧ t.eng.fences = s.eng.fences ∧ t.eng.mp = s.eng.mp ∧
        t.mem = s.mem) ∧
      (fault.drain = true → s.eng.fences.length = 50 → (∃ x, fr.mismatch = some x ∧ s.eng.hub.cycle ≤ x + 1250000) →
        ∃ t, Machine.exec (.stagingRowWriteout c f fault) s = .next t ∧
        fenceOf t.eng c = { cause := 3, frame := f.val, pending := false } ∧ errBit t.eng errFrameFault = true ∧
        errBit t.eng errFence = true ∧ t.mem = s.mem)) ∧
    (∀ o os fault h r, fr.out = o :: os → storing o.record = false → o.next < 63 → elemD o.adds o.next [] ≠ [] →
      (∀ a ∈ elemD o.adds o.next [], a.1 = h) → regionOf s.eng h = some r → r.place = .resident c → r.frozen = false →
      addWaits s.eng h o.record.step = false → earlierAdds s.eng c f o [h] = false → writeParked s.eng c o.task = false →
      fault.drain = false → fault.add = true ∨ fault.crc = true →
      ∃ t r', Machine.exec (.stagingRowWriteout c f fault) s = .next t ∧
        (frameOf t.eng c f).out = { o with next := o.next + 1, waited := false } :: os ∧ regionOf t.eng h = some r' ∧
        (∀ a ∈ elemD o.adds o.next [], a.2.1 < r.elements → a.2.1 / 16 ∈ r'.poison) ∧ (∀ x ∈ r.poison, x ∈ r'.poison) ∧
        (∀ n, (∀ a ∈ elemD o.adds o.next [], a.2.1 < r.elements ∧ a.2.1 ≠ n) → lookupD r'.elems n 0 = lookupD r.elems n 0) ∧
        ctrVal t.eng (.comb c .laneMismatch) =
          (if fault.add then min 255 (ctrVal s.eng (.comb c .laneMismatch) + 1) else ctrVal s.eng (.comb c .laneMismatch)) ∧
        (fault.add = true → errBit t.eng errLaneMismatch = true) ∧ errBit t.eng errPoison = true ∧ t.mem = s.mem) ∧
    (∀ rd lane x k tk e, drainTask s.eng c f = some (x, k, tk) →
      e = takeLanded (onFrame (readEngIn s c rd) c f fun fr => { fr with drainOnly := some k.task }) c f k tk.record →
      (operandsHere e c k tk.record = false →
        Machine.exec (.drainOnlyRun c f rd lane) s = .next { s with mem := absorb s.mem rd, eng := e }) ∧
      (operandsHere e c k tk.record = true → outHere k (drainPlaces tk.record) = true → writeParked e c k.task = false →
        (lane = false → ∃ t tk', Machine.exec (.drainOnlyRun c f rd lane) s = .next t ∧ taskOf t.eng k.task = some tk' ∧
          tk'.commTiles = [0] ∧ tk'.doneTiles = [0] ∧ tk'.record = tk.record ∧ (frameOf t.eng c f).drainOnly = some k.task ∧
          t.eng.mbx = s.eng.mbx ∧ t.mem = absorb s.mem rd) ∧
        (lane = true → (∀ x, fr.mismatch = some x → x + 1250000 < s.eng.hub.cycle) →
          ∃ t tk', Machine.exec (.drainOnlyRun c f rd lane) s = .next t ∧ taskOf t.eng k.task = some tk' ∧
          tk'.commTiles = tk.commTiles ∧ (frameOf t.eng c f).drainOnly = some k.task ∧
          (frameOf t.eng c f).mismatch = some s.eng.hub.cycle ∧
          ctrVal t.eng (.comb c .checkRetries) = min 255 (ctrVal s.eng (.comb c .checkRetries) + 1) ∧
          errBit t.eng errLaneMismatch = true ∧ t.eng.fences = s.eng.fences ∧ t.mem = absorb s.mem rd) ∧
        (lane = true → s.eng.fences.length = 50 → (∃ x, fr.mismatch = some x ∧ s.eng.hub.cycle ≤ x + 1250000) →
          ∃ t, Machine.exec (.drainOnlyRun c f rd lane) s = .next t ∧
          fenceOf t.eng c = { cause := 3, frame := f.val, pending := false } ∧ errBit t.eng errFence = true ∧
          t.mem = absorb s.mem rd)))

/-! ### The memory port, the foragers, handles -/

/-- LINE_REQUEST_GRANT (R262, R267, R269): with every forager moved on as far as it goes, the channel grants one of the reads and writes
that wait on it: never class 3 while a lower class waits, and none of those that may go has a smaller deadline key. A read's request
takes the channel's lowest free tag, a write goes out under it, the round robin stands at the one served, and memory stays. Where
nothing waits on the channel or no tag of it is free, no request goes out; while the hub does not run, nothing happens. -/
def Obligations.GrantAsksForOneLine : Prop :=
  ∀ (s : State) (ch : ChanId) (e : Engine) (bs : List Bid),
    (hubAlive s.eng = false → Machine.exec (.lineRequestGrant ch) s = .next s) ∧
    (hubAlive s.eng = true → bidsFor s.mem s.eng ch = (e, bs) →
      (∀ i, freeId e ch = some i → (∃ b ∈ bs, chanOf b.line = ch) →
        ∃ t b, Machine.exec (.lineRequestGrant ch) s = .next t ∧ b ∈ bs ∧ chanOf b.line = ch ∧
          (∀ o ∈ bs, chanOf o.line = ch → (o.cls e < 3 ∨ 3 ≤ b.cls e) → (o.cls e < 3 → b.cls e < 3) ∧ dlKey e b ≤ dlKey e o) ∧
          t.eng.mp.rr = b.seat ∧
          (∀ c r w, b = .read c r w → t.eng.mp.reads = e.mp.reads ++
            [{ chan := ch, id := BitVec.ofNat 10 i, addr := 64 * w.line, dst := w.dst, tries := 0 }]) ∧
          (∀ l, b = .light l → t.eng.mp.reads = e.mp.reads ++
            [{ chan := ch, id := BitVec.ofNat 10 i, addr := 64 * l, dst := .light, tries := 0 }]) ∧
          (∀ w, b = .write w → t.eng.mp.reads = e.mp.reads ∧
            (e.mp.heldXlat = [] → e.hf.opened = none → (∀ x ∈ e.mp.writes, x.parked = false) →
              { w with sent := true, id := BitVec.ofNat 10 i } ∈ t.eng.mp.writes ∧
              t.eng.mp.writes.length = e.mp.writes.length)) ∧
          t.mem = s.mem ∧ t.posted = s.posted) ∧
      (freeId e ch = none ∨ (∀ b ∈ bs, chanOf b.line ≠ ch) →
        ∃ t, Machine.exec (.lineRequestGrant ch) s = .next t ∧ t.eng.mp.reads = e.mp.reads ∧ t.eng.mp.rr = e.mp.rr ∧
          (∀ w ∈ t.eng.mp.writes, w.sent = true → ∃ x ∈ e.mp.writes, x.sent = true ∧ x.chan = w.chan ∧ x.id = w.id) ∧
          t.mem = s.mem ∧ t.posted = s.posted))

/-- MEMORY_READ_RESPONSE (R264, R286, R405, R452). A line whose fabric check holds lands where it was asked for, in a ring's slot, in the index
buffer of a stream or at the light path, with its poison, and is known of memory from then on. A line whose check fails, or that
comes with CHECK, is asked for once more, and FABRIC_RETRY counts; the second time it lands poisoned and memory learns nothing of
it. A fault parks the ring, and PARKED counts where it takes a record. While a dip has stopped the comb's clock the response
waits in its crossing (R17). -/
def Obligations.ReadResponseLandsLine : Prop :=
  ∀ (s : State) (ch : ChanId) (id : BitVec 10) (l : RespLine) (q : ReadReq) (rest : List ReadReq),
    readFor s.eng ch id = some q → rest = dropFirst (fun y => y.chan == ch && y.id == id) s.eng.mp.reads → q.addr % 64 = 0 → q.addr < 2 ^ 52 →
    l.data.length = 64 →
    ((islandOf s.eng (readIsland s.eng ch id)).stopped = true → awake s.eng = true → s.eng.pwr.padHold = false →
      ∀ st, Machine.exec (.memoryReadResponse ch id st l) s = .next { s with held := s.held ++ [.memoryReadResponse ch id st l] }) ∧
    (∀ (c : CombId) (r : Fin 12) (ser : Nat) (g : Ring) (x : SlotLine), q.dst = .ring c r ser → (islandOf s.eng c.val).stopped = false →
      s.eng.combs.length = 50 → ringOf s.eng c r.val = some g → (g.lines.map SlotLine.ser).Nodup → x ∈ g.lines → x.ser = ser →
      x.landed = false →
      (fabricCheck l.data q.addr = l.check →
        ∃ t g', Machine.exec (.memoryReadResponse ch id .ok l) s = .next t ∧ ringOf t.eng c r.val = some g' ∧
          { x with landed := true, data := l.data, check := crc32c l.data, poison := l.poison } ∈ g'.lines ∧
          (∀ y ∈ g.lines, y.ser ≠ ser → y ∈ g'.lines) ∧ t.eng.mp.reads = rest ∧
          t.mem = absorb s.mem [{ addr := q.addr, data := l.data, poison := l.poison }] ∧
          (∀ o, o < 64 → s.mem.wf = true → memGet t.mem (q.addr + o) = elemD l.data o 0) ∧
          ctrVal t.eng (.comb c .linesIn) =
            (if l.poison then min 65535 (ctrVal s.eng (.comb c .linesIn) + 1) else ctrVal s.eng (.comb c .linesIn)) ∧
          (l.poison = true → errBit t.eng errPoison = true) ∧ t.posted = s.posted) ∧
      (∀ st, st = .check ∨ (st = .ok ∧ fabricCheck l.data q.addr ≠ l.check) →
        (q.tries = 0 → ∀ i, freeId { s.eng with mp := { s.eng.mp with reads := rest } } (chanOf (lineOf q.addr)) = some i →
          ∃ t, Machine.exec (.memoryReadResponse ch id st l) s = .next t ∧ t.eng.combs = s.eng.combs ∧ t.mem = s.mem ∧
            t.eng.mp.reads = rest ++
              [{ chan := chanOf (lineOf q.addr), id := BitVec.ofNat 10 i, addr := q.addr, dst := q.dst, tries := 1 }] ∧
            ctrVal t.eng (.comb c .fabricRetry) = min 255 (ctrVal s.eng (.comb c .fabricRetry) + 1)) ∧
        (q.tries ≠ 0 → ∃ t g', Machine.exec (.memoryReadResponse ch id st l) s = .next t ∧ ringOf t.eng c r.val = some g' ∧
          { x with landed := true, data := l.data, check := crc32c l.data, poison := true } ∈ g'.lines ∧ t.eng.mp.reads = rest ∧
          ctrVal t.eng (.comb c .linesIn) = min 65535 (ctrVal s.eng (.comb c .linesIn) + 1) ∧
          errBit t.eng errPoison = true ∧ t.mem = s.mem)) ∧
      (∃ t g', Machine.exec (.memoryReadResponse ch id .fault l) s = .next t ∧ ringOf t.eng c r.val = some g' ∧ g'.parked = true ∧
        { x with asked := false } ∈ g'.lines ∧ (∀ y ∈ g.lines, y.ser ≠ ser → y ∈ g'.lines) ∧ t.eng.mp.reads = rest ∧
        (ringPark s.eng c r.val = none → (∃ p ∈ (combOf s.eng c).parks, p.state = .free) →
          ctrVal t.eng .parked = min 65535 (ctrVal s.eng .parked + 1) ∧
          ∃ p ∈ (combOf t.eng c).parks, p.state = .parked ∧ p.ring = r.val ∧ p.write = false) ∧
        (ringPark s.eng c r.val = none → (∀ p ∈ (combOf s.eng c).parks, p.state ≠ .free) →
          ctrVal t.eng .parked = ctrVal s.eng .parked ∧ (combOf t.eng c).parks = (combOf s.eng c).parks) ∧
        t.mem = s.mem ∧ t.posted = s.posted)) ∧
    (fabricCheck l.data q.addr = l.check →
      (∀ (c : CombId) (r : Fin 12) (task role : Nat) (sm : Machine.Stream) (x : SlotLine), q.dst = .index c r task role →
        (islandOf s.eng c.val).stopped = false → streamIn s.eng c r.val task role = some sm → x ∈ sm.index →
        x.line = lineOf q.addr → x.landed = false →
        ∃ t sm' y, Machine.exec (.memoryReadResponse ch id .ok l) s = .next t ∧ streamIn t.eng c r.val task role = some sm' ∧
          y ∈ sm'.index ∧ y.line = lineOf q.addr ∧ y.landed = true ∧ y.data = l.data ∧ y.check = crc32c l.data ∧
          y.poison = l.poison ∧ sm'.taken = sm.taken ∧ t.eng.mp.reads = rest ∧
          t.mem = absorb s.mem [{ addr := q.addr, data := l.data, poison := l.poison }]) ∧
      (∀ (o : LightMove) (x z : SlotLine), q.dst = .light → (islandOf s.eng 50).stopped = false → s.eng.hf.opened = some o → o.written = false →
        x ∈ o.lines → x.line = lineOf q.addr → x.landed = false → z ∈ o.lines → z.line ≠ x.line → z.landed = false →
        ∃ t o' y, Machine.exec (.memoryReadResponse ch id .ok l) s = .next t ∧ t.eng.hf.opened = some o' ∧ y ∈ o'.lines ∧
          y.line = x.line ∧ y.landed = true ∧ y.data = l.data ∧ y.poison = l.poison ∧ z ∈ o'.lines ∧ o'.written = false ∧
          t.eng.mp.reads = rest ∧ t.eng.mp.writes = s.eng.mp.writes ∧
          t.mem = absorb s.mem [{ addr := q.addr, data := l.data, poison := l.poison }]))

/-- MEMORY_WRITE_RESPONSE (R453, R289): with OK memory holds the bytes of the write and its mark, every other byte reads as
before and the write is answered. With FAULT it parks, and PARKED counts where its stream takes a record; one that an
unresolvable fault has ended is dropped. The first CHECK sends it again; the second sends it a third time with every
poison bit set, and WRITE_REJECTS counts; after a third it is dropped (assumptions/36). Memory stays in all of these. While a dip
has stopped its island's clock the response waits in its crossing (R17). -/
def Obligations.WriteResponseCommits : Prop :=
  ∀ (s : State) (ch : ChanId) (id : BitVec 10) (w : WriteReq), s.mem.wf = true → writeFor s.eng ch id = some w →
    ((islandOf s.eng (writeIsland s.eng ch id)).stopped = true → awake s.eng = true → s.eng.pwr.padHold = false →
      ∀ st, Machine.exec (.memoryWriteResponse ch id st) s = .next { s with held := s.held ++ [.memoryWriteResponse ch id st] }) ∧
    ((islandOf s.eng (writeIsland s.eng ch id)).stopped = false →
      ((w.bytes.map Prod.fst).Nodup →
        ∃ t, Machine.exec (.memoryWriteResponse ch id .ok) s = .next t ∧
          (∀ o b, (o, b) ∈ w.bytes → memGet t.mem (64 * w.line + o) = b) ∧
          (∀ a, (∀ p ∈ w.bytes, a ≠ 64 * w.line + p.1) → memGet t.mem a = memGet s.mem a) ∧
          memPoison t.mem w.line = (if wholeLine w then w.poison else memPoison s.mem w.line || w.poison) ∧
          (∀ n, n ≠ w.line → memPoison t.mem n = memPoison s.mem n) ∧
          (w.who ≠ .log → s.eng.hf.opened = none → t.eng.mp.writes.length + 1 = s.eng.mp.writes.length ∧
            t.eng = { s.eng with mp := { s.eng.mp with writes := t.eng.mp.writes } }) ∧ t.posted = s.posted) ∧
      (w.doomed = false → ∃ t, Machine.exec (.memoryWriteResponse ch id .fault) s = .next t ∧ t.mem = s.mem ∧
        t.eng.mp.writes =
          s.eng.mp.writes.map (fun x => if answers w.chan w.id x then { x with parked := true, sent := false } else x) ∧
        ((∀ p ∈ parksOf s.eng w.who, p.write = false ∨ p.state = .free) → (∃ p ∈ parksOf s.eng w.who, p.state = .free) →
          (match w.who with | .comb _ _ _ => s.eng.combs.length = 50 | _ => True) →
          ctrVal t.eng .parked = min 65535 (ctrVal s.eng .parked + 1) ∧
          ∃ p ∈ parksOf t.eng w.who, p.state = .parked ∧ p.write = true ∧ p.line = w.line) ∧
        ((∀ p ∈ parksOf s.eng w.who, p.state ≠ .free) → ctrVal t.eng .parked = ctrVal s.eng .parked) ∧ t.posted = s.posted) ∧
      (∀ st, (st = .fault ∧ w.doomed = true) ∨ (st = .check ∧ w.tries ≠ 1 ∧ w.tries ≠ 2) → w.who ≠ .log → s.eng.hf.opened = none →
        Machine.exec (.memoryWriteResponse ch id st) s = .next (withEng s { s.eng with mp := { s.eng.mp with
          writes := dropFirst (answers ch id) s.eng.mp.writes } })) ∧
      (w.tries = 1 → Machine.exec (.memoryWriteResponse ch id .check) s = .next (withEng s { s.eng with mp := { s.eng.mp with
        writes := s.eng.mp.writes.map fun x => if answers ch id x then { x with tries := 2 } else x } })) ∧
      (w.tries = 2 → ∃ t, Machine.exec (.memoryWriteResponse ch id .check) s = .next t ∧ t.mem = s.mem ∧
        t.eng.mp.writes = s.eng.mp.writes.map (fun x => if answers ch id x then { x with tries := 3, poison := true } else x) ∧
        ctrVal t.eng .writeRejects = min 255 (ctrVal s.eng .writeRejects + 1) ∧ errBit t.eng errPoison = true ∧
        t.posted = s.posted))

/-- TRANSLATION_EVENT and PAGE_FAULT_TIMEOUT (R257, R287, R288, R454) for a forager's only park record. RETRY lets a parked ring go on, and
the lines that have not landed are asked for again; with ABORT, or without an answer in time, UNRESOLVED counts, the lines of the
transfer that have not landed arrive poisoned, as fill, and its stream goes on with fill under its record, or frees it where it has
asked for all its lines. The light path likewise goes on, or its source arrives poisoned. An event whose page size is 3 is
disregarded, and one that comes while a dip has stopped the hub's clock waits for it. -/
def Obligations.ParkedRingResumesOrFills : Prop :=
  ∀ (s : State), awake s.eng = true → s.eng.pwr.padHold = false →
    (∀ op page, Machine.exec (.translationEvent op 3 page) s = .next s) ∧
    ((islandOf s.eng 50).stopped = true → ∀ op size page, size ≠ 3 → Machine.exec (.translationEvent op size page) s =
      .next (withEng s { s.eng with mp := { s.eng.mp with heldXlat := s.eng.mp.heldXlat ++ [(op, size.toNat, page)] } })) ∧
    (hubAlive s.eng = true → s.eng.combs.length = 50 → s.eng.mp.writes = [] → s.eng.mp.heldXlat = [] → (∀ d, combOuts s.eng d = []) →
      (∀ (c : CombId) (r : Fin 12) (g : Ring) (x : SlotLine) (sm : Machine.Stream) (p : Park) (n : Nat), enabled s.eng c = true →
        ringOf s.eng c r.val = some g → g.parked = true → faultLine g = some (x, sm, false) → lineStream g x = some sm →
        (g.lines.map SlotLine.ser).Nodup → s.eng.hf.opened = none → (∀ q ∈ s.eng.hf.parks, q.state = .free) →
        (combOf s.eng c).parks[n]? = some p → p.state = .parked → p.ring = r.val → p.write = false →
        (∀ m q, (combOf s.eng c).parks[m]? = some q → m ≠ n → q.state = .free) →
        (∀ d, d ≠ c → ∀ q ∈ (combOf s.eng d).parks, q.state = .free) →
        (∀ d q h, ringOf s.eng d q = some h → h.parked = true → d = c ∧ q = r.val) →
        (∀ (size : BitVec 2) (page : Nat), size ≠ 3 → inPage size page p.line = true →
          ∃ t, Machine.exec (.translationEvent .retry size page) s = .next t ∧ ringOf t.eng c r.val = some { g with parked := false } ∧
            (combOf t.eng c).parks[n]? = some { p with state := .resuming } ∧ (∀ d, d ≠ c → combOf t.eng d = combOf s.eng d) ∧
            t.eng.ctr = s.eng.ctr ∧ t.eng.mp = s.eng.mp ∧ t.mem = s.mem ∧ t.posted = s.posted) ∧
        (∀ i, (∃ (size : BitVec 2) (page : Nat), size ≠ 3 ∧ inPage size page p.line = true ∧ i = .translationEvent .abort size page) ∨
            i = .pageFaultTimeout (.comb c) n →
          ∃ t g', Machine.exec i s = .next t ∧ ringOf t.eng c r.val = some g' ∧ g'.parked = false ∧
            (∀ y ∈ g.lines, y.landed = false → ownsLine sm y = true → ∃ z ∈ g'.lines, z.ser = y.ser ∧ z.landed = true ∧
              z.poison = true ∧ z.data = fillLine (streamDesc s.eng c sm) y.line) ∧
            (∀ y ∈ g.lines, y.landed = true ∨ ownsLine sm y = false → y ∈ g'.lines) ∧
            (sm.ended = false → (combOf t.eng c).parks[n]? = some { p with state := .filling } ∧
              ∃ sm' ∈ g'.streams, sm'.task = sm.task ∧ sm'.role = sm.role ∧ sm'.filling = true) ∧
            (sm.ended = true → (combOf t.eng c).parks[n]? = some {}) ∧
            ctrVal t.eng .unresolved = min 65535 (ctrVal s.eng .unresolved + 1) ∧
            ctrVal t.eng (.comb c .linesIn) = min 65535 (ctrVal s.eng (.comb c .linesIn) +
              (g.lines.filter fun y => !y.landed && ownsLine sm y).length) ∧
            errBit t.eng errPoison = true ∧ t.eng.mp = s.eng.mp ∧ t.mem = s.mem ∧ t.posted = s.posted)) ∧
      (∀ (o : LightMove) (p : Park) (n : Nat), s.eng.hf.opened = some o → o.parked = true → o.written = false →
        s.eng.hf.parks[n]? = some p → p.state = .parked → p.write = false →
        (∀ m q, s.eng.hf.parks[m]? = some q → m ≠ n → q.state = .free) → (∀ d, ∀ q ∈ (combOf s.eng d).parks, q.state = .free) →
        (∀ d q h, ringOf s.eng d q = some h → h.parked = false) →
        (∀ (size : BitVec 2) (page : Nat), size ≠ 3 → inPage size page p.line = true →
          ∃ t, Machine.exec (.translationEvent .retry size page) s = .next t ∧
            t.eng.hf.opened = some { o with parked := false, event := none } ∧ (∀ q ∈ t.eng.hf.parks, q.state = .free) ∧
            t.eng.ctr = s.eng.ctr ∧ t.eng.mp = s.eng.mp ∧ t.mem = s.mem) ∧
        (∀ i, (∃ (size : BitVec 2) (page : Nat), size ≠ 3 ∧ inPage size page p.line = true ∧ i = .translationEvent .abort size page) ∨
            i = .pageFaultTimeout .hub n →
          ∃ t, Machine.exec i s = .next t ∧ (∀ q ∈ t.eng.hf.parks, q.state = .free) ∧
            (∀ o', t.eng.hf.opened = some o' → o'.parked = false ∧ ∀ l ∈ o'.lines, l.landed = true) ∧
            ctrVal t.eng .unresolved = min 65535 (ctrVal s.eng .unresolved + 1) ∧ errBit t.eng errPoison = true ∧ t.mem = s.mem)))

/-- SHORT_DESCRIPTOR (R255, R256, R257): the next entry of the running list is taken up once the one before it is complete: its source lines
are asked for, or its fill goes to the memory port; an entry with LEN 0 ends the task, one that is invalid or read poisoned fails it
with DESC_INVALID. With its last source line the bytes that it moves go to the memory port, so that the engine reads them from then on; with the
last write's response the transfer counts in FRG_LIGHT and the next entry's turn comes. HANDLE_PUSH and HANDLE_POP (R276, R278, Table
08-9): a comb's two queues, the capping unit's and those of the link groups are first in, first out; a push onto a queue of 64
handles waits, and so does a pop of a carousel slot that the next comb has no room for (R281); a popped buffer is the next comb's to read,
and a slot of a shard that it reads from memory is dropped (R285). SHARD_RELOAD (R284): the stale shard of a comb with a
carousel buffer is loaded again at the CURRENT slots, once no rotation is under way. -/
def Obligations.ListsAndQueuesMoveOn : Prop :=
  (∀ (s : State) (rd : List MemLine) (m : Mem) (i k : Nat) (tk : Task) (a : Nat) (bs : List Byte), m = landed s.mem rd →
     running s.eng = true → s.eng.hf.light = some (i, k) → taskOf s.eng i = some tk → a = tk.record.arg.toNat + 32 * k →
     bs = viewBytes m s.eng a 32 →
     (s.eng.hf.opened.isSome = true → Machine.exec (.shortDescriptor rd) s =
       .next { s with mem := absorb s.mem rd, eng := readEng s rd }) ∧
     (s.eng.hf.opened = none →
       (viewPoisoned m s.eng a 32 = true ∨ shortBad bs = true → ∃ t tk', Machine.exec (.shortDescriptor rd) s = .next t ∧
         t.eng.hf.light = none ∧ taskOf t.eng i = some tk' ∧ tk'.life = .ended .hub 3 1 ∧
         (viewPoisoned m s.eng a 32 = true → errBit t.eng errPoison = true) ∧ t.eng.mp = s.eng.mp ∧ t.mem = absorb s.mem rd ∧
         t.posted = s.posted) ∧
       (viewPoisoned m s.eng a 32 = false → shortBad bs = false →
         (field bs 16 2 = 0 → ∃ t tk', Machine.exec (.shortDescriptor rd) s = .next t ∧ t.eng.hf.light = none ∧
           taskOf t.eng i = some tk' ∧ tk'.life = .ended .hub 1 0 ∧ t.eng.mp = s.eng.mp ∧ t.mem = absorb s.mem rd) ∧
         (0 < field bs 16 2 → bit (field bs 18 1) 0 = false → ∃ t o, Machine.exec (.shortDescriptor rd) s = .next t ∧
           t.eng.hf.opened = some o ∧ o.src = field bs 0 8 ∧ o.dst = field bs 8 8 ∧ o.len = field bs 16 2 ∧ o.fill = false ∧
           o.written = false ∧ (o.lines.map SlotLine.line).Nodup ∧ (∀ l ∈ o.lines, l.asked = false ∧ l.landed = false) ∧
           (∀ j, j < o.len → lineOf (o.src + j) ∈ o.lines.map SlotLine.line) ∧ t.eng.hf.light = some (i, k) ∧
           t.eng.mp = s.eng.mp ∧ t.eng.combs = s.eng.combs ∧ t.eng.mbx = s.eng.mbx ∧ t.mem = absorb s.mem rd) ∧
         (0 < field bs 16 2 → bit (field bs 18 1) 0 = true → field bs 8 8 + field bs 16 2 ≤ 2 ^ 52 →
           writesLost s.eng (.hub i) = false → ∃ t o, Machine.exec (.shortDescriptor rd) s = .next t ∧
           t.eng.hf.opened = some o ∧ o.written = true ∧ t.eng.hf.light = some (i, k) ∧
           viewBytes t.mem t.eng (field bs 8 8) (field bs 16 2) = List.replicate (field bs 16 2) (BitVec.ofNat 8 (field bs 20 1)) ∧
           (∀ x, x < 2 ^ 52 → x < field bs 8 8 ∨ field bs 8 8 + field bs 16 2 ≤ x → viewByte t.mem t.eng x = viewByte (absorb s.mem rd) s.eng x) ∧
           t.eng.combs = s.eng.combs ∧ t.mem = absorb s.mem rd)))) ∧
  (∀ (s : State) (ch : ChanId) (id : BitVec 10) (i k : Nat) (o : LightMove), (islandOf s.eng 50).stopped = false →
     s.eng.hf.light = some (i, k) → s.eng.hf.opened = some o →
     (∀ (q : ReadReq) (l : RespLine), readFor s.eng ch id = some q → q.dst = .light → q.addr % 64 = 0 → q.addr < 2 ^ 52 →
       l.data.length = 64 → fabricCheck l.data q.addr = l.check → o.written = false → o.fill = false → 0 < o.len →
       o.src + o.len ≤ 2 ^ 52 → o.dst + o.len ≤ 2 ^ 52 → (o.lines.map SlotLine.line).Nodup →
       (∀ j, j < o.len → lineOf (o.src + j) ∈ o.lines.map SlotLine.line) → (∃ x ∈ o.lines, x.line = lineOf q.addr ∧ x.landed = false) →
       (∀ x ∈ o.lines, x.line ≠ lineOf q.addr → x.landed = true) → writesLost s.eng (.hub i) = false →
       ∃ t o', Machine.exec (.memoryReadResponse ch id .ok l) s = .next t ∧ t.eng.hf.opened = some o' ∧ o'.written = true ∧
         (∀ j, j < o.len → ∃ x ∈ o.lines, x.line = lineOf (o.src + j) ∧ viewByte t.mem t.eng (o.dst + j) =
           elemD (if x.line = lineOf q.addr then l.data else x.data) ((o.src + j) % 64) 0) ∧
         (∀ x, x < 2 ^ 52 → x < o.dst ∨ o.dst + o.len ≤ x → viewByte t.mem t.eng x = viewByte t.mem s.eng x) ∧
         t.eng.hf.light = some (i, k) ∧ t.eng.combs = s.eng.combs) ∧
     (∀ w, s.eng.mp.writes = [w] → answers ch id w = true → w.who = .hub i → w.doomed = false → o.written = true →
       writesLost s.eng (.hub i) = false →
       ∃ t, Machine.exec (.memoryWriteResponse ch id .ok) s = .next t ∧ t.eng.hf.light = some (i, k + 1) ∧ t.eng.hf.opened = none ∧
         ctrVal t.eng .light = min (2 ^ 32 - 1) (ctrVal s.eng .light + 1) ∧ t.eng.mp.writes = [] ∧ t.eng.combs = s.eng.combs)) ∧
  (∀ (s : State), running s.eng = true → s.eng.combs.length = 50 →
     (∀ (c : CombId) (x : HandleEntry), works s.eng c = true →
       (64 ≤ (combOf s.eng c).ringQ.length → Machine.exec (.handlePush (.combRing c)) s = .next s) ∧
       ((combOf s.eng c).ringQ.length < 64 → chainFront s.eng c true = some x →
         ∃ t, Machine.exec (.handlePush (.combRing c)) s = .next t ∧ (combOf t.eng c).ringQ = (combOf s.eng c).ringQ ++ [x] ∧
           (combOf t.eng c).outQ = (combOf s.eng c).outQ ∧ (combOf t.eng c).chain.length + 1 = (combOf s.eng c).chain.length ∧
           (∀ d, d ≠ c → combOf t.eng d = combOf s.eng d) ∧ t.eng = { s.eng with combs := t.eng.combs } ∧ t.mem = s.mem) ∧
       (∀ ca, (combOf s.eng c).ringQ.length < 64 → chainFront s.eng c true = none → (combOf s.eng c).carousel = some ca →
         slotEntry s.eng c = some x →
         ∃ t, Machine.exec (.handlePush (.combRing c)) s = .next t ∧ (combOf t.eng c).ringQ = (combOf s.eng c).ringQ ++ [x] ∧
           (combOf t.eng c).carousel = some (settleCarousel (shardSlots s.eng) { ca with sent := ca.sent + 1 }) ∧
           (∀ d, d ≠ c → combOf t.eng d = combOf s.eng d) ∧ t.eng = { s.eng with combs := t.eng.combs } ∧ t.mem = s.mem) ∧
       (64 ≤ (combOf s.eng c).outQ.length → Machine.exec (.handlePush (.outbound c)) s = .next s) ∧
       ((combOf s.eng c).outQ.length < 64 → chainFront s.eng c false = some x →
         ∃ t, Machine.exec (.handlePush (.outbound c)) s = .next t ∧ (combOf t.eng c).outQ = (combOf s.eng c).outQ ++ [x] ∧
           (combOf t.eng c).chain.length + 1 = (combOf s.eng c).chain.length ∧
           (∀ d, d ≠ c → combOf t.eng d = combOf s.eng d) ∧ t.eng = { s.eng with combs := t.eng.combs } ∧ t.mem = s.mem)) ∧
     (∀ (c : CombId) (x : HandleEntry) (rest : List HandleEntry), (combOf s.eng c).outQ = x :: rest → s.eng.hf.hand = [] →
       ∃ t, Machine.exec (.handlePop (.outbound c)) s = .next t ∧ (combOf t.eng c).outQ = rest ∧ t.eng.hf.hand = [x] ∧
         (∀ d, d ≠ c → combOf t.eng d = combOf s.eng d) ∧ t.eng.cap = s.eng.cap ∧ t.mem = s.mem) ∧
     (∀ (c d : CombId) (x : HandleEntry) (rest : List HandleEntry), (combOf s.eng c).ringQ = x :: rest → d = ringPeer s.eng c →
       (works s.eng d = false → Machine.exec (.handlePop (.combRing c)) s = .next s) ∧
       (works s.eng d = true → x.part = none → ∃ t, Machine.exec (.handlePop (.combRing c)) s = .next t ∧
         (combOf t.eng c).ringQ = rest ∧ (∀ k, k ≠ c → k ≠ d → combOf t.eng k = combOf s.eng k) ∧
         (∀ tk u, taskOf s.eng x.task = some tk → tk.life = .running u → x ∈ (combOf t.eng d).buffers) ∧
         t.eng = { s.eng with combs := t.eng.combs } ∧ t.mem = s.mem) ∧
       (∀ p, works s.eng d = true → x.part = some p →
         ((combOf s.eng d).carousel = none ∨ (d ≠ c ∧ ∃ ca, (combOf s.eng d).carousel = some ca ∧ (shardIn ca p.num).isSome = true)) →
         ∃ t, Machine.exec (.handlePop (.combRing c)) s = .next t ∧ (combOf t.eng c).ringQ = rest ∧
           (combOf t.eng d).carousel = (combOf s.eng d).carousel ∧ (∀ k, k ≠ c → combOf t.eng k = combOf s.eng k) ∧
           t.eng = { s.eng with combs := t.eng.combs } ∧ t.mem = s.mem) ∧
       (∀ p ca, works s.eng d = true → d ≠ c → x.part = some p → (combOf s.eng d).carousel = some ca → shardIn ca p.num = none →
         (slotFits ca x.tile = false → Machine.exec (.handlePop (.combRing c)) s = .next s) ∧
         (slotFits ca x.tile = true → ∃ t, Machine.exec (.handlePop (.combRing c)) s = .next t ∧
           (combOf t.eng c).ringQ = rest ∧
           (combOf t.eng d).carousel = some (settleCarousel (shardSlots s.eng) (takeSlot p ca)) ∧
           (∀ k, k ≠ c → k ≠ d → combOf t.eng k = combOf s.eng k) ∧ t.eng = { s.eng with combs := t.eng.combs } ∧
           t.mem = s.mem))) ∧
     (∀ (x : HandleEntry), s.eng.hf.hand = [x] → x.dest = 2 → s.eng.cap.queue.length < 64 →
       Machine.exec (.handlePush .capping) s = .next (withEng s { s.eng with
         hf := { s.eng.hf with hand := [] }, cap := { s.eng.cap with queue := s.eng.cap.queue ++ [x] } })) ∧
     (∀ (x : HandleEntry) (g : Fin 3), s.eng.hf.hand = [x] → x.dest = 3 → s.eng.lnk.linkQ.length = 3 →
       (elemD s.eng.lnk.linkQ g.val []).length < 64 →
       ∃ t, Machine.exec (.handlePush (.link g)) s = .next t ∧ t.eng.hf = { s.eng.hf with hand := [] } ∧
         elemD t.eng.lnk.linkQ g.val [] = elemD s.eng.lnk.linkQ g.val [] ++ [x] ∧
         (∀ k, k ≠ g.val → elemD t.eng.lnk.linkQ k [] = elemD s.eng.lnk.linkQ k []) ∧
         t.eng = { s.eng with hf := t.eng.hf, lnk := { s.eng.lnk with linkQ := t.eng.lnk.linkQ } } ∧ t.mem = s.mem) ∧
     (∀ g : Fin 3, (islandOf s.eng (51 + g.val)).stopped = false → s.eng.lnk.linkQ.length = 3 →
       ∃ t, Machine.exec (.handlePop (.link g)) s = .next t ∧
         elemD t.eng.lnk.linkQ g.val [] = (elemD s.eng.lnk.linkQ g.val []).tail ∧
         (∀ k, k ≠ g.val → elemD t.eng.lnk.linkQ k [] = elemD s.eng.lnk.linkQ k []) ∧
         t.eng = { s.eng with lnk := { s.eng.lnk with linkQ := t.eng.lnk.linkQ } } ∧ t.mem = s.mem) ∧
     (∀ (x : HandleEntry) (rest : List HandleEntry), capWorks s.eng = true → s.eng.cap.queue = x :: rest →
       s.eng.cap.spill = [] → x.adds ≠ [] →
       ∃ t, Machine.exec (.handlePop .capping) s = .next t ∧ t.eng.cap = { s.eng.cap with queue := rest, spill := [x] } ∧
         t.eng.combs = s.eng.combs ∧ t.mem = s.mem) ∧
     (∀ (c : CombId) (ca : Carousel) (rd : List MemLine), works s.eng c = true → (combOf s.eng c).carousel = some ca →
       (ca.stale = false ∨ ca.sending = true → Machine.exec (.shardReload c rd) s =
         .next { s with mem := absorb s.mem rd, eng := readEngIn s c rd }) ∧
       (ca.stale = true → ca.sending = false →
         ∃ t ca', Machine.exec (.shardReload c rd) s = .next t ∧ (combOf t.eng c).carousel = some ca' ∧ ca'.stale = false ∧
           ca'.own = (if ca.slots = 0 then ca.own else loadShard (landed s.mem rd) s.eng ca.own.num) ∧
           ca'.extras.length = ca.extras.length ∧ (ca.extras = [] → ca'.slots = ca.slots) ∧ ca'.sent = ca.sent ∧ ca'.got = ca.got ∧
           ca'.incoming = ca.incoming ∧ (∀ d, d ≠ c → combOf t.eng d = combOf s.eng d) ∧ t.mem = absorb s.mem rd ∧
           t.posted = s.posted)))

/-! ### The links -/

/-- The waggle exchange (R369, R370, R371, Table 11-2): locked lanes send CAPS; the partner's CAPS are answered by ACCEPT
with the highest version of both masks, and without one the port goes DOWN with reason 1; ACCEPTs that agree retrain the
lanes at the chosen rate, others start again; READY brings the port UP with full credits; a step that waits too long starts
again, and after the third restart the port goes DOWN with reason 2 until its retry timer ends. PORT_ENABLE, RETRAIN,
LOCK_LOSS, RX_BEAT_DISCARD (R368, R370, R456, R457, R458): ENABLE starts the training of a disabled port that its fuse
enables and that has a LINK record (Table 15-5), and else the port is DISABLED; RETRAIN drops the link and trains again; a lock lost
while UP takes the port DOWN with reason 4 and counts; a beat discarded while UP counts as a CRC error and asks for the flit again. -/
def Obligations.WaggleAndPortControl : Prop :=
  (∀ (s : State) (p : PortId), linkRuns s.eng p = true → s.eng.lnk.ports.length = 18 →
     ((portOf s.eng p).trainReq = true → (portOf s.eng p).state ≠ .waggle →
       ∃ t, Machine.exec (.laneLock p) s = .next t ∧ OnlyPort s t p ∧ portOf t.eng p = { portOf s.eng p with
         lock := true, trainReq := false, state := .waggle, wstep := .caps, caps := none, accept := none, readySeen := false
         uns := [ownCaps s.eng p] }) ∧
     ((portOf s.eng p).state = .waggle →
       (∀ c : Caps, (portOf s.eng p).wstep = .caps → choice s.eng p c = none →
         ∃ t, Machine.exec (.capsReceive p c) s = .next t ∧ PortDropped s t p ∧ (portOf t.eng p).state = .down ∧
           (portOf t.eng p).reason = 1 ∧ (portOf t.eng p).partner = c.deviceId) ∧
       (∀ (c : Caps) (v n : Nat), (portOf s.eng p).wstep = .caps → (portOf s.eng p).accept = none →
         choice s.eng p c = some (v, n) →
         (∀ w ∈ [1, 2, 3], bit (verMask s.eng p) w = true → bit c.verMask.toNat w = true → w ≤ v) ∧
         ∃ t, Machine.exec (.capsReceive p c) s = .next t ∧ OnlyPort s t p ∧ (portOf t.eng p).state = .waggle ∧
           (portOf t.eng p).wstep = .accept ∧ (portOf t.eng p).caps = some c ∧ (portOf t.eng p).partner = c.deviceId ∧
           (portOf t.eng p).partnerPort = c.port ∧
           waggleFlit [0x02, BitVec.ofNat 8 v, 0, BitVec.ofNat 8 n] ∈ (portOf t.eng p).uns) ∧
       (∀ (c : Caps) (v n : Nat) (a b : Byte), (portOf s.eng p).wstep = .accept → (portOf s.eng p).caps = some c →
         choice s.eng p c = some (v, n) → ∃ t, Machine.exec (.acceptReceive p a b) s = .next t ∧ OnlyPort s t p ∧
           (portOf t.eng p).state = .waggle ∧
           (a.toNat = v ∧ b.toNat = n → (portOf t.eng p).version = v ∧ (portOf t.eng p).rate = v ∧
             (portOf t.eng p).features = b ∧ (portOf t.eng p).trainReq = true ∧ (portOf t.eng p).wstep = .retrain) ∧
           (¬(a.toNat = v ∧ b.toNat = n) → (portOf t.eng p).wstep = .caps ∧ (portOf t.eng p).uns = [ownCaps s.eng p])) ∧
       ((portOf s.eng p).wstep = .ready → ∃ t, Machine.exec (.readyReceive p) s = .next t ∧ OnlyPort s t p ∧
         (portOf t.eng p).state = .up ∧ (portOf t.eng p).credit0 = 96 ∧
         (portOf t.eng p).credit1 = 96 - (portOf s.eng p).down.length ∧ (portOf t.eng p).txSeq = 0 ∧
         (portOf t.eng p).rxSeq = 0 ∧ (portOf t.eng p).held = [] ∧ (portOf t.eng p).version = (portOf s.eng p).version) ∧
       ((portOf s.eng p).restarts < 3 → ∃ t, Machine.exec (.waggleTimeout p) s = .next t ∧ OnlyPort s t p ∧
         (portOf t.eng p).restarts = (portOf s.eng p).restarts + 1 ∧
         ((portOf s.eng p).lock = true ∧ (portOf s.eng p).rate = 0 → (portOf t.eng p).state = .waggle ∧
           (portOf t.eng p).wstep = .caps) ∧
         (¬((portOf s.eng p).lock = true ∧ (portOf s.eng p).rate = 0) → (portOf t.eng p).state = .training ∧
           (portOf t.eng p).trainReq = true ∧ (portOf t.eng p).rate = 0)) ∧
       (3 ≤ (portOf s.eng p).restarts → ∃ t, Machine.exec (.waggleTimeout p) s = .next t ∧ PortDropped s t p ∧
         (portOf t.eng p).state = .down ∧ (portOf t.eng p).reason = 2 ∧ (portOf t.eng p).retryWait = true)) ∧
     ((portOf s.eng p).retryWait = true → ∃ t, Machine.exec (.waggleRetryTimer p) s = .next t ∧ OnlyPort s t p ∧
       (portOf t.eng p).retryWait = false ∧ (portOf t.eng p).restarts = 0 ∧
       ((portOf t.eng p).state = .waggle ∨ (portOf t.eng p).state = .training))) ∧
  (∀ (s : State) (p : PortId), s.eng.lnk.ports.length = 18 →
     (∀ (src : WriteSrc) (v : Word), HubUp s.eng → Presents s src (.portCtrl p) v →
       (portFuseOn s.eng p = true → s.eng.boot.cfg.hasLink = true → linkOn s.eng p = true → v.getLsbD 0 = true →
         (v.getLsbD 3 = false → (portOf s.eng p).state = .disabled →
           ∃ t, Machine.exec (.portEnable p src) s = .next t ∧ (portOf t.eng p).state = .training ∧
             (portOf t.eng p).trainReq = true ∧ (portOf t.eng p).rate = 0 ∧
             (portOf t.eng p).laneMap = (elemD s.eng.boot.cfg.link p.val {}).laneMap ∧
             (portOf t.eng p).polarity = (elemD s.eng.boot.cfg.link p.val {}).polarity ∧
             rwVal t.eng (.portCtrl p) = v.toNat % 8 ∧ (∀ q, q ≠ p → portOf t.eng q = portOf s.eng q) ∧
             t.posted = restOf s src ∧ t.mem = s.mem) ∧
         (v.getLsbD 3 = false → (portOf s.eng p).state ≠ .disabled → Machine.exec (.portEnable p src) s =
           .next (afterWrite s src (setRw s.eng (.portCtrl p) (v.toNat % 8)))) ∧
         (v.getLsbD 3 = true →
           ∃ t, Machine.exec (.retrain p src) s = .next t ∧ (portOf t.eng p).state = .training ∧
             (portOf t.eng p).held = [] ∧ (portOf t.eng p).version = 0 ∧ (portOf t.eng p).trainReq = true ∧
             rwVal t.eng (.portCtrl p) = v.toNat % 8 ∧ (∀ q, q ≠ p → portOf t.eng q = portOf s.eng q) ∧
             t.posted = restOf s src ∧ t.mem = s.mem)) ∧
       (v.getLsbD 0 = false ∨ s.eng.boot.cfg.hasLink = false → portFuseOn s.eng p = true →
         ∀ i, (v.getLsbD 3 = false ∧ i = .portEnable p src) ∨ (v.getLsbD 3 = true ∧ i = .retrain p src) →
         ∃ t, Machine.exec i s = .next t ∧ ((portOf s.eng p).state = .disabled → v.getLsbD 3 = false → portOf t.eng p = portOf s.eng p) ∧
           (portOf t.eng p).state = .disabled ∧ ((portOf s.eng p).state ≠ .disabled → (portOf t.eng p).held = []) ∧
           rwVal t.eng (.portCtrl p) = v.toNat % 8 ∧ (∀ q, q ≠ p → portOf t.eng q = portOf s.eng q) ∧
           t.posted = restOf s src ∧ t.mem = s.mem)) ∧
     (linkRuns s.eng p = true → (portOf s.eng p).state = .up →
       ((portOf s.eng p).lock = true → ∃ t, Machine.exec (.lockLoss p) s = .next t ∧ (portOf t.eng p).state = .down ∧
         (portOf t.eng p).reason = 4 ∧ (portOf t.eng p).lock = false ∧ (portOf t.eng p).trainReq = true ∧
         ctrVal t.eng .linkPhyLost = min 255 (ctrVal s.eng .linkPhyLost + 1) ∧
         (∀ q, q ≠ p → portOf t.eng q = portOf s.eng q) ∧ t.posted = s.posted ∧ t.mem = s.mem) ∧
       (∃ t, Machine.exec (.rxBeatDiscard p) s = .next t ∧
         ctrVal t.eng (.crcErrors p) = min 4095 (ctrVal s.eng (.crcErrors p) + 1) ∧ (portOf t.eng p).skipping = true ∧
         (portOf t.eng p).rxSeq = (portOf s.eng p).rxSeq ∧ (portOf t.eng p).state = .up ∧
         ((portOf s.eng p).skipping = false →
           seqFlit opNak (portOf s.eng p).version (portOf s.eng p).rxSeq ∈ (portOf t.eng p).uns) ∧
         (∀ q, q ≠ p → portOf t.eng q = portOf s.eng q) ∧ t.posted = s.posted ∧ t.mem = s.mem)))

/-- Sequencing (R374, R376, R387) on a port that is UP: a flit whose CRC fails or that is out of turn is not taken, and one NAK asks
for the flit expected; a data flit in turn is taken, and one for no bucket is stale and gives its credit back; ACK frees the
flits up to the one it names, NAK and the resend timeout begin resending, CREDIT adds the partner's new credits; FLIT_SEND
gives the next control flit its LSEQ and CRC and holds it; the ACK timer sends the ACK that is due. While a dip has stopped the
port's clock, what arrives at the port waits in its crossing (R17). -/
def Obligations.FlitsKeepSequence : Prop :=
 (∀ (s : State) (p : PortId), (islandOf s.eng (linkIsland p)).stopped = true → awake s.eng = true → s.eng.pwr.padHold = false →
   ∀ i, (∃ f, i ∈ [Instr.ackReceive p f, .nakReceive p f, .creditReceive p f, .okReceive (.port p f), .failReceive (.port p f),
         .sealReceive (.port p f), .repeatReceive (.port p f), .abandonReceive (.port p f), .joinReceive (.port p f),
         .goReceive (.port p f)]) ∨
       (∃ f lane, i = .dataFlitReceive p f lane) ∨ (∃ f, i = .resultFlitReceive p f) ∨ (∃ c, i = .capsReceive p c) ∨
       (∃ v f, i = .acceptReceive p v f) ∨ i ∈ [.readyReceive p, .laneLock p, .lockLoss p, .rxBeatDiscard p] →
     Machine.exec i s = .next { s with held := s.held ++ [i] }) ∧
  ∀ (s : State) (p : PortId), s.eng.lnk.ports.length = 18 → linkRuns s.eng p = true → (portOf s.eng p).state = .up →
    s.eng.lnk.buckets = [] →
    (∀ (f : Flit) (lane : Bool), crcGood f = false ∨ flitKind f < 2 ∧ f.lseq ≠ (portOf s.eng p).rxSeq →
      ∃ t, Machine.exec (.dataFlitReceive p f lane) s = .next t ∧
        portOf t.eng p = (if (portOf s.eng p).skipping then portOf s.eng p else
          { portOf s.eng p with skipping := true, uns := ((portOf s.eng p).uns.filter fun g => msgOp g != opNak) ++
            [seqFlit opNak (portOf s.eng p).version (portOf s.eng p).rxSeq] }) ∧
        (crcGood f = false → ctrVal t.eng (.crcErrors p) = min 4095 (ctrVal s.eng (.crcErrors p) + 1)) ∧
        (crcGood f = true → t.eng.ctr = s.eng.ctr) ∧ t.mem = s.mem ∧ t.posted = s.posted) ∧
    (∀ (f : Flit) (lane : Bool), crcGood f = true → flitKind f < 2 → f.lseq = (portOf s.eng p).rxSeq →
      ∃ t, Machine.exec (.dataFlitReceive p f lane) s = .next t ∧ (portOf t.eng p).rxSeq = f.lseq + 1 ∧
        (portOf t.eng p).skipping = false ∧ (portOf t.eng p).grant0 = ((portOf s.eng p).grant0 + 1) % 2 ^ 16 ∧
        ctrVal t.eng .staleFlits = min (2 ^ 32 - 1) (ctrVal s.eng .staleFlits + 1) ∧
        ctrVal t.eng (.rxFlits p) = min (2 ^ 32 - 1) (ctrVal s.eng (.rxFlits p) + 1) ∧ t.mem = s.mem ∧
        t.posted = s.posted) ∧
    (∀ (f : Flit) (i : Nat), crcGood f = true → flitKind f = kControl →
      indexOf? (fun (h : Flit) => h.lseq == msgLseq f) (portOf s.eng p).held = some i →
      (msgOp f = opAck → ∃ t, Machine.exec (.ackReceive p f) s = .next t ∧ OnlyPort s t p ∧
        (portOf t.eng p).held = (portOf s.eng p).held.drop (i + 1) ∧ (portOf t.eng p).uns = (portOf s.eng p).uns) ∧
      (msgOp f = opNak → (portOf s.eng p).tries = none → ∃ t, Machine.exec (.nakReceive p f) s = .next t ∧ OnlyPort s t p ∧
        (portOf t.eng p).held = (portOf s.eng p).held.drop i ∧ (portOf t.eng p).resend = some 0)) ∧
    (∀ f : Flit, crcGood f = true → flitKind f = kControl → msgOp f = opCredit →
      ∃ t, Machine.exec (.creditReceive p f) s = .next t ∧ OnlyPort s t p ∧
        (portOf t.eng p).credit0 = (portOf s.eng p).credit0 + (field f.payload 16 2 + 65536 - (portOf s.eng p).peer0) % 65536 ∧
        (portOf t.eng p).credit1 = (portOf s.eng p).credit1 + (field f.payload 18 2 + 65536 - (portOf s.eng p).peer1) % 65536 ∧
        (portOf t.eng p).peer0 = field f.payload 16 2 ∧ (portOf t.eng p).peer1 = field f.payload 18 2) ∧
    (∀ (f : Flit) (l : List Flit), (portOf s.eng p).uns = [] → (portOf s.eng p).resend = none →
      (portOf s.eng p).held.length < 256 → (portOf s.eng p).ctl = f :: l →
      ∃ t g, Machine.exec (.flitSend p) s = .next t ∧ OnlyPort s t p ∧ (portOf t.eng p).tx = some g ∧ crcGood g = true ∧
        g.lseq = (portOf s.eng p).txSeq ∧ g.payload = f.payload ∧ (portOf t.eng p).held = (portOf s.eng p).held ++ [g] ∧
        (portOf t.eng p).txSeq = (portOf s.eng p).txSeq + 1 ∧ (portOf t.eng p).ctl = l) ∧
    ((portOf s.eng p).unacked ≠ 0 → ∃ t, Machine.exec (.ackTimer p) s = .next t ∧ OnlyPort s t p ∧
      (portOf t.eng p).unacked = 0 ∧
      seqFlit opAck (portOf s.eng p).version ((portOf s.eng p).rxSeq - 1) ∈ (portOf t.eng p).uns) ∧
    (∀ (f : Flit) (l : List Flit), (portOf s.eng p).held = f :: l →
      ((portOf s.eng p).tries = none → ∃ t, Machine.exec (.resendTimeout p) s = .next t ∧ OnlyPort s t p ∧
        (portOf t.eng p).resend = some 0 ∧ (portOf t.eng p).tries = some (f.lseq, 1) ∧
        (portOf t.eng p).held = f :: l) ∧
      ((portOf s.eng p).tries = some (f.lseq, 8) → ∃ t, Machine.exec (.resendTimeout p) s = .next t ∧ OnlyPort s t p ∧
        (portOf t.eng p).state = .down ∧ (portOf t.eng p).reason = 3 ∧ (portOf t.eng p).held = []))

/-- A data flit that brings a position's last operand completes its sum (R378, R379): the operands added in F32 one after
another, by rank in FIXED order, give the flit that goes to the parent. A RESULT flit in offset order is forwarded to every child port, each of
which gives a credit for it, and written at RESULT_ADDR, as BF16 or widened to F32 (R376, R388); where the lanes that widen it
disagree, its lines are marked poisoned (R407). -/
def Obligations.LastOperandFormsSum : Prop :=
  ∀ (s : State) (p : PortId) (f : Flit) (b : Bucket) (off : Nat), s.eng.lnk.ports.length = 18 → linkRuns s.eng p = true →
    (portOf s.eng p).state = .up → crcGood f = true → f.lseq = (portOf s.eng p).rxSeq → target s.eng f = some b →
    bucketAt s.eng b.order = some b → (∀ x ∈ s.eng.lnk.buckets, x.out = [] ∧ x.broadcast = false) →
    off = f.offset.toNat % 2 ^ 18 → off < groupsIn b →
    (∀ (u : PortId) (rank : Nat), flitKind f = kFull → b.children.find? (fun c => c.1 == p) = some (p, rank) →
      b.parent = some u → (∀ x ∈ opsAt b off, x.rank ≠ rank) → (opsAt b off).length = b.children.length →
      (∀ x ∈ b.sums, x.offset = off → x.ops ≠ []) → b.upNext ≤ off →
      ∃ t b' x, Machine.exec (.dataFlitReceive p f false) s = .next t ∧ bucketAt t.eng b.order = some b' ∧ x ∈ b'.up ∧
        x.offset = off ∧
        x.payload = fullPayload (sumOps (inOrder s.eng (opsAt b off ++
          [{ rank := rank, vals := (List.range 128).map fun j => field f.payload (2 * j) 2, poison := flitPoison f }]))).1 ∧
        (flitPoison f = true → x.poison = true) ∧ b'.state = .active ∧ b'.formed = b.formed ∧ t.mem = s.mem ∧
        t.posted = s.posted) ∧
    (∀ lane : LaneFault, flitKind f = kResult → b.parent = some p → off = b.got → b.got + 1 < groupsIn b → b.drops = [] →
      (b.children.map Prod.fst).Nodup → (∀ c ∈ b.children, c.1 ≠ p ∧ (portOf s.eng c.1).state = .up ∧ 0 < (portOf s.eng c.1).credit1) →
      writesLost s.eng (.link b.task) = false → b.result % 64 = 0 →
      b.result + (if b.resultF32 then 512 else 256) * groupsIn b ≤ 2 ^ 52 →
      ∃ t b' g, Machine.exec (.resultFlitReceive p ⟨f, lane⟩) s = .next t ∧ bucketAt t.eng b.order = some b' ∧ b'.got = b.got + 1 ∧
        b'.out = [] ∧ b'.state = .active ∧
        (g = f ∨ (lane = true ∧ b.resultF32 = true ∧ g = { f with kind := BitVec.ofNat 8 (Nat.lor f.kind.toNat 8) })) ∧
        (∀ c ∈ b.children, (portOf t.eng c.1).down = (portOf s.eng c.1).down ++ [{ g with hopRank := BitVec.ofNat 8 b.rank }] ∧
          (portOf t.eng c.1).credit1 = (portOf s.eng c.1).credit1 - 1) ∧
        (portOf t.eng p).grant1 = ((portOf s.eng p).grant1 + 1) % 2 ^ 16 ∧
        (b.resultF32 = false → viewBytes t.mem t.eng (b.result + 256 * off) 256 = takeBytes f.payload 0 256 ∧
          (∀ a, a < 2 ^ 52 → a < b.result + 256 * off ∨ b.result + 256 * off + 256 ≤ a →
            viewByte t.mem t.eng a = viewByte s.mem s.eng a)) ∧
        (b.resultF32 = true →
          (∀ j, j < 128 → viewNat t.mem t.eng (b.result + 512 * off + 4 * j) 4 = (bf16ToF32 (field f.payload (2 * j) 2)).toNat) ∧
          (∀ a, a < 2 ^ 52 → a < b.result + 512 * off ∨ b.result + 512 * off + 512 ≤ a →
            viewByte t.mem t.eng a = viewByte s.mem s.eng a) ∧
          (lane = true → viewPoison t.mem t.eng (lineOf (b.result + 512 * off)) = true ∧ errBit t.eng errLaneMismatch = true ∧
            ctrVal t.eng .hubLaneMismatch = min 65535 (ctrVal s.eng .hubLaneMismatch + 1))) ∧ t.mem = s.mem ∧ t.posted = s.posted)

/-- OK, FAIL and JOIN at the leader (R389, R395, R396, R402): an OK of the present attempt is kept, and the one that completes the
step's SEQs seals it; the first FAIL makes a REPEAT under the next attempt, or an ABANDON past the limit or after a member's
stop; the last JOIN makes GO, unless the time for it is over. -/
def Obligations.LeaderDecidesStep : Prop :=
  ∀ (s : State) (m : MsgSrc) (e : Engine) (f : Flit) (o : Option PortId) (g : Group), (islandOf s.eng (msgIsland m)).stopped = false →
    groupAt e g.id g.generation = some g → (tree0 g).parent = none → (∀ p, o = some p → fromChild g p = true) →
    (takeMsg s.eng m opOk = (e, some (f, o)) → msgGroup e f = some g → msgAttempt f = stepAttempt g (msgStep f) →
      stepSealed g (msgStep f) = false → (msgStep f, msgAttempt f) ∉ g.acted →
      ∃ t g', Machine.exec (.okReceive m) s = .next t ∧ groupAt t.eng g.id g.generation = some g' ∧
        g'.oks = g.oks ++ [(msgTag f, msgStep f, msgAttempt f)] ∧ g'.sealed = g.sealed ∧
        (∀ b, (e.lnk.buckets.find? fun b => b.known && b.group == g.id && b.step == msgStep f) = some b →
          b.generation = g.generation →
          t.eng.lnk.own = e.lnk.own ++
            (if (dedup ((g'.oks.filter fun x => x.2.1 == msgStep f && x.2.2 == msgAttempt f).map Prod.fst)).length = b.stepBuckets
             then [ctlFlit g opSeal 0 (msgStep f) (msgAttempt f) 0 0] else [])) ∧
        t.mem = s.mem ∧ t.posted = s.posted) ∧
    (takeMsg s.eng m opFail = (e, some (f, o)) → msgGroup e f = some g → msgAttempt f = stepAttempt g (msgStep f) →
      stepSealed g (msgStep f) = false → (msgStep f, msgAttempt f) ∉ g.acted →
      ∃ t g', Machine.exec (.failReceive m) s = .next t ∧ groupAt t.eng g.id g.generation = some g' ∧
        g'.acted = g.acted ++ [(msgStep f, msgAttempt f)] ∧ g'.attempt = g.attempt ∧
        t.eng.lnk.own = e.lnk.own ++
          [if msgReason f = 4 then ctlFlit g opAbandon 0 (msgStep f) (msgAttempt f) 4 0
           else if repeatLimit e < msgAttempt f + 1 then ctlFlit g opAbandon 0 (msgStep f) (msgAttempt f) (msgReason f) 0
           else ctlFlit g opRepeat 0 (msgStep f) (msgAttempt f + 1) 0 0] ∧ t.mem = s.mem ∧ t.posted = s.posted) ∧
    (takeMsg s.eng m opJoin = (e, some (f, o)) → f.group.toNat = g.id → msgGen f = g.generation →
      ∃ t g', Machine.exec (.joinReceive m) s = .next t ∧ groupAt t.eng g.id g.generation = some g' ∧
        g'.joins = g.joins + 1 ∧ g'.go = g.go ∧
        t.eng.lnk.own = e.lnk.own ++ (if g.joins + 1 = g.members ∧ g.late = false then [ctlFlit g opGo 0 0 0 0 g.generation] else []) ∧
        t.mem = s.mem ∧ t.posted = s.posted)

/-- SEAL, REPEAT, ABANDON and GO at a member (R389, R395, R398, R402): SEAL ends every LANDED bucket of the step; REPEAT takes the
new attempt, counts in REPEATS, and no bucket of the step or a later one stays dispatched; ABANDON of a step that is not sealed
stops the graph with REPEAT_LIMIT, or with GROUP_ABANDON after a member's stop; GO lets the generation's buckets become ACTIVE, and one that
came from the parent goes on to every child (R377). -/
def Obligations.MemberFollowsLeader : Prop :=
  ∀ (s : State) (m : MsgSrc) (e : Engine) (f : Flit) (o : Option PortId) (g : Group) (r : Graph),
    (islandOf s.eng (msgIsland m)).stopped = false → groupAt e g.id g.generation = some g → e.sch.run = some r → r.stop = none → (∀ p, o = some p → fromParent g p = true) →
    (takeMsg s.eng m opSeal = (e, some (f, o)) → msgGroup e f = some g → msgAttempt f = stepAttempt g (msgStep f) →
      stepSealed g (msgStep f) = false → (e.lnk.buckets.map Bucket.order).Nodup →
      ∃ t g', Machine.exec (.sealReceive m) s = .next t ∧ groupAt t.eng g.id g.generation = some g' ∧
        g'.sealed = some (msgStep f) ∧
        (∀ b ∈ e.lnk.buckets, b.group = g.id → b.step = msgStep f → b.known = true → b.state = .landed →
          ∃ b' ∈ t.eng.lnk.buckets, b'.order = b.order ∧ b'.state = .done) ∧
        (∀ b ∈ e.lnk.buckets, b.step ≠ msgStep f → b ∈ t.eng.lnk.buckets) ∧ t.mem = s.mem ∧ t.posted = s.posted) ∧
    (takeMsg s.eng m opRepeat = (e, some (f, o)) → msgGroup e f = some g → stepAttempt g (msgStep f) < msgAttempt f →
      stepSealed g (msgStep f) = false →
      ∃ t g', Machine.exec (.repeatReceive m) s = .next t ∧ groupAt t.eng g.id g.generation = some g' ∧
        stepAttempt g' (msgStep f) = msgAttempt f ∧ ctrVal t.eng .repeats = min 65535 (ctrVal e .repeats + 1) ∧
        (∀ b ∈ t.eng.lnk.buckets, msgStep f ≤ b.step → b.dispatched = false ∨ b.state = .waiting) ∧
        (∀ b ∈ e.lnk.buckets, b.step < msgStep f → b ∈ t.eng.lnk.buckets) ∧ t.mem = s.mem ∧ t.posted = s.posted) ∧
    (takeMsg s.eng m opAbandon = (e, some (f, o)) → msgGroup e f = some g → stepSealed g (msgStep f) = false →
      ∃ t, Machine.exec (.abandonReceive m) s = .next t ∧ t.eng.lnk.abandoned = insertNat g.id e.lnk.abandoned ∧
        t.eng.sch.run = some { r with stop := some (if msgReason f = 4 then 12 else 11), stopUnit := 0xF2, stopTask := 0x1FFFFF } ∧
        t.eng.lnk.buckets = e.lnk.buckets ∧ t.mem = s.mem ∧ t.posted = s.posted) ∧
    (takeMsg s.eng m opGo = (e, some (f, o)) → f.group.toNat = g.id → msgGen f = g.generation →
      ∃ t, Machine.exec (.goReceive m) s = .next t ∧ groupAt t.eng g.id g.generation = some { g with go := true } ∧
        t.eng.lnk.buckets = e.lnk.buckets ∧ t.eng.sch = e.sch ∧
        (∀ p, o = some p → e.lnk.ports.length = 18 → ∀ c ∈ (tree0 g).children,
          { f with hopRank := BitVec.ofNat 8 (tree0 g).rank } ∈ (portOf t.eng c.1).ctl) ∧ t.mem = s.mem ∧ t.posted = s.posted)

/-- BUCKET_ADMIT (R380, R384) of the oldest dispatched bucket: an argument address that is not aligned fails the task with
TASK_INVALID and the bucket leaves the links; a valid bucket takes its tree entry and its group. BUCKET_ACTIVATE (R382, R385,
R386): a leaf's bucket becomes ACTIVE and reads out its regions: one contribution flit for each 128 entries, in offset order, marked where
the lanes of the link adders disagree or a brood line fails its CRC (R405, R407); in sign mode the residuals go to this step's error
plane (R391). -/
def Obligations.BucketsAdmittedAndActivated : Prop :=
  (∀ (s : State) (rd : List MemLine) (m : Mem) (old b : Bucket) (t : Task) (g : Group) (tr : Tree), m = landed s.mem rd →
    running s.eng = true → procUp s.eng 2 = true →
    minBy Bucket.order (s.eng.lnk.buckets.filter fun b => b.dispatched && !b.admitted && b.state == .waiting) = some old →
    taskOf s.eng old.task = some t →
    (t.record.arg.toNat % 64 ≠ 0 → ∃ u t', Machine.exec (.bucketAdmit rd) s = .next u ∧
      u.eng.lnk.buckets = s.eng.lnk.buckets.filter (fun x => x.order ≠ old.order) ∧ taskOf u.eng old.task = some t' ∧
      t'.life = .ended .link 3 2 ∧ u.eng.lnk.ports = s.eng.lnk.ports ∧ u.mem = absorb s.mem rd ∧ u.posted = s.posted) ∧
    (t.record.arg.toNat % 64 = 0 → t.record.arg.toNat < 2 ^ 52 → viewPoisoned m s.eng t.record.arg.toNat 64 = false →
      b = parseBucket (viewBytes m s.eng t.record.arg.toNat 64) old.task old.step →
      bucketOk (viewBytes m s.eng t.record.arg.toNat 64) b = true → (b.broadcast && b.sign) = false →
      layoutOk s.eng b = true → viewPoisoned m s.eng b.groupAddr 272 = false →
      g = parseGroup (viewBytes m s.eng b.groupAddr 272) → groupOk (viewBytes m s.eng b.groupAddr 272) g = true →
      portsUp s.eng g = true → g.trees[b.tree]? = some tr → bucketAt s.eng old.order = some old →
      ∃ u b' g', Machine.exec (.bucketAdmit rd) s = .next u ∧ bucketAt u.eng old.order = some b' ∧ b'.admitted = true ∧
        b'.known = true ∧ b'.state = .waiting ∧ b'.task = old.task ∧ b'.tag = b.tag ∧ b'.entries = b.entries ∧
        b'.group = g.id ∧ b'.generation = g.generation ∧ b'.rank = tr.rank ∧ b'.parent = tr.parent ∧
        b'.children = tr.children ∧ groupAt u.eng g.id g.generation = some g' ∧
        u.eng.lnk.buckets.length = s.eng.lnk.buckets.length ∧ u.mem = absorb s.mem rd ∧ u.posted = s.posted)) ∧
  (∀ (s : State) (tag : BitVec 16) (r : ReadOut) (m : Mem) (b : Bucket) (g : Graph) (t : Task) (p : PortId),
    m = landed s.mem r.rd → running s.eng = true → s.eng.sch.run = some g → g.stop = none → s.eng.lnk.buckets = [b] →
    b.tag = tag.toNat → canActivate s.eng b = true → b.broadcast = false → b.parent = some p →
    b.children = [] → b.up = [] → b.upNext = 0 → b.out = [] → taskOf s.eng b.task = some t → t.poisonIn = false →
    layoutOk s.eng b = true → (∀ q, (portOf s.eng q).waitRx = []) →
    ∃ u b', Machine.exec (.bucketActivate tag r) s = .next u ∧ u.eng.lnk.buckets = [b'] ∧ b'.state = .active ∧ b'.reading = true ∧
      b'.own = (ownOperands m s.eng b false).1.zipIdx.map (fun o =>
        { o.1 with poison := o.1.poison || decide (o.2 ∈ r.lane ∨ o.2 ∈ r.crc) }) ∧
      (b.sign = false → b'.up.map UpFlit.offset = List.range (groupsIn b) ∧ (∀ x ∈ b'.up, x.sign = false) ∧
        (∀ x ∈ b'.up, x.offset ∈ r.lane ∨ x.offset ∈ r.crc → x.poison = true)) ∧
      (b.sign = true → b.entries = 128 * groupsIn b → b.err + 8 * b.entries ≤ 2 ^ 52 → writesLost s.eng (.link b.task) = false →
        ∀ i j, i < groupsIn b → j < 128 →
        viewNat u.mem u.eng (b.err + b.step % 2 * b.entries * 4 + 512 * i + 4 * j) 4 = (elemD (signGroup b.rank
          (((ownEntries m s.eng b).drop (128 * i)).take 128) ((List.range 128).map fun k =>
            (w32 (viewNat m s.eng (b.err + (b.step + 1) % 2 * b.entries * 4 + 512 * i + 4 * k) 4), false))).2 j 0).toNat) ∧
      (∀ i ∈ r.lane, i < groupsIn b → errBit u.eng errLaneMismatch = true) ∧
      b'.task = b.task ∧ b'.entries = b.entries ∧ b'.parent = b.parent ∧ u.eng.mbx = s.eng.mbx ∧ u.mem = absorb s.mem r.rd ∧
      u.posted = s.posted)

/-- The timers of the reduction (R394, R399, R400, R402): the deadline of a root's bucket sends FAIL once and counts; a seal that
does not come stops the graph with LINK_LOST, a GO that does not come with JOIN_TIMEOUT, after which the leader sends none; a child port that holds a multicast
back for too long is dropped from it, and gets what it missed alone once the multicast is complete. -/
def Obligations.ReductionTimersAct : Prop :=
  ∀ (s : State) (b : Bucket), hubAlive s.eng = true → bucketAt s.eng b.order = some b → b ∈ s.eng.lnk.buckets →
    (∀ (tag : BitVec 16) (g : Group), activeTag s.eng tag.toNat = some b → b.deadlineOn = true → b.failed = false →
      groupAt s.eng b.group b.generation = some g → (tree0 g).parent = none →
      ∃ t b', Machine.exec (.bucketDeadline tag) s = .next t ∧
        ctrVal t.eng .deadlineExp = min 255 (ctrVal s.eng .deadlineExp + 1) ∧ bucketAt t.eng b.order = some b' ∧
        b' = { b with failed := true, deadlineOn := false } ∧
        t.eng.lnk.own = s.eng.lnk.own ++ [ctlFlit g opFail b.tag b.step b.attempt 1 0] ∧ t.mem = s.mem ∧ t.posted = s.posted) ∧
    (∀ (r : Graph), s.eng.sch.run = some r → r.stop = none →
      (∀ tag : BitVec 16, (s.eng.lnk.buckets.find? fun x => unsealed x && x.tag == tag.toNat) = some b →
        (contributed s.eng b = true → sealedOf s.eng b = false → Machine.exec (.sealWaitTimeout tag) s = .next (withEng s { s.eng with
          sch := { s.eng.sch with run := some { r with stop := some 13, stopUnit := 0xF2, stopTask := 0x1FFFFF } } })) ∧
        (contributed s.eng b = false ∨ sealedOf s.eng b = true → Machine.exec (.sealWaitTimeout tag) s = .next s)) ∧
      (∀ (id : Byte) (g : Group), b.admitted = true → b.state = .waiting → b.group = id.toNat →
        groupAt s.eng id.toNat b.generation = some g → g.go = false →
        Machine.exec (.joinTimeout id) s = .next (withEng s { s.eng with
          sch := { s.eng.sch with run := some { r with stop := some 14, stopUnit := 0xF2, stopTask := 0x1FFFFF } }
          lnk := { s.eng.lnk with groups := s.eng.lnk.groups.map fun x =>
            if x.id = id.toNat ∧ x.go = false then { x with late := true } else x } }))) ∧
    (∀ p : PortId, linkRuns s.eng p = true → minBy Bucket.order (s.eng.lnk.buckets.filter (heldBack s.eng p)) = some b →
      ∃ t b', Machine.exec (.patienceExpiry p) s = .next t ∧ bucketAt t.eng b.order = some b' ∧ (p, b.got) ∈ b'.drops ∧
        ctrVal t.eng .dropped = min 65535 (ctrVal s.eng .dropped + 1) ∧ t.mem = s.mem ∧ t.posted = s.posted) ∧
    (∀ (p : PortId) (rd : List MemLine) (first : Nat), s.eng.lnk.ports.length = 18 →
      minBy Bucket.order (s.eng.lnk.buckets.filter fun x => (x.state == .landed || x.state == .done) &&
        x.drops.any fun d => d.1 == p) = some b → b.drops.find? (fun d => d.1 == p) = some (p, first) →
      ∃ t b', Machine.exec (.unicastReplay p rd) s = .next t ∧
        (portOf t.eng p).replay = (portOf s.eng p).replay ++
          (span first (groupsIn b - first)).map (replayFlit (landed s.mem rd) s.eng b) ∧
        bucketAt t.eng b.order = some b' ∧ b'.drops = b.drops.filter (fun d => d.1 ≠ p) ∧
        ctrVal t.eng .replays = min 65535 (ctrVal s.eng .replays + 1) ∧
        (∀ q, q ≠ p → portOf t.eng q = portOf s.eng q) ∧ t.mem = absorb s.mem rd ∧ t.posted = s.posted)

/-! ### The capping unit -/

/-- SPILL_ADD (R203, R205, R208, R213, R326): the adds of an entry that fall in one line are read, added in F32 and written at
their elements, onto +0 in a candidate region that its MASK task has read (text after R216); every byte outside them reads as before,
the entry leaves the queue and HUB_SPILL_ADDS counts; a lane mismatch counts beside it and marks the line, as a line CRC that fails does
(R405, R407). An add of a later step than the region holds waits (R209): STEP_WAITS of its comb counts its row once, and the turn
is the task's. -/
def Obligations.SpilledAddsAccumulate : Prop :=
  ∀ (s : State) (x : HandleEntry) (rest : List HandleEntry) (r : Region) (fault : AddFault), capWorks s.eng = true →
    s.eng.cap.spill = x :: rest → s.eng.cap.job = none ∨ s.eng.cap.turn = false → regionOf s.eng x.region = some r →
    (addWaits s.eng x.region (stepOf s.eng x.task) = true →
      (x.waited = false → ∃ t l, Machine.exec (.spillAdd fault) s = .next t ∧ t.eng.cap.spill = { x with waited := true } :: l ∧
        l.length = rest.length ∧ t.eng.cap.turn = true ∧ t.eng.cap.job = s.eng.cap.job ∧
        ctrVal t.eng (.comb (srcComb x) .stepWaits) = min 255 (ctrVal s.eng (.comb (srcComb x) .stepWaits) + 1) ∧
        t.eng.mp = s.eng.mp ∧ t.eng.sch = s.eng.sch ∧ t.mem = s.mem) ∧
      (x.waited = true → Machine.exec (.spillAdd fault) s =
        .next (withEng s { s.eng with cap := { s.eng.cap with turn := true } }))) ∧
    (addWaits s.eng x.region (stepOf s.eng x.task) = false → x.adds ≠ [] →
      (x.adds.map Prod.fst).Nodup → (∀ a ∈ x.adds, a.1 < r.elements ∧ lineOf (r.accAddr + 4 * a.1) = firstLine s.eng r x.adds) →
      r.accAddr % 64 = 0 → r.accAddr + 4 * r.elements ≤ 2 ^ 52 → writesLost s.eng (.cap x.task) = false →
      writesLost s.eng (.cap noTask) = false →
      ∃ t, Machine.exec (.spillAdd fault) s = .next t ∧ t.eng.cap.spill = rest ∧ t.eng.cap.turn = true ∧
        (∀ a ∈ x.adds, viewNat t.mem t.eng (r.accAddr + 4 * a.1) 4 =
          (fAdd (if r.stale then 0 else w32 (viewNat s.mem s.eng (r.accAddr + 4 * a.1) 4)) a.2).toNat) ∧
        (∀ b, b < 2 ^ 52 → (∀ a ∈ x.adds, b < r.accAddr + 4 * a.1 ∨ r.accAddr + 4 * a.1 + 4 ≤ b) →
          viewByte t.mem t.eng b = (if r.stale = true ∧ r.accAddr ≤ b ∧ b < r.accAddr + 4 * r.elements then 0
            else viewByte s.mem s.eng b)) ∧
        (fault.lane = true ∨ fault.crc = true ∨ x.h.poison = true → viewPoison t.mem t.eng (firstLine s.eng r x.adds) = true) ∧
        ctrVal t.eng .spillAdds = min (2 ^ 32 - 1) (ctrVal s.eng .spillAdds + 1) ∧
        ctrVal t.eng .hubLaneMismatch =
          (if fault.lane then min 65535 (ctrVal s.eng .hubLaneMismatch + 1) else ctrVal s.eng .hubLaneMismatch) ∧
        (fault.lane = true → errBit t.eng errLaneMismatch = true) ∧ t.eng.combs = s.eng.combs ∧ t.mem = s.mem ∧
        t.posted = s.posted)

/-- UPDATE_ROW (R333, R337, R342, R343, R347, R407, Table 10-4): the task's turn passes to the next row. Of a row without codes: a frozen
row and a row with a poisoned line keep their state and are counted, and so does a row with a lane mismatch; otherwise each master
weight becomes the recurrence's w′ of its old weight, moments and gradient. A row with codes that is frozen is copied into the
target slot; one that is updated gets its new master weights, and in the target slot its header with the scale that R343 gives and its
old EPOCH, its codes, re-quantised from the new weights (R41), and their factor bytes. -/
def Obligations.UpdateRowAppliesRecurrence : Prop :=
  (∀ (s : State) (rd : List MemLine) (lane : LaneFault) (j : CapJob), capWorks s.eng = true → s.eng.cap.job = some j →
    j.kind = kUPDATE → rowTurn s.eng = true → j.row + 1 < j.arg.rows → ∃ t k, Machine.exec (.updateRow rd lane) s = .next t ∧
      t.eng.cap = { s.eng.cap with turn := false, job := some k } ∧ k.row = j.row + 1 ∧ k.task = j.task ∧
      k.target = j.target ∧ t.eng.combs = s.eng.combs ∧ t.mem = absorb s.mem rd ∧ t.posted = s.posted) ∧
  (∀ (s : State) (rd : List MemLine) (m : Mem) (j : CapJob) (tg : Nat) (r : CapRow), m = landed s.mem rd → capWorks s.eng = true →
    s.eng.cap.job = some j → j.kind = kUPDATE → rowTurn s.eng = true → j.arg.linear = false → j.row + 1 < j.arg.rows →
    j.target = some tg → r = capRow m s.eng j j.row → writesLost s.eng (.cap j.task) = false →
    (freezeBit m s.eng j j.row = (true, false) →
      Apart [(codeAddr s.eng j tg j.row, r.codeLen), (factorAddr s.eng j tg j.row, r.factorLen),
        (factorAddr s.eng j j.from_ j.row, r.factorLen)] → codeAddr s.eng j j.from_ j.row + r.codeLen ≤ 2 ^ 52 →
      ∃ t, Machine.exec (.updateRow rd false) s = .next t ∧
        viewBytes t.mem t.eng (codeAddr s.eng j tg j.row) r.codeLen = viewBytes m s.eng (codeAddr s.eng j j.from_ j.row) r.codeLen ∧
        viewBytes t.mem t.eng (factorAddr s.eng j tg j.row) r.factorLen =
          viewBytes m s.eng (factorAddr s.eng j j.from_ j.row) r.factorLen ∧
        ctrVal t.eng .frozenRows = min 65535 (ctrVal s.eng .frozenRows + 1) ∧ t.mem = absorb s.mem rd) ∧
    (∀ (sz : Word × Nat × Bool × Bool) (xs : List (Word × Word × Word)) (ws : List Word) (ns : NewScale) (q : Quant) (rec_ : List Byte),
      (freezeBit m s.eng j j.row).1 = false → (freezeBit m s.eng j j.row).2 = false → r.poison = false → headerBad r.hdr = false →
      stateMarked m s.eng j j.row r.base r.count = false → sz = startScale s.eng j r.hdr →
      xs = updElems m s.eng j r.base r.count (if j.mode = 1 ∨ j.mode = 2 then some r.places else none) → anyBad xs = false →
      ws = r.places.map (fun i => (elemD xs i (0, 0, 0)).1) →
      ns = newScale m s.eng j j.row sz.1 sz.2.1 sz.2.2.1 ws → ns.bad = false →
      recordLen j.mode sz.2.2.1 j.arg.k r.pos ≤ j.arg.codePitch →
      q = quantRow (capMinScale s.eng) ns.s sz.2.1 (qmaxOf sz.2.2.1) ws →
      rec_ = headerBytes q.scale q.zp (flagsByte j.mode (!ws.isEmpty && (decide (0 < q.clamped) || ns.clamped)) q.flat sz.2.2.1)
        r.hdr.epoch ++ encodeRow j.mode sz.2.2.1 j.arg.k q.zp (r.pos.zip q.codes) →
      Apart ([(j.arg.master + 4 * r.base, 4 * r.count), (j.arg.m + momBytes j.coef * r.base, momBytes j.coef * r.count),
        (j.arg.v + momBytes j.coef * r.base, momBytes j.coef * r.count), (codeAddr s.eng j tg j.row, rec_.length),
        (factorAddr s.eng j tg j.row, r.count)] ++
        if j.arg.scaleTrain then [(j.arg.smom + 2 * momBytes j.scoef * j.row, 2 * momBytes j.scoef)] else []) →
      ∃ t k, Machine.exec (.updateRow rd false) s = .next t ∧ t.eng.cap.job = some k ∧ k.row = j.row + 1 ∧
        k.codesWritten = j.codesWritten + ws.length ∧ k.codesClamped = j.codesClamped + q.clamped ∧
        (∀ i, i < r.count → viewNat t.mem t.eng (j.arg.master + 4 * (r.base + i)) 4 = (elemD xs i (0, 0, 0)).1.toNat) ∧
        viewBytes t.mem t.eng (codeAddr s.eng j tg j.row) rec_.length = rec_ ∧
        viewBytes t.mem t.eng (factorAddr s.eng j tg j.row) r.count = factorBytes r.count r.places q.rho ∧
        ctrVal t.eng .clamped = min (ctrMax .clamped) (ctrVal s.eng .clamped + q.clamped) ∧ t.eng.combs = s.eng.combs ∧
        t.mem = absorb s.mem rd ∧ t.posted = s.posted)) ∧
  ∀ (s : State) (rd : List MemLine) (m : Mem) (j : CapJob) (base : Nat), m = landed s.mem rd → capWorks s.eng = true →
    s.eng.cap.job = some j → j.kind = kUPDATE → rowTurn s.eng = true → j.arg.linear = true → j.row + 1 < j.arg.rows →
    base = j.row * j.arg.rowLen →
    (∃ t, Machine.exec (.updateRow rd true) s = .next t ∧
      t.eng.cap = { s.eng.cap with turn := false, job := some { j with row := j.row + 1 } } ∧
      ctrVal t.eng .hubLaneMismatch = min 65535 (ctrVal s.eng .hubLaneMismatch + 1) ∧
      ctrVal t.eng .skippedPoison = min 255 (ctrVal s.eng .skippedPoison + 1) ∧ errBit t.eng errLaneMismatch = true ∧
      t.eng.mp = s.eng.mp ∧ t.mem = absorb s.mem rd) ∧
    (freezeBit m s.eng j j.row = (true, false) → ∃ t, Machine.exec (.updateRow rd false) s = .next t ∧
      t.eng.cap = { s.eng.cap with turn := false, job := some { j with row := j.row + 1 } } ∧
      ctrVal t.eng .frozenRows = min 65535 (ctrVal s.eng .frozenRows + 1) ∧ t.eng.mp = s.eng.mp ∧ t.mem = absorb s.mem rd) ∧
    ((freezeBit m s.eng j j.row).1 = false → (freezeBit m s.eng j j.row).2 = false →
      stateMarked m s.eng j j.row base j.arg.rowLen = true → ∃ t, Machine.exec (.updateRow rd false) s = .next t ∧
      t.eng.cap = { s.eng.cap with turn := false, job := some { j with row := j.row + 1 } } ∧
      ctrVal t.eng .skippedPoison = min 255 (ctrVal s.eng .skippedPoison + 1) ∧ errBit t.eng errPoison = true ∧
      t.eng.mp = s.eng.mp ∧ t.mem = absorb s.mem rd) ∧
    ((freezeBit m s.eng j j.row).1 = false → (freezeBit m s.eng j j.row).2 = false →
      stateMarked m s.eng j j.row base j.arg.rowLen = false →
      anyBad (updElems m s.eng j base j.arg.rowLen none) = false → writesLost s.eng (.cap j.task) = false →
      j.arg.master + 4 * (base + j.arg.rowLen) ≤ 2 ^ 52 → j.arg.m + 4 * (base + j.arg.rowLen) ≤ 2 ^ 52 →
      j.arg.v + 4 * (base + j.arg.rowLen) ≤ 2 ^ 52 →
      (j.arg.master + 4 * (base + j.arg.rowLen) ≤ j.arg.m ∨ j.arg.m + 4 * (base + j.arg.rowLen) ≤ j.arg.master) →
      (j.arg.master + 4 * (base + j.arg.rowLen) ≤ j.arg.v ∨ j.arg.v + 4 * (base + j.arg.rowLen) ≤ j.arg.master) →
      ∃ t, Machine.exec (.updateRow rd false) s = .next t ∧
        t.eng.cap = { s.eng.cap with turn := false, job := some { j with row := j.row + 1 } } ∧
        (∀ i, i < j.arg.rowLen → viewNat t.mem t.eng (j.arg.master + 4 * (base + i)) 4 =
          (updElem j.coef j.lrT (w32 (viewNat m s.eng (j.arg.master + 4 * (base + i)) 4))
            (readFloat (memView m s.eng) (momBytes j.coef) (j.arg.m + momBytes j.coef * (base + i)))
            (readFloat (memView m s.eng) (momBytes j.coef) (j.arg.v + momBytes j.coef * (base + i)))
            (readFloat (memView m s.eng) (if j.arg.gradF32 then 4 else 2)
              (j.arg.grad + (if j.arg.gradF32 then 4 else 2) * (base + i)))).1.toNat) ∧
        t.eng.ctr = (readEng s rd).ctr ∧ t.eng.combs = s.eng.combs ∧ t.mem = absorb s.mem rd ∧ t.posted = s.posted)

/-- Repair, prune and regrow of a block (R355): after repair no row or column with a position that may go holds more than N; repair
and prune only remove, prune removes no fixed position and at most PRUNE; regrowth inserts at most as many as went, each under
N in its row and column. -/
def Obligations.MaskBlockKeepsLimits : Prop :=
  ∀ (n : Nat) (l : List MaskPos),
    (∀ fuel, l.length ≤ fuel → (∀ x ∈ repairBlock n fuel l, x ∈ l ∧
      (x.fixed = false → rowCnt (repairBlock n fuel l) x.r ≤ n ∧ colCnt (repairBlock n fuel l) x.c ≤ n)) ∧
      (∀ x ∈ l, x.fixed = true → (∀ y ∈ l, y.r = x.r → y.c = x.c → y = x) → x ∈ repairBlock n fuel l)) ∧
    (∀ p, (pruneBlock p l []).2.length ≤ p ∧ (∀ x ∈ (pruneBlock p l []).2, x ∈ l ∧ x.fixed = false) ∧
      (∀ x ∈ (pruneBlock p l []).1, x ∈ l)) ∧
    (∀ (cs : List MaskCand) (left : Nat), (regrowBlock n cs left l).1 ≤ left ∧
      (regrowBlock n cs left l).2.length = l.length + (regrowBlock n cs left l).1 ∧
      (∀ i, rowCnt l i ≤ n → rowCnt (regrowBlock n cs left l).2 i ≤ n) ∧
      (∀ i, colCnt l i ≤ n → colCnt (regrowBlock n cs left l).2 i ≤ n))

/-- VERSION_SLOT_FREE (R239): a waiting task takes the slot that R238 gives it, and waits while it gives none. MASK_BLOCK and
MASK_FREE_ROW (R353 to R358) pass the running MASK task on to its next block, or row. Of each row that takes part they write the
positions that it holds now, in canonical form, with their factor bytes, master weights and moments: those kept with what they had, those
grown with the zero point and +0, no more than N of an NM row in its group, and +0 where no position is left; a FREE row gets its new
EPOCH with its record. A FREE row copied for its header keeps its bytes. CHECKPOINT_ENTRY_COPY (R360): the next entry's bytes are
copied and the list moves on; a lane mismatch counts (R407). -/
def Obligations.CappingTaskMovesOn : Prop :=
  (∀ (s : State) (j : CapJob) (tk : Task), capWorks s.eng = true → s.eng.cap.waiting = some j →
    taskOf s.eng j.task = some tk →
    (∀ e, chooseSlot s.eng j.param tk.record.step = (none, e) → Machine.exec .versionSlotFree s = .next (withEng s e)) ∧
    (∀ (n : Nat) (e : Engine) (v : VerEntry), chooseSlot s.eng j.param tk.record.step = (some n, e) →
      verOf e j.param = some v → tk.record.kind = j.kind → elemD v.factors (sourceSlot v tk.record n) 0 ≠ 0 →
      elemD v.factors n 0 ≠ 0 →
      (j.kind = kUPDATE → ∃ t, Machine.exec .versionSlotFree s = .next t ∧ t.eng.cap = { s.eng.cap with
        waiting := none, job := some { j with from_ := v.current, target := some n, w8 := v.w8 || v.w8Due } } ∧
        t.eng.mp = s.eng.mp ∧ t.mem = s.mem ∧ t.posted = s.posted) ∧
      (j.kind = kMASK → ∃ t, Machine.exec .versionSlotFree s = .next t ∧ t.eng.cap = { s.eng.cap with
        waiting := none, job := some { j with from_ := sourceSlot v tk.record n, target := some n } } ∧
        t.eng.mp = s.eng.mp ∧ t.mem = s.mem ∧ t.posted = s.posted))) ∧
  (∀ (s : State) (q : LaneRead) (m : Mem) (j : CapJob), m = landed s.mem q.rd → capWorks s.eng = true → s.eng.cap.job = some j →
    j.kind = kMASK → rowTurn s.eng = true →
    (j.mode ≠ 3 → j.block + 1 < ceilDiv j.arg.k 8 → ∃ t k, Machine.exec (.maskBlock q) s = .next t ∧
      t.eng.cap.job = some k ∧ k.row = j.row ∧ k.block = j.block + 1 ∧ k.task = j.task ∧ k.target = j.target ∧
      t.eng.cap.turn = false ∧ (q.lane = true → errBit t.eng errLaneMismatch = true) ∧ t.eng.combs = s.eng.combs ∧
      t.mem = absorb s.mem q.rd) ∧
    (j.mode = 3 → j.row + 1 < j.arg.rows → ∃ t k, Machine.exec (.maskFreeRow q) s = .next t ∧ t.eng.cap.job = some k ∧
      k.row = j.row + 1 ∧ k.task = j.task ∧ k.target = j.target ∧ t.eng.cap.turn = false ∧
      (q.lane = true → errBit t.eng errLaneMismatch = true) ∧ t.eng.combs = s.eng.combs ∧ t.mem = absorb s.mem q.rd) ∧
    (∀ (tg : Nat) (e : Engine) (skip held open_ : List Nat) (jt : CapJob) (nn b lo ms : Nat) (frz : Nat → Bool), q.lane = false → j.mode = 1 ∨ j.mode = 2 →
      j.target = some tg → writesLost s.eng (.cap j.task) = false → jt = { j with from_ := tg, skipRows := skip, heldRows := held } →
      (e, skip, held) = (if j.block = 0 then openRows m (readEng s q.rd) j else (readEng s q.rd, j.skipRows, j.heldRows)) →
      frz = (fun r => decide (r ∈ held) || ((freezeBit m e jt (8 * j.row + r)).1 && !(freezeBit m e jt (8 * j.row + r)).2)) →
      open_ = (blockRows j).filter (fun r => decide (r ∉ skip) && !frz r) → nn = nmOf j.mode → ms = momBytes j.coef →
      (∀ r ∈ open_, codeBits (capHeader m e jt (8 * j.row + r)) + 3 = b) → lo = j.block * nn * b →
      Apart (open_.flatMap fun r => [(codeAddr s.eng j tg (8 * j.row + r), 8),
        (codeAddr s.eng j tg (8 * j.row + r) + 8 + lo / 8, ceilDiv (lo % 8 + nn * b) 8),
        (j.arg.master + 4 * ((8 * j.row + r) * j.arg.rowLen + j.block * nn), 4 * nn),
        (j.arg.m + ms * ((8 * j.row + r) * j.arg.rowLen + j.block * nn), ms * nn),
        (j.arg.v + ms * ((8 * j.row + r) * j.arg.rowLen + j.block * nn), ms * nn),
        (factorAddr s.eng j tg (8 * j.row + r) + j.block * nn, nn)]) →
      ∃ t l, Machine.exec (.maskBlock q) s = .next t ∧ (∀ r ∈ open_, rowCnt l r ≤ nn) ∧
        (∀ x ∈ l, KeptOrGrown (((blockRows j).filter fun r => decide (r ∉ skip)).flatMap (blockPos m e jt frz))
          (fun r c => decide (r ∈ open_ ∧ 8 * j.block + c < j.arg.k) && (candMag m e j.arg (8 * j.row + r) (8 * j.block + c)).isSome)
          (fun r => (capHeader m e jt (8 * j.row + r)).z) x) ∧
        (∀ r ∈ open_, ∀ (h : WRow) (occ : List MaskPos) (el first len i : Nat), h = capHeader m e jt (8 * j.row + r) →
          occ = sortBy (fun a b => decide (a.c < b.c)) (l.filter fun x => x.r == r) →
          el = (8 * j.row + r) * j.arg.rowLen + j.block * nn → first = h.addr + 8 + lo / 8 → len = ceilDiv (lo % 8 + nn * b) 8 → i < nn →
          viewNat t.mem t.eng (j.arg.master + 4 * (el + i)) 4 = (match occ[i]? with | some x => x.w % 2 ^ 32 | none => 0) ∧
          viewNat t.mem t.eng (j.arg.m + ms * (el + i)) ms = (match occ[i]? with | some x => x.mm % 2 ^ (8 * ms) | none => 0) ∧
          viewNat t.mem t.eng (j.arg.v + ms * (el + i)) ms = (match occ[i]? with | some x => x.v % 2 ^ (8 * ms) | none => 0) ∧
          viewByte t.mem t.eng (factorAddr s.eng j tg (8 * j.row + r) + j.block * nn + i) =
            (match occ[i]? with | some x => x.rho | none => 0) ∧
          bits (viewNat t.mem t.eng first len) (lo % 8 + i * b) b =
            (match (nmSlots nn h.z (occ.map fun x => (x.c, x.code)))[i]? with | some y => (y.1 + 8 * y.2) % 2 ^ b | none => 0) ∧
          bits (viewNat t.mem t.eng first len) 0 (lo % 8) = bits (viewNat m e first len) 0 (lo % 8))) ∧
    (∀ (tg n : Nat) (r : CapRow) (ms : Nat) (l0 : List MaskPos), q.lane = false → j.mode = 3 → j.target = some tg → n = j.row →
      writesLost s.eng (.cap j.task) = false → r = capRow m s.eng j n → ms = momBytes j.coef →
      (headerBad r.hdr = true → tg ≠ j.from_ →
        Apart [(codeAddr s.eng j tg n, r.codeLen), (factorAddr s.eng j tg n, r.factorLen), (factorAddr s.eng j j.from_ n, r.factorLen)] →
        codeAddr s.eng j j.from_ n + r.codeLen ≤ 2 ^ 52 → j.row + 1 < j.arg.rows →
        ∃ t, Machine.exec (.maskFreeRow q) s = .next t ∧
          viewBytes t.mem t.eng (codeAddr s.eng j tg n) r.codeLen = viewBytes m s.eng (codeAddr s.eng j j.from_ n) r.codeLen ∧
          viewBytes t.mem t.eng (factorAddr s.eng j tg n) r.factorLen = viewBytes m s.eng (factorAddr s.eng j j.from_ n) r.factorLen ∧
          ctrVal t.eng .skippedPoison = min 255 (ctrVal s.eng .skippedPoison + 1)) ∧
      (classify m s.eng j n r = .free → l0 = (List.range r.pos.length).map (fun i =>
          readPos m s.eng j 0 (elemD r.pos i 0) n (elemD r.codes i 0) r.base (elemD r.places i 0) false) →
        (∀ ks : List Nat, ks.length ≤ r.pos.length → ks.Pairwise (· < ·) → (∀ k ∈ ks, k < j.arg.k) → recordLen 3 r.hdr.wide j.arg.k ks ≤ j.arg.codePitch) → r.pos.length ≤ r.count →
        Apart [(codeAddr s.eng j tg n, j.arg.codePitch), (factorAddr s.eng j tg n, r.count), (j.arg.master + 4 * r.base, 4 * r.count),
          (j.arg.m + ms * r.base, ms * r.count), (j.arg.v + ms * r.base, ms * r.count)] →
        ∃ (t : State) (l : List MaskPos) (rec_ : List Byte), Machine.exec (.maskFreeRow q) s = .next t ∧ l.length ≤ r.count ∧ l.Pairwise (fun a b => a.c ≤ b.c) ∧
          (∀ x ∈ l, KeptOrGrown l0 (fun _ c => decide (c < j.arg.k) && (candMag m s.eng j.arg n c).isSome) (fun _ => r.hdr.z) x) ∧
          rec_ = viewBytes m s.eng r.hdr.addr 6 ++ leBytes 2 ((newEpoch s.eng j).getD r.hdr.epoch) ++
            encodeRow 3 r.hdr.wide j.arg.k r.hdr.z (l.map fun x => (x.c, x.code)) ∧
          viewBytes t.mem t.eng (codeAddr s.eng j tg n) rec_.length = rec_ ∧
          (∀ i, i < r.count →
            viewByte t.mem t.eng (factorAddr s.eng j tg n + i) = (match l[i]? with | some x => x.rho | none => 0) ∧
            viewNat t.mem t.eng (j.arg.master + 4 * (r.base + i)) 4 = (match l[i]? with | some x => x.w % 2 ^ 32 | none => 0) ∧
            viewNat t.mem t.eng (j.arg.m + ms * (r.base + i)) ms = (match l[i]? with | some x => x.mm % 2 ^ (8 * ms) | none => 0) ∧
            viewNat t.mem t.eng (j.arg.v + ms * (r.base + i)) ms = (match l[i]? with | some x => x.v % 2 ^ (8 * ms) | none => 0))))) ∧
  (∀ (s : State) (q : LaneRead) (m : Mem) (j : CapJob) (c : CkptJob) (bs : List Byte) (src : Nat), m = landed s.mem q.rd →
    writesLost s.eng (.cap j.task) = false →
    capWorks s.eng = true → s.eng.cap.job = some j → j.ckpt = some c → rowTurn s.eng = true →
    bs = viewBytes m s.eng (c.list + 32 * c.next) 32 → viewPoisoned m s.eng (c.list + 32 * c.next) 32 = false →
    ckptSource s.eng bs = some src → c.next + 1 < c.entries → field bs 16 8 + field bs 24 8 ≤ 2 ^ 52 →
    ∃ t k, Machine.exec (.checkpointEntryCopy q) s = .next t ∧
      t.eng.cap = { s.eng.cap with turn := false, job := some { j with ckpt := some k } } ∧ k.next = c.next + 1 ∧
      k.poisoned = c.poisoned + countIf (viewPoison m s.eng) (linesOf src (field bs 24 8)) ∧
      viewBytes t.mem t.eng (field bs 16 8) (field bs 24 8) = viewBytes m s.eng src (field bs 24 8) ∧
      (∀ a, a < 2 ^ 52 → a < field bs 16 8 ∨ field bs 16 8 + field bs 24 8 ≤ a →
        viewByte t.mem t.eng a = viewByte (absorb s.mem q.rd) s.eng a) ∧
      (q.lane = true → errBit t.eng errLaneMismatch = true ∧
        ctrVal t.eng .hubLaneMismatch = min 65535 (ctrVal s.eng .hubLaneMismatch + 1)) ∧ t.mem = absorb s.mem q.rd ∧
      t.posted = s.posted)

/-! ### Power, clocks, temperature, substates -/

/-- VOLTAGE_REQUEST, FREQUENCY_REQUEST, HELD_REQUEST_APPLY, FREQ_CHANGE_COMPLETE (R538, R539, R540, R541, R549, R555): a request whose
order is wrong is held and counted, under the trip too; one in order is applied, but under the trip or the clamp it only stands, and in a
post-dip hold it waits; a held one is applied once its precondition holds; the last step of an envelope's change, with every enabled
comb at it, shows it in ENVELOPE and answers the MODE_SET. -/
def Obligations.RequestsKeepOrder : Prop :=
  ∀ s : State,
    (∀ (src : WriteSrc) (v : Word) (n : Nat), HubUp s.eng → Presents s src .pwrVid v → vidTaken v.toNat = some n →
      (n < minVid (judgedStep s.eng) → ∃ t, Machine.exec (.voltageRequest src) s = .next t ∧
        t.eng.pwr = { s.eng.pwr with vidReq := n, vidHeld := true } ∧
        ctrVal t.eng .heldVid = min 65535 (ctrVal s.eng .heldVid + 1) ∧ t.posted = restOf s src ∧ t.mem = s.mem) ∧
      (minVid (judgedStep s.eng) ≤ n → railReady s.eng = false → Machine.exec (.voltageRequest src) s =
        .next (afterWrite s src { s.eng with pwr := { s.eng.pwr with vidReq := n, vidHeld := true } })) ∧
      (minVid (judgedStep s.eng) ≤ n → railReady s.eng = true → ∃ t, Machine.exec (.voltageRequest src) s = .next t ∧
        t.eng.pwr = { s.eng.pwr with
          vidReq := n, vidHeld := false, vid := n, goodSince := if n = s.eng.pwr.vid then s.eng.pwr.goodSince else false
          vidOld := if n = s.eng.pwr.vid then s.eng.pwr.vidOld else some (detectorVid s.eng, 125) } ∧
        t.eng.ctr = s.eng.ctr ∧ t.posted = restOf s src ∧ t.mem = s.mem)) ∧
    (∀ (src : WriteSrc) (v : Word) (n : Nat), HubUp s.eng → Presents s src .clkCombFreq v → stepTaken v.toNat = some n →
      (s.eng.pwr.vid < minVid n ∨ s.eng.pwr.goodSince = false →
        ∃ t, Machine.exec (.frequencyRequest src) s = .next t ∧
          t.eng.pwr = { s.eng.pwr with stepReq := n, stepHeld := true, stepCounted := true } ∧
          ctrVal t.eng .heldFreq = min 65535 (ctrVal s.eng .heldFreq + 1) ∧
          (traceEnabled s.eng 0x0008 = true → t.eng.log.inflight.map LogRec.traceId =
            s.eng.log.inflight.map LogRec.traceId ++ [0x0008]) ∧ t.posted = restOf s src ∧ t.mem = s.mem) ∧
      (minVid n ≤ s.eng.pwr.vid → s.eng.pwr.goodSince = true →
        (stepBounded s.eng = true → Machine.exec (.frequencyRequest src) s = .next (afterWrite s src { s.eng with
          pwr := { s.eng.pwr with stepReq := n, stepHeld := false, stepCounted := false } })) ∧
        (stepBounded s.eng = false → holdBlocks s.eng n = true →
          Machine.exec (.frequencyRequest src) s = .next (afterWrite s src { s.eng with pwr := { s.eng.pwr with
            stepReq := n, stepHeld := true, stepCounted := false } })) ∧
        (stepBounded s.eng = false → holdBlocks s.eng n = false →
          ∃ t, Machine.exec (.frequencyRequest src) s = .next t ∧ t.eng.pwr = { s.eng.pwr with
            stepReq := n, stepHeld := false, stepCounted := false, step := n
            changing := s.eng.pwr.changing || decide (n ≠ s.eng.pwr.step), stepFrom := t.eng.pwr.stepFrom } ∧
            t = afterWrite s src { s.eng with pwr := t.eng.pwr }))) ∧
    (s.eng.pwr.envTarget = none →
      (vidFree s.eng = true → ∃ t, Machine.exec .heldRequestApply s = .next t ∧ t.eng.pwr.vid = s.eng.pwr.vidReq ∧
        t.eng.pwr.vidHeld = false ∧ t.eng.pwr.step = s.eng.pwr.step ∧ OnlyPower s t) ∧
      (vidFree s.eng = false → stepFree s.eng = true → ∃ t, Machine.exec .heldRequestApply s = .next t ∧
        t.eng.pwr.step = s.eng.pwr.stepReq ∧ t.eng.pwr.stepHeld = false ∧ t.eng.pwr.vid = s.eng.pwr.vid ∧ OnlyPower s t) ∧
      (vidFree s.eng = false → stepFree s.eng = false → Machine.exec .heldRequestApply s = .next s)) ∧
    (∀ (n : Nat) (c : Msg), s.eng.pwr.changing = true → s.eng.pwr.envTarget = some n → procUp s.eng 0 = true →
      stepBounded s.eng = false → s.eng.pwr.step = envStep n → s.eng.pwr.stepReq = envStep n → s.eng.pwr.vid = envVid n →
      s.eng.pwr.vidReq = envVid n → railReady s.eng = true → s.eng.mbx.modeReply = some c → s.eng.mbx.ring.length < 256 →
      ((∀ k : CombId, enabled s.eng k = true → (islandOf s.eng k.val).hold = true → envStep n ≤ (islandOf s.eng k.val).holdStep) →
        Machine.exec .freqChangeComplete s = .next (withEng s { s.eng with
          pwr := { s.eng.pwr with changing := false, envelope := n, envTarget := none }
          mbx := { s.eng.mbx with modeReply := none, ring := s.eng.mbx.ring ++ [replyMsg s.eng c 0 []] } })) ∧
      ((∃ k : CombId, enabled s.eng k = true ∧ (islandOf s.eng k.val).hold = true ∧ (islandOf s.eng k.val).holdStep < envStep n) →
        Machine.exec .freqChangeComplete s = .next (withEng s { s.eng with pwr := { s.eng.pwr with changing := false } })))

/-- The voltage covers the comb frequency (R540) while the engine is awake: no request, no answer of the rail or the clocks, no dip, no
trip, no clamp of a restarted FP0 and no request for QUIET leaves rail_core_vid below the minimum of the present comb step. NAP's code 30
is the exception that R559 makes while no comb is clocked, and its return brings the entry code back before the combs run (R561). -/
def Obligations.VoltageCoversFrequency : Prop :=
  (∀ (s t : State) (c : Instr), minVid s.eng.pwr.step ≤ s.eng.pwr.vid → awake s.eng = true → s.held = [] →
    Machine.exec c s = .next t →
    (∃ src, c = .voltageRequest src) ∨ (∃ src, c = .frequencyRequest src) ∨ c = .heldRequestApply ∨ c = .freqChangeComplete ∨
      c = .modeSet ∨ c = .railCoreDrop ∨ c = .railCoreRecover ∨ (∃ d, c = .droopWarning d) ∨ (∃ d, c = .droopStop d) ∨
      (∃ d x, c = .droopClear d x) ∨ (∃ i, c = .droopHoldExpiry i) ∨ (∃ i x, c = .sensorCode i x) ∨ (∃ i, c = .sensorTimeout i) ∨
      c = .staleTrip ∨ c = .thermalLoopTick ∨ (∃ p x, c = .watchdogExpiry p x) ∨ (∃ p x, c = .selfRestart p x) ∨
      (∃ p h o x, c = .protectStore p h o x) ∨ (∃ p, c = .fpReady p) ∨ c = .park ∨ c = .heartbeatTimeout ∨ c = .idleReturn ∨
      (∃ src, c = .padRelease src) →
    minVid t.eng.pwr.step ≤ t.eng.pwr.vid) ∧
  (∀ (s t : State), minVid s.eng.pwr.step ≤ s.eng.pwr.entryVid → asleep s.eng = true → s.eng.pwr.wakeLatched = true →
    entryDone s.eng = true → Machine.exec .wakeReturn s = .next t →
    minVid t.eng.pwr.step ≤ t.eng.pwr.vid)

/-- Supply dips (R472, R543, R544, R545, R546, R549, R550): below its warning level an island's clock stretches and the dip counts
once; below the stop level it stops, and above that it runs again, still stretched; once the supply has stayed above the warning
level the island leaves stretching, and a comb then holds one step below until its hold ends, when a request that the hold delayed is
judged. A drop of rail_core_good outside a voltage change stretches every island and counts, and its return starts the holds; within
the 100 ns of a change it is disregarded. While a dip stops the hub's clock the shadows keep their values, and what waited in a crossing
is taken as the clock runs again (R17). A supply on the other side of a level, and an island without a running clock, change nothing. -/
def Obligations.DipsStretchThenHold : Prop :=
  (∀ (s : State) (i : IslandId) (supply : BitVec 12), s.eng.pwr.islands.length = 57 → islandRuns s.eng i.val = true →
    Settled s →
    ((islandOf s.eng i.val).stretched = false →
      (supply.toNat < warnLevel s.eng i.val → ∃ t, Machine.exec (.droopWarning ⟨i, supply⟩) s = .next t ∧
        islandOf t.eng i.val = { islandOf s.eng i.val with stretched := true, stopped := false } ∧
        t.eng.pwr.lastDip = i.val ∧ ctrVal t.eng .dips = min (2 ^ 24 - 1) (ctrVal s.eng .dips + 1) ∧
        (∀ k, k ≠ i.val → islandOf t.eng k = islandOf s.eng k) ∧ t.mem = s.mem ∧ t.posted = s.posted) ∧
      (warnLevel s.eng i.val ≤ supply.toNat → Machine.exec (.droopWarning ⟨i, supply⟩) s = .next s)) ∧
    ((islandOf s.eng i.val).stretched = true →
      (stopLevel s.eng i.val ≤ supply.toNat → ∃ t, Machine.exec (.droopWarning ⟨i, supply⟩) s = .next t ∧
        islandOf t.eng i.val = { islandOf s.eng i.val with stopped := false, lost := 0 } ∧
        (∀ k, k ≠ i.val → islandOf t.eng k = islandOf s.eng k) ∧ ctrVal t.eng .dips = ctrVal s.eng .dips ∧
        (i.val = 50 → t.shadow = none) ∧ t.mem = s.mem ∧ t.posted = s.posted) ∧
      (supply.toNat < stopLevel s.eng i.val → Machine.exec (.droopWarning ⟨i, supply⟩) s = .next s)) ∧
    (supply.toNat < stopLevel s.eng i.val → ∃ t, Machine.exec (.droopStop ⟨i, supply⟩) s = .next t ∧
      islandOf t.eng i.val = { islandOf s.eng i.val with stretched := true, stopped := true } ∧
      ctrVal t.eng .dips = (if (islandOf s.eng i.val).stretched then ctrVal s.eng .dips
        else min (2 ^ 24 - 1) (ctrVal s.eng .dips + 1)) ∧
      (i.val = 50 → s.shadow = none → t.shadow = some s.eng) ∧ (i.val ≠ 50 → t.shadow = s.shadow) ∧ t.held = [] ∧
      (∀ k, k ≠ i.val → islandOf t.eng k = islandOf s.eng k) ∧ t.mem = s.mem ∧ t.posted = s.posted) ∧
    (stopLevel s.eng i.val ≤ supply.toNat → Machine.exec (.droopStop ⟨i, supply⟩) s = .next s) ∧
    (∀ ns : Word, (islandOf s.eng i.val).stretched = true → warnLevel s.eng i.val ≤ supply.toNat →
      ∃ t, Machine.exec (.droopClear ⟨i, supply⟩ ns) s = .next t ∧ (islandOf t.eng i.val).stretched = false ∧
        (islandOf t.eng i.val).stopped = false ∧
        (i.val < 50 → (islandOf t.eng i.val).hold = true ∧ (islandOf t.eng i.val).holdStep = s.eng.pwr.step - 1) ∧
        (50 ≤ i.val → (islandOf t.eng i.val).hold = (islandOf s.eng i.val).hold) ∧ (i.val = 50 → t.shadow = none) ∧
        ((islandOf s.eng i.val).stopped = false → t.eng.log.inflight.map LogRec.traceId =
          s.eng.log.inflight.map LogRec.traceId ++ [0x0009]) ∧
        (∀ k, k ≠ i.val → islandOf t.eng k = islandOf s.eng k) ∧ t.mem = s.mem ∧ t.posted = s.posted) ∧
    (∀ ns : Word, (islandOf s.eng i.val).stretched = false ∨ supply.toNat < warnLevel s.eng i.val →
      Machine.exec (.droopClear ⟨i, supply⟩ ns) s = .next s)) ∧
  (∀ (s : State) (i : IslandId) (supply : BitVec 12), Settled s → islandRuns s.eng i.val = false →
    Machine.exec (.droopWarning ⟨i, supply⟩) s = .next s ∧ Machine.exec (.droopStop ⟨i, supply⟩) s = .next s) ∧
  (∀ (s t : State) (d : Supply) (c : Instr), d.island.val ≠ 50 → d.island.val ≠ 55 → crosses c = true → s.held = [c] →
    Machine.exec (.droopWarning d) { s with held := [] } = .next t → Machine.exec (.droopWarning d) s = Machine.exec c t) ∧
  (∀ (s : State) (c : CombId), s.eng.pwr.islands.length = 57 → (islandOf s.eng c.val).hold = true →
    (islandOf s.eng c.val).stretched = false → s.eng.pwr.railDropped = false → s.eng.pwr.envTarget = none →
    ∃ t, Machine.exec (.droopHoldExpiry c) s = .next t ∧
      islandOf t.eng c.val = { islandOf s.eng c.val with hold := false } ∧
      (∀ k, k ≠ c.val → islandOf t.eng k = islandOf s.eng k) ∧ t.mem = s.mem ∧ t.posted = s.posted ∧
      (s.eng.pwr.stepHeld = false → OnlyPower s t ∧ t.eng.pwr.step = s.eng.pwr.step) ∧
      (s.eng.pwr.stepHeld = true →
        (stepBad s.eng s.eng.pwr.stepReq = true → t.eng.pwr.stepHeld = true ∧ t.eng.pwr.stepCounted = true ∧
          t.eng.pwr.step = s.eng.pwr.step ∧ ctrVal t.eng .heldFreq =
            (if s.eng.pwr.stepCounted then ctrVal s.eng .heldFreq else min 65535 (ctrVal s.eng .heldFreq + 1))) ∧
        (stepBad s.eng s.eng.pwr.stepReq = false → stepBounded s.eng = false → holdBlocks t.eng s.eng.pwr.stepReq = false →
          t.eng.pwr.step = s.eng.pwr.stepReq ∧ t.eng.pwr.stepHeld = false))) ∧
  (∀ s : State, s.eng.pwr.coreReq = true → s.eng.pwr.goodCore = true → s.eng.pwr.vidOld.isSome = true →
    Machine.exec .railCoreDrop s = .next (withEng s { s.eng with pwr := { s.eng.pwr with goodCore := false } })) ∧
  (∀ s : State, s.eng.pwr.coreReq = true → s.eng.pwr.goodCore = true → s.eng.pwr.vidOld = none →
    ∃ t, Machine.exec .railCoreDrop s = .next t ∧ t.eng.pwr.goodCore = false ∧ t.eng.pwr.railDropped = true ∧
      t.eng.pwr.lastDip = 50 ∧ (∀ k, (islandOf s.eng k).started = true → islandStretched t.eng k = true) ∧
      ctrVal t.eng .railDrops = min 255 (ctrVal s.eng .railDrops + 1) ∧
      ctrVal t.eng .dips = min (2 ^ 24 - 1) (ctrVal s.eng .dips + 1) ∧ t.mem = s.mem ∧ t.posted = s.posted) ∧
  (∀ s : State, s.eng.pwr.goodCore = false → s.eng.pwr.envTarget = none → s.eng.pwr.pstate ≠ .nap →
    (s.eng.pwr.railDropped = true → s.eng.pwr.islands.length = 57 → ∃ t, Machine.exec .railCoreRecover s = .next t ∧
      t.eng.pwr.goodCore = true ∧ t.eng.pwr.goodSince = (s.eng.pwr.goodSince || s.eng.pwr.vidOld.isNone) ∧
      t.eng.pwr.railDropped = false ∧
      (∀ k, k < 50 → (islandOf s.eng k).started = true →
        (islandOf t.eng k).hold = true ∧ (islandOf t.eng k).holdStep = s.eng.pwr.step - 1) ∧
      (∀ k, 50 ≤ k → islandOf t.eng k = islandOf s.eng k) ∧
      t.eng.log.inflight.map LogRec.traceId = s.eng.log.inflight.map LogRec.traceId ++ [0x0009] ∧
      t.mem = s.mem ∧ t.posted = s.posted) ∧
    (s.eng.pwr.railDropped = false → Machine.exec .railCoreRecover s = .next (withEng s { s.eng with pwr := { s.eng.pwr with
      goodCore := true, goodSince := s.eng.pwr.goodSince || s.eng.pwr.vidOld.isNone } }))) ∧
  (∀ s : State, s.eng.pwr.goodCore = true →
    (s.eng.pwr.goodSince = true → Machine.exec .railCoreRecover s = .next s) ∧
    (s.eng.pwr.goodSince = false → s.eng.pwr.envTarget = none → s.eng.pwr.pstate ≠ .nap →
      Machine.exec .railCoreRecover s = .next (withEng s { s.eng with pwr := { s.eng.pwr with
        goodSince := true, vidOld := none } })))

/-- Sensors and the trip (R474, R475, R555, R556, Table 14-8): a code sets its sensor's temperature in 1/16 degree with the trimmed
offset, and codes 0x000 and 0xFFF fail the sensor; any code ends STALE, and a valid one at TRIP_C forces step 2 and DUTY 56; a sensor
that does not deliver is failed; with none valid in time the trip acts, and STALE shows where none was sampled either. FP0's loop (R552,
R554): each tick the model's die temperature takes one step of its first-order stage with the estimated power, DUTY stays within 0 to 56,
is 0 while DEMAND_T is 0, and THROTTLED is set at the tick where DUTY is above 0 (the model's choice, assumptions/151); a re-fit changes
only the parameters of its stages; an estimate holds DEMAND_T within DEMAND. The estimates and fits themselves are free values
(assumptions/10, assumptions/12). -/
def Obligations.SensorsTripAndLoop : Prop :=
  (∀ (s : State) (i : SensorId), sensorsOn s.eng = true → s.eng.pwr.sensors.length = 64 →
     (∀ code : BitVec 12, ∃ t, Machine.exec (.sensorCode i code) s = .next t ∧
       elemD t.eng.pwr.sensors i.val {} = ⟨code,
         BitVec.ofInt 16 ((code.toNat : Int) - 1024 + toSigned 8 (trimByte s.eng (128 + i.val))), code == 0 || code == 0xFFF, true⟩ ∧
       (∀ k, k ≠ i.val → elemD t.eng.pwr.sensors k {} = elemD s.eng.pwr.sensors k {}) ∧ t.eng.pwr.stale = false ∧
       (sensorValid t.eng i.val = true →
         (16 * (bits (rwVal s.eng .pwrThermCtrl) 0 8 : Int) ≤ sensorTemp t.eng i.val → t.eng.pwr.thermStatus.getLsbD 0 = true) ∧
         (16 * (bits (rwVal s.eng .pwrThermCtrl) 8 8 : Int) ≤ sensorTemp t.eng i.val →
           t.eng.pwr.forced = true ∧ dutyNow t.eng = 56 ∧
           (s.eng.pwr.forced = false → t.eng.pwr.step ≤ 2 ∧ t.eng.pwr.thermStatus.getLsbD 1 = true))) ∧
       (sensorValid t.eng i.val = false → t.eng.pwr.forced = s.eng.pwr.forced ∧ t.eng.pwr.step = s.eng.pwr.step) ∧
       t.mem = s.mem ∧ t.posted = s.posted) ∧
     (∃ t, Machine.exec (.sensorTimeout i) s = .next t ∧
       elemD t.eng.pwr.sensors i.val {} = { elemD s.eng.pwr.sensors i.val {} with failed := true } ∧
       (∀ k, k ≠ i.val → elemD t.eng.pwr.sensors k {} = elemD s.eng.pwr.sensors k {}) ∧ OnlyPower s t) ∧
     (∃ t, Machine.exec .staleTrip s = .next t ∧ t.eng.pwr.stale = (s.eng.pwr.stale || !s.eng.pwr.otherCode) ∧
       t.eng.pwr.forced = true ∧ dutyNow t.eng = 56 ∧
       t.eng.pwr.thermStatus.getLsbD 2 = true ∧ (s.eng.pwr.forced = false → t.eng.pwr.step ≤ 2) ∧ OnlyPower s t)) ∧
  (∀ s : State,
     (loopRuns s.eng = true → ∃ t, Machine.exec .thermalLoopTick s = .next t ∧ t.eng.pwr.duty ≤ 56 ∧
       (s.eng.pwr.demandT = 0 → t.eng.pwr.duty = 0) ∧ t.eng.pwr.thermal.powers = [] ∧
       t.eng.pwr.thermal.params = s.eng.pwr.thermal.params ∧
       (s.eng.pwr.thermal.powers = [] → t.eng.pwr.thermal.die = fAdd s.eng.pwr.thermal.die
         (fDiv (fMul (fSub (fMul (watts s.eng.pwr.power) (thermParam s.eng 1)) s.eng.pwr.thermal.die) loopDt)
           (thermParam s.eng 2))) ∧
       (0 < dutyNow s.eng → t.eng.pwr.thermStatus.getLsbD 3 = true) ∧
       (dutyNow s.eng = 0 → t.eng.pwr.thermStatus = s.eng.pwr.thermStatus) ∧
       t.eng.pwr.target = (if s.eng.pwr.pstate = .active then 0 else s.eng.pwr.target) ∧
       t = withEng s { s.eng with pwr := t.eng.pwr, hub := { s.eng.hub with fwAt := t.eng.hub.fwAt } }) ∧
     (∀ slow : Bool, loopRuns s.eng = true → ∃ t, Machine.exec (.thermalRefit slow) s = .next t ∧
       (∀ k, k ∉ (if slow then [5, 6, 9] else [1, 2, 3, 4]) → thermParam t.eng k = thermParam s.eng k) ∧
       t.eng.pwr.duty = s.eng.pwr.duty ∧ t.eng.pwr.thermal.die = s.eng.pwr.thermal.die ∧ t.mem = s.mem ∧
       t.posted = s.posted) ∧
     (islandRuns s.eng 50 = true → ∃ t, Machine.exec .powerEstimate s = .next t ∧ t.eng.pwr.power < 65536 ∧
       t.eng.pwr.demand < 65536 ∧ t.eng.pwr.demandT ≤ t.eng.pwr.demand ∧
       t.eng.pwr.thermal.powers = s.eng.pwr.thermal.powers ++ [t.eng.pwr.power] ∧ t.eng.pwr.duty = s.eng.pwr.duty ∧
       t.mem = s.mem ∧ t.posted = s.posted))

/-- Substates (R471, R557, R558, R559, R560, R561, R562, R563): TARGET takes the written value; entry waits until its conditions hold, IDLE
stops the processors, NAP moves the core rail to code 30 where R471 allows it at once and HIBERNATE gives it up, both under pad hold, and
reads then show the registers as they stood at entry; the return waits until entry has completed, restores the
rail and clears TARGET, and leaves the pad hold; a SEND ends IDLE; releasing the hold trains the enabled ports. -/
def Obligations.SubstatesEnterAndReturn : Prop :=
  ∀ s : State,
    (∀ (src : WriteSrc) (v : Word), HubUp s.eng → Presents s src .pwrMode v →
      Machine.exec (.substateRequest src) s = .next (afterWrite s src { s.eng with
        pwr := { s.eng.pwr with target := v.toNat % 4 } })) ∧
    (entryReady s.eng = false → Machine.exec .substateEntry s = .next s) ∧
    (entryReady s.eng = true → ∃ t, Machine.exec .substateEntry s = .next t ∧
      t.eng.pwr.pstate = (if s.eng.pwr.target = 1 then .idle else if s.eng.pwr.target = 2 then .nap else .hibernate) ∧
      (∀ q ∈ t.eng.fwp.procs, q.run = .wfi) ∧
      (s.eng.pwr.target = 1 → t.eng.pwr = { s.eng.pwr with pstate := .idle } ∧ t.shadow = s.shadow) ∧
      (s.eng.pwr.target ≠ 1 → t.eng.pwr.padHold = true ∧ t.eng.pwr.entryVid = s.eng.pwr.vid ∧
        t.eng.hub.padIrq = some (irqPins s.eng) ∧ t.eng.pwr.wakeLatched = false ∧ t.eng.sb.frozen.isSome = true ∧
        ∃ e, t.shadow = some e ∧ e.pwr.vid = s.eng.pwr.vid ∧ e.pwr.pstate = t.eng.pwr.pstate ∧ e.rw = s.eng.rw ∧
          e.ctr = s.eng.ctr ∧ e.mbx = s.eng.mbx ∧ e.combs = s.eng.combs) ∧
      (s.eng.pwr.target = 2 → t.eng.pwr.goodCore = s.eng.pwr.goodCore ∧
        t.eng.pwr.vid = (if railReady s.eng then 30 else s.eng.pwr.vid) ∧
        (railReady s.eng = true → s.eng.pwr.vid ≠ 30 → t.eng.pwr.goodSince = false)) ∧
      (s.eng.pwr.target ≠ 1 → s.eng.pwr.target ≠ 2 → t.eng.pwr.coreReq = false ∧ t.eng.pwr.vid = s.eng.pwr.vid) ∧
      t.eng.sch = s.eng.sch ∧ t.eng.mbx = s.eng.mbx ∧ t.eng.rw = s.eng.rw ∧ t.eng.ctr = s.eng.ctr ∧ t.mem = s.mem ∧
      t.posted = s.posted) ∧
    (asleep s.eng = true →
      (s.eng.pwr.wakeLatched = false ∨ entryDone s.eng = false → Machine.exec .wakeReturn s = .next s) ∧
      (s.eng.pwr.wakeLatched = true → entryDone s.eng = true → ∃ t, Machine.exec .wakeReturn s = .next t ∧
        t.eng.pwr.pstate = .active ∧ t.eng.pwr.target = 0 ∧ t.eng.pwr.vid = s.eng.pwr.entryVid ∧ t.eng.pwr.coreReq = true ∧
        t.eng.pwr.goodCore = true ∧ t.eng.pwr.goodSince = true ∧ t.eng.pwr.railDropped = false ∧
        t.eng.pwr.padHold = s.eng.pwr.padHold ∧ t.eng.sb.wakeCause = 1 ∧ t.eng.sb.frozen = none ∧
        (∀ q ∈ t.eng.fwp.procs, q.run = .run) ∧ ((islandOf s.eng 50).stopped = false → t.shadow = none) ∧
        t.eng.sch = s.eng.sch ∧ t.eng.mbx = s.eng.mbx ∧ t.eng.rw = s.eng.rw ∧ t.mem = s.mem ∧ t.posted = s.posted)) ∧
    (s.eng.pwr.pstate = .idle → s.eng.mbx.busy = true → s.eng.mbx.expired = false →
      ∃ t, Machine.exec .idleReturn s = .next t ∧ t.eng.pwr.pstate = .active ∧ t.eng.pwr.target = 0 ∧
        t.eng.sb.wakeCause = 2 ∧ (∀ q ∈ t.eng.fwp.procs, q.run = .run) ∧ t.eng.mbx = s.eng.mbx ∧ t.mem = s.mem) ∧
    (∀ (src : WriteSrc) (v : Word), HubUp s.eng → Presents s src .pwrPadRelease v → v.getLsbD 0 = true →
      s.eng.pwr.pstate = .active → s.eng.pwr.padHold = true → s.eng.lnk.ports.length = 18 →
      ∃ t, Machine.exec (.padRelease src) s = .next t ∧ t.eng.pwr = { s.eng.pwr with padHold := false } ∧
        t.eng.hub.padIrq = none ∧ t.posted = restOf s src ∧ t.mem = s.mem ∧
        (s.eng.log.queries = [] → t.eng.mp = s.eng.mp ∧ t.eng.mbx = s.eng.mbx) ∧
        (∀ p, portOn s.eng p = true → (islandOf s.eng (linkIsland p)).started = true →
          (portOf t.eng p).state = .training ∧ (portOf t.eng p).reason = 0 ∧ (portOf t.eng p).trainReq = true) ∧
        (∀ p, portOn s.eng p = false → portOf t.eng p = portOf s.eng p))

/-! ### Start-up, reset, test, firmware -/

/-- COLD_START (R483, R484, R486, R491, R493, R494, R481, Table 15-2): only from OFF. FUSE_LOAD takes the 68 words with their
substitutes and fences every comb whose FENCE bit is set; a good image leads to AWAIT_FW with the enabled combs' islands
started and no other, and never more than 48 combs enabled (R11); any other result stays in CONFIG_LOAD with the fuse fences. A
TEST_ENTER requested within enters TEST at the end of the stage unless the fuses lock it. RAIL_AON_FALL (R473): nothing of the engine's
own survives, shadows and crossings included; the read data and the order of writes are the control port's, and the count of free values
is the model's (assumptions/78). A comb that no FENCE bit names is fenced where 48 combs below it are enabled (the model's choice,
assumptions/93). -/
def Obligations.ColdStartReachesStage : Prop :=
  ∀ (s : State) (env : ColdEnv),
    (s.eng.boot.state ≠ .off → Machine.exec (.coldStart env) s = .next s) ∧
    (s.eng.boot.state = .off → env.testAt = none → ∃ t, Machine.exec (.coldStart env) s = .next t ∧
      t.eng.boot.image = (checkImage env).result ∧ t.eng.boot.hubLocked = true ∧
      (∀ i, i < 68 → elemD t.eng.boot.fuses i 0 = fuseTaken i (elemD env.fuses i (.good 0))) ∧
      (t.eng.boot.fuseEcc = true ↔ FuseRead.uncorrectable ∈ env.fuses.take 68) ∧
      (enabledCombs t.eng).length ≤ 48 ∧
      ((checkImage env).result ≠ .ok → t.eng.boot.state = .configLoad ∧ t.eng.rw = [] ∧
        (∀ c : CombId, fenceOf t.eng c = if fenceAtLoad t.eng c.val then { cause := 1, frame := 0, pending := false }
          else { cause := 0, frame := 0, pending := false })) ∧
      ((checkImage env).result = .ok → t.eng.boot.state = .awaitFw ∧
        (∀ c : CombId, (islandOf t.eng c.val).started = enabled t.eng c) ∧
        (∀ c : CombId, fenceAtLoad t.eng c.val = false → c.val ∉ t.eng.boot.cfg.fences → enabled t.eng c = true) ∧
        (∀ c : CombId, c.val ∈ t.eng.boot.cfg.fences → enabled t.eng c = false)) ∧
      t.eng.ctr = [] ∧ t.eng.mbx = {} ∧ t.eng.sch = {} ∧ t.mem = s.mem ∧ t.posted = s.posted) ∧
    (∀ late : Bool, s.eng.boot.state = .off → env.testAt = some late → ∃ t, Machine.exec (.coldStart env) s = .next t ∧
      (testLocked t.eng = false → t.eng.boot.state = .test ∧
        t.eng.boot.fromTest = some (if late then .configLoad else .fuseLoad)) ∧
      (testLocked t.eng = true → t.eng.boot.state = (if (checkImage env).result = .ok then .awaitFw else .configLoad)) ∧
      t.mem = s.mem ∧ t.posted = s.posted) ∧
    Machine.exec .railAonFall s = .next { s with
      eng := { hub := { rdata := s.eng.hub.rdata, free := s.eng.hub.free, stamp := s.eng.hub.stamp } }, shadow := none, held := [] }

/-- WARM_RESET (R471, R502, R503, R504, R442, Table 15-9): another key, or a state in which the key does not act, changes nothing but the
queue; with no graph running the engine clears what a warm reset clears, keeps fuses, fences, coefficients, the kept registers,
CFG_STATUS.FW, AUTH_FAILS and the log's SEQ, moves rail_core_vid to code 40 where rail_core_good allows it, and waits for firmware again.
TEST_ENTER and TEST_EXIT (R477, R478, R481): TEST is entered where the port is not locked, and left by a warm reset. -/
def Obligations.WarmResetKeepsWhatItKeeps : Prop :=
  ∀ (s : State), s.eng.sch.run = none → s.eng.boot.fromTest = none → Settled s →
    (∀ (src : WriteSrc) (v : Word), HubUp s.eng → Presents s src .cfgReset v →
      (v.toNat % 2 ^ 16 ≠ 0x5752 ∨ s.eng.boot.state ∉ [EngState.awaitFw, .fwCheck, .run, .refused, .orphaned] →
        Machine.exec (.warmReset src) s = .next (afterWrite s src s.eng)) ∧
      (v.toNat % 2 ^ 16 = 0x5752 → s.eng.boot.state ∈ [EngState.awaitFw, .fwCheck, .run, .refused, .orphaned] →
        s.eng.boot.image = .ok → ∃ t, Machine.exec (.warmReset src) s = .next t ∧ t.eng.boot.state = .awaitFw ∧
          (∀ r, rwVal t.eng r = if rwKept r then rwVal s.eng r else rwReset r % 2 ^ 32) ∧
          (∀ k, ctrVal t.eng k = if k = .authFails then ctrVal s.eng .authFails else 0) ∧ t.eng.fences = s.eng.fences ∧
          t.eng.boot.fuses = s.eng.boot.fuses ∧ t.eng.boot.cfg = s.eng.boot.cfg ∧ t.eng.boot.fw = s.eng.boot.fw ∧
          t.eng.cap.coef = s.eng.cap.coef ∧ t.eng.log.seq = s.eng.log.seq ∧ t.eng.log.shadow = [] ∧ t.eng.mbx = {} ∧
          t.eng.sch = {} ∧ t.eng.combs = List.replicate 50 {} ∧ t.eng.hub.errStatus = 0 ∧ t.eng.sb.ptr = s.eng.sb.ptr ∧
          t.eng.pwr.vid = (if railReady s.eng then 40 else s.eng.pwr.vid) ∧ t.eng.pwr.goodCore = s.eng.pwr.goodCore ∧
          (railReady s.eng = true → s.eng.pwr.vid ≠ 40 → t.eng.pwr.goodSince = false) ∧
          (∀ r ∈ t.eng.mp.reads, r.dst = .gone) ∧ t.eng.tap = s.eng.tap ∧ t.mem = s.mem ∧ t.posted = restOf s src)) ∧
    (tapOn s.eng = true → testLocked s.eng = false → s.eng.boot.state ≠ .test → ∃ t, Machine.exec .testEnter s = .next t ∧
      t.eng.boot.state = .test ∧ t.eng.tap = loadTap s.eng.tap 0x10 drBypass ∧
      t.eng.boot.fuses = s.eng.boot.fuses ∧ t.eng.sch = s.eng.sch ∧ t.eng.rw = s.eng.rw ∧ t.mem = s.mem ∧
      t.posted = s.posted) ∧
    (tapOn s.eng = true → testLocked s.eng = true →
      Machine.exec .testEnter s = .next (withEng s { s.eng with tap := loadTap s.eng.tap 0x10 drBypass }) ∧
      Machine.exec .testExit s = .next (withEng s { s.eng with tap := loadTap s.eng.tap 0x11 drBypass })) ∧
    (tapOn s.eng = true → testLocked s.eng = false → s.eng.boot.state = .test → s.eng.boot.image = .ok →
      ∃ t, Machine.exec .testExit s = .next t ∧ t.eng.boot.state = .awaitFw ∧ t.eng.boot.fuses = s.eng.boot.fuses ∧
        t.eng.fences = s.eng.fences ∧ t.eng.tap = loadTap s.eng.tap 0x11 drBypass ∧ t.mem = s.mem ∧
        t.posted = s.posted)

/-- The test port (R476, R477): from any state of the controller an instruction's bits arrive in its register; Test-Logic-Reset and IDCODE
select the identification register, whose 32 bits IDCODE shifts out lowest first; SCAN and MBIST act only in TEST and with the port not
locked and are BYPASS otherwise, and so is every code that does not act: one 0 bit shifts out. The sideband target (R459, R460, R461,
R462): only its own address is acknowledged, and wakes the engine in NAP and HIBERNATE; the first byte written sets the
pointer, a later one the retained byte where it points there; a byte read is the item at the pointer, which advances. -/
def Obligations.TestPortAndSideband : Prop :=
  ∀ (s : State),
    (tapOn s.eng = true →
      Machine.exec .tapReset s = .next (withEng s { s.eng with tap := { s.eng.tap with state := .reset, ir := 1, dr := drId } }) ∧
      (∃ t, Machine.exec .idcode s = .next t ∧ t = withEng s { s.eng with tap := t.eng.tap } ∧ t.eng.tap.state = .idle ∧
        t.eng.tap.ir = 0x01 ∧ t.eng.tap.dr = drId ∧ t.eng.tap.tdo = (List.range 32).map fun i => (0x15702B67 : Word).getLsbD i) ∧
      (∃ t, Machine.exec .scan s = .next t ∧ t = withEng s { s.eng with tap := t.eng.tap } ∧ t.eng.tap.state = .idle ∧
        t.eng.tap.ir = 0x20 ∧
        t.eng.tap.dr = (if s.eng.boot.state = .test ∧ testLocked s.eng = false then drScan else drBypass)) ∧
      (∃ t, Machine.exec .mbist s = .next t ∧ t.eng.tap.ir = 0x21 ∧ t.eng.tap.state = .idle ∧
        (s.eng.boot.state = .test → testLocked s.eng = false → t.eng.tap.dr = drMbist ∧
          t.eng.tap.mbistRuns = s.eng.tap.mbistRuns + 1) ∧
        (s.eng.boot.state ≠ .test ∨ testLocked s.eng = true →
          t.eng.tap.dr = drBypass ∧ t.eng.tap.mbistRuns = s.eng.tap.mbistRuns) ∧
        t.eng = { s.eng with hub := t.eng.hub, tap := t.eng.tap } ∧ t.mem = s.mem ∧ t.posted = s.posted) ∧
      (∀ code : Byte, tapActs s.eng code = false → ∃ t, Machine.exec (.bypass code) s = .next t ∧
        t = withEng s { s.eng with tap := t.eng.tap } ∧ t.eng.tap.state = .idle ∧ t.eng.tap.ir = code ∧
        t.eng.tap.dr = drBypass ∧ t.eng.tap.tdo = [false] ∧ t.eng.tap.mbistRuns = s.eng.tap.mbistRuns)) ∧
    (s.eng.boot.state ≠ .off → ∀ (a : BitVec 7) (d : SbDir),
      (a ≠ s.eng.boot.cfg.sbAddr → Machine.exec (.sbAddressMatch a d) s = .next (withEng s { s.eng with
        sb := { s.eng.sb with ack := false, dir := none } })) ∧
      (a = s.eng.boot.cfg.sbAddr → awake s.eng = true → Machine.exec (.sbAddressMatch a d) s = .next (withEng s { s.eng with
        sb := { s.eng.sb with ack := true, dir := some d, first := true } })) ∧
      (a = s.eng.boot.cfg.sbAddr → awake s.eng = false → ∃ t, Machine.exec (.sbAddressMatch a d) s = .next t ∧
        t.eng.pwr = { s.eng.pwr with wakeLatched := true } ∧ t.eng.sb.ack = true ∧ t.eng.sb.dir = some d ∧
        ctrVal t.eng .sbWakes = min 255 (ctrVal s.eng .sbWakes + 1) ∧ t.mem = s.mem)) ∧
    (∀ b : Byte, s.eng.sb.dir = some .write →
      (s.eng.sb.first = true → Machine.exec (.sbWriteByte b) s = .next (withEng s { s.eng with
        sb := { s.eng.sb with ptr := b, first := false, ack := true } })) ∧
      (s.eng.sb.first = false → Machine.exec (.sbWriteByte b) s = .next (withEng s { s.eng with sb := { s.eng.sb with
        ptr := s.eng.sb.ptr + 1, ack := true, scratch := if s.eng.sb.ptr = 0x30 then b else s.eng.sb.scratch } }))) ∧
    (s.eng.sb.dir = some .read → ∃ t, Machine.exec .sbReadByte s = .next t ∧ t.eng.sb.ptr = s.eng.sb.ptr + 1 ∧
      (s.eng.sb.ptr = 0x00 → t.eng.sb.out = 0x57) ∧ (s.eng.sb.ptr = 0x01 → t.eng.sb.out = 0x01) ∧
      (s.eng.sb.ptr = 0x08 → t.eng.sb.out = s.eng.sb.wakeCause) ∧ (s.eng.sb.ptr = 0x30 → t.eng.sb.out = s.eng.sb.scratch) ∧
      (∀ l k, s.eng.sb.frozen = some l → k < 6 → s.eng.sb.ptr = BitVec.ofNat 8 (2 + k) → t.eng.sb.out = elemD l k 0) ∧
      t.eng = { s.eng with hub := t.eng.hub, sb := t.eng.sb } ∧ t.mem = s.mem ∧ t.posted = s.posted)

/-- Firmware load (R496, R497, R498, R505): in AWAIT_FW a window write puts four bytes at OFFSET and advances it; FW_START enters
FW_CHECK, and with SRC takes the image from memory; an image that fails a check returns to AWAIT_FW with its result and an erased
staging area, each AUTH_FAIL counted; a good one releases FP0 to FP3 at their entries with zeroed and loaded memories; FP3's first
READY posts FW_READY. -/
def Obligations.FirmwareLoadsAndStarts : Prop :=
  ∀ (s : State),
    (∀ (src : WriteSrc) (v : Word) (o : Nat), HubUp s.eng → Presents s src .cfgFwWinData v → o = rwVal s.eng .cfgFwWinAddr →
      o % 4 = 0 → o < 2 ^ 22 → cellsWf s.eng.boot.staging = true →
      (s.eng.boot.state = .awaitFw → ∃ t, Machine.exec (.fwWindowWrite src) s = .next t ∧
        cellsRead t.eng.boot.staging o 4 = leBytes 4 v.toNat ∧
        (∀ a, a < o ∨ o + 4 ≤ a → cellsGet t.eng.boot.staging a = cellsGet s.eng.boot.staging a) ∧
        rwVal t.eng .cfgFwWinAddr = (o + 4) % 2 ^ 22 ∧ t.posted = restOf s src ∧ t.mem = s.mem) ∧
      (s.eng.boot.state ≠ .awaitFw → Machine.exec (.fwWindowWrite src) s = .next (afterWrite s src s.eng))) ∧
    (∀ (src : WriteSrc) (v : Word) (rd : List MemLine) (flt : Bool), HubUp s.eng → Presents s src .cfgFwCtrl v →
      v.getLsbD 0 = true → s.eng.boot.state = .awaitFw → ∃ t, Machine.exec (.fwStart src rd flt) s = .next t ∧
        t.eng.boot.state = .fwCheck ∧ t.eng.boot.fw = .checking ∧
        (v.getLsbD 1 = false → t.eng.boot.staging = s.eng.boot.staging ∧ t.eng.boot.fwDmaFault = false) ∧
        (v.getLsbD 1 = true → cellsWf s.eng.boot.staging = true →
          cellsRead t.eng.boot.staging 0 (fwDmaLen (absorb s.mem rd) s.eng) =
            viewBytes (absorb s.mem rd) s.eng (fwDmaAddr s.eng) (fwDmaLen (absorb s.mem rd) s.eng) ∧
          (flt = true → t.eng.boot.fwDmaFault = true)) ∧
        t.eng.fwp = s.eng.fwp ∧ t.mem = absorb s.mem rd ∧ t.posted = restOf s src) ∧
    (∀ img, s.eng.boot.state = .fwCheck → s.eng.boot.fw = .checking → img = stagedImage s.eng →
      (fwVerdict s.eng img ≠ .authOk → ∃ t, Machine.exec .fwCheckDone s = .next t ∧
        t.eng.boot = { s.eng.boot with state := .awaitFw, fw := fwVerdict s.eng img, staging := [] } ∧
        ctrVal t.eng .authFails =
          (if fwVerdict s.eng img = .authFail then min 255 (ctrVal s.eng .authFails + 1) else ctrVal s.eng .authFails) ∧
        t.eng.fwp = s.eng.fwp ∧ t.mem = s.mem ∧ t.posted = s.posted) ∧
      (fwVerdict s.eng img = .authOk → ∃ t, Machine.exec .fwCheckDone s = .next t ∧ t.eng.boot.state = .fwCheck ∧
        t.eng.boot.fw = .authOk ∧ t.eng.boot.staging = [] ∧
        t.eng.boot.fwInfo = w32 (at' (field img 7 1) 24 + at' (field img 6 1) 16 + field img 4 2) ∧
        (∀ p, p < 4 → (procOf t.eng p).run = .run ∧ (procOf t.eng p).ready = false ∧
          (procOf t.eng p).entry = field img (16 + 4 * p) 4 ∧
          (procOf t.eng p).mem = loadSegs img [] (segsOf img p)) ∧ t.mem = s.mem ∧ t.posted = s.posted)) ∧
    (mayReady s.eng 3 = true → awake s.eng = true → (procOf s.eng 3).fresh = true → s.eng.boot.state = .fwCheck →
      s.eng.mbx.ring.length < 256 → ∃ t, Machine.exec (.fpReady 3) s = .next t ∧ (procOf t.eng 3).ready = true ∧
        (procOf t.eng 3).run = .run ∧ (∀ p, p ≠ 3 → procOf t.eng p = procOf s.eng p) ∧
        (t.eng.mbx.ring.drop s.eng.mbx.ring.length).map (fun x => (x.opcode, x.seq, x.words)) =
          [(0xC0, s.eng.mbx.unsolicited, [s.eng.boot.fwInfo])] ∧
        t.eng.mbx.ring.take s.eng.mbx.ring.length = s.eng.mbx.ring ∧ t.eng.boot = s.eng.boot ∧ t.mem = s.mem)

/-- A processor's restart (R506, R528, R529) by its watchdog, by itself or by a store into its loaded image, from RUN or before it is READY
again: it is RESTARTING and not
READY, its cause and pc are kept, RESTARTS counts and trace point 0x0001 is generated; FP0's restart shows envelope QUIET and
lowers the combs to step 2 at most. A store elsewhere restarts nothing. OBSERVER_POLL (R192, R448): FP3 takes the observer counts
of every enabled comb. -/
def Obligations.RestartsAndObserves : Prop :=
  ∀ (s : State),
    (∀ (p : ProcId) (c : Instr) (cause : Nat) (pc : Word), (procOf s.eng p.val).run = .run ∨ (procOf s.eng p.val).run = .restarting →
      s.eng.pwr.pstate = .active →
      s.eng.fwp.procs.length = 4 → s.eng.fwp.totals.length = 4 →
      (c = .watchdogExpiry p pc ∧ cause = 1) ∨ (c = .selfRestart p pc ∧ cause = 3) ∨
        (∃ sh o, c = .protectStore p sh o pc ∧ isRo s.eng p sh o = true ∧ cause = 2) →
      ∃ t, Machine.exec c s = .next t ∧ (procOf t.eng p.val).run = .restarting ∧ (procOf t.eng p.val).ready = false ∧
        (∀ q, q ≠ p.val → procOf t.eng q = procOf s.eng q) ∧ t.eng.fwp.lastFp = p.val ∧ t.eng.fwp.lastCause = cause ∧
        t.eng.fwp.lastPc = pc ∧ ctrVal t.eng (.restarts p) = min 255 (ctrVal s.eng (.restarts p) + 1) ∧
        elemD t.eng.fwp.totals p.val 0 = elemD s.eng.fwp.totals p.val 0 + 1 ∧
        t.eng.log.inflight.map LogRec.traceId = s.eng.log.inflight.map LogRec.traceId ++ [0x0001] ∧
        (p = 0 → t.eng.fwp.clampQuiet = true ∧ t.eng.pwr.envelope = 2 ∧ t.eng.pwr.step = min 2 s.eng.pwr.step) ∧
        (p ≠ 0 → t.eng.pwr = s.eng.pwr) ∧ t.eng.mbx = s.eng.mbx ∧ t.eng.sch = s.eng.sch ∧ t.mem = s.mem ∧
        t.posted = s.posted) ∧
    (∀ (p : ProcId) (sh : Bool) (o : Nat) (pc : Word), isRo s.eng p sh o = false →
      Machine.exec (.protectStore p sh o pc) s = .next s) ∧
    (procUp s.eng 3 = true → running s.eng = true → s.eng.combs.length = 50 → ∃ t, Machine.exec .observerPoll s = .next t ∧
      (∀ c : CombId, enabled s.eng c = true → (combOf t.eng c).nonzeroShadow = (combOf s.eng c).nonzero ∧
        (combOf t.eng c).nonzero = 0 ∧ ∀ k ∈ observerCtrs, ctrVal t.eng (.comb c k) = 0) ∧
      (∀ c : CombId, enabled s.eng c = false → combOf t.eng c = combOf s.eng c) ∧
      (∀ k, (∀ c o, o ∈ observerCtrs → k ≠ .comb c o) → ctrVal t.eng k = ctrVal s.eng k) ∧ t.eng.mbx = s.eng.mbx ∧
      t.mem = s.mem ∧ t.posted = s.posted)

/-- The log (R520, R522, R523, R524, R525, R527): a record that arrives takes the next SEQ and enters the shadow, or is lost when the
shadow is full, which LOG_LOST counts; a trace point of a group that is not enabled generates none, one of an enabled group enters
like any other, behind the records of its island that are on their way; FP3 writes the oldest record to the memory ring's next slot while the ring has room, and as the write completes
the record leaves the shadow and LOG_HEAD moves on; ENABLE from 0 to 1 takes base and size and begins at slot 0. -/
def Obligations.LogRecordsMove : Prop :=
  (∀ (s : State) (x : LogRec) (xs : List LogRec), HubUp s.eng → s.eng.log.inflight = x :: xs →
    (s.eng.log.shadow.length < 16384 → Machine.exec (.logRecordArrive none) s = .next (withEng s { s.eng with
      log := { s.eng.log with
        inflight := xs, seq := s.eng.log.seq + 1, shadow := s.eng.log.shadow ++ [{ x with seq := s.eng.log.seq }] } })) ∧
    (16384 ≤ s.eng.log.shadow.length → ∃ t, Machine.exec (.logRecordArrive none) s = .next t ∧
      t.eng.log = { s.eng.log with inflight := xs, seq := s.eng.log.seq + 1 } ∧
      ctrVal t.eng .logLost = min (2 ^ 32 - 1) (ctrVal s.eng .logLost + 1) ∧ t.mem = s.mem ∧ t.posted = s.posted)) ∧
  (∀ (s : State) (r : TraceRec), HubUp s.eng → 0x100 ≤ r.traceId.toNat → r.traceId.toNat < 0x8000 →
    (traceEnabled s.eng r.traceId.toNat = false → Machine.exec (.logRecordArrive (some r)) s = .next s) ∧
    (traceEnabled s.eng r.traceId.toNat = true → s.eng.log.shadow.length < 16384 →
      (∀ x ∈ s.eng.log.inflight, x.island ≠ BitVec.ofNat 8 r.island.val) →
      Machine.exec (.logRecordArrive (some r)) s = .next (withEng s { s.eng with log := { s.eng.log with
        seq := s.eng.log.seq + 1
        shadow := s.eng.log.shadow ++ [{ traceRecord s.eng r with seq := s.eng.log.seq }] } })) ∧
    (∀ mine : List LogRec, mine = s.eng.log.inflight.filter (fun x => x.island == BitVec.ofNat 8 r.island.val) →
      traceEnabled s.eng r.traceId.toNat = true → s.eng.log.shadow.length + mine.length < 16384 →
      Machine.exec (.logRecordArrive (some r)) s = .next (withEng s { s.eng with log := { s.eng.log with
        inflight := s.eng.log.inflight.filter fun x => x.island != BitVec.ofNat 8 r.island.val
        seq := s.eng.log.seq + BitVec.ofNat 64 (mine.length + 1)
        shadow := s.eng.log.shadow ++ (mine ++ [traceRecord s.eng r]).zipIdx.map fun x =>
          { x.1 with seq := s.eng.log.seq + BitVec.ofNat 64 x.2 } } }))) ∧
  (∀ (s : State) (r : LogRec) (rs : List LogRec) (n : Nat), s.eng.log.shadow = r :: rs → ringSize s.eng = some n →
    (logFree s.eng = true → s.eng.log.base + 64 * s.eng.log.head + 64 ≤ 2 ^ 52 →
      ∃ t, Machine.exec .logMove s = .next t ∧ t.eng.log = { s.eng.log with moving := true } ∧
        viewBytes t.mem t.eng (s.eng.log.base + 64 * s.eng.log.head) 64 = recordBytes r ∧
        (∀ a, a < 2 ^ 52 → a < s.eng.log.base + 64 * s.eng.log.head ∨ s.eng.log.base + 64 * s.eng.log.head + 64 ≤ a →
          viewByte t.mem t.eng a = viewByte s.mem s.eng a) ∧ t.mem = s.mem ∧ t.posted = s.posted) ∧
    (∀ (ch : ChanId) (id : BitVec 10) (w : WriteReq), s.eng.log.moving = true → s.eng.log.queries = [] → w.who = .log →
      writeFor s.eng ch id = some w → w.doomed = false → (islandOf s.eng 50).stopped = false → s.eng.hf.opened = none →
      ∃ t, Machine.exec (.memoryWriteResponse ch id .ok) s = .next t ∧
        t.eng.log = { s.eng.log with moving := false, shadow := rs, head := (s.eng.log.head + 1) % n } ∧
        t.mem = commitWrite s.mem w ∧ t.posted = s.posted)) ∧
  (∀ s : State, logFree s.eng = false → Machine.exec .logMove s = .next s) ∧
  (∀ (s : State) (src : WriteSrc) (v : Word), HubUp s.eng → Presents s src .logCtrl v →
    ∃ t, Machine.exec (.logEnable src) s = .next t ∧ rwVal t.eng .logCtrl = Nat.land v.toNat (rwMask .logCtrl) ∧
      (bit (rwVal s.eng .logCtrl) 0 = false → v.getLsbD 0 = true → rwVal t.eng .logTail = 0 ∧
        (∀ w ∈ t.eng.mp.writes, w.who ≠ .log) ∧
        t.eng.log = { s.eng.log with
          moving := false, head := 0, base := rwVal s.eng .logBaseLo + rwVal s.eng .logBaseHi * 2 ^ 32
          log2 := rwVal s.eng .logSize }) ∧
      (bit (rwVal s.eng .logCtrl) 0 = true ∨ v.getLsbD 0 = false → t.eng.log = s.eng.log) ∧
      (∀ a, viewByte t.mem t.eng a = viewByte s.mem s.eng a) ∧ t.posted = restOf s src ∧ t.mem = s.mem)

/-- Commands that complete whatever the rest of the state holds (R472, R543, R544, R545, R549, R550, R520, R525, R527, R575), each
under its own conditions alone: the window on the coefficient table in every form of access, the read of an
underflow observer, the core rail's drop and return, the four events of a supply dip, and a log record's arrival, its move to
memory and a write of LOG_CTRL. -/
def Obligations.WindowDipAndLogComplete : Prop :=
  (∀ (s : State), s.eng.boot.hubLocked = true →
    Machine.exec (.coefDataAccess .portRead) s =
      .next (withEng s (coefAdvance { s.eng with hub := { s.eng.hub with rdata := w32 (coefRead s.posted (readSrc s)) } })) ∧
    Machine.exec (.coefDataAccess .fwRead) s = .next (withEng s (coefAdvance s.eng)) ∧
    (∀ v : Word, portWrites s.posted < 32 → Machine.exec (.coefDataAccess (.portWrite v)) s = .next { s with
      posted := s.posted ++ [{ addr := 0x1808, data := v, coef := coefSelected s.eng }], eng := coefAdvance s.eng }) ∧
    (∀ (v : Word) (i : Nat), coefSelected s.eng = some i →
      Machine.exec (.coefDataAccess (.fwWrite v)) s = .next { s with
        posted := s.posted.map (fun p => if p.coef = some i then { p with coef := none } else p)
        eng := coefAdvance (coefStore s.eng i v) }) ∧
    (∀ v : Word, coefSelected s.eng = none → Machine.exec (.coefDataAccess (.fwWrite v)) s = .next s)) ∧
  (∀ (s : State) (c : CombId) (late : Nat), s.eng.boot.hubLocked = true → ∃ t,
    Machine.exec (.obsUflowRead c late) s = .next t ∧ t.posted = s.posted ∧ t.mem = s.mem ∧
      t.eng.hub.rdata = w32 (readReg s.posted (readSrc s) (.cmbObsUflow c) (if s.shadow = none then [late] else [])) ∧
      t.eng = { s.eng with hub := t.eng.hub, ctr := t.eng.ctr, combs := t.eng.combs }) ∧
  (∀ s : State, s.eng.pwr.coreReq = true → s.eng.pwr.goodCore = true → ∃ t, Machine.exec .railCoreDrop s = .next t ∧
    t.eng.pwr.goodCore = false ∧ t.eng.pwr.railDropped = (s.eng.pwr.railDropped || s.eng.pwr.vidOld.isNone) ∧
    t.eng.pwr.vid = s.eng.pwr.vid ∧ t.eng.pwr.step = s.eng.pwr.step ∧ t.eng.mbx = s.eng.mbx ∧ t.eng.sch = s.eng.sch ∧
    t.mem = s.mem ∧ t.posted = s.posted) ∧
  (∀ s : State, ∃ t, Machine.exec .railCoreRecover s = .next t ∧ t.eng.pwr.goodCore = true ∧
      (s.eng.pwr.goodCore = false → t.eng.pwr.railDropped = false) ∧
      (s.eng.pwr.goodCore = true → s.eng.pwr.goodSince = false → s.eng.pwr.envTarget = none → s.eng.pwr.pstate ≠ .nap →
        t.eng.pwr.goodSince = true ∧ t.eng.pwr.vid = s.eng.pwr.vid ∧ t.eng.pwr.step = s.eng.pwr.step ∧ t.eng.mbx = s.eng.mbx) ∧
      t.eng.sch = s.eng.sch ∧ t.mem = s.mem ∧ t.posted = s.posted) ∧
  (∀ (s : State) (i : IslandId) (supply : BitVec 12), s.eng.pwr.islands.length = 57 → islandRuns s.eng i.val = true →
    s.held = [] →
    (supply.toNat < warnLevel s.eng i.val → ∃ t, Machine.exec (.droopWarning ⟨i, supply⟩) s = .next t ∧
      (islandOf t.eng i.val).stretched = true ∧ t.mem = s.mem ∧ t.posted = s.posted) ∧
    (supply.toNat < stopLevel s.eng i.val → ∃ t, Machine.exec (.droopStop ⟨i, supply⟩) s = .next t ∧
      (islandOf t.eng i.val).stopped = true ∧ t.mem = s.mem ∧ t.posted = s.posted) ∧
    (∀ ns : Word, warnLevel s.eng i.val ≤ supply.toNat → (islandOf s.eng i.val).stretched = true →
      ∃ t, Machine.exec (.droopClear ⟨i, supply⟩ ns) s = .next t ∧ (islandOf t.eng i.val).stretched = false ∧
        (islandOf t.eng i.val).stopped = false ∧ t.mem = s.mem ∧ t.posted = s.posted)) ∧
  (∀ (s : State) (c : CombId), (islandOf s.eng c.val).hold = true → (islandOf s.eng c.val).stretched = false →
    s.eng.pwr.railDropped = false → ∃ t, Machine.exec (.droopHoldExpiry c) s = .next t ∧
      (islandOf t.eng c.val).hold = false ∧ t.mem = s.mem ∧ t.posted = s.posted) ∧
  (∀ (s : State) (x : LogRec) (xs : List LogRec), HubUp s.eng → s.eng.log.inflight = x :: xs →
    ∃ t, Machine.exec (.logRecordArrive none) s = .next t ∧ t.eng.log.inflight = xs ∧
      t.eng.log.seq = s.eng.log.seq + 1 ∧ t.mem = s.mem ∧ t.posted = s.posted) ∧
  (∀ s : State, logFree s.eng = true → ∃ t, Machine.exec .logMove s = .next t ∧ t.eng.log = { s.eng.log with moving := true } ∧
    t.eng.ctr = s.eng.ctr ∧ t.mem = s.mem ∧ t.posted = s.posted) ∧
  (∀ (s : State) (src : WriteSrc) (v : Word), HubUp s.eng → Presents s src .logCtrl v →
    ∃ t, Machine.exec (.logEnable src) s = .next t ∧ rwVal t.eng .logCtrl = Nat.land v.toNat (rwMask .logCtrl) ∧
      t.eng.log.shadow = s.eng.log.shadow ∧ t.posted = restOf s src ∧ t.mem = s.mem)
end

