-- ==== Sys2Proof/Laws/Lists.lean ====
section
/-! SUPPORT. Laws/Lists.lean: the keyed tables and list updates of Bits.lean. -/

namespace Sys2Proof.Machine

/-! ### updAt -/

@[simp] theorem updAt_length {α : Type} (l : List α) (i : Nat) (f : α → α) : (updAt l i f).length = l.length := by
  induction l generalizing i with
  | nil => rfl
  | cons a l ih => cases i <;> simp [updAt, ih]

/-- Element j after a change of element i. -/
theorem updAt_getElem? {α : Type} (l : List α) (i j : Nat) (f : α → α) :
    (updAt l i f)[j]? = if i = j then (l[j]?).map f else l[j]? := by
  induction l generalizing i j with
  | nil => simp [updAt]
  | cons a l ih =>
    cases i with
    | zero => cases j <;> simp [updAt]
    | succ i => cases j <;> simp [updAt, ih]

theorem updAt_getElem?_self {α : Type} (l : List α) (i : Nat) (f : α → α) : (updAt l i f)[i]? = (l[i]?).map f := by
  simp [updAt_getElem?]

theorem updAt_getElem?_ne {α : Type} (l : List α) {i j : Nat} (f : α → α) (h : i ≠ j) : (updAt l i f)[j]? = l[j]? := by
  simp [updAt_getElem?, h]

/-! ### Keyed tables -/

@[simp] theorem lookupD_assign_self {κ α : Type} [DecidableEq κ] (m : AMap κ α) (k : κ) (v d : α) :
    lookupD (assign m k v) k d = v := by
  induction m with
  | nil => simp [assign, lookupD]
  | cons p m ih =>
    obtain ⟨k', v'⟩ := p
    by_cases h : k' = k <;> simp [assign, lookupD, h, ih]

theorem lookupD_assign_ne {κ α : Type} [DecidableEq κ] (m : AMap κ α) {k q : κ} (v d : α) (h : q ≠ k) :
    lookupD (assign m k v) q d = lookupD m q d := by
  induction m with
  | nil => simp [assign, lookupD, Ne.symm h]
  | cons p m ih =>
    obtain ⟨k', v'⟩ := p
    by_cases h1 : k' = k
    · subst h1; simp [assign, lookupD, Ne.symm h]
    · by_cases h2 : k' = q
      · subst h2; simp [assign, lookupD, h]
      · simp [assign, lookupD, h1, h2, ih]

/-! ### updFirst and dropFirst -/

@[simp] theorem updFirst_length {α : Type} (p : α → Bool) (f : α → α) (l : List α) : (updFirst p f l).length = l.length := by
  induction l with
  | nil => rfl
  | cons a l ih => by_cases h : p a <;> simp [updFirst, h, ih]

/-- The first element that satisfies a predicate, found again after its change keeps the predicate. -/
theorem updFirst_find? {α : Type} (p : α → Bool) (f : α → α) (l : List α) (hf : ∀ a, p a = true → p (f a) = true) :
    (updFirst p f l).find? p = (l.find? p).map f := by
  induction l with
  | nil => rfl
  | cons a l ih => by_cases h : p a <;> simp [updFirst, List.find?, h, hf, ih]

/-- Another predicate, of which no changed element is, finds what it found. -/
theorem updFirst_find?_of_not {α : Type} (p q : α → Bool) (f : α → α) (l : List α)
    (h : ∀ a, p a = true → q a = false ∧ q (f a) = false) : (updFirst p f l).find? q = l.find? q := by
  induction l with
  | nil => rfl
  | cons a l ih =>
    by_cases hp : p a
    · simp [updFirst, hp, List.find?, h a hp]
    · by_cases hq : q a <;> simp [updFirst, hp, List.find?, hq, ih]

/-- Where no element satisfies the predicate, nothing changes. -/
theorem updFirst_none {α : Type} (p : α → Bool) (f : α → α) (l : List α) (h : ∀ a ∈ l, p a = false) : updFirst p f l = l := by
  induction l with
  | nil => rfl
  | cons a l ih => simp_all [updFirst]

/-- The first element gone, the list is one shorter. -/
theorem dropFirst_length {α : Type} (p : α → Bool) (l : List α) (h : ∃ a ∈ l, p a = true) :
    (dropFirst p l).length + 1 = l.length := by
  induction l with
  | nil => simp at h
  | cons a l ih =>
    by_cases hp : p a
    · simp [dropFirst, hp]
    · simp only [dropFirst, hp]
      obtain ⟨x, hx, hpx⟩ := h
      rcases List.mem_cons.1 hx with rfl | hx
      · exact absurd hpx hp
      · simpa using ih ⟨x, hx, hpx⟩

theorem dropFirst_subset {α : Type} (p : α → Bool) (l : List α) : ∀ a ∈ dropFirst p l, a ∈ l := by
  induction l with
  | nil => simp [dropFirst]
  | cons b l ih =>
    intro a ha
    by_cases hp : p b
    · simp only [dropFirst, hp] at ha; exact List.mem_cons_of_mem _ (by simpa using ha)
    · simp only [dropFirst, hp] at ha
      rcases List.mem_cons.1 (by simpa using ha) with rfl | h
      · exact List.mem_cons_self ..
      · exact List.mem_cons_of_mem _ (ih a h)

/-! ### Little-endian bytes -/

@[simp] theorem leBytes_length (n v : Nat) : (leBytes n v).length = n := by
  induction n generalizing v with
  | zero => rfl
  | succ n ih => simp [leBytes, ih]

/-- The number of n little-endian bytes of v is v modulo 256^n. -/
theorem leNat_leBytes (n v : Nat) : leNat (leBytes n v) = v % 256 ^ n := by
  induction n generalizing v with
  | zero => simp [leBytes, leNat, Nat.mod_one]
  | succ n ih =>
    have h : (BitVec.ofNat 8 v).toNat = v % 256 := by simp
    rw [leBytes, leNat, ih, h, Nat.pow_succ', Nat.mod_mul]

/-! ### Rising lists -/

theorem rising_cons {a : Nat} {l : List Nat} : rising (a :: l) = true ↔ (∀ b ∈ l.head?, a < b) ∧ rising l = true := by
  cases l <;> simp [rising]

theorem rising_iff {l : List Nat} : rising l = true ↔ l.Pairwise (· < ·) := by
  induction l with
  | nil => simp [rising]
  | cons a l ih =>
    rw [rising_cons, ih, List.pairwise_cons]
    constructor
    · rintro ⟨h, hp⟩
      refine ⟨fun b hb => ?_, hp⟩
      cases l with
      | nil => simp at hb
      | cons c l =>
        have hc : a < c := h c (by simp)
        rcases List.mem_cons.1 hb with rfl | hb
        · exact hc
        · exact lt_trans hc ((List.pairwise_cons.1 hp).1 b hb)
    · rintro ⟨h, hp⟩
      exact ⟨fun b hb => h b (List.mem_of_mem_head? hb), hp⟩

theorem mem_insertNat {n m : Nat} {l : List Nat} : m ∈ insertNat n l ↔ m = n ∨ m ∈ l := by
  induction l with
  | nil => simp [insertNat]
  | cons a l ih =>
    simp only [insertNat]
    split
    · simp
    · split
      · rename_i h; subst h; simp
      · simp [ih]; tauto

theorem insertNat_rising (n : Nat) (l : List Nat) (h : rising l = true) : rising (insertNat n l) = true := by
  rw [rising_iff] at *
  induction l with
  | nil => simp [insertNat]
  | cons a l ih =>
    obtain ⟨ha, hl⟩ := List.pairwise_cons.1 h
    simp only [insertNat]
    split
    · rename_i hn
      refine List.pairwise_cons.2 ⟨fun b hb => ?_, h⟩
      rcases List.mem_cons.1 hb with rfl | hb
      · exact hn
      · exact lt_trans hn (ha b hb)
    · split
      · exact h
      · refine List.pairwise_cons.2 ⟨fun b hb => ?_, ih hl⟩
        rcases mem_insertNat.1 hb with rfl | hb
        · omega
        · exact ha b hb

theorem filter_rising (p : Nat → Bool) (l : List Nat) (h : rising l = true) : rising (l.filter p) = true := by
  rw [rising_iff] at *
  exact h.filter p

end Sys2Proof.Machine
end

