-- ==== Sys2Proof/Laws/Memory.lean ====
section
/-! SUPPORT. Laws/Memory.lean: every operation on device memory keeps its canonical form. -/

namespace Sys2Proof.Machine

/-- The canonical form as one statement about the whole list. -/
theorem cellsWf_iff {l : List Host.Cell} :
    cellsWf l = true ↔ l.Pairwise (fun a b => a.1 < b.1) ∧ ∀ c ∈ l, c.2 ≠ memDefault := by
  induction l with
  | nil => simp [cellsWf]
  | cons c l ih =>
    obtain ⟨k, b⟩ := c
    cases l with
    | nil => simp [cellsWf]
    | cons d l =>
      obtain ⟨k', b'⟩ := d
      simp only [cellsWf, Bool.and_eq_true, bne_iff_ne, decide_eq_true_eq, ih]
      constructor
      · rintro ⟨⟨hb, hk⟩, hp, hd⟩
        refine ⟨List.pairwise_cons.2 ⟨fun x hx => ?_, hp⟩, fun x hx => ?_⟩
        · rcases List.mem_cons.1 hx with rfl | hx
          · exact hk
          · exact lt_trans hk ((List.pairwise_cons.1 hp).1 x hx)
        · rcases List.mem_cons.1 hx with rfl | hx
          · exact hb
          · exact hd x hx
      · rintro ⟨hp, hd⟩
        obtain ⟨h1, h2⟩ := List.pairwise_cons.1 hp
        exact ⟨⟨hd (k, b) (by simp), h1 (k', b') (by simp)⟩, h2, fun x hx => hd x (List.mem_cons_of_mem _ hx)⟩

/-- The entries of a list after a write. -/
theorem mem_cellsPut {l : List Host.Cell} {a : Nat} {b : Byte} (hl : l.Pairwise (fun x y => x.1 < y.1)) {c : Host.Cell} :
    c ∈ cellsPut l a b ↔ (c = (a, b) ∧ b ≠ memDefault) ∨ (c ∈ l ∧ c.1 ≠ a) := by
  induction l with
  | nil => by_cases h : b = memDefault <;> simp [cellsPut, h]
  | cons d l ih =>
    obtain ⟨k, v⟩ := d
    obtain ⟨h1, h2⟩ := List.pairwise_cons.1 hl
    have hlt : ∀ x ∈ l, k < x.1 := h1
    simp only [cellsPut]
    split
    · rename_i hak
      have hne : ∀ x ∈ (k, v) :: l, x.1 ≠ a := by
        intro x hx
        rcases List.mem_cons.1 hx with rfl | hx
        · exact Nat.ne_of_gt hak
        · exact Nat.ne_of_gt (lt_trans hak (hlt x hx))
      by_cases hb : b = memDefault
      · simp only [hb, if_true]
        constructor
        · intro h; exact Or.inr ⟨h, hne c h⟩
        · rintro (⟨_, h⟩ | ⟨h, _⟩)
          · exact absurd rfl h
          · exact h
      · simp only [hb, if_false]
        constructor
        · intro h
          rcases List.mem_cons.1 h with rfl | h
          · exact Or.inl ⟨rfl, hb⟩
          · exact Or.inr ⟨h, hne c h⟩
        · rintro (⟨rfl, _⟩ | ⟨h, _⟩)
          · exact List.mem_cons_self ..
          · exact List.mem_cons_of_mem _ h
    · split
      · rename_i _ hak
        subst hak
        have hne : ∀ x ∈ l, x.1 ≠ a := fun x hx => Nat.ne_of_gt (hlt x hx)
        by_cases hb : b = memDefault
        · simp only [hb, if_true]
          constructor
          · intro h; exact Or.inr ⟨List.mem_cons_of_mem _ h, hne c h⟩
          · rintro (⟨_, h⟩ | ⟨h, hn⟩)
            · exact absurd rfl h
            · rcases List.mem_cons.1 h with rfl | h
              · exact absurd rfl hn
              · exact h
        · simp only [hb, if_false]
          constructor
          · intro h
            rcases List.mem_cons.1 h with rfl | h
            · exact Or.inl ⟨rfl, hb⟩
            · exact Or.inr ⟨List.mem_cons_of_mem _ h, hne c h⟩
          · rintro (⟨rfl, _⟩ | ⟨h, hn⟩)
            · exact List.mem_cons_self ..
            · rcases List.mem_cons.1 h with rfl | h
              · exact absurd rfl hn
              · exact List.mem_cons_of_mem _ h
      · rename_i h3 h4
        rw [List.mem_cons, ih h2, List.mem_cons]
        constructor
        · rintro (rfl | h | ⟨h, hn⟩)
          · exact Or.inr ⟨Or.inl rfl, fun h => h4 h.symm⟩
          · exact Or.inl h
          · exact Or.inr ⟨Or.inr h, hn⟩
        · rintro (h | ⟨rfl | h, hn⟩)
          · exact Or.inr (Or.inl h)
          · exact Or.inl rfl
          · exact Or.inr (Or.inr ⟨h, hn⟩)

/-- A write keeps the canonical form. -/
theorem cellsPut_wf {l : List Host.Cell} (a : Nat) (b : Byte) (h : cellsWf l = true) : cellsWf (cellsPut l a b) = true := by
  obtain ⟨hp, hd⟩ := cellsWf_iff.1 h
  refine cellsWf_iff.2 ⟨?_, fun c hc => ?_⟩
  · clear h hd
    induction l with
    | nil => by_cases hb : b = memDefault <;> simp [cellsPut, hb]
    | cons d l ih =>
      obtain ⟨k, v⟩ := d
      obtain ⟨h1, h2⟩ := List.pairwise_cons.1 hp
      simp only [cellsPut]
      split
      · rename_i hak
        split
        · exact hp
        · refine List.pairwise_cons.2 ⟨fun x hx => ?_, hp⟩
          rcases List.mem_cons.1 hx with rfl | hx
          · exact hak
          · exact lt_trans hak (h1 x hx)
      · split
        · rename_i _ hak
          subst hak
          split
          · exact h2
          · exact List.pairwise_cons.2 ⟨h1, h2⟩
        · rename_i h3 h4
          refine List.pairwise_cons.2 ⟨fun x hx => ?_, ih h2⟩
          rcases (mem_cellsPut h2).1 hx with ⟨rfl, _⟩ | ⟨hx, _⟩
          · exact lt_of_le_of_ne (Nat.le_of_not_lt h3) (fun h => h4 h.symm)
          · exact h1 x hx
  · rcases (mem_cellsPut hp).1 hc with ⟨rfl, hb⟩ | ⟨hc, _⟩
    · exact hb
    · exact hd c hc

theorem cellsPutAll_wf (bs : List Byte) : ∀ {l : List Host.Cell} (a : Nat), cellsWf l = true → cellsWf (cellsPutAll l a bs) = true := by
  induction bs with
  | nil => exact fun _ h => h
  | cons b bs ih => exact fun a h => ih (a + 1) (cellsPut_wf a b h)

/-- The canonical form of a memory, by its parts. -/
theorem Mem.wf_iff {m : Mem} : m.wf = true ↔ cellsWf m.cells = true ∧ rising m.poison = true := by
  simp [Mem.wf]

theorem memMark_wf {m : Mem} (line : Nat) (p : Bool) (h : m.wf = true) : (memMark m line p).wf = true := by
  obtain ⟨h1, h2⟩ := Mem.wf_iff.1 h
  cases p
  · exact Mem.wf_iff.2 ⟨h1, filter_rising _ _ h2⟩
  · exact Mem.wf_iff.2 ⟨h1, insertNat_rising _ _ h2⟩

theorem memPutLine_wf (line : Nat) (bs : List (Nat × Byte)) : ∀ {m : Mem}, m.wf = true → (memPutLine m line bs).wf = true := by
  induction bs with
  | nil => exact fun h => h
  | cons p bs ih =>
    intro m h
    obtain ⟨h1, h2⟩ := Mem.wf_iff.1 h
    exact ih (Mem.wf_iff.2 ⟨cellsPut_wf _ _ h1, h2⟩)

theorem memLine_wf {m : Mem} (l : MemLine) (h : m.wf = true) : (memLine m l).wf = true := by
  obtain ⟨h1, h2⟩ := Mem.wf_iff.1 h
  exact memMark_wf _ _ (Mem.wf_iff.2 ⟨cellsPutAll_wf _ _ h1, h2⟩)

/-- The lines that a command brings keep the canonical form. -/
theorem absorb_wf (rd : List MemLine) : ∀ {m : Mem}, m.wf = true → (absorb m rd).wf = true := by
  induction rd with
  | nil => exact fun h => h
  | cons l rd ih => exact fun h => ih (memLine_wf l h)

/-- An answered write keeps the canonical form. -/
theorem commitWrite_wf {m : Mem} (w : WriteReq) (h : m.wf = true) : (commitWrite m w).wf = true :=
  memMark_wf _ _ (memPutLine_wf _ _ h)

/-- A response keeps the canonical form. -/
theorem writeResponse_wf {m : Mem} (e : Engine) (ch : ChanId) (id : BitVec 10) (st : RespStatus) (h : m.wf = true) :
    (writeResponse m e ch id st).2.wf = true := by
  simp only [writeResponse]
  split
  · exact h
  · split
    · exact commitWrite_wf _ h
    · split <;> exact h
    · split
      · exact h
      · split <;> exact h

/-- The memory of the state after reset has the canonical form. -/
theorem reset_mem_wf : State.reset.mem.wf = true := by decide

end Sys2Proof.Machine
end

