-- ==== Sys2Proof/Laws/State.lean ====
section
/-! SUPPORT. Laws/State.lean: what each update of a state leaves as it was, field by field. -/

namespace Sys2Proof.Machine

/-! ### Whole states -/

@[simp] theorem withEng_pending (s : State) (e : Engine) : (withEng s e).pending = s.pending := rfl
@[simp] theorem withEng_posted (s : State) (e : Engine) : (withEng s e).posted = s.posted := rfl
@[simp] theorem withEng_mem (s : State) (e : Engine) : (withEng s e).mem = s.mem := rfl
@[simp] theorem withEng_eng (s : State) (e : Engine) : (withEng s e).eng = e := rfl
@[simp] theorem withEng_held (s : State) (e : Engine) : (withEng s e).held = s.held := rfl
@[simp] theorem withEng_shadow (s : State) (e : Engine) : (withEng s e).shadow = s.shadow := rfl
@[simp] theorem onEngine_pending (s : State) (f : Engine → Engine) : (onEngine s f).pending = s.pending := rfl
@[simp] theorem onEngine_posted (s : State) (f : Engine → Engine) : (onEngine s f).posted = s.posted := rfl
@[simp] theorem onEngine_mem (s : State) (f : Engine → Engine) : (onEngine s f).mem = s.mem := rfl
@[simp] theorem onEngine_eng (s : State) (f : Engine → Engine) : (onEngine s f).eng = f s.eng := rfl
@[simp] theorem onEngine_held (s : State) (f : Engine → Engine) : (onEngine s f).held = s.held := rfl
@[simp] theorem onEngine_shadow (s : State) (f : Engine → Engine) : (onEngine s f).shadow = s.shadow := rfl
@[simp] theorem afterWrite_pending (s : State) (w : WriteSrc) (e : Engine) : (afterWrite s w e).pending = s.pending := rfl
@[simp] theorem afterWrite_posted (s : State) (w : WriteSrc) (e : Engine) : (afterWrite s w e).posted = restOf s w := rfl
@[simp] theorem afterWrite_mem (s : State) (w : WriteSrc) (e : Engine) : (afterWrite s w e).mem = s.mem := rfl
@[simp] theorem afterWrite_eng (s : State) (w : WriteSrc) (e : Engine) : (afterWrite s w e).eng = e := rfl
@[simp] theorem afterWrite_held (s : State) (w : WriteSrc) (e : Engine) : (afterWrite s w e).held = s.held := rfl
@[simp] theorem afterWrite_shadow (s : State) (w : WriteSrc) (e : Engine) : (afterWrite s w e).shadow = s.shadow := rfl
@[simp] theorem reading_pending (s : State) (rd : List MemLine) (f : Mem → Engine → Engine) : (reading s rd f).pending = s.pending := rfl
@[simp] theorem reading_posted (s : State) (rd : List MemLine) (f : Mem → Engine → Engine) : (reading s rd f).posted = s.posted := rfl
@[simp] theorem reading_mem (s : State) (rd : List MemLine) (f : Mem → Engine → Engine) : (reading s rd f).mem = absorb s.mem rd := rfl
@[simp] theorem reading_eng (s : State) (rd : List MemLine) (f : Mem → Engine → Engine) :
    (reading s rd f).eng = f (landed s.mem rd) (readEng s rd) := rfl
@[simp] theorem readingIn_pending (s : State) (c : CombId) (rd : List MemLine) (f : Mem → Engine → Engine) :
    (readingIn s c rd f).pending = s.pending := rfl
@[simp] theorem readingIn_posted (s : State) (c : CombId) (rd : List MemLine) (f : Mem → Engine → Engine) :
    (readingIn s c rd f).posted = s.posted := rfl
@[simp] theorem readingIn_mem (s : State) (c : CombId) (rd : List MemLine) (f : Mem → Engine → Engine) :
    (readingIn s c rd f).mem = absorb s.mem rd := rfl
@[simp] theorem readingIn_eng (s : State) (c : CombId) (rd : List MemLine) (f : Mem → Engine → Engine) :
    (readingIn s c rd f).eng = f (landed s.mem rd) (readEngIn s c rd) := rfl
@[simp] theorem reading_held (s : State) (rd : List MemLine) (f : Mem → Engine → Engine) : (reading s rd f).held = s.held := rfl
@[simp] theorem reading_shadow (s : State) (rd : List MemLine) (f : Mem → Engine → Engine) : (reading s rd f).shadow = s.shadow := rfl
@[simp] theorem readingIn_held (s : State) (c : CombId) (rd : List MemLine) (f : Mem → Engine → Engine) :
    (readingIn s c rd f).held = s.held := rfl
@[simp] theorem readingIn_shadow (s : State) (c : CombId) (rd : List MemLine) (f : Mem → Engine → Engine) :
    (readingIn s c rd f).shadow = s.shadow := rfl
@[simp] theorem landed_nil (m : Mem) : landed m [] = m := rfl
@[simp] theorem readEng_nil (s : State) : readEng s [] = s.eng := rfl
@[simp] theorem readEngIn_nil (s : State) (c : CombId) : readEngIn s c [] = s.eng := rfl

/-! ### onComb -/

@[simp] theorem onComb_hub (e : Engine) (c : CombId) (f : Comb → Comb) : (onComb e c f).hub = e.hub := rfl
@[simp] theorem onComb_rw (e : Engine) (c : CombId) (f : Comb → Comb) : (onComb e c f).rw = e.rw := rfl
@[simp] theorem onComb_ctr (e : Engine) (c : CombId) (f : Comb → Comb) : (onComb e c f).ctr = e.ctr := rfl
@[simp] theorem onComb_mp (e : Engine) (c : CombId) (f : Comb → Comb) : (onComb e c f).mp = e.mp := rfl
@[simp] theorem onComb_fences (e : Engine) (c : CombId) (f : Comb → Comb) : (onComb e c f).fences = e.fences := rfl
@[simp] theorem onComb_boot (e : Engine) (c : CombId) (f : Comb → Comb) : (onComb e c f).boot = e.boot := rfl
@[simp] theorem onComb_fwp (e : Engine) (c : CombId) (f : Comb → Comb) : (onComb e c f).fwp = e.fwp := rfl
@[simp] theorem onComb_mbx (e : Engine) (c : CombId) (f : Comb → Comb) : (onComb e c f).mbx = e.mbx := rfl
@[simp] theorem onComb_log (e : Engine) (c : CombId) (f : Comb → Comb) : (onComb e c f).log = e.log := rfl
@[simp] theorem onComb_sch (e : Engine) (c : CombId) (f : Comb → Comb) : (onComb e c f).sch = e.sch := rfl
@[simp] theorem onComb_hf (e : Engine) (c : CombId) (f : Comb → Comb) : (onComb e c f).hf = e.hf := rfl
@[simp] theorem onComb_cap (e : Engine) (c : CombId) (f : Comb → Comb) : (onComb e c f).cap = e.cap := rfl
@[simp] theorem onComb_lnk (e : Engine) (c : CombId) (f : Comb → Comb) : (onComb e c f).lnk = e.lnk := rfl
@[simp] theorem onComb_pwr (e : Engine) (c : CombId) (f : Comb → Comb) : (onComb e c f).pwr = e.pwr := rfl
@[simp] theorem onComb_sb (e : Engine) (c : CombId) (f : Comb → Comb) : (onComb e c f).sb = e.sb := rfl
@[simp] theorem onComb_tap (e : Engine) (c : CombId) (f : Comb → Comb) : (onComb e c f).tap = e.tap := rfl

/-! ### onFrame -/

@[simp] theorem onFrame_hub (e : Engine) (c : CombId) (f : FrameId) (g : Frame → Frame) : (onFrame e c f g).hub = e.hub := rfl
@[simp] theorem onFrame_rw (e : Engine) (c : CombId) (f : FrameId) (g : Frame → Frame) : (onFrame e c f g).rw = e.rw := rfl
@[simp] theorem onFrame_ctr (e : Engine) (c : CombId) (f : FrameId) (g : Frame → Frame) : (onFrame e c f g).ctr = e.ctr := rfl
@[simp] theorem onFrame_mp (e : Engine) (c : CombId) (f : FrameId) (g : Frame → Frame) : (onFrame e c f g).mp = e.mp := rfl
@[simp] theorem onFrame_fences (e : Engine) (c : CombId) (f : FrameId) (g : Frame → Frame) : (onFrame e c f g).fences = e.fences := rfl
@[simp] theorem onFrame_boot (e : Engine) (c : CombId) (f : FrameId) (g : Frame → Frame) : (onFrame e c f g).boot = e.boot := rfl
@[simp] theorem onFrame_fwp (e : Engine) (c : CombId) (f : FrameId) (g : Frame → Frame) : (onFrame e c f g).fwp = e.fwp := rfl
@[simp] theorem onFrame_mbx (e : Engine) (c : CombId) (f : FrameId) (g : Frame → Frame) : (onFrame e c f g).mbx = e.mbx := rfl
@[simp] theorem onFrame_log (e : Engine) (c : CombId) (f : FrameId) (g : Frame → Frame) : (onFrame e c f g).log = e.log := rfl
@[simp] theorem onFrame_sch (e : Engine) (c : CombId) (f : FrameId) (g : Frame → Frame) : (onFrame e c f g).sch = e.sch := rfl
@[simp] theorem onFrame_hf (e : Engine) (c : CombId) (f : FrameId) (g : Frame → Frame) : (onFrame e c f g).hf = e.hf := rfl
@[simp] theorem onFrame_cap (e : Engine) (c : CombId) (f : FrameId) (g : Frame → Frame) : (onFrame e c f g).cap = e.cap := rfl
@[simp] theorem onFrame_lnk (e : Engine) (c : CombId) (f : FrameId) (g : Frame → Frame) : (onFrame e c f g).lnk = e.lnk := rfl
@[simp] theorem onFrame_pwr (e : Engine) (c : CombId) (f : FrameId) (g : Frame → Frame) : (onFrame e c f g).pwr = e.pwr := rfl
@[simp] theorem onFrame_sb (e : Engine) (c : CombId) (f : FrameId) (g : Frame → Frame) : (onFrame e c f g).sb = e.sb := rfl
@[simp] theorem onFrame_tap (e : Engine) (c : CombId) (f : FrameId) (g : Frame → Frame) : (onFrame e c f g).tap = e.tap := rfl

/-! ### onGraph -/

@[simp] theorem onGraph_hub (e : Engine) (f : Graph → Graph) : (onGraph e f).hub = e.hub := rfl
@[simp] theorem onGraph_rw (e : Engine) (f : Graph → Graph) : (onGraph e f).rw = e.rw := rfl
@[simp] theorem onGraph_ctr (e : Engine) (f : Graph → Graph) : (onGraph e f).ctr = e.ctr := rfl
@[simp] theorem onGraph_mp (e : Engine) (f : Graph → Graph) : (onGraph e f).mp = e.mp := rfl
@[simp] theorem onGraph_fences (e : Engine) (f : Graph → Graph) : (onGraph e f).fences = e.fences := rfl
@[simp] theorem onGraph_boot (e : Engine) (f : Graph → Graph) : (onGraph e f).boot = e.boot := rfl
@[simp] theorem onGraph_fwp (e : Engine) (f : Graph → Graph) : (onGraph e f).fwp = e.fwp := rfl
@[simp] theorem onGraph_mbx (e : Engine) (f : Graph → Graph) : (onGraph e f).mbx = e.mbx := rfl
@[simp] theorem onGraph_log (e : Engine) (f : Graph → Graph) : (onGraph e f).log = e.log := rfl
@[simp] theorem onGraph_combs (e : Engine) (f : Graph → Graph) : (onGraph e f).combs = e.combs := rfl
@[simp] theorem onGraph_hf (e : Engine) (f : Graph → Graph) : (onGraph e f).hf = e.hf := rfl
@[simp] theorem onGraph_cap (e : Engine) (f : Graph → Graph) : (onGraph e f).cap = e.cap := rfl
@[simp] theorem onGraph_lnk (e : Engine) (f : Graph → Graph) : (onGraph e f).lnk = e.lnk := rfl
@[simp] theorem onGraph_pwr (e : Engine) (f : Graph → Graph) : (onGraph e f).pwr = e.pwr := rfl
@[simp] theorem onGraph_sb (e : Engine) (f : Graph → Graph) : (onGraph e f).sb = e.sb := rfl
@[simp] theorem onGraph_tap (e : Engine) (f : Graph → Graph) : (onGraph e f).tap = e.tap := rfl

/-! ### onTask -/

@[simp] theorem onTask_hub (e : Engine) (i : Nat) (f : Task → Task) : (onTask e i f).hub = e.hub := rfl
@[simp] theorem onTask_rw (e : Engine) (i : Nat) (f : Task → Task) : (onTask e i f).rw = e.rw := rfl
@[simp] theorem onTask_ctr (e : Engine) (i : Nat) (f : Task → Task) : (onTask e i f).ctr = e.ctr := rfl
@[simp] theorem onTask_mp (e : Engine) (i : Nat) (f : Task → Task) : (onTask e i f).mp = e.mp := rfl
@[simp] theorem onTask_fences (e : Engine) (i : Nat) (f : Task → Task) : (onTask e i f).fences = e.fences := rfl
@[simp] theorem onTask_boot (e : Engine) (i : Nat) (f : Task → Task) : (onTask e i f).boot = e.boot := rfl
@[simp] theorem onTask_fwp (e : Engine) (i : Nat) (f : Task → Task) : (onTask e i f).fwp = e.fwp := rfl
@[simp] theorem onTask_mbx (e : Engine) (i : Nat) (f : Task → Task) : (onTask e i f).mbx = e.mbx := rfl
@[simp] theorem onTask_log (e : Engine) (i : Nat) (f : Task → Task) : (onTask e i f).log = e.log := rfl
@[simp] theorem onTask_combs (e : Engine) (i : Nat) (f : Task → Task) : (onTask e i f).combs = e.combs := rfl
@[simp] theorem onTask_hf (e : Engine) (i : Nat) (f : Task → Task) : (onTask e i f).hf = e.hf := rfl
@[simp] theorem onTask_cap (e : Engine) (i : Nat) (f : Task → Task) : (onTask e i f).cap = e.cap := rfl
@[simp] theorem onTask_lnk (e : Engine) (i : Nat) (f : Task → Task) : (onTask e i f).lnk = e.lnk := rfl
@[simp] theorem onTask_pwr (e : Engine) (i : Nat) (f : Task → Task) : (onTask e i f).pwr = e.pwr := rfl
@[simp] theorem onTask_sb (e : Engine) (i : Nat) (f : Task → Task) : (onTask e i f).sb = e.sb := rfl
@[simp] theorem onTask_tap (e : Engine) (i : Nat) (f : Task → Task) : (onTask e i f).tap = e.tap := rfl

/-! ### onRegion -/

@[simp] theorem onRegion_hub (e : Engine) (h : Nat) (f : Region → Region) : (onRegion e h f).hub = e.hub := rfl
@[simp] theorem onRegion_rw (e : Engine) (h : Nat) (f : Region → Region) : (onRegion e h f).rw = e.rw := rfl
@[simp] theorem onRegion_ctr (e : Engine) (h : Nat) (f : Region → Region) : (onRegion e h f).ctr = e.ctr := rfl
@[simp] theorem onRegion_mp (e : Engine) (h : Nat) (f : Region → Region) : (onRegion e h f).mp = e.mp := rfl
@[simp] theorem onRegion_fences (e : Engine) (h : Nat) (f : Region → Region) : (onRegion e h f).fences = e.fences := rfl
@[simp] theorem onRegion_boot (e : Engine) (h : Nat) (f : Region → Region) : (onRegion e h f).boot = e.boot := rfl
@[simp] theorem onRegion_fwp (e : Engine) (h : Nat) (f : Region → Region) : (onRegion e h f).fwp = e.fwp := rfl
@[simp] theorem onRegion_mbx (e : Engine) (h : Nat) (f : Region → Region) : (onRegion e h f).mbx = e.mbx := rfl
@[simp] theorem onRegion_log (e : Engine) (h : Nat) (f : Region → Region) : (onRegion e h f).log = e.log := rfl
@[simp] theorem onRegion_combs (e : Engine) (h : Nat) (f : Region → Region) : (onRegion e h f).combs = e.combs := rfl
@[simp] theorem onRegion_hf (e : Engine) (h : Nat) (f : Region → Region) : (onRegion e h f).hf = e.hf := rfl
@[simp] theorem onRegion_cap (e : Engine) (h : Nat) (f : Region → Region) : (onRegion e h f).cap = e.cap := rfl
@[simp] theorem onRegion_lnk (e : Engine) (h : Nat) (f : Region → Region) : (onRegion e h f).lnk = e.lnk := rfl
@[simp] theorem onRegion_pwr (e : Engine) (h : Nat) (f : Region → Region) : (onRegion e h f).pwr = e.pwr := rfl
@[simp] theorem onRegion_sb (e : Engine) (h : Nat) (f : Region → Region) : (onRegion e h f).sb = e.sb := rfl
@[simp] theorem onRegion_tap (e : Engine) (h : Nat) (f : Region → Region) : (onRegion e h f).tap = e.tap := rfl

/-! ### onVer -/

@[simp] theorem onVer_hub (e : Engine) (h : Nat) (f : VerEntry → VerEntry) : (onVer e h f).hub = e.hub := rfl
@[simp] theorem onVer_rw (e : Engine) (h : Nat) (f : VerEntry → VerEntry) : (onVer e h f).rw = e.rw := rfl
@[simp] theorem onVer_ctr (e : Engine) (h : Nat) (f : VerEntry → VerEntry) : (onVer e h f).ctr = e.ctr := rfl
@[simp] theorem onVer_mp (e : Engine) (h : Nat) (f : VerEntry → VerEntry) : (onVer e h f).mp = e.mp := rfl
@[simp] theorem onVer_fences (e : Engine) (h : Nat) (f : VerEntry → VerEntry) : (onVer e h f).fences = e.fences := rfl
@[simp] theorem onVer_boot (e : Engine) (h : Nat) (f : VerEntry → VerEntry) : (onVer e h f).boot = e.boot := rfl
@[simp] theorem onVer_fwp (e : Engine) (h : Nat) (f : VerEntry → VerEntry) : (onVer e h f).fwp = e.fwp := rfl
@[simp] theorem onVer_mbx (e : Engine) (h : Nat) (f : VerEntry → VerEntry) : (onVer e h f).mbx = e.mbx := rfl
@[simp] theorem onVer_log (e : Engine) (h : Nat) (f : VerEntry → VerEntry) : (onVer e h f).log = e.log := rfl
@[simp] theorem onVer_combs (e : Engine) (h : Nat) (f : VerEntry → VerEntry) : (onVer e h f).combs = e.combs := rfl
@[simp] theorem onVer_hf (e : Engine) (h : Nat) (f : VerEntry → VerEntry) : (onVer e h f).hf = e.hf := rfl
@[simp] theorem onVer_cap (e : Engine) (h : Nat) (f : VerEntry → VerEntry) : (onVer e h f).cap = e.cap := rfl
@[simp] theorem onVer_lnk (e : Engine) (h : Nat) (f : VerEntry → VerEntry) : (onVer e h f).lnk = e.lnk := rfl
@[simp] theorem onVer_pwr (e : Engine) (h : Nat) (f : VerEntry → VerEntry) : (onVer e h f).pwr = e.pwr := rfl
@[simp] theorem onVer_sb (e : Engine) (h : Nat) (f : VerEntry → VerEntry) : (onVer e h f).sb = e.sb := rfl
@[simp] theorem onVer_tap (e : Engine) (h : Nat) (f : VerEntry → VerEntry) : (onVer e h f).tap = e.tap := rfl

/-! ### onCtx -/

@[simp] theorem onCtx_hub (e : Engine) (c : CombId) (x : Fin 4) (f : Ctx → Ctx) : (onCtx e c x f).hub = e.hub := rfl
@[simp] theorem onCtx_rw (e : Engine) (c : CombId) (x : Fin 4) (f : Ctx → Ctx) : (onCtx e c x f).rw = e.rw := rfl
@[simp] theorem onCtx_ctr (e : Engine) (c : CombId) (x : Fin 4) (f : Ctx → Ctx) : (onCtx e c x f).ctr = e.ctr := rfl
@[simp] theorem onCtx_mp (e : Engine) (c : CombId) (x : Fin 4) (f : Ctx → Ctx) : (onCtx e c x f).mp = e.mp := rfl
@[simp] theorem onCtx_fences (e : Engine) (c : CombId) (x : Fin 4) (f : Ctx → Ctx) : (onCtx e c x f).fences = e.fences := rfl
@[simp] theorem onCtx_boot (e : Engine) (c : CombId) (x : Fin 4) (f : Ctx → Ctx) : (onCtx e c x f).boot = e.boot := rfl
@[simp] theorem onCtx_fwp (e : Engine) (c : CombId) (x : Fin 4) (f : Ctx → Ctx) : (onCtx e c x f).fwp = e.fwp := rfl
@[simp] theorem onCtx_mbx (e : Engine) (c : CombId) (x : Fin 4) (f : Ctx → Ctx) : (onCtx e c x f).mbx = e.mbx := rfl
@[simp] theorem onCtx_log (e : Engine) (c : CombId) (x : Fin 4) (f : Ctx → Ctx) : (onCtx e c x f).log = e.log := rfl
@[simp] theorem onCtx_sch (e : Engine) (c : CombId) (x : Fin 4) (f : Ctx → Ctx) : (onCtx e c x f).sch = e.sch := rfl
@[simp] theorem onCtx_hf (e : Engine) (c : CombId) (x : Fin 4) (f : Ctx → Ctx) : (onCtx e c x f).hf = e.hf := rfl
@[simp] theorem onCtx_cap (e : Engine) (c : CombId) (x : Fin 4) (f : Ctx → Ctx) : (onCtx e c x f).cap = e.cap := rfl
@[simp] theorem onCtx_lnk (e : Engine) (c : CombId) (x : Fin 4) (f : Ctx → Ctx) : (onCtx e c x f).lnk = e.lnk := rfl
@[simp] theorem onCtx_pwr (e : Engine) (c : CombId) (x : Fin 4) (f : Ctx → Ctx) : (onCtx e c x f).pwr = e.pwr := rfl
@[simp] theorem onCtx_sb (e : Engine) (c : CombId) (x : Fin 4) (f : Ctx → Ctx) : (onCtx e c x f).sb = e.sb := rfl
@[simp] theorem onCtx_tap (e : Engine) (c : CombId) (x : Fin 4) (f : Ctx → Ctx) : (onCtx e c x f).tap = e.tap := rfl

/-! ### onCarousel -/

@[simp] theorem onCarousel_hub (e : Engine) (c : CombId) (f : Carousel → Carousel) : (onCarousel e c f).hub = e.hub := rfl
@[simp] theorem onCarousel_rw (e : Engine) (c : CombId) (f : Carousel → Carousel) : (onCarousel e c f).rw = e.rw := rfl
@[simp] theorem onCarousel_ctr (e : Engine) (c : CombId) (f : Carousel → Carousel) : (onCarousel e c f).ctr = e.ctr := rfl
@[simp] theorem onCarousel_mp (e : Engine) (c : CombId) (f : Carousel → Carousel) : (onCarousel e c f).mp = e.mp := rfl
@[simp] theorem onCarousel_fences (e : Engine) (c : CombId) (f : Carousel → Carousel) : (onCarousel e c f).fences = e.fences := rfl
@[simp] theorem onCarousel_boot (e : Engine) (c : CombId) (f : Carousel → Carousel) : (onCarousel e c f).boot = e.boot := rfl
@[simp] theorem onCarousel_fwp (e : Engine) (c : CombId) (f : Carousel → Carousel) : (onCarousel e c f).fwp = e.fwp := rfl
@[simp] theorem onCarousel_mbx (e : Engine) (c : CombId) (f : Carousel → Carousel) : (onCarousel e c f).mbx = e.mbx := rfl
@[simp] theorem onCarousel_log (e : Engine) (c : CombId) (f : Carousel → Carousel) : (onCarousel e c f).log = e.log := rfl
@[simp] theorem onCarousel_sch (e : Engine) (c : CombId) (f : Carousel → Carousel) : (onCarousel e c f).sch = e.sch := rfl
@[simp] theorem onCarousel_hf (e : Engine) (c : CombId) (f : Carousel → Carousel) : (onCarousel e c f).hf = e.hf := rfl
@[simp] theorem onCarousel_cap (e : Engine) (c : CombId) (f : Carousel → Carousel) : (onCarousel e c f).cap = e.cap := rfl
@[simp] theorem onCarousel_lnk (e : Engine) (c : CombId) (f : Carousel → Carousel) : (onCarousel e c f).lnk = e.lnk := rfl
@[simp] theorem onCarousel_pwr (e : Engine) (c : CombId) (f : Carousel → Carousel) : (onCarousel e c f).pwr = e.pwr := rfl
@[simp] theorem onCarousel_sb (e : Engine) (c : CombId) (f : Carousel → Carousel) : (onCarousel e c f).sb = e.sb := rfl
@[simp] theorem onCarousel_tap (e : Engine) (c : CombId) (f : Carousel → Carousel) : (onCarousel e c f).tap = e.tap := rfl

/-! ### onRing -/

@[simp] theorem onRing_hub (e : Engine) (c : CombId) (r : Nat) (f : Ring → Ring) : (onRing e c r f).hub = e.hub := rfl
@[simp] theorem onRing_rw (e : Engine) (c : CombId) (r : Nat) (f : Ring → Ring) : (onRing e c r f).rw = e.rw := rfl
@[simp] theorem onRing_ctr (e : Engine) (c : CombId) (r : Nat) (f : Ring → Ring) : (onRing e c r f).ctr = e.ctr := rfl
@[simp] theorem onRing_mp (e : Engine) (c : CombId) (r : Nat) (f : Ring → Ring) : (onRing e c r f).mp = e.mp := rfl
@[simp] theorem onRing_fences (e : Engine) (c : CombId) (r : Nat) (f : Ring → Ring) : (onRing e c r f).fences = e.fences := rfl
@[simp] theorem onRing_boot (e : Engine) (c : CombId) (r : Nat) (f : Ring → Ring) : (onRing e c r f).boot = e.boot := rfl
@[simp] theorem onRing_fwp (e : Engine) (c : CombId) (r : Nat) (f : Ring → Ring) : (onRing e c r f).fwp = e.fwp := rfl
@[simp] theorem onRing_mbx (e : Engine) (c : CombId) (r : Nat) (f : Ring → Ring) : (onRing e c r f).mbx = e.mbx := rfl
@[simp] theorem onRing_log (e : Engine) (c : CombId) (r : Nat) (f : Ring → Ring) : (onRing e c r f).log = e.log := rfl
@[simp] theorem onRing_sch (e : Engine) (c : CombId) (r : Nat) (f : Ring → Ring) : (onRing e c r f).sch = e.sch := rfl
@[simp] theorem onRing_hf (e : Engine) (c : CombId) (r : Nat) (f : Ring → Ring) : (onRing e c r f).hf = e.hf := rfl
@[simp] theorem onRing_cap (e : Engine) (c : CombId) (r : Nat) (f : Ring → Ring) : (onRing e c r f).cap = e.cap := rfl
@[simp] theorem onRing_lnk (e : Engine) (c : CombId) (r : Nat) (f : Ring → Ring) : (onRing e c r f).lnk = e.lnk := rfl
@[simp] theorem onRing_pwr (e : Engine) (c : CombId) (r : Nat) (f : Ring → Ring) : (onRing e c r f).pwr = e.pwr := rfl
@[simp] theorem onRing_sb (e : Engine) (c : CombId) (r : Nat) (f : Ring → Ring) : (onRing e c r f).sb = e.sb := rfl
@[simp] theorem onRing_tap (e : Engine) (c : CombId) (r : Nat) (f : Ring → Ring) : (onRing e c r f).tap = e.tap := rfl

/-! ### onStream -/

@[simp] theorem onStream_hub (e : Engine) (c : CombId) (r task role : Nat) (f : Stream → Stream) : (onStream e c r task role f).hub = e.hub := rfl
@[simp] theorem onStream_rw (e : Engine) (c : CombId) (r task role : Nat) (f : Stream → Stream) : (onStream e c r task role f).rw = e.rw := rfl
@[simp] theorem onStream_ctr (e : Engine) (c : CombId) (r task role : Nat) (f : Stream → Stream) : (onStream e c r task role f).ctr = e.ctr := rfl
@[simp] theorem onStream_mp (e : Engine) (c : CombId) (r task role : Nat) (f : Stream → Stream) : (onStream e c r task role f).mp = e.mp := rfl
@[simp] theorem onStream_fences (e : Engine) (c : CombId) (r task role : Nat) (f : Stream → Stream) : (onStream e c r task role f).fences = e.fences := rfl
@[simp] theorem onStream_boot (e : Engine) (c : CombId) (r task role : Nat) (f : Stream → Stream) : (onStream e c r task role f).boot = e.boot := rfl
@[simp] theorem onStream_fwp (e : Engine) (c : CombId) (r task role : Nat) (f : Stream → Stream) : (onStream e c r task role f).fwp = e.fwp := rfl
@[simp] theorem onStream_mbx (e : Engine) (c : CombId) (r task role : Nat) (f : Stream → Stream) : (onStream e c r task role f).mbx = e.mbx := rfl
@[simp] theorem onStream_log (e : Engine) (c : CombId) (r task role : Nat) (f : Stream → Stream) : (onStream e c r task role f).log = e.log := rfl
@[simp] theorem onStream_sch (e : Engine) (c : CombId) (r task role : Nat) (f : Stream → Stream) : (onStream e c r task role f).sch = e.sch := rfl
@[simp] theorem onStream_hf (e : Engine) (c : CombId) (r task role : Nat) (f : Stream → Stream) : (onStream e c r task role f).hf = e.hf := rfl
@[simp] theorem onStream_cap (e : Engine) (c : CombId) (r task role : Nat) (f : Stream → Stream) : (onStream e c r task role f).cap = e.cap := rfl
@[simp] theorem onStream_lnk (e : Engine) (c : CombId) (r task role : Nat) (f : Stream → Stream) : (onStream e c r task role f).lnk = e.lnk := rfl
@[simp] theorem onStream_pwr (e : Engine) (c : CombId) (r task role : Nat) (f : Stream → Stream) : (onStream e c r task role f).pwr = e.pwr := rfl
@[simp] theorem onStream_sb (e : Engine) (c : CombId) (r task role : Nat) (f : Stream → Stream) : (onStream e c r task role f).sb = e.sb := rfl
@[simp] theorem onStream_tap (e : Engine) (c : CombId) (r task role : Nat) (f : Stream → Stream) : (onStream e c r task role f).tap = e.tap := rfl

/-! ### onIsland -/

@[simp] theorem onIsland_hub (e : Engine) (i : Nat) (f : Island → Island) : (onIsland e i f).hub = e.hub := rfl
@[simp] theorem onIsland_rw (e : Engine) (i : Nat) (f : Island → Island) : (onIsland e i f).rw = e.rw := rfl
@[simp] theorem onIsland_ctr (e : Engine) (i : Nat) (f : Island → Island) : (onIsland e i f).ctr = e.ctr := rfl
@[simp] theorem onIsland_mp (e : Engine) (i : Nat) (f : Island → Island) : (onIsland e i f).mp = e.mp := rfl
@[simp] theorem onIsland_fences (e : Engine) (i : Nat) (f : Island → Island) : (onIsland e i f).fences = e.fences := rfl
@[simp] theorem onIsland_boot (e : Engine) (i : Nat) (f : Island → Island) : (onIsland e i f).boot = e.boot := rfl
@[simp] theorem onIsland_fwp (e : Engine) (i : Nat) (f : Island → Island) : (onIsland e i f).fwp = e.fwp := rfl
@[simp] theorem onIsland_mbx (e : Engine) (i : Nat) (f : Island → Island) : (onIsland e i f).mbx = e.mbx := rfl
@[simp] theorem onIsland_log (e : Engine) (i : Nat) (f : Island → Island) : (onIsland e i f).log = e.log := rfl
@[simp] theorem onIsland_sch (e : Engine) (i : Nat) (f : Island → Island) : (onIsland e i f).sch = e.sch := rfl
@[simp] theorem onIsland_combs (e : Engine) (i : Nat) (f : Island → Island) : (onIsland e i f).combs = e.combs := rfl
@[simp] theorem onIsland_hf (e : Engine) (i : Nat) (f : Island → Island) : (onIsland e i f).hf = e.hf := rfl
@[simp] theorem onIsland_cap (e : Engine) (i : Nat) (f : Island → Island) : (onIsland e i f).cap = e.cap := rfl
@[simp] theorem onIsland_lnk (e : Engine) (i : Nat) (f : Island → Island) : (onIsland e i f).lnk = e.lnk := rfl
@[simp] theorem onIsland_sb (e : Engine) (i : Nat) (f : Island → Island) : (onIsland e i f).sb = e.sb := rfl
@[simp] theorem onIsland_tap (e : Engine) (i : Nat) (f : Island → Island) : (onIsland e i f).tap = e.tap := rfl

/-! ### onPort -/

@[simp] theorem onPort_hub (e : Engine) (p : PortId) (f : Port → Port) : (onPort e p f).hub = e.hub := rfl
@[simp] theorem onPort_rw (e : Engine) (p : PortId) (f : Port → Port) : (onPort e p f).rw = e.rw := rfl
@[simp] theorem onPort_ctr (e : Engine) (p : PortId) (f : Port → Port) : (onPort e p f).ctr = e.ctr := rfl
@[simp] theorem onPort_mp (e : Engine) (p : PortId) (f : Port → Port) : (onPort e p f).mp = e.mp := rfl
@[simp] theorem onPort_fences (e : Engine) (p : PortId) (f : Port → Port) : (onPort e p f).fences = e.fences := rfl
@[simp] theorem onPort_boot (e : Engine) (p : PortId) (f : Port → Port) : (onPort e p f).boot = e.boot := rfl
@[simp] theorem onPort_fwp (e : Engine) (p : PortId) (f : Port → Port) : (onPort e p f).fwp = e.fwp := rfl
@[simp] theorem onPort_mbx (e : Engine) (p : PortId) (f : Port → Port) : (onPort e p f).mbx = e.mbx := rfl
@[simp] theorem onPort_log (e : Engine) (p : PortId) (f : Port → Port) : (onPort e p f).log = e.log := rfl
@[simp] theorem onPort_sch (e : Engine) (p : PortId) (f : Port → Port) : (onPort e p f).sch = e.sch := rfl
@[simp] theorem onPort_combs (e : Engine) (p : PortId) (f : Port → Port) : (onPort e p f).combs = e.combs := rfl
@[simp] theorem onPort_hf (e : Engine) (p : PortId) (f : Port → Port) : (onPort e p f).hf = e.hf := rfl
@[simp] theorem onPort_cap (e : Engine) (p : PortId) (f : Port → Port) : (onPort e p f).cap = e.cap := rfl
@[simp] theorem onPort_pwr (e : Engine) (p : PortId) (f : Port → Port) : (onPort e p f).pwr = e.pwr := rfl
@[simp] theorem onPort_sb (e : Engine) (p : PortId) (f : Port → Port) : (onPort e p f).sb = e.sb := rfl
@[simp] theorem onPort_tap (e : Engine) (p : PortId) (f : Port → Port) : (onPort e p f).tap = e.tap := rfl

/-! ### onBucket -/

@[simp] theorem onBucket_hub (e : Engine) (i : Nat) (f : Bucket → Bucket) : (onBucket e i f).hub = e.hub := rfl
@[simp] theorem onBucket_rw (e : Engine) (i : Nat) (f : Bucket → Bucket) : (onBucket e i f).rw = e.rw := rfl
@[simp] theorem onBucket_ctr (e : Engine) (i : Nat) (f : Bucket → Bucket) : (onBucket e i f).ctr = e.ctr := rfl
@[simp] theorem onBucket_mp (e : Engine) (i : Nat) (f : Bucket → Bucket) : (onBucket e i f).mp = e.mp := rfl
@[simp] theorem onBucket_fences (e : Engine) (i : Nat) (f : Bucket → Bucket) : (onBucket e i f).fences = e.fences := rfl
@[simp] theorem onBucket_boot (e : Engine) (i : Nat) (f : Bucket → Bucket) : (onBucket e i f).boot = e.boot := rfl
@[simp] theorem onBucket_fwp (e : Engine) (i : Nat) (f : Bucket → Bucket) : (onBucket e i f).fwp = e.fwp := rfl
@[simp] theorem onBucket_mbx (e : Engine) (i : Nat) (f : Bucket → Bucket) : (onBucket e i f).mbx = e.mbx := rfl
@[simp] theorem onBucket_log (e : Engine) (i : Nat) (f : Bucket → Bucket) : (onBucket e i f).log = e.log := rfl
@[simp] theorem onBucket_sch (e : Engine) (i : Nat) (f : Bucket → Bucket) : (onBucket e i f).sch = e.sch := rfl
@[simp] theorem onBucket_combs (e : Engine) (i : Nat) (f : Bucket → Bucket) : (onBucket e i f).combs = e.combs := rfl
@[simp] theorem onBucket_hf (e : Engine) (i : Nat) (f : Bucket → Bucket) : (onBucket e i f).hf = e.hf := rfl
@[simp] theorem onBucket_cap (e : Engine) (i : Nat) (f : Bucket → Bucket) : (onBucket e i f).cap = e.cap := rfl
@[simp] theorem onBucket_pwr (e : Engine) (i : Nat) (f : Bucket → Bucket) : (onBucket e i f).pwr = e.pwr := rfl
@[simp] theorem onBucket_sb (e : Engine) (i : Nat) (f : Bucket → Bucket) : (onBucket e i f).sb = e.sb := rfl
@[simp] theorem onBucket_tap (e : Engine) (i : Nat) (f : Bucket → Bucket) : (onBucket e i f).tap = e.tap := rfl

/-! ### onGroup -/

@[simp] theorem onGroup_hub (e : Engine) (id gen : Nat) (f : Group → Group) : (onGroup e id gen f).hub = e.hub := rfl
@[simp] theorem onGroup_rw (e : Engine) (id gen : Nat) (f : Group → Group) : (onGroup e id gen f).rw = e.rw := rfl
@[simp] theorem onGroup_ctr (e : Engine) (id gen : Nat) (f : Group → Group) : (onGroup e id gen f).ctr = e.ctr := rfl
@[simp] theorem onGroup_mp (e : Engine) (id gen : Nat) (f : Group → Group) : (onGroup e id gen f).mp = e.mp := rfl
@[simp] theorem onGroup_fences (e : Engine) (id gen : Nat) (f : Group → Group) : (onGroup e id gen f).fences = e.fences := rfl
@[simp] theorem onGroup_boot (e : Engine) (id gen : Nat) (f : Group → Group) : (onGroup e id gen f).boot = e.boot := rfl
@[simp] theorem onGroup_fwp (e : Engine) (id gen : Nat) (f : Group → Group) : (onGroup e id gen f).fwp = e.fwp := rfl
@[simp] theorem onGroup_mbx (e : Engine) (id gen : Nat) (f : Group → Group) : (onGroup e id gen f).mbx = e.mbx := rfl
@[simp] theorem onGroup_log (e : Engine) (id gen : Nat) (f : Group → Group) : (onGroup e id gen f).log = e.log := rfl
@[simp] theorem onGroup_sch (e : Engine) (id gen : Nat) (f : Group → Group) : (onGroup e id gen f).sch = e.sch := rfl
@[simp] theorem onGroup_combs (e : Engine) (id gen : Nat) (f : Group → Group) : (onGroup e id gen f).combs = e.combs := rfl
@[simp] theorem onGroup_hf (e : Engine) (id gen : Nat) (f : Group → Group) : (onGroup e id gen f).hf = e.hf := rfl
@[simp] theorem onGroup_cap (e : Engine) (id gen : Nat) (f : Group → Group) : (onGroup e id gen f).cap = e.cap := rfl
@[simp] theorem onGroup_pwr (e : Engine) (id gen : Nat) (f : Group → Group) : (onGroup e id gen f).pwr = e.pwr := rfl
@[simp] theorem onGroup_sb (e : Engine) (id gen : Nat) (f : Group → Group) : (onGroup e id gen f).sb = e.sb := rfl
@[simp] theorem onGroup_tap (e : Engine) (id gen : Nat) (f : Group → Group) : (onGroup e id gen f).tap = e.tap := rfl

/-! ### pushOwn -/

@[simp] theorem pushOwn_hub (e : Engine) (f : Flit) : (pushOwn e f).hub = e.hub := rfl
@[simp] theorem pushOwn_rw (e : Engine) (f : Flit) : (pushOwn e f).rw = e.rw := rfl
@[simp] theorem pushOwn_ctr (e : Engine) (f : Flit) : (pushOwn e f).ctr = e.ctr := rfl
@[simp] theorem pushOwn_mp (e : Engine) (f : Flit) : (pushOwn e f).mp = e.mp := rfl
@[simp] theorem pushOwn_fences (e : Engine) (f : Flit) : (pushOwn e f).fences = e.fences := rfl
@[simp] theorem pushOwn_boot (e : Engine) (f : Flit) : (pushOwn e f).boot = e.boot := rfl
@[simp] theorem pushOwn_fwp (e : Engine) (f : Flit) : (pushOwn e f).fwp = e.fwp := rfl
@[simp] theorem pushOwn_mbx (e : Engine) (f : Flit) : (pushOwn e f).mbx = e.mbx := rfl
@[simp] theorem pushOwn_log (e : Engine) (f : Flit) : (pushOwn e f).log = e.log := rfl
@[simp] theorem pushOwn_sch (e : Engine) (f : Flit) : (pushOwn e f).sch = e.sch := rfl
@[simp] theorem pushOwn_combs (e : Engine) (f : Flit) : (pushOwn e f).combs = e.combs := rfl
@[simp] theorem pushOwn_hf (e : Engine) (f : Flit) : (pushOwn e f).hf = e.hf := rfl
@[simp] theorem pushOwn_cap (e : Engine) (f : Flit) : (pushOwn e f).cap = e.cap := rfl
@[simp] theorem pushOwn_pwr (e : Engine) (f : Flit) : (pushOwn e f).pwr = e.pwr := rfl
@[simp] theorem pushOwn_sb (e : Engine) (f : Flit) : (pushOwn e f).sb = e.sb := rfl
@[simp] theorem pushOwn_tap (e : Engine) (f : Flit) : (pushOwn e f).tap = e.tap := rfl

/-! ### pushCtl -/

@[simp] theorem pushCtl_hub (e : Engine) (f : Flit) (p : PortId) : (pushCtl e f p).hub = e.hub := rfl
@[simp] theorem pushCtl_rw (e : Engine) (f : Flit) (p : PortId) : (pushCtl e f p).rw = e.rw := rfl
@[simp] theorem pushCtl_ctr (e : Engine) (f : Flit) (p : PortId) : (pushCtl e f p).ctr = e.ctr := rfl
@[simp] theorem pushCtl_mp (e : Engine) (f : Flit) (p : PortId) : (pushCtl e f p).mp = e.mp := rfl
@[simp] theorem pushCtl_fences (e : Engine) (f : Flit) (p : PortId) : (pushCtl e f p).fences = e.fences := rfl
@[simp] theorem pushCtl_boot (e : Engine) (f : Flit) (p : PortId) : (pushCtl e f p).boot = e.boot := rfl
@[simp] theorem pushCtl_fwp (e : Engine) (f : Flit) (p : PortId) : (pushCtl e f p).fwp = e.fwp := rfl
@[simp] theorem pushCtl_mbx (e : Engine) (f : Flit) (p : PortId) : (pushCtl e f p).mbx = e.mbx := rfl
@[simp] theorem pushCtl_log (e : Engine) (f : Flit) (p : PortId) : (pushCtl e f p).log = e.log := rfl
@[simp] theorem pushCtl_sch (e : Engine) (f : Flit) (p : PortId) : (pushCtl e f p).sch = e.sch := rfl
@[simp] theorem pushCtl_combs (e : Engine) (f : Flit) (p : PortId) : (pushCtl e f p).combs = e.combs := rfl
@[simp] theorem pushCtl_hf (e : Engine) (f : Flit) (p : PortId) : (pushCtl e f p).hf = e.hf := rfl
@[simp] theorem pushCtl_cap (e : Engine) (f : Flit) (p : PortId) : (pushCtl e f p).cap = e.cap := rfl
@[simp] theorem pushCtl_pwr (e : Engine) (f : Flit) (p : PortId) : (pushCtl e f p).pwr = e.pwr := rfl
@[simp] theorem pushCtl_sb (e : Engine) (f : Flit) (p : PortId) : (pushCtl e f p).sb = e.sb := rfl
@[simp] theorem pushCtl_tap (e : Engine) (f : Flit) (p : PortId) : (pushCtl e f p).tap = e.tap := rfl

/-! ### onProc -/

@[simp] theorem onProc_hub (e : Engine) (p : Nat) (f : Proc → Proc) : (onProc e p f).hub = e.hub := rfl
@[simp] theorem onProc_rw (e : Engine) (p : Nat) (f : Proc → Proc) : (onProc e p f).rw = e.rw := rfl
@[simp] theorem onProc_ctr (e : Engine) (p : Nat) (f : Proc → Proc) : (onProc e p f).ctr = e.ctr := rfl
@[simp] theorem onProc_mp (e : Engine) (p : Nat) (f : Proc → Proc) : (onProc e p f).mp = e.mp := rfl
@[simp] theorem onProc_fences (e : Engine) (p : Nat) (f : Proc → Proc) : (onProc e p f).fences = e.fences := rfl
@[simp] theorem onProc_boot (e : Engine) (p : Nat) (f : Proc → Proc) : (onProc e p f).boot = e.boot := rfl
@[simp] theorem onProc_mbx (e : Engine) (p : Nat) (f : Proc → Proc) : (onProc e p f).mbx = e.mbx := rfl
@[simp] theorem onProc_log (e : Engine) (p : Nat) (f : Proc → Proc) : (onProc e p f).log = e.log := rfl
@[simp] theorem onProc_sch (e : Engine) (p : Nat) (f : Proc → Proc) : (onProc e p f).sch = e.sch := rfl
@[simp] theorem onProc_combs (e : Engine) (p : Nat) (f : Proc → Proc) : (onProc e p f).combs = e.combs := rfl
@[simp] theorem onProc_hf (e : Engine) (p : Nat) (f : Proc → Proc) : (onProc e p f).hf = e.hf := rfl
@[simp] theorem onProc_cap (e : Engine) (p : Nat) (f : Proc → Proc) : (onProc e p f).cap = e.cap := rfl
@[simp] theorem onProc_lnk (e : Engine) (p : Nat) (f : Proc → Proc) : (onProc e p f).lnk = e.lnk := rfl
@[simp] theorem onProc_pwr (e : Engine) (p : Nat) (f : Proc → Proc) : (onProc e p f).pwr = e.pwr := rfl
@[simp] theorem onProc_sb (e : Engine) (p : Nat) (f : Proc → Proc) : (onProc e p f).sb = e.sb := rfl
@[simp] theorem onProc_tap (e : Engine) (p : Nat) (f : Proc → Proc) : (onProc e p f).tap = e.tap := rfl

/-! ### setCtr -/

@[simp] theorem setCtr_hub (e : Engine) (c : Ctr) (v : Nat) : (setCtr e c v).hub = e.hub := rfl
@[simp] theorem setCtr_rw (e : Engine) (c : Ctr) (v : Nat) : (setCtr e c v).rw = e.rw := rfl
@[simp] theorem setCtr_mp (e : Engine) (c : Ctr) (v : Nat) : (setCtr e c v).mp = e.mp := rfl
@[simp] theorem setCtr_fences (e : Engine) (c : Ctr) (v : Nat) : (setCtr e c v).fences = e.fences := rfl
@[simp] theorem setCtr_boot (e : Engine) (c : Ctr) (v : Nat) : (setCtr e c v).boot = e.boot := rfl
@[simp] theorem setCtr_fwp (e : Engine) (c : Ctr) (v : Nat) : (setCtr e c v).fwp = e.fwp := rfl
@[simp] theorem setCtr_mbx (e : Engine) (c : Ctr) (v : Nat) : (setCtr e c v).mbx = e.mbx := rfl
@[simp] theorem setCtr_log (e : Engine) (c : Ctr) (v : Nat) : (setCtr e c v).log = e.log := rfl
@[simp] theorem setCtr_sch (e : Engine) (c : Ctr) (v : Nat) : (setCtr e c v).sch = e.sch := rfl
@[simp] theorem setCtr_combs (e : Engine) (c : Ctr) (v : Nat) : (setCtr e c v).combs = e.combs := rfl
@[simp] theorem setCtr_hf (e : Engine) (c : Ctr) (v : Nat) : (setCtr e c v).hf = e.hf := rfl
@[simp] theorem setCtr_cap (e : Engine) (c : Ctr) (v : Nat) : (setCtr e c v).cap = e.cap := rfl
@[simp] theorem setCtr_lnk (e : Engine) (c : Ctr) (v : Nat) : (setCtr e c v).lnk = e.lnk := rfl
@[simp] theorem setCtr_pwr (e : Engine) (c : Ctr) (v : Nat) : (setCtr e c v).pwr = e.pwr := rfl
@[simp] theorem setCtr_sb (e : Engine) (c : Ctr) (v : Nat) : (setCtr e c v).sb = e.sb := rfl
@[simp] theorem setCtr_tap (e : Engine) (c : Ctr) (v : Nat) : (setCtr e c v).tap = e.tap := rfl

/-! ### setRw -/

@[simp] theorem setRw_hub (e : Engine) (r : RegName) (v : Nat) : (setRw e r v).hub = e.hub := rfl
@[simp] theorem setRw_ctr (e : Engine) (r : RegName) (v : Nat) : (setRw e r v).ctr = e.ctr := rfl
@[simp] theorem setRw_mp (e : Engine) (r : RegName) (v : Nat) : (setRw e r v).mp = e.mp := rfl
@[simp] theorem setRw_fences (e : Engine) (r : RegName) (v : Nat) : (setRw e r v).fences = e.fences := rfl
@[simp] theorem setRw_boot (e : Engine) (r : RegName) (v : Nat) : (setRw e r v).boot = e.boot := rfl
@[simp] theorem setRw_fwp (e : Engine) (r : RegName) (v : Nat) : (setRw e r v).fwp = e.fwp := rfl
@[simp] theorem setRw_mbx (e : Engine) (r : RegName) (v : Nat) : (setRw e r v).mbx = e.mbx := rfl
@[simp] theorem setRw_log (e : Engine) (r : RegName) (v : Nat) : (setRw e r v).log = e.log := rfl
@[simp] theorem setRw_sch (e : Engine) (r : RegName) (v : Nat) : (setRw e r v).sch = e.sch := rfl
@[simp] theorem setRw_combs (e : Engine) (r : RegName) (v : Nat) : (setRw e r v).combs = e.combs := rfl
@[simp] theorem setRw_hf (e : Engine) (r : RegName) (v : Nat) : (setRw e r v).hf = e.hf := rfl
@[simp] theorem setRw_cap (e : Engine) (r : RegName) (v : Nat) : (setRw e r v).cap = e.cap := rfl
@[simp] theorem setRw_lnk (e : Engine) (r : RegName) (v : Nat) : (setRw e r v).lnk = e.lnk := rfl
@[simp] theorem setRw_pwr (e : Engine) (r : RegName) (v : Nat) : (setRw e r v).pwr = e.pwr := rfl
@[simp] theorem setRw_sb (e : Engine) (r : RegName) (v : Nat) : (setRw e r v).sb = e.sb := rfl
@[simp] theorem setRw_tap (e : Engine) (r : RegName) (v : Nat) : (setRw e r v).tap = e.tap := rfl

/-! ### raiseErr -/

@[simp] theorem raiseErr_rw (e : Engine) (b : Nat) : (raiseErr e b).rw = e.rw := rfl
@[simp] theorem raiseErr_ctr (e : Engine) (b : Nat) : (raiseErr e b).ctr = e.ctr := rfl
@[simp] theorem raiseErr_mp (e : Engine) (b : Nat) : (raiseErr e b).mp = e.mp := rfl
@[simp] theorem raiseErr_fences (e : Engine) (b : Nat) : (raiseErr e b).fences = e.fences := rfl
@[simp] theorem raiseErr_boot (e : Engine) (b : Nat) : (raiseErr e b).boot = e.boot := rfl
@[simp] theorem raiseErr_fwp (e : Engine) (b : Nat) : (raiseErr e b).fwp = e.fwp := rfl
@[simp] theorem raiseErr_mbx (e : Engine) (b : Nat) : (raiseErr e b).mbx = e.mbx := rfl
@[simp] theorem raiseErr_log (e : Engine) (b : Nat) : (raiseErr e b).log = e.log := rfl
@[simp] theorem raiseErr_sch (e : Engine) (b : Nat) : (raiseErr e b).sch = e.sch := rfl
@[simp] theorem raiseErr_combs (e : Engine) (b : Nat) : (raiseErr e b).combs = e.combs := rfl
@[simp] theorem raiseErr_hf (e : Engine) (b : Nat) : (raiseErr e b).hf = e.hf := rfl
@[simp] theorem raiseErr_cap (e : Engine) (b : Nat) : (raiseErr e b).cap = e.cap := rfl
@[simp] theorem raiseErr_lnk (e : Engine) (b : Nat) : (raiseErr e b).lnk = e.lnk := rfl
@[simp] theorem raiseErr_pwr (e : Engine) (b : Nat) : (raiseErr e b).pwr = e.pwr := rfl
@[simp] theorem raiseErr_sb (e : Engine) (b : Nat) : (raiseErr e b).sb = e.sb := rfl
@[simp] theorem raiseErr_tap (e : Engine) (b : Nat) : (raiseErr e b).tap = e.tap := rfl

/-! ### sendLine -/

@[simp] theorem sendLine_hub (e : Engine) (w : Writer) (l : Nat) (bs : List (Nat × Byte)) (p : Bool) : (sendLine e w l bs p).hub = e.hub := rfl
@[simp] theorem sendLine_rw (e : Engine) (w : Writer) (l : Nat) (bs : List (Nat × Byte)) (p : Bool) : (sendLine e w l bs p).rw = e.rw := rfl
@[simp] theorem sendLine_ctr (e : Engine) (w : Writer) (l : Nat) (bs : List (Nat × Byte)) (p : Bool) : (sendLine e w l bs p).ctr = e.ctr := rfl
@[simp] theorem sendLine_fences (e : Engine) (w : Writer) (l : Nat) (bs : List (Nat × Byte)) (p : Bool) : (sendLine e w l bs p).fences = e.fences := rfl
@[simp] theorem sendLine_boot (e : Engine) (w : Writer) (l : Nat) (bs : List (Nat × Byte)) (p : Bool) : (sendLine e w l bs p).boot = e.boot := rfl
@[simp] theorem sendLine_fwp (e : Engine) (w : Writer) (l : Nat) (bs : List (Nat × Byte)) (p : Bool) : (sendLine e w l bs p).fwp = e.fwp := rfl
@[simp] theorem sendLine_mbx (e : Engine) (w : Writer) (l : Nat) (bs : List (Nat × Byte)) (p : Bool) : (sendLine e w l bs p).mbx = e.mbx := rfl
@[simp] theorem sendLine_log (e : Engine) (w : Writer) (l : Nat) (bs : List (Nat × Byte)) (p : Bool) : (sendLine e w l bs p).log = e.log := rfl
@[simp] theorem sendLine_sch (e : Engine) (w : Writer) (l : Nat) (bs : List (Nat × Byte)) (p : Bool) : (sendLine e w l bs p).sch = e.sch := rfl
@[simp] theorem sendLine_combs (e : Engine) (w : Writer) (l : Nat) (bs : List (Nat × Byte)) (p : Bool) : (sendLine e w l bs p).combs = e.combs := rfl
@[simp] theorem sendLine_hf (e : Engine) (w : Writer) (l : Nat) (bs : List (Nat × Byte)) (p : Bool) : (sendLine e w l bs p).hf = e.hf := rfl
@[simp] theorem sendLine_cap (e : Engine) (w : Writer) (l : Nat) (bs : List (Nat × Byte)) (p : Bool) : (sendLine e w l bs p).cap = e.cap := rfl
@[simp] theorem sendLine_lnk (e : Engine) (w : Writer) (l : Nat) (bs : List (Nat × Byte)) (p : Bool) : (sendLine e w l bs p).lnk = e.lnk := rfl
@[simp] theorem sendLine_pwr (e : Engine) (w : Writer) (l : Nat) (bs : List (Nat × Byte)) (p : Bool) : (sendLine e w l bs p).pwr = e.pwr := rfl
@[simp] theorem sendLine_sb (e : Engine) (w : Writer) (l : Nat) (bs : List (Nat × Byte)) (p : Bool) : (sendLine e w l bs p).sb = e.sb := rfl
@[simp] theorem sendLine_tap (e : Engine) (w : Writer) (l : Nat) (bs : List (Nat × Byte)) (p : Bool) : (sendLine e w l bs p).tap = e.tap := rfl

/-! ### thermEvent -/

@[simp] theorem thermEvent_hub (e : Engine) (b : Nat) : (thermEvent e b).hub = e.hub := rfl
@[simp] theorem thermEvent_rw (e : Engine) (b : Nat) : (thermEvent e b).rw = e.rw := rfl
@[simp] theorem thermEvent_ctr (e : Engine) (b : Nat) : (thermEvent e b).ctr = e.ctr := rfl
@[simp] theorem thermEvent_mp (e : Engine) (b : Nat) : (thermEvent e b).mp = e.mp := rfl
@[simp] theorem thermEvent_fences (e : Engine) (b : Nat) : (thermEvent e b).fences = e.fences := rfl
@[simp] theorem thermEvent_boot (e : Engine) (b : Nat) : (thermEvent e b).boot = e.boot := rfl
@[simp] theorem thermEvent_fwp (e : Engine) (b : Nat) : (thermEvent e b).fwp = e.fwp := rfl
@[simp] theorem thermEvent_mbx (e : Engine) (b : Nat) : (thermEvent e b).mbx = e.mbx := rfl
@[simp] theorem thermEvent_log (e : Engine) (b : Nat) : (thermEvent e b).log = e.log := rfl
@[simp] theorem thermEvent_sch (e : Engine) (b : Nat) : (thermEvent e b).sch = e.sch := rfl
@[simp] theorem thermEvent_combs (e : Engine) (b : Nat) : (thermEvent e b).combs = e.combs := rfl
@[simp] theorem thermEvent_hf (e : Engine) (b : Nat) : (thermEvent e b).hf = e.hf := rfl
@[simp] theorem thermEvent_cap (e : Engine) (b : Nat) : (thermEvent e b).cap = e.cap := rfl
@[simp] theorem thermEvent_lnk (e : Engine) (b : Nat) : (thermEvent e b).lnk = e.lnk := rfl
@[simp] theorem thermEvent_sb (e : Engine) (b : Nat) : (thermEvent e b).sb = e.sb := rfl
@[simp] theorem thermEvent_tap (e : Engine) (b : Nat) : (thermEvent e b).tap = e.tap := rfl

/-! ### applyVid -/

@[simp] theorem applyVid_hub (e : Engine) (v : Nat) : (applyVid e v).hub = e.hub := rfl
@[simp] theorem applyVid_rw (e : Engine) (v : Nat) : (applyVid e v).rw = e.rw := rfl
@[simp] theorem applyVid_ctr (e : Engine) (v : Nat) : (applyVid e v).ctr = e.ctr := rfl
@[simp] theorem applyVid_mp (e : Engine) (v : Nat) : (applyVid e v).mp = e.mp := rfl
@[simp] theorem applyVid_fences (e : Engine) (v : Nat) : (applyVid e v).fences = e.fences := rfl
@[simp] theorem applyVid_boot (e : Engine) (v : Nat) : (applyVid e v).boot = e.boot := rfl
@[simp] theorem applyVid_fwp (e : Engine) (v : Nat) : (applyVid e v).fwp = e.fwp := rfl
@[simp] theorem applyVid_mbx (e : Engine) (v : Nat) : (applyVid e v).mbx = e.mbx := rfl
@[simp] theorem applyVid_log (e : Engine) (v : Nat) : (applyVid e v).log = e.log := rfl
@[simp] theorem applyVid_sch (e : Engine) (v : Nat) : (applyVid e v).sch = e.sch := rfl
@[simp] theorem applyVid_combs (e : Engine) (v : Nat) : (applyVid e v).combs = e.combs := rfl
@[simp] theorem applyVid_hf (e : Engine) (v : Nat) : (applyVid e v).hf = e.hf := rfl
@[simp] theorem applyVid_cap (e : Engine) (v : Nat) : (applyVid e v).cap = e.cap := rfl
@[simp] theorem applyVid_lnk (e : Engine) (v : Nat) : (applyVid e v).lnk = e.lnk := rfl
@[simp] theorem applyVid_sb (e : Engine) (v : Nat) : (applyVid e v).sb = e.sb := rfl
@[simp] theorem applyVid_tap (e : Engine) (v : Nat) : (applyVid e v).tap = e.tap := rfl

/-! ### driveVid -/

@[simp] theorem driveVid_hub (e : Engine) (v : Nat) : (driveVid e v).hub = e.hub := rfl
@[simp] theorem driveVid_rw (e : Engine) (v : Nat) : (driveVid e v).rw = e.rw := rfl
@[simp] theorem driveVid_ctr (e : Engine) (v : Nat) : (driveVid e v).ctr = e.ctr := rfl
@[simp] theorem driveVid_mp (e : Engine) (v : Nat) : (driveVid e v).mp = e.mp := rfl
@[simp] theorem driveVid_fences (e : Engine) (v : Nat) : (driveVid e v).fences = e.fences := rfl
@[simp] theorem driveVid_boot (e : Engine) (v : Nat) : (driveVid e v).boot = e.boot := rfl
@[simp] theorem driveVid_fwp (e : Engine) (v : Nat) : (driveVid e v).fwp = e.fwp := rfl
@[simp] theorem driveVid_mbx (e : Engine) (v : Nat) : (driveVid e v).mbx = e.mbx := rfl
@[simp] theorem driveVid_log (e : Engine) (v : Nat) : (driveVid e v).log = e.log := rfl
@[simp] theorem driveVid_sch (e : Engine) (v : Nat) : (driveVid e v).sch = e.sch := rfl
@[simp] theorem driveVid_combs (e : Engine) (v : Nat) : (driveVid e v).combs = e.combs := rfl
@[simp] theorem driveVid_hf (e : Engine) (v : Nat) : (driveVid e v).hf = e.hf := rfl
@[simp] theorem driveVid_cap (e : Engine) (v : Nat) : (driveVid e v).cap = e.cap := rfl
@[simp] theorem driveVid_lnk (e : Engine) (v : Nat) : (driveVid e v).lnk = e.lnk := rfl
@[simp] theorem driveVid_sb (e : Engine) (v : Nat) : (driveVid e v).sb = e.sb := rfl
@[simp] theorem driveVid_tap (e : Engine) (v : Nat) : (driveVid e v).tap = e.tap := rfl

/-! ### fwMark -/

@[simp] theorem fwMark_rw (e : Engine) (r : RegName) : (fwMark e r).rw = e.rw := rfl
@[simp] theorem fwMark_ctr (e : Engine) (r : RegName) : (fwMark e r).ctr = e.ctr := rfl
@[simp] theorem fwMark_mp (e : Engine) (r : RegName) : (fwMark e r).mp = e.mp := rfl
@[simp] theorem fwMark_fences (e : Engine) (r : RegName) : (fwMark e r).fences = e.fences := rfl
@[simp] theorem fwMark_boot (e : Engine) (r : RegName) : (fwMark e r).boot = e.boot := rfl
@[simp] theorem fwMark_fwp (e : Engine) (r : RegName) : (fwMark e r).fwp = e.fwp := rfl
@[simp] theorem fwMark_mbx (e : Engine) (r : RegName) : (fwMark e r).mbx = e.mbx := rfl
@[simp] theorem fwMark_log (e : Engine) (r : RegName) : (fwMark e r).log = e.log := rfl
@[simp] theorem fwMark_sch (e : Engine) (r : RegName) : (fwMark e r).sch = e.sch := rfl
@[simp] theorem fwMark_combs (e : Engine) (r : RegName) : (fwMark e r).combs = e.combs := rfl
@[simp] theorem fwMark_hf (e : Engine) (r : RegName) : (fwMark e r).hf = e.hf := rfl
@[simp] theorem fwMark_cap (e : Engine) (r : RegName) : (fwMark e r).cap = e.cap := rfl
@[simp] theorem fwMark_lnk (e : Engine) (r : RegName) : (fwMark e r).lnk = e.lnk := rfl
@[simp] theorem fwMark_pwr (e : Engine) (r : RegName) : (fwMark e r).pwr = e.pwr := rfl
@[simp] theorem fwMark_sb (e : Engine) (r : RegName) : (fwMark e r).sb = e.sb := rfl
@[simp] theorem fwMark_tap (e : Engine) (r : RegName) : (fwMark e r).tap = e.tap := rfl

/-! ### fillResponses -/

@[simp] theorem fillResponses_hub (e : Engine) : (fillResponses e).hub = e.hub := rfl
@[simp] theorem fillResponses_rw (e : Engine) : (fillResponses e).rw = e.rw := rfl
@[simp] theorem fillResponses_ctr (e : Engine) : (fillResponses e).ctr = e.ctr := rfl
@[simp] theorem fillResponses_mp (e : Engine) : (fillResponses e).mp = e.mp := rfl
@[simp] theorem fillResponses_fences (e : Engine) : (fillResponses e).fences = e.fences := rfl
@[simp] theorem fillResponses_boot (e : Engine) : (fillResponses e).boot = e.boot := rfl
@[simp] theorem fillResponses_fwp (e : Engine) : (fillResponses e).fwp = e.fwp := rfl
@[simp] theorem fillResponses_log (e : Engine) : (fillResponses e).log = e.log := rfl
@[simp] theorem fillResponses_sch (e : Engine) : (fillResponses e).sch = e.sch := rfl
@[simp] theorem fillResponses_combs (e : Engine) : (fillResponses e).combs = e.combs := rfl
@[simp] theorem fillResponses_hf (e : Engine) : (fillResponses e).hf = e.hf := rfl
@[simp] theorem fillResponses_cap (e : Engine) : (fillResponses e).cap = e.cap := rfl
@[simp] theorem fillResponses_lnk (e : Engine) : (fillResponses e).lnk = e.lnk := rfl
@[simp] theorem fillResponses_pwr (e : Engine) : (fillResponses e).pwr = e.pwr := rfl
@[simp] theorem fillResponses_sb (e : Engine) : (fillResponses e).sb = e.sb := rfl
@[simp] theorem fillResponses_tap (e : Engine) : (fillResponses e).tap = e.tap := rfl

/-! ### applyStep -/

@[simp] theorem applyStep_hub (e : Engine) (n : Nat) : (applyStep e n).hub = e.hub := rfl
@[simp] theorem applyStep_rw (e : Engine) (n : Nat) : (applyStep e n).rw = e.rw := rfl
@[simp] theorem applyStep_ctr (e : Engine) (n : Nat) : (applyStep e n).ctr = e.ctr := rfl
@[simp] theorem applyStep_mp (e : Engine) (n : Nat) : (applyStep e n).mp = e.mp := rfl
@[simp] theorem applyStep_fences (e : Engine) (n : Nat) : (applyStep e n).fences = e.fences := rfl
@[simp] theorem applyStep_boot (e : Engine) (n : Nat) : (applyStep e n).boot = e.boot := rfl
@[simp] theorem applyStep_fwp (e : Engine) (n : Nat) : (applyStep e n).fwp = e.fwp := rfl
@[simp] theorem applyStep_mbx (e : Engine) (n : Nat) : (applyStep e n).mbx = e.mbx := rfl
@[simp] theorem applyStep_log (e : Engine) (n : Nat) : (applyStep e n).log = e.log := rfl
@[simp] theorem applyStep_sch (e : Engine) (n : Nat) : (applyStep e n).sch = e.sch := rfl
@[simp] theorem applyStep_combs (e : Engine) (n : Nat) : (applyStep e n).combs = e.combs := rfl
@[simp] theorem applyStep_hf (e : Engine) (n : Nat) : (applyStep e n).hf = e.hf := rfl
@[simp] theorem applyStep_cap (e : Engine) (n : Nat) : (applyStep e n).cap = e.cap := rfl
@[simp] theorem applyStep_lnk (e : Engine) (n : Nat) : (applyStep e n).lnk = e.lnk := rfl
@[simp] theorem applyStep_sb (e : Engine) (n : Nat) : (applyStep e n).sb = e.sb := rfl
@[simp] theorem applyStep_tap (e : Engine) (n : Nat) : (applyStep e n).tap = e.tap := rfl

/-! ### tapLoad -/

@[simp] theorem tapLoad_hub (e : Engine) (ir : Byte) (dr : Nat) : (tapLoad e ir dr).hub = e.hub := by simp only [tapLoad]
@[simp] theorem tapLoad_rw (e : Engine) (ir : Byte) (dr : Nat) : (tapLoad e ir dr).rw = e.rw := by simp only [tapLoad]
@[simp] theorem tapLoad_ctr (e : Engine) (ir : Byte) (dr : Nat) : (tapLoad e ir dr).ctr = e.ctr := by simp only [tapLoad]
@[simp] theorem tapLoad_mp (e : Engine) (ir : Byte) (dr : Nat) : (tapLoad e ir dr).mp = e.mp := by simp only [tapLoad]
@[simp] theorem tapLoad_fences (e : Engine) (ir : Byte) (dr : Nat) : (tapLoad e ir dr).fences = e.fences := by simp only [tapLoad]
@[simp] theorem tapLoad_boot (e : Engine) (ir : Byte) (dr : Nat) : (tapLoad e ir dr).boot = e.boot := by simp only [tapLoad]
@[simp] theorem tapLoad_fwp (e : Engine) (ir : Byte) (dr : Nat) : (tapLoad e ir dr).fwp = e.fwp := by simp only [tapLoad]
@[simp] theorem tapLoad_mbx (e : Engine) (ir : Byte) (dr : Nat) : (tapLoad e ir dr).mbx = e.mbx := by simp only [tapLoad]
@[simp] theorem tapLoad_log (e : Engine) (ir : Byte) (dr : Nat) : (tapLoad e ir dr).log = e.log := by simp only [tapLoad]
@[simp] theorem tapLoad_sch (e : Engine) (ir : Byte) (dr : Nat) : (tapLoad e ir dr).sch = e.sch := by simp only [tapLoad]
@[simp] theorem tapLoad_combs (e : Engine) (ir : Byte) (dr : Nat) : (tapLoad e ir dr).combs = e.combs := by simp only [tapLoad]
@[simp] theorem tapLoad_hf (e : Engine) (ir : Byte) (dr : Nat) : (tapLoad e ir dr).hf = e.hf := by simp only [tapLoad]
@[simp] theorem tapLoad_cap (e : Engine) (ir : Byte) (dr : Nat) : (tapLoad e ir dr).cap = e.cap := by simp only [tapLoad]
@[simp] theorem tapLoad_lnk (e : Engine) (ir : Byte) (dr : Nat) : (tapLoad e ir dr).lnk = e.lnk := by simp only [tapLoad]
@[simp] theorem tapLoad_pwr (e : Engine) (ir : Byte) (dr : Nat) : (tapLoad e ir dr).pwr = e.pwr := by simp only [tapLoad]
@[simp] theorem tapLoad_sb (e : Engine) (ir : Byte) (dr : Nat) : (tapLoad e ir dr).sb = e.sb := by simp only [tapLoad]

/-! ### rearmErr -/

@[simp] theorem rearmErr_rw (e : Engine) : (rearmErr e).rw = e.rw := rfl
@[simp] theorem rearmErr_ctr (e : Engine) : (rearmErr e).ctr = e.ctr := rfl
@[simp] theorem rearmErr_mp (e : Engine) : (rearmErr e).mp = e.mp := rfl
@[simp] theorem rearmErr_fences (e : Engine) : (rearmErr e).fences = e.fences := rfl
@[simp] theorem rearmErr_boot (e : Engine) : (rearmErr e).boot = e.boot := rfl
@[simp] theorem rearmErr_fwp (e : Engine) : (rearmErr e).fwp = e.fwp := rfl
@[simp] theorem rearmErr_mbx (e : Engine) : (rearmErr e).mbx = e.mbx := rfl
@[simp] theorem rearmErr_log (e : Engine) : (rearmErr e).log = e.log := rfl
@[simp] theorem rearmErr_sch (e : Engine) : (rearmErr e).sch = e.sch := rfl
@[simp] theorem rearmErr_combs (e : Engine) : (rearmErr e).combs = e.combs := rfl
@[simp] theorem rearmErr_hf (e : Engine) : (rearmErr e).hf = e.hf := rfl
@[simp] theorem rearmErr_cap (e : Engine) : (rearmErr e).cap = e.cap := rfl
@[simp] theorem rearmErr_lnk (e : Engine) : (rearmErr e).lnk = e.lnk := rfl
@[simp] theorem rearmErr_pwr (e : Engine) : (rearmErr e).pwr = e.pwr := rfl
@[simp] theorem rearmErr_sb (e : Engine) : (rearmErr e).sb = e.sb := rfl
@[simp] theorem rearmErr_tap (e : Engine) : (rearmErr e).tap = e.tap := rfl

end Sys2Proof.Machine
end

