-- ==== Sys2Proof/Laws/Ops.lean ====
section
/-! SUPPORT. Laws/Ops.lean: for each shared operation, once, all that it can do: indexed parts, counters, registers, writes by their
source, events, messages. -/

namespace Sys2Proof.Machine

/-! ### Indexed parts -/

theorem combOf_onComb_self {e : Engine} {c : CombId} (f : Comb → Comb) (h : c.val < e.combs.length) :
    combOf (onComb e c f) c = f (combOf e c) := by
  simp [combOf, onComb, updAt_getElem?, List.getElem?_eq_getElem h]

theorem combOf_onComb_ne {e : Engine} {c d : CombId} (f : Comb → Comb) (h : d ≠ c) : combOf (onComb e c f) d = combOf e d := by
  simp [combOf, onComb, updAt_getElem?, Fin.val_ne_of_ne (Ne.symm h)]

theorem frameOf_onFrame_self {e : Engine} {c : CombId} {f : FrameId} (g : Frame → Frame) (hc : c.val < e.combs.length)
    (hf : f.val < (combOf e c).frames.length) : frameOf (onFrame e c f g) c f = g (frameOf e c f) := by
  simp [frameOf, onFrame, combOf_onComb_self _ hc, updAt_getElem?, List.getElem?_eq_getElem hf]

theorem islandOf_onIsland_self {e : Engine} {i : Nat} (f : Island → Island) (h : i < e.pwr.islands.length) :
    islandOf (onIsland e i f) i = f (islandOf e i) := by
  simp [islandOf, onIsland, updAt_getElem?, List.getElem?_eq_getElem h]

theorem islandOf_onIsland_ne {e : Engine} {i j : Nat} (f : Island → Island) (h : j ≠ i) :
    islandOf (onIsland e i f) j = islandOf e j := by
  simp [islandOf, onIsland, updAt_getElem?, Ne.symm h]

theorem portOf_onPort_self {e : Engine} {p : PortId} (f : Port → Port) (h : p.val < e.lnk.ports.length) :
    portOf (onPort e p f) p = f (portOf e p) := by
  simp [portOf, onPort, updAt_getElem?, List.getElem?_eq_getElem h]

theorem portOf_onPort_ne {e : Engine} {p q : PortId} (f : Port → Port) (h : q ≠ p) : portOf (onPort e p f) q = portOf e q := by
  simp [portOf, onPort, updAt_getElem?, Fin.val_ne_of_ne (Ne.symm h)]

theorem procOf_onProc_self {e : Engine} {p : Nat} (f : Proc → Proc) (h : p < e.fwp.procs.length) :
    procOf (onProc e p f) p = f (procOf e p) := by
  simp [procOf, onProc, updAt_getElem?, List.getElem?_eq_getElem h]

theorem procOf_onProc_ne {e : Engine} {p q : Nat} (f : Proc → Proc) (h : q ≠ p) : procOf (onProc e p f) q = procOf e q := by
  simp [procOf, onProc, updAt_getElem?, Ne.symm h]

@[simp] theorem onComb_combs_length (e : Engine) (c : CombId) (f : Comb → Comb) :
    (onComb e c f).combs.length = e.combs.length := by simp [onComb]

@[simp] theorem onIsland_islands_length (e : Engine) (i : Nat) (f : Island → Island) :
    (onIsland e i f).pwr.islands.length = e.pwr.islands.length := by simp [onIsland]

@[simp] theorem onPort_ports_length (e : Engine) (p : PortId) (f : Port → Port) :
    (onPort e p f).lnk.ports.length = e.lnk.ports.length := by simp [onPort]

/-! ### Counters and registers -/

/-- n events count, saturating; other counters and everything else stay. -/
theorem bump_spec (e : Engine) (c : Ctr) (n : Nat) :
    ctrVal (bump e c n) c = (if n = 0 then ctrVal e c else min (ctrMax c) (ctrVal e c + n)) ∧
    (∀ k, k ≠ c → ctrVal (bump e c n) k = ctrVal e k) ∧ bump e c n = { e with ctr := (bump e c n).ctr } := by
  by_cases h : n = 0
  · simp [bump, h]
  · refine ⟨by simp [bump, h, setCtr, ctrVal], fun k hk => ?_, by simp [bump, h, setCtr]⟩
    simp [bump, h, setCtr, ctrVal, lookupD_assign_ne _ _ _ hk]

theorem ctrVal_setCtr_self (e : Engine) (c : Ctr) (v : Nat) : ctrVal (setCtr e c v) c = v := by simp [ctrVal, setCtr]

theorem ctrVal_setCtr_ne (e : Engine) {c k : Ctr} (v : Nat) (h : k ≠ c) : ctrVal (setCtr e c v) k = ctrVal e k := by
  simp [ctrVal, setCtr, lookupD_assign_ne _ _ _ h]

theorem rwVal_setRw_self (e : Engine) (r : RegName) (v : Nat) : rwVal (setRw e r v) r = Nat.land v (rwMask r) % 2 ^ 32 := by
  simp only [rwVal, setRw, w32, lookupD_assign_self]
  exact BitVec.toNat_ofNat _ _

theorem rwVal_setRw_ne (e : Engine) {r q : RegName} (v : Nat) (h : q ≠ r) : rwVal (setRw e r v) q = rwVal e q := by
  simp [rwVal, setRw, lookupD_assign_ne _ _ _ h]

/-! ### Writes by their source -/

/-- A write that reaches its island has its effect, and leaves the queue (R442, R448). -/
theorem bySource_presents {s : State} {src : WriteSrc} {r : RegName} {v : Word} (f : Word → Engine → Engine)
    (hu : HubUp s.eng) (hp : Presents s src r v) : bySource s src r f = afterWrite s src (f v s.eng) := by
  obtain ⟨hl, ha⟩ := hu
  cases src with
  | posted =>
    obtain ⟨p, ps, h1, h2, h3, h4⟩ := hp
    simp [bySource, hl, ha, h1, h2, h3, takenData, h4, afterWrite, restOf]
  | firmware w =>
    obtain ⟨h1, rfl⟩ := hp
    simp [bySource, hl, ha, h1, afterWrite, restOf]

/-- The same for writes that a row owns by their value. -/
theorem bySourceIf_presents {s : State} {src : WriteSrc} {r : RegName} {v : Word} {mine : Word → Bool}
    (f : Word → Engine → Engine) (hu : HubUp s.eng) (hp : Presents s src r v) (hm : mine v = true) :
    bySourceIf s src r mine f = afterWrite s src (f v s.eng) := by
  have h := bySource_presents f hu hp
  cases src with
  | posted =>
    obtain ⟨p, ps, h1, h2, h3, h4⟩ := hp
    simpa [bySourceIf, h1, h3, hm] using h
  | firmware w =>
    obtain ⟨h1, rfl⟩ := hp
    simpa [bySourceIf, hm] using h

/-- The state with a firmware write that waits for its turn (R448). -/
def waitsBehind (s : State) (r : RegName) (v : Word) : State := { s with posted := s.posted ++ [{ addr := 0, data := v, fw := some r }] }

/-- A firmware write that waits takes no entry of the posted-write queue. -/
@[simp] theorem portWrites_waitsBehind (s : State) (r : RegName) (v : Word) : portWrites (waitsBehind s r v).posted = portWrites s.posted := by
  simp [waitsBehind, portWrites, countIf]

/-- A write of a source does nothing, waits its turn, leaves the queue overtaken, or has its effect and leaves the queue; it never touches
memory or the commands. -/
theorem bySource_spec (s : State) (src : WriteSrc) (r : RegName) (f : Word → Engine → Engine) :
    bySource s src r f = s ∨ (∃ v, bySource s src r f = waitsBehind s r v) ∨ bySource s src r f = afterWrite s src s.eng ∨
      ∃ v, bySource s src r f = afterWrite s src (f v s.eng) := by
  unfold bySource
  split
  · exact Or.inl rfl
  · cases src with
    | firmware v =>
      simp only
      split
      · exact Or.inr (Or.inl ⟨v, rfl⟩)
      · exact Or.inr (Or.inr (Or.inr ⟨v, rfl⟩))
    | posted =>
      simp only
      split
      · exact Or.inl rfl
      · rename_i p ps h
        split
        · cases hd : takenData s.eng p r with
          | none => exact Or.inr (Or.inr (Or.inl (by simp [afterWrite, restOf, h])))
          | some d => exact Or.inr (Or.inr (Or.inr ⟨d, by simp [afterWrite, restOf, h]⟩))
        · exact Or.inl rfl

theorem bySourceIf_spec (s : State) (src : WriteSrc) (r : RegName) (mine : Word → Bool) (f : Word → Engine → Engine) :
    bySourceIf s src r mine f = s ∨ (∃ v, bySourceIf s src r mine f = waitsBehind s r v) ∨
      bySourceIf s src r mine f = afterWrite s src s.eng ∨ ∃ v, bySourceIf s src r mine f = afterWrite s src (f v s.eng) := by
  unfold bySourceIf
  cases src with
  | firmware v =>
    simp only
    split
    · exact bySource_spec s _ r f
    · exact Or.inl rfl
  | posted =>
    simp only
    split
    · exact Or.inl rfl
    · split
      · exact bySource_spec s _ r f
      · exact Or.inl rfl

/-! ### Events -/

/-- A request to stop changes only the running graph's stop (R315). -/
theorem askStop_spec (e : Engine) (code unit task : Nat) :
    (∀ g, e.sch.run = some g → g.stop = none → askStop e code unit task = { e with sch := { e.sch with
      run := some { g with stop := some code, stopUnit := BitVec.ofNat 8 unit, stopTask := task } } }) ∧
    (e.sch.run = none → askStop e code unit task = e) ∧
    (∀ g c, e.sch.run = some g → g.stop = some c → askStop e code unit task = e) := by
  refine ⟨fun g h1 h2 => ?_, fun h => ?_, fun g c h1 h2 => ?_⟩ <;> unfold askStop <;> simp only [*]

theorem askStop_frame (e : Engine) (code unit task : Nat) :
    askStop e code unit task = { e with sch := (askStop e code unit task).sch } := by
  unfold askStop
  split
  · rfl
  · split <;> rfl

/-- An event at a trace point adds at most one record to those on their way (R520, R523). -/
theorem logEvent_spec (e : Engine) (i t f : Nat) (bs : List Byte) : ∃ l : List LogRec,
    logEvent e i t f bs = { e with log := { e.log with inflight := e.log.inflight ++ l } } ∧
    (traceEnabled e t = true → l.map LogRec.traceId = [BitVec.ofNat 16 t]) ∧ (traceEnabled e t = false → l = []) := by
  unfold logEvent
  split
  · rename_i h; exact ⟨_, rfl, fun _ => rfl, fun h' => by simp [h] at h'⟩
  · rename_i h; exact ⟨[], by simp, fun h' => absurd h' h, fun _ => rfl⟩

theorem logEvent_frame (e : Engine) (i t f : Nat) (bs : List Byte) :
    logEvent e i t f bs = { e with log := (logEvent e i t f bs).log } := by
  unfold logEvent
  split <;> rfl

@[simp] theorem askStop_hub (e : Engine) (code unit task : Nat) : (askStop e code unit task).hub = e.hub := by
  rw [askStop_frame]
@[simp] theorem askStop_rw (e : Engine) (code unit task : Nat) : (askStop e code unit task).rw = e.rw := by
  rw [askStop_frame]
@[simp] theorem askStop_ctr (e : Engine) (code unit task : Nat) : (askStop e code unit task).ctr = e.ctr := by
  rw [askStop_frame]
@[simp] theorem askStop_mp (e : Engine) (code unit task : Nat) : (askStop e code unit task).mp = e.mp := by
  rw [askStop_frame]
@[simp] theorem askStop_fences (e : Engine) (code unit task : Nat) : (askStop e code unit task).fences = e.fences := by
  rw [askStop_frame]
@[simp] theorem askStop_boot (e : Engine) (code unit task : Nat) : (askStop e code unit task).boot = e.boot := by
  rw [askStop_frame]
@[simp] theorem askStop_fwp (e : Engine) (code unit task : Nat) : (askStop e code unit task).fwp = e.fwp := by
  rw [askStop_frame]
@[simp] theorem askStop_mbx (e : Engine) (code unit task : Nat) : (askStop e code unit task).mbx = e.mbx := by
  rw [askStop_frame]
@[simp] theorem askStop_log (e : Engine) (code unit task : Nat) : (askStop e code unit task).log = e.log := by
  rw [askStop_frame]
@[simp] theorem askStop_combs (e : Engine) (code unit task : Nat) : (askStop e code unit task).combs = e.combs := by
  rw [askStop_frame]
@[simp] theorem askStop_hf (e : Engine) (code unit task : Nat) : (askStop e code unit task).hf = e.hf := by
  rw [askStop_frame]
@[simp] theorem askStop_cap (e : Engine) (code unit task : Nat) : (askStop e code unit task).cap = e.cap := by
  rw [askStop_frame]
@[simp] theorem askStop_lnk (e : Engine) (code unit task : Nat) : (askStop e code unit task).lnk = e.lnk := by
  rw [askStop_frame]
@[simp] theorem askStop_pwr (e : Engine) (code unit task : Nat) : (askStop e code unit task).pwr = e.pwr := by
  rw [askStop_frame]
@[simp] theorem askStop_sb (e : Engine) (code unit task : Nat) : (askStop e code unit task).sb = e.sb := by
  rw [askStop_frame]
@[simp] theorem askStop_tap (e : Engine) (code unit task : Nat) : (askStop e code unit task).tap = e.tap := by
  rw [askStop_frame]

@[simp] theorem logEvent_hub (e : Engine) (i t f : Nat) (bs : List Byte) : (logEvent e i t f bs).hub = e.hub := by
  rw [logEvent_frame]
@[simp] theorem logEvent_rw (e : Engine) (i t f : Nat) (bs : List Byte) : (logEvent e i t f bs).rw = e.rw := by
  rw [logEvent_frame]
@[simp] theorem logEvent_ctr (e : Engine) (i t f : Nat) (bs : List Byte) : (logEvent e i t f bs).ctr = e.ctr := by
  rw [logEvent_frame]
@[simp] theorem logEvent_mp (e : Engine) (i t f : Nat) (bs : List Byte) : (logEvent e i t f bs).mp = e.mp := by
  rw [logEvent_frame]
@[simp] theorem logEvent_fences (e : Engine) (i t f : Nat) (bs : List Byte) : (logEvent e i t f bs).fences = e.fences := by
  rw [logEvent_frame]
@[simp] theorem logEvent_boot (e : Engine) (i t f : Nat) (bs : List Byte) : (logEvent e i t f bs).boot = e.boot := by
  rw [logEvent_frame]
@[simp] theorem logEvent_fwp (e : Engine) (i t f : Nat) (bs : List Byte) : (logEvent e i t f bs).fwp = e.fwp := by
  rw [logEvent_frame]
@[simp] theorem logEvent_mbx (e : Engine) (i t f : Nat) (bs : List Byte) : (logEvent e i t f bs).mbx = e.mbx := by
  rw [logEvent_frame]
@[simp] theorem logEvent_sch (e : Engine) (i t f : Nat) (bs : List Byte) : (logEvent e i t f bs).sch = e.sch := by
  rw [logEvent_frame]
@[simp] theorem logEvent_combs (e : Engine) (i t f : Nat) (bs : List Byte) : (logEvent e i t f bs).combs = e.combs := by
  rw [logEvent_frame]
@[simp] theorem logEvent_hf (e : Engine) (i t f : Nat) (bs : List Byte) : (logEvent e i t f bs).hf = e.hf := by
  rw [logEvent_frame]
@[simp] theorem logEvent_cap (e : Engine) (i t f : Nat) (bs : List Byte) : (logEvent e i t f bs).cap = e.cap := by
  rw [logEvent_frame]
@[simp] theorem logEvent_lnk (e : Engine) (i t f : Nat) (bs : List Byte) : (logEvent e i t f bs).lnk = e.lnk := by
  rw [logEvent_frame]
@[simp] theorem logEvent_pwr (e : Engine) (i t f : Nat) (bs : List Byte) : (logEvent e i t f bs).pwr = e.pwr := by
  rw [logEvent_frame]
@[simp] theorem logEvent_sb (e : Engine) (i t f : Nat) (bs : List Byte) : (logEvent e i t f bs).sb = e.sb := by
  rw [logEvent_frame]
@[simp] theorem logEvent_tap (e : Engine) (i t f : Nat) (bs : List Byte) : (logEvent e i t f bs).tap = e.tap := by
  rw [logEvent_frame]

@[simp] theorem bump_hub (e : Engine) (c : Ctr) (n : Nat) : (bump e c n).hub = e.hub := by
  rw [(bump_spec e c n).2.2]
@[simp] theorem bump_rw (e : Engine) (c : Ctr) (n : Nat) : (bump e c n).rw = e.rw := by
  rw [(bump_spec e c n).2.2]
@[simp] theorem bump_mp (e : Engine) (c : Ctr) (n : Nat) : (bump e c n).mp = e.mp := by
  rw [(bump_spec e c n).2.2]
@[simp] theorem bump_fences (e : Engine) (c : Ctr) (n : Nat) : (bump e c n).fences = e.fences := by
  rw [(bump_spec e c n).2.2]
@[simp] theorem bump_boot (e : Engine) (c : Ctr) (n : Nat) : (bump e c n).boot = e.boot := by
  rw [(bump_spec e c n).2.2]
@[simp] theorem bump_fwp (e : Engine) (c : Ctr) (n : Nat) : (bump e c n).fwp = e.fwp := by
  rw [(bump_spec e c n).2.2]
@[simp] theorem bump_mbx (e : Engine) (c : Ctr) (n : Nat) : (bump e c n).mbx = e.mbx := by
  rw [(bump_spec e c n).2.2]
@[simp] theorem bump_log (e : Engine) (c : Ctr) (n : Nat) : (bump e c n).log = e.log := by
  rw [(bump_spec e c n).2.2]
@[simp] theorem bump_sch (e : Engine) (c : Ctr) (n : Nat) : (bump e c n).sch = e.sch := by
  rw [(bump_spec e c n).2.2]
@[simp] theorem bump_combs (e : Engine) (c : Ctr) (n : Nat) : (bump e c n).combs = e.combs := by
  rw [(bump_spec e c n).2.2]
@[simp] theorem bump_hf (e : Engine) (c : Ctr) (n : Nat) : (bump e c n).hf = e.hf := by
  rw [(bump_spec e c n).2.2]
@[simp] theorem bump_cap (e : Engine) (c : Ctr) (n : Nat) : (bump e c n).cap = e.cap := by
  rw [(bump_spec e c n).2.2]
@[simp] theorem bump_lnk (e : Engine) (c : Ctr) (n : Nat) : (bump e c n).lnk = e.lnk := by
  rw [(bump_spec e c n).2.2]
@[simp] theorem bump_pwr (e : Engine) (c : Ctr) (n : Nat) : (bump e c n).pwr = e.pwr := by
  rw [(bump_spec e c n).2.2]
@[simp] theorem bump_sb (e : Engine) (c : Ctr) (n : Nat) : (bump e c n).sb = e.sb := by
  rw [(bump_spec e c n).2.2]
@[simp] theorem bump_tap (e : Engine) (c : Ctr) (n : Nat) : (bump e c n).tap = e.tap := by
  rw [(bump_spec e c n).2.2]

/-- A poison event touches nothing but the hub's error bits, the running graph and the records on their way (R420). -/
theorem poisonEvent_frame (e : Engine) (i c : Nat) : poisonEvent e i c = { e with hub := (raiseErr e errPoison).hub
                                                                                  sch := (poisonEvent e i c).sch
                                                                                  log := (poisonEvent e i c).log } := by
  unfold poisonEvent
  cases h : (raiseErr e errPoison).sch.run with
  | none => simp only [h]; rfl
  | some g => simp only [h]; repeat' split
              all_goals first | rfl | (rw [askStop_frame]; rfl)

@[simp] theorem poisonEvent_hub (e : Engine) (i c : Nat) : (poisonEvent e i c).hub = (raiseErr e errPoison).hub := by
  rw [poisonEvent_frame]
@[simp] theorem poisonEvent_rw (e : Engine) (i c : Nat) : (poisonEvent e i c).rw = e.rw := by
  rw [poisonEvent_frame]
@[simp] theorem poisonEvent_ctr (e : Engine) (i c : Nat) : (poisonEvent e i c).ctr = e.ctr := by
  rw [poisonEvent_frame]
@[simp] theorem poisonEvent_mp (e : Engine) (i c : Nat) : (poisonEvent e i c).mp = e.mp := by
  rw [poisonEvent_frame]
@[simp] theorem poisonEvent_fences (e : Engine) (i c : Nat) : (poisonEvent e i c).fences = e.fences := by
  rw [poisonEvent_frame]
@[simp] theorem poisonEvent_boot (e : Engine) (i c : Nat) : (poisonEvent e i c).boot = e.boot := by
  rw [poisonEvent_frame]
@[simp] theorem poisonEvent_fwp (e : Engine) (i c : Nat) : (poisonEvent e i c).fwp = e.fwp := by
  rw [poisonEvent_frame]
@[simp] theorem poisonEvent_mbx (e : Engine) (i c : Nat) : (poisonEvent e i c).mbx = e.mbx := by
  rw [poisonEvent_frame]
@[simp] theorem poisonEvent_combs (e : Engine) (i c : Nat) : (poisonEvent e i c).combs = e.combs := by
  rw [poisonEvent_frame]
@[simp] theorem poisonEvent_hf (e : Engine) (i c : Nat) : (poisonEvent e i c).hf = e.hf := by
  rw [poisonEvent_frame]
@[simp] theorem poisonEvent_cap (e : Engine) (i c : Nat) : (poisonEvent e i c).cap = e.cap := by
  rw [poisonEvent_frame]
@[simp] theorem poisonEvent_lnk (e : Engine) (i c : Nat) : (poisonEvent e i c).lnk = e.lnk := by
  rw [poisonEvent_frame]
@[simp] theorem poisonEvent_pwr (e : Engine) (i c : Nat) : (poisonEvent e i c).pwr = e.pwr := by
  rw [poisonEvent_frame]
@[simp] theorem poisonEvent_sb (e : Engine) (i c : Nat) : (poisonEvent e i c).sb = e.sb := by
  rw [poisonEvent_frame]
@[simp] theorem poisonEvent_tap (e : Engine) (i c : Nat) : (poisonEvent e i c).tap = e.tap := by
  rw [poisonEvent_frame]

/-! ### Messages -/

/-- A message enters the ring while it has room, and waits for room otherwise (R510, R511). -/
theorem postMsg_spec (e : Engine) (op seq : Byte) (ws : List Word) :
    postMsg e op seq ws = if e.mbx.ring.length < 256 then { e with mbx := { e.mbx with ring := e.mbx.ring ++
      [{ major := (negotiated e).1, minor := (negotiated e).2, opcode := op, seq := seq, words := ws }] } }
    else { e with mbx := { e.mbx with backlog := e.mbx.backlog ++
      [{ major := (negotiated e).1, minor := (negotiated e).2, opcode := op, seq := seq, words := ws }] } } := rfl

/-- A reply while the ring has room. -/
theorem reply_spec {e : Engine} (m : Msg) (code : Nat) (ws : List Word) (h : e.mbx.ring.length < 256) :
    reply e m code ws = { e with mbx := { e.mbx with ring := e.mbx.ring ++ [replyMsg e m code ws] } } := by
  simp [reply, postMsg_spec, h, replyMsg]

/-! ### Writes to memory -/

/-- Bytes on their way to memory only join the outstanding writes. -/
theorem sendBytes_spec (e : Engine) (w : Writer) (a : Nat) (bs : List Byte) (p : Nat → Bool) :
    ∃ ws, sendBytes e w a bs p = { e with mp := { e.mp with writes := e.mp.writes ++ ws } } ∧ ∀ x ∈ ws, x.who = w := by
  unfold sendBytes
  generalize dedup ((linesOf a bs.length).map (· % 2 ^ 46)) = ls
  induction ls generalizing e with
  | nil => exact ⟨[], by simp, by simp⟩
  | cons l ls ih =>
    obtain ⟨ws, h, hw⟩ := ih (sendLine e w l (linePart a bs l) (p l))
    have hs : ∃ v, sendLine e w l (linePart a bs l) (p l) = { e with mp := { e.mp with writes := e.mp.writes ++ v } } ∧
        ∀ x ∈ v, x.who = w := by
      refine ⟨_, rfl, ?_⟩
      intro x hx
      split at hx
      · simp at hx
      · rw [List.mem_singleton.1 hx]
    obtain ⟨v, hv, hvw⟩ := hs
    refine ⟨v ++ ws, by rw [List.foldl_cons, h, hv]; simp, ?_⟩
    intro x hx
    rcases List.mem_append.1 hx with hx | hx
    · exact hvw x hx
    · exact hw x hx

end Sys2Proof.Machine
end

