-- ==== Sys2Proof/WellFormed.lean ====
section
/-! DEFINITION. WellFormed.lean: which commands are well formed: the sizes that the pins and the memory fix for an
operand (R372, R449, R484, R520). -/

namespace Sys2Proof

/-- A line of 64 bytes at a 64-byte boundary of the 52-bit address space (R449), requested twice at most (R405). -/
def MemLine.wf (l : MemLine) : Bool := l.data.length == 64 && l.addr % 64 == 0 && decide (l.addr < 2 ^ 52) && decide (l.tries ≤ 2)

/-- Lines that memory returns: each well formed, none twice. -/
def linesWf (rd : List MemLine) : Bool := rd.all MemLine.wf && (rd.map MemLine.addr).eraseDups.length == rd.length

/-- A flit of 276 bytes: 256 bytes of payload (R372). -/
def Flit.wf (f : Flit) : Bool := f.payload.length == 256

/-- A control message's flit, if it comes over a link. -/
def MsgSrc.wf : MsgSrc → Bool
  | .port _ f => f.wf
  | .own => true

/-- What a cold start meets: 68 fuse words (R484). -/
def ColdEnv.wf (v : ColdEnv) : Bool := v.fuses.length == 68

/-- Well-formedness of a command. -/
def Instr.wellFormed : Instr → Bool
  | .cpWriteAccept _ _ => true
  | .postedWriteApply => true
  | .rcFieldRead _ late => decide (late.length ≤ 4)
  | .badAccess _ _ => true
  | .cpPortReset => true
  | .coefDataAccess _ => true
  | .obsUflowRead _ _ => true
  | .errFirstRearm _ => true
  | .warmReset _ => true
  | .fwWindowWrite _ => true
  | .fwStart _ rd _ => linesWf rd
  | .fwCheckDone => true
  | .send _ => true
  | .commandIntake => true
  | .pop _ => true
  | .hello => true
  | .heartbeat => true
  | .graphSubmit => true
  | .graphAbort => true
  | .fenceRequest => true
  | .unfenceRequest => true
  | .modeSet => true
  | .checkpointRequest => true
  | .logQuery => true
  | .park => true
  | .adopt => true
  | .heartbeatTimeout => true
  | .graphAdmit rd => linesWf rd
  | .taskFetch rd => linesWf rd
  | .taskDispatch rd => linesWf rd
  | .ringBind _ _ => true
  | .taskAge i => decide (i < 2 ^ 20)
  | .taskComplete i rd => decide (i < 2 ^ 20) && linesWf rd
  | .graphStop => true
  | .tileIssue _ _ rd => linesWf rd
  | .frameStep _ _ _ _ => true
  | .intervalVerdict _ _ _ => true
  | .replayRestart _ _ => true
  | .stagingRowWriteout _ _ _ => true
  | .drainOnlyRun _ _ rd _ => linesWf rd
  | .lineRequestGrant _ => true
  | .memoryReadResponse _ _ _ l => l.data.length == 64
  | .memoryWriteResponse _ _ _ => true
  | .translationEvent _ _ page => decide (page < 2 ^ 36)
  | .pageFaultTimeout _ _ => true
  | .shortDescriptor rd => linesWf rd
  | .handlePush _ => true
  | .handlePop _ => true
  | .shardReload _ rd => linesWf rd
  | .bucketAdmit rd => linesWf rd
  | .bucketActivate _ r => linesWf r.rd
  | .spillAdd _ => true
  | .updateRow rd _ => linesWf rd
  | .versionSlotFree => true
  | .maskBlock r => linesWf r.rd
  | .maskFreeRow r => linesWf r.rd
  | .checkpointEntryCopy r => linesWf r.rd
  | .laneLock _ => true
  | .capsReceive _ _ => true
  | .acceptReceive _ _ _ => true
  | .readyReceive _ => true
  | .waggleTimeout _ => true
  | .waggleRetryTimer _ => true
  | .retrain _ _ => true
  | .lockLoss _ => true
  | .dataFlitReceive _ f _ => f.wf
  | .resultFlitReceive _ f => f.flit.wf
  | .okReceive m => m.wf
  | .failReceive m => m.wf
  | .sealReceive m => m.wf
  | .repeatReceive m => m.wf
  | .abandonReceive m => m.wf
  | .joinReceive m => m.wf
  | .goReceive m => m.wf
  | .ackReceive _ f => f.wf
  | .nakReceive _ f => f.wf
  | .creditReceive _ f => f.wf
  | .flitSend _ => true
  | .ackTimer _ => true
  | .resendTimeout _ => true
  | .bucketDeadline _ => true
  | .sealWaitTimeout _ => true
  | .joinTimeout _ => true
  | .patienceExpiry _ => true
  | .unicastReplay _ rd => linesWf rd
  | .coldStart v => v.wf
  | .railAonFall => true
  | .tapReset => true
  | .idcode => true
  | .testEnter => true
  | .testExit => true
  | .scan => true
  | .mbist => true
  | .bypass _ => true
  | .sbAddressMatch _ _ => true
  | .sbWriteByte _ => true
  | .sbReadByte => true
  | .railCoreDrop => true
  | .railCoreRecover => true
  | .droopWarning _ => true
  | .droopStop _ => true
  | .droopClear _ _ => true
  | .droopHoldExpiry _ => true
  | .voltageRequest _ => true
  | .frequencyRequest _ => true
  | .heldRequestApply => true
  | .freqChangeComplete => true
  | .sensorCode _ _ => true
  | .sensorTimeout _ => true
  | .staleTrip => true
  | .thermalLoopTick => true
  | .thermalRefit _ => true
  | .substateRequest _ => true
  | .substateEntry => true
  | .wakeReturn => true
  | .idleReturn => true
  | .padRelease _ => true
  | .watchdogExpiry _ _ => true
  | .protectStore _ _ off _ => decide (off < 2 ^ 20)
  | .selfRestart _ _ => true
  | .fpReady _ => true
  | .observerPoll => true
  | .logRecordArrive r => match r with | some t => t.payload.length == 40 | none => true
  | .logMove => true
  | .logEnable _ => true
  | .portEnable _ _ => true
  | .rxBeatDiscard _ => true
  | .powerEstimate => true

end Sys2Proof
end

