-- ==== Sys2Proof/Tests/Slice0.lean ====
section
/-! SUPPORT. Tests/Slice0.lean: small named tests, each of one command or one check on a state that a helper builds, and for every
statement with premises a state and operands that meet them together. -/

namespace Sys2Proof.Tests

set_option Elab.async false

open Sys2Proof Sys2Proof.Machine

/-! ### Helpers -/

/-- The state that a command answers. -/
def nx (o : Host.Outcome State Fault Refusal) : State := match o with | .next t => t | _ => {}

/-- An engine in RUN and ACTIVE: the hub locked, every fuse option set, FP0 to FP3 up, the host LIVE under version 3.2, clocks
started and rails good. -/
def run : Engine :=
  { boot := { state := .run, hubLocked := true, fuses := List.replicate 68 0x3FFFF, fwMajor := 3, fwMinor := 2, image := .ok }
    fwp := { procs := List.replicate 4 { run := .run, ready := true, fresh := false } }
    mbx := { stated := some (3, 2), host := .live, hbRunning := true }
    pwr := { islands := List.replicate 57 { started := true, locked := true }, goodCore := true, coreReq := true, sramReq := true } }

/-- A state with that engine changed. -/
def st (f : Engine → Engine) : State := { eng := f run }

/-- A command of version 3.2. -/
def msg (op : Byte) (ws : List Word) : Taken := ⟨⟨3, 2, op, 7, ws⟩, ws.length⟩

/-- A state whose oldest command is the given one, taken for its owner. -/
def cmd (op : Byte) (ws : List Word) (f : Engine → Engine := id) : State :=
  st fun e => let e := f e; { e with mbx := { e.mbx with taken := [msg op ws] } }

/-- A state with one accepted write at the head of the posted queue. -/
def wr (addr : Nat) (v : Word) (f : Engine → Engine := id) : State := { posted := [⟨addr, v, none, none, 0⟩], eng := f run }

/-- A hub that has locked and whose clock runs is up. -/
theorem hubUp_of {e : Engine} (h : (e.boot.hubLocked && hubClock e) = true) : HubUp e := by
  simpa [HubUp, Bool.and_eq_true] using h

/-- What the head of the posted queue presents. -/
theorem presents_posted {s : State} {p : Posted} {ps : List Posted} {r : RegName} {v : Word} (h : s.posted = p :: ps)
    (hr : postedReg p = some r) (hv : p.data = v) (ho : overtaken s.eng p r = false) : Presents s .posted r v :=
  ⟨p, ps, h, hr, hv, ho⟩

/-- What firmware presents while no write of the register waits. -/
theorem presents_firmware {s : State} {r : RegName} {v : Word} (h : postedFor s.posted r = false) :
    Presents s (.firmware v) r v := ⟨h, rfl⟩

/-- A command that no check turns away can be served. -/
theorem servable_of {e : Engine} {p op : Nat} {t : Taken}
    (h : frontFor e p op = some t ∧ screen e t = 0 ∧ e.mbx.ring.length < 256) : Servable e p op t := h

/-- Whether an outcome is a next state. -/
def isNext (o : Host.Outcome State Fault Refusal) : Bool := match o with | .next _ => true | _ => false

/-- A next state is the one answered. -/
theorem eq_nx {o : Host.Outcome State Fault Refusal} (h : isNext o = true) : o = .next (nx o) := by
  cases o <;> simp_all [isNext, nx]

/-- A graph of two tasks that runs with every comb, nothing fetched. -/
def graph0 : Graph :=
  { sub := ⟨5, 0x1000, 77, none⟩, hdr := { (default : GraphHdr) with tasks := 2, vMinus2 := 0, mbWindow := 4, completionBase := 0x9000, taskBase := 0x2000 }
    samples := { schCtrl := 0x0001F402 }, logical := allCombs, regions := [], versions := [], layers := [], gen := none, carousel := [] }

/-- An engine with a graph that runs. -/
def withGraph (g : Graph) (e : Engine) : Engine := { e with sch := { e.sch with run := some g, phase := .run } }

/-- A line of memory with given first bytes. -/
def ln (a : Nat) (bs : List Byte) : MemLine :=
  { addr := a, data := (bs ++ List.replicate 64 0).take 64, poison := false }

/-- A graph header of two tasks with empty tables (Table 09-1). -/
def header : List MemLine :=
  [ln 0x1000 (leBytes 4 0x57324752 ++ [1, 0, 1, 1] ++ leBytes 4 2 ++ List.replicate 12 0 ++ leBytes 8 0x2000 ++ leBytes 8 0x3000 ++
     leBytes 8 0x4000 ++ leBytes 8 0x5000 ++ leBytes 8 0x6000),
   ln 0x1040 (leBytes 8 0x7000 ++ leBytes 8 0x9000 ++ leBytes 8 0)]

/-- A state with one submitted graph. -/
def submitted : State := st fun e => { e with sch := { e.sch with queue := [⟨5, 0x1000, 77, none⟩] } }

/-- A task record of a kind. -/
def recOf (kind : Nat) : TaskRec := { (default : TaskRec) with kind := kind, affinity := 0xFF, drefs := List.replicate 8 0, mb := 0 }

/-- A state with resident tasks. -/
def tasks (ts : List Task) (f : Engine → Engine := id) : State := st fun e => f (withGraph { graph0 with tasks := ts, fetch := 2 } e)

/-- A dense forward product of 2 tokens, 32 channels and 2 outputs, which runs in comb 3. -/
def fwd : Task :=
  { index := 0, record := { recOf kFWD with outRows := 2, outCols := 2, redLen := 32, drefs := [0x80, 0x81, 0x82, 0, 0, 0, 0, 0] }
    life := .running (.comb 3) }

/-! ### Ill-formed commands, which WellFormed refuses -/

/-- Lines of another size, off a line boundary, outside the address space, or given twice are refused. -/
theorem test_lines_refused :
    (Instr.taskFetch [⟨0, List.replicate 63 0, false, 0⟩]).wellFormed = false ∧
    (Instr.graphAdmit [⟨32, List.replicate 64 0, false, 0⟩]).wellFormed = false ∧
    (Instr.taskDispatch [⟨2 ^ 52, List.replicate 64 0, false, 0⟩]).wellFormed = false ∧
    (Instr.updateRow [ln 0 [], ln 0 [1]] false).wellFormed = false ∧
    (Instr.taskFetch [ln 0 [], ln 64 [1]]).wellFormed = true := by decide +kernel

/-- A list of late counts longer than a register's fields is refused. -/
theorem test_late_refused :
    (Instr.rcFieldRead 0x10 [0, 0, 0, 0, 0]).wellFormed = false ∧ (Instr.rcFieldRead 0x10 [0, 0, 0, 0]).wellFormed = true := by
  decide

/-- A flit of another size is refused, from a link and in a control message. -/
theorem test_flit_refused :
    (Instr.dataFlitReceive 0 { (default : Flit) with payload := List.replicate 255 0 } false).wellFormed = false ∧
    (Instr.okReceive (.port 0 { (default : Flit) with payload := [] })).wellFormed = false ∧
    (Instr.okReceive .own).wellFormed = true := by decide +kernel

/-- Task indexes, pages and offsets outside their ranges are refused. -/
theorem test_ranges_refused :
    (Instr.taskAge (2 ^ 20)).wellFormed = false ∧ (Instr.taskComplete (2 ^ 20) []).wellFormed = false ∧
    (Instr.translationEvent .retry 0 (2 ^ 36)).wellFormed = false ∧ (Instr.protectStore 0 false (2 ^ 20) 0).wellFormed = false := by
  decide +kernel

/-- A response without a whole line, a cold start without 68 fuse words, and a log record without 40 bytes are refused. -/
theorem test_sizes_refused :
    (Instr.memoryReadResponse 0 0 .ok ⟨[], false, 0⟩).wellFormed = false ∧
    (Instr.coldStart ⟨[], [], [], none⟩).wellFormed = false ∧
    (Instr.logRecordArrive (some ⟨0, 0, 0, []⟩)).wellFormed = false := by decide

/-! ### The queue, memory and the posted writes -/

/-- Premises of StepRunsFrontCommand. -/
theorem witness_stepRunsFrontCommand : ({ pending := [.commandIntake, .hello], eng := run } : State).pending = .commandIntake :: [.hello] := rfl

/-- Premises of IdleStepCountsCycles. -/
theorem witness_idleStep : (st id).pending = [] ∧ (st id).eng.boot.state ≠ .off ∧ 56 < (st id).eng.pwr.islands.length ∧
    (st id).eng.pwr.goodSince = true := by
  decide +kernel

/-- Premises of CommandsFrameMemory: a command that brings a line, with an entry waiting in a crossing, and an address outside the line. -/
theorem witness_commandsFrameMemory :
    let s : State := { st id with held := [.ackReceive 0 default] }
    isMemResponse (.taskFetch [ln 64 [5]]) = false ∧ (∀ h ∈ s.held, isMemResponse h = false) ∧
    (Machine.exec (.taskFetch [ln 64 [5]]) s = .next (nx (Machine.exec (.taskFetch [ln 64 [5]]) s))) ∧
    (∀ l ∈ linesOfCmd (.taskFetch [ln 64 [5]]), lineOf l.addr ≠ 63 / 64) ∧
    (∀ l ∈ linesOfCmd (.taskFetch [ln 64 [5]]), lineOf l.addr ≠ 128 / 64) :=
  ⟨rfl, by decide +kernel, eq_nx (by decide +kernel), by decide +kernel⟩

/-- Premises of StepKeepsInv, at a full posted queue. -/
theorem witness_stepKeepsInv : Machine.Inv { st id with posted := List.replicate 32 ⟨0, 0, none, none, 0⟩ } ∧
    Machine.step { st id with posted := List.replicate 32 ⟨0, 0, none, none, 0⟩ } =
      .next (nx (Machine.step { st id with posted := List.replicate 32 ⟨0, 0, none, none, 0⟩ })) :=
  ⟨⟨by decide +kernel, by decide +kernel, by decide +kernel, by decide +kernel⟩, eq_nx (by decide +kernel)⟩

/-- Premises of CanonicalMemoryLaws. -/
theorem witness_canonicalMemory : cellsWf [(3, 1), (9, 4)] = true ∧ (4 : Nat) ≠ 3 := by decide

/-- Premises of WritesQueueInOrder: a write of the selection and a plain RW register with room for one more, and a full queue. -/
theorem witness_writesQueue :
    regAt (0x1804 : BitVec 16).toNat = some .updCoefSel ∧ regAt (0x40 : BitVec 16).toNat = some .hubFmtCtrl ∧
    (st id).eng.boot.hubLocked = true ∧ stampsOrdered (st id) = true ∧
    portWrites (List.replicate 31 (⟨0x40, 0, none, none, 0⟩ : Posted)) < 32 ∧ 32 ≤ portWrites (List.replicate 32 (⟨0x40, 0, none, none, 0⟩ : Posted)) := by
  decide +kernel

/-- A write of the selection waits and is taken at the port. -/
theorem test_write_waits :
    (nx (Machine.exec (.cpWriteAccept 0x1804 0x80000203) (st id))).posted = [⟨0x1804, 0x80000203, none, none, 0⟩] ∧
    rwVal (nx (Machine.exec (.cpWriteAccept 0x1804 0x80000203) (st id))).eng .updCoefSel = 0x80000203 := by decide +kernel

/-- A port reset empties the queue. -/
theorem test_port_reset : (nx (Machine.exec .cpPortReset (wr 0x40 5))).posted = [] := by decide +kernel

/-- Premises of BadAccessCountsAndReadsZero: a reserved location, a misaligned one, the last one, with the counter at its end. -/
theorem witness_badAccess :
    (st id).eng.boot.hubLocked = true ∧ portWrites (st id).posted < 32 ∧ regAt (0x1C : BitVec 16).toNat = none ∧
    (0x42 : BitVec 16).toNat % 4 ≠ 0 ∧ regAt (0xFFFC : BitVec 16).toNat = none ∧
    32 ≤ portWrites (List.replicate 32 (⟨0x40, 0, none, none, 0⟩ : Posted)) ∧
    (st fun e => { e with boot := { e.boot with hubLocked := false } }).eng.boot.hubLocked = false := by decide +kernel

/-- A read of a reserved location answers while the posted queue is full; before hub lock it reads 0 uncounted. -/
theorem test_bad_read :
    ctrVal (nx (Machine.exec (.badAccess 2 false) { st id with posted := List.replicate 32 ⟨0x40, 0, none, none, 0⟩ })).eng .badAccess = 1 ∧
    (nx (Machine.exec (.coefDataAccess .portRead) (st fun e => { e with
      boot := { e.boot with hubLocked := false }, hub := { e.hub with rdata := 5 } }))).eng.hub.rdata = 0 := by decide +kernel

/-- HUB_BAD_ACCESS saturates. -/
theorem test_bad_access_saturates :
    ctrVal (nx (Machine.exec (.badAccess 2 true) (st fun e => setCtr e .badAccess 65535))).eng .badAccess = 65535 ∧
    (nx (Machine.exec (.badAccess 2 true) (st id))).eng.hub.lastBad = 2 := by decide +kernel

/-- A write of firmware that came after the port write at the head of the queue. -/
def overtook (r : RegName) (e : Engine) : Engine := { e with hub := { e.hub with stamp := 1, fwAt := [(r, 1)] } }

/-- Premises of PostedWriteTakesRwFields: a plain register, LOG_MASK0, a mailbox register while no command is under way, the firmware
window in AWAIT_FW, the coefficients' selection, a register that firmware has written since, and one of which it has written a part. -/
theorem witness_postedWriteTakes :
    HubUp (wr 0x40 0xFFFFFFFF).eng ∧ (wr 0x40 0xFFFFFFFF).posted = [⟨0x40, 0xFFFFFFFF, none, none, 0⟩] ∧
    postedReg ⟨0x40, 0xFFFFFFFF, none, none, 0⟩ = some .hubFmtCtrl ∧ ownRow .hubFmtCtrl 0xFFFFFFFF = false ∧
    isMbxCmd .hubFmtCtrl = false ∧ rwMask .hubFmtCtrl ≠ 0 ∧ overtaken run ⟨0x40, 0xFFFFFFFF, none, none, 0⟩ .hubFmtCtrl = false ∧
    ownRow (.logMask 0) 2 = false ∧ rwMask (.logMask 0) ≠ 0 ∧ isMbxCmd (.logMask 0) = false ∧
    postedReg ⟨0x3800, 5, none, none, 0⟩ = some .mbxCmdHdr ∧ ownRow .mbxCmdHdr 5 = false ∧ isMbxCmd .mbxCmdHdr = true ∧
    rwMask .mbxCmdHdr ≠ 0 ∧ (wr 0x3800 5).eng.mbx.busy = false ∧
    (wr 0x3D24 64 fun e => { e with boot := { e.boot with state := .awaitFw } }).eng.boot.state = .awaitFw ∧
    postedReg ⟨0x3D24, 64, none, none, 0⟩ = some .cfgFwWinAddr ∧ rwMask .cfgFwWinAddr ≠ 0 ∧ ownRow .cfgFwWinAddr 64 = false ∧
    postedReg ⟨0x1804, 5, none, none, 0⟩ = some .updCoefSel ∧ rwMask .updCoefSel ≠ 0 ∧ ownRow .updCoefSel 5 = false ∧
    overtaken (wr 0x40 1 (overtook .hubFmtCtrl)).eng ⟨0x40, 1, none, none, 0⟩ .hubFmtCtrl = true ∧ fwBits .hubFmtCtrl = 0xFFFFFFFF ∧
    overtaken (wr 0x3038 1 (overtook .pwrThermCtrl)).eng ⟨0x3038, 1, none, none, 0⟩ .pwrThermCtrl = true ∧
    rwMask .pwrThermCtrl ≠ 0 ∧ ownRow .pwrThermCtrl 1 = false :=
  ⟨hubUp_of (by decide +kernel), by decide +kernel⟩

/-- A posted write stores the register's own fields only. -/
theorem test_posted_write :
    rwVal (nx (Machine.exec .postedWriteApply (wr 0x40 0xFFFFFFFF))).eng .hubFmtCtrl = rwMask .hubFmtCtrl ∧
    (nx (Machine.exec .postedWriteApply (wr 0x40 0xFFFFFFFF))).posted = [] := by decide +kernel

/-- Premises of PostedWriteOtherFields, clause by clause. -/
theorem witness_postedWriteOther :
    HubUp (wr 0x60 0x0F).eng ∧
    postedReg ⟨0x60, 0x0F, none, none, 0⟩ = some .hubErrStatus ∧ ownRow .hubErrStatus 0x0F = false ∧
    postedReg ⟨0x3040, 3, none, none, 0⟩ = some .pwrThermStatus ∧ ownRow .pwrThermStatus 3 = false ∧
    postedReg ⟨0x88, 1, none, none, 0⟩ = some .hubDone ∧ ownRow .hubDone 1 = false ∧
    postedReg ⟨0x3030, 63, none, none, 0⟩ = some .pwrThrottle ∧ ownRow .pwrThrottle 63 = false ∧
    overtaken (wr 0x3030 63 (overtook .pwrThrottle)).eng ⟨0x3030, 63, none, none, 0⟩ .pwrThrottle = true ∧
    overtaken run ⟨0x60, 0x0F, none, none, 0⟩ .hubErrStatus = false ∧
    postedReg ⟨0x3800, 5, none, none, 0⟩ = some .mbxCmdHdr ∧ isMbxCmd .mbxCmdHdr = true ∧
    (wr 0x3800 5 fun e => { e with mbx := { e.mbx with busy := true } }).eng.mbx.busy = true ∧
    postedReg ⟨0x3D24, 64, none, none, 0⟩ = some .cfgFwWinAddr ∧ ownRow .cfgFwWinAddr 64 = false ∧
    (wr 0x3D24 64).eng.boot.state ≠ .awaitFw ∧
    postedReg ⟨0, 1, none, none, 0⟩ = some .hubId ∧ rwMask .hubId = 0 ∧ ownRow .hubId 1 = false ∧ isMbxCmd .hubId = false :=
  ⟨hubUp_of (by decide +kernel), by decide +kernel⟩

/-- A 1 clears a W1C bit, a 0 leaves it; DUTY is taken up to 56. -/
theorem test_posted_write_other :
    (nx (Machine.exec .postedWriteApply (wr 0x60 0x0F fun e => { e with hub := { e.hub with errStatus := 0x3C } }))).eng.hub.errStatus
      = 0x30 ∧
    (nx (Machine.exec .postedWriteApply (wr 0x3030 63))).eng.pwr.duty = 56 ∧
    (nx (Machine.exec .postedWriteApply (wr 0x3030 63 (overtook .pwrThrottle)))).eng.pwr.duty = 0 := by decide +kernel

/-- Premises of CounterReadTakesShownValue: shadows that follow their registers, and shadows that are held. -/
theorem witness_counterRead :
    (st id).eng.boot.hubLocked = true ∧ regAt (0x8 : BitVec 16).toNat = some .hubBadAccess ∧ RegName.hubBadAccess ≠ .updCoefData ∧
    (st id).shadow = none ∧ ({ st id with shadow := some run } : State).shadow = some run ∧
    regAt (0x40 : BitVec 16).toNat = some .hubFmtCtrl ∧ rcFields [] run .hubFmtCtrl = [] ∧
    (rcFields [] run .hubBadAccess).map Prod.snd = [.badAccess] ∧ Ctr.parked ∉ (rcFields [] run .hubBadAccess).map Prod.snd := by
  decide +kernel

/-- Events counted after the shadow remain, and a saturated field returns to 0. -/
theorem test_counter_read :
    ctrVal (nx (Machine.exec (.rcFieldRead 8 [2]) (st fun e => setCtr e .badAccess 7))).eng .badAccess = 2 ∧
    ctrVal (nx (Machine.exec (.rcFieldRead 8 []) (st fun e => setCtr e .badAccess 65535))).eng .badAccess = 0 := by decide +kernel

/-- A read while the shadows are held returns what they showed, and takes it from the count. -/
theorem test_held_read :
    let t := nx (Machine.exec (.rcFieldRead 8 []) { st (fun e => setCtr e .badAccess 7) with shadow := some (setCtr run .badAccess 5) })
    bits t.eng.hub.rdata.toNat 0 16 = 5 ∧ ctrVal t.eng .badAccess = 2 := by decide +kernel

/-- A coefficient selection: word 19 of group 63 with AUTO_INC, and word 16 of group 5 without. -/
def coefState (auto : Bool) (g w : Nat) : State := st fun e => setRw e .updCoefSel (at' (b2n auto) 31 + at' g 8 + w)

/-- Premises of CoefAndObserverReads: each clause at the ends of its ranges, a write that waits for the word, WORD 20. -/
theorem witness_coefAndObserver :
    ((coefState true 63 19).eng.boot.hubLocked = true ∧ (coefState true 63 19).posted = [] ∧
     rwVal (coefState true 63 19).eng .updCoefSel = at' (b2n true) 31 + at' 63 8 + 19 ∧
     rwVal (coefState false 0 0).eng .updCoefSel = at' (b2n false) 31 + at' 0 8 + 0 ∧ portWrites (coefState true 63 19).posted < 32) ∧
    (let s : State := { coefState false 5 17 with posted := [⟨0x1808, 3, some 117, none, 0⟩] }
     s.posted = [] ++ [⟨0x1808, 3, some 117, none, 0⟩] ∧ (20 * 5 + 17 : Nat) = 117) ∧
    20 ≤ bits (rwVal (coefState true 5 20).eng .updCoefSel) 0 5 ∧
    ((st id).eng.combs.length = 50 ∧ (st id).shadow = none ∧ ctrVal (st id).eng (.comb 49 .uflow) < 2 ^ 32) := by
  decide +kernel

/-- The selection goes round after word 19 of group 63. -/
theorem test_coef_selection :
    rwVal (nx (Machine.exec (.coefDataAccess .portRead) (coefState true 63 19))).eng .updCoefSel = 0x80000000 ∧
    coefWord (nx (Machine.exec (.coefDataAccess (.fwWrite 5)) (coefState false 5 16))).eng 116 = 5 := by decide +kernel

/-- A state whose comb 3 has counted underflows. -/
def uflowState : State := st fun e => onComb (setCtr e (.comb 3 .uflow) 9) 3 fun cb => { cb with nonzero := 77 }

/-- The read takes what it shows and copies the live count. -/
theorem test_observer_read :
    ctrVal (nx (Machine.exec (.obsUflowRead 3 2) uflowState)).eng (.comb 3 .uflow) = 2 ∧
    (combOf (nx (Machine.exec (.obsUflowRead 3 2) uflowState)).eng 3).nonzeroShadow = 77 := by decide +kernel

/-- Premises of WritesActAtOnce, from the port and from firmware. -/
theorem witness_writesAct :
    (HubUp (wr 0x70 0x80000000).eng ∧ Presents (wr 0x70 0x80000000) .posted .hubErrFirst 0x80000000) ∧
    (Presents (wr 0x3848 1) .posted .mbxCmdCtrl 1 ∧ (1 : Word).getLsbD 0 = true) ∧
    (Presents (wr 0x38C8 0x80000000) .posted .mbxRspCtrl 0x80000000 ∧ (0x80000000 : Word).getLsbD 31 = true) ∧
    Presents (st id) (.firmware 0x80000000) .hubErrFirst 0x80000000 :=
  ⟨⟨hubUp_of (by decide +kernel), presents_posted rfl (by decide +kernel) rfl (by decide +kernel)⟩,
   ⟨presents_posted rfl (by decide +kernel) rfl (by decide +kernel), by decide⟩, ⟨presents_posted rfl (by decide +kernel) rfl (by decide +kernel), by decide⟩,
   presents_firmware (by decide +kernel)⟩

/-- VALID written as 1 arms the capture; SEND sets BUSY. -/
theorem test_writes_act :
    (nx (Machine.exec (.errFirstRearm (.firmware 0x80000000)) (st fun e => { e with hub := { e.hub with errFirst := some (1, 2) } }))).eng.hub.errFirst
      = none ∧
    (nx (Machine.exec (.send .posted) (wr 0x3848 1))).eng.mbx.busy = true := by decide +kernel

/-- POP removes the oldest message. -/
theorem test_pop :
    (nx (Machine.exec (.pop .posted) (wr 0x38C8 0x80000000 fun e => { e with mbx := { e.mbx with ring := [default] } }))).eng.mbx.ring = [] := by
  decide +kernel

/-! ### The mailboxes -/

/-- An ADOPT in an engine state and HOST_STATE. -/
def adoptState (b : EngState) (h : HostState) (lost : Bool) : State :=
  cmd 11 [] fun e => { e with boot := { e.boot with state := b }, mbx := { e.mbx with host := h, helloLost := lost } }

/-- A command in the mailbox registers, with `n` messages in the ring. -/
def boxed (op n : Nat) : State := st fun e =>
  setRw (setRw { e with mbx := { e.mbx with busy := true, ring := List.replicate n default } } .mbxCmdHdr (0x03020009 + op * 256)) .mbxCmdLen 3

/-- Premises of CommandsTakenAndTurnedAway: eight free entries and nine, an opcode with an owner and one without, and a command that each
check turns away: another version, an opcode above the minor, too few words, a state that does not serve it, a host that drains. -/
theorem witness_commandsTaken :
    procUp (boxed 3 247).eng 3 = true ∧ (boxed 3 247).eng.pwr.pstate = .active ∧ (boxed 3 247).eng.mbx.busy = true ∧
    248 ≤ (boxed 3 248).eng.mbx.ring.length ∧ (boxed 3 247).eng.mbx.ring.length < 248 ∧
    (msgOwner (mailboxMsg (boxed 3 247).eng).msg.opcode.toNat).isSome = true ∧
    msgOwner (mailboxMsg (boxed 0x77 0).eng).msg.opcode.toNat = none ∧
    frontFor (cmd 3 [0x1000, 1]).eng 1 3 = some (msg 3 [0x1000, 1]) ∧ (cmd 3 [0x1000, 1]).eng.mbx.ring.length < 256 ∧
    (let t := msg 3 [0x1000, 1, 9]
     (cmd 3 [] fun e => { e with mbx := { e.mbx with stated := some (3, 1) } }).eng.mbx.stated ≠ some (t.msg.major, t.msg.minor) ∧
     run.mbx.stated = some (t.msg.major, t.msg.minor) ∧ 0 ≤ min t.msg.minor.toNat run.boot.fwMinor.toNat ∧ 3 ≤ t.len ∧ t.len ≤ 16 ∧
     (adoptState .refused .live false).eng.boot.state ∉ [EngState.run] ∧ (adoptState .run .draining false).eng.mbx.host = .draining) ∧
    (let old : Taken := ⟨⟨3, 1, 10, 7, []⟩, 0⟩
     min old.msg.minor.toNat run.boot.fwMinor.toNat < 2) ∧ (msg 3 [0x1000, 1]).len < 3 := by decide +kernel

/-- Too few words, a state that does not serve the command, a host that drains (Table 16-3). -/
theorem test_turned_away :
    ((nx (Machine.exec .graphSubmit (cmd 3 [0x1000, 1]))).eng.mbx.ring.map Msg.words) = [[3]] ∧
    ((nx (Machine.exec .graphSubmit (cmd 3 [0x1000, 1, 9] fun e => { e with boot := { e.boot with state := .refused } }))).eng.mbx.ring.map
      Msg.words) = [[7]] ∧
    ((nx (Machine.exec .graphSubmit (cmd 3 [0x1000, 1, 9] fun e => { e with mbx := { e.mbx with host := .draining } }))).eng.mbx.ring.map
      Msg.words) = [[6]] := by decide +kernel

/-- With nine free entries the command is taken, with eight it waits. -/
theorem test_command_intake :
    (nx (Machine.exec .commandIntake (boxed 3 247))).eng.mbx.busy = false ∧
    (nx (Machine.exec .commandIntake (boxed 3 248))).eng.mbx.busy = true := by decide +kernel

/-- A LOG_QUERY while the shadow holds one record, with the memory ring enabled or not. -/
def asking (on : Nat) : State := cmd 9 [] fun e =>
  setRw { e with log := { e.log with shadow := [default], base := 0x40000, log2 := 8 } } .logCtrl on

/-- Premises of QueriesAnswerState: no record that fits, one that does. -/
theorem witness_queries :
    Servable (cmd 2 []).eng 3 opHeartbeat (msg 2 []) ∧
    (Servable (asking 0).eng 3 opLogQuery (msg 9 []) ∧ logRoom (asking 0).eng = false ∧ (asking 0).eng.log.moving = false ∧
     (asking 0).eng.log.queries = []) ∧
    (Servable (asking 1).eng 3 opLogQuery (msg 9 []) ∧ logRoom (asking 1).eng = true ∧ logFree (asking 1).eng = true ∧
     logFree { (asking 1).eng with pwr := { (asking 1).eng.pwr with padHold := true } } = false) :=
  ⟨servable_of (by decide +kernel), ⟨servable_of (by decide +kernel), by decide +kernel⟩, ⟨servable_of (by decide +kernel), by decide +kernel⟩⟩

/-- HEARTBEAT is answered with the engine state and HOST_STATE. -/
theorem test_heartbeat :
    ((nx (Machine.exec .heartbeat (cmd 2 []))).eng.mbx.ring.map Msg.words) = [[0, 5, 1]] := by decide +kernel

/-- LOG_QUERY leaves LOG_LOST as it is, and is answered once no record fits. -/
theorem test_log_query :
    ctrVal (nx (Machine.exec .logQuery (cmd 9 [] fun e => setCtr e .logLost 4))).eng .logLost = 4 ∧
    (nx (Machine.exec .logQuery (asking 0))).eng.mbx.ring.length = 1 ∧ (nx (Machine.exec .logQuery (asking 1))).eng.mbx.ring.length = 0 := by
  decide +kernel

/-- Premises of HelloSetsVersionAndState: the firmware's major in each state, another major, and the least period. -/
theorem witness_hello :
    frontFor (cmd 1 [100, 0]).eng 1 opHello = some (msg 1 [100, 0]) ∧ (cmd 1 [100, 0]).eng.mbx.ring.length < 256 ∧
    (msg 1 [100, 0]).msg.major = (cmd 1 [100, 0]).eng.boot.fwMajor ∧ 2 ≤ (msg 1 [100, 0]).len ∧ (msg 1 [100, 0]).len ≤ 16 ∧
    100 ≤ msgWord (msg 1 [100, 0]).msg 0 ∧ (cmd 1 [100, 0]).eng.boot.state ∈ [EngState.fwCheck, .run, .refused, .orphaned] ∧
    (msg 1 [100, 0]).msg.major ≠ (cmd 1 [100, 0] fun e => { e with boot := { e.boot with fwMajor := 4 } }).eng.boot.fwMajor ∧
    (msg 1 [100]).len < 2 ∧ msgWord (msg 1 [99, 0]).msg 0 ≠ 0 ∧ msgWord (msg 1 [99, 0]).msg 0 < 100 ∧ 2 ≤ (msg 1 [99, 0]).len ∧
    (cmd 1 [100, 0] fun e => { e with boot := { e.boot with state := .awaitFw } }).eng.boot.state ∉
      [EngState.fwCheck, .run, .refused, .orphaned] := by
  decide +kernel

/-- HELLO moves FW_CHECK to RUN, or to REFUSED with another major. -/
theorem test_hello :
    (nx (Machine.exec .hello (cmd 1 [100, 0] fun e => { e with boot := { e.boot with state := .fwCheck } }))).eng.boot.state = .run ∧
    (nx (Machine.exec .hello (cmd 1 [0, 0] fun e => { e with boot := { e.boot with state := .fwCheck, fwMajor := 4 } }))).eng.boot.state
      = .refused ∧
    ((nx (Machine.exec .hello (cmd 1 [99, 0]))).eng.mbx.ring.map Msg.words) = [[4]] := by decide +kernel

/-- A state with `n` graphs that are not done and the given command. -/
def queued (op : Byte) (n : Nat) : State := cmd op [0x1000, 1, 9] fun e =>
  { e with sch := { e.sch with nextGid := 254, queue := List.replicate n ⟨3, 0, 0, none⟩ } }

/-- Premises of SubmitQueuesGraph: seven graphs not done, and eight. -/
theorem witness_submit :
    Servable (queued 3 7).eng 1 opSubmit (msg 3 [0x1000, 1, 9]) ∧ Servable (queued 8 7).eng 1 opCheckpoint (msg 8 [0x1000, 1, 9]) ∧
    Servable (queued 3 8).eng 1 opSubmit (msg 3 [0x1000, 1, 9]) ∧ Servable (queued 8 8).eng 1 opCheckpoint (msg 8 [0x1000, 1, 9]) ∧
    msgAddr (msg 3 [0x1000, 1, 9]).msg 0 128 = some (0x1000 + 2 ^ 32) ∧ notDone (queued 3 7).eng < 8 ∧ 8 ≤ notDone (queued 3 8).eng ∧
    notDone (queued 8 7).eng < 8 ∧ 8 ≤ notDone (queued 8 8).eng ∧ Servable (cmd 3 [1, 0, 0]).eng 1 opSubmit (msg 3 [1, 0, 0]) ∧
    msgAddr (msg 3 [1, 0, 0]).msg 0 128 = none ∧ cellsWf (queued 8 7).eng.sch.ckptArea = true :=
  ⟨servable_of (by decide +kernel), servable_of (by decide +kernel), servable_of (by decide +kernel),
   servable_of (by decide +kernel), by decide +kernel, by decide +kernel, by decide +kernel, by decide +kernel, by decide +kernel,
   servable_of (by decide +kernel), by decide +kernel⟩

/-- GRAPH_ID 254 is followed by 0. -/
theorem test_submit :
    (nx (Machine.exec .graphSubmit (queued 3 7))).eng.sch.nextGid = 0 ∧
    (nx (Machine.exec .graphSubmit (queued 3 7))).eng.sch.queue.length = 8 := by decide +kernel

/-- A checkpoint's graph joins the queue at its head. -/
theorem test_checkpoint_request :
    ((nx (Machine.exec .checkpointRequest (queued 8 7))).eng.sch.queue.head?.map Submitted.gid) = some 254 := by decide +kernel

/-- Premises of GraphAbortEndsGraph: a queued graph, the running graph, one that is neither. -/
theorem witness_abort :
    (let s := cmd 4 [3] fun e => withGraph graph0 { e with sch := { e.sch with queue := [⟨3, 0, 9, none⟩] } }
     Servable s.eng 1 opAbort (msg 4 [3]) ∧ s.eng.mbx.ring.length < 254 ∧ msgWord (msg 4 [3]).msg 0 < 255 ∧
     (s.eng.sch.queue.find? fun x => x.gid == msgWord (msg 4 [3]).msg 0) = some ⟨3, 0, 9, none⟩ ∧ s.eng.mbx.abortReplies = []) ∧
    (let s := cmd 4 [5] (withGraph graph0)
     Servable s.eng 1 opAbort (msg 4 [5]) ∧ (s.eng.sch.queue.find? fun x => x.gid == msgWord (msg 4 [5]).msg 0) = none ∧
     s.eng.sch.run = some graph0 ∧ graph0.sub.gid = msgWord (msg 4 [5]).msg 0 ∧ graph0.stop = none) ∧
    (let s := cmd 4 [254] (withGraph graph0)
     Servable s.eng 1 opAbort (msg 4 [254]) ∧ (s.eng.sch.queue.find? fun x => x.gid == msgWord (msg 4 [254]).msg 0) = none ∧
     s.eng.sch.run = some graph0 ∧ graph0.sub.gid ≠ msgWord (msg 4 [254]).msg 0 ∧ msgWord (msg 4 [254]).msg 0 < 255) := by
  exact ⟨⟨servable_of (by decide +kernel), by decide +kernel⟩, ⟨servable_of (by decide +kernel), by decide +kernel⟩,
    ⟨servable_of (by decide +kernel), by decide +kernel⟩⟩

/-- A queued graph that is aborted is done. -/
theorem test_abort :
    (nx (Machine.exec .graphAbort (cmd 4 [3] fun e => { e with sch := { e.sch with queue := [⟨3, 0, 9, none⟩] } }))).eng.sch.queue = [] := by
  decide +kernel

/-- Fences: the first `k` combs are fenced by fuse and comb 49 has the given cause. -/
def fenced (k cause : Nat) (e : Engine) : Engine :=
  { e with fences := (List.range 50).map fun i => { cause := if i = 49 then cause else if i < k then 1 else 0 } }

/-- Premises of FenceRequestsCloseAndOpen: a number above 49, a comb fenced already, an enabled one; for UNFENCE a comb not fenced,
one fenced at run time with 47 and with 48 others enabled. -/
theorem witness_fence :
    (Servable (cmd 5 [50]).eng 1 opFence (msg 5 [50]) ∧ 50 ≤ msgWord (msg 5 [50]).msg 0) ∧
    (Servable (cmd 5 [49] (fenced 0 1)).eng 1 opFence (msg 5 [49]) ∧ (49 : CombId).val = msgWord (msg 5 [49]).msg 0 ∧
     enabled (cmd 5 [49] (fenced 0 1)).eng 49 = false) ∧
    (Servable (cmd 5 [49]).eng 1 opFence (msg 5 [49]) ∧ enabled (cmd 5 [49]).eng 49 = true ∧ (cmd 5 [49]).eng.fences.length = 50 ∧
     (cmd 5 [49]).eng.combs.length = 50 ∧ (cmd 5 [49]).eng.pwr.islands.length = 57 ∧ (cmd 5 [49]).eng.sch.run = none) ∧
    (let s := cmd 5 [3] fun e => withGraph { graph0 with tasks := [fwd], fetch := 2 } e
     Servable s.eng 1 opFence (msg 5 [3]) ∧ s.eng.pwr.padHold = false ∧ enabled s.eng 3 = true ∧
     s.eng.sch.run = some { graph0 with tasks := [fwd], fetch := 2 } ∧ runsIn fwd 3 = true ∧
     { s.eng with pwr := { s.eng.pwr with padHold := true } }.pwr.padHold = true ∧ s.eng.sch.run.isSome = true) ∧
    (Servable (cmd 6 [49] (fenced 2 0)).eng 1 opUnfence (msg 6 [49]) ∧ (fenceOf (cmd 6 [49] (fenced 2 0)).eng 49).cause ≤ 1) ∧
    (Servable (cmd 6 [49] (fenced 2 4)).eng 1 opUnfence (msg 6 [49]) ∧ (cmd 6 [49] (fenced 2 4)).eng.fences.length = 50 ∧
     1 < (fenceOf (cmd 6 [49] (fenced 2 4)).eng 49).cause ∧ (fenceOf (cmd 6 [49] (fenced 2 4)).eng 49).pending = false ∧
     admitCount (cmd 6 [49] (fenced 2 4)).eng < 48) ∧
    (Servable (cmd 6 [49] (fenced 1 4)).eng 1 opUnfence (msg 6 [49]) ∧ 48 ≤ admitCount (cmd 6 [49] (fenced 1 4)).eng) :=
  ⟨⟨servable_of (by decide +kernel), by decide⟩, ⟨servable_of (by decide +kernel), by decide +kernel⟩,
   ⟨servable_of (by decide +kernel), by decide +kernel⟩,
   ⟨servable_of (by decide +kernel), by decide +kernel, by decide +kernel, rfl, by decide +kernel⟩,
   ⟨servable_of (by decide +kernel), by decide +kernel⟩,
   ⟨servable_of (by decide +kernel), by decide +kernel⟩, ⟨servable_of (by decide +kernel), by decide +kernel⟩⟩

/-- A fenced comb is closed with its cause, and no other. -/
theorem test_fence :
    fenceOf (nx (Machine.exec .fenceRequest (cmd 5 [49]))).eng 49 = { cause := 4 } ∧
    enabled (nx (Machine.exec .fenceRequest (cmd 5 [49]))).eng 48 = true ∧
    ((taskOf (nx (Machine.exec .fenceRequest (cmd 5 [3] (withGraph { graph0 with tasks := [fwd], fetch := 2 })))).eng 0).map fun t =>
      (t.life, t.head)) = some (.ready, true) := by decide +kernel

/-- UNFENCE sets UNFENCE_PENDING. -/
theorem test_unfence :
    (fenceOf (nx (Machine.exec .unfenceRequest (cmd 6 [49] (fenced 2 4)))).eng 49).pending = true ∧
    (fenceOf (nx (Machine.exec .unfenceRequest (cmd 6 [49] (fenced 1 4)))).eng 49).pending = false := by decide +kernel

/-- A MODE_SET with the combs at a step and the rail at a code. -/
def modeState (n : Word) (step vid : Nat) : State :=
  cmd 7 [n] fun e => { e with pwr := { e.pwr with step := step, stepReq := step, vid := vid, vidReq := vid } }

/-- Premises of ModeSetStartsChange: the envelope in effect, a higher one, a lower one. -/
theorem witness_modeSet :
    (Servable (modeState 2 (envStep 2) (envVid 2)).eng 0 opModeSet (msg 7 [2]) ∧
     (let e := (modeState 2 (envStep 2) (envVid 2)).eng
      e.mbx.modeReply = none ∧ msgWord (msg 7 [2]).msg 0 = 2 ∧ hubClock e = true ∧ e.pwr.pstate = .active ∧ e.pwr.forced = false ∧ e.pwr.goodCore = true ∧ e.pwr.goodSince = true ∧
      e.pwr.changing = false ∧ e.pwr.stepHeld = false ∧ e.pwr.vidHeld = false ∧ e.pwr.stepReq = e.pwr.step ∧
      e.pwr.vidReq = e.pwr.vid ∧ e.pwr.step = envStep 2 ∧ e.pwr.vid = envVid 2)) ∧
    (Servable (modeState 0 2 40).eng 0 opModeSet (msg 7 [0]) ∧ (modeState 0 2 40).eng.pwr.vid < envVid 0 ∧
     minVid (modeState 0 2 40).eng.pwr.step ≤ envVid 0) ∧
    (Servable (modeState 2 9 80).eng 0 opModeSet (msg 7 [2]) ∧ envVid 2 < (modeState 2 9 80).eng.pwr.vid ∧
     envStep 2 < (modeState 2 9 80).eng.pwr.step ∧ ∀ i ∈ (modeState 2 9 80).eng.pwr.islands, i.hold = false) :=
  ⟨⟨servable_of (by decide +kernel), by decide +kernel⟩, ⟨servable_of (by decide +kernel), by decide +kernel⟩,
   ⟨servable_of (by decide +kernel), by decide +kernel⟩⟩

/-- The voltage rises before the frequency. -/
theorem test_mode_set :
    (nx (Machine.exec .modeSet (modeState 0 2 40))).eng.pwr.vid = envVid 0 ∧
    (nx (Machine.exec .modeSet (modeState 0 2 40))).eng.pwr.step = 2 := by decide +kernel

/-- Premises of HostLossParksAndAdopts, clause by clause. -/
theorem witness_hostLoss :
    (Servable (cmd 10 [] (withGraph graph0)).eng 1 opPark (msg 10 []) ∧ (cmd 10 [] (withGraph graph0)).eng.boot.state = .run ∧
     (cmd 10 [] (withGraph graph0)).eng.sch.run = some graph0) ∧
    (Servable (cmd 10 []).eng 1 opPark (msg 10 []) ∧ (cmd 10 []).eng.sch.run = none ∧ (cmd 10 []).eng.mbx.parkReplies = [] ∧
     (cmd 10 []).eng.mbx.modeReply = none) ∧
    (Servable (adoptState .orphaned .orphaned true).eng 1 opAdopt (msg 11 []) ∧
     (adoptState .orphaned .orphaned true).eng.mbx.helloLost = true) ∧
    (Servable (adoptState .run .draining false).eng 1 opAdopt (msg 11 []) ∧
     (adoptState .run .draining false).eng.mbx.helloLost = false ∧ (adoptState .run .draining false).eng.mbx.host ≠ .live) ∧
    ((st fun e => { e with mbx := { e.mbx with host := .none } }).eng.mbx.host = .none ∧ (st id).eng.mbx.host = .live ∧
     (st id).eng.mbx.hbRunning = true ∧ (st id).eng.boot.state = .run ∧
     (st fun e => { e with pwr := { e.pwr with pstate := .idle } }).eng.pwr.pstate = .idle ∧
     (st (withGraph graph0)).eng.pwr.pstate = .active ∧ procUp (st (withGraph graph0)).eng 1 = true ∧
     procUp (st fun e => onIsland e 55 fun i => { i with stopped := true }).eng 1 = false) :=
  ⟨⟨servable_of (by decide +kernel), by decide +kernel⟩, ⟨servable_of (by decide +kernel), by decide +kernel⟩,
   ⟨servable_of (by decide +kernel), by decide +kernel⟩, ⟨servable_of (by decide +kernel), by decide +kernel⟩, by decide +kernel⟩

/-- With no graph PARK leads to ORPHANED. -/
theorem test_park : (nx (Machine.exec .park (cmd 10 []))).eng.boot.state = .orphaned := by decide +kernel

/-- ADOPT after a HELLO leads back to RUN. -/
theorem test_adopt : (nx (Machine.exec .adopt (adoptState .orphaned .orphaned true))).eng.boot.state = .run := by decide +kernel

/-- A timeout drains the host while a graph runs. -/
theorem test_heartbeat_timeout :
    (nx (Machine.exec .heartbeatTimeout (st (withGraph graph0)))).eng.mbx.host = .draining := by decide +kernel

/-! ### The scheduler -/

/-- Premises of GraphAdmitStartsOrRefuses: a header of zeros, and a valid header with empty tables. -/
theorem witness_graphAdmit :
    admitReady submitted.eng = true ∧ submitted.eng.sch.queue = [⟨5, 0x1000, 77, none⟩] ∧
    (let bs := subBytes (landed submitted.mem []) submitted.eng ⟨5, 0x1000, 77, none⟩ 0x1000 128
     ¬(0x1000 % 128 = 0 ∧ headerOk bs (parseHeader bs) = true) ∧
     subPoisoned (landed submitted.mem []) submitted.eng ⟨5, 0x1000, 77, none⟩ 0x1000 128 = false) ∧
    submitted.eng.mbx.ring.length < 256 ∧ submitted.eng.mbx.abortReplies = [] ∧
    (let m := landed submitted.mem header
     let bs := subBytes m submitted.eng ⟨5, 0x1000, 77, none⟩ 0x1000 128
     let h := parseHeader bs
     headerOk bs h = true ∧ readCarousel m submitted.eng h = some [] ∧ readVersions m submitted.eng h = some [] ∧
     readGen m submitted.eng h = some none ∧ readRegions m submitted.eng h = some []) := by decide +kernel

/-- A valid graph runs, a header of zeros is refused. -/
theorem test_graph_admit :
    (nx (Machine.exec (.graphAdmit header) submitted)).eng.sch.phase = .run ∧
    (nx (Machine.exec (.graphAdmit []) submitted)).eng.hub.errFirst = some (0xF0, 16) := by decide +kernel

/-- A BARRIER record with one predecessor at TASK_BASE. -/
def taskLine (pred : Nat) : List MemLine :=
  [ln 0x2000 ([10, 0, 0, 0] ++ leBytes 4 0 ++ leBytes 2 pred ++ leBytes 2 0 ++ List.replicate 11 0 ++ [0xFF])]

/-- Premises of TaskFetchEntersWindow. -/
theorem witness_taskFetch :
    (let s := st (withGraph graph0)
     let m := landed s.mem (taskLine 1)
     let r := taskRecAt m s.eng graph0 0
     running s.eng = true ∧ s.eng.sch.run = some graph0 ∧ graph0.stop = none ∧ graph0.tasks.length < 4096 ∧
     graph0.fetch < graph0.hdr.tasks ∧ nextIndex graph0 (graph0.hdr.tasks - graph0.fetch) graph0.fetch = 0 ∧
     subPoisoned m s.eng graph0.sub (graph0.hdr.taskBase + 128 * 0) 128 = false ∧ graph0.lastStep ≤ r.step ∧
     recordBad s.eng graph0 r = false ∧ r.kind ≠ kGENLOOP ∧ recordBad s.eng graph0 (recOf kGENLOOP) = true) := by decide +kernel

/-- A record with a predecessor that has not arrived waits. -/
theorem test_task_fetch :
    ((taskOf (nx (Machine.exec (.taskFetch (taskLine 1)) (st (withGraph graph0)))).eng 0).map Task.life) = some .fetched ∧
    ((taskOf (nx (Machine.exec (.taskFetch (taskLine 0)) (st (withGraph graph0)))).eng 0).map Task.life) = some .ready := by
  decide +kernel

/-- A ready task. -/
def ready (kind : Nat) : Task := { index := 0, record := { recOf kind with arg := 0x8000 }, life := .ready }

/-- Premises of DispatchTakesBestReady: a LIGHT task that ranks before a BUCKET task, a BUCKET task, a comb task, a class 2 task. -/
theorem witness_dispatch :
    (let o : Task := { index := 1, record := { recOf kBUCKET with cls := 1 }, life := .ready }
     let s := tasks [ready kLIGHT, o]
     let g : Graph := { graph0 with tasks := [ready kLIGHT, o], fetch := 2 }
     running s.eng = true ∧ s.eng.pwr.padHold = false ∧ s.eng.sch.run = some g ∧ g.stop = none ∧
     taskOf s.eng 0 = some (ready kLIGHT) ∧ canGo s.eng g (ready kLIGHT) = true ∧ s.eng.combs.length = 50 ∧
     (∀ x ∈ g.tasks, x ≠ ready kLIGHT → x.life = .ready → canGo s.eng g x = true → lexLt (rankOf g (ready kLIGHT)) (rankOf g x) = true) ∧
     (ready kLIGHT).record.epilogue = 0 ∧ (ready kLIGHT).record.arg.toNat % 32 = 0) ∧
    (let s := tasks [ready kBUCKET]
     canGo s.eng { graph0 with tasks := [ready kBUCKET], fetch := 2 } (ready kBUCKET) = true ∧ s.eng.lnk.buckets = [] ∧
     signBroadcast (landed s.mem []) s.eng (ready kBUCKET).record = false ∧
     signBroadcast (landed s.mem [ln 0x8000 [0, 0, 3]]) s.eng (ready kBUCKET).record = true) ∧
    (let t : Task := { ready kFWD with record := recOf kFWD }
     canGo (tasks [t]).eng { graph0 with tasks := [t], fetch := 2 } t = true ∧ isCombTask t.record = true ∧
     skips (tasks [t]).eng t.record = false) ∧
    (let t : Task := { ready kBARRIER with record := { recOf kBARRIER with cls := 2 } }
     taskOf (tasks [t]).eng 0 = some t ∧ t.life = .ready ∧ t.record.cls = 2 ∧ 0 < ageUs (tasks [t]).eng) := by
  decide +kernel

/-- A LIGHT task starts its list; a class 2 task ages. -/
theorem test_dispatch :
    (nx (Machine.exec (.taskDispatch []) (tasks [ready kLIGHT]))).eng.hf.light = some (0, 0) ∧
    ((taskOf (nx (Machine.exec (.taskAge 0) (tasks [{ ready kBARRIER with record := { recOf kBARRIER with cls := 2 } }]))).eng 0).map Task.aged)
      = some true ∧
    ((taskOf (nx (Machine.exec (.taskDispatch [ln 0x8000 [0, 0, 3]]) (tasks [ready kBUCKET]))).eng 0).map Task.life)
      = some (.ended .link 3 codeTaskInvalid) := by decide +kernel

/-- Its descriptors: X in ring 0, weights in ring 1, the output. -/
def fwdDescs : AMap Nat Desc :=
  let d : Desc := { (default : Desc) with base := 0x10000, sizes := [32, 2, 1, 1, 1], strides := [0, 16, 0, 0, 0], format := fF32,
                                          layout := lCV32, credits := 3 }
  [(rROW, d), (rCOL, { d with base := 0x20000, sizes := [32, 2, 1, 1, 1], strides := [0, 3, 0, 0, 0], format := fW4, layout := lWROW, ring := 1 }),
   (rOUT, { d with base := 0x30000, sizes := [2, 2, 1, 1, 1], dir := true, ring := 31, credits := 0 })]

/-- A state that runs it in context 0, changed further. -/
def prod (f : Engine → Engine := id) : State := tasks [fwd] fun e =>
  f (onComb e 3 fun cb => { cb with ctxs := [some { task := 0, descs := fwdDescs }, none, none, none] })

/-- Premises of RingBindTakesSlots: with a full pool, and with two slots left. -/
theorem witness_ringBind :
    (works prod.eng 3 = true ∧ prod.eng.combs.length = 50 ∧ (combOf prod.eng 3).rings.length = 12 ∧
     ringOf prod.eng 3 0 = none ∧ ((ringUsers prod.eng 3 0).head?.map fun u => u.2.2.2.2.credits) = some 3 ∧
     3 ≤ min 3 (combOf prod.eng 3).freeSlots) ∧
    min 3 (combOf (prod fun e => onComb e 3 fun cb => { cb with freeSlots := 2 }).eng 3).freeSlots < 3 := by decide +kernel

/-- A bound ring takes its slots from the pool. -/
theorem test_ring_bind :
    ((ringOf (nx (Machine.exec (.ringBind 3 0) prod)).eng 3 0).map Ring.slots) = some 3 ∧
    (combOf (nx (Machine.exec (.ringBind 3 0) prod)).eng 3).freeSlots = 61 := by decide +kernel

/-- A task that has ended beside one that has not. -/
def ended (status code : Nat) : State :=
  tasks [{ index := 0, record := recOf kLIGHT, life := .ended .hub status code }, { index := 1, record := recOf kBARRIER }]

/-- The product, all its tiles committed and stored, beside a task that waits. -/
def worked : State :=
  tasks [{ fwd with commTiles := [0], doneTiles := [0] }, { index := 1, record := recOf kBARRIER }]

/-- A graph's only task, ended, every record fetched. -/
def lastEnded : State := tasks [{ index := 0, record := recOf kLIGHT, life := .ended .hub 1 0 }]

/-- A generation table of 32 contexts of which one is active. -/
def genTable : Gen :=
  { tokenAddr := 0xA000, posAddr := 0xB000
    ctxs := { active := true, pos := 3, maxPos := 9, stop := 5 } :: List.replicate 31 ⟨false, 0, 0, 0⟩ }

/-- A SELECT task in context 0 of comb 3, whose logits come through side ring 0: all landed, or not yet asked for. -/
def selecting (here : Bool) : State :=
  tasks [{ index := 0, record := { recOf kSELECT with drefs := [0, 0, 0, 0, 0, 0x83, 0, 0] }, life := .running (.comb 3) }] fun e =>
    onGraph (onComb e 3 fun cb =>
      let d : Desc := { (default : Desc) with base := 0x20000, sizes := [32, 2, 1, 1, 1], strides := [0, 16, 0, 0, 0], format := fF32,
                                              layout := lCV32, ring := 8, credits := 3 }
      { cb with ctxs := [some { task := 0, descs := [(rSIDE0, d)] }, none, none, none]
                rings := List.replicate 8 none ++ [some { slots := 3, streams := [{ task := 0, ctx := 0, role := rSIDE0, ended := here }] }] ++
                  List.replicate 3 none }) fun g => { g with gen := some genTable }

/-- A GEN_LOOP task over that table. -/
def looping : State := tasks [{ index := 0, record := { recOf kGENLOOP with arg := 0 }, life := .running .hub }] fun e =>
  onGraph e fun g => { g with gen := some genTable }

/-- Premises of TaskCompleteWritesRecord: an OK task, a failed one, a product that has done its work, a graph's last task, a SELECT task whose
logits have come and one whose have not, a loop that goes on. -/
theorem witness_taskComplete :
    (running (ended 1 0).eng = true ∧ graph0.stop = none ∧ graph0.sub.ckpt = none ∧
     taskOf (ended 1 0).eng 0 = some { index := 0, record := recOf kLIGHT, life := .ended .hub 1 0 } ∧
     writesOpen (ended 1 0).eng 0 = false ∧ graph0.hdr.completionBase + 8 * 0 + 8 ≤ 2 ^ 52) ∧
    (∃ g, (ended 1 0).eng.sch.run = some g ∧ (∃ o ∈ g.tasks, o.index ≠ 0) ∧ ∀ o ∈ g.tasks, o.index ≠ noTask) ∧
    (taskOf (ended 3 2).eng 0).map Task.life = some (.ended .hub 3 2) ∧ (ended 3 2).eng.hub.errFirst = none ∧
    EndsWith (ended 1 0).eng { index := 0, record := recOf kLIGHT, life := .ended .hub 1 0 } .hub 1 0 ∧
    EndsWith worked.eng { fwd with commTiles := [0], doneTiles := [0] } (.comb 3) 1 0 ∧
    (∃ g, lastEnded.eng.sch.run = some g ∧ (∀ o ∈ g.tasks, o.index = 0) ∧ g.hdr.tasks ≤ g.fetch) ∧
    (rowsLeft lastEnded.eng = false ∧ lastEnded.eng.mbx.host ≠ .draining ∧ procUp lastEnded.eng 1 = true) ∧
    (running (selecting true).eng = true ∧ lastWaits (selecting true).eng 0 = false ∧ writesOpen (selecting true).eng 0 = false ∧
     genTable.tokenAddr + 128 ≤ 2 ^ 52 ∧ (ctxFor (selecting true).eng 3 0).map Prod.fst = some 0 ∧
     ((ctxFor (selecting true).eng 3 0).bind fun p => selectHolder (selecting true).eng 3 p.2) = some 0 ∧
     ((ctxFor (selecting true).eng 3 0).map fun p => operandsHere (selecting true).eng 3 p.2 { recOf kSELECT with drefs := [0, 0, 0, 0, 0, 0x83, 0, 0] })
       = some true ∧
     ((ctxFor (selecting false).eng 3 0).map fun p => operandsHere (selecting false).eng 3 p.2 { recOf kSELECT with drefs := [0, 0, 0, 0, 0, 0x83, 0, 0] })
       = some false) ∧
    (running looping.eng = true ∧ writesOpen looping.eng 0 = false ∧ lastWaits looping.eng 0 = false ∧ genTable.ctxs.length = 32 ∧
     (taskOf looping.eng 0).map Task.life = some (.running .hub) ∧ genTable.tokenAddr + 128 ≤ genTable.posAddr ∧
     genTable.posAddr + 128 ≤ 2 ^ 52 ∧ (∃ c, genTable.ctxs[0]? = some c ∧ c.active = true ∧ 7 ≠ c.stop ∧ ¬ c.maxPos ≤ c.pos + 1)) := by
  refine ⟨by decide +kernel, ⟨_, rfl, by decide +kernel, by decide +kernel⟩, by decide +kernel, by decide +kernel,
    .inl ⟨rfl, .inl rfl⟩, .inr (.inr ⟨3, rfl, rfl, .inr ⟨rfl, by simp only [workDone]; decide +kernel, .inl ⟨rfl, rfl, rfl⟩⟩⟩),
    ⟨_, rfl, by decide +kernel, by decide +kernel⟩, by decide +kernel, by decide +kernel, by decide +kernel, by decide +kernel,
    by decide +kernel, by decide +kernel, by decide +kernel, by decide +kernel, by decide +kernel, ⟨_, rfl, by decide⟩⟩

/-- The failed task is captured and leaves the window. -/
theorem test_task_complete :
    (nx (Machine.exec (.taskComplete 0 []) (ended 3 2))).eng.hub.errFirst = some (BitVec.ofNat 8 (unitByte .hub), 2) ∧
    taskOf (nx (Machine.exec (.taskComplete 0 []) (ended 3 2))).eng 0 = none ∧
    taskOf (nx (Machine.exec (.taskComplete 0 []) worked)).eng 0 = none := by decide +kernel

/-- The last task ends its graph; a loop moves its active context on by the token drawn, or ends with the last one at its stop token. -/
theorem test_graph_end :
    ((nx (Machine.exec (.taskComplete 0 []) lastEnded)).eng.mbx.ring.map fun x => (x.opcode, x.words)) = [(0xC1, [5, 77, 0, 0x1FFFFF, 1])] ∧
    (let t := nx (Machine.exec (.taskComplete 0 [ln 0xA000 [7]]) looping)
     ((t.eng.sch.run.bind Graph.gen).bind fun x => x.ctxs[0]?) = some ⟨true, 4, 9, 5⟩) ∧
    (nx (Machine.exec (.taskComplete 0 [ln 0xA000 [5]]) looping)).eng.sch.run = none := by decide +kernel

/-- A SELECT task writes its tokens once its logits are there. -/
theorem test_select :
    ((taskOf (nx (Machine.exec (.taskComplete 0 []) (selecting true))).eng 0).map Task.commTiles) = some [0] ∧
    ((taskOf (nx (Machine.exec (.taskComplete 0 []) (selecting false))).eng 0).map Task.commTiles) = some [] := by decide +kernel

/-- A graph that has been asked to stop. -/
def stopped (code : Nat) (f : Engine → Engine := id) : State := st fun e => f (withGraph { graph0 with stop := some code } e)

/-- Premises of GraphStopEndsGraph, awake and in NAP. -/
theorem witness_graphStop :
    (stopped 1).eng.sch.run = some { graph0 with stop := some 1 } ∧ hubAlive (stopped 1).eng = true ∧ procUp (stopped 1).eng 1 = true ∧
    (stopped 1).eng.mbx.ring.length < 256 ∧ (stopped 1).eng.mbx.abortReplies = [] ∧ (stopped 1).eng.mbx.host ≠ .draining ∧
    1 ≠ codeHalted ∧ (stopped 1).eng.combs.length = 50 ∧
    hubAlive (stopped 1 fun e => { e with pwr := { e.pwr with pstate := .nap } }).eng = false ∧
    hubAlive (stopped 1 fun e => { e with pwr := { e.pwr with padHold := true } }).eng = false ∧
    hubAlive (stopped 1 fun e => onIsland e 50 fun i => { i with stopped := true }).eng = false := by decide +kernel

/-- The stopped graph is done. -/
theorem test_graph_stop :
    (nx (Machine.exec .graphStop (stopped 1))).eng.sch.done = [5] ∧ (nx (Machine.exec .graphStop (stopped 1))).eng.hub.graphDone = true := by
  decide +kernel

/-! ### Frames -/

/-- One dense step: row i presents 1 and -1, column j presents 2 and 3. -/
def stepIn : StepIn := { accB := false, rows := List.replicate 64 (.code 1 (-1)), cols := List.replicate 64 (.code 2 3) }

/-- A sparse step: row i presents an occupied slot of code -2 at position 7, column j a group of eight elements. -/
def slotIn : StepIn :=
  { accB := true, rows := List.replicate 64 (.slot true 7 (-2)), cols := List.replicate 64 (.group [0, 0, 0, 0, 0, 0, 0, 5] [0, 0, 0, 0, 0, 0, 0, 3]) }

/-- A sampled step in which every cell owns position 7. -/
def sampledIn : StepIn :=
  { accB := false, sampled := true, rows := List.replicate 64 (.code 1 (-1)), cols := List.replicate 64 (.group [0, 0, 0, 0, 0, 0, 0, 5] [])
    owner := List.replicate 64 (List.replicate 64 (some 7)) }

/-- Premises of CellsTakeStepsInSkew: the last working cell, reached 126 cycles after the step entered, one not reached, a check cell, the
corner, and each form of a step. -/
theorem witness_cells :
    (elemD (List.replicate 126 none ++ [some stepIn]) (63 + 63) none = some stepIn ∧ stepIn.rows[63]? = some (.code 1 (-1)) ∧
     stepIn.cols[63]? = some (.code 2 3) ∧ elemD (List.replicate 126 none ++ [some stepIn]) (0 + 0) none = none) ∧
    (slotIn.rows[0]? = some (.slot true 7 (-2)) ∧ (-10 : Int) = -2 * elemD [0, 0, 0, 0, 0, 0, 0, 5] 7 0 ∧
     (sampledIn.rows[0]? = some (.code 1 (-1)) ∧ elemD (elemD sampledIn.owner 0 []) 0 none = some 7)) ∧
    (elemD (List.replicate 128 none ++ [some stepIn]) (64 + 64) none = some stepIn) ∧ StepFormed stepIn ∧ StepFormed slotIn ∧
    StepFormed sampledIn := by
  have own : ∀ i j p, elemD (elemD sampledIn.owner i []) j none = some p → p < 8 := by
    intro i j p h
    have hi : elemD sampledIn.owner i [] = List.replicate 64 (some 7) ∨ elemD sampledIn.owner i [] = [] := by
      simp only [elemD, sampledIn, List.getElem?_replicate]; split <;> simp
    rcases hi with e | e <;> rw [e] at h
    · simp only [elemD, List.getElem?_replicate] at h; split at h <;> simp_all <;> omega
    · simp [elemD] at h
  refine ⟨by decide +kernel, by decide +kernel, by decide +kernel, ⟨rfl, rfl, .inl ⟨rfl, ?_, ?_⟩⟩, ⟨rfl, rfl, .inr (.inl ⟨rfl, ?_, ?_⟩)⟩,
    ⟨rfl, rfl, .inr (.inr ⟨rfl, ?_, ?_, own⟩)⟩⟩ <;> intro x hx <;> rw [List.eq_of_mem_replicate hx] <;> simp

/-- The cell adds the step's product, and wraps with its overflow flag at the end of its range. -/
theorem test_cell :
    (accOf (cellStep stepIn 0 0 {}) false).val = BitVec.ofInt 24 (-1) ∧
    accOf (cellStep stepIn 0 0 { a := { val := 0x800000 } }) false = { val := 0x7FFFFF, ovf := true } ∧
    (accOf (cellStep slotIn 0 0 {}) true).val = BitVec.ofInt 24 (-10) ∧ (accOf (cellStep slotIn 0 0 {}) true).corr = 3 ∧
    (accOf (cellStep sampledIn 0 0 {}) false).val = 5 := by decide +kernel

/-- Comb 3's rings 0 and 1 bound, with the streams of the product past its one tile. -/
def bound (f : Engine → Engine := id) : State := prod fun e => f (onComb e 3 fun cb =>
  let ring (role : Nat) : Option Ring := some { slots := 3, streams := [{ task := 0, ctx := 0, role := role, ended := true }] }
  { cb with rings := [ring rROW, ring rCOL] ++ List.replicate 10 none })

/-- The product with a transform whose blocks its tile does not start. -/
def misfit (e : Engine) : Engine := onTask (onGraph e fun g => { g with layers := [[0, 0, 1] ++ List.replicate 13 0] }) 0 fun t =>
  { t with offsets := [(0, 16)] }

/-- The candidate of context 0. -/
def cand (e : Engine) : Cand :=
  { x := 0, k := { task := 0, descs := fwdDescs }, tk := (taskOf e 0).getD default, mask := 0, tile := 0 }

/-- Premises of TileIssueTakesLowestClass: a tile that can be issued, and one that can not run. -/
theorem witness_tileIssue :
    (works bound.eng 3 = true ∧ bound.eng.combs.length = 50 ∧ (combOf bound.eng 3).frames.length = 4 ∧
     candidates bound.eng 3 0 = [cand bound.eng] ∧
     tileError (landed bound.mem []) bound.eng 3 (cand bound.eng).k (cand bound.eng).tk 0 0 = none ∧
     accepts (frameOf bound.eng 3 0) (cand bound.eng).tk.record = true ∧ issuable bound.eng 3 (cand bound.eng) = true) ∧
    (candidates (bound misfit).eng 3 0 = [cand (bound misfit).eng] ∧
     tileError (landed (bound misfit).mem []) (bound misfit).eng 3 (cand (bound misfit).eng).k (cand (bound misfit).eng).tk 0 0
       = some codeXformAlign) := by
  refine ⟨⟨by decide +kernel, by decide +kernel, by decide +kernel, rfl, by decide +kernel, by decide +kernel,
    by decide +kernel⟩, rfl, by decide +kernel⟩

/-- The tile joins the frame, and one that can not run fails its task. -/
theorem test_tile_issue :
    ((frameOf (nx (Machine.exec (.tileIssue 3 0 []) bound)).eng 3 0).jobs.map TileJob.tile) = [0] ∧
    ((taskOf (nx (Machine.exec (.tileIssue 3 0 []) (bound misfit))).eng 0).map Task.failed) = some (some codeXformAlign) := by
  decide +kernel

/-- The product with a frame of comb 3 as given. -/
def framed (fr : Frame) (f : Engine → Engine := id) : State := bound fun e => f (onFrame e 3 0 fun _ => fr)

/-- A product all of whose operands are fill: X of the value 1, weights of no rows, and where `z` a zero map all of whose bits are set. -/
def filled (z : Bool) (fr : Frame) : State :=
  let d : Desc := { (default : Desc) with base := 0x40000, sizes := [0, 1, 1, 1, 1], strides := [0, 64, 0, 0, 0], credits := 3, fill := 1 }
  tasks [{ fwd with record := { fwd.record with drefs := [0x80, 0x81, 0x82, if z then 0x83 else 0, 0, 0, 0, 0] } }] fun e =>
    let ring (role : Nat) : Option Ring := some { slots := 3, streams := [{ task := 0, ctx := 0, role := role, ended := true }] }
    onFrame (onComb e 3 fun cb => { cb with
      ctxs := [some { task := 0, descs := [(rZIN, { d with format := fBIT, layout := lZMAP, ring := 2 }),
        (rCOL, { d with sizes := [32, 0, 1, 1, 1], strides := [0, 3, 0, 0, 0], format := fW4, layout := lWROW, ring := 1, fill := 0 }),
        (rROW, { d with format := fF32, layout := lCV32, fill := 0x3F800000 })] ++ fwdDescs }, none, none, none]
      rings := [ring rROW, ring rCOL, ring rZIN] ++ List.replicate 9 none }) 3 0 fun _ => fr

/-- Its only tile of one interval. -/
def fillJob : TileJob := { task := 0, ctx := 0, tile := 0, parts := [{ base := 0, start := 0, len := 32 }] }

/-- A frame in which a read-out stands in the way of that tile. -/
def drainFrame : Frame := { jobs := [fillJob], flight := [{ task := 0, tile := 5, base := 0, start := 0, len := 32, age := some 60 }] }

/-- Premises of FrameStepMovesOrFreezes: a due step, a flush, a comb whose clock a dip has stopped, a cycle that DUTY withholds, the drain
condition, and an interval that a zero map skips. -/
theorem witness_frameStep :
    (let s := framed { steps := [stepIn], mode := .run }
     s.eng.combs.length = 50 ∧ (combOf s.eng 3).frames.length = 4 ∧ works s.eng 3 = true ∧
     frameOf s.eng 3 0 = { steps := [stepIn], mode := .run } ∧ withheld (dutyNow s.eng) (frameOf s.eng 3 0).beat = false ∧
     (∀ a ∈ (frameOf s.eng 3 0).flight, a.age = none)) ∧
    (frameOf (framed { mode := .replayFlush, flush := 1 }).eng 3 0).mode = .replayFlush ∧
    works (framed {} fun e => onIsland e 3 fun i => { i with stopped := true }).eng 3 = false ∧
    (let s := framed { steps := [stepIn], mode := .run, beat := 1 } fun e => { e with pwr := { e.pwr with duty := 56 } }
     withheld (dutyNow s.eng) (frameOf s.eng 3 0).beat = true ∧ frameDue (frameOf s.eng 3 0) = true) ∧
    (let s := filled false drainFrame
     let e := onFrame s.eng 3 0 (fun fr => { fr with beat := (fr.beat + 1) % 64 })
     let z := freezeOf s.mem e 3 (frameOf e 3 0) false false
     (dueJob (frameOf s.eng 3 0)).isSome = true ∧ islandStretched s.eng 3 = false ∧ z.row = false ∧ z.col = false ∧ z.drain = true ∧
     ((partFeed s.mem e 3 fillJob { base := 0, start := 0, len := 32 }).map fun pf => skipped pf.feed.build) = some false) ∧
    (let s := filled true { jobs := [fillJob] }
     let p : Part := { base := 0, start := 0, len := 32 }
     let e := onFrame s.eng 3 0 (fun fr => { fr with beat := (fr.beat + 1) % 64 })
     let z := freezeOf s.mem e 3 (frameOf e 3 0) false false
     z.row = false ∧ z.col = false ∧ ((partFeed s.mem e 3 fillJob p).map fun pf => skipped pf.feed.build) = some true ∧
     ((partFeed s.mem (readyPart s.mem e 3 0 fillJob p) 3 fillJob p).map fun pf => skipped pf.feed.build) = some true) := by
  decide +kernel

/-- The drain condition freezes the frame; a skipped interval commits its tile uncounted. -/
theorem test_frame_conditions :
    (frameOf (nx (Machine.exec (.frameStep 3 0 false false) (filled false drainFrame))).eng 3 0).mode = .frozenDrain ∧
    (let t := nx (Machine.exec (.frameStep 3 0 false false) (filled true { jobs := [fillJob] }))
     (frameOf t.eng 3 0).jobs = [] ∧ ((taskOf t.eng 0).map Task.commTiles) = some [0] ∧ ctrVal t.eng (.frame 3 0 .intervals) = 0) := by
  decide +kernel

/-- A due step enters, and waits for a feeder that is late. -/
theorem test_frame_step :
    (frameOf (nx (Machine.exec (.frameStep 3 0 false false) (framed { steps := [stepIn], mode := .run }))).eng 3 0).steps = [] ∧
    (frameOf (nx (Machine.exec (.frameStep 3 0 true false) (framed { steps := [stepIn], mode := .run }))).eng 3 0).mode = .frozenRowf := by
  decide +kernel

/-- Read-out lines of zeros, all checks good. -/
def zeroReads (ovf : Bool) : List ReadLine :=
  List.replicate 64 { vals := List.replicate 64 0, ovf := ovf, corr := List.replicate 64 0, colCheck := (0, 0), rowCheck := (0, 0) }

/-- An attempt whose verdict is due. -/
def due (ovf : Bool) (level : Nat) : Attempt :=
  { task := 0, tile := 0, base := 0, start := 0, len := 32, level := level, reads := zeroReads ovf, since := 4, age := some 130 }

/-- A frame with that attempt. -/
def dueFrame (a : Attempt) (x : Option Nat := none) : Frame :=
  { mode := .run, flight := [a], mismatch := x
    jobs := [{ task := 0, ctx := 0, tile := 0, parts := [{ base := 0, start := 0, len := 32, level := a.level }], entered := 1 }] }

/-- Premises of VerdictRetriesHalvesCommits: a clean attempt, overflows at levels 0 and 1, a lane fault with no mismatch before, just
outside and at the end of the window. -/
theorem witness_verdict :
    (let s := framed (dueFrame (due false 0))
     works s.eng 3 = true ∧ s.eng.combs.length = 50 ∧ s.eng.fences.length = 50 ∧
     (combOf s.eng 3).frames.length = 4 ∧ verdictDue (frameOf s.eng 3 0) = some (due false 0) ∧ (taskOf s.eng 0).isSome = true ∧
     ((frameOf s.eng 3 0).jobs.map fun j => j.parts.length) = [1] ∧ (checkOf (due false 0)).ok = true ∧
     (due false 0).reads.any ReadLine.ovf = false ∧ underflows s.eng (due false 0) false = false ∧ (due false 0).pass ≠ .high ∧
     (due false 0).ranks = (due false 0).rank + 1 ∧ (ctxOf s.eng 3 0).isSome = true) ∧
    (verdictDue (dueFrame (due true 0)) = some (due true 0) ∧ (checkOf (due true 0)).ok = true ∧
     (due true 0).reads.any ReadLine.ovf = true ∧ (due true 1).level ≠ 0) ∧
    (0 + 1250000 < 1250001 ∧ 1250000 ≤ 0 + 1250000) ∧
    (let a := { due false 0 with counts := { (due false 0).counts with nonzero := 10, uflow := 1 } }
     underflows (framed (dueFrame a)).eng a false = true ∧ verdictDue (dueFrame a) = some a) ∧
    (let a := { due false 0 with pass := .high }
     verdictDue (dueFrame a) = some a ∧ (checkOf a).ok = true ∧ a.pass = .high) ∧
    (let a := { due false 0 with ranks := 2 }
     verdictDue (dueFrame a) = some a ∧ (checkOf a).ok = true ∧ a.rank + 1 < a.ranks) := by decide +kernel

/-- An overflow runs the interval again at level 1; above level 0 it splits it. -/
theorem test_verdict_overflow :
    ((frameOf (nx (Machine.exec (.intervalVerdict 3 0 false) (framed (dueFrame (due true 0))))).eng 3 0).jobs.map fun j =>
      j.parts.map Part.level) = [[1]] ∧
    (frameOf (nx (Machine.exec (.intervalVerdict 3 0 false) (framed (dueFrame (due true 0))))).eng 3 0).mode = .replayFlush := by
  decide +kernel

/-- A second mismatch within the window fences the comb. -/
theorem test_verdict_mismatch :
    (fenceOf (nx (Machine.exec (.intervalVerdict 3 0 true) (framed (dueFrame (due false 0) (some 0)) fun e =>
      { e with hub := { e.hub with cycle := 1250000 } }))).eng 3).cause = 3 ∧
    (fenceOf (nx (Machine.exec (.intervalVerdict 3 0 true) (framed (dueFrame (due false 0) (some 0)) fun e =>
      { e with hub := { e.hub with cycle := 1250001 } }))).eng 3).cause = 0 := by decide +kernel

/-- An interval committed, which is not its tile's last. -/
def outJob : OutJob :=
  { task := 0, tile := 0, record := fwd.record, reach := 32, lastOfTile := false, accB := false, dirCols := false, order := 0
    rows := List.replicate 64 (List.replicate 64 0x3F800000), next := 62 }

/-- A stream of a drain-only task, which has ended or not. -/
def drainStream (ended : Bool) (role : Nat) : Machine.Stream := { task := 0, ctx := 0, role := role, ended := ended }

/-- A drain-only task on frame 0 of comb 3, its ring bound, its streams ended or not. -/
def drainState (ended : Bool) : State :=
  let r : TaskRec := { recOf kDRAIN with epilogue := 7, rowLen := 1, outRows := 1, drefs := [0x80, 0, 0x82, 0, 0, 0x83, 0, 0] }
  tasks [{ index := 0, record := r, life := .running (.comb 3) }] fun e => onComb e 3 fun cb =>
    let d : Desc := { (default : Desc) with base := 0x10000, sizes := [1, 1, 1, 1, 1], strides := [0, 16, 0, 0, 0], format := fF32,
                                            layout := lLINEAR, ring := 8, credits := 3 }
    { cb with ctxs := [some { task := 0, descs := [(rROW, d), (rSIDE0, { d with base := 0x20000 }),
                (rOUT, { d with base := 0x30000, dir := true, ring := 31, credits := 0 })] }, none, none, none]
              rings := List.replicate 8 none ++ [some { slots := 3, streams := [drainStream ended rROW, drainStream ended rSIDE0] }] ++
                List.replicate 3 none }

/-- A row of a weight gradient's tile that adds element 3 of region 1. -/
def addJob : OutJob := { outJob with record := { recOf kDW with dst := 1 }, adds := List.replicate 62 [] ++ [[(1, 3, 0x3F800000)]] }

/-- A frame that holds that row, region 1 in comb 3. -/
def broodState : State := framed { out := [addJob] } fun e => onGraph e fun g => { g with
  regions := [{ handle := 1, frozen := false, spill := false, scratch := false, home := 3, layout := 0, bucket := 7, elements := 128
                rowLen := 0, accAddr := 0, rowStart := 0, place := .resident 3, elems := [(0, 0x40000000)], step := 0 }] }

/-- Premises of DrainUnitRowsAndTasks: an empty skew and one that is not, row 62 of a running tile, a row that adds into a region, a
drain-only task whose operands are there and one whose streams go on. -/
theorem witness_drainUnit :
    (let s := framed { mode := .replayFlush }
     works s.eng 3 = true ∧ s.eng.combs.length = 50 ∧ (combOf s.eng 3).frames.length = 4 ∧
     (frameOf s.eng 3 0).mode = .replayFlush ∧ (frameOf s.eng 3 0).flush = 0) ∧
    0 < (frameOf (framed { mode := .replayFlush, flush := 1 }).eng 3 0).flush ∧
    (let s := framed { out := [outJob], mismatch := some 0 }
     storing outJob.record = true ∧ outJob.lastOfTile = false ∧ outJob.next < 63 ∧ elemD outJob.adds outJob.next [] = [] ∧
     writeParked s.eng 3 outJob.task = false ∧ (frameOf s.eng 3 0).running = [] ∧ s.eng.fences.length = 50 ∧
     s.eng.hub.cycle ≤ 0 + 1250000 ∧ 0 + 1250000 < 1250001) ∧
    (storing addJob.record = false ∧ addJob.next < 63 ∧ elemD addJob.adds addJob.next [] = [(1, 3, 0x3F800000)] ∧
     (regionOf broodState.eng 1).map (fun r => (r.place, r.frozen)) = some (.resident 3, false) ∧
     addWaits broodState.eng 1 addJob.record.step = false ∧ earlierAdds broodState.eng 3 0 addJob [1] = false ∧
     writeParked broodState.eng 3 addJob.task = false) ∧
    (let at' (s : State) := (drainTask s.eng 3 0).map fun x =>
       let e := takeLanded (onFrame (readEngIn s 3 []) 3 0 fun fr => { fr with drainOnly := some x.2.1.task }) 3 0 x.2.1 x.2.2.record
       (x.2.1.task, operandsHere e 3 x.2.1 x.2.2.record, outHere x.2.1 (drainPlaces x.2.2.record), writeParked e 3 x.2.1.task)
     at' (drainState true) = some (0, true, true, false) ∧ at' (drainState false) = some (0, false, true, false)) := by decide +kernel

/-- The frame runs again; the row is added to the running tile. -/
theorem test_drain_unit :
    (frameOf (nx (Machine.exec (.replayRestart 3 0) (framed { mode := .replayFlush }))).eng 3 0).mode = .run ∧
    elemD (elemD (frameOf (nx (Machine.exec (.stagingRowWriteout 3 0 {}) (framed { out := [outJob] }))).eng 3 0).running 62 []) 0 0
      = 0x3F800000 := by decide +kernel

/-- A lane mismatch in a brood add poisons the line that the element lies in. -/
theorem test_brood_lane :
    ((regionOf (nx (Machine.exec (.stagingRowWriteout 3 0 { add := true }) broodState)).eng 1).map fun r => (lookupD r.elems 3 0, r.poison))
      = some (0x3F800000, [0]) := by decide +kernel

/-- A drain-only task commits its tile. -/
theorem test_drain_only :
    ((taskOf (nx (Machine.exec (.drainOnlyRun 3 0 [] false) (drainState true))).eng 0).map Task.commTiles) = some [0] := by decide +kernel

/-! ### The memory port, the foragers, handles -/

/-- Comb 3's rings 0 and 1 bound, with their streams at the first interval of the product; ring 0 changed further. -/
def filling (f : Ring → Ring := id) : State := prod fun e => onComb e 3 fun cb =>
  let ring (role : Nat) : Ring := { slots := 3, tailCount := 512, streams := [{ task := 0, ctx := 0, role := role }] }
  { cb with rings := [some (f (ring rROW)), some (ring rCOL)] ++ List.replicate 10 none }

/-- The light path waits for a line of channel 3 and a write on channel 2. -/
def bidding : State := tasks [{ ready kLIGHT with life := .running .hub }] fun e => { e with
  hf := { e.hf with light := some (0, 0), opened := some { src := 0x5300, dst := 0x4000, len := 4, lines := [{ ser := 0, line := 0x14C }] } }
  mp := { e.mp with writes := [{ chan := chanOf 9, id := 0, line := 9, bytes := [(0, 7)], poison := false, who := .hub 0 }] } }

/-- Premises of GrantAsksForOneLine: a ring, the light path and a write wait for their channels, and nothing waits on another. -/
theorem witness_grant :
    (let p := bidsFor filling.mem filling.eng 0
     hubAlive filling.eng = true ∧ freeId p.1 0 = some 0 ∧ (∃ b ∈ p.2, chanOf b.line = 0) ∧
     ∀ b ∈ (bidsFor filling.mem filling.eng 7).2, chanOf b.line ≠ 7) ∧
    (let at' (l : Nat) := (bidsFor bidding.mem bidding.eng (chanOf l)).2.filter fun b => chanOf b.line == chanOf l
     hubAlive bidding.eng = true ∧ at' 0x14C = [.light 0x14C] ∧ (at' 9).length = 1 ∧ bidding.eng.mp.heldXlat = []) := by decide +kernel

set_option maxRecDepth 100000 in
/-- The channel asks for the product's first line. -/
theorem test_grant :
    ((nx (Machine.exec (.lineRequestGrant 0) filling)).eng.mp.reads.map ReadReq.addr) = [0x10000] := by decide +kernel

/-- A line of ring 0 that has been asked for. -/
def asked : SlotLine := { ser := 0, line := 0x400, asked := true, need := [⟨0, 0, 0⟩] }

/-- Its request. -/
def request (tries : Nat) : ReadReq := { chan := 0, id := 5, addr := 0x10000, dst := .ring 3 0 0, tries := tries }

/-- A state with the line and its request outstanding. -/
def waiting (tries : Nat) : State :=
  let s := filling fun g => { g with lines := [asked], tailCount := 1, nextSer := 1 }
  { s with eng := { s.eng with mp := { s.eng.mp with reads := [request tries] } } }

/-- A line of 64 bytes with its fabric check. -/
def good (poison : Bool) : RespLine :=
  { data := List.replicate 64 3, poison := poison, check := fabricCheck (List.replicate 64 3) 0x10000 }

/-- A line of an index stream's buffer that has been asked for. -/
def askedIndex : State :=
  let s := filling fun g => { g with streams := [{ task := 0, ctx := 0, role := rROW, index := [{ asked with line := 0x800 }] }] }
  { s with eng := { s.eng with mp := { s.eng.mp with reads := [{ chan := 0, id := 5, addr := 0x20000, dst := .index 3 0 0 rROW }] } } }

/-- The light path has asked for the first of two lines. -/
def askedLight : State :=
  let x : SlotLine := { ser := 0, line := 0x140, asked := true }
  tasks [{ ready kLIGHT with life := .running .hub }] fun e => { e with
    hf := { e.hf with light := some (0, 0), opened := some { src := 0x5000, dst := 0x4000, len := 128, lines := [x, { x with line := 0x141 }] } }
    mp := { e.mp with reads := [{ chan := 0, id := 5, addr := 0x5000, dst := .light }] } }

/-- Premises of ReadResponseLandsLine: a good line, and one whose check fails, for a ring, whose comb has a park record free or none, or
whose clock a dip has stopped; a line of an index stream; the first of the light path's two lines. -/
theorem witness_readResponse :
    (readFor (waiting 0).eng 0 5 = some (request 0) ∧ (request 0).addr % 64 = 0 ∧ (request 0).addr < 2 ^ 52 ∧
     (good true).data.length = 64 ∧ (waiting 0).eng.combs.length = 50 ∧ (islandOf (waiting 0).eng 3).stopped = false ∧
     readIsland (waiting 0).eng 0 5 = 3 ∧
     ((ringOf (waiting 0).eng 3 0).map fun g => (g.lines, g.parked)) = some ([asked], false) ∧
     ([asked].map SlotLine.ser).Nodup ∧ asked.landed = false ∧ fabricCheck (good true).data 0x10000 = (good true).check ∧
     (waiting 0).mem.wf = true ∧ fabricCheck (good true).data 0x10000 ≠ (good true).check + 1 ∧
     freeId { (waiting 0).eng with mp := { (waiting 0).eng.mp with reads := [] } } (chanOf (lineOf 0x10000)) = some 0 ∧
     ringPark (waiting 0).eng 3 0 = none ∧ ((combOf (waiting 0).eng 3).parks.map Park.state) = List.replicate 8 .free) ∧
    (let s := { waiting 0 with eng := onComb (waiting 0).eng 3 fun cb => { cb with parks := List.replicate 8 { state := .parked, write := true } } }
     ringPark s.eng 3 0 = none ∧ ∀ p ∈ (combOf s.eng 3).parks, p.state ≠ .free) ∧
    (let s := { waiting 0 with eng := onIsland (waiting 0).eng 3 fun i => { i with stopped := true } }
     (islandOf s.eng (readIsland s.eng 0 5)).stopped = true ∧ awake s.eng = true ∧ s.eng.pwr.padHold = false) ∧
    ((streamIn askedIndex.eng 3 0 0 rROW).map Machine.Stream.index = some [{ asked with line := 0x800 }] ∧
     (readFor askedIndex.eng 0 5).map ReadReq.dst = some (.index 3 0 0 rROW)) ∧
    ((readFor askedLight.eng 0 5).map ReadReq.dst = some .light ∧
     askedLight.eng.hf.opened.map (fun o => (o.written, o.lines.map fun x => (x.line, x.landed))) =
       some (false, [(0x140, false), (0x141, false)])) := by decide +kernel

/-- A good line lands; a bad one is asked for again. -/
theorem test_read_response :
    ((ringOf (nx (Machine.exec (.memoryReadResponse 0 5 .ok (good false)) (waiting 0))).eng 3 0).map fun g =>
      g.lines.map SlotLine.landed) = some [true] ∧
    ((nx (Machine.exec (.memoryReadResponse 0 5 .ok { good false with check := 0 }) (waiting 0))).eng.mp.reads.map ReadReq.tries) = [1] := by
  decide +kernel

/-- A fault parks the ring. -/
theorem test_read_fault :
    ((ringOf (nx (Machine.exec (.memoryReadResponse 0 5 .fault (good false)) (waiting 0))).eng 3 0).map Ring.parked) = some true := by
  decide +kernel

/-- A write of two bytes of line 9 that is outstanding. -/
def write9 : WriteReq := { chan := 2, id := 1, sent := true, line := 9, bytes := [(0, 7), (63, 8)], poison := true, who := .hub 0 }

/-- A state with that write outstanding. -/
def writing (f : WriteReq → WriteReq := id) : State := st fun e => { e with mp := { e.mp with writes := [f write9] } }

/-- Premises of WriteResponseCommits: a park record free and none, the second and the last try, a write whose transfer a fault has ended,
and a stopped hub clock. -/
theorem witness_writeResponse :
    (writing.mem.wf = true ∧ writeFor writing.eng 2 1 = some write9 ∧ (islandOf writing.eng (writeIsland writing.eng 2 1)).stopped = false ∧
     (write9.bytes.map Prod.fst).Nodup ∧ write9.doomed = false ∧ write9.tries = 1 ∧ write9.who ≠ .log ∧ writing.eng.hf.opened = none ∧
     ((parksOf writing.eng write9.who).map Park.state) = List.replicate 16 .free) ∧
    (let s := { writing with eng := { writing.eng with hf := { writing.eng.hf with parks := List.replicate 16 { state := .parked } } } }
     ∀ p ∈ parksOf s.eng write9.who, p.state ≠ .free) ∧
    writeFor (writing fun w => { w with tries := 2 }).eng 2 1 = some { write9 with tries := 2 } ∧
    writeFor (writing fun w => { w with doomed := true }).eng 2 1 = some { write9 with doomed := true } ∧
    writeFor (writing fun w => { w with tries := 3 }).eng 2 1 = some { write9 with tries := 3 } ∧
    (let s := { writing with eng := onIsland writing.eng 50 fun i => { i with stopped := true } }
     writeIsland s.eng 2 1 = 50 ∧ awake s.eng = true ∧ s.eng.pwr.padHold = false) := by decide +kernel

/-- With OK memory holds the bytes and the mark. -/
theorem test_write_response :
    memGet (nx (Machine.exec (.memoryWriteResponse 2 1 .ok) writing)).mem (64 * 9 + 63) = 8 ∧
    memPoison (nx (Machine.exec (.memoryWriteResponse 2 1 .ok) writing)).mem 9 = true := by decide +kernel

/-- The ring parked at a line that faulted, with its record. -/
def parked : State :=
  let s := filling fun g => { g with lines := [{ asked with asked := false }], tailCount := 1, nextSer := 1, parked := true }
  { s with eng := onComb s.eng 3 fun cb => { cb with parks := { state := .parked, ring := 0, line := 0x400 } :: List.replicate 7 {} } }

/-- The same ring, whose stream has asked for all its lines. -/
def parkedEnd : State := { parked with eng := onRing parked.eng 3 0 fun g => { g with
  streams := [{ task := 0, ctx := 0, role := rROW, ended := true }] } }

/-- The light path parked at its only source line. -/
def parkedLight : State := tasks [{ ready kLIGHT with life := .running .hub }] fun e => { e with hf := { e.hf with
  light := some (0, 0)
  opened := some { src := 0x5000, dst := 0x4000, len := 4, parked := true, lines := [{ ser := 0, line := 0x140 }] }
  parks := { state := .parked, line := 0x140 } :: List.replicate 15 {} } }

/-- Premises of ParkedRingResumesOrFills: the line's 64 KiB page, and its 1 GiB page; a stream that goes on and one that has ended; the
light path; a stopped hub clock. -/
theorem witness_parkedRing :
    (awake parked.eng = true ∧ parked.eng.pwr.padHold = false ∧ hubAlive parked.eng = true ∧ parked.eng.combs.length = 50 ∧
     enabled parked.eng 3 = true ∧
     ((ringOf parked.eng 3 0).bind faultLine).map (fun x => (x.1, x.2.2)) = some ({ asked with asked := false }, false) ∧
     ((ringOf parked.eng 3 0).map fun g => g.lines.map fun y => (lineStream g y).map Machine.Stream.ended) = some [some false] ∧
     parked.eng.hf.opened = none ∧
     parked.eng.mp.writes = [] ∧ parked.eng.mp.heldXlat = [] ∧ (∀ q ∈ parked.eng.hf.parks, q.state = .free) ∧
     (combOf parked.eng 3).parks[0]? = some { state := .parked, ring := 0, line := 0x400 } ∧
     ((combOf parked.eng 3).parks.drop 1).all (fun q => q.state == .free) = true) ∧
    (∀ d, combOuts parked.eng d = []) ∧
    (∀ d, d ≠ (3 : CombId) → ∀ q ∈ (combOf parked.eng d).parks, q.state = .free) ∧
    (∀ d : CombId, ∀ q : Fin 12, (ringOf parked.eng d q.val).map Ring.parked = some true → d = 3 ∧ q = 0) ∧
    inPage 0 1 0x400 = true ∧ inPage 2 0x3FFF 0x400 = true ∧ inPage 0 0 0x400 = false ∧
    ((ringOf parkedEnd.eng 3 0).map fun g => g.lines.map fun y => (lineStream g y).map Machine.Stream.ended) = some [some true] ∧
    (parkedLight.eng.hf.opened.map fun o => (o.parked, o.written)) = some (true, false) ∧
    parkedLight.eng.hf.parks[0]? = some { state := .parked, line := 0x140 } ∧
    ((parkedLight.eng.hf.parks.drop 1).all fun q => q.state == .free) = true ∧
    (∀ d, ∀ q ∈ (combOf parkedLight.eng d).parks, q.state = .free) ∧
    (∀ d : CombId, ∀ q : Fin 12, (ringOf parkedLight.eng d q.val).map Ring.parked ≠ some true) ∧
    (let e := onIsland parked.eng 50 fun i => { i with stopped := true }
     (islandOf e 50).stopped = true ∧ awake e = true) := by decide +kernel

set_option maxRecDepth 100000 in
/-- RETRY in the line's page lets the ring go on; with ABORT its lines are fill. -/
theorem test_parked_ring :
    ((ringOf (nx (Machine.exec (.translationEvent .retry 0 1) parked)).eng 3 0).map Ring.parked) = some false ∧
    ((ringOf (nx (Machine.exec (.translationEvent .retry 0 0) parked)).eng 3 0).map Ring.parked) = some true ∧
    ((ringOf (nx (Machine.exec (.translationEvent .abort 0 1) parked)).eng 3 0).map fun g => g.lines.map SlotLine.poison)
      = some [true] := by decide +kernel

set_option maxRecDepth 100000 in
/-- With no answer the fault is unresolved and the line is poisoned fill. -/
theorem test_fault_timeout :
    (let t := nx (Machine.exec (.pageFaultTimeout (.comb 3) 0) parked)
     ctrVal t.eng .unresolved = 1 ∧ ((ringOf t.eng 3 0).map fun g => g.lines.map SlotLine.poison) = some [true]) := by decide +kernel

/-- A LIGHT task at entry 0 of its list. -/
def light : State := tasks [{ ready kLIGHT with life := .running .hub }] fun e => { e with hf := { e.hf with light := some (0, 0) } }

/-- A short descriptor that fills bytes from 0x4000 on. -/
def short (len : Nat) (flags : Byte) : List MemLine :=
  [ln 0x8000 (leBytes 8 0x5000 ++ leBytes 8 0x4000 ++ leBytes 2 len ++ [flags, 0, 0xAB])]

/-- A queued handle for the capping unit. -/
def entry (adds : List (Nat × Word)) : HandleEntry :=
  { h := { addr := 0x9000, len := 4, tag := 0, poison := false, last := false, onchip := true, src := 3 }, region := 6, adds := adds }

/-- A slot of a shard that comb 3 has sent to the next comb, whose carousel has taken the first slot. -/
def rotating (tile : Nat) : State := prod fun e =>
  onComb (onComb e 3 fun cb => { cb with ringQ := [{ entry [] with dest := 1, tile := tile, part := some { num := 1 } }] }) (ringPeer e 3)
    fun cb => { cb with carousel := some { slots := 2, own := { num := 2 }, sent := 1, got := 1 } }

/-- An entry of the light path taken up: its source lines asked for, its writes not yet answered, or both. -/
def moving (o : LightMove) (rs : List ReadReq) (ws : List WriteReq) : State :=
  { light with eng := { light.eng with hf := { light.eng.hf with opened := some o }, mp := { light.eng.mp with reads := rs, writes := ws } } }

/-- The entry's line has been asked for. -/
def lastLine : State := moving { src := 0x5000, dst := 0x4000, len := 4, lines := [{ ser := 0, line := 0x140, asked := true }] }
  [{ chan := 0, id := 5, addr := 0x5000, dst := .light }] []

/-- The entry's write is out. -/
def lastWrite : State := moving { src := 0x5000, dst := 0x4000, len := 4, written := true } []
  [{ chan := 0, id := 1, sent := true, line := 0x100, bytes := [(0, 1), (1, 2), (2, 3), (3, 4)], poison := false, who := .hub 0 }]

/-- Premises of ListsAndQueuesMoveOn about the light path: an invalid entry, the end of the list, the longest entry, a copy; the last source
line to land, the last write to be answered. -/
theorem witness_lists :
    (running light.eng = true ∧ light.eng.hf.light = some (0, 0) ∧ light.eng.hf.opened = none ∧ writesLost light.eng (.hub 0) = false ∧
     taskOf light.eng 0 = some { ready kLIGHT with life := .running .hub } ∧ (ready kLIGHT).record.arg.toNat + 32 * 0 = 0x8000) ∧
    (let bs (n : Nat) (f : Byte) := viewBytes (Machine.landed light.mem (short n f)) light.eng 0x8000 32
     shortBad (bs 257 1) = true ∧ viewPoisoned (Machine.landed light.mem (short 257 1)) light.eng 0x8000 32 = false ∧
     shortBad (bs 256 1) = false ∧ field (bs 256 1) 16 2 = 256 ∧ bit (field (bs 256 1) 18 1) 0 = true ∧
     field (bs 256 1) 8 8 + field (bs 256 1) 16 2 ≤ 2 ^ 52 ∧ shortBad (bs 1 0) = false ∧ bit (field (bs 1 0) 18 1) 0 = false ∧
     shortBad (bs 0 1) = false ∧ field (bs 0 1) 16 2 = 0) ∧
    (lastLine.eng.hf.opened.isSome = true ∧ (islandOf lastLine.eng 50).stopped = false ∧
     (readFor lastLine.eng 0 5).map (fun q => (q.dst, q.addr)) = some (.light, 0x5000) ∧ lineOf 0x5000 = 0x140 ∧
     writesLost lastLine.eng (.hub 0) = false) ∧
    (lastWrite.eng.mp.writes.map fun w => (answers 0 1 w, w.who, w.doomed)) = [(true, .hub 0, false)] := by
  decide +kernel

/-- Its clauses about the queues: empty and full ones, for the hub, the capping unit and a link group. -/
theorem witness_queues :
    (let s := prod fun e => onComb e 3 fun cb => { cb with chain := [entry [(0, 1)]] }
     running s.eng = true ∧ s.eng.combs.length = 50 ∧ works s.eng 3 = true ∧ (combOf s.eng 3).outQ.length < 64 ∧
     chainFront s.eng 3 false = some (entry [(0, 1)])) ∧
    (let s := prod fun e => onComb e 3 fun cb => { cb with chain := [{ entry [] with dest := 1 }] }
     (combOf s.eng 3).ringQ.length < 64 ∧ (chainFront s.eng 3 true).isSome = true ∧
     64 ≤ (combOf (prod fun e => onComb e 3 fun cb => { cb with ringQ := List.replicate 64 (entry []) }).eng 3).ringQ.length) ∧
    (let s := prod fun e => { onComb e 3 fun cb => { cb with outQ := List.replicate 64 (entry []) } with hf := { e.hf with hand := [] } }
     64 ≤ (combOf s.eng 3).outQ.length ∧ (combOf s.eng 3).outQ = entry [] :: List.replicate 63 (entry []) ∧ s.eng.hf.hand = []) ∧
    (let s := prod fun e => { e with hf := { e.hf with hand := [entry []] }, cap := { e.cap with queue := [entry [(0, 1)]] } }
     s.eng.hf.hand = [entry []] ∧ (entry []).dest = 2 ∧ s.eng.cap.queue.length < 64 ∧ s.eng.cap.queue = entry [(0, 1)] :: [] ∧
     capWorks s.eng = true ∧ s.eng.cap.spill = [] ∧ (entry [(0, 1)]).adds ≠ []) ∧
    (let s := prod fun e => { e with hf := { e.hf with hand := [{ entry [] with dest := 3 }] } }
     s.eng.lnk.linkQ.length = 3 ∧ (elemD s.eng.lnk.linkQ 2 []).length < 64 ∧ (islandOf s.eng 53).stopped = false) := by
  decide +kernel

/-- Its clauses about a comb's ring queue, whose next entry fits, or is a buffer or a slot of a shard that the next comb reads from memory, and
about a stale shard. -/
theorem witness_rings :
    (works (rotating 1).eng (ringPeer (rotating 1).eng 3) = true ∧ ringPeer (rotating 1).eng 3 ≠ 3 ∧
     ((combOf (rotating 1).eng (ringPeer (rotating 1).eng 3)).carousel.map fun ca => (shardIn ca 1, slotFits ca 1, slotFits ca 2))
       = some (none, true, false)) ∧
    (let s := prod fun e => onComb (onComb e 3 fun cb => { cb with ringQ := [{ entry [] with dest := 1 }] }) (ringPeer e 3) fun cb =>
       { cb with carousel := some { slots := 2, own := { num := 1 } } }
     works s.eng (ringPeer s.eng 3) = true ∧ (taskOf s.eng (entry []).task).isSome = true ∧
     ((combOf s.eng (ringPeer s.eng 3)).carousel.map fun ca => (shardIn ca 1).isSome) = some true) ∧
    (works (prod fun e => onIsland e (ringPeer e 3).val fun i => { i with stopped := true }).eng (ringPeer prod.eng 3) = false) ∧
    (let s := prod fun e => onComb (onGraph e fun g => { g with hdr := { g.hdr with shardBytes := 65536 } }) 3 fun cb =>
       { cb with carousel := some { slots := 2, own := { num := 2 }, sending := true } }
     chainFront s.eng 3 true = none ∧ (slotEntry s.eng 3).isSome = true) ∧
    (let s := prod fun e => onComb e 3 fun cb => { cb with carousel := some { slots := 2, own := { num := 2 }, stale := true } }
     works s.eng 3 = true ∧ (combOf s.eng 3).carousel = some { slots := 2, own := { num := 2 }, stale := true }) := by decide +kernel

/-- A slot that fits is taken. -/
theorem test_ring_pop :
    (combOf (nx (Machine.exec (.handlePop (.combRing 3)) (rotating 1))).eng 3).ringQ = [] ∧
    (combOf (nx (Machine.exec (.handlePop (.combRing 3)) (rotating 2))).eng 3).ringQ.length = 1 := by decide +kernel

/-- An entry that fills; one that is invalid; the source line lands and its bytes are moved; the write is answered, and the list moves on. -/
theorem test_short_descriptor :
    (let t := nx (Machine.exec (.shortDescriptor (short 256 1)) light)
     viewByte t.mem t.eng 0x40FF = 0xAB ∧ t.eng.hf.light = some (0, 0)) ∧
    (nx (Machine.exec (.shortDescriptor (short 257 1)) light)).eng.hf.light = none ∧
    (let l : RespLine := { good false with check := fabricCheck (List.replicate 64 3) 0x5000 }
     let t := nx (Machine.exec (.memoryReadResponse 0 5 .ok l) lastLine)
     viewByte t.mem t.eng 0x4003 = 3 ∧ viewByte t.mem t.eng 0x4004 = 0) ∧
    (let t := nx (Machine.exec (.memoryWriteResponse 0 1 .ok) lastWrite)
     t.eng.hf.light = some (0, 1) ∧ ctrVal t.eng .light = 1) := by decide +kernel

/-- Handles move from a comb to the hub and on to the capping unit. -/
theorem test_handles :
    (nx (Machine.exec (.handlePush (.outbound 3)) (prod fun e => onComb e 3 fun cb => { cb with chain := [entry [(0, 1)]] }))).eng.combs.length
      = 50 ∧
    (nx (Machine.exec (.handlePop (.outbound 3)) (prod fun e => onComb e 3 fun cb => { cb with outQ := [entry []] }))).eng.hf.hand
      = [entry []] := by decide +kernel

/-- A stale shard is loaded again. -/
theorem test_shard_reload :
    ((combOf (nx (Machine.exec (.shardReload 3 []) (prod fun e => onComb e 3 fun cb =>
      { cb with carousel := some { slots := 0, own := { num := 2 }, stale := true } }))).eng 3).carousel.map Carousel.stale)
      = some false := by decide +kernel

/-! ### The links -/

/-- Port 3 changed; the configuration has a LINK record. -/
def linked (f : Port → Port) (g : Engine → Engine := id) : State :=
  st fun e => g { onPort e 3 f with boot := { e.boot with cfg := { e.boot.cfg with hasLink := true } } }

/-- CAPS of a partner. -/
def capsOf (mask : Byte) : Caps := { maxVer := 3, verMask := mask, features := 3, rxCredits := 192, port := 9, role := 1, deviceId := 0x77 }

/-- The caps step, the accept step, the ready step, with locked lanes. -/
def waggling (w : WaggleStep) (n : Nat := 0) : State :=
  linked fun q => { q with state := .waggle, wstep := w, lock := true, restarts := n, caps := if w = .accept then some (capsOf 0x0E) else none }

/-- Port 3 is UP under version 3, and awaits LSEQ 4. -/
def upPort (f : Port → Port := id) (g : Engine → Engine := id) : State := linked (fun q => f { q with
  state := .up, version := 3, features := 3, lock := true, rate := 3, txSeq := 9, rxSeq := 4, credit0 := 90, credit1 := 91 }) g

/-- Premises of WaggleAndPortControl: training, the steps of the exchange, and the writes of LNK_PORT_CTRL. -/
theorem witness_waggle :
    (linkRuns (linked id).eng 3 = true ∧ linkOn (linked id).eng 3 = true ∧ (linked id).eng.lnk.ports.length = 18 ∧
     portFuseOn (linked id).eng 3 = true ∧ (linked id).eng.boot.cfg.hasLink = true ∧ (st id).eng.boot.cfg.hasLink = false ∧
     (portOf (linked id).eng 3).state = .disabled ∧ (portOf (linked fun q => { q with trainReq := true, state := .training }).eng 3).trainReq = true) ∧
    (linkRuns (waggling .caps).eng 3 = true ∧ choice (waggling .caps).eng 3 (capsOf 0) = none ∧
     choice (waggling .caps).eng 3 (capsOf 6) = some (2, 2) ∧ (portOf (waggling .caps).eng 3).accept = none ∧
     choice (waggling .accept).eng 3 (capsOf 0x0E) = some (3, 3) ∧ (portOf (waggling .accept).eng 3).caps = some (capsOf 0x0E) ∧
     (portOf (waggling .ready).eng 3).wstep = .ready ∧ (portOf (waggling .caps 2).eng 3).restarts < 3 ∧
     3 ≤ (portOf (waggling .caps 3).eng 3).restarts ∧ (portOf (linked fun q => { q with state := .down, retryWait := true }).eng 3).retryWait = true) ∧
    HubUp (linked id).eng ∧ Presents (linked id) (.firmware 7) (.portCtrl 3) 7 ∧ Presents (linked id) (.firmware 15) (.portCtrl 3) 15 ∧
    (linkRuns upPort.eng 3 = true ∧ (portOf upPort.eng 3).state = .up ∧ (portOf upPort.eng 3).lock = true ∧
     (portOf upPort.eng 3).skipping = false) :=
  ⟨by decide +kernel, by decide +kernel, hubUp_of (by decide +kernel), presents_firmware (by decide +kernel),
   presents_firmware (by decide +kernel), by decide +kernel⟩

/-- CAPS without a common version takes the port DOWN; CAPS with one is answered. -/
theorem test_caps_receive :
    (portOf (nx (Machine.exec (.capsReceive 3 (capsOf 1)) (waggling .caps))).eng 3).reason = 1 ∧
    (portOf (nx (Machine.exec (.capsReceive 3 (capsOf 6)) (waggling .caps))).eng 3).wstep = .accept := by decide +kernel

/-- The ACCEPT that agrees chooses rate 3; another begins again. -/
theorem test_accept_receive :
    (portOf (nx (Machine.exec (.acceptReceive 3 3 3) (waggling .accept))).eng 3).rate = 3 ∧
    (portOf (nx (Machine.exec (.acceptReceive 3 2 3) (waggling .accept))).eng 3).wstep = .caps := by decide +kernel

/-- READY brings the port UP; the fourth wait takes it DOWN. -/
theorem test_ready_and_timeout :
    (portOf (nx (Machine.exec (.readyReceive 3) (waggling .ready))).eng 3).state = .up ∧
    (portOf (nx (Machine.exec (.waggleTimeout 3) (waggling .caps 3))).eng 3).reason = 2 := by decide +kernel

/-- A lost lock takes the port DOWN with reason 4; ENABLE 0 disables it. -/
theorem test_lock_loss_and_enable :
    (portOf (nx (Machine.exec (.lockLoss 3) upPort)).eng 3).reason = 4 ∧
    (portOf (nx (Machine.exec (.portEnable 3 (.firmware 6)) upPort)).eng 3).state = .disabled ∧
    (portOf (nx (Machine.exec (.retrain 3 (.firmware 15)) upPort)).eng 3).state = .training := by decide +kernel

/-- A flit of kind `kind` at an offset, in the turn of `seq`, for tag 7, step 2, group 5. -/
def flit (kind off seq : Nat) (payload : List Byte) : Flit :=
  sealFlit { tag := 7, offset := BitVec.ofNat 32 off, hopRank := 1, kind := kindByte kind false 3, step := 2, attempt := 0, group := 5
             lseq := BitVec.ofNat 16 seq, payload := pad256 payload, crc := 0 }

/-- The CRC of a flit holds, and does not once a bit is turned. -/
theorem test_crc : crcGood (flit kFull 0 4 [1]) = true ∧ crcGood { flit kFull 0 4 [1] with lseq := 5 } = false := by decide +kernel

/-- Two held flits. -/
def holding : Port → Port := fun q => { q with held := [flit kFull 0 7 [], flit kFull 1 8 []] }

/-- Premises of FlitsKeepSequence: a bad flit, one out of turn, one in turn, the answers, a control flit to send, the timers, and a port whose
clock a dip has stopped. -/
theorem witness_flits :
    (upPort.eng.lnk.ports.length = 18 ∧ linkRuns upPort.eng 3 = true ∧ (portOf upPort.eng 3).state = .up ∧ upPort.eng.lnk.buckets = []) ∧
    (flitKind (flit kSign 0 5 []) < 2 ∧ (flit kSign 0 5 []).lseq ≠ (portOf upPort.eng 3).rxSeq ∧
     crcGood { flit kFull 0 4 [1] with crc := 0 } = false ∧ (flit kFull 0 4 []).lseq = (portOf upPort.eng 3).rxSeq) ∧
    (crcGood (sealFlit (seqFlit opAck 3 8)) = true ∧ msgOp (seqFlit opAck 3 8) = opAck ∧
     indexOf? (fun (h : Flit) => h.lseq == msgLseq (sealFlit (seqFlit opNak 3 8))) (portOf (upPort holding).eng 3).held = some 1 ∧
     (portOf (upPort holding).eng 3).tries = none ∧ msgOp (creditFlit 3 5 6) = opCredit ∧ flitKind (creditFlit 3 5 6) = kControl) ∧
    ((portOf (upPort fun q => { q with ctl := [seqFlit 1 1 1] }).eng 3).ctl = [seqFlit 1 1 1] ∧
     (portOf (upPort fun q => { q with unacked := 3 }).eng 3).unacked ≠ 0 ∧
     (portOf (upPort fun q => { holding q with tries := some (7, 8) }).eng 3).tries = some ((flit kFull 0 7 []).lseq, 8)) ∧
    (let e := onIsland upPort.eng (linkIsland 3) fun i => { i with stopped := true }
     (islandOf e (linkIsland 3)).stopped = true ∧ awake e = true ∧ e.pwr.padHold = false) := by
  decide +kernel

/-- ACK of the second held flit frees both; NAK of it frees the first. -/
theorem test_ack_and_nak :
    (portOf (nx (Machine.exec (.ackReceive 3 (sealFlit (seqFlit opAck 3 8))) (upPort holding))).eng 3).held = [] ∧
    (portOf (nx (Machine.exec (.nakReceive 3 (sealFlit (seqFlit opNak 3 8))) (upPort holding))).eng 3).held.length = 1 := by
  decide +kernel

/-- The ninth resend in a row takes the port DOWN with reason 3. -/
theorem test_resend_timeout :
    (portOf (nx (Machine.exec (.resendTimeout 3) (upPort fun q => { holding q with tries := some (7, 8) }))).eng 3).reason = 3 := by
  decide +kernel

/-- A bucket of two flit positions with one child, on port 3. -/
def bucket : Bucket :=
  { task := 0, tag := 7, broadcast := false, sign := false, resultF32 := false, tree := 0, entries := 256, groupAddr := 0x3000, result := 0x8000
    err := 0, seq := 0, stepBuckets := 1, regions := 1, deadline := 0, src := 0, step := 2, group := 5, generation := 1, parent := some 4
    children := [(3, 1)], known := true, admitted := true, state := .active
    own := List.replicate 2 { rank := 0, vals := List.replicate 128 0x3F80, poison := false } }

/-- A state with a bucket. -/
def bucketed (b : Bucket) : State := upPort id fun e => { e with lnk := { e.lnk with buckets := [b] } }

/-- Ones as BF16. -/
def ones : List Byte := (List.replicate 128 ([0x80, 0x3F] : List Byte)).flatten

/-- A bucket with its parent on port 3, two children and a result in F32. -/
def parented : Bucket := { bucket with parent := some 3, children := [(4, 1), (5, 2)], resultF32 := true }

/-- A state with that bucket, the children's ports UP. -/
def forwarding (b : Bucket) : State := upPort id fun e =>
  let up (q : Port) : Port := { q with state := .up, version := 3, credit1 := 9 }
  onPort (onPort { e with lnk := { e.lnk with buckets := [b] } } 4 up) 5 up

/-- Premises of LastOperandFormsSum: the last operand of position 1; a RESULT flit of position 0 at a leaf, and at a bucket with two
children. -/
theorem witness_lastOperand :
    (let s := bucketed bucket
     let f := flit kFull 1 4 ones
     crcGood f = true ∧ f.lseq = (portOf s.eng 3).rxSeq ∧ target s.eng f = some bucket ∧ bucketAt s.eng 0 = some bucket ∧
     bucket.children.find? (fun c => c.1 == 3) = some (3, 1) ∧ (opsAt bucket 1).length = 1 ∧ (∀ x ∈ opsAt bucket 1, x.rank ≠ 1) ∧
     (∀ x ∈ s.eng.lnk.buckets, x.out = [] ∧ x.broadcast = false) ∧ f.offset.toNat % 2 ^ 18 = 1 ∧ 1 < groupsIn bucket) ∧
    (let b := { bucket with parent := some 3, children := [] }
     let f := flit kResult 0 4 ones
     target (bucketed b).eng f = some b ∧ bucketAt (bucketed b).eng 0 = some b ∧ b.got + 1 < groupsIn b ∧ b.result % 64 = 0 ∧
     b.result + 256 * groupsIn b ≤ 2 ^ 52 ∧ crcGood f = true ∧ f.lseq = (portOf (bucketed b).eng 3).rxSeq ∧
     writesLost (bucketed b).eng (.link b.task) = false) ∧
    (let b := parented
     let s := forwarding b
     target s.eng (flit kResult 0 4 ones) = some b ∧ linkRuns s.eng 3 = true ∧ (b.children.map Prod.fst).Nodup ∧
     (∀ c ∈ b.children, c.1 ≠ 3 ∧ (portOf s.eng c.1).state = .up ∧ 0 < (portOf s.eng c.1).credit1) ∧
     b.result + 512 * groupsIn b ≤ 2 ^ 52) := by decide +kernel

/-- One and one make two: the partial sum goes to the parent. -/
theorem test_data_flit :
    ((bucketAt (nx (Machine.exec (.dataFlitReceive 3 (flit kFull 1 4 ones) false) (bucketed bucket))).eng 0).map fun b =>
      b.up.map fun u => (u.offset, u.payload.take 2)) = some [(1, [0x00, 0x40])] := by decide +kernel

/-- A RESULT flit goes on to both children; where its lanes disagree, with its poison bit. -/
theorem test_result_forwarded :
    (let t := nx (Machine.exec (.resultFlitReceive 3 ⟨flit kResult 0 4 ones, true⟩) (forwarding parented))
     [4, 5].map (fun q => (portOf t.eng q).down.map flitPoison) = [[true], [true]] ∧
     viewNat t.mem t.eng (0x8000 + 4 * 127) 4 = 0x3F800000) := by decide +kernel

/-- A group whose leader is this device (or whose parent is on port 4). -/
def group (parent : Option PortId) : Machine.Group :=
  { id := 5, generation := 1, members := 1, trees := [⟨0, parent, [(3, 1)]⟩], go := true }

/-- A control message of the group in turn on port 3. -/
def note (op attempt reason gen : Nat) : Flit := sealFlit { ctlFlit (group none) op 7 2 attempt reason gen with lseq := 4 }

/-- A member's state. -/
def member (parent : Option PortId) (b : Bucket) (own : List Flit) : State := upPort id fun e =>
  { withGraph { graph0 with tasks := [{ index := 0, record := recOf kBUCKET }] } e with
    lnk := { e.lnk with buckets := [b], groups := [group parent], own := own } }

/-- Premises of LeaderDecidesStep, from a child's port and from the device itself. -/
theorem witness_leader :
    (let s := member none bucket []
     (tree0 (group none)).parent = none ∧ fromChild (group none) 3 = true ∧ (islandOf s.eng (msgIsland (.port 3 (note opOk 0 1 1)))).stopped = false ∧
     (islandOf s.eng (msgIsland .own)).stopped = false ∧ (2, 0) ∉ (group none).acted ∧ (group none).late = false ∧
     (∀ op ∈ [opOk, opFail, opJoin],
       (let m := MsgSrc.port 3 (note op 0 1 1)
        let e := (takeMsg s.eng m op).1
        takeMsg s.eng m op = (e, some (note op 0 1 1, some 3)) ∧ groupAt e 5 1 = some (group none) ∧
        msgGroup e (note op 0 1 1) = some (group none) ∧ msgAttempt (note op 0 1 1) = stepAttempt (group none) 2 ∧
        msgStep (note op 0 1 1) = 2 ∧ stepSealed (group none) 2 = false ∧ (note op 0 1 1).group.toNat = 5 ∧ msgGen (note op 0 1 1) = 1))) ∧
    (let s := member none bucket [note opOk 0 0 1]
     (takeMsg s.eng .own opOk).2 = some (note opOk 0 0 1, none)) := by decide +kernel

/-- The first FAIL makes a REPEAT under attempt 1; a stop makes an ABANDON. -/
theorem test_fail_receive :
    (nx (Machine.exec (.failReceive (.port 3 (note opFail 0 1 0))) (member none bucket []))).eng.lnk.own.map msgOp = [opRepeat] ∧
    (nx (Machine.exec (.failReceive (.port 3 (note opFail 0 4 0))) (member none bucket []))).eng.lnk.own.map msgOp = [opAbandon] := by
  decide +kernel

/-- The OK that completes the step's one SEQ seals it. -/
theorem test_ok_receive :
    (nx (Machine.exec (.okReceive (.port 3 (note opOk 0 0 0))) (member none bucket []))).eng.lnk.own.map msgOp = [opSeal] := by decide +kernel

/-- Premises of MemberFollowsLeader: messages of the device's own, and from the parent's port. -/
theorem witness_member :
    (∀ x ∈ [(opSeal, 0), (opRepeat, 1), (opAbandon, 0), (opGo, 0)],
      (let f := note x.1 x.2 1 1
       let g : Machine.Group := group (some 3)
       let s := member (some 3) { bucket with state := .landed } []
       let e := (takeMsg s.eng (.port 3 f) x.1).1
       takeMsg s.eng (.port 3 f) x.1 = (e, some (f, some 3)) ∧ fromParent g 3 = true ∧ groupAt e 5 1 = some g ∧ msgGroup e f = some g ∧
       msgAttempt f = x.2 ∧ stepAttempt g (msgStep f) = 0 ∧ stepSealed g (msgStep f) = false ∧ e.sch.run.isSome = true ∧
       (e.lnk.buckets.map Bucket.order).Nodup ∧ (∃ b ∈ e.lnk.buckets, b.known = true ∧ b.group = g.id ∧ b.step = msgStep f ∧ b.state = .landed) ∧
       f.group.toNat = g.id ∧ msgGen f = g.generation ∧ (islandOf s.eng (msgIsland (.port 3 f))).stopped = false ∧
       e.lnk.ports.length = 18)) ∧
    (takeMsg (member none bucket [note opSeal 0 0 1]).eng .own opSeal).2 = some (note opSeal 0 0 1, none) := by decide +kernel

/-- SEAL ends the LANDED bucket; REPEAT counts and gives the group attempt 1. -/
theorem test_seal_and_repeat :
    (nx (Machine.exec (.sealReceive (.port 3 (note opSeal 0 0 1))) (member (some 3) { bucket with state := .landed } []))).eng.lnk.buckets.map
      Bucket.state = [.done] ∧
    ctrVal (nx (Machine.exec (.repeatReceive (.port 3 (note opRepeat 1 0 1))) (member (some 3) bucket []))).eng .repeats = 1 := by
  decide +kernel

/-- ABANDON after a member's stop stops the graph with GROUP_ABANDON. -/
theorem test_abandon :
    ((nx (Machine.exec (.abandonReceive (.port 3 (note opAbandon 0 4 1))) (member (some 3) bucket []))).eng.sch.run.map Graph.stop)
      = some (some 12) := by decide +kernel

/-- A bucket record of one flit position and its group descriptor: two members, the parent on port 3. -/
def bucketLines : List MemLine :=
  [ln 0x8000 (leBytes 2 7 ++ [0, 0] ++ leBytes 4 128 ++ leBytes 8 0x3000 ++ leBytes 8 0xA000 ++ leBytes 8 0 ++ leBytes 2 0 ++ leBytes 2 1 ++
     leBytes 2 1 ++ leBytes 2 0),
   ln 0x3000 ([5, 2, 1, 0] ++ leBytes 4 1 ++ leBytes 8 0 ++ [1, 3])]

/-- A region of 128 elements in comb 3 that belongs to the bucket. -/
def region : Region :=
  { handle := 1, frozen := false, spill := false, scratch := false, home := 3, layout := 0, bucket := 7, elements := 128, rowLen := 0
    accAddr := 0, rowStart := 0, place := .resident 3, elems := [(0, 0x40000000)], step := 2 }

/-- A state with a BUCKET task whose record lies at `arg`, with a bucket. -/
def bucketTask (arg : BitVec 64) (b : Bucket) (gs : List Machine.Group) : State := upPort id fun e =>
  { withGraph { graph0 with tasks := [{ index := 0, record := { recOf kBUCKET with arg := arg } }], regions := [region] } e with
    lnk := { e.lnk with buckets := [b], groups := gs } }

/-- The bucket as dispatch leaves it. -/
def fresh : Bucket := { (default : Bucket) with tag := 0, dispatched := true, admitted := false, state := .waiting, order := 0 }

/-- The same bucket admitted, ready to be ACTIVE. -/
def ready1 : Bucket :=
  { bucket with entries := 128, state := .waiting, parent := some 3, children := [], own := [], rank := 1 }

/-- Premises of BucketsAdmittedAndActivated: an address that is not aligned, a valid bucket, and an admitted leaf. -/
theorem witness_buckets :
    (let s := bucketTask 0x8020 fresh []
     running s.eng = true ∧ procUp s.eng 2 = true ∧ minBy Bucket.order (s.eng.lnk.buckets.filter fun b => b.dispatched && !b.admitted &&
       b.state == .waiting) = some fresh ∧ ((taskOf s.eng fresh.task).map fun t => t.record.arg.toNat % 64) = some 32) ∧
    (let s := bucketTask 0x8000 fresh []
     let m := Machine.landed s.mem bucketLines
     let b := parseBucket (viewBytes m s.eng 0x8000 64) fresh.task fresh.step
     let g := parseGroup (viewBytes m s.eng b.groupAddr 272)
     viewPoisoned m s.eng 0x8000 64 = false ∧ bucketOk (viewBytes m s.eng 0x8000 64) b = true ∧ (b.broadcast && b.sign) = false ∧
     layoutOk s.eng b = true ∧ viewPoisoned m s.eng b.groupAddr 272 = false ∧
     groupOk (viewBytes m s.eng b.groupAddr 272) g = true ∧ portsUp s.eng g = true ∧ g.trees[b.tree]? = some ⟨1, some 3, []⟩ ∧
     bucketAt s.eng fresh.order = some fresh) ∧
    (let s := bucketTask 0x8000 ready1 [group (some 3)]
     running s.eng = true ∧ canActivate s.eng ready1 = true ∧ ((taskOf s.eng 0).map Task.poisonIn) = some false ∧ layoutOk s.eng ready1 = true ∧
     (∀ q, (portOf s.eng q).waitRx = [])) ∧
    (let b := { ready1 with sign := true, err := 0x40000 }
     let s := bucketTask 0x8000 b [group (some 3)]
     canActivate s.eng b = true ∧ layoutOk s.eng b = true ∧ b.entries = 128 * groupsIn b ∧ b.err + 8 * b.entries ≤ 2 ^ 52 ∧
     writesLost s.eng (.link b.task) = false) := by decide +kernel

/-- The valid bucket is admitted with its tree entry. -/
theorem test_bucket_admit :
    ((nx (Machine.exec (.bucketAdmit bucketLines) (bucketTask 0x8000 fresh []))).eng.lnk.buckets.map fun b => (b.admitted, b.rank, b.parent))
      = [(true, 1, some 3)] := by decide +kernel

/-- The leaf's contribution: 2.0, then zeros, marked where the link adders' lanes disagree. -/
theorem test_bucket_activate :
    ((nx (Machine.exec (.bucketActivate 7 { rd := [], lane := [0] }) (bucketTask 0x8000 ready1 [group (some 3)]))).eng.lnk.buckets.map fun b =>
      (b.state, b.up.map fun u => (u.poison, u.payload.take 4))) = [(.active, [(true, [0x00, 0x40, 0, 0])])] := by decide +kernel

/-- A root's bucket with a RESULT flit that waits for port 3. -/
def rooted : Bucket :=
  { bucket with parent := none, deadlineOn := true, out := [(none, flit kResult 0 0 ones)] }

/-- The bucket whose multicast is complete but for port 3. -/
def landed : Bucket := { bucket with parent := none, state := .landed, got := 2, drops := [(3, 1)] }

/-- Premises of ReductionTimersAct: a deadline, a seal and a GO that do not come, a port that holds a multicast back, a replay. -/
theorem witness_timers :
    (let s := member none rooted []
     hubAlive s.eng = true ∧ bucketAt s.eng rooted.order = some rooted ∧ activeTag s.eng 7 = some rooted ∧ rooted.failed = false ∧
     groupAt s.eng 5 1 = some (group none) ∧ (tree0 (group none)).parent = none) ∧
    (let s := member none rooted []
     (s.eng.lnk.buckets.find? fun x => unsealed x && x.tag == 7) = some rooted ∧ contributed s.eng rooted = true ∧
     sealedOf s.eng rooted = false ∧ (s.eng.sch.run.map Graph.stop) = some none) ∧
    (let s := upPort id fun e => { (member none rooted []).eng with lnk := { e.lnk with buckets := [rooted], groups := [{ group none with
       sealed := some 2 }] } }
     sealedOf s.eng rooted = true) ∧
    (let b := { rooted with state := .waiting }
     let s := upPort id fun e => { (member none b []).eng with lnk := { e.lnk with buckets := [b], groups := [{ group none with go := false }] } }
     b.admitted = true ∧ ((groupAt s.eng 5 b.generation).map Group.go) = some false ∧ (s.eng.sch.run.map Graph.stop) = some none) ∧
    (let s := upPort (fun q => { q with credit1 := 0 }) fun e => { e with lnk := { e.lnk with buckets := [rooted] } }
     linkRuns s.eng 3 = true ∧ minBy Bucket.order (s.eng.lnk.buckets.filter (heldBack s.eng 3)) = some rooted) ∧
    (let s := bucketed landed
     minBy Bucket.order (s.eng.lnk.buckets.filter fun x => (x.state == .landed || x.state == .done) && x.drops.any fun d => d.1 == 3)
       = some landed ∧ landed.drops.find? (fun d => d.1 == 3) = some (3, 1)) := by decide +kernel

/-- The port that holds the multicast back is dropped; it gets flit 1 alone later. -/
theorem test_patience_and_replay :
    (let s := upPort (fun q => { q with credit1 := 0 }) fun e => { e with lnk := { e.lnk with buckets := [rooted] } }
     (nx (Machine.exec (.patienceExpiry 3) s)).eng.lnk.buckets.map Bucket.drops = [[(3, 0)]]) ∧
    ((portOf (nx (Machine.exec (.unicastReplay 3 []) (bucketed landed))).eng 3).replay.map Flit.offset) = [1] := by decide +kernel

/-- A deadline sends FAIL to the leader, which is this device. -/
theorem test_bucket_deadline :
    (nx (Machine.exec (.bucketDeadline 7) (member none rooted []))).eng.lnk.own.map (fun f => (msgOp f, msgReason f)) = [(opFail, 1)] := by
  decide +kernel

/-! ### The capping unit -/

/-- A spilled region of 64 elements at 0x40000, which holds what step `n` has added. -/
def spilledAt (n : Nat) (touched : Bool) : Region :=
  { region with handle := 6, place := .spilled, elements := 64, accAddr := 0x40000, elems := [], step := n, touched := touched }

/-- A state whose capping unit has an entry of a task of step 2 to apply into that region. -/
def spilling (n : Nat) (touched : Bool) (adds : List (Nat × Word)) : State := st fun e =>
  { withGraph { graph0 with tasks := [{ index := 0, record := { recOf kDW with step := 2 } }], regions := [spilledAt n touched] } e with
    cap := { e.cap with spill := [entry adds] } }

/-- Premises of SpilledAddsAccumulate: an add of a later step, and two adds of one line at the ends of its range. -/
theorem witness_spilledAdds :
    (let s := spilling 1 true [(0, 1)]
     capWorks s.eng = true ∧ s.eng.cap.spill = [entry [(0, 1)]] ∧ s.eng.cap.job = none ∧
     regionOf s.eng (entry [(0, 1)]).region = some (spilledAt 1 true) ∧ addWaits s.eng 6 (stepOf s.eng 0) = true) ∧
    (let a : List (Nat × Word) := [(48, 0x3F800000), (63, 0x40000000)]
     let s := spilling 2 true a
     addWaits s.eng 6 (stepOf s.eng 0) = false ∧ (spilledAt 2 true).stale = false ∧ (a.map Prod.fst).Nodup ∧
     (∀ x ∈ a, x.1 < 64 ∧ lineOf (0x40000 + 4 * x.1) = firstLine s.eng (spilledAt 2 true) a) ∧ 0x40000 % 64 = 0 ∧
     writesLost s.eng (.cap 0) = false ∧ writesLost s.eng (.cap noTask) = false) := by decide +kernel

/-- Both adds reach memory, and the one of a later step waits. -/
theorem test_spill_add :
    (let t := nx (Machine.exec (.spillAdd {}) (spilling 2 true [(48, 0x3F800000), (63, 0x40000000)]))
     viewNat t.mem t.eng (0x40000 + 4 * 63) 4 = 0x40000000 ∧ t.eng.cap.spill = []) ∧
    (nx (Machine.exec (.spillAdd { lane := true }) (spilling 1 true [(0, 1)]))).eng.cap.spill.map HandleEntry.waited = [true] := by decide +kernel

/-- An argument record of a tensor without codes: `rows` rows of one element; master, moments and gradients apart. -/
def linArg (rows : Nat) : UpdArg :=
  { (default : UpdArg) with linear := true, gradF32 := true, rows := rows, rowLen := 1, k := 1, master := 0x10000, m := 0x11000,
                            v := 0x12000, grad := 0x13000, freeze := 0x14000 }

/-- Gradient descent: w′ = w − lr · g. -/
def descent : List Word :=
  [0, 0, 0, 0, 0, 0, 0, 0, 0, 0x3F800000, 0, 0, 0x3F000000, 0, 0x3F800000, 0, 0, 0]

/-- The capping unit's job on that tensor. -/
def linJob (rows : Nat) : CapJob :=
  { task := 0, kind := kUPDATE, param := 0, arg := linArg rows, coef := descent, lrT := 0x3F000000 }

/-- A state with a job of the capping unit. -/
def capping (j : CapJob) (f : Engine → Engine := id) : State :=
  tasks [{ index := 0, record := recOf kUPDATE, life := .running .cap }] fun e => f { e with cap := { e.cap with job := some j } }

/-- The lines that the first row reads: master weight 1.0, gradient 2.0, the freeze bits. -/
def rowLines (frozen : Byte) (poison : Bool) : List MemLine :=
  [ln 0x10000 [0, 0, 0x80, 0x3F], { ln 0x13000 [0, 0, 0, 0x40] with poison := poison }, ln 0x14000 [frozen]]

/-- Premises of UpdateRowAppliesRecurrence: a frozen row, a poisoned one, one that takes the recurrence. -/
theorem witness_updateRow :
    (let s := capping (linJob 2)
     let m (z : Byte) (p : Bool) := Machine.landed s.mem (rowLines z p)
     capWorks s.eng = true ∧ s.eng.cap.job = some (linJob 2) ∧ (linJob 2).kind = kUPDATE ∧ rowTurn s.eng = true ∧
     (linJob 2).arg.linear = true ∧ (linJob 2).row + 1 < (linJob 2).arg.rows ∧
     freezeBit (m 1 false) s.eng (linJob 2) 0 = (true, false) ∧ freezeBit (m 0 false) s.eng (linJob 2) 0 = (false, false) ∧
     stateMarked (m 0 true) s.eng (linJob 2) 0 0 1 = true ∧ stateMarked (m 0 false) s.eng (linJob 2) 0 0 1 = false ∧
     anyBad (updElems (m 0 false) s.eng (linJob 2) 0 1 none) = false ∧ writesLost s.eng (.cap 0) = false ∧ (0x10000 + 4 * (0 + 1) ≤ 0x11000))
     := by decide +kernel

/-- 1.0 − 0.5 · 2.0 is 0, and the next row follows. -/
theorem test_update_row :
    (let t := nx (Machine.exec (.updateRow (rowLines 0 false) false) (capping (linJob 2)))
     viewNat t.mem t.eng 0x10000 4 = 0 ∧ t.eng.cap.job.map CapJob.row = some 1) ∧
    ctrVal (nx (Machine.exec (.updateRow (rowLines 1 false) false) (capping (linJob 2)))).eng .frozenRows = 1 := by decide +kernel

/-- A position of a block. -/
def maskAt (r c : Nat) (mag : Word) (fixed : Bool := false) : MaskPos := { r := r, c := c, mag := mag, fixed := fixed }

/-- Premises of MaskBlockKeepsLimits: three positions of one row under N = 2, one of them fixed. -/
theorem witness_maskBlock :
    [maskAt 0 0 1, maskAt 0 1 2, maskAt 0 2 0 true].length ≤ 3 ∧
    (∃ x ∈ repairBlock 2 3 [maskAt 0 0 1, maskAt 0 1 2, maskAt 0 2 0 true], x.fixed = false) ∧
    (∀ y ∈ [maskAt 0 0 1, maskAt 0 1 2, maskAt 0 2 0 true], y.r = 0 → y.c = 2 → y = maskAt 0 2 0 true) ∧
    rowCnt [maskAt 0 0 1, maskAt 0 1 2] 0 ≤ 2 ∧ colCnt [maskAt 0 0 1, maskAt 0 1 2] 1 ≤ 2 := by decide +kernel

/-- Repair takes the lowest magnitude away; a fixed position stays. -/
theorem test_mask_repair :
    (repairBlock 2 3 [maskAt 0 0 0x3F800000, maskAt 0 1 0x40000000, maskAt 0 2 0 true]).map MaskPos.c = [1, 2] ∧
    (regrowBlock 2 [⟨0, 0, 5, 0⟩, ⟨1, 0, 4, 0⟩] 2 [maskAt 0 1 1, maskAt 0 2 1]).1 = 1 := by decide +kernel

/-- A tensor of two slots with codes at 0x50000 and 0x60000; slot 0 is CURRENT, and `pins` holds the other. -/
def tensor (pins : List (Nat × Nat)) : VerEntry :=
  { handle := 9, slots := 2, current := 0, w8 := false, codes := [0x50000, 0x60000], factors := [0x58000, 0x68000], pins := pins,
    epochs := [some 3, none, none] }

/-- A state with a job of the capping unit on that tensor, or with one that waits for its slot. -/
def versioned (kind : Nat) (pins : List (Nat × Nat)) (f : Engine → Engine) : State := st fun e =>
  f (withGraph { graph0 with tasks := [{ index := 0, record := { recOf kind with param := 9 }, life := .running .cap }],
                             versions := [tensor pins], fetch := 2 } e)

/-- A job on the tensor. -/
def tensorJob (kind mode : Nat) : CapJob :=
  { task := 0, kind := kind, param := 9, mode := mode, target := some 1
    arg := { (default : UpdArg) with rows := 16, rowLen := 4, k := 16, codePitch := 64, factorPitch := 64, master := 0x10000, m := 0x11000,
                                     v := 0x12000, prune := 1 } }

/-- A job of descent on that tensor, whose rows have 16 columns in 64 bytes; a MASK task prunes one position of a block, none of a row. -/
def codedJob (kind mode : Nat) : CapJob :=
  { tensorJob kind mode with
    coef := descent, lrT := 0x3F000000
    arg := { (tensorJob kind mode).arg with rows := 2, rowLen := if mode = 0 then 16 else 4, grad := 0x13000, gradF32 := true
                                            freeze := 0x14000, prune := if mode = 3 then 0 else 1, cand := 0x15000 } }

/-- A state with that job. -/
def coded (j : CapJob) : State := versioned j.kind [] fun e => { e with cap := { e.cap with job := some j } }

/-- Row 0 of the tensor: scale 1.0, zero point 8, EPOCH 3 (Table 02-4). -/
def rowOf (flags : Byte) (payload : List Byte) : MemLine := ln 0x50000 ([0, 0, 0x80, 0x3F, 8, flags, 3, 0] ++ payload)

/-- A dense W4 row of zero points, its first master weight 3.0, and the freeze bits. -/
def denseLines (z : Byte) : List MemLine := [rowOf 0 (List.replicate 8 0x88), ln 0x10000 [0, 0, 0x40, 0x40], ln 0x14000 [z]]

/-- A FREE row with code 9 at column 2 (R68), its master weight 1.0. -/
def freeLines : List MemLine := [rowOf 0x10 [0x92, 0xFF], ln 0x10000 [0, 0, 0x80, 0x3F]]

/-- An NM28 row with codes 9 and 10 at columns 1 and 3 and none in its second group (R64, R65), master weights 1.0 and 2.0. -/
def nmLines : List MemLine :=
  [rowOf 0x08 (leBytes 4 (73 + 83 * 2 ^ 7 + 71 * 2 ^ 14 + 64 * 2 ^ 21)), ln 0x10000 [0, 0, 0x80, 0x3F, 0, 0, 0, 0x40]]

/-- Further premises of UpdateRowAppliesRecurrence: a dense row with codes, frozen and not. -/
theorem witness_updateCodes :
    (let j := codedJob kUPDATE 0
     let s := coded j
     let m (z : Byte) := Machine.landed s.mem (denseLines z)
     let r := capRow (m 0) s.eng j 0
     let sz := startScale s.eng j r.hdr
     let xs := updElems (m 0) s.eng j r.base r.count none
     let ws := r.places.map fun i => (elemD xs i (0, 0, 0)).1
     let ns := newScale (m 0) s.eng j 0 sz.1 sz.2.1 sz.2.2.1 ws
     let q := quantRow (capMinScale s.eng) ns.s sz.2.1 (qmaxOf sz.2.2.1) ws
     let rec_ := headerBytes q.scale q.zp (flagsByte 0 (!ws.isEmpty && (decide (0 < q.clamped) || ns.clamped)) q.flat sz.2.2.1) r.hdr.epoch ++
       encodeRow 0 sz.2.2.1 16 q.zp (r.pos.zip q.codes)
     capWorks s.eng = true ∧ s.eng.cap.job = some j ∧ rowTurn s.eng = true ∧ j.arg.linear = false ∧ j.row + 1 < j.arg.rows ∧ j.target = some 1 ∧
     writesLost s.eng (.cap j.task) = false ∧ freezeBit (m 1) s.eng j 0 = (true, false) ∧ freezeBit (m 0) s.eng j 0 = (false, false) ∧
     r.poison = false ∧ headerBad r.hdr = false ∧ stateMarked (m 0) s.eng j 0 r.base r.count = false ∧ anyBad xs = false ∧ ns.bad = false ∧
     recordLen 0 sz.2.2.1 16 r.pos ≤ 64 ∧ j.arg.scaleTrain = false ∧
     Apart [(codeAddr s.eng j 1 0, r.codeLen), (factorAddr s.eng j 1 0, r.factorLen), (factorAddr s.eng j j.from_ 0, r.factorLen)] ∧
     codeAddr s.eng j j.from_ 0 + r.codeLen ≤ 2 ^ 52 ∧
     Apart [(j.arg.master + 4 * r.base, 4 * r.count), (j.arg.m + momBytes j.coef * r.base, momBytes j.coef * r.count),
       (j.arg.v + momBytes j.coef * r.base, momBytes j.coef * r.count), (codeAddr s.eng j 1 0, rec_.length), (factorAddr s.eng j 1 0, r.count)]) := by
  unfold Apart; decide +kernel

/-- Its first master weight 3.0 is code 11 under scale 1.0 and zero point 8; all others are code 8. -/
theorem test_update_codes :
    (let t := nx (Machine.exec (.updateRow (denseLines 0) false) (coded (codedJob kUPDATE 0)))
     viewBytes t.mem t.eng 0x60000 10 = [0, 0, 0x80, 0x3F, 8, 0, 3, 0, 0x8B, 0x88] ∧ t.eng.cap.job.map CapJob.codesWritten = some 16) := by
  decide +kernel

/-- Premises of CappingTaskMovesOn about a block: the first row of an NM28 layer takes part. -/
theorem witness_maskRows :
    (let j := codedJob kMASK 1
     let s := coded j
     let m := Machine.landed s.mem nmLines
     let o := openRows m (readEng s nmLines) j
     let jt := { j with from_ := 1, skipRows := o.2.1, heldRows := o.2.2 }
     let open_ := (blockRows j).filter fun r => decide (r ∉ o.2.1) && !(decide (r ∈ o.2.2) || ((freezeBit m o.1 jt r).1 && !(freezeBit m o.1 jt r).2))
     s.eng.cap.job = some j ∧ j.mode = 1 ∧ j.block = 0 ∧ j.target = some 1 ∧ writesLost s.eng (.cap j.task) = false ∧ open_ = [0] ∧
     codeBits (capHeader m o.1 jt 0) + 3 = 7 ∧
     Apart [(codeAddr s.eng j 1 0, 8), (codeAddr s.eng j 1 0 + 8, ceilDiv (2 * 7) 8), (j.arg.master, 8), (j.arg.m, 4 * 2), (j.arg.v, 4 * 2),
       (factorAddr s.eng j 1 0, 2)] ∧ momBytes j.coef = 4) := by unfold Apart; decide +kernel

/-- Its premises about a row: one that takes part, and one whose header is of another format. -/
theorem witness_freeRows :
    (let j := codedJob kMASK 3
     let s := coded j
     let m := Machine.landed s.mem freeLines
     let r := capRow m s.eng j 0
     s.eng.cap.job = some j ∧ capWorks s.eng = true ∧ rowTurn s.eng = true ∧ j.row + 1 < j.arg.rows ∧ classify m s.eng j 0 r = .free ∧
     r.pos.length = 1 ∧ r.count = 1 ∧ r.hdr.wide = false ∧ r.base = 0 ∧
     Apart [(codeAddr s.eng j 1 0, j.arg.codePitch), (factorAddr s.eng j 1 0, r.count), (j.arg.master + 4 * r.base, 4 * r.count),
       (j.arg.m + 4 * r.base, 4 * r.count), (j.arg.v + 4 * r.base, 4 * r.count)]) ∧
    (let j := codedJob kMASK 3
     let s := coded j
     let m := Machine.landed s.mem nmLines
     let r := capRow m s.eng j 0
     headerBad r.hdr = true ∧ 1 ≠ j.from_ ∧ codeAddr s.eng j j.from_ 0 + r.codeLen ≤ 2 ^ 52 ∧
     Apart [(codeAddr s.eng j 1 0, r.codeLen), (factorAddr s.eng j 1 0, r.factorLen), (factorAddr s.eng j j.from_ 0, r.factorLen)]) := by
  unfold Apart; decide +kernel

/-- A record of at most one position fits in its pitch. -/
theorem witness_freeRoom (ks : List Nat) (h : ks.length ≤ 1) (hk : ∀ k ∈ ks, k < 16) : recordLen 3 false 16 ks ≤ 64 := by
  have one : ∀ k < 16, recordLen 3 false 16 [k] ≤ 64 := by decide +kernel
  match ks, h with
  | [], _ => decide +kernel
  | [k], _ => exact one k (hk k (by simp))

/-- The position of the lowest master weight goes from the block, and the other's fields are the row's; a FREE row that keeps its mask gets its
new EPOCH. -/
theorem test_mask_rows :
    (let t := nx (Machine.exec (.maskBlock ⟨nmLines, false⟩) (coded (codedJob kMASK 1)))
     viewBytes t.mem t.eng 0x60008 4 = leBytes 4 (83 + 67 * 2 ^ 7 + 71 * 2 ^ 14 + 64 * 2 ^ 21) ∧
     viewBytes t.mem t.eng 0x10000 8 = [0, 0, 0, 0x40, 0, 0, 0, 0]) ∧
    (let t := nx (Machine.exec (.maskFreeRow ⟨freeLines, false⟩) (coded (codedJob kMASK 3)))
     viewBytes t.mem t.eng 0x60000 10 = [0, 0, 0x80, 0x3F, 8, 0x10, 4, 0, 0x92, 0xFF]) := by decide +kernel

/-- A checkpoint that copies its list's first entry: 8 bytes from 0x20000 to 0x30000. -/
def ckptJob : CapJob :=
  { task := 0, kind := kCKPT, param := 0, ckpt := some { list := 0x8000, entries := 2, coefDst := 0x9000, manifest := 0xA000 } }

/-- The list's first entry. -/
def ckptEntry : List MemLine := [ln 0x8000 (List.replicate 8 0 ++ leBytes 8 0x20000 ++ leBytes 8 0x30000 ++ leBytes 8 8), ln 0x20000 [1, 2, 3, 4, 5, 6, 7, 8]]

/-- Premises of CappingTaskMovesOn: a slot that is free and none, for an UPDATE and a MASK task; a block and a row that are not the last;
an entry that is not the last. -/
theorem witness_cappingTask :
    (∀ kind ∈ [kUPDATE, kMASK],
      (let j := { tensorJob kind 0 with target := none }
       let s := versioned kind [] fun e => { e with cap := { e.cap with waiting := some j } }
       capWorks s.eng = true ∧ s.eng.cap.waiting = some j ∧ ((taskOf s.eng 0).map fun t => t.record.kind) = some kind ∧
       (chooseSlot s.eng 9 0).1 = some 1 ∧ ((verOf s.eng 9).map fun v => (elemD v.factors 0 0, elemD v.factors 1 0)) = some (0x58000, 0x68000))) ∧
    (chooseSlot (versioned kMASK [(1, 0)] id).eng 9 0).1 = none ∧
    (let s := versioned kMASK [] fun e => { e with cap := { e.cap with job := some (tensorJob kMASK 2) } }
     capWorks s.eng = true ∧ rowTurn s.eng = true ∧ (tensorJob kMASK 2).mode ≠ 3 ∧
     (tensorJob kMASK 2).block + 1 < ceilDiv (tensorJob kMASK 2).arg.k 8 ∧ (tensorJob kMASK 3).row + 1 < (tensorJob kMASK 3).arg.rows) ∧
    (let s := versioned kCKPT [] fun e => { e with cap := { e.cap with job := some ckptJob } }
     let m := Machine.landed s.mem ckptEntry
     capWorks s.eng = true ∧ rowTurn s.eng = true ∧ ckptSource s.eng (viewBytes m s.eng 0x8000 32) = some 0x20000 ∧
     viewPoisoned m s.eng 0x8000 32 = false ∧ field (viewBytes m s.eng 0x8000 32) 16 8 = 0x30000) := by decide +kernel

/-- The waiting task takes the free slot, and waits while there is none. -/
theorem test_version_slot :
    ((nx (Machine.exec .versionSlotFree (versioned kUPDATE [] fun e => { e with cap := { e.cap with waiting := some (tensorJob kUPDATE 0) } }))).eng.cap.job.map
      CapJob.target) = some (some 1) ∧
    (nx (Machine.exec .versionSlotFree (versioned kUPDATE [(1, 0)] fun e => { e with cap := { e.cap with waiting := some (tensorJob kUPDATE 0) } }))).eng.cap.job
      = none := by decide +kernel

/-- The MASK task goes on with its next block, or row. -/
theorem test_mask_moves :
    ((nx (Machine.exec (.maskBlock { rd := [] }) (versioned kMASK [] fun e => { e with cap := { e.cap with job := some (tensorJob kMASK 2) } }))).eng.cap.job.map
      CapJob.block) = some 1 ∧
    ((nx (Machine.exec (.maskFreeRow { rd := [] }) (versioned kMASK [] fun e => { e with cap := { e.cap with job := some (tensorJob kMASK 3) } }))).eng.cap.job.map
      CapJob.row) = some 1 := by decide +kernel

/-- The entry's bytes are copied. -/
theorem test_checkpoint_copy :
    (let t := nx (Machine.exec (.checkpointEntryCopy { rd := ckptEntry }) (versioned kCKPT [] fun e => { e with cap := { e.cap with job := some ckptJob } }))
     viewBytes t.mem t.eng 0x30000 8 = [1, 2, 3, 4, 5, 6, 7, 8] ∧ (t.eng.cap.job.bind CapJob.ckpt).map CkptJob.next = some 1) := by
  decide +kernel

/-! ### Power, clocks, temperature, substates -/

/-- A state with the power unit changed. -/
def powered (f : Power → Power) : State := st fun e => { e with pwr := f e.pwr }

/-- The combs at a step and the rail at a code, with no request that waits. -/
def atStep (step vid : Nat) (f : Power → Power := id) : State :=
  powered fun p => f { p with step := step, stepReq := step, vid := vid, vidReq := vid }

/-- Premises of RequestsKeepOrder: codes on both sides of the judged minimum, in a hold too; steps on both sides of the voltage's; the
requests that are held; an envelope's last change. -/
theorem witness_requests :
    (HubUp (atStep 8 60).eng ∧ Presents (atStep 8 60) (.firmware 59) .pwrVid 59 ∧ Presents (atStep 8 60) (.firmware 3) .clkCombFreq 3) ∧
    ((vidTaken 59).isSome = true ∧ 59 < minVid (judgedStep (atStep 8 60).eng) ∧ minVid (judgedStep (atStep 8 60).eng) ≤ 60 ∧
     railReady (atStep 8 60).eng = true ∧ railReady (atStep 8 60 fun p => { p with goodCore := false }).eng = false ∧
     judgedStep (atStep 2 60 fun p => { p with stepReq := 8, islands := updAt p.islands 3 fun i => { i with hold := true } }).eng = 8) ∧
    ((stepTaken 9).isSome = true ∧ stepBounded (atStep 8 60).eng = false ∧ stepBounded (atStep 8 60 fun p => { p with forced := true }).eng = true ∧
     60 < minVid 9 ∧ minVid 8 ≤ 60 ∧ holdBlocks (atStep 8 60).eng 8 = false ∧
     holdBlocks (atStep 8 60 fun p => { p with islands := updAt p.islands 3 fun i => { i with hold := true, holdStep := 7 } }).eng 8 = true ∧
     (atStep 8 60).eng.pwr.goodSince = true ∧ traceEnabled (atStep 8 60).eng 0x0008 = true) ∧
    (vidFree (atStep 8 60 fun p => { p with vidHeld := true }).eng = true ∧ vidFree (atStep 8 60).eng = false ∧
     stepFree (atStep 8 60 fun p => { p with stepHeld := true }).eng = true ∧ stepFree (atStep 8 60).eng = false ∧
     (atStep 8 60).eng.pwr.envTarget = none) ∧
    (let s := st fun e => { e with pwr := { e.pwr with changing := true, envTarget := some 1, step := 8, stepReq := 8, vid := 60, vidReq := 60 }
                                   mbx := { e.mbx with modeReply := some (msg 7 [1]).msg } }
     s.eng.pwr.changing = true ∧ procUp s.eng 0 = true ∧ envStep 1 = 8 ∧ envVid 1 = 60 ∧ railReady s.eng = true ∧ s.eng.mbx.modeReply.isSome = true ∧
     (∀ k : CombId, enabled s.eng k = true → (islandOf s.eng k.val).hold = true → 8 ≤ (islandOf s.eng k.val).holdStep) ∧
     (let e := onIsland s.eng 3 fun i => { i with hold := true, holdStep := 7 }
      enabled e 3 = true ∧ (islandOf e 3).hold = true ∧ (islandOf e 3).holdStep < 8)) :=
  ⟨⟨hubUp_of (by decide +kernel), presents_firmware (by decide +kernel), presents_firmware (by decide +kernel)⟩, by decide +kernel,
   by decide +kernel, by decide +kernel, by decide +kernel⟩

/-- A voltage below the minimum is held; in a hold the requested step judges it. -/
theorem test_voltage_request :
    ((nx (Machine.exec (.voltageRequest (.firmware 59)) (atStep 8 60))).eng.pwr.vid,
     (nx (Machine.exec (.voltageRequest (.firmware 59)) (atStep 8 60))).eng.pwr.vidHeld) = (60, true) ∧
    (nx (Machine.exec (.voltageRequest (.firmware 66)) (atStep 8 60))).eng.pwr.vid = 66 := by decide +kernel

/-- A step above the voltage's is held, one that it carries is applied. -/
theorem test_frequency_request :
    (nx (Machine.exec (.frequencyRequest (.firmware 9)) (atStep 8 60))).eng.pwr.stepHeld = true ∧
    (nx (Machine.exec (.frequencyRequest (.firmware 3)) (atStep 8 60))).eng.pwr.step = 3 := by decide +kernel

/-- A held request is applied; the change completes. -/
theorem test_held_request :
    (nx (Machine.exec .heldRequestApply (atStep 8 60 fun p => { p with vidHeld := true, vidReq := 65 }))).eng.pwr.vid = 65 ∧
    (nx (Machine.exec .freqChangeComplete (atStep 8 60 fun p => { p with changing := true }))).eng.pwr.changing = false := by decide +kernel

/-- Premises of VoltageCoversFrequency: commands of every kind that complete at step 10, and a return from NAP. -/
theorem witness_voltageCovers :
    (minVid (atStep 10 70).eng.pwr.step ≤ (atStep 10 70).eng.pwr.vid ∧ awake (atStep 10 70).eng = true ∧ (atStep 10 70).held = [] ∧
     ∀ c ∈ [Instr.staleTrip, .voltageRequest (.firmware 71), .frequencyRequest (.firmware 9), .modeSet, .railCoreDrop, .park, .fpReady 0,
       .selfRestart 0 0, .protectStore 0 false 0 0, .idleReturn, .padRelease (.firmware 1), .heartbeatTimeout],
       isNext (Machine.exec c (atStep 10 70)) = true) ∧
    (let s := atStep 10 30 fun p => { p with pstate := .nap, wakeLatched := true, entryVid := 70 }
     minVid s.eng.pwr.step ≤ s.eng.pwr.entryVid ∧ asleep s.eng = true ∧ s.eng.pwr.wakeLatched = true ∧ entryDone s.eng = true ∧
     isNext (Machine.exec .wakeReturn s) = true) := by decide +kernel

/-- Island i in a dip. -/
def dipped (i : Nat) (f : Island → Island := id) : State :=
  powered fun p => { p with islands := updAt p.islands i fun s => f { s with stretched := true } }

/-- Premises of DipsStretchThenHold: supplies at both levels and next to them, a dip, a hold and a request that it delayed, the core rail, a
command that waits in a crossing. -/
theorem witness_dips :
    ((st id).eng.pwr.islands.length = 57 ∧ islandRuns (st id).eng 3 = true ∧ (islandOf (st id).eng 3).stretched = false ∧
     (islandOf (dipped 3).eng 3).stretched = true ∧ islandRuns (powered fun p => { p with pstate := .nap }).eng 3 = false ∧
     Settled (st id) ∧ Settled (dipped 3) ∧ Settled { dipped 50 fun i => { i with stopped := true } with shadow := some run }) ∧
    (warnLevel (st id).eng 3 = 1400 ∧ stopLevel (st id).eng 3 = 1350 ∧ (1399 : BitVec 12).toNat < 1400 ∧ 1400 ≤ (1400 : BitVec 12).toNat ∧
     (1349 : BitVec 12).toNat < 1350 ∧ 1350 ≤ (1350 : BitVec 12).toNat) ∧
    ((islandOf (powered fun p => { p with islands := updAt p.islands 3 fun s => { s with hold := true } }).eng 3).hold = true ∧
     (st id).eng.pwr.railDropped = false ∧ (st id).eng.pwr.envTarget = none ∧ (st id).eng.pwr.stepHeld = false ∧
     (let s := atStep 8 60 fun p => { p with stepReq := 9, stepHeld := true }
      stepBad s.eng s.eng.pwr.stepReq = true ∧ s.eng.pwr.stepCounted = false) ∧
     (let s := atStep 8 60 fun p => { p with stepReq := 7, stepHeld := true, islands := updAt p.islands 3 fun i => { i with hold := true } }
      let t := nx (Machine.exec (.droopHoldExpiry 3) s)
      stepBad s.eng 7 = false ∧ stepBounded s.eng = false ∧ holdBlocks t.eng 7 = false ∧ t.eng.pwr.step = 7)) ∧
    ((st id).eng.pwr.coreReq = true ∧ (st id).eng.pwr.goodCore = true ∧ (st id).eng.pwr.goodSince = true ∧
     (powered fun p => { p with goodSince := false }).eng.pwr.goodSince = false ∧ (st id).eng.pwr.envTarget = none ∧
     (powered fun p => { p with goodCore := false, railDropped := true }).eng.pwr.railDropped = true ∧
     (st id).eng.pwr.vidOld = none ∧ (powered fun p => { p with vidOld := some (50, 9) }).eng.pwr.vidOld.isSome = true ∧
     (st id).eng.pwr.pstate ≠ .nap) ∧
    (let c := Instr.laneLock 3
     let s : State := { powered (fun p => { p with islands := updAt p.islands (linkIsland 3) fun i => { i with stretched := true, stopped := true } })
       with held := [c] }
     linkIsland 3 ≠ 50 ∧ linkIsland 3 ≠ 55 ∧ crosses c = true ∧
     isNext (Machine.exec (.droopWarning ⟨Fin.ofNat 57 (linkIsland 3), 4095⟩) { s with held := [] }) = true) := by unfold Settled; decide +kernel

/-- At the warning level nothing happens, below it the clock stretches; below the stop level it stops. -/
theorem test_droop_warning :
    (islandOf (nx (Machine.exec (.droopWarning ⟨3, 1400⟩) (st id))).eng 3).stretched = false ∧
    (islandOf (nx (Machine.exec (.droopWarning ⟨3, 1399⟩) (st id))).eng 3).stretched = true := by decide +kernel

/-- The stop level. -/
theorem test_droop_stop :
    (islandOf (nx (Machine.exec (.droopStop ⟨3, 1350⟩) (dipped 3))).eng 3).stopped = false ∧
    (islandOf (nx (Machine.exec (.droopStop ⟨3, 1349⟩) (dipped 3))).eng 3).stopped = true := by decide +kernel

/-- A comb that leaves a dip holds one step below until the hold ends. -/
theorem test_droop_clear :
    (islandOf (nx (Machine.exec (.droopClear ⟨3, 1400⟩ 20) (dipped 3))).eng 3).hold = true ∧
    (islandOf (nx (Machine.exec (.droopHoldExpiry 3) (powered fun p =>
      { p with islands := updAt p.islands 3 fun s => { s with hold := true } }))).eng 3).hold = false := by decide +kernel

/-- A drop of the core rail stretches every island; its return starts the holds. -/
theorem test_rail :
    islandStretched (nx (Machine.exec .railCoreDrop (st id))).eng 50 = true ∧
    (islandOf (nx (Machine.exec .railCoreRecover (powered fun p => { p with goodCore := false, railDropped := true }))).eng 7).hold = true := by
  decide +kernel

/-- Sensor 63 has delivered a code at 31 degrees, and the limits of PWR_THERM_CTRL are 100 and 110. -/
def sensed (f : Power → Power := id) : State := st fun e =>
  setRw { e with pwr := f { e.pwr with sensors := updAt e.pwr.sensors 63 fun _ => ⟨1520, 496, false, true⟩ } } .pwrThermCtrl (at' 110 8 + 100)

/-- Premises of SensorsTripAndLoop: a valid code at the trip level, one that fails the sensor, the loop, a re-fit, an estimate. -/
theorem witness_sensors :
    (sensorsOn sensed.eng = true ∧ sensed.eng.pwr.sensors.length = 64 ∧
     sensorValid (nx (Machine.exec (.sensorCode 63 0) sensed)).eng 63 = false ∧
     (let t := nx (Machine.exec (.sensorCode 62 2784) sensed)
      sensorValid t.eng 62 = true ∧ 16 * (bits (rwVal sensed.eng .pwrThermCtrl) 8 8 : Int) ≤ sensorTemp t.eng 62)) ∧
    (loopRuns sensed.eng = true ∧ sensed.eng.pwr.demandT = 0 ∧ sensed.eng.pwr.thermal.powers = [] ∧ dutyNow sensed.eng = 0 ∧
     0 < dutyNow (sensed fun p => { p with duty := 3 }).eng) ∧
    islandRuns sensed.eng 50 = true := by decide +kernel

/-- 110 degrees trip, 109.9375 do not (sensor 62 has a trim of 3). -/
theorem test_sensor_trip :
    (nx (Machine.exec (.sensorCode 62 2781) sensed)).eng.pwr.forced = true ∧
    (nx (Machine.exec (.sensorCode 62 2780) sensed)).eng.pwr.forced = false := by decide +kernel

/-- A sensor that does not deliver fails; without any the trip acts. -/
theorem test_sensor_timeout :
    (elemD (nx (Machine.exec (.sensorTimeout 63) sensed)).eng.pwr.sensors 63 {}).failed = true ∧
    dutyNow (nx (Machine.exec .staleTrip sensed)).eng = 56 := by decide +kernel

/-- A state ready for entry into a substate. -/
def entering (t : Nat) (f : Engine → Engine := id) : State := st fun e => f { e with pwr := { e.pwr with target := t, vid := 60 } }

/-- NAP with a wake latched, its rail at code 30 and good again. -/
def napping (vid : Nat) : State := powered fun p => { p with pstate := .nap, wakeLatched := true, vid := 30, vidReq := 30, entryVid := vid }

/-- A pad hold with port 3 enabled, and a LINK record. -/
def padHeld : State := st fun e => setRw { e with
  pwr := { e.pwr with padHold := true }, boot := { e.boot with cfg := { e.boot.cfg with hasLink := true } } } (.portCtrl 3) 7

/-- Premises of SubstatesEnterAndReturn: TARGET 1 to 3, a command that waits; a return with and without a latched wake; SEND in IDLE;
the pad hold released. -/
theorem witness_substates :
    (HubUp (st id).eng ∧ Presents (st id) (.firmware 3) .pwrMode 3 ∧ Presents (powered fun p => { p with padHold := true }) (.firmware 1) .pwrPadRelease 1) ∧
    (entryReady (entering 1).eng = true ∧ entryReady (entering 2).eng = true ∧ entryReady (entering 3).eng = true ∧
     entryReady (entering 2 fun e => { e with mbx := { e.mbx with busy := true } }).eng = false) ∧
    (asleep (powered fun p => { p with pstate := .nap }).eng = true ∧ entryDone (powered fun p => { p with pstate := .nap }).eng = false ∧
     entryDone (napping 57).eng = true ∧ (napping 57).eng.pwr.wakeLatched = true ∧ asleep (napping 57).eng = true ∧
     entryDone (powered fun p => { p with pstate := .hibernate, wakeLatched := true }).eng = true) ∧
    (railReady (entering 2).eng = true ∧ (entering 2).eng.pwr.vid ≠ 30 ∧
     railReady (entering 2 fun e => { e with pwr := { e.pwr with goodCore := false } }).eng = false) ∧
    (let s := st fun e => { e with pwr := { e.pwr with pstate := .idle }, mbx := { e.mbx with busy := true } }
     s.eng.pwr.pstate = .idle ∧ s.eng.mbx.expired = false) ∧
    (let s := padHeld
     s.eng.lnk.ports.length = 18 ∧ portOn s.eng 3 = true ∧ portOn s.eng 4 = false ∧ (islandOf s.eng (linkIsland 3)).started = true ∧ s.eng.log.queries = []) :=
  ⟨⟨hubUp_of (by decide +kernel), presents_firmware (by decide +kernel), presents_firmware (by decide +kernel)⟩, by decide +kernel,
   by decide +kernel, by decide +kernel, by decide +kernel, by decide +kernel⟩

/-- NAP keeps the rail at code 30. -/
theorem test_substate_entry :
    (nx (Machine.exec .substateEntry (entering 2))).eng.pwr.vid = 30 ∧
    (nx (Machine.exec .substateEntry (entering 1))).eng.pwr.pstate = .idle := by decide +kernel

/-- The returns from NAP and from IDLE. -/
theorem test_returns :
    (nx (Machine.exec .wakeReturn (napping 57))).eng.pwr.vid = 57 ∧
    (nx (Machine.exec .idleReturn (st fun e => { e with pwr := { e.pwr with pstate := .idle }, mbx := { e.mbx with busy := true } }))).eng.sb.wakeCause = 2 := by
  decide +kernel

/-- The release of the pad hold trains an enabled port. -/
theorem test_pad_release :
    (portOf (nx (Machine.exec (.padRelease (.firmware 1)) padHeld)).eng 3).trainReq = true := by decide +kernel

/-! ### Start-up, reset, test, firmware -/

/-- An Atloth image without records. -/
def atloth : List Byte := leBytes 4 0x414C5441 ++ [1, 0, 0, 0] ++ leBytes 4 16 ++ leBytes 4 (crc32c []).toNat

/-- A board: the fuses fence the last two combs; with the image, or an erased flash. -/
def board (image : Bool) (t : Option Bool) : ColdEnv :=
  { fuses := (List.range 68).map fun i => .good (if i = 15 then 0x30000 else 0), sfdp := [], flash := if image then atloth else [], testAt := t }

/-- An engine without power. -/
def off : State := {}

/-- Premises of ColdStartReachesStage: powered and not, an image that is good and none, a TEST_ENTER within. -/
theorem witness_coldStart :
    off.eng.boot.state = .off ∧ (st id).eng.boot.state ≠ .off ∧ (checkImage (board true none)).result = .ok ∧
    (checkImage (board false none)).result ≠ .ok ∧ (board true none).testAt = none ∧ (board true (some false)).testAt = some false ∧
    testLocked (nx (Machine.exec (.coldStart (board true (some true))) off)).eng = false := by decide +kernel

/-- A good image leads to AWAIT_FW with 48 combs, none to CONFIG_LOAD. -/
theorem test_cold_start :
    (let t := nx (Machine.exec (.coldStart (board true none)) off)
     t.eng.boot.state = .awaitFw ∧ (enabledCombs t.eng).length = 48) ∧
    (nx (Machine.exec (.coldStart (board false none)) off)).eng.boot.state = .configLoad := by decide +kernel

/-- A TEST_ENTER in FUSE_LOAD; a fall of rail_aon. -/
theorem test_cold_test :
    (nx (Machine.exec (.coldStart (board true (some false))) off)).eng.boot.fromTest = some .fuseLoad ∧
    (nx (Machine.exec .railAonFall (st id))).eng.boot.state = .off := by decide +kernel

/-- Premises of WarmResetKeepsWhatItKeeps: the key and another, TEST open and locked. -/
theorem witness_warmReset :
    (Settled (st id) ∧ (st id).eng.sch.run = none ∧ (st id).eng.boot.fromTest = none ∧ railReady (atStep 8 60).eng = true ∧
     (atStep 8 60).eng.pwr.vid ≠ 40 ∧
     (st id).eng.boot.image = .ok ∧
     (st id).eng.boot.state ∈ [EngState.awaitFw, .fwCheck, .run, .refused, .orphaned]) ∧
    (HubUp (st id).eng ∧ Presents (st id) (.firmware 0x5752) .cfgReset 0x5752 ∧ Presents (st id) (.firmware 0x5753) .cfgReset 0x5753) ∧
    (tapOn (st id).eng = true ∧ testLocked (st id).eng = false ∧
     testLocked (st fun e => { e with boot := { e.boot with fuses := List.replicate 68 0x80000000 } }).eng = true ∧
     (st fun e => { e with boot := { e.boot with state := .test } }).eng.boot.state = .test) :=
  ⟨by unfold Settled; decide +kernel, ⟨hubUp_of (by decide +kernel), presents_firmware (by decide +kernel), presents_firmware (by decide +kernel)⟩,
   by decide +kernel⟩

/-- The key resets, another does not. -/
theorem test_warm_reset :
    (nx (Machine.exec (.warmReset (.firmware 0x5752)) (st id))).eng.boot.state = .awaitFw ∧
    (nx (Machine.exec (.warmReset (.firmware 0x5753)) (st id))).eng.boot.state = .run := by decide +kernel

/-- TEST is entered, and left for AWAIT_FW. -/
theorem test_test :
    (nx (Machine.exec .testEnter (st id))).eng.boot.state = .test ∧
    (nx (Machine.exec .testExit (st fun e => { e with boot := { e.boot with state := .test } }))).eng.boot.state = .awaitFw := by decide +kernel

/-- The sideband target addressed for a read or a write, its pointer set. -/
def addressed (d : SbDir) (ptr : Byte) (first : Bool) : State := st fun e => { e with sb := { e.sb with dir := some d, ptr := ptr, first := first } }

/-- Premises of TestPortAndSideband. -/
theorem witness_testPort :
    (tapOn (st id).eng = true ∧ (st id).eng.boot.state ≠ .test ∧ tapActs (st id).eng 0x7F = false) ∧
    ((0x11 : BitVec 7) ≠ (st id).eng.boot.cfg.sbAddr ∧ awake (st id).eng = true ∧ awake (powered fun p => { p with pstate := .nap }).eng = false) ∧
    ((addressed .write 0x30 false).eng.sb.dir = some .write ∧ (addressed .read 3 false).eng.sb.dir = some .read ∧
     (2 + 1 : Nat) < 8 ∧ (addressed .read 3 false).eng.sb.ptr = BitVec.ofNat 8 (2 + 1)) := by decide +kernel

/-- MBIST outside TEST is BYPASS; every other code too. -/
theorem test_tap :
    (nx (Machine.exec .mbist (st id))).eng.tap.dr = 0 ∧ (nx (Machine.exec (.bypass 0x7F) (st id))).eng.tap.ir = 0x7F ∧
    (nx (Machine.exec .idcode (st id))).eng.tap.dr = 1 := by decide +kernel

/-- The retained byte, and the pointer. -/
theorem test_sideband :
    (nx (Machine.exec (.sbWriteByte 9) (addressed .write 0x30 false))).eng.sb.scratch = 9 ∧
    (nx (Machine.exec .sbReadByte (addressed .read 0 false))).eng.sb.out = 0x57 ∧
    (nx (Machine.exec (.sbAddressMatch 0x11 .read) (st id))).eng.sb.ack = false := by decide +kernel

/-- An engine in an earlier state of its start-up. -/
def booting (b : EngState) (f : Boot → Boot := id) : State := st fun e => { e with boot := f { e.boot with state := b } }

/-- A processor that has been released. -/
def released : State := booting .fwCheck fun b => { b with fw := .authOk }

/-- The same with processors that are not yet READY. -/
def starting : State := { released with eng := { released.eng with fwp := { procs := List.replicate 4 { run := .run } } } }

/-- A firmware image of one segment of four bytes for FP3, mailbox version 3.2, signed over P-384 outside the model. -/
def signedImage : List Byte :=
  leBytes 4 0x57324657 ++ leBytes 2 0x0107 ++ [2, 3] ++ leBytes 4 276 ++ leBytes 4 1 ++ (List.replicate 4 (leBytes 4 0x100)).flatten ++
  beBytes 48 0x7ae9e1db1160794c70c1ef071be5191f6c66240f4608fbe8a44ecd36c3ed5db97500f2e4d84e3fb45850fd6f4303302b ++
  beBytes 48 0xd8ac21444cd80d241538d8034b399a0dee3636eb5cb00b9499d061a571db0f14bb47ed79453948ed63f3a6ccbbf6e74f ++
  beBytes 48 0x2ed038ed483fea4bb46a838686e2e073062f97d4545b4f47ff6c04a14a51c83771d06438db23c32252998e7c62bac6a7 ++
  beBytes 48 0x8778faa033c704fc4a8460b995a3b96aed1f2e3e79e4834dd6f0c7ad1169cde8b923fcdb756116d40f32f213947779f3 ++
  List.replicate 32 0 ++ leBytes 4 3 ++ leBytes 4 0x100 ++ leBytes 4 272 ++ leBytes 4 4 ++ [0x13, 0, 0, 1]

/-- FW_CHECK over that image, with the fused digest of its key. -/
def checkingGood : State := booting .fwCheck fun b => { b with
  fw := .checking, staging := cellsPutAll [] 0 signedImage
  fuses := [0, 0] ++ [0x9b33849, 0x500ecaef, 0x49f9b9ca, 0x49d84ab, 0x6a675a5c, 0x903616c0] ++
    [0x7a2a82ab, 0x6d9194e, 0x292c7950, 0xf45b3c35, 0x14331f46, 0x70026395] ++ List.replicate 54 0 }

/-- Premises of FirmwareLoadsAndStarts for a good image. -/
theorem witness_signed_image :
    checkingGood.eng.boot.fw = .checking ∧ fwVerdict checkingGood.eng (stagedImage checkingGood.eng) = .authOk := by decide +kernel

/-- The image's segment is in FP3's memory, at its place, once FW_CHECK has passed; one wrong byte fails the signature. -/
theorem test_firmware_release :
    (let t := nx (Machine.exec .fwCheckDone checkingGood)
     t.eng.boot.fw = .authOk ∧ cellsRead (procOf t.eng 3).mem 0xFF 6 = [0, 0x13, 0, 0, 1, 0]) ∧
    (let s := checkingGood
     fwVerdict s.eng (signedImage.take 275 ++ [2]) = .authFail) := by decide +kernel

/-- Premises of FirmwareLoadsAndStarts. -/
theorem witness_firmware :
    (HubUp (booting .awaitFw).eng ∧ Presents (booting .awaitFw) (.firmware 5) .cfgFwWinData 5 ∧
     Presents (booting .awaitFw) (.firmware 3) .cfgFwCtrl 3) ∧
    (rwVal (booting .awaitFw).eng .cfgFwWinAddr % 4 = 0 ∧ cellsWf (booting .awaitFw).eng.boot.staging = true ∧ (3 : Word).getLsbD 1 = true ∧
     (booting .run).eng.boot.state ≠ .awaitFw) ∧
    (let s := booting .fwCheck fun b => { b with fw := .checking }
     s.eng.boot.fw = .checking ∧ fwVerdict s.eng (stagedImage s.eng) ≠ .authOk) ∧
    (mayReady starting.eng 3 = true ∧ awake starting.eng = true ∧ (procOf starting.eng 3).fresh = true ∧ starting.eng.mbx.ring.length < 256) :=
  ⟨⟨hubUp_of (by decide +kernel), presents_firmware (by decide +kernel), presents_firmware (by decide +kernel)⟩, by decide +kernel,
   by decide +kernel, by decide +kernel⟩

/-- The window takes four bytes; FW_START begins the checks. -/
theorem test_firmware_load :
    cellsRead (nx (Machine.exec (.fwWindowWrite (.firmware 0x01020304)) (booting .awaitFw))).eng.boot.staging 0 4 = [4, 3, 2, 1] ∧
    (nx (Machine.exec (.fwStart (.firmware 1) [] false) (booting .awaitFw))).eng.boot.state = .fwCheck := by decide +kernel

/-- A bad image is turned away; FP3's first READY is announced. -/
theorem test_firmware_check :
    (nx (Machine.exec .fwCheckDone (booting .fwCheck fun b => { b with fw := .checking }))).eng.boot.fw = .badImage ∧
    (nx (Machine.exec (.fpReady 3) starting)).eng.mbx.ring.map Msg.opcode = [0xC0] := by decide +kernel

/-- Premises of RestartsAndObserves: each cause of a restart, a store beside what is loaded, and the observers. -/
theorem witness_restarts :
    (let s := st fun e => { e with fwp := { e.fwp with procs := List.replicate 4 { run := .run, ready := true, ro := [(16, 4)] } } }
     (procOf s.eng 0).run = .run ∧ s.eng.pwr.pstate = .active ∧ s.eng.fwp.procs.length = 4 ∧ s.eng.fwp.totals.length = 4 ∧
     isRo s.eng 0 false 19 = true ∧ isRo s.eng 0 false 20 = false) ∧
    (procOf (st fun e => { e with fwp := { e.fwp with procs := List.replicate 4 { run := .restarting } } }).eng 0).run = .restarting ∧
    (let s := st (withGraph graph0)
     procUp s.eng 3 = true ∧ running s.eng = true ∧ s.eng.combs.length = 50 ∧ enabled s.eng 3 = true ∧
     enabled (st (fenced 0 4)).eng 49 = false) := by decide +kernel

/-- FP0's restart lowers the combs to step 2; one that FP3 asks for itself has cause 3. -/
theorem test_restart :
    (nx (Machine.exec (.watchdogExpiry 0 0x44) (atStep 8 60))).eng.pwr.step = 2 ∧
    (nx (Machine.exec (.selfRestart 3 0x48) (st id))).eng.fwp.lastCause = 3 := by decide +kernel

/-- A log with `n` records in the shadow, a ring of 256 slots at 0x40000 with LOG_HEAD and LOG_TAIL as given. -/
def logging (n head tail : Nat) (f : Log → Log := id) : State := st fun e =>
  setRw (setRw { e with log := f { e.log with shadow := List.replicate n default, head := head, base := 0x40000, log2 := 8 } } .logCtrl 1) .logTail tail

/-- A record of a trace point. -/
def traced (tid : BitVec 16) : TraceRec := { island := 50, traceId := tid, flags := 0, payload := List.replicate 40 0 }

/-- The write of the oldest record. -/
def logWrite : WriteReq := { chan := 2, id := 1, sent := true, line := 0x1000, bytes := [(0, 7)], poison := false, who := .log }

/-- Premises of LogRecordsMove: records in flight with room and without, a trace point's group enabled or not, a ring with room and a
full one, a write of a record that is answered, ENABLE from 0 to 1. -/
theorem witness_log :
    (let s := logging 0 0 0 fun l => { l with inflight := [default] }
     HubUp s.eng ∧ s.eng.log.inflight = [default] ∧ s.eng.log.shadow.length < 16384 ∧ 16384 ≤ (List.replicate 16384 (default : LogRec)).length) ∧
    (traceEnabled (st id).eng 0x300 = false ∧ traceEnabled (st fun e => setRw e (.logMask 0) 9).eng 0x300 = true ∧ 0x100 ≤ 0x300 ∧ 0x300 < 0x8000 ∧
     (let s := logging 0 0 0 fun l => { l with inflight := [{ (default : LogRec) with island := 50 }] }
      (s.eng.log.inflight.filter fun x => x.island == BitVec.ofNat 8 (traced 0x300).island.val).length = 1)) ∧
    ((logging 2 255 1).eng.log.shadow = [default, default] ∧ ringSize (logging 2 255 1).eng = some 256 ∧ logFree (logging 2 255 1).eng = true ∧
     logFree (logging 2 255 0).eng = false) ∧
    (let s := logging 2 255 1 fun l => { l with moving := true }
     let t : State := { s with eng := { s.eng with mp := { s.eng.mp with writes := [logWrite] } } }
     t.eng.log.moving = true ∧ t.eng.log.queries = [] ∧ writeFor t.eng 2 1 = some logWrite ∧
     logWrite.doomed = false ∧ (islandOf t.eng 50).stopped = false ∧ t.eng.hf.opened = none) ∧
    (HubUp (st id).eng ∧ Presents (st id) (.firmware 1) .logCtrl 1 ∧ bit (rwVal (st id).eng .logCtrl) 0 = false) := by
  refine ⟨⟨hubUp_of (by decide +kernel), by decide +kernel⟩, by decide +kernel, by decide +kernel, by decide +kernel,
    ⟨hubUp_of (by decide +kernel), presents_firmware (by decide +kernel), by decide +kernel⟩⟩

/-- A record takes the next SEQ; an enabled trace point's record arrives. -/
theorem test_log_arrive :
    (nx (Machine.exec (.logRecordArrive none) (logging 0 0 0 fun l => { l with inflight := [default], seq := 5 }))).eng.log.shadow.map LogRec.seq = [5] ∧
    (nx (Machine.exec (.logRecordArrive (some (traced 0x300))) (st fun e => setRw e (.logMask 0) 9))).eng.log.shadow.length = 1 := by decide +kernel

/-- A record is written, and LOG_HEAD goes on as the write completes. -/
theorem test_log_move :
    (nx (Machine.exec .logMove (logging 2 255 1))).eng.log.moving = true ∧
    (let s := logging 2 255 1 fun l => { l with moving := true }
     (nx (Machine.exec (.memoryWriteResponse 2 1 .ok) { s with eng := { s.eng with mp := { s.eng.mp with writes := [logWrite] } } })).eng.log.head = 0) := by
  decide +kernel

/-- ENABLE begins at slot 0. -/
theorem test_log_enable :
    (nx (Machine.exec (.logEnable (.firmware 1)) (st fun e => { e with log := { e.log with head := 9 } }))).eng.log.head = 0 := by decide +kernel

/-- Premises of WindowDipAndLogComplete that no other witness shows: a selection of a word and of none. -/
theorem witness_windowDipAndLog :
    coefSelected (coefState true 63 19).eng = some 1279 ∧ coefSelected (coefState true 5 20).eng = none ∧
    (coefState true 63 19).eng.boot.hubLocked = true ∧ (islandOf (st id).eng 56).stretched = false ∧
    (st id).held = [] ∧ portWrites (coefState true 63 19).posted < 32 := by decide +kernel

end Sys2Proof.Tests
end

section
/-! Proofs: accesses to the control port that no register answers, posted writes and counter reads. -/

namespace Sys2Proof.Machine

/-! ### Accesses to reserved locations and before hub lock -/

/-- A misaligned address holds no register (R447). -/
theorem regAt_misaligned {a : Nat} (h : a % 4 ≠ 0) : regAt a = none := if_pos (Or.inl h)

/-- A bad access counts, keeps its address, and reads 0 (R9, R447). -/
theorem badAccess_spec (e : Engine) (addr : BitVec 16) (write : Bool) :
    ctrVal (badAccess e addr write) .badAccess = min 65535 (ctrVal e .badAccess + 1) ∧
    (∀ k, k ≠ .badAccess → ctrVal (badAccess e addr write) k = ctrVal e k) ∧
    (badAccess e addr write).hub = { e.hub with lastBad := addr, rdata := if write then e.hub.rdata else 0 } ∧
    badAccess e addr write = { e with hub := (badAccess e addr write).hub, ctr := (badAccess e addr write).ctr } := by
  obtain ⟨hself, hne, hframe⟩ := bump_spec { e with hub := { e.hub with lastBad := addr } } .badAccess 1
  have hctr : ctrVal (badAccess e addr write) = ctrVal (bump { e with hub := { e.hub with lastBad := addr } } .badAccess 1) := by
    cases write <;> rfl
  refine ⟨?_, fun k hk => ?_, ?_, ?_⟩
  · rw [hctr, hself]; rfl
  · rw [hctr, hne k hk]; rfl
  · cases write <;> rfl
  · cases write <;> rfl

/-- A bad access that the port takes: the hub has locked, no register is there, and a write finds room (R9, R442). -/
theorem exec_badAccess_taken {s : State} {addr : BitVec 16} {write : Bool} (hl : s.eng.boot.hubLocked = true)
    (hr : regAt addr.toNat = none) (hw : write = false ∨ portWrites s.posted < 32) :
    exec (.badAccess addr write) s = .next (withEng s (badAccess s.eng addr write)) := by
  have hroom : (write && decide (Config.postedDepth ≤ portWrites s.posted)) = false := by
    rcases hw with rfl | hw
    · rfl
    · simp [Config.postedDepth, Nat.not_le.2 hw]
  simp [exec, execBadAccess, hl, hr, hroom, withEng, onEngine]

/-- A write presented while the queue is full is not accepted (R442). -/
theorem exec_badAccess_full {s : State} {addr : BitVec 16} (hl : s.eng.boot.hubLocked = true)
    (hfull : 32 ≤ portWrites s.posted) : exec (.badAccess addr true) s = .next s := by
  simp [exec, execBadAccess, hl, Config.postedDepth, hfull]

/-- Driving 0 on cp_rdata changes nothing but the read data. -/
theorem onEngine_setRdata_zero (s : State) :
    (onEngine s fun e => setRdata e 0) = withEng s { s.eng with hub := { s.eng.hub with rdata := 0 } } := rfl

section BeforeHubLock
variable {s : State} (hl : s.eng.boot.hubLocked = false)
include hl

/-- Before hub lock a port read of any kind returns 0 (R482). -/
theorem cpRead_unlocked (addr : BitVec 16) (late : List Nat) :
    cpRead s addr late = withEng s { s.eng with hub := { s.eng.hub with rdata := 0 } } := by
  simp [cpRead, hl, onEngine_setRdata_zero]

theorem uflowRead_unlocked (c : CombId) (late : Nat) :
    uflowRead s c late = withEng s { s.eng with hub := { s.eng.hub with rdata := 0 } } := by
  simp [uflowRead, hl, onEngine_setRdata_zero]

theorem coefAccess_unlocked (acc : CoefAccess) : coefAccess s acc =
    if acc = .portRead then withEng s { s.eng with hub := { s.eng.hub with rdata := 0 } } else s := by
  simp [coefAccess, hl, onEngine_setRdata_zero]

theorem exec_badAccess_unlocked (addr : BitVec 16) (write : Bool) : exec (.badAccess addr write) s =
    .next (if write then s else withEng s { s.eng with hub := { s.eng.hub with rdata := 0 } }) := by
  simp [exec, execBadAccess, hl, onEngine_setRdata_zero]

/-- Before hub lock a port write is dropped (R482). -/
theorem cpWrite_unlocked (addr : BitVec 16) (data : Word) : cpWrite s addr data = s := by
  simp [cpWrite, hl]

end BeforeHubLock

/-- Settles O8: once the hub has locked the count is `badAccess_spec`; before it every access is an `_unlocked` lemma. -/
theorem badAccessCountsAndReadsZero : Obligations.BadAccessCountsAndReadsZero := by
  unfold Obligations.BadAccessCountsAndReadsZero
  refine ⟨fun s addr write hl hbad => ?_, fun s addr hl => ?_⟩
  · have hr : regAt addr.toNat = none := hbad.elim id regAt_misaligned
    obtain ⟨hcount, hothers, hhub, hframe⟩ := badAccess_spec s.eng addr write
    exact ⟨fun hw => ⟨_, exec_badAccess_taken hl hr hw, rfl, rfl, hcount, hothers, hhub, hframe⟩,
      fun hwrite hfull => hwrite ▸ exec_badAccess_full hl hfull⟩
  · exact ⟨fun late => congrArg _ (cpRead_unlocked hl addr late), exec_badAccess_unlocked hl addr false,
      fun c late => congrArg _ (uflowRead_unlocked hl c late), congrArg _ (coefAccess_unlocked hl .portRead),
      fun data => congrArg _ (cpWrite_unlocked hl addr data), exec_badAccess_unlocked hl addr true,
      fun v => congrArg _ (coefAccess_unlocked hl (.portWrite v))⟩

/-! ### Posted writes -/

/-- The head of the queue, a write of a register that no row of its own carries out, leaves the queue with what it still writes (R442,
R448). -/
theorem exec_postedWriteApply_head {s : State} {p : Posted} {ps : List Posted} {r : RegName} (hu : HubUp s.eng)
    (hp : s.posted = p :: ps) (hr : postedReg p = some r) (hc : p.coef = none) (ho : ownRow r p.data.toNat = false) :
    exec .postedWriteApply s =
      .next { s with posted := ps, eng := (takenData s.eng p r).elim s.eng (applyWrite s.eng r) } := by
  obtain ⟨hl, hclk⟩ := hu
  simp [exec, execPostedWriteApply, applyPosted, hl, hclk, hp, hr, hc, ho]

/-- A write that nothing has overtaken writes all it carries. -/
theorem takenData_of_not_overtaken {e : Engine} {p : Posted} {r : RegName} (h : overtaken e p r = false) :
    takenData e p r = some p.data := by simp [takenData, h]

/-- Of a register that firmware wrote as a whole, an overtaken write writes nothing (R448). -/
theorem takenData_of_overtaken_whole {e : Engine} {p : Posted} {r : RegName} (h : overtaken e p r = true)
    (hw : fwBits r = 0xFFFFFFFF) : takenData e p r = none := by simp [takenData, h, hw]

/-- A write of an MBX_CMD_ register while BUSY counts in IGNORED (R509). -/
theorem applyWrite_of_busy {e : Engine} {r : RegName} (d : Word) (hm : isMbxCmd r = true) (hb : e.mbx.busy = true) :
    applyWrite e r d = { e with ctr := assign e.ctr .mbxIgnored (min 255 (ctrVal e .mbxIgnored + 1)) } := by
  simp only [applyWrite, hm, hb, Bool.and_self, if_true]
  rfl

/-- A register with no field that acts by itself stores its RW fields (R6). -/
theorem applyWrite_eq_storeRw {e : Engine} {r : RegName} (d : Word) (hb : isMbxCmd r = true → e.mbx.busy = false)
    (hr : r ∉ [RegName.hubErrStatus, .hubDone, .pwrThermStatus, .pwrThrottle]) : applyWrite e r d = storeRw e r d := by
  have hb' : (isMbxCmd r && e.mbx.busy) = false := by
    cases hm : isMbxCmd r with
    | false => rfl
    | true => simp [hb hm]
  simp only [List.mem_cons, List.not_mem_nil, or_false, not_or] at hr
  obtain ⟨h1, h2, h3, h4⟩ := hr
  rw [applyWrite, if_neg (by simp [hb'])] <;> assumption

theorem applyWrite_hubErrStatus (e : Engine) (d : Word) : applyWrite e .hubErrStatus d =
    { e with hub := { e.hub with errStatus := e.hub.errStatus &&& ~~~(BitVec.ofNat 8 d.toNat) } } := rfl

theorem applyWrite_pwrThermStatus (e : Engine) (d : Word) : applyWrite e .pwrThermStatus d =
    { e with pwr := { e.pwr with thermStatus := e.pwr.thermStatus &&& ~~~(BitVec.ofNat 4 d.toNat) } } := rfl

theorem applyWrite_pwrThrottle (e : Engine) (d : Word) :
    applyWrite e .pwrThrottle d = { e with pwr := { e.pwr with duty := min 56 (d.toNat % 64) } } := rfl

/-- HUB_DONE stores its mask bit, and a 1 in its W1C bit clears the flag (R6). -/
theorem applyWrite_hubDone (e : Engine) (d : Word) : applyWrite e .hubDone d =
    { storeRw e .hubDone d with hub := { e.hub with graphDone := e.hub.graphDone && !d.getLsbD 0 } } := by
  have hbit : bit d.toNat 0 = d.getLsbD 0 := by
    simp [bit, BitVec.getLsbD, Nat.testBit_zero, Bool.beq_eq_decide_eq]
  have hstore : (storeRw e .hubDone d).hub = e.hub := rfl
  change (if bit d.toNat 0 then { storeRw e .hubDone d with hub := { (storeRw e .hubDone d).hub with graphDone := false } }
    else storeRw e .hubDone d) = _
  rw [hbit, hstore]
  cases d.getLsbD 0 <;> simp [← hstore]

/-- A 1 written to a W1C bit clears it, a 0 leaves it (R6). -/
theorem getLsbD_clear {n i : Nat} (x : BitVec n) (d : Word) (h : i < n) :
    (x &&& ~~~(BitVec.ofNat n d.toNat)).getLsbD i = (x.getLsbD i && !d.getLsbD i) := by
  simp [h]

/-- What the RW fields of a register take of a written value: bit 0 of LOG_MASK0 reads 1 whatever is written. -/
def rwTaken (r : RegName) (d : Nat) : Nat := if r = .logMask 0 then Nat.lor d 1 else Nat.land d (rwMask r)

/-- A word holds all the bits of a mask of 32 ones. -/
theorem land_allOnes {n : Nat} (h : n < 2 ^ 32) : Nat.land n 0xFFFFFFFF = n :=
  (Nat.and_two_pow_sub_one_eq_mod n 32).trans (Nat.mod_eq_of_lt h)

/-- The fields taken are the register's own and fit a word: storing them drops nothing. -/
theorem land_rwTaken (r : RegName) (d : Word) : Nat.land (rwTaken r d.toNat) (rwMask r) % 2 ^ 32 = rwTaken r d.toNat := by
  unfold rwTaken
  split
  · next h =>
    subst h
    have hlt : Nat.lor d.toNat 1 < 2 ^ 32 := Nat.or_lt_two_pow d.isLt (by decide)
    exact (congrArg (· % 2 ^ 32) (land_allOnes hlt)).trans (Nat.mod_eq_of_lt hlt)
  · have hidem : Nat.land (Nat.land d.toNat (rwMask r)) (rwMask r) = Nat.land d.toNat (rwMask r) :=
      (Nat.and_assoc ..).trans (congrArg _ (Nat.and_self _))
    rw [hidem]
    exact Nat.mod_eq_of_lt (Nat.lt_of_le_of_lt Nat.and_le_left d.isLt)

/-- The rule by which the RW fields of a register take a write, where nothing turns it away (R6, R496, R509, R575). -/
theorem rwStore_eq_rwTaken {e : Engine} {r : RegName} (old : Nat) (d : Word) (hm : rwMask r ≠ 0)
    (hb : isMbxCmd r = true → e.mbx.busy = false)
    (hf : r ∈ [RegName.cfgFwWinAddr, .cfgFwDmaLo, .cfgFwDmaHi] → e.boot.state = .awaitFw)
    (hs : r ≠ .updCoefSel) (ho : ownRow r d.toNat = false) : rwStore e r old d.toNat = some (rwTaken r d.toNat) := by
  unfold rwStore
  split
  case h_1 | h_2 | h_3 => simp [hb rfl, rwTaken]
  case h_4 | h_5 | h_6 => simp [hf, rwTaken]
  case h_7 => cases ho
  case h_8 => exact absurd rfl hs
  case h_9 => exact congrArg (fun n => some (Nat.lor n 1)) (land_allOnes d.isLt)
  case h_10 hlog => exact (if_neg hm).trans (congrArg some (if_neg hlog).symm)

/-- A register without RW fields stores nothing (R7, R8). -/
theorem rwStore_of_rwMask_zero {e : Engine} {r : RegName} (old d : Nat) (hm : rwMask r = 0) (ho : ownRow r d = false) :
    rwStore e r old d = none := by
  unfold rwStore
  split
  case h_7 => cases ho
  case h_8 => rfl
  case h_10 => exact if_pos hm
  all_goals cases hm

theorem storeRw_of_some {e : Engine} {r : RegName} {d : Word} {v : Nat} (h : rwStore e r (rwVal e r) d.toNat = some v) :
    storeRw e r d = setRw e r v := by simp [storeRw, h]

theorem storeRw_of_none {e : Engine} {r : RegName} {d : Word} (h : rwStore e r (rwVal e r) d.toNat = none) :
    storeRw e r d = e := by simp [storeRw, h]

/-- Outside AWAIT_FW the firmware window's registers ignore a write (R496). -/
theorem applyWrite_fwWindow_ignored {e : Engine} {r : RegName} (d : Word)
    (hr : r ∈ [RegName.cfgFwWinAddr, .cfgFwDmaLo, .cfgFwDmaHi]) (hst : e.boot.state ≠ .awaitFw) : applyWrite e r d = e := by
  simp only [List.mem_cons, List.not_mem_nil, or_false] at hr
  rcases hr with rfl | rfl | rfl <;> exact storeRw_of_none (if_neg hst)

/-- The selection of UPD_COEF_SEL took the write as it was accepted (R575). -/
theorem applyWrite_updCoefSel (e : Engine) (d : Word) : applyWrite e .updCoefSel d = e := rfl

section Stored
variable {e : Engine} {r : RegName} {d : Word} (hm : rwMask r ≠ 0) (hb : isMbxCmd r = true → e.mbx.busy = false)
  (hf : r ∈ [RegName.cfgFwWinAddr, .cfgFwDmaLo, .cfgFwDmaHi] → e.boot.state = .awaitFw)
  (hs : r ≠ .updCoefSel) (ho : ownRow r d.toNat = false)
include hm hb hf hs ho

/-- A stored write sets the register's RW fields; of what else the engine holds only HUB_DONE's flag can change. -/
theorem applyWrite_stores : (applyWrite e r d).rw = (setRw e r (rwTaken r d.toNat)).rw ∧
    (r ≠ .hubDone → applyWrite e r d = setRw e r (rwTaken r d.toNat)) := by
  have hstore : storeRw e r d = setRw e r (rwTaken r d.toNat) := storeRw_of_some (rwStore_eq_rwTaken _ d hm hb hf hs ho)
  by_cases hd : r = .hubDone
  · subst hd
    exact ⟨by rw [applyWrite_hubDone, hstore], fun h => absurd rfl h⟩
  · have hplain : applyWrite e r d = storeRw e r d := by
      refine applyWrite_eq_storeRw d hb fun hmem => ?_
      simp only [List.mem_cons, List.not_mem_nil, or_false] at hmem
      rcases hmem with rfl | rfl | rfl | rfl
      · exact hm rfl
      · exact hd rfl
      · exact hm rfl
      · exact hm rfl
    exact ⟨by rw [hplain, hstore], fun _ => hplain.trans hstore⟩

/-- After a stored write the register holds the bits taken, every other register its own. -/
theorem rwVal_applyWrite : rwVal (applyWrite e r d) r = rwTaken r d.toNat ∧
    (∀ q, q ≠ r → rwVal (applyWrite e r d) q = rwVal e q) ∧
    (r ≠ .hubDone → applyWrite e r d = { e with rw := (applyWrite e r d).rw }) := by
  obtain ⟨hrw, hrest⟩ := applyWrite_stores hm hb hf hs ho
  have hval : ∀ q, rwVal (applyWrite e r d) q = rwVal (setRw e r (rwTaken r d.toNat)) q := fun q => by simp only [rwVal, hrw]
  refine ⟨?_, fun q hq => ?_, fun hd => ?_⟩
  · rw [hval, rwVal_setRw_self, land_rwTaken]
  · rw [hval, rwVal_setRw_ne _ _ hq]
  · rw [hrest hd]; rfl

end Stored

/-- The upper byte of a half word, in its place. -/
theorem land_upperByte (n : Nat) : Nat.land n 0xFF00 = n / 256 % 256 * 256 := by
  have hdiv : Nat.land n 0xFF00 / 256 = n / 256 % 256 :=
    (Nat.and_div_two_pow (a := n) (b := 0xFF00) (n := 8)).trans (Nat.and_two_pow_sub_one_eq_mod (n / 256) 8)
  have hmod : Nat.land n 0xFF00 % 256 = 0 :=
    (Nat.and_mod_two_pow (a := n) (b := 0xFF00) (n := 8)).trans (Nat.and_zero _)
  omega

/-- PWR_THERM_CTRL whose TRIP_C firmware has written since: the write still brings its low byte, and TRIP_C stays (R448). -/
theorem takenData_pwrThermCtrl {e : Engine} {p : Posted} (h : overtaken e p .pwrThermCtrl = true) :
    ∃ w, takenData e p .pwrThermCtrl = some w ∧
      rwTaken .pwrThermCtrl w.toNat = Nat.land p.data.toNat 0xFF + Nat.land (rwVal e .pwrThermCtrl) 0xFF00 := by
  refine ⟨_, by simp only [takenData, h]; rfl, ?_⟩
  have hlow : Nat.land p.data.toNat 0xFF = p.data.toNat % 256 := Nat.and_two_pow_sub_one_eq_mod _ 8
  have hall : ∀ n, rwTaken .pwrThermCtrl n = n % 65536 := fun n => Nat.and_two_pow_sub_one_eq_mod n 16
  have hword : ∀ n, (w32 n).toNat = n % 2 ^ 32 := fun n => BitVec.toNat_ofNat n 32
  rw [hall, hword, hlow, fwBits, land_upperByte, land_upperByte]
  omega

/-- Settles O9: what reaches the island (`takenData`) is stored by `rwVal_applyWrite`, and nothing where firmware wrote later. -/
theorem postedWriteTakesRwFields : Obligations.PostedWriteTakesRwFields := by
  unfold Obligations.PostedWriteTakesRwFields
  intro s p ps r hu hp hr hc ho hb hm hf
  have hexec := exec_postedWriteApply_head hu hp hr hc ho
  refine ⟨fun hot hs => ?_, fun hsel => ?_, fun hot hfw => ?_, fun htherm hot => ?_⟩
  · obtain ⟨hself, hother, hframe⟩ := rwVal_applyWrite hm hb hf hs ho
    rw [takenData_of_not_overtaken hot] at hexec
    refine ⟨_, hexec, rfl, rfl, rfl, hself.trans ?_, hother, hframe⟩
    unfold rwTaken; rfl
  · subst hsel
    rw [hexec]
    cases takenData s.eng p .updCoefSel with
    | none => rfl
    | some d => rw [Option.elim_some, applyWrite_updCoefSel]
  · rw [hexec, takenData_of_overtaken_whole hot hfw]; rfl
  · subst htherm
    obtain ⟨w, htaken, hval⟩ := takenData_pwrThermCtrl hot
    obtain ⟨hself, hother, hframe⟩ :=
      rwVal_applyWrite (e := s.eng) (r := .pwrThermCtrl) (d := w) hm hb hf (by decide) rfl
    rw [htaken] at hexec
    exact ⟨_, hexec, rfl, hself.trans hval, hother, hframe (by decide), rfl⟩

/-- Settles O10: a clause for each kind of field, by what `applyWrite` does with it. -/
theorem postedWriteOtherFields : Obligations.PostedWriteOtherFields := by
  unfold Obligations.PostedWriteOtherFields
  intro s p ps r hu hp hr hc ho hot
  have hexec := exec_postedWriteApply_head hu hp hr hc ho
  have happly : r ≠ .pwrThrottle → exec .postedWriteApply s = .next { s with posted := ps, eng := applyWrite s.eng r p.data } :=
    fun hne => by rw [hexec, takenData_of_not_overtaken (hot hne)]; rfl
  refine ⟨?_, ?_, ?_, ?_, fun hmbx hbusy => ?_, fun hwin hst => ?_, fun hm hnot hmbx => ?_⟩
  · rintro rfl
    have h := happly (by decide)
    rw [applyWrite_hubErrStatus] at h
    exact ⟨_, h, fun i hi => getLsbD_clear _ _ hi, rfl⟩
  · rintro rfl
    have h := happly (by decide)
    rw [applyWrite_pwrThermStatus] at h
    exact ⟨_, h, fun i hi => getLsbD_clear _ _ hi, rfl⟩
  · rintro rfl
    exact ⟨_, happly (by decide), rfl, congrArg Engine.hub (applyWrite_hubDone s.eng p.data)⟩
  · rintro rfl
    rw [hexec]
    cases h : overtaken s.eng p .pwrThrottle with
    | false => rw [takenData_of_not_overtaken h, Option.elim_some, applyWrite_pwrThrottle]; rfl
    | true => rw [takenData_of_overtaken_whole h rfl]; rfl
  · rw [happly (by rintro rfl; cases hmbx), applyWrite_of_busy _ hmbx hbusy]
  · rw [happly (by rintro rfl; exact absurd hwin (by decide)), applyWrite_fwWindow_ignored _ hwin hst]
  · have hacts : r ∉ [RegName.hubErrStatus, .hubDone, .pwrThermStatus, .pwrThrottle] := by
      simp only [List.mem_cons, List.not_mem_nil, or_false, not_or] at hnot ⊢
      exact ⟨hnot.1, (by rintro rfl; exact absurd hm (by decide)), hnot.2⟩
    rw [happly (by rintro rfl; simp at hacts), applyWrite_eq_storeRw _ (by simp [hmbx]) hacts,
      storeRw_of_none (rwStore_of_rwMask_zero _ _ hm ho)]

/-! ### Reads that take counters -/

/-- What a counter holds once a read has taken the value that it showed (R445). -/
def rcLeft (e : Engine) (c : Ctr) (late : Nat) : Nat :=
  if rcShown e c late = ctrMax c / ctrUnit c then 0 else ctrVal e c - rcShown e c late * ctrUnit c

theorem rcTake_eq_setCtr (e : Engine) (c : Ctr) (late : Nat) : rcTake e c late = setCtr e c (rcLeft e c late) :=
  (apply_ite (setCtr e c) _ _ _).symm

/-- What is left of a counter depends on that counter alone. -/
theorem rcLeft_congr {e e' : Engine} {c : Ctr} (late : Nat) (h : ctrVal e c = ctrVal e' c) :
    rcLeft e c late = rcLeft e' c late := by
  unfold rcLeft rcShown
  rw [h]

/-! #### Counters set one after another -/

section SetEach
variable {α : Type} (key : α → Ctr) (val : Engine → α → Nat)

/-- Counters set one after another, each by a value computed from the engine as it then is. -/
def setEach (l : List α) (e : Engine) : Engine := l.foldl (fun acc a => setCtr acc (key a) (val acc a)) e

/-- Nothing but the counters changes. -/
theorem setEach_frame (l : List α) (e : Engine) : setEach key val l e = { e with ctr := (setEach key val l e).ctr } := by
  induction l generalizing e with
  | nil => rfl
  | cons a l ih => exact ih (setCtr e (key a) (val e a))

/-- A counter that is not among them keeps its value. -/
theorem ctrVal_setEach_of_notMem (l : List α) (e : Engine) {k : Ctr} (hk : k ∉ l.map key) :
    ctrVal (setEach key val l e) k = ctrVal e k := by
  induction l generalizing e with
  | nil => rfl
  | cons a l ih =>
    obtain ⟨hne, hl⟩ := not_or.1 (mt List.mem_cons.2 hk)
    exact (ih _ hl).trans (ctrVal_setCtr_ne e _ hne)

/-- Where the counters are distinct and each value depends on its own counter alone, each is set from its first value. -/
theorem ctrVal_setEach_of_mem (hval : ∀ e e' a, ctrVal e (key a) = ctrVal e' (key a) → val e a = val e' a) (l : List α) (e : Engine)
    (hn : (l.map key).Nodup) {a : α} (ha : a ∈ l) : ctrVal (setEach key val l e) (key a) = val e a := by
  induction l generalizing e with
  | nil => cases ha
  | cons b l ih =>
    obtain ⟨hb, hl⟩ := List.nodup_cons.1 hn
    rcases List.mem_cons.1 ha with rfl | ha
    · exact (ctrVal_setEach_of_notMem key val l _ hb).trans (ctrVal_setCtr_self e _ _)
    · have hne : key a ≠ key b := fun h => hb (h ▸ List.mem_map_of_mem ha)
      exact (ih (setCtr e (key b) (val e b)) hl ha).trans (hval _ _ a (ctrVal_setCtr_ne e _ hne))

end SetEach

/-- The counter fields of a register are distinct counters, row by row of the table. -/
theorem rcFields_nodup (ps : List Posted) (e : Engine) (r : RegName) : ((rcFields ps e r).map Prod.snd).Nodup := by
  cases r <;> simp [rcFields]

/-- The fields that a read takes, as counters set one after another. -/
theorem takeFields_eq_setEach (ps : List Posted) (e : Engine) (r : RegName) (late : List Nat) : takeFields ps e r late =
    setEach (fun p => p.1.2) (fun acc p => rcLeft acc p.1.2 (elemD late p.2 0)) (rcFields ps e r).zipIdx e := by
  simp only [takeFields, setEach, rcTake_eq_setCtr]

/-- A read's taking changes nothing but counters: each field's falls by what it showed, the others stay (R445). -/
theorem takeFields_spec (ps : List Posted) (e : Engine) (r : RegName) (late : List Nat) :
    (∀ (i : Nat) (f : Nat × Ctr), (rcFields ps e r)[i]? = some f →
      ctrVal (takeFields ps e r late) f.2 = rcLeft e f.2 (elemD late i 0)) ∧
    (∀ k, k ∉ (rcFields ps e r).map Prod.snd → ctrVal (takeFields ps e r late) k = ctrVal e k) ∧
    takeFields ps e r late = { e with ctr := (takeFields ps e r late).ctr } := by
  have hkeys : (rcFields ps e r).zipIdx.map (fun p => p.1.2) = (rcFields ps e r).map Prod.snd := by
    conv_rhs => rw [← List.zipIdx_map_fst 0 (rcFields ps e r), List.map_map]
    rfl
  rw [takeFields_eq_setEach]
  refine ⟨fun i f hf => ?_, fun k hk => ?_, setEach_frame ..⟩
  · exact ctrVal_setEach_of_mem (fun p : (Nat × Ctr) × Nat => p.1.2) (fun acc p => rcLeft acc p.1.2 (elemD late p.2 0))
      (fun _ _ p h => rcLeft_congr (elemD late p.2 0) h) _ e (hkeys ▸ rcFields_nodup ps e r) (List.mk_mem_zipIdx_iff_getElem?.2 hf)
  · exact ctrVal_setEach_of_notMem _ _ _ e (hkeys ▸ hk)

/-- Taking the fields that held shadows showed changes nothing but counters. -/
theorem takeShown_frame (ps : List Posted) (src e : Engine) (r : RegName) :
    takeShown ps src e r = { e with ctr := (takeShown ps src e r).ctr } :=
  setEach_frame (fun p : Nat × Ctr => p.2) _ (rcFields ps src r) e

/-- A register without counter fields loses nothing. -/
theorem takeShown_of_rcFields_nil {ps : List Posted} {src : Engine} {r : RegName} (e : Engine) (h : rcFields ps src r = []) :
    takeShown ps src e r = e := by simp [takeShown, h]

/-- A read of a register without a row of its own, once the hub has locked (R441). -/
theorem exec_rcFieldRead {s : State} {addr : BitVec 16} {r : RegName} (late : List Nat) (hl : s.eng.boot.hubLocked = true)
    (hr : regAt addr.toNat = some r) (hcoef : r ≠ .updCoefData) (huflow : ∀ c, r ≠ .cmbObsUflow c) :
    exec (.rcFieldRead addr late) s = .next (readTake s r late) := by
  simp [exec, execRcFieldRead, cpRead, hl, hr]

/-- While the shadows follow their registers a read answers from the engine. -/
theorem readTake_of_followed {s : State} (r : RegName) (late : List Nat) (h : s.shadow = none) : readTake s r late =
    withEng s (setRdata (takeFields s.posted s.eng r late) (readReg s.posted s.eng r late)) := by
  simp only [readTake, h, withEng, setRdata]

/-- While the shadows are held a read answers from them (R563). -/
theorem readTake_of_held {s : State} {sh : Engine} (r : RegName) (late : List Nat) (h : s.shadow = some sh) :
    readTake s r late =
      { s with eng := setRdata (takeShown s.posted { sh with rw := s.eng.rw } s.eng r)
                 (readReg s.posted { sh with rw := s.eng.rw } r [])
               shadow := some (takeShown s.posted { sh with rw := s.eng.rw } sh r) } := by
  simp only [readTake, readSrc, h, setRdata]

/-- With read data driven beside changed counters, only the hub's read data and the counters differ. -/
theorem setRdata_of_ctr_frame {e e' : Engine} (v : Nat) (h : e' = { e with ctr := e'.ctr }) :
    (setRdata e' v).hub = { e.hub with rdata := w32 v } ∧
    setRdata e' v = { e with hub := (setRdata e' v).hub, ctr := (setRdata e' v).ctr } := by
  rw [h]
  exact ⟨rfl, rfl⟩

/-- Settles O11: `takeFields_spec` where the shadows follow their registers, `takeShown_frame` where they are held. -/
theorem counterReadTakesShownValue : Obligations.CounterReadTakesShownValue := by
  unfold Obligations.CounterReadTakesShownValue
  intro s addr r late hl hr hcoef huflow
  have hexec := exec_rcFieldRead late hl hr hcoef huflow
  refine ⟨fun hsh => ?_, fun sh hsh => ?_⟩
  · obtain ⟨htaken, hothers, hframe⟩ := takeFields_spec s.posted s.eng r late
    obtain ⟨hhub, heng⟩ := setRdata_of_ctr_frame (readReg s.posted s.eng r late) hframe
    exact ⟨_, hexec.trans (congrArg _ (readTake_of_followed r late hsh)), rfl, rfl, hhub, htaken, hothers, heng⟩
  · have hframe := takeShown_frame s.posted { sh with rw := s.eng.rw } s.eng r
    obtain ⟨hhub, heng⟩ := setRdata_of_ctr_frame (readReg s.posted { sh with rw := s.eng.rw } r []) hframe
    refine ⟨_, hexec.trans (congrArg _ (readTake_of_held r late hsh)), rfl, rfl, hhub, fun hnil => ⟨?_, ?_⟩, heng⟩
    · rw [takeShown_of_rcFields_nil _ hnil]; rfl
    · exact (congrArg some (takeShown_of_rcFields_nil sh hnil)).trans hsh.symm

end Sys2Proof.Machine
end

section
/-! Proofs: the cold start by its stages. -/

namespace Sys2Proof.Machine

/-! ### What each stage of the cold start can change -/

/-- Steps that each change one part of a value change that part together; `upd x g` is `x` with `g` for the part. -/
theorem foldl_changes_part {α β γ : Type} {upd : β → γ → β} (hself : ∀ x, ∃ g, x = upd x g)
    (hlast : ∀ x g g', upd (upd x g) g' = upd x g') {f : β → α → β} (hf : ∀ x a, ∃ g, f x a = upd x g) (l : List α) (x : β) :
    ∃ g, l.foldl f x = upd x g :=
  List.foldlRecOn l f (motive := fun y => ∃ g, y = upd x g) (hself x) fun _ ⟨g, hy⟩ a _ => by
    obtain ⟨g', h⟩ := hf (upd x g) a
    exact ⟨g', by rw [hy, h, hlast]⟩

/-- Steps that each change registers alone do so together. -/
theorem foldl_changes_rw {α : Type} {f : Engine → α → Engine} (hf : ∀ x a, ∃ regs, f x a = { x with rw := regs }) (l : List α)
    (e : Engine) : ∃ regs, l.foldl f e = { e with rw := regs } :=
  foldl_changes_part (upd := fun x regs => { x with rw := regs }) (fun _ => ⟨_, rfl⟩) (fun _ _ _ => rfl) hf l e

theorem applyDefault_changes (p : List Byte) (e : Engine) (i : Nat) : ∃ regs, applyDefault p e i = { e with rw := regs } := by
  unfold applyDefault
  cases defaultsReg (field p (8 * i) 2) with
  | none => exact ⟨_, rfl⟩
  | some r => exact ⟨_, rfl⟩

/-- A record sets registers and the configuration, nothing else (R493). -/
theorem applyRec_changes (e : Engine) (r : ImageRec) :
    ∃ p : AMap RegName Word × Image, applyRec e r = { e with rw := p.1, boot := { e.boot with cfg := p.2 } } := by
  unfold applyRec
  dsimp only
  split
  · obtain ⟨regs, h⟩ := foldl_changes_rw (applyDefault_changes r.payload) (List.range (r.payload.length / 8))
      { e with boot := { e.boot with cfg := applyCfg e.boot.cfg r } }
    exact ⟨(regs, _), h⟩
  · split
    · obtain ⟨regs, h⟩ := foldl_changes_rw (f := applyMaxVer (applyCfg e.boot.cfg r)) (fun _ _ => ⟨_, rfl⟩) allPorts
        { e with boot := { e.boot with cfg := applyCfg e.boot.cfg r } }
      exact ⟨(regs, _), h⟩
    · exact ⟨(_, _), rfl⟩

theorem applyRecs_change (l : List ImageRec) (e : Engine) :
    ∃ p : AMap RegName Word × Image, l.foldl applyRec e = { e with rw := p.1, boot := { e.boot with cfg := p.2 } } :=
  foldl_changes_part (upd := fun x p => { x with rw := p.1, boot := { x.boot with cfg := p.2 } }) (fun _ => ⟨(_, _), rfl⟩)
    (fun _ _ _ => rfl) applyRec_changes l e

/-- Steps that each change fences alone do so together. -/
theorem foldl_changes_fences {α : Type} {f : Engine → α → Engine} (hf : ∀ x a, ∃ fs, f x a = { x with fences := fs })
    (l : List α) (e : Engine) : ∃ fs, l.foldl f e = { e with fences := fs } :=
  foldl_changes_part (upd := fun x fs => { x with fences := fs }) (fun _ => ⟨_, rfl⟩) (fun _ _ _ => rfl) hf l e

/-- Fencing by the record changes fences alone (R494). -/
theorem recordFences_change (l : List Nat) (e : Engine) : ∃ fs, l.foldl recordFence e = { e with fences := fs } :=
  foldl_changes_fences (fun _ _ => ⟨_, rfl⟩) l e

/-- A spare is unfenced only below 48 enabled combs and where the record does not name it (R494). -/
theorem unfenceSpare_cases (e : Engine) (c : Nat) : unfenceSpare e c = e ∨
    (enabledCombs e).length < 48 ∧ c ∉ e.boot.cfg.fences ∧
      unfenceSpare e c = { e with fences := updAt e.fences c fun _ => {} } := by
  unfold unfenceSpare
  split
  · next h => exact .inr ⟨h.1, h.2.2.2, rfl⟩
  · exact .inl rfl

theorem unfenceSpares_change (l : List Nat) (e : Engine) : ∃ fs, l.foldl unfenceSpare e = { e with fences := fs } := by
  refine foldl_changes_fences (fun x c => ?_) l e
  rcases unfenceSpare_cases x c with h | ⟨-, -, h⟩
  · exact ⟨_, h⟩
  · exact ⟨_, h⟩

/-- A good image changes registers, fences and the configuration, nothing else (R493, R494). -/
theorem applyImage_changes (e : Engine) (recs : List ImageRec) : ∃ regs fs cfg,
    applyImage e recs = { e with rw := regs, fences := fs, boot := { e.boot with cfg := cfg } } := by
  unfold applyImage
  obtain ⟨⟨regs, cfg⟩, hrecs⟩ := applyRecs_change recs e
  obtain ⟨gs, hrec⟩ := recordFences_change (recs.foldl applyRec e).boot.cfg.fences (recs.foldl applyRec e)
  obtain ⟨fs, hun⟩ := unfenceSpares_change (List.range 50)
    ((recs.foldl applyRec e).boot.cfg.fences.foldl recordFence (recs.foldl applyRec e))
  exact ⟨regs, fs, cfg, by rw [hun, hrec, hrecs]⟩

/-- What the stages after FUSE_LOAD leave of a start-up: the image's result, with the fuses and hub lock as they were. -/
structure KeepsFuses (e : Engine) (env : ColdEnv) (b : Boot) : Prop where
  image : b.image = (checkImage env).result
  fuses : b.fuses = e.boot.fuses
  fuseEcc : b.fuseEcc = e.boot.fuseEcc
  hubLocked : b.hubLocked = e.boot.hubLocked

/-- CONFIG_LOAD changes registers, fences and the start-up's own part, of which it keeps the fuses (R491 to R495). -/
theorem configLoad_changes (e : Engine) (env : ColdEnv) : ∃ regs fs b,
    configLoad e env = { e with rw := regs, fences := fs, boot := b } ∧ b.state = .configLoad ∧ KeepsFuses e env b := by
  unfold configLoad
  dsimp only
  split
  · obtain ⟨regs, fs, cfg, h⟩ := applyImage_changes _ _
    exact ⟨regs, fs, _, h, rfl, rfl, rfl, rfl, rfl⟩
  · exact ⟨_, _, _, rfl, rfl, rfl, rfl, rfl, rfl⟩

/-- Islands that start change nothing but islands. -/
theorem startEach_changes (l : List Nat) (e : Engine) :
    ∃ is, l.foldl startIsland e = { e with pwr := { e.pwr with islands := is } } :=
  foldl_changes_part (upd := fun x is => { x with pwr := { x.pwr with islands := is } }) (fun _ => ⟨_, rfl⟩) (fun _ _ _ => rfl)
    (fun _ _ => ⟨_, rfl⟩) l e

/-! ### Which combs are enabled -/

theorem enabled_of_fences {e e' : Engine} (h : e.fences = e'.fences) (c : CombId) : enabled e c = enabled e' c := by
  simp only [enabled, fenceOf, h]

theorem enabledCombs_of_fences {e e' : Engine} (h : e.fences = e'.fences) : enabledCombs e = enabledCombs e' :=
  congrArg (allCombs.filter ·) (funext (enabled_of_fences h))

/-- Fewer combs enabled, a shorter list of them. -/
theorem enabledCombs_length_mono {e e' : Engine} (h : ∀ c, enabled e c = true → enabled e' c = true) :
    (enabledCombs e).length ≤ (enabledCombs e').length :=
  (List.monotone_filter_right _ h).length_le

/-- One comb more enabled, at most one more in the list of them. -/
theorem enabledCombs_length_le_succ {e e' : Engine} {n : Nat}
    (h : ∀ c : CombId, enabled e' c = true → enabled e c = true ∨ c.val = n) :
    (enabledCombs e').length ≤ (enabledCombs e).length + 1 := by
  have hnodup : ((enabledCombs e').map Fin.val).Nodup :=
    ((List.nodup_finRange 50).filter _).map Fin.val_injective
  have hsub : (enabledCombs e').map Fin.val ⊆ n :: (enabledCombs e).map Fin.val := fun k hk => by
    obtain ⟨c, hc, rfl⟩ := List.mem_map.1 hk
    obtain ⟨hall, hen⟩ := List.mem_filter.1 hc
    rcases h c hen with hen | rfl
    · exact List.mem_cons_of_mem _ (List.mem_map_of_mem (List.mem_filter.2 ⟨hall, hen⟩))
    · exact List.mem_cons_self
  simpa using (hnodup.subperm hsub).length_le

theorem recordFence_fences_length (e : Engine) (c : Nat) : (recordFence e c).fences.length = e.fences.length :=
  updAt_length _ _ _

/-- The record's step fences the comb that it names and leaves the others (R494). -/
theorem enabled_recordFence {e : Engine} (hlen : e.fences.length = 50) (n : Nat) (c : CombId) :
    enabled (recordFence e n) c = (enabled e c && decide (c.val ≠ n)) := by
  have hc : c.val < e.fences.length := lt_of_lt_of_eq c.isLt hlen.symm
  by_cases h : n = c.val
  · by_cases hz : e.fences[c.val].cause = 0 <;>
      simp [enabled, fenceOf, recordFence, updAt_getElem?, h, List.getElem?_eq_getElem hc, hz]
  · simp [enabled, fenceOf, recordFence, updAt_getElem?_ne _ _ h, Ne.symm h]

/-- Step 1 of R494: the combs that the record names are fenced, the others stay as they were. -/
theorem enabled_recordFences (l : List Nat) {e : Engine} (hlen : e.fences.length = 50) (c : CombId) :
    enabled (l.foldl recordFence e) c = (enabled e c && decide (c.val ∉ l)) := by
  induction l generalizing e with
  | nil => simp
  | cons n l ih =>
    rw [List.foldl_cons, ih ((recordFence_fences_length e n).trans hlen), enabled_recordFence hlen]
    simp [Bool.and_assoc]

/-- A comb unfenced is enabled, the others stay as they were. -/
theorem enabled_unfenced (e : Engine) (n : Nat) (c : CombId) :
    enabled { e with fences := updAt e.fences n fun _ => {} } c = (enabled e c || decide (c.val = n)) := by
  by_cases h : n = c.val
  · subst h
    cases hc : e.fences[c.val]? <;> simp [enabled, fenceOf, updAt_getElem?, hc]
  · simp [enabled, fenceOf, updAt_getElem?_ne _ _ h, Ne.symm h]

/-- One step of step 2 of R494: no enabled comb is fenced, none that the record names is unfenced, and 48 combs are not exceeded. -/
theorem unfenceSpare_spec (e : Engine) (n : Nat) :
    (∀ c, enabled e c = true → enabled (unfenceSpare e n) c = true) ∧
    (∀ c : CombId, c.val ∈ e.boot.cfg.fences → enabled (unfenceSpare e n) c = enabled e c) ∧
    ((enabledCombs e).length ≤ 48 → (enabledCombs (unfenceSpare e n)).length ≤ 48) ∧
    (unfenceSpare e n).boot = e.boot := by
  rcases unfenceSpare_cases e n with h | ⟨hroom, hn, h⟩
  · rw [h]; exact ⟨fun _ => id, fun _ _ => rfl, id, rfl⟩
  · rw [h]
    refine ⟨fun c hc => by simp [enabled_unfenced, hc], fun c hc => ?_, fun _ => ?_, rfl⟩
    · have hne : c.val ≠ n := fun hcn => hn (hcn ▸ hc)
      simp [enabled_unfenced, hne]
    · have hle := enabledCombs_length_le_succ (e := e) (n := n) (e' := { e with fences := updAt e.fences n fun _ => {} })
        fun c hc => by simpa [enabled_unfenced] using hc
      omega

/-- Step 2 of R494 as a whole. -/
theorem unfenceSpares_spec (l : List Nat) (e : Engine) :
    (∀ c, enabled e c = true → enabled (l.foldl unfenceSpare e) c = true) ∧
    (∀ c : CombId, c.val ∈ e.boot.cfg.fences → enabled (l.foldl unfenceSpare e) c = enabled e c) ∧
    ((enabledCombs e).length ≤ 48 → (enabledCombs (l.foldl unfenceSpare e)).length ≤ 48) := by
  induction l generalizing e with
  | nil => exact ⟨fun _ => id, fun _ _ => rfl, id⟩
  | cons n l ih =>
    obtain ⟨hmono, hnamed, hroom, hboot⟩ := unfenceSpare_spec e n
    obtain ⟨imono, inamed, iroom⟩ := ih (unfenceSpare e n)
    exact ⟨fun c hc => imono c (hmono c hc), fun c hc => (inamed c (hboot.symm ▸ hc)).trans (hnamed c hc), fun h => iroom (hroom h)⟩

theorem applyRecs_fences (l : List ImageRec) (e : Engine) : (l.foldl applyRec e).fences = e.fences := by
  obtain ⟨_, h⟩ := applyRecs_change l e
  rw [h]

/-- A good image (R494): of the combs enabled before it those that its record does not name stay so, a comb that it names is fenced, and
48 are not exceeded. -/
theorem enabled_applyImage {e : Engine} (hlen : e.fences.length = 50) (recs : List ImageRec) :
    (∀ c, enabled e c = true → c.val ∉ (applyImage e recs).boot.cfg.fences → enabled (applyImage e recs) c = true) ∧
    (∀ c : CombId, c.val ∈ (applyImage e recs).boot.cfg.fences → enabled (applyImage e recs) c = false) ∧
    ((enabledCombs e).length ≤ 48 → (enabledCombs (applyImage e recs)).length ≤ 48) := by
  have hfences := applyRecs_fences recs e
  unfold applyImage
  generalize recs.foldl applyRec e = x at hfences ⊢
  dsimp only
  have hnamed := enabled_recordFences x.boot.cfg.fences ((congrArg List.length hfences).trans hlen)
  obtain ⟨_, hrec⟩ := recordFences_change x.boot.cfg.fences x
  have hcfg : (x.boot.cfg.fences.foldl recordFence x).boot.cfg = x.boot.cfg := by rw [hrec]
  generalize x.boot.cfg.fences.foldl recordFence x = y at hnamed hcfg ⊢
  obtain ⟨hmono, hkept, hroom⟩ := unfenceSpares_spec (List.range 50) y
  obtain ⟨_, hun⟩ := unfenceSpares_change (List.range 50) y
  have hlast : ((List.range 50).foldl unfenceSpare y).boot.cfg = x.boot.cfg := by rw [hun]; exact hcfg
  rw [hlast]
  refine ⟨fun c hc hn => hmono c ?_, fun c hc => ?_, fun h => hroom ((enabledCombs_length_mono fun c hc => ?_).trans h)⟩
  · rw [hnamed, enabled_of_fences hfences, hc, decide_eq_true hn]; rfl
  · rw [hkept c (hcfg.symm ▸ hc), hnamed, decide_eq_false (not_not.2 hc), Bool.and_false]
  · rw [hnamed, Bool.and_eq_true, enabled_of_fences hfences] at hc
    exact hc.1

/-! ### FUSE_LOAD -/

theorem fenceAtLoad_of_fuses {e e' : Engine} (h : e.boot.fuses = e'.boot.fuses) (c : Nat) : fenceAtLoad e c = fenceAtLoad e' c := by
  have hfuse : fuseFence e = fuseFence e' := funext fun n => by simp only [fuseFence, fuseWord, h]
  unfold fenceAtLoad
  rw [hfuse]

theorem fuseLoad_fences_length (e : Engine) (env : ColdEnv) : (fuseLoad e env).fences.length = 50 := by simp [fuseLoad]

/-- After FUSE_LOAD the fences are those of the fuses (R486). -/
theorem fenceOf_fuseLoad (e : Engine) (env : ColdEnv) (c : CombId) :
    fenceOf (fuseLoad e env) c = if fenceAtLoad (fuseLoad e env) c.val then { cause := 1 } else {} := by
  have hfences : (fuseLoad e env).fences = (List.range 50).map fun n => if fenceAtLoad (fuseLoad e env) n then { cause := 1 } else {} :=
    List.map_congr_left fun n _ => congrArg (fun b : Bool => if b then ({ cause := 1 } : Fence) else {}) (fenceAtLoad_of_fuses rfl n)
  rw [fenceOf, hfences, List.getElem?_map, List.getElem?_range c.isLt]
  rfl

theorem enabled_fuseLoad (e : Engine) (env : ColdEnv) (c : CombId) :
    enabled (fuseLoad e env) c = !fenceAtLoad (fuseLoad e env) c.val := by
  rw [enabled, fenceOf_fuseLoad]
  cases fenceAtLoad (fuseLoad e env) c.val <;> rfl

/-- The first `k` numbers with a property, of those below `n`, are at most `k`. -/
theorem countIf_first_le (p : Nat → Bool) (k n : Nat) :
    countIf (fun c => p c && !decide (k ≤ countIf p (List.range c))) (List.range n) ≤ min k (countIf p (List.range n)) := by
  induction n with
  | zero => exact Nat.zero_le _
  | succ n ih =>
    simp only [countIf, List.range_succ, List.filter_append, List.length_append] at ih ⊢
    by_cases hp : p n
    · by_cases hk : k ≤ ((List.range n).filter p).length
      · simp [hp, hk]; omega
      · simp [hp, hk]; omega
    · simp [hp]; omega

/-- The fuses never leave more than 48 combs unfenced (R11, R486). -/
theorem fusedOn_le (e : Engine) : fusedOn e ≤ 48 := by
  have hat : (fun c => !fenceAtLoad e c) =
      fun c => !fuseFence e c && !decide (48 ≤ countIf (fun d => !fuseFence e d) (List.range c)) :=
    funext fun c => Bool.not_or (fuseFence e c) _
  rw [fusedOn, hat]
  exact (countIf_first_le (fun d => !fuseFence e d) 48 50).trans (min_le_left _ _)

/-- FUSE_LOAD enables the combs of COMBS_FUSED_ON. -/
theorem enabledCombs_fuseLoad_length (e : Engine) (env : ColdEnv) :
    (enabledCombs (fuseLoad e env)).length = fusedOn (fuseLoad e env) := by
  have hen : enabled (fuseLoad e env) = (fun n => !fenceAtLoad (fuseLoad e env) n) ∘ Fin.val := funext (enabled_fuseLoad e env)
  rw [fusedOn, countIf, ← List.map_coe_finRange_eq_range, List.filter_map, List.length_map, ← hen]
  rfl

/-! ### CONFIG_LOAD -/

/-- Without a good image CONFIG_LOAD changes nothing but what it shows of the flash (R491). -/
theorem configLoad_of_not_ok (e : Engine) {env : ColdEnv} (h : (checkImage env).result ≠ .ok) :
    ∃ b, configLoad e env = { e with boot := b } := by
  unfold configLoad
  exact ⟨_, if_neg h⟩

/-- With a good image CONFIG_LOAD applies its records (R493). -/
theorem configLoad_of_ok (e : Engine) {env : ColdEnv} (h : (checkImage env).result = .ok) :
    ∃ x, configLoad e env = applyImage x (checkImage env).recs ∧ x.fences = e.fences := by
  unfold configLoad
  exact ⟨_, if_pos h, rfl⟩

/-- With a good image the combs are enabled as it says (R494). -/
theorem enabled_configLoad_of_ok {e : Engine} {env : ColdEnv} (hlen : e.fences.length = 50) (h : (checkImage env).result = .ok) :
    (∀ c, enabled e c = true → c.val ∉ (configLoad e env).boot.cfg.fences → enabled (configLoad e env) c = true) ∧
    (∀ c : CombId, c.val ∈ (configLoad e env).boot.cfg.fences → enabled (configLoad e env) c = false) ∧
    ((enabledCombs e).length ≤ 48 → (enabledCombs (configLoad e env)).length ≤ 48) := by
  obtain ⟨x, himage, hx⟩ := configLoad_of_ok e h
  obtain ⟨hkept, hnamed, hroom⟩ := enabled_applyImage (hx ▸ hlen) (checkImage env).recs
  rw [himage]
  refine ⟨fun c hc => hkept c ?_, hnamed, fun hle => hroom ?_⟩
  · rw [enabled_of_fences hx, hc]
  · rw [enabledCombs_of_fences hx]; exact hle

/-- CONFIG_LOAD enables no 49th comb (R11). -/
theorem enabledCombs_configLoad_length {e : Engine} (env : ColdEnv) (hlen : e.fences.length = 50)
    (hroom : (enabledCombs e).length ≤ 48) : (enabledCombs (configLoad e env)).length ≤ 48 := by
  by_cases h : (checkImage env).result = .ok
  · obtain ⟨-, -, hok⟩ := enabled_configLoad_of_ok hlen h
    exact hok hroom
  · obtain ⟨b, hb⟩ := configLoad_of_not_ok e h
    rw [hb]; exact hroom

/-! ### The islands start -/

/-- The islands of a list start, the others stay as they were. -/
theorem started_startEach (l : List Nat) {e : Engine} {i : Nat} (hi : i < e.pwr.islands.length) :
    (islandOf (l.foldl startIsland e) i).started = ((islandOf e i).started || decide (i ∈ l)) := by
  induction l generalizing e with
  | nil => simp
  | cons n l ih =>
    rw [List.foldl_cons, ih (e := startIsland e n) (lt_of_lt_of_eq hi (onIsland_islands_length e n _).symm)]
    by_cases h : i = n
    · subst h
      simp [startIsland, islandOf_onIsland_self _ hi]
    · simp [startIsland, islandOf_onIsland_ne _ h, h]

/-- Steps 6 and 7 of Table 15-2 as one list of islands. -/
theorem startIslands_eq (e : Engine) : startIslands e =
    { (span 51 5 ++ (enabledCombs e).map Fin.val).foldl startIsland e with boot := { e.boot with state := .awaitFw } } := by
  unfold startIslands
  obtain ⟨is, h⟩ := startEach_changes (span 51 5) e
  obtain ⟨js, h'⟩ := startEach_changes (span 51 5 ++ (enabledCombs e).map Fin.val) e
  have hen : enabledCombs ((span 51 5).foldl startIsland e) = enabledCombs e := enabledCombs_of_fences (by rw [h])
  have hfold : (enabledCombs e).foldl (fun x c => startIsland x c.val) ((span 51 5).foldl startIsland e) =
      (span 51 5 ++ (enabledCombs e).map Fin.val).foldl startIsland e := by rw [List.foldl_append, List.foldl_map]
  dsimp only
  rw [hen, hfold, h']

/-- The islands that start change nothing but islands and the engine's state. -/
theorem startIslands_changes (e : Engine) : ∃ is, startIslands e =
    { e with pwr := { e.pwr with islands := is }, boot := { e.boot with state := .awaitFw } } := by
  obtain ⟨is, h⟩ := startEach_changes (span 51 5 ++ (enabledCombs e).map Fin.val) e
  exact ⟨is, by rw [startIslands_eq, h]⟩

/-- Where no comb's island had started, those of the enabled combs have, and no other comb's. -/
theorem started_startIslands {e : Engine} (hlen : e.pwr.islands.length = 57) {c : CombId}
    (hoff : (islandOf e c.val).started = false) : (islandOf (startIslands e) c.val).started = enabled e c := by
  have hi : c.val < e.pwr.islands.length := by omega
  have hisland : islandOf (startIslands e) c.val =
      islandOf ((span 51 5 ++ (enabledCombs e).map Fin.val).foldl startIsland e) c.val := by rw [startIslands_eq, islandOf, islandOf]
  have hmem : c.val ∈ span 51 5 ++ (enabledCombs e).map Fin.val ↔ enabled e c = true := by
    have hspan : c.val ∉ span 51 5 := by simp only [span, List.mem_map]; omega
    simp [hspan, enabledCombs, allCombs, Fin.val_inj]
  rw [hisland, started_startEach _ hi, hoff, Bool.false_or, Bool.eq_iff_iff, decide_eq_true_iff]
  exact hmem

/-! ### The cold start as a whole -/

/-- After hub lock no comb's island has started yet (Table 15-2). -/
theorem started_powerUp (e : Engine) (c : CombId) : (islandOf (powerUp e) c.val).started = false := by
  have h56 : c.val ≠ 56 := by omega
  have h50 : c.val ≠ 50 := by omega
  have hisland : islandOf (powerUp e) c.val = islandOf (startIsland (startIsland (freshEngine e) 56) 50) c.val := rfl
  rw [hisland, startIsland, islandOf_onIsland_ne _ h50, startIsland, islandOf_onIsland_ne _ h56]
  have hc : c.val < 57 := by omega
  have hfresh : (freshEngine e).pwr.islands = List.replicate 57 {} := rfl
  rw [islandOf, hfresh, List.getElem?_replicate, if_pos hc]
  rfl

theorem powerUp_islands_length (e : Engine) : (powerUp e).pwr.islands.length = 57 := by
  simp [powerUp, startIsland, freshEngine]

/-- The stages after FUSE_LOAD (R481, R491 to R495): TEST where it is asked for and not locked, AWAIT_FW after a good image, and
CONFIG_LOAD otherwise. -/
theorem configAndStart_eq (e : Engine) (env : ColdEnv) (test : Bool) : configAndStart e env test =
    if test && !testLocked e then enterTest (configLoad e env) .configLoad
    else if (checkImage env).result = .ok then startIslands (configLoad e env) else configLoad e env := by
  obtain ⟨_, _, b, h, -, hkeeps⟩ := configLoad_changes e env
  have hlock : testLocked (configLoad e env) = testLocked e := by rw [h, testLocked, testLocked, fuseWord, fuseWord, hkeeps.fuses]
  have himage : (configLoad e env).boot.image = (checkImage env).result := by rw [h, hkeeps.image]
  unfold configAndStart
  dsimp only
  rw [hlock, himage]

/-- Where TEST is not entered the stages after FUSE_LOAD change registers, fences, islands and the start-up's own part. -/
theorem configAndStart_changes (e : Engine) (env : ColdEnv) : ∃ regs fs is b, configAndStart e env false =
    { e with rw := regs, fences := fs, pwr := { e.pwr with islands := is }, boot := b } ∧
    b.state = (if (checkImage env).result = .ok then .awaitFw else .configLoad) ∧ KeepsFuses e env b := by
  obtain ⟨regs, fs, b, h, hstate, hkeeps⟩ := configLoad_changes e env
  rw [configAndStart_eq, if_neg (by simp)]
  split
  · obtain ⟨is, hstart⟩ := startIslands_changes (configLoad e env)
    exact ⟨regs, fs, is, { b with state := .awaitFw }, by rw [hstart, h], rfl, hkeeps.image, hkeeps.fuses, hkeeps.fuseEcc,
      hkeeps.hubLocked⟩
  · exact ⟨regs, fs, e.pwr.islands, b, h, hstate, hkeeps⟩

/-- After FUSE_LOAD, in a cold start in which TEST is not entered, no 49th comb is enabled (R11). -/
theorem enabledCombs_configAndStart_length {e : Engine} (env : ColdEnv) (hlen : e.fences.length = 50)
    (hroom : (enabledCombs e).length ≤ 48) : (enabledCombs (configAndStart e env false)).length ≤ 48 := by
  have hload := enabledCombs_configLoad_length env hlen hroom
  rw [configAndStart_eq, if_neg (by simp)]
  split
  · obtain ⟨_, h⟩ := startIslands_changes (configLoad e env)
    rw [enabledCombs_of_fences (e := startIslands _) (e' := configLoad e env) (by rw [h])]
    exact hload
  · exact hload

/-- Without a good image the registers and the fences stay as FUSE_LOAD left them (R491). -/
theorem configAndStart_of_not_ok (e : Engine) {env : ColdEnv} (h : (checkImage env).result ≠ .ok) :
    (configAndStart e env false).rw = e.rw ∧ (configAndStart e env false).fences = e.fences := by
  obtain ⟨b, hb⟩ := configLoad_of_not_ok e h
  rw [configAndStart_eq, if_neg (by simp), if_neg h, hb]
  exact ⟨rfl, rfl⟩

/-- With a good image the record's fences hold, every other comb that was enabled stays so, and of the combs' islands exactly those of
the enabled combs start (R494, Table 15-2). -/
theorem configAndStart_of_ok {e : Engine} {env : ColdEnv} (hlen : e.fences.length = 50) (hislands : e.pwr.islands.length = 57)
    (hoff : ∀ c : CombId, (islandOf e c.val).started = false) (h : (checkImage env).result = .ok) :
    let t := configAndStart e env false
    (∀ c : CombId, (islandOf t c.val).started = enabled t c) ∧
    (∀ c, enabled e c = true → c.val ∉ t.boot.cfg.fences → enabled t c = true) ∧
    (∀ c : CombId, c.val ∈ t.boot.cfg.fences → enabled t c = false) := by
  obtain ⟨_, _, b, hload, -, -⟩ := configLoad_changes e env
  obtain ⟨is, hstart⟩ := startIslands_changes (configLoad e env)
  obtain ⟨hkept, hnamed, -⟩ := enabled_configLoad_of_ok hlen h
  have hpwr : (configLoad e env).pwr = e.pwr := by rw [hload]
  have hen : ∀ c, enabled (startIslands (configLoad e env)) c = enabled (configLoad e env) c :=
    enabled_of_fences (by rw [hstart])
  have hcfg : (startIslands (configLoad e env)).boot.cfg = (configLoad e env).boot.cfg := by rw [hstart]
  have hoff' : ∀ c : CombId, (islandOf (configLoad e env) c.val).started = false := fun c => by
    rw [islandOf, hpwr]; exact hoff c
  dsimp only
  rw [configAndStart_eq, if_neg (by simp), if_pos h, hcfg]
  refine ⟨fun c => ?_, fun c hc hn => (hen c).trans (hkept c hc hn), fun c hc => (hen c).trans (hnamed c hc)⟩
  rw [started_startIslands (hpwr ▸ hislands) (hoff' c), hen]

/-- A cold start in which no TEST_ENTER takes effect in FUSE_LOAD (R483). -/
theorem coldStart_of_off {e : Engine} {env : ColdEnv} (hoff : e.boot.state = .off)
    (ht : env.testAt = some false → testLocked (fuseLoad (powerUp e) env) = true) :
    coldStart e env = configAndStart (fuseLoad (powerUp e) env) env (env.testAt == some true) := by
  unfold coldStart
  rw [if_neg (not_not.2 hoff)]
  exact if_neg fun ⟨hat, hopen⟩ => by simp [ht hat] at hopen

/-- The fuse words that FUSE_LOAD takes (R484). -/
theorem fuseLoad_fuses (e : Engine) (env : ColdEnv) {i : Nat} (hi : i < 68) :
    elemD (fuseLoad e env).boot.fuses i 0 = fuseTaken i (elemD env.fuses i (.good 0)) := by
  simp [fuseLoad, elemD, hi]

theorem fuseLoad_fuseEcc (e : Engine) (env : ColdEnv) :
    (fuseLoad e env).boot.fuseEcc = true ↔ FuseRead.uncorrectable ∈ env.fuses.take 68 := by
  simp [fuseLoad]

theorem testLocked_of_fuses {e e' : Engine} (h : e.boot.fuses = e'.boot.fuses) : testLocked e = testLocked e' := by
  simp only [testLocked, fuseWord, h]

/-- Locked fuses (R481): the stages after FUSE_LOAD run as if TEST had not been asked for. -/
theorem configAndStart_of_locked {e : Engine} (env : ColdEnv) (test : Bool) (h : testLocked e = true) :
    configAndStart e env test = configAndStart e env false := by
  simp [configAndStart_eq, h]

/-- A TEST_ENTER in a stage of the cold start (R481): TEST at the stage's end, unless the fuses lock it. -/
theorem coldStart_test {e : Engine} {env : ColdEnv} {late : Bool} (hoff : e.boot.state = .off) (ht : env.testAt = some late) :
    (testLocked (coldStart e env) = false → (coldStart e env).boot.state = .test ∧
      (coldStart e env).boot.fromTest = some (if late then .configLoad else .fuseLoad)) ∧
    (testLocked (coldStart e env) = true →
      (coldStart e env).boot.state = if (checkImage env).result = .ok then .awaitFw else .configLoad) := by
  cases hl : testLocked (fuseLoad (powerUp e) env) with
  | true =>
    obtain ⟨_, _, _, b, hstart, hstate, hkeeps⟩ := configAndStart_changes (fuseLoad (powerUp e) env) env
    have hcold : coldStart e env = configAndStart (fuseLoad (powerUp e) env) env false :=
      (coldStart_of_off hoff fun _ => hl).trans (configAndStart_of_locked env _ hl)
    have hlock : testLocked (coldStart e env) = true := by
      rw [testLocked_of_fuses (e' := fuseLoad (powerUp e) env) (by rw [hcold, hstart, hkeeps.fuses]), hl]
    exact ⟨fun h => absurd (hlock.symm.trans h) (by decide), fun _ => by rw [hcold, hstart, hstate]⟩
  | false =>
    suffices hopen : testLocked (coldStart e env) = false ∧ (coldStart e env).boot.state = .test ∧
        (coldStart e env).boot.fromTest = some (if late then .configLoad else .fuseLoad) from
      ⟨fun _ => hopen.2, fun h => absurd (hopen.1.symm.trans h) (by decide)⟩
    cases late with
    | false =>
      have hcold : coldStart e env = { enterTest (fuseLoad (powerUp e) env) .fuseLoad with
          boot := { (enterTest (fuseLoad (powerUp e) env) .fuseLoad).boot with flash := some env } } := by
        unfold coldStart
        rw [if_neg (not_not.2 hoff)]
        exact if_pos ⟨ht, by rw [hl]; rfl⟩
      exact ⟨(testLocked_of_fuses (by rw [hcold]; rfl)).trans hl, by rw [hcold]; rfl, by rw [hcold]; rfl⟩
    | true =>
      obtain ⟨_, _, b, hload, -, hkeeps⟩ := configLoad_changes (fuseLoad (powerUp e) env) env
      have hcold : coldStart e env = enterTest (configLoad (fuseLoad (powerUp e) env) env) .configLoad := by
        rw [coldStart_of_off hoff (by simp [ht]), configAndStart_eq, ht, hl]
        rfl
      exact ⟨(testLocked_of_fuses (by rw [hcold, hload]; exact hkeeps.fuses)).trans hl, by rw [hcold]; rfl, by rw [hcold]; rfl⟩

/-- Settles O54: the fuses by `fuseLoad_fuses`, the 48 combs by `fusedOn_le` and `enabledCombs_configAndStart_length`, the image by
`configAndStart_of_ok`, TEST by `coldStart_test`. -/
theorem coldStartReachesStage : Obligations.ColdStartReachesStage := by
  unfold Obligations.ColdStartReachesStage
  intro s env
  have hexec : exec (.coldStart env) s = .next (onEngine s fun e => coldStart e env) := rfl
  refine ⟨fun hon => ?_, fun hoff htest => ?_, fun late hoff htest => ?_, rfl⟩
  · rw [hexec, onEngine, coldStart, if_pos hon]
  · have hcold : coldStart s.eng env = configAndStart (fuseLoad (powerUp s.eng) env) env false := by
      rw [coldStart_of_off hoff (by simp [htest]), htest]; rfl
    have hlen := fuseLoad_fences_length (powerUp s.eng) env
    obtain ⟨_, _, _, b, hstart, hstate, hkeeps⟩ := configAndStart_changes (fuseLoad (powerUp s.eng) env) env
    have hboot : (configAndStart (fuseLoad (powerUp s.eng) env) env false).boot = b := by rw [hstart]
    have hat := fenceAtLoad_of_fuses (e := configAndStart (fuseLoad (powerUp s.eng) env) env false)
      (e' := fuseLoad (powerUp s.eng) env) (by rw [hboot, hkeeps.fuses])
    refine ⟨_, hexec, ?_⟩
    rw [onEngine_eng, hcold]
    refine ⟨by rw [hboot, hkeeps.image], by rw [hboot, hkeeps.hubLocked]; rfl, fun i hi => ?_, ?_, ?_, fun hbad => ?_,
      fun hok => ?_, by rw [hstart]; rfl, by rw [hstart]; rfl, by rw [hstart]; rfl, rfl, rfl⟩
    · rw [hboot, hkeeps.fuses, fuseLoad_fuses _ _ hi]
    · rw [hboot, hkeeps.fuseEcc, fuseLoad_fuseEcc]
    · exact enabledCombs_configAndStart_length env hlen ((enabledCombs_fuseLoad_length _ _).trans_le (fusedOn_le _))
    · obtain ⟨hrw, hfences⟩ := configAndStart_of_not_ok (fuseLoad (powerUp s.eng) env) hbad
      refine ⟨by rw [hboot, hstate, if_neg hbad], hrw, fun c => ?_⟩
      rw [hat, fenceOf, hfences]
      exact fenceOf_fuseLoad _ _ c
    · obtain ⟨hislands, hkept, hnamed⟩ := configAndStart_of_ok hlen (powerUp_islands_length s.eng) (started_powerUp s.eng) hok
      refine ⟨by rw [hboot, hstate, if_pos hok], hislands, fun c hc => hkept c ?_, hnamed⟩
      rw [enabled_fuseLoad, ← hat, hc]
      rfl
  · obtain ⟨hopen, hlocked⟩ := coldStart_test hoff htest
    exact ⟨_, hexec, hopen, hlocked, rfl, rfl⟩

end Sys2Proof.Machine
end

section
/-! Proofs: reading rules for frames, tasks, regions and counters after an update, and what the feeders and the drain unit
leave as it was. -/

namespace Sys2Proof.Machine

/-! ### Reading rules -/

@[simp] theorem ctrMax_comb (c : CombId) (k : CombCtr) : ctrMax (.comb c k) = 2 ^ combCtrWidth k - 1 := rfl

/-- One event counted: its own counter steps up to its limit, every other one stays. -/
@[simp] theorem ctrVal_bump_one (e : Engine) (k q : Ctr) :
    ctrVal (bump e k 1) q = if q = k then min (ctrMax k) (ctrVal e k + 1) else ctrVal e q := by
  obtain ⟨hself, hne, -⟩ := bump_spec e k 1
  split
  · next h => rw [h, hself]; simp
  · next h => exact hne q h

theorem ctrVal_bump_ne (e : Engine) {k q : Ctr} (n : Nat) (h : q ≠ k) : ctrVal (bump e k n) q = ctrVal e q := (bump_spec e k n).2.1 q h

@[simp] theorem ctrVal_onComb (e : Engine) (c : CombId) (g : Comb → Comb) (k : Ctr) : ctrVal (onComb e c g) k = ctrVal e k := rfl
@[simp] theorem ctrVal_onFrame (e : Engine) (c : CombId) (f : FrameId) (g : Frame → Frame) (k : Ctr) :
    ctrVal (onFrame e c f g) k = ctrVal e k := rfl
@[simp] theorem ctrVal_onTask (e : Engine) (i : Nat) (g : Task → Task) (k : Ctr) : ctrVal (onTask e i g) k = ctrVal e k := rfl
@[simp] theorem ctrVal_raiseErr (e : Engine) (b : Nat) (k : Ctr) : ctrVal (raiseErr e b) k = ctrVal e k := rfl
@[simp] theorem ctrVal_onRegion (e : Engine) (h : Nat) (g : Region → Region) (k : Ctr) : ctrVal (onRegion e h g) k = ctrVal e k := rfl
@[simp] theorem ctrVal_poisonEvent (e : Engine) (i n : Nat) (k : Ctr) : ctrVal (poisonEvent e i n) k = ctrVal e k := by
  simp [ctrVal]

@[simp] theorem frameOf_bump (e : Engine) (k : Ctr) (n : Nat) (c : CombId) (f : FrameId) : frameOf (bump e k n) c f = frameOf e c f := by
  simp [frameOf, combOf]
@[simp] theorem frameOf_onTask (e : Engine) (i : Nat) (g : Task → Task) (c : CombId) (f : FrameId) :
    frameOf (onTask e i g) c f = frameOf e c f := rfl
@[simp] theorem frameOf_raiseErr (e : Engine) (b : Nat) (c : CombId) (f : FrameId) : frameOf (raiseErr e b) c f = frameOf e c f := rfl
@[simp] theorem frameOf_onRegion (e : Engine) (h : Nat) (g : Region → Region) (c : CombId) (f : FrameId) :
    frameOf (onRegion e h g) c f = frameOf e c f := rfl
@[simp] theorem frameOf_poisonEvent (e : Engine) (i n : Nat) (c : CombId) (f : FrameId) :
    frameOf (poisonEvent e i n) c f = frameOf e c f := by simp [frameOf, combOf]

/-- A change of a comb's other parts leaves its frames. -/
theorem frameOf_onComb (e : Engine) (c d : CombId) (f : FrameId) {g : Comb → Comb} (hg : ∀ cb, (g cb).frames = cb.frames := by intro; rfl) :
    frameOf (onComb e c g) d f = frameOf e d f := by
  by_cases hd : d = c
  · subst hd
    by_cases hlen : d.val < e.combs.length
    · rw [frameOf, combOf_onComb_self _ hlen, hg, frameOf]
    · simp [frameOf, combOf, onComb, updAt_getElem?, List.getElem?_eq_none (Nat.le_of_not_lt hlen)]
  · rw [frameOf, combOf_onComb_ne _ hd, frameOf]

@[simp] theorem combOf_bump (e : Engine) (k : Ctr) (n : Nat) (c : CombId) : combOf (bump e k n) c = combOf e c := by simp [combOf]
@[simp] theorem ctxOf_bump (e : Engine) (k : Ctr) (n : Nat) (c : CombId) (x : Fin 4) : ctxOf (bump e k n) c x = ctxOf e c x := by
  simp [ctxOf]

@[simp] theorem ctxOf_onFrame (e : Engine) (c d : CombId) (f : FrameId) (u : Frame → Frame) (x : Fin 4) :
    ctxOf (onFrame e c f u) d x = ctxOf e d x := by
  by_cases hd : d = c
  · subst hd
    by_cases hlen : d.val < e.combs.length
    · rw [ctxOf, onFrame, combOf_onComb_self _ hlen, ctxOf]
    · simp [ctxOf, combOf, onFrame, onComb, updAt_getElem?, List.getElem?_eq_none (Nat.le_of_not_lt hlen)]
  · rw [ctxOf, onFrame, combOf_onComb_ne _ hd, ctxOf]

theorem frameOf_onFrame_ne {e : Engine} {c : CombId} {f g : FrameId} (u : Frame → Frame) (h : g ≠ f) :
    frameOf (onFrame e c f u) c g = frameOf e c g := by
  by_cases hlen : c.val < e.combs.length
  · simp [frameOf, onFrame, combOf_onComb_self _ hlen, updAt_getElem?, Fin.val_ne_of_ne (Ne.symm h)]
  · simp [frameOf, combOf, onFrame, onComb, updAt_getElem?, List.getElem?_eq_none (Nat.le_of_not_lt hlen)]

theorem combOf_onFrame_ne {e : Engine} {c d : CombId} (f : FrameId) (u : Frame → Frame) (h : d ≠ c) :
    combOf (onFrame e c f u) d = combOf e d := combOf_onComb_ne _ h

/-- The engine has the frame. -/
def HasFrame (e : Engine) (c : CombId) (f : FrameId) : Prop := c.val < e.combs.length ∧ f.val < (combOf e c).frames.length

theorem hasFrame_of_lengths {e : Engine} {c : CombId} (f : FrameId) (hc : e.combs.length = 50) (hf : (combOf e c).frames.length = 4) :
    HasFrame e c f := ⟨by have := c.isLt; omega, by have := f.isLt; omega⟩

theorem HasFrame.frameOf_onFrame {e : Engine} {c : CombId} {f : FrameId} (h : HasFrame e c f) (g : Frame → Frame) :
    frameOf (onFrame e c f g) c f = g (frameOf e c f) := frameOf_onFrame_self g h.1 h.2

/-- The numbers of combs, and of frames in each, decide which frames there are. -/
theorem hasFrame_congr {e e' : Engine} {c : CombId} {f : FrameId}
    (h : e'.combs.map (fun cb => cb.frames.length) = e.combs.map fun cb => cb.frames.length) : HasFrame e' c f ↔ HasFrame e c f := by
  have hlen : e'.combs.length = e.combs.length := by simpa using congrArg List.length h
  have hget := congrArg (fun l => l[c.val]?) h
  simp only [List.getElem?_map] at hget
  by_cases hc : c.val < e.combs.length
  · have hc' : c.val < e'.combs.length := hlen ▸ hc
    simp only [List.getElem?_eq_getElem hc, List.getElem?_eq_getElem hc', Option.map_some, Option.some.injEq] at hget
    simp [HasFrame, combOf, hc, hc', hget]
  · simp [HasFrame, hlen, hc]

/-- A change of each element that leaves its image leaves the list of images. -/
theorem map_updAt_of_eq {α β : Type} (p : α → β) {g : α → α} (hg : ∀ a, p (g a) = p a) (l : List α) (i : Nat) :
    (updAt l i g).map p = l.map p := by
  refine List.ext_getElem? fun j => ?_
  rw [List.getElem?_map, List.getElem?_map, updAt_getElem?]
  split
  · cases l[j]? <;> simp [hg]
  · rfl

/-- A run of steps each of which leaves a part leaves the part. -/
theorem foldl_keeps {α β γ : Type} (p : γ → β) {u : γ → α → γ} (hu : ∀ x a, p (u x a) = p x) (l : List α) (x : γ) :
    p (l.foldl u x) = p x := by
  induction l generalizing x with
  | nil => rfl
  | cons a l ih => rw [List.foldl_cons, ih, hu]

@[simp] theorem hasFrame_onFrame {e : Engine} {c d : CombId} {f g : FrameId} {u : Frame → Frame} :
    HasFrame (onFrame e d g u) c f ↔ HasFrame e c f :=
  hasFrame_congr (map_updAt_of_eq _ (fun cb => by simp) _ _)
@[simp] theorem hasFrame_bump {e : Engine} {k : Ctr} {n : Nat} {c : CombId} {f : FrameId} : HasFrame (bump e k n) c f ↔ HasFrame e c f :=
  hasFrame_congr (by simp)
@[simp] theorem hasFrame_onTask {e : Engine} {i : Nat} {u : Task → Task} {c : CombId} {f : FrameId} :
    HasFrame (onTask e i u) c f ↔ HasFrame e c f := Iff.rfl
@[simp] theorem hasFrame_raiseErr {e : Engine} {b : Nat} {c : CombId} {f : FrameId} : HasFrame (raiseErr e b) c f ↔ HasFrame e c f := Iff.rfl
theorem HasFrame.onComb {e : Engine} {c : CombId} {f : FrameId} (h : HasFrame e c f) (d : CombId) {g : Comb → Comb}
    (hg : ∀ cb, (g cb).frames.length = cb.frames.length := by intro; rfl) : HasFrame (onComb e d g) c f :=
  (hasFrame_congr (map_updAt_of_eq _ hg _ _)).2 h

theorem taskOf_congr {e e' : Engine} (h : e'.sch.run.map Graph.tasks = e.sch.run.map Graph.tasks) (i : Nat) : taskOf e' i = taskOf e i := by
  unfold taskOf
  cases hr : e.sch.run <;> cases hr' : e'.sch.run <;> simp_all

theorem regionOf_congr {e e' : Engine} (h : e'.sch.run.map Graph.regions = e.sch.run.map Graph.regions) (i : Nat) :
    regionOf e' i = regionOf e i := by
  unfold regionOf
  cases hr : e.sch.run <;> cases hr' : e'.sch.run <;> simp_all

/-- A request to stop changes neither the tasks nor the regions of the running graph. -/
theorem askStop_run (e : Engine) (code unit task : Nat) :
    (askStop e code unit task).sch.run.map Graph.tasks = e.sch.run.map Graph.tasks ∧
    (askStop e code unit task).sch.run.map Graph.regions = e.sch.run.map Graph.regions := by
  unfold askStop
  cases hr : e.sch.run with
  | none => simp [hr]
  | some g => cases hs : g.stop <;> simp [hr, hs]

/-- A poison event changes neither the tasks nor the regions of the running graph. -/
theorem poisonEvent_run (e : Engine) (i n : Nat) :
    (poisonEvent e i n).sch.run.map Graph.tasks = e.sch.run.map Graph.tasks ∧
    (poisonEvent e i n).sch.run.map Graph.regions = e.sch.run.map Graph.regions := by
  simp only [poisonEvent, raiseErr_sch]
  cases hr : e.sch.run with
  | none => simp [hr]
  | some g =>
    simp only
    split
    · rw [(askStop_run _ _ _ _).1, (askStop_run _ _ _ _).2]
      by_cases hp : g.firstPoison = true <;> simp [hp, hr]
    · by_cases hp : g.firstPoison = true <;> simp [hp, hr]

@[simp] theorem taskOf_poisonEvent (e : Engine) (i n t : Nat) : taskOf (poisonEvent e i n) t = taskOf e t :=
  taskOf_congr (poisonEvent_run e i n).1 t
@[simp] theorem regionOf_poisonEvent (e : Engine) (i n h : Nat) : regionOf (poisonEvent e i n) h = regionOf e h :=
  regionOf_congr (poisonEvent_run e i n).2 h
@[simp] theorem taskOf_bump (e : Engine) (k : Ctr) (n t : Nat) : taskOf (bump e k n) t = taskOf e t := taskOf_congr (by simp) t
@[simp] theorem regionOf_bump (e : Engine) (k : Ctr) (n h : Nat) : regionOf (bump e k n) h = regionOf e h := regionOf_congr (by simp) h
@[simp] theorem taskOf_onComb (e : Engine) (c : CombId) (g : Comb → Comb) (t : Nat) : taskOf (onComb e c g) t = taskOf e t := rfl
@[simp] theorem taskOf_onFrame (e : Engine) (c : CombId) (f : FrameId) (g : Frame → Frame) (t : Nat) :
    taskOf (onFrame e c f g) t = taskOf e t := rfl
@[simp] theorem taskOf_raiseErr (e : Engine) (b t : Nat) : taskOf (raiseErr e b) t = taskOf e t := rfl
@[simp] theorem regionOf_onFrame (e : Engine) (c : CombId) (f : FrameId) (g : Frame → Frame) (h : Nat) :
    regionOf (onFrame e c f g) h = regionOf e h := rfl
@[simp] theorem regionOf_raiseErr (e : Engine) (b h : Nat) : regionOf (raiseErr e b) h = regionOf e h := rfl
@[simp] theorem regionOf_onTask (e : Engine) (i : Nat) (g : Task → Task) (h : Nat) : regionOf (onTask e i g) h = regionOf e h := by
  refine regionOf_congr ?_ h
  simp only [onTask, onGraph, Option.map_map]
  rfl

/-- A task read after its change. -/
theorem taskOf_onTask_self (e : Engine) (i : Nat) {g : Task → Task} (hg : ∀ t, (g t).index = t.index := by intro; rfl) :
    taskOf (onTask e i g) i = (taskOf e i).map g := by
  unfold taskOf onTask onGraph
  cases hr : e.sch.run with
  | none => rfl
  | some gr => exact updFirst_find? _ _ _ fun t ht => by simpa [hg] using ht

theorem taskOf_onTask_ne (e : Engine) {i t : Nat} (h : t ≠ i) {g : Task → Task} (hg : ∀ t, (g t).index = t.index := by intro; rfl) :
    taskOf (onTask e i g) t = taskOf e t := by
  unfold taskOf onTask onGraph
  cases hr : e.sch.run with
  | none => rfl
  | some gr =>
    refine updFirst_find?_of_not _ _ _ _ fun x hx => ?_
    have hxi : x.index = i := by simpa using hx
    simp [hg, hxi, Ne.symm h]

/-- A region read after it is replaced by one of the same handle. -/
theorem regionOf_onRegion_const {e : Engine} {h : Nat} {r r' : Region} (hr : regionOf e h = some r) (hh : r'.handle = h) :
    regionOf (onRegion e h fun _ => r') h = some r' := by
  unfold regionOf at hr
  unfold regionOf onRegion onGraph
  cases hg : e.sch.run with
  | none => simp [hg] at hr
  | some gr =>
    rw [hg] at hr
    refine (updFirst_find? _ _ _ fun _ _ => by simpa using hh).trans ?_
    exact congrArg (Option.map fun _ => r') hr

/-- An error bit set stays with the others (R422). -/
theorem errBit_raiseErr (e : Engine) {b : Nat} (hb : b < 8) (i : Nat) :
    errBit (raiseErr e b) i = (errBit e i || decide (b = i)) := by
  have hbit : ∀ n, bit n i = n.testBit i := fun n => by rw [bit, Nat.testBit_eq_decide_div_mod_eq]; rfl
  have hpow : 2 ^ b < 2 ^ 8 := Nat.pow_lt_pow_right (by decide) hb
  rw [errBit, errBit, hbit, hbit, raiseErr, BitVec.toNat_or, Nat.testBit_or, BitVec.toNat_ofNat, Nat.mod_eq_of_lt hpow,
    Nat.testBit_two_pow]

theorem errBit_congr {e e' : Engine} (h : e'.hub = e.hub) (i : Nat) : errBit e' i = errBit e i := by rw [errBit, errBit, h]

@[simp] theorem errBit_askStop (e : Engine) (code unit task i : Nat) : errBit (askStop e code unit task) i = errBit e i :=
  errBit_congr (askStop_hub e code unit task) i
@[simp] theorem errBit_logEvent (e : Engine) (k t n : Nat) (bs : List Byte) (i : Nat) : errBit (logEvent e k t n bs) i = errBit e i :=
  errBit_congr (by rw [logEvent_frame]) i

end Sys2Proof.Machine
end

section
/-! Proofs: the work in hand, which reading operands, counting, releasing slots and storing leave as it was. -/

namespace Sys2Proof.Machine

/-! ### The work in hand -/

/-- A frame without its register files and the operand lines that its drain unit holds. -/
def frameWork (fr : Frame) : Frame := { fr with banks := [], smooth := [], held := [] }

/-- A comb's frames, and which of its contexts are taken. -/
def combWork (cb : Comb) : List Frame × List Bool := (cb.frames.map frameWork, cb.ctxs.map Option.isSome)

/-- A task's record and its progress. -/
def taskWork (t : Task) : TaskRec × List Nat × List Nat := (t.record, t.commTiles, t.doneTiles)

/-- The counters of frames, and those of a comb's checks and lane mismatches. -/
def workCtr : Ctr → Bool
  | .frame _ _ _ => true
  | .comb _ k => k == .checkRetries || k == .laneMismatch
  | _ => false

@[simp] theorem workCtr_frame (c : CombId) (f : FrameId) (k : FrameCtr) : workCtr (.frame c f k) = true := rfl
@[simp] theorem workCtr_comb (c : CombId) (k : CombCtr) : workCtr (.comb c k) = (k == .checkRetries || k == .laneMismatch) := by
  rw [workCtr]

/-- What the operations of feeders and drain units have in common that they leave alone. -/
@[ext] structure Work where
  combs : List (List Frame × List Bool)
  tasks : Nat → Option (TaskRec × List Nat × List Nat)
  counts : Ctr → Nat
  fences : List Fence
  mbx : Mbx
  cycle : Nat

/-- The work in hand in an engine. -/
def workOf (e : Engine) : Work where
  combs := e.combs.map combWork
  tasks i := (taskOf e i).map taskWork
  counts k := if workCtr k then ctrVal e k else 0
  fences := e.fences
  mbx := e.mbx
  cycle := e.hub.cycle

/-- A frame of an engine by what it works on. -/
def workFrame (e : Engine) (c : CombId) (f : FrameId) : Frame := frameWork (frameOf e c f)

section Same
variable {e e' : Engine} (h : workOf e' = workOf e)
include h

theorem ctrVal_of_workOf {k : Ctr} (hk : workCtr k = true) : ctrVal e' k = ctrVal e k := by
  simpa [workOf, hk] using congrFun (congrArg Work.counts h) k

theorem fences_of_workOf : e'.fences = e.fences := congrArg Work.fences h
theorem mbx_of_workOf : e'.mbx = e.mbx := congrArg Work.mbx h
theorem cycle_of_workOf : e'.hub.cycle = e.hub.cycle := congrArg Work.cycle h

theorem taskWork_of_workOf (i : Nat) : (taskOf e' i).map taskWork = (taskOf e i).map taskWork := congrFun (congrArg Work.tasks h) i

theorem combWork_of_workOf (c : CombId) : combWork (combOf e' c) = combWork (combOf e c) := by
  have hget := congrArg (fun l => ((l[c.val]?).getD (combWork {}))) (congrArg Work.combs h)
  simpa only [combOf, workOf, List.getElem?_map, Option.getD_map] using hget

theorem workFrame_of_workOf (c : CombId) (f : FrameId) : workFrame e' c f = workFrame e c f := by
  have hget := congrArg (fun l => ((l[f.val]?).getD (frameWork {}))) (congrArg Prod.fst (combWork_of_workOf h c))
  simpa only [workFrame, frameOf, combWork, List.getElem?_map, Option.getD_map] using hget

theorem ctxOf_isSome_of_workOf (c : CombId) (x : Fin 4) : (ctxOf e' c x).isSome = (ctxOf e c x).isSome := by
  have hget := congrArg (fun l => ((l[x.val]?).getD (Option.isSome (none : Option Ctx)))) (congrArg Prod.snd (combWork_of_workOf h c))
  simpa only [ctxOf, combWork, List.getElem?_map, Option.getD_map] using hget

theorem hasFrame_of_workOf (c : CombId) (f : FrameId) : HasFrame e' c f ↔ HasFrame e c f := by
  refine hasFrame_congr ?_
  have hlens := congrArg (List.map fun w => w.1.length) (congrArg Work.combs h)
  simpa [workOf, combWork, Function.comp_def] using hlens

end Same

/-- A task is there with its record and progress. -/
theorem taskOf_some_of_workOf {e e' : Engine} (h : workOf e' = workOf e) {i : Nat} {t : Task} (ht : taskOf e i = some t) :
    ∃ t', taskOf e' i = some t' ∧ taskWork t' = taskWork t := by
  have hi := taskWork_of_workOf h i
  rw [ht] at hi
  exact Option.map_eq_some_iff.1 hi

/-- The work frame after an update that does not look at register files. -/
theorem HasFrame.workFrame_onFrame {e : Engine} {c : CombId} {f : FrameId} (h : HasFrame e c f) {g : Frame → Frame}
    (hg : ∀ fr, frameWork (g fr) = g (frameWork fr) := by intro; rfl) : workFrame (onFrame e c f g) c f = g (workFrame e c f) := by
  rw [workFrame, h.frameOf_onFrame, hg, workFrame]

/-- An engine whose combs, tasks, counters, fences, mailboxes and cycle count agree with another's has the same work in hand. -/
theorem workOf_congr {e e' : Engine} (hcombs : e'.combs.map combWork = e.combs.map combWork)
    (htasks : ∀ i, (taskOf e' i).map taskWork = (taskOf e i).map taskWork)
    (hcounts : ∀ k, workCtr k = true → ctrVal e' k = ctrVal e k)
    (hfences : e'.fences = e.fences) (hmbx : e'.mbx = e.mbx) (hcycle : e'.hub.cycle = e.hub.cycle) : workOf e' = workOf e := by
  refine Work.ext hcombs (funext htasks) (funext fun k => ?_) hfences hmbx hcycle
  by_cases hk : workCtr k = true
  · simp [workOf, hk, hcounts k hk]
  · simp [workOf, hk]

/-! ### Single updates -/

@[simp] theorem workOf_bump (e : Engine) {k : Ctr} (n : Nat) (hk : workCtr k = false) : workOf (bump e k n) = workOf e := by
  refine workOf_congr (by simp) (by simp) (fun q hq => ctrVal_bump_ne e n ?_) (by simp) (by simp) (by simp)
  rintro rfl
  simp [hk] at hq

theorem workOf_onComb (e : Engine) (c : CombId) {g : Comb → Comb} (hg : ∀ cb, combWork (g cb) = combWork cb := by intro; rfl) :
    workOf (onComb e c g) = workOf e :=
  workOf_congr (map_updAt_of_eq _ hg _ _) (fun _ => rfl) (fun _ _ => rfl) rfl rfl rfl

theorem workOf_onFrame (e : Engine) (c : CombId) (f : FrameId) {g : Frame → Frame}
    (hg : ∀ fr, frameWork (g fr) = frameWork fr := by intro; rfl) :
    workOf (onFrame e c f g) = workOf e :=
  workOf_onComb e c fun cb => by simp [combWork, map_updAt_of_eq _ hg]

theorem workOf_onTask (e : Engine) (i : Nat) {g : Task → Task} (hi : ∀ t, (g t).index = t.index := by intro; rfl)
    (hg : ∀ t, taskWork (g t) = taskWork t := by intro; rfl) :
    workOf (onTask e i g) = workOf e := by
  refine workOf_congr rfl (fun t => ?_) (fun _ _ => rfl) rfl rfl rfl
  by_cases ht : t = i
  · rw [ht, taskOf_onTask_self e i hi, Option.map_map]
    exact congrArg (fun w => (taskOf e i).map w) (funext hg)
  · rw [taskOf_onTask_ne e ht hi]

theorem workOf_onGraph (e : Engine) {u : Graph → Graph} (hu : ∀ g, (u g).tasks = g.tasks := by intro; rfl) : workOf (onGraph e u) = workOf e := by
  refine workOf_congr rfl (fun t => congrArg _ (taskOf_congr ?_ t)) (fun _ _ => rfl) rfl rfl rfl
  simp only [onGraph, Option.map_map]
  exact congrArg (fun w => e.sch.run.map w) (funext hu)

@[simp] theorem workOf_onRing (e : Engine) (c : CombId) (r : Nat) (g : Ring → Ring) : workOf (onRing e c r g) = workOf e :=
  workOf_onComb e c

@[simp] theorem workOf_onStream (e : Engine) (c : CombId) (r i role : Nat) (g : Stream → Stream) : workOf (onStream e c r i role g) = workOf e := by
  refine workOf_onComb e c fun cb => ?_
  split
  · simp [combWork, Function.comp_def]
  · rfl

@[simp] theorem workOf_markOut (e : Engine) (i : Nat) : workOf (markOut e i) = workOf e := workOf_onTask e i

@[simp] theorem workOf_poisonEvent (e : Engine) (i n : Nat) : workOf (poisonEvent e i n) = workOf e :=
  workOf_congr (by simp) (by simp) (by simp) (by simp) (by simp) (by simp [raiseErr])

@[simp] theorem workOf_onRegion (e : Engine) (h : Nat) (g : Region → Region) : workOf (onRegion e h g) = workOf e :=
  workOf_onGraph e

@[simp] theorem workOf_onVer (e : Engine) (h : Nat) (g : VerEntry → VerEntry) : workOf (onVer e h g) = workOf e :=
  workOf_onGraph e

@[simp] theorem workOf_sendLine (e : Engine) (w : Writer) (l : Nat) (bs : List (Nat × Byte)) (p q : Bool) :
    workOf (sendLine e w l bs p q) = workOf e := rfl

@[simp] theorem workOf_bumpComb (e : Engine) (c : CombId) {k : CombCtr} (n : Nat) (hk : workCtr (.comb c k) = false) :
    workOf (bumpComb e c k n) = workOf e := workOf_bump e n hk

/-- A run of steps each of which leaves the work in hand. -/
theorem workOf_foldl {α : Type} {u : Engine → α → Engine} (hu : ∀ e a, workOf (u e a) = workOf e) (l : List α) (e : Engine) :
    workOf (l.foldl u e) = workOf e := foldl_keeps workOf hu l e

/-! ### The feeders -/

@[simp] theorem workOf_checkSlots (e : Engine) (c : CombId) (rs : List (Nat × Reader)) : workOf (checkSlots e c rs) = workOf e := by
  refine workOf_foldl (fun e rk => ?_) rs e
  cases ringOf e c rk.1 with
  | none => rfl
  | some g => dsimp only; split <;> simp

@[simp] theorem workOf_consume (e : Engine) (c : CombId) (rs : List (Nat × Reader)) : workOf (consume e c rs) = workOf e :=
  workOf_foldl (fun e _ => workOf_onRing e c _ _) rs e

@[simp] theorem workOf_checkShard (e : Engine) (c : CombId) (pf : PartFeed) : workOf (checkShard e c pf) = workOf e := by
  dsimp only [checkShard]
  split
  · rfl
  · rw [workOf_poisonEvent, workOf_bumpComb _ _ _ (by simp)]
    exact workOf_onComb e c

@[simp] theorem workOf_countHeaders (e : Engine) (c : CombId) (n : Counts) : workOf (countHeaders e c n) = workOf e := by
  simp [countHeaders]

@[simp] theorem workOf_loadBank (e : Engine) (c : CombId) (f : FrameId) (pf : PartFeed) (i : Nat) : workOf (loadBank e c f pf i) = workOf e := by
  dsimp only [loadBank]
  split
  · rfl
  · exact (workOf_onFrame _ c f).trans (workOf_countHeaders e c _)

@[simp] theorem workOf_walkBank (e : Engine) (c : CombId) (f : FrameId) (pf : PartFeed) (i : Nat) : workOf (walkBank e c f pf i) = workOf e := by
  dsimp only [walkBank]
  split
  · rfl
  · exact workOf_onFrame _ c f

@[simp] theorem workOf_loadSmooth (e : Engine) (c : CombId) (f : FrameId) (pf : PartFeed) (i b : Nat) :
    workOf (loadSmooth e c f pf i b) = workOf e := by
  dsimp only [loadSmooth]
  split
  · rfl
  · exact workOf_onFrame _ c f

@[simp] theorem workOf_readyPart (m : Mem) (e : Engine) (c : CombId) (f : FrameId) (j : TileJob) (p : Part) :
    workOf (readyPart m e c f j p) = workOf e := by
  cases hpf : partFeed m e c j p with
  | none => simp [readyPart, hpf]
  | some pf =>
    simp only [readyPart, hpf]
    have hread : ∀ rs, workOf (if j.pass = 0 then checkShard (consume (checkSlots e c rs) c rs) c pf else e) = workOf e := fun rs => by
      split <;> simp
    split
    · rw [workOf_walkBank, workOf_loadSmooth, workOf_loadBank, hread]
    · exact hread _

@[simp] theorem workOf_freezeRings (m : Mem) (e : Engine) (c : CombId) (f : FrameId) : workOf (freezeRings m e c f) = workOf e := by
  refine workOf_foldl (fun e w => ?_) _ e
  cases descFor w.k w.role <;> simp

/-! ### What a commit counts and releases -/

@[simp] theorem workOf_countCommit (e : Engine) (c : CombId) (n : Counts) : workOf (countCommit e c n) = workOf e := by
  refine (workOf_onComb _ c).trans ?_
  rw [workOf_foldl (fun e _ => workOf_bumpComb e c _ (by simp))]
  simp

@[simp] theorem workOf_settleMarks (e : Engine) (c : CombId) (j : TileJob) (a : Attempt) : workOf (settleMarks e c j a) = workOf e := by
  have hmeta : ∀ e', workOf (onTask e' j.task fun t => { t with metaSuspect := true }) = workOf e' :=
    fun e' => workOf_onTask e' j.task
  dsimp only [settleMarks]
  split <;> split <;> simp [hmeta]

@[simp] theorem workOf_releaseInterval (e : Engine) (c : CombId) (k : Reader) : workOf (releaseInterval e c k) = workOf e :=
  workOf_foldl (fun e _ => workOf_onRing e c _ _) _ e

@[simp] theorem workOf_releaseTile (e : Engine) (c : CombId) (i tile : Nat) : workOf (releaseTile e c i tile) = workOf e :=
  workOf_foldl (fun e _ => workOf_onRing e c _ _) _ e

@[simp] theorem workOf_freeSmooth (e : Engine) (c : CombId) (f : FrameId) (i tile b : Nat) :
    workOf (onFrame e c f (freeSmooth i tile b)) = workOf e := workOf_onFrame e c f

@[simp] theorem workOf_freeBank (e : Engine) (c : CombId) (f : FrameId) (i tile : Nat) :
    workOf (onFrame e c f (freeBank i tile)) = workOf e := workOf_onFrame e c f

@[simp] theorem workOf_releasePart (e : Engine) (c : CombId) (f : FrameId) (t : TaskRec) (j : TileJob) (b : Nat) (rest : List Part) :
    workOf (releasePart e c f t j b rest) = workOf e := by
  dsimp only [releasePart]
  split
  · rfl
  · split <;> simp

@[simp] theorem workOf_unpinMb (e : Engine) (h tag n : Nat) : workOf (unpinMb e h tag n) = workOf e := by simp [unpinMb, unpin]

@[simp] theorem workOf_releaseEntry (e : Engine) (mb layer : Nat) : workOf (releaseEntry e mb layer) = workOf e :=
  workOf_congr (by simp only [releaseEntry, List.map_map]; rfl) (fun _ => rfl) (fun _ _ => rfl) rfl rfl rfl

@[simp] theorem workOf_startRotation (e : Engine) (c : CombId) (t : TaskRec) : workOf (startRotation e c t) = workOf e :=
  workOf_onComb e c

@[simp] theorem workOf_taskCommitted (e : Engine) (c : CombId) (t : TaskRec) : workOf (taskCommitted e c t) = workOf e := by
  have hpin : workOf (if tUnpin t && t.mbValid then unpinMb e t.param t.mb t.step else e) = workOf e := by split <;> simp
  have hrel : ∀ e', workOf (if tLastUse t then releaseEntry e' t.mb t.layer else e') = workOf e' := fun e' => by split <;> simp
  dsimp only [taskCommitted]
  split
  · rw [workOf_startRotation, hrel, hpin]
  · rw [hrel, hpin]

/-! ### Stores -/

@[simp] theorem workOf_dropEntry (e : Engine) (c : CombId) (en : Nat × Nat) : workOf (dropEntry e c en) = workOf e := by
  rw [dropEntry, workOf_bumpComb _ _ _ (by simp)]
  exact workOf_onComb e c

@[simp] theorem workOf_keepLine (e : Engine) (c : CombId) (d : Nat) (l : ActLine) : workOf (keepLine e c d l) = workOf e := by
  have hact : ∀ (u : Comb → List ActLine) e', workOf (onComb e' c fun cb => { cb with act := u cb }) = workOf e' := fun u e' =>
    workOf_onComb e' c
  dsimp only [keepLine]
  generalize hroom : (if (l.mb, l.layer) ∉ (actEntries (combOf e c).act).filter (fun x => x.1 == l.mb) ∧ d ≤ _ then _ else e) = e₁
  have hwork : workOf e₁ = workOf e := by
    rw [← hroom]
    split
    · split <;> simp
    · rfl
  split
  · rw [hact, hwork]
  · split
    · split
      · split
        · exact hwork
        · rw [hact, workOf_dropEntry, hwork]
      · exact hwork
    · rw [hact, hwork]

@[simp] theorem workOf_storeLine (m : Mem) (e : Engine) (c : CombId) (x : Fin 4) (i : Nat) (t : TaskRec) (l : Nat) (bs : List (Nat × Byte))
    (p : Bool) : workOf (storeLine m e c x i t l bs p) = workOf e := by
  cases p <;> cases hk : tKeep t <;> simp [storeLine, hk]

@[simp] theorem workOf_sendBit (m : Mem) (e : Engine) (w : Writer) (b : Nat) (on p : Bool) : workOf (sendBit m e w b on p) = workOf e := rfl

@[simp] theorem workOf_storeZmap (m : Mem) (e : Engine) (c : CombId) (x : Fin 4) (i : Nat) (d z : Desc) (ix zx : IxSrc)
    (l : List (Nat × Nat × Word)) : workOf (storeZmap m e c x i d z ix zx l) = workOf e := by
  dsimp only [storeZmap]
  split
  · rfl
  · refine workOf_foldl (fun e v => ?_) _ e
    cases (locate e z zx false v.2 v.1).block
    all_goals
      dsimp only
      split
      · split
        · rw [workOf_foldl (fun _ _ => by rfl), workOf_sendBit]
          simp
        · simp
      · simp
      · simp

@[simp] theorem workOf_storeOut (m : Mem) (e : Engine) (c : CombId) (x : Fin 4) (k : Ctx) (t : TaskRec) (l : List (Nat × Nat × Word))
    (p : Bool) : workOf (storeOut m e c x k t l p) = workOf e := by
  have hmark : ∀ (P : Prop) [Decidable P] e', workOf (if P then poisonEvent (markOut e' k.task) c.val codeHalted else e') = workOf e' :=
    fun P _ e' => by split <;> simp
  unfold storeOut
  split
  · rfl
  · dsimp only
    split
    · rw [workOf_storeZmap, hmark, workOf_foldl (fun _ _ => by simp)]
      simp
    · rw [hmark, workOf_foldl (fun _ _ => by simp)]
      simp

@[simp] theorem workOf_sendClear (e : Engine) (w : Writer) (a n : Nat) : workOf (sendClear e w a n) = workOf e :=
  workOf_foldl (fun _ _ => by rfl) _ e

@[simp] theorem workOf_clearRegion (e : Engine) (r : Region) : workOf (clearRegion e r) = workOf e := by
  dsimp only [clearRegion]
  split <;> simp [zeroSpilled]

@[simp] theorem workOf_scratchClear (m : Mem) (e : Engine) (t : TaskRec) (i : Nat) : workOf (scratchClear m e t i) = workOf e := by
  unfold scratchClear
  cases regionOf e t.dst with
  | none => rfl
  | some r => dsimp only; split <;> simp

@[simp] theorem workOf_takeLanded (e : Engine) (c : CombId) (f : FrameId) (k : Ctx) (t : TaskRec) :
    workOf (takeLanded e c f k t) = workOf e := by
  refine (workOf_onFrame _ c f).trans ?_
  rw [workOf_foldl fun e _ => workOf_onRing e c _ _, workOf_checkSlots]

end Sys2Proof.Machine
end

section
/-! Proofs: the commit of an interval. -/

namespace Sys2Proof.Machine

/-- A part's feed needs its context and its task. -/
theorem partFeed_of_isSome {m : Mem} {e : Engine} {c : CombId} {j : TileJob} {p : Part} (hctx : (ctxOf e c j.ctx).isSome = true)
    (htask : (taskOf e j.task).isSome = true) : ∃ pf, partFeed m e c j p = some pf := by
  obtain ⟨k, hk⟩ := Option.isSome_iff_exists.1 hctx
  obtain ⟨t, ht⟩ := Option.isSome_iff_exists.1 htask
  exact ⟨_, by rw [partFeed, hk, ht]⟩

/-- The committed part leaves its tile, and a tile without parts the frame. -/
def leaveTile (a : Attempt) (rest : List Part) (fr : Frame) : Frame :=
  let fr := onJob fr a.task a.tile fun j => joinMarks a { j with parts := rest, entered := j.entered - 1, ran := j.ran || !a.skip }
  { fr with jobs := fr.jobs.filter fun j => !j.parts.isEmpty }

/-- A committed interval joins those that wait for write-out. -/
def queueOut (e : Engine) (c : CombId) (f : FrameId) (a : Attempt) (rest : List Part) (o : OutJob) : Engine :=
  let e := onComb e c fun cb => { cb with commits := cb.commits + 1 }
  let e := if rest.isEmpty || !a.skip then onFrame e c f fun fr => { fr with out := fr.out ++ [o] } else e
  onFrame e c f (leaveTile a rest)

/-- A tile's last commit: its register bank and slots go, and the task counts the tile. -/
def closeTile (e : Engine) (c : CombId) (f : FrameId) (a : Attempt) (t : TaskRec) (mask : Nat) : Engine :=
  let e := onFrame e c f (freeBank a.task a.tile)
  let e := if t.epilogue = 0 then releaseTile e c a.task a.tile else e
  let e := onTask e a.task fun t => { t with commTiles := insertNat a.tile t.commTiles }
  match taskOf e a.task with
  | some tk => if tk.commTiles.length = tileCount t mask then taskCommitted e c t else e
  | none => e

/-- What stands between the queueing of a committed interval and the end of its tile: it is counted, marked, and its slots go. -/
def settleCommit (e : Engine) (c : CombId) (f : FrameId) (a : Attempt) (t : TaskRec) (j : TileJob) (base : Nat) (rest : List Part)
    (mark : Bool) : Engine :=
  let e := settleMarks e c j a
  let e := if a.skip then e else bumpFrame e c f .intervals 1
  let e := if mark then markOut e a.task else e
  releasePart e c f t j base rest

/-- The entry that an interval's commit makes for write-out. -/
structure CommitsTo (a : Attempt) (p : Part) (rest : List Part) (o : OutJob) : Prop where
  task : o.task = a.task
  tile : o.tile = a.tile
  reach : o.reach = p.start + p.len
  last : o.lastOfTile = rest.isEmpty
  staged : o.staged = !a.skip
  next : o.next = 0

section Commit
variable {m : Mem} {e : Engine} {c : CombId} {f : FrameId} {a : Attempt} {vals : Values} {j : TileJob} {tk : Task} {p : Part}
  {rest : List Part}

/-- A commit by its stages. -/
theorem commitPart_stages (hj : (frameOf e c f).jobs.find? (fun j => j.task == a.task && j.tile == a.tile) = some j)
    (htk : taskOf e a.task = some tk) (hp : j.parts = p :: rest) (hctx : (ctxOf e c j.ctx).isSome = true) :
    ∃ o mark mask, CommitsTo a p rest o ∧ commitPart m e c f a vals =
      let e' := settleCommit (queueOut e c f a rest o) c f a tk.record j p.base rest mark
      if rest.isEmpty then closeTile e' c f a tk.record mask else e' := by
  have hkey : j.task = a.task := by
    have := List.find?_some hj
    simp only [Bool.and_eq_true, beq_iff_eq] at this
    exact this.1
  obtain ⟨pf, hpf⟩ := partFeed_of_isSome (m := m) (p := p) hctx (by rw [hkey, htk]; rfl)
  unfold commitPart
  simp -zeta only [hj, htk, hp, hpf]
  extract_lets t last slot poison out
  refine ⟨out, poison && last && storing t, pf.mask, ⟨rfl, rfl, rfl, rfl, rfl, rfl⟩, ?_⟩
  by_cases hr : rest.isEmpty = true
  · rw [if_neg (by simpa [last] using hr)]
    dsimp only
    rw [if_pos hr]
    rfl
  · rw [if_pos (by simpa [last] using hr)]
    dsimp only
    rw [if_neg hr]
    rfl

/-- The stages after the queueing only count the interval, unless it was skipped. -/
theorem settleCommit_work (e : Engine) (c : CombId) (f : FrameId) (a : Attempt) (t : TaskRec) (j : TileJob) (b : Nat) (rest : List Part)
    (mark : Bool) : ∃ e₁, workOf e₁ = workOf e ∧
      workOf (settleCommit e c f a t j b rest mark) = workOf (if a.skip then e₁ else bumpFrame e₁ c f .intervals 1) := by
  refine ⟨settleMarks e c j a, by simp, ?_⟩
  have hmark : ∀ e', workOf (if mark then markOut e' a.task else e') = workOf e' := fun e' => by split <;> simp
  dsimp only [settleCommit]
  rw [workOf_releasePart, hmark]

/-- A tile's end only makes the task count the tile. -/
theorem closeTile_work (e : Engine) (c : CombId) (f : FrameId) (a : Attempt) (t : TaskRec) (mask : Nat) : ∃ e₁, workOf e₁ = workOf e ∧
    workOf (closeTile e c f a t mask) =
      workOf (onTask e₁ a.task fun t => { t with commTiles := insertNat a.tile t.commTiles }) := by
  refine ⟨if t.epilogue = 0 then releaseTile (onFrame e c f (freeBank a.task a.tile)) c a.task a.tile
    else onFrame e c f (freeBank a.task a.tile), by split <;> simp, ?_⟩
  dsimp only [closeTile]
  split
  · split
    · rw [workOf_taskCommitted]
    · rfl
  · rfl

@[simp] theorem ctrVal_queueOut (e : Engine) (c : CombId) (f : FrameId) (a : Attempt) (rest : List Part) (o : OutJob) (k : Ctr) :
    ctrVal (queueOut e c f a rest o) k = ctrVal e k := by
  dsimp only [queueOut]
  split <;> rfl

@[simp] theorem taskOf_queueOut (e : Engine) (c : CombId) (f : FrameId) (a : Attempt) (rest : List Part) (o : OutJob) (i : Nat) :
    taskOf (queueOut e c f a rest o) i = taskOf e i := by
  dsimp only [queueOut]
  split <;> rfl

/-- The queue of the drain unit, and the tile, after the commit of an interval with steps or of a tile's last one. -/
theorem workFrame_queueOut {e : Engine} {c : CombId} {f : FrameId} (h : HasFrame e c f) {a : Attempt} {rest : List Part} (o : OutJob)
    (hout : rest = [] ∨ a.skip = false) : workFrame (queueOut e c f a rest o) c f =
      leaveTile a rest { workFrame e c f with out := (workFrame e c f).out ++ [o] } := by
  have hq : (rest.isEmpty || !a.skip) = true := by rcases hout with h | h <;> simp [h]
  have hcomb : HasFrame (onComb e c fun cb => { cb with commits := cb.commits + 1 }) c f := h.onComb c
  dsimp only [queueOut]
  rw [if_pos hq, (hasFrame_onFrame.2 hcomb).workFrame_onFrame, hcomb.workFrame_onFrame, workFrame, frameOf_onComb, ← workFrame]

/-- An interval's commit (R102, R153): what waits for write-out, the tiles of the frame, the counts, and with a tile's last interval the
progress of its task. -/
theorem commitPart_spec (h : HasFrame e c f)
    (hj : (frameOf e c f).jobs.find? (fun j => j.task == a.task && j.tile == a.tile) = some j)
    (htk : taskOf e a.task = some tk) (hp : j.parts = p :: rest) (hctx : (ctxOf e c j.ctx).isSome = true)
    (hout : rest = [] ∨ a.skip = false) : ∃ o, CommitsTo a p rest o ∧
      workFrame (commitPart m e c f a vals) c f = leaveTile a rest { workFrame e c f with out := (workFrame e c f).out ++ [o] } ∧
      (∀ k, workCtr k = true → ctrVal (commitPart m e c f a vals) k = ctrVal (if a.skip then e else bumpFrame e c f .intervals 1) k) ∧
      (rest = [] → ∃ tk', taskOf (commitPart m e c f a vals) a.task = some tk' ∧ a.tile ∈ tk'.commTiles) := by
  obtain ⟨o, mark, mask, ho, hstages⟩ := commitPart_stages (m := m) (vals := vals) hj htk hp hctx
  obtain ⟨e₁, he₁, hsettle⟩ := settleCommit_work (queueOut e c f a rest o) c f a tk.record j p.base rest mark
  obtain ⟨e₂, he₂, hclose⟩ := closeTile_work (settleCommit (queueOut e c f a rest o) c f a tk.record j p.base rest mark) c f a tk.record mask
  have hframe : workFrame (settleCommit (queueOut e c f a rest o) c f a tk.record j p.base rest mark) c f =
      leaveTile a rest { workFrame e c f with out := (workFrame e c f).out ++ [o] } := by
    rw [workFrame_of_workOf hsettle, ← workFrame_queueOut h o hout, ← workFrame_of_workOf he₁]
    split
    · rfl
    · simp [workFrame, bumpFrame]
  have hcount : ∀ k, workCtr k = true → ctrVal (settleCommit (queueOut e c f a rest o) c f a tk.record j p.base rest mark) k =
      ctrVal (if a.skip then e else bumpFrame e c f .intervals 1) k := fun k hk => by
    have hq : ∀ q, workCtr q = true → ctrVal e₁ q = ctrVal e q := fun q hq => by rw [ctrVal_of_workOf he₁ hq, ctrVal_queueOut]
    rw [ctrVal_of_workOf hsettle hk]
    split
    · exact hq k hk
    · simp only [bumpFrame, ctrVal_bump_one, hq k hk, hq (.frame c f .intervals) rfl]
  refine ⟨o, ho, ?_⟩
  rw [hstages]
  dsimp only
  by_cases hr : rest.isEmpty = true
  · rw [if_pos hr]
    refine ⟨?_, fun k hk => ?_, fun _ => ?_⟩
    · rw [workFrame_of_workOf hclose, workFrame, frameOf_onTask, ← workFrame, workFrame_of_workOf he₂, hframe]
    · rw [ctrVal_of_workOf hclose hk, ctrVal_onTask, ctrVal_of_workOf he₂ hk, hcount k hk]
    · obtain ⟨t₁, ht₁⟩ : ∃ t₁, taskOf e₂ a.task = some t₁ := by
        obtain ⟨t₀, ht₀, -⟩ := taskOf_some_of_workOf he₁ ((taskOf_queueOut _ _ _ _ _ _ _).trans htk)
        obtain ⟨t₁, ht₁, -⟩ := taskOf_some_of_workOf hsettle (t := t₀) (by split <;> simpa [bumpFrame] using ht₀)
        obtain ⟨t₂, ht₂, -⟩ := taskOf_some_of_workOf he₂ ht₁
        exact ⟨t₂, ht₂⟩
      obtain ⟨t₂, ht₂, hw⟩ := taskOf_some_of_workOf hclose ((taskOf_onTask_self e₂ a.task).trans (congrArg _ ht₁))
      refine ⟨t₂, ht₂, ?_⟩
      have hcomm : t₂.commTiles = insertNat a.tile t₁.commTiles := congrArg (fun w => w.2.1) hw
      rw [hcomm]
      exact mem_insertNat.2 (.inl rfl)
  · rw [if_neg hr]
    exact ⟨hframe, hcount, fun hnil => absurd (by simp [hnil]) hr⟩

end Commit

end Sys2Proof.Machine
end

section
/-! Proofs: check mismatches, their retry and the fence that a second one closes. -/

namespace Sys2Proof.Machine

/-! ### The fence -/

/-- The end of a fence: the error bits, the record at the trace point, and the stop once no comb is left. -/
def closeFence (e : Engine) (c : CombId) (cause frame : Nat) : Engine :=
  let e := raiseErr e errFence
  let e := if cause = 3 then raiseErr e errFrameFault else e
  let e := logEvent e 50 0x0002 0 [BitVec.ofNat 8 c.val, BitVec.ofNat 8 cause, BitVec.ofNat 8 frame]
  if (enabledCombs e).isEmpty then askStop (raiseErr e errCombLost) codeCombLost 0xF0 noTask else e

@[simp] theorem closeFence_fences (e : Engine) (c : CombId) (cause frame : Nat) : (closeFence e c cause frame).fences = e.fences := by
  dsimp only [closeFence]
  split <;> split <;> simp

/-- A frame fault sets FENCE and FRAME_FAULT (R413, R422). -/
theorem errBit_closeFence (e : Engine) (c : CombId) (frame : Nat) :
    errBit (closeFence e c 3 frame) errFence = true ∧ errBit (closeFence e c 3 frame) errFrameFault = true := by
  dsimp only [closeFence]
  rw [if_pos rfl]
  split <;> simp [errBit_raiseErr, errFence, errFrameFault, errCombLost]

@[simp] theorem sendClear_fences (e : Engine) (w : Writer) (a n : Nat) : (sendClear e w a n).fences = e.fences :=
  foldl_keeps Engine.fences (fun _ _ => by rfl) _ e

@[simp] theorem placeAt_fences (e : Engine) (r : Region) (o : Option CombId) : (placeAt e r o).fences = e.fences := by
  cases o <;> simp [placeAt, zeroSpilled]

@[simp] theorem replaceRegion_fences (e : Engine) (c : CombId) (r : Region) : (replaceRegion e c r).fences = e.fences := by
  unfold replaceRegion
  cases e.sch.run <;> simp

@[simp] theorem replaceRegions_fences (e : Engine) (c : CombId) : (replaceRegions e c).1.fences = e.fences := by
  unfold replaceRegions
  cases e.sch.run with
  | none => rfl
  | some g => exact foldl_keeps Engine.fences (fun e r => replaceRegion_fences e c r) _ e

@[simp] theorem tellLeader_fences (e : Engine) (b : Bucket) (op n : Nat) : (tellLeader e b op n).fences = e.fences := by
  unfold tellLeader
  cases groupAt e b.group b.generation with
  | none => rfl
  | some g => dsimp only [sendUp]; split <;> rfl

@[simp] theorem fenceBuckets_fences (e : Engine) (c : CombId) : (fenceBuckets e c).fences = e.fences := by
  refine foldl_keeps Engine.fences (fun e b => ?_) _ e
  unfold failBucket
  split
  · rfl
  · rw [tellLeader_fences]; rfl

@[simp] theorem reissue_fences (e : Engine) (i : Nat) (whole : Bool) : (reissue e i whole).fences = e.fences := by
  unfold reissue
  split
  · rfl
  · split
    · simp
    · split <;> simp

@[simp] theorem coverShard_fences (e : Engine) (c : CombId) (o : Option Carousel) : (coverShard e c o).fences = e.fences := by
  unfold coverShard
  split <;> rfl

/-- A fence by its end: what comes before changes no fence but the comb's own (R413). -/
theorem fenceComb_stages (e : Engine) (c : CombId) (cause frame : Nat) : ∃ e₀,
    e₀.fences = updAt e.fences c.val (fun _ => { cause := cause, frame := frame }) ∧
    fenceComb e c cause frame = closeFence e₀ c cause frame := by
  unfold fenceComb
  extract_lets
  refine ⟨_, ?_, rfl⟩
  rw [coverShard_fences, foldl_keeps Engine.fences (fun e i => reissue_fences e i _), foldl_keeps Engine.fences (fun _ _ => by rfl),
    foldl_keeps Engine.fences (fun _ _ => by rfl)]
  refine (replaceRegions_fences _ c).trans ?_
  rw [fenceBuckets_fences]
  rfl

/-- The fence of a comb whose frame has a fault, and the others' (R413). -/
theorem fenceComb_spec {e : Engine} {c : CombId} {frame : Nat} (hc : c.val < e.fences.length) :
    fenceOf (fenceComb e c 3 frame) c = { cause := 3, frame := frame, pending := false } ∧
    (∀ d, d ≠ c → fenceOf (fenceComb e c 3 frame) d = fenceOf e d) ∧
    errBit (fenceComb e c 3 frame) errFence = true ∧ errBit (fenceComb e c 3 frame) errFrameFault = true := by
  obtain ⟨e₀, hfences, hstages⟩ := fenceComb_stages e c 3 frame
  obtain ⟨hfence, hfault⟩ := errBit_closeFence e₀ c frame
  rw [hstages]
  refine ⟨?_, fun d hd => ?_, hfence, hfault⟩
  · simp [fenceOf, hfences, updAt_getElem?, List.getElem?_eq_getElem hc]
  · simp [fenceOf, hfences, updAt_getElem?, Fin.val_ne_of_ne (Ne.symm hd)]

/-! ### Mismatches -/

/-- The engine once the lane mismatch, if there was one, has counted (R407). -/
def laneSeen (e : Engine) (c : CombId) (lane : LaneFault) : Engine := if lane then laneEvent (bumpComb e c .laneMismatch 1) else e

/-- The engine with a mismatch recorded for a frame: where it was located, and when it came (R411, R412). -/
def recordMismatch (e : Engine) (c : CombId) (f : FrameId) (w : Word) : Engine :=
  onFrame (onComb e c fun cb => { cb with checkLast := w }) c f fun fr => { fr with mismatch := some e.hub.cycle }

/-- The retry of a task's work counted (R411). -/
def countRetry (e : Engine) (c : CombId) (i : Nat) : Engine :=
  onTask (raiseErr (bumpComb e c .checkRetries 1) errCheckRetry) i fun t => { t with replays := min 0xFFFF (t.replays + 1) }

/-- An earlier mismatch of the frame lies within the window of R412. -/
def Recurs (e : Engine) (c : CombId) (f : FrameId) : Prop := ∃ x, (frameOf e c f).mismatch = some x ∧ e.hub.cycle ≤ x + 1250000

theorem not_recurs_iff {e : Engine} {c : CombId} {f : FrameId} :
    ¬ Recurs e c f ↔ ∀ x, (frameOf e c f).mismatch = some x → x + 1250000 < e.hub.cycle := by
  simp [Recurs]

section LaneSeen
variable (e : Engine) (c : CombId) (lane : LaneFault)

@[simp] theorem frameOf_laneSeen (d : CombId) (f : FrameId) : frameOf (laneSeen e c lane) d f = frameOf e d f := by
  cases lane <;> simp [laneSeen, laneEvent, bumpComb]
@[simp] theorem taskOf_laneSeen (i : Nat) : taskOf (laneSeen e c lane) i = taskOf e i := by
  cases lane <;> simp [laneSeen, laneEvent, bumpComb]
@[simp] theorem hasFrame_laneSeen {d : CombId} {f : FrameId} : HasFrame (laneSeen e c lane) d f ↔ HasFrame e d f := by
  cases lane <;> simp [laneSeen, laneEvent, bumpComb]
@[simp] theorem laneSeen_fences : (laneSeen e c lane).fences = e.fences := by
  cases lane <;> simp [laneSeen, laneEvent, bumpComb]
@[simp] theorem laneSeen_mp : (laneSeen e c lane).mp = e.mp := by
  cases lane <;> simp [laneSeen, laneEvent, bumpComb]
@[simp] theorem laneSeen_boot : (laneSeen e c lane).boot = e.boot := by
  cases lane <;> simp [laneSeen, laneEvent, bumpComb]
@[simp] theorem regionOf_laneSeen (h : Nat) : regionOf (laneSeen e c lane) h = regionOf e h := by
  cases lane <;> simp [laneSeen, laneEvent, bumpComb]
@[simp] theorem laneSeen_cycle : (laneSeen e c lane).hub.cycle = e.hub.cycle := by
  cases lane <;> simp [laneSeen, laneEvent, bumpComb, raiseErr]
@[simp] theorem ctrVal_laneSeen (k : Ctr) : ctrVal (laneSeen e c lane) k =
    if lane = true ∧ k = .comb c .laneMismatch then min 255 (ctrVal e (.comb c .laneMismatch) + 1) else ctrVal e k := by
  cases lane <;> simp [laneSeen, laneEvent, bumpComb, combCtrWidth]
theorem errBit_laneSeen : errBit (laneSeen e c true) errLaneMismatch = true := by
  simp [laneSeen, laneEvent, errBit_raiseErr, errLaneMismatch]
theorem laneSeen_false : laneSeen e c false = e := rfl

end LaneSeen

section RecordMismatch
variable {e : Engine} {c : CombId} {f : FrameId} (w : Word)

theorem HasFrame.recordMismatch (h : HasFrame e c f) : HasFrame (recordMismatch e c f w) c f := hasFrame_onFrame.2 (h.onComb c)

theorem frameOf_recordMismatch (h : HasFrame e c f) :
    frameOf (recordMismatch e c f w) c f = { frameOf e c f with mismatch := some e.hub.cycle } := by
  rw [Machine.recordMismatch, (h.onComb c).frameOf_onFrame, frameOf_onComb]

end RecordMismatch

/-- A mismatch is retried, or it fences the comb (R411, R412). -/
theorem mismatch_cases (e : Engine) (c : CombId) (f : FrameId) (a : Attempt) : ∃ w,
    (Recurs e c f → mismatch e c f a = fenceComb (recordMismatch e c f w) c 3 f.val) ∧
    (¬ Recurs e c f → mismatch e c f a = onFrame (countRetry (recordMismatch e c f w) c a.task) c f (abandon a)) := by
  refine ⟨w32 (at' f.val 24 + at' ((checkOf a).locate (!a.sc.lane.isEmpty)).1 8 + ((checkOf a).locate (!a.sc.lane.isEmpty)).2), ?_, ?_⟩
  · rintro ⟨x, hx, hcycle⟩
    simp [mismatch, frameOf_onComb, hx, Config.checkWindow, hcycle, recordMismatch]
  · intro h
    cases hx : (frameOf e c f).mismatch with
    | none => simp [mismatch, frameOf_onComb, hx, recordMismatch, countRetry]
    | some x =>
      have hcycle := not_recurs_iff.1 h x hx
      simp [mismatch, frameOf_onComb, hx, Config.checkWindow, Nat.not_le.2 hcycle, recordMismatch, countRetry]

/-- The same for the drain unit's own lane mismatch, whose work stays for the retry (R407, assumptions/34). -/
theorem drainLane_cases (e : Engine) (c : CombId) (f : FrameId) (i : Nat) : ∃ w,
    (Recurs e c f → drainLane e c f i = fenceComb (recordMismatch (laneSeen e c true) c f w) c 3 f.val) ∧
    (¬ Recurs e c f → drainLane e c f i = countRetry (recordMismatch (laneSeen e c true) c f w) c i) := by
  have hframe : frameOf (laneEvent (bumpComb e c .laneMismatch 1)) c f = frameOf e c f := frameOf_laneSeen e c true c f
  have hcyc : (laneEvent (bumpComb e c .laneMismatch 1)).hub.cycle = e.hub.cycle := laneSeen_cycle e c true
  refine ⟨w32 (at' f.val 24 + at' 127 8 + 127), ?_, ?_⟩
  · rintro ⟨x, hx, hcycle⟩
    simp [drainLane, frameOf_onComb, hframe, hcyc, hx, Config.checkWindow, hcycle, recordMismatch, laneSeen]
  · intro h
    cases hx : (frameOf e c f).mismatch with
    | none => simp [drainLane, frameOf_onComb, hframe, hx, recordMismatch, countRetry, laneSeen]
    | some x =>
      have hcycle := not_recurs_iff.1 h x hx
      simp [drainLane, frameOf_onComb, hframe, hcyc, hx, Config.checkWindow, Nat.not_le.2 hcycle, recordMismatch, countRetry, laneSeen]

/-- The engine after a mismatch that is retried. -/
structure Retried (e e' : Engine) (c : CombId) (f : FrameId) (lane : LaneFault) : Prop where
  hasFrame : HasFrame e' c f
  frame : frameOf e' c f = { frameOf e c f with mismatch := some e.hub.cycle }
  retries : ctrVal e' (.comb c .checkRetries) = min 255 (ctrVal e (.comb c .checkRetries) + 1)
  lanes : lane = true → ctrVal e' (.comb c .laneMismatch) = min 255 (ctrVal e (.comb c .laneMismatch) + 1)
  retryBit : errBit e' errCheckRetry = true
  laneBit : lane = true → errBit e' errLaneMismatch = true
  fences : e'.fences = e.fences
  mp : e'.mp = e.mp
  tasks : ∀ i, (taskOf e' i).map taskWork = (taskOf e i).map taskWork

theorem retried_countRetry {e : Engine} {c : CombId} {f : FrameId} (h : HasFrame e c f) (lane : LaneFault) (w : Word) (i : Nat) :
    Retried e (countRetry (recordMismatch (laneSeen e c lane) c f w) c i) c f lane := by
  have hseen : HasFrame (laneSeen e c lane) c f := (hasFrame_laneSeen e c lane).2 h
  have hrec : ∀ k, ctrVal (recordMismatch (laneSeen e c lane) c f w) k = ctrVal (laneSeen e c lane) k := fun _ => rfl
  have hbit : ∀ b, errBit (countRetry (recordMismatch (laneSeen e c lane) c f w) c i) b =
      (errBit (laneSeen e c lane) b || decide (errCheckRetry = b)) := fun b => by
    refine (errBit_raiseErr _ (by decide) b).trans (congrArg (· || _) (errBit_congr ?_ b))
    simp [bumpComb, recordMismatch]
  refine ⟨?_, ?_, ?_, ?_, ?_, ?_, ?_, ?_, fun t => ?_⟩
  · simpa [countRetry, bumpComb] using hseen.recordMismatch w
  · simp [countRetry, bumpComb, frameOf_recordMismatch w hseen]
  · simp [countRetry, bumpComb, hrec, combCtrWidth]
  · rintro rfl
    simp [countRetry, bumpComb, hrec]
  · simp [hbit]
  · rintro rfl
    simp [hbit, errBit_laneSeen]
  · simp [countRetry, bumpComb, recordMismatch]
  · simp [countRetry, bumpComb, recordMismatch]
  · have htask : taskOf (raiseErr (bumpComb (recordMismatch (laneSeen e c lane) c f w) c .checkRetries 1) errCheckRetry) t = taskOf e t := by
      simp [bumpComb, recordMismatch]
    exact (taskWork_of_workOf (workOf_onTask _ i) t).trans (congrArg _ htask)

end Sys2Proof.Machine
end

section
/-! Proofs: the verdict on an interval. -/

namespace Sys2Proof.Machine

theorem exec_intervalVerdict (c : CombId) (f : FrameId) (lane : LaneFault) (s : State) :
    exec (.intervalVerdict c f lane) s = .next (withEng s (verdict s.mem s.eng c f lane)) := rfl

/-! ### Tiles by task and number -/

/-- The tile of an attempt. -/
def ofAttempt (a : Attempt) (j : TileJob) : Bool := j.task == a.task && j.tile == a.tile

/-- The attempt's tile, found again after a change of it. -/
theorem find?_onJob (fr : Frame) (a : Attempt) {g : TileJob → TileJob} (hg : ∀ j, ofAttempt a (g j) = ofAttempt a j) :
    (onJob fr a.task a.tile g).jobs.find? (ofAttempt a) = (fr.jobs.find? (ofAttempt a)).map g :=
  updFirst_find? _ _ _ fun j hj => (hg j).trans hj

/-- The attempt's tile among tiles changed alike. -/
theorem find?_map_jobs (l : List TileJob) (a : Attempt) {g : TileJob → TileJob} (hg : ∀ j, ofAttempt a (g j) = ofAttempt a j) :
    (l.map g).find? (ofAttempt a) = (l.find? (ofAttempt a)).map g := by
  rw [List.find?_map]
  exact congrArg (fun q => (l.find? q).map g) (funext hg)

/-- A failed interval runs again from its first part (R103). -/
theorem runAgain_frame {e : Engine} {c : CombId} {f : FrameId} (h : HasFrame e c f) {a : Attempt} {j : TileJob} {p : Part} {ps : List Part}
    (hj : (frameOf e c f).jobs.find? (ofAttempt a) = some j) (hp : j.parts = p :: ps) (parts : Part → List Part) :
    (frameOf (runAgain e c f a parts) c f).mode = .replayFlush ∧ (frameOf (runAgain e c f a parts) c f).flight = [] ∧
    (frameOf (runAgain e c f a parts) c f).out = (frameOf e c f).out ∧
    ∃ k, (frameOf (runAgain e c f a parts) c f).jobs.find? (ofAttempt a) = some k ∧ k.entered = 0 ∧ k.parts = parts p ++ ps := by
  have hframe : frameOf (runAgain e c f a parts) c f = _ := h.frameOf_onFrame _
  rw [hframe]
  refine ⟨rfl, rfl, rfl, { j with parts := parts p ++ ps, entered := 0, pass := 0 }, ?_, rfl, rfl⟩
  refine (find?_map_jobs _ a fun _ => by rfl).trans ?_
  rw [find?_onJob _ a fun _ => by rfl, hj]
  simp [hp]

/-! ### What a verdict does -/

/-- An attempt that ran above level 0 counts as replayed, and nothing else of the work in hand changes (R179). -/
theorem ctrVal_countReplay (e : Engine) (c : CombId) (f : FrameId) (a : Attempt) (k : Ctr) : ctrVal (countReplay e c f a) k =
    if a.level ≠ 0 ∧ k = .frame c f .ovfReplays then min 65535 (ctrVal e (.frame c f .ovfReplays) + 1) else ctrVal e k := by
  by_cases hl : a.level = 0 <;> simp [countReplay, hl, bumpFrame, ctrMax, ctrWidth]

@[simp] theorem frameOf_countReplay (e : Engine) (c d : CombId) (f g : FrameId) (a : Attempt) :
    frameOf (countReplay e c f a) d g = frameOf e d g := by
  by_cases hl : a.level = 0 <;> simp [countReplay, hl, bumpFrame]

@[simp] theorem hasFrame_countReplay {e : Engine} {c d : CombId} {f g : FrameId} {a : Attempt} :
    HasFrame (countReplay e c f a) d g ↔ HasFrame e d g := by
  by_cases hl : a.level = 0 <;> simp [countReplay, hl, bumpFrame]

@[simp] theorem ctxOf_countReplay (e : Engine) (c d : CombId) (f : FrameId) (a : Attempt) (x : Fin 4) :
    ctxOf (countReplay e c f a) d x = ctxOf e d x := by
  by_cases hl : a.level = 0 <;> simp [countReplay, hl, bumpFrame, ctxOf, combOf]

theorem taskWork_countReplay (e : Engine) (c : CombId) (f : FrameId) (a : Attempt) (i : Nat) :
    (taskOf (countReplay e c f a) i).map taskWork = (taskOf e i).map taskWork := by
  by_cases hl : a.level = 0
  · simp [countReplay, hl]
  · simp only [countReplay, hl, if_false]
    exact (taskWork_of_workOf (workOf_onTask _ a.task) i).trans (by simp [bumpFrame])

section Verdict
variable {m : Mem} {e : Engine} {c : CombId} {f : FrameId} {lane : LaneFault} {a : Attempt} {tk : Task} {j : TileJob} {p : Part}
  {ps : List Part}

/-- The verdict on a due attempt by what its checks, its flags and its underflows say. -/
theorem verdict_of_due (hw : works e c = true) (hd : verdictDue (frameOf e c f) = some a) (ht : taskOf e a.task = some tk)
    (hj : (frameOf e c f).jobs.find? (ofAttempt a) = some j) (hp : j.parts = p :: ps) :
    (lane = true ∨ (checkOf a).ok = false → verdict m e c f lane = mismatch (laneSeen e c lane) c f a) ∧
    (lane = false → (checkOf a).ok = true →
      (a.reads.any ReadLine.ovf = true → verdict m e c f lane = overflow e c f a) ∧
      (a.reads.any ReadLine.ovf = false →
        (a.pass ≠ .high ∧ a.ranks = a.rank + 1 ∧ underflows e a p.split = true → verdict m e c f lane = wideRerun e c f a) ∧
        (a.pass = .high ∨ a.rank + 1 < a.ranks ∨ underflows e a p.split = false →
          verdict m e c f lane = pass m e c f a tk.record (maskOf e tk.record)))) := by
  have hj' : (frameOf e c f).jobs.find? (fun j => j.task == a.task && j.tile == a.tile) = some j := hj
  refine ⟨fun hbad => ?_, fun hlane hok => ⟨fun hovf => ?_, fun hovf => ⟨fun ⟨hpass, hrank, hunder⟩ => ?_, fun hkeep => ?_⟩⟩⟩
  · have hcond : (lane || !(checkOf a).ok) = true := by rcases hbad with h | h <;> simp [h]
    simp only [verdict, hw, hd, ht, hcond, laneSeen]
    rfl
  · subst hlane
    simp [verdict, hw, hd, ht, hok, hovf]
  · subst hlane
    simp [verdict, hw, hd, ht, hok, hovf, hj', hp, hpass, hrank, hunder]
  · subst hlane
    have hcond : (a.pass != .high && a.rank + 1 == a.ranks && underflows e a p.split) = false := by
      rcases hkeep with h | h | h
      · simp [h]
      · simp [Nat.ne_of_lt h]
      · simp [h]
    simp only [verdict, hw, hd, ht, hok, hovf, hj', hp, hcond, Bool.not_true, Bool.or_self, Bool.false_eq_true, if_false]


/-- An overflow takes the interval to level 1, or splits it (R176). -/
theorem overflow_spec (h : HasFrame e c f) (hj : (frameOf e c f).jobs.find? (ofAttempt a) = some j) (hp : j.parts = p :: ps) :
    (frameOf (overflow e c f a) c f).mode = .replayFlush ∧ (frameOf (overflow e c f a) c f).flight = [] ∧
    (frameOf (overflow e c f a) c f).out = (frameOf e c f).out ∧
    (∃ k, (frameOf (overflow e c f a) c f).jobs.find? (ofAttempt a) = some k ∧ k.entered = 0 ∧
      k.parts = (if a.level = 0 then [{ p with level := 1 }] else splitPart p) ++ ps) ∧
    ctrVal (overflow e c f a) (.frame c f .splits) =
      if a.level = 0 then ctrVal e (.frame c f .splits) else min 65535 (ctrVal e (.frame c f .splits) + 1) := by
  have hrun := fun parts => runAgain_frame (hasFrame_countReplay.2 h) ((congrArg _ (congrArg Frame.jobs (frameOf_countReplay e c c f f a))).trans hj)
    hp parts
  have hctr : ∀ parts, ctrVal (runAgain (countReplay e c f a) c f a parts) (.frame c f .splits) = ctrVal e (.frame c f .splits) :=
    fun parts => by simp [runAgain, ctrVal_countReplay]
  by_cases hl : a.level = 0
  · obtain ⟨hmode, hflight, hout, hk⟩ := hrun fun p => [{ p with level := 1 }]
    simp only [overflow, hl, if_true]
    exact ⟨hmode, hflight, hout.trans (by simp), hk, hctr _⟩
  · obtain ⟨hmode, hflight, hout, hk⟩ := hrun splitPart
    simp only [overflow, hl, if_false, bumpFrame, frameOf_bump]
    exact ⟨hmode, hflight, hout.trans (by simp), hk, by simp [hctr, ctrMax, ctrWidth]⟩

/-- The later intervals of a task settle their width anew (R189). -/
def unsettle (i : Nat) (j : TileJob) : TileJob := if j.task = i then { j with parts := j.parts.map fun p => { p with begun := false } } else j

theorem ofAttempt_unsettle (a : Attempt) (i : Nat) (j : TileJob) : ofAttempt a (unsettle i j) = ofAttempt a j := by
  unfold unsettle
  split <;> rfl

/-- A wide re-run by its stages. -/
theorem wideRerun_stages (e : Engine) (c : CombId) (f : FrameId) (a : Attempt) : ∃ e₁,
    wideRerun e c f a = runAgain e₁ c f a (fun p => [{ p with wide := true, begun := true }]) ∧
    (∀ k, ctrVal e₁ k = ctrVal (bumpComb e c .wideReruns 1) k) ∧ (HasFrame e c f → HasFrame e₁ c f ∧
    frameOf e₁ c f = { frameOf e c f with jobs := (frameOf e c f).jobs.map (unsettle a.task) }) := by
  refine ⟨_, rfl, fun k => ?_, fun h => ?_⟩
  · split
    · split <;> rfl
    · rfl
  · have hbump : HasFrame (bumpComb e c .wideReruns 1) c f := hasFrame_bump.2 h
    have hframe : frameOf (onFrame (bumpComb e c .wideReruns 1) c f fun fr => { fr with jobs := fr.jobs.map (unsettle a.task) }) c f =
        { frameOf e c f with jobs := (frameOf e c f).jobs.map (unsettle a.task) } := by
      rw [hbump.frameOf_onFrame, bumpComb, frameOf_bump]
    split
    · split
      · exact ⟨(hasFrame_onFrame.2 hbump).onComb c, (frameOf_onComb _ _ _ _).trans hframe⟩
      · exact ⟨hasFrame_onFrame.2 hbump, hframe⟩
    · exact ⟨hasFrame_onFrame.2 hbump, hframe⟩

/-- An attempt that underflows runs again as S16 (R180). -/
theorem wideRerun_spec (h : HasFrame e c f) (hj : (frameOf e c f).jobs.find? (ofAttempt a) = some j) (hp : j.parts = p :: ps) :
    (frameOf (wideRerun e c f a) c f).mode = .replayFlush ∧ (frameOf (wideRerun e c f a) c f).flight = [] ∧
    (frameOf (wideRerun e c f a) c f).out = (frameOf e c f).out ∧
    (∃ k, (frameOf (wideRerun e c f a) c f).jobs.find? (ofAttempt a) = some k ∧ k.entered = 0 ∧
      k.parts = { p with wide := true, begun := true } :: ps.map fun q => { q with begun := false }) ∧
    ctrVal (wideRerun e c f a) (.comb c .wideReruns) = min 65535 (ctrVal e (.comb c .wideReruns) + 1) := by
  obtain ⟨e₁, hstages, hctr, hframe⟩ := wideRerun_stages e c f a
  obtain ⟨h₁, hf₁⟩ := hframe h
  have htask : j.task = a.task := by
    have hof := List.find?_some hj
    simp only [ofAttempt, Bool.and_eq_true, beq_iff_eq] at hof
    exact hof.1
  have hj₁ : (frameOf e₁ c f).jobs.find? (ofAttempt a) = some (unsettle a.task j) := by
    rw [hf₁, find?_map_jobs _ a (ofAttempt_unsettle a a.task), hj]; rfl
  have hp₁ : (unsettle a.task j).parts = { p with begun := false } :: ps.map fun q => { q with begun := false } := by
    simp [unsettle, htask, hp]
  obtain ⟨hmode, hflight, hout, hk⟩ := runAgain_frame h₁ hj₁ hp₁ fun p => [{ p with wide := true, begun := true }]
  rw [hstages]
  exact ⟨hmode, hflight, hout.trans (by rw [hf₁]), hk, (hctr _).trans (by simp [bumpComb, combCtrWidth])⟩

/-- A pass that is not the interval's last is held by the drain unit (R92, R140). -/
theorem pass_held (e : Engine) (c : CombId) (f : FrameId) (t : TaskRec) (mask : Nat) :
    (a.pass = .high → pass m e c f a t mask =
      onFrame e c f fun fr => { fr with flight := fr.flight.tail, high := corrected a.dirCols t mask a }) ∧
    (a.pass ≠ .high → a.rank + 1 < a.ranks → pass m e c f a t mask = onFrame e c f fun fr =>
      { fr with flight := fr.flight.tail, high := [], passes := (frameOf e c f).passes ++ [(dequant a.dirCols a.sc (if a.pass = .low
        then widen16 (frameOf e c f).high (corrected a.dirCols t mask a) else corrected a.dirCols t mask a), a.sc)] }) := by
  refine ⟨fun hpass => ?_, fun hpass hrank => ?_⟩
  · simp only [pass, hpass, if_true]
  · simp only [pass, hpass, hrank, if_false, if_true]

/-- An attempt that is due has steps (R101). -/
theorem skip_of_verdictDue {fr : Frame} (hd : verdictDue fr = some a) : a.skip = false := by
  unfold verdictDue at hd
  split at hd
  · split at hd
    · next b _ _ hb =>
      obtain rfl : b = a := by simpa using hd
      simp only [Bool.and_eq_true, Bool.not_eq_true'] at hb
      exact hb.1.1.1
    · simp at hd
  · simp at hd

/-- The attempt at the front has left the flight. -/
def popFlight (fr : Frame) : Frame := { fr with flight := fr.flight.tail, high := [], passes := [] }

/-- The last pass of an interval is its commit. -/
theorem pass_eq_commitPart (hpass : a.pass ≠ .high) (hrank : a.ranks = a.rank + 1) (t : TaskRec) (mask : Nat) :
    ∃ vals, pass m e c f a t mask = commitPart m (onFrame (countReplay e c f a) c f popFlight) c f a vals :=
  ⟨_, by simp only [pass, hpass, if_false, hrank, Nat.lt_irrefl, commit]; rfl⟩

/-- The last pass of an interval commits it (R102, R179). -/
theorem pass_commits (h : HasFrame e c f) (hskip : a.skip = false) (ht : taskOf e a.task = some tk)
    (hj : (frameOf e c f).jobs.find? (ofAttempt a) = some j) (hp : j.parts = p :: ps) (hctx : (ctxOf e c j.ctx).isSome = true)
    (hpass : a.pass ≠ .high) (hrank : a.ranks = a.rank + 1) (t : TaskRec) (mask : Nat) :
    ∃ o, CommitsTo a p ps o ∧ (frameOf (pass m e c f a t mask) c f).flight = (frameOf e c f).flight.tail ∧
      (frameOf (pass m e c f a t mask) c f).out = (frameOf e c f).out ++ [o] ∧
      (frameOf (pass m e c f a t mask) c f).mode = (frameOf e c f).mode ∧
      ctrVal (pass m e c f a t mask) (.frame c f .intervals) = min (2 ^ 32 - 1) (ctrVal e (.frame c f .intervals) + 1) ∧
      ctrVal (pass m e c f a t mask) (.frame c f .ovfReplays) =
        if a.level = 0 then ctrVal e (.frame c f .ovfReplays) else min 65535 (ctrVal e (.frame c f .ovfReplays) + 1) := by
  have hcount : HasFrame (countReplay e c f a) c f := hasFrame_countReplay.2 h
  obtain ⟨t', ht', -⟩ : ∃ t', taskOf (countReplay e c f a) a.task = some t' ∧ taskWork t' = taskWork tk :=
    Option.map_eq_some_iff.1 ((taskWork_countReplay e c f a a.task).trans (congrArg _ ht))
  have hpop : frameOf (onFrame (countReplay e c f a) c f popFlight) c f = popFlight (frameOf e c f) := by
    rw [hcount.frameOf_onFrame, frameOf_countReplay]
  have hj' : (frameOf (onFrame (countReplay e c f a) c f popFlight) c f).jobs.find? (ofAttempt a) = some j := by rw [hpop]; exact hj
  obtain ⟨vals, hvals⟩ := pass_eq_commitPart (m := m) (e := e) (c := c) (f := f) hpass hrank t mask
  obtain ⟨o, ho, hframe, hctr, -⟩ := commitPart_spec (m := m) (vals := vals) (hasFrame_onFrame.2 hcount) hj' ht' hp (by simpa using hctx)
    (.inr hskip)
  rw [workFrame, workFrame, hpop, ← hvals] at hframe
  rw [← hvals, hskip] at hctr
  refine ⟨o, ho, congrArg Frame.flight hframe, congrArg Frame.out hframe, (congrArg Frame.mode hframe :), ?_, ?_⟩
  · rw [hctr _ rfl]
    simp [bumpFrame, ctrVal_countReplay, ctrMax, ctrWidth]
  · rw [hctr _ rfl]
    by_cases hl : a.level = 0 <;> simp [bumpFrame, ctrVal_countReplay, hl]

end Verdict

/-- Settles O31: the verdict by its cases (`verdict_of_due`), and each case by the lemma of its outcome. -/
theorem verdictRetriesHalvesCommits : Obligations.VerdictRetriesHalvesCommits := by
  unfold Obligations.VerdictRetriesHalvesCommits
  rintro s c f lane fr a tk j p ps rfl hw hcombs hfences hframes hdue htask hj hp
  have h : HasFrame s.eng c f := hasFrame_of_lengths f hcombs hframes
  obtain ⟨hbad, hgood⟩ := verdict_of_due (m := s.mem) (lane := lane) hw hdue htask hj hp
  have hskip := skip_of_verdictDue hdue
  simp only [exec_intervalVerdict]
  refine ⟨fun hfail => ⟨fun hfirst => ?_, fun hagain => ?_⟩, fun hlane hok hovf => ?_, fun hlane hok hovf =>
    ⟨fun hpass => ?_, fun hpass hrank => ?_, fun hpass hrank hunder => ?_, fun hpass hrank hunder hctx => ?_⟩⟩
  · obtain ⟨w, -, hretry⟩ := mismatch_cases (laneSeen s.eng c lane) c f a
    have hr := retried_countRetry h lane w a.task
    refine ⟨_, rfl, ?_⟩
    rw [withEng_eng, hbad hfail, hretry (not_recurs_iff.2 (by simpa using hfirst)), hr.hasFrame.frameOf_onFrame, hr.frame]
    exact ⟨rfl, rfl, rfl, rfl, rfl, rfl, hr.retries, hr.retryBit, hr.fences, rfl⟩
  · obtain ⟨w, hfence, -⟩ := mismatch_cases (laneSeen s.eng c lane) c f a
    refine ⟨_, rfl, ?_⟩
    rw [withEng_eng, hbad hfail, hfence (by simpa [Recurs] using hagain)]
    have hlen : (recordMismatch (laneSeen s.eng c lane) c f w).fences = s.eng.fences := laneSeen_fences s.eng c lane
    obtain ⟨hown, hothers, hbit, hfault⟩ := fenceComb_spec (e := recordMismatch (laneSeen s.eng c lane) c f w) (c := c) (frame := f.val)
      (by rw [hlen, hfences]; exact c.isLt)
    refine ⟨hown, fun d hd => (hothers d hd).trans ?_, hfault, hbit, rfl⟩
    rw [fenceOf, fenceOf, hlen]
  · obtain ⟨hmode, hflight, hout, ⟨k, hk, hentered, hparts⟩, hctr⟩ := overflow_spec h hj hp
    refine ⟨_, k, rfl, ?_⟩
    rw [withEng_eng, (hgood hlane hok).1 hovf]
    exact ⟨hmode, hflight, hk, hentered, hparts, hctr, hout, rfl⟩
  · refine ⟨_, rfl, ?_⟩
    rw [withEng_eng, ((hgood hlane hok).2 hovf).2 (.inl hpass), (pass_held s.eng c f _ _).1 hpass, h.frameOf_onFrame]
    exact ⟨rfl, rfl, rfl, rfl⟩
  · refine ⟨_, _, rfl, rfl, ?_⟩
    rw [withEng_eng, ((hgood hlane hok).2 hovf).2 (.inr (.inl hrank)), (pass_held s.eng c f _ _).2 hpass hrank, h.frameOf_onFrame]
    exact ⟨rfl, rfl, rfl, rfl⟩
  · obtain ⟨hmode, hflight, hout, ⟨k, hk, hentered, hparts⟩, hctr⟩ := wideRerun_spec h hj hp
    refine ⟨_, k, rfl, ?_⟩
    rw [withEng_eng, ((hgood hlane hok).2 hovf).1 ⟨hpass, hrank, hunder⟩]
    exact ⟨hmode, hflight, hk, hentered, hparts, hctr, hout, rfl⟩
  · obtain ⟨o, ho, hflight, hout, hmode, hintervals, hreplays⟩ :=
      pass_commits (m := s.mem) h hskip htask hj hp hctx hpass hrank tk.record (maskOf s.eng tk.record)
    refine ⟨_, o, rfl, ?_⟩
    rw [withEng_eng, ((hgood hlane hok).2 hovf).2 (.inr (.inr hunder))]
    exact ⟨hflight, hout, ho.task, ho.tile, ho.reach, ho.last, ho.next, hmode, hintervals, hreplays, rfl⟩

end Sys2Proof.Machine
end

section
/-! Proofs: the drain unit's restart, rows and drain-only tasks. -/

namespace Sys2Proof.Machine

/-! ### Elements of a changed list -/

theorem elemD_updAt_self {α : Type} {l : List α} {i : Nat} (f : α → α) (d : α) (h : i < l.length) :
    elemD (updAt l i f) i d = f (elemD l i d) := by
  simp [elemD, updAt_getElem?, List.getElem?_eq_getElem h]

theorem elemD_updAt_ne {α : Type} (l : List α) {i j : Nat} (f : α → α) (d : α) (h : j ≠ i) : elemD (updAt l i f) j d = elemD l j d := by
  simp [elemD, updAt_getElem?, Ne.symm h]

theorem elemD_map_range {α : Type} (g : Nat → α) (d : α) {n x : Nat} (h : x < n) : elemD ((List.range n).map g) x d = g x := by
  simp [elemD, List.getElem?_range h]

/-- The smallest element by a measure is one of them. -/
theorem mem_of_minBy {α : Type} {m : α → Nat} {l : List α} {a : α} (h : minBy m l = some a) : a ∈ l := by
  cases l with
  | nil => simp [minBy] at h
  | cons b l =>
    obtain rfl := Option.some.inj h
    induction l generalizing b with
    | nil => simp
    | cons x l ih =>
      rw [List.foldl_cons]
      split
      · exact List.mem_cons_of_mem _ (ih x rfl)
      · rcases List.mem_cons.1 (ih b rfl) with hb | hb
        · rw [hb]; exact List.mem_cons_self ..
        · exact List.mem_cons_of_mem _ (List.mem_cons_of_mem _ hb)

/-- A list all of whose elements are one value holds it once. -/
theorem dedup_of_forall_eq {α : Type} [DecidableEq α] {l : List α} {a : α} (hne : l ≠ []) (h : ∀ b ∈ l, b = a) : dedup l = [a] := by
  have hrep : ∀ l' : List α, (∀ b ∈ l', b = a) → l'.foldl (fun acc b => if b ∈ acc then acc else b :: acc) [a] = [a] := fun l' h' => by
    induction l' with
    | nil => rfl
    | cons b l' ih =>
      obtain rfl := h' b (List.mem_cons_self ..)
      simpa using ih fun x hx => h' x (List.mem_cons_of_mem _ hx)
  cases l with
  | nil => exact absurd rfl hne
  | cons b l =>
    obtain rfl := h b (List.mem_cons_self ..)
    simp [dedup, hrep l fun x hx => h x (List.mem_cons_of_mem _ hx)]

/-! ### Rows -/

/-- The drain unit comes to the next row. -/
def nextRow (fr : Frame) : Frame := { fr with out := updAt fr.out 0 fun o => { o with next := o.next + 1, waited := false } }

/-- A row added to the running tile (R172). -/
def addToRunning (r : Nat) (row : List Word) (fr : Frame) : Frame :=
  let run := if fr.running.isEmpty then List.replicate 64 [] else fr.running
  { fr with running := updAt run r fun l => (List.range 64).map fun x => fAdd (elemD l x 0) (elemD row x 0) }

/-- The running tile after a row is added: that row element by element in F32, the others as they were. -/
theorem addToRunning_running {fr : Frame} {r : Nat} (row : List Word) (hr : r < 64) (hrun : fr.running = [] ∨ fr.running.length = 64) :
    (∀ x, x < 64 → elemD (elemD (addToRunning r row fr).running r []) x 0 = fAdd (elemD (elemD fr.running r []) x 0) (elemD row x 0)) ∧
    ∀ q, q ≠ r → elemD (addToRunning r row fr).running q [] = elemD fr.running q [] := by
  have hlen : (if fr.running.isEmpty then List.replicate 64 [] else fr.running).length = 64 := by
    rcases hrun with h | h
    · simp [h]
    · have hne : fr.running ≠ [] := fun hnil => by simp [hnil] at h
      simp [hne, h]
  have hsame : ∀ q, elemD (if fr.running.isEmpty then List.replicate 64 [] else fr.running) q [] = elemD fr.running q [] := fun q => by
    split
    · next h =>
      rw [List.isEmpty_iff.1 h]
      by_cases hq : q < 64 <;> simp [elemD, hq, -List.reduceReplicate]
    · rfl
  refine ⟨fun x hx => ?_, fun q hq => ?_⟩
  · rw [addToRunning, elemD_updAt_self _ _ (by rw [hlen]; exact hr), elemD_map_range _ _ hx, hsame]
  · rw [addToRunning, elemD_updAt_ne _ _ _ hq, hsame]

/-- What follows a row's write-out: the last row ends the interval's stay (R317). -/
def afterRow (m : Mem) (e : Engine) (c : CombId) (f : FrameId) : Engine :=
  match (frameOf e c f).out with
  | o :: _ => if 64 ≤ o.next then endJob m e c f o else e
  | [] => e

theorem afterRow_of_next {m : Mem} {e : Engine} {c : CombId} {f : FrameId} {o : OutJob} {os : List OutJob}
    (hout : (frameOf e c f).out = o :: os) (hnext : o.next < 64) : afterRow m e c f = e := by
  simp [afterRow, hout, Nat.not_le.2 hnext]

@[simp] theorem handAdds_nil (e : Engine) (c : CombId) (t : TaskRec) (i tile reach row : Nat) (p b ends last waited : Bool) :
    handAdds e c t i tile reach row [] p b ends last waited = e := by
  cases p <;> rfl

section Row
variable {m : Mem} {e : Engine} {c : CombId} {f : FrameId} {o : OutJob} {os : List OutJob} {fault : RowFault}

/-- A row that is not of a tile's last store is written out once its adds wait for nothing (R102, R209, R407). -/
theorem writeout_row (hw : works e c = true) (hout : (frameOf e c f).out = o :: os) (hlast : storing o.record = false ∨ o.lastOfTile = false)
    (hnext : o.next < 63) (hpark : writeParked e c o.task = false) (hadds : addsWait e o.record.step (elemD o.adds o.next []) = false)
    (hearlier : earlierAdds e c f o (addHandles (elemD o.adds o.next [])) = false)
    (hspill : (addHandles (elemD o.adds o.next [])).any (spilled e) = false) :
    (fault.drain = true → writeout m e c f fault = drainLane e c f o.task) ∧
    (fault.drain = false → writeout m e c f fault = afterRow m (writeRow m
      (laneSeen e c (fault.add && (addHandles (elemD o.adds o.next [])).any fun h => !spilled e h)) c f o (fault.add || fault.crc)) c f) := by
  have hlast' : (storing o.record && o.lastOfTile) = false := by rcases hlast with h | h <;> simp [h]
  have hrow : rowAdds o = elemD o.adds o.next [] := by simp [rowAdds, Nat.ne_of_lt hnext]
  refine ⟨fun hdrain => ?_, fun hdrain => ?_⟩
  · simp [writeout, hw, hout, hlast', hpark, hrow, hadds, hearlier, hspill, hdrain]
  · simp only [writeout, hw, hout, hlast', hpark, hrow, hadds, hearlier, hspill, hdrain, Bool.not_true, Bool.false_eq_true, if_false,
      Bool.false_and, Bool.or_self]
    rfl

/-- A row without adds of a tile that commits more intervals joins the running tile (R102, R172). -/
theorem writeRow_running (brood : Bool) (hstore : storing o.record = true) (hlast : o.lastOfTile = false) (hnext : o.next < 63)
    (hadds : elemD o.adds o.next [] = []) : writeRow m e c f o brood =
      onFrame (onFrame e c f (addToRunning o.next (elemD o.rows o.next []))) c f nextRow := by
  simp only [writeRow, hstore, hlast, hadds, Nat.ne_of_lt hnext, handAdds_nil, List.isEmpty_nil, Bool.not_true, Bool.and_false,
    Bool.false_eq_true, false_and, if_false]
  rfl

/-- A row of a task that does not store only hands its adds over. -/
theorem writeRow_adds (brood : Bool) (hstore : storing o.record = false) (hnext : o.next < 63) : ∃ e₁ p ends last,
    (e₁ = e ∨ e₁ = markOut e o.task) ∧ writeRow m e c f o brood =
      onFrame (handAdds e₁ c o.record o.task o.tile o.reach o.next (elemD o.adds o.next []) p brood ends last o.waited) c f nextRow := by
  have hne : ¬ (o.next = 63 ∧ (!o.extra.isEmpty) = true) := fun h => absurd h.1 (Nat.ne_of_lt hnext)
  simp only [writeRow, hstore, hne, if_false]
  refine ⟨_, _, _, _, ?_, rfl⟩
  split
  · exact .inr rfl
  · exact .inl rfl

end Row

/-! ### Adds into a resident region -/

/-- A region after adds whose lines are poisoned (R205, R208): its lines are marked, and only the elements named have changed. -/
structure Poisons (r : Region) (adds : List (Nat × Word)) (r' : Region) : Prop where
  handle : r'.handle = r.handle
  elements : r'.elements = r.elements
  place : r'.place = r.place
  marked : ∀ a ∈ adds, a.1 < r.elements → a.1 / 16 ∈ r'.poison
  kept : ∀ x ∈ r.poison, x ∈ r'.poison
  others : ∀ n, (∀ a ∈ adds, a.1 < r.elements ∧ a.1 ≠ n) → lookupD r'.elems n 0 = lookupD r.elems n 0

theorem Poisons.nil (r : Region) : Poisons r [] r := ⟨rfl, rfl, rfl, by simp, fun _ h => h, fun _ _ => rfl⟩

theorem Poisons.cons {r r₁ r' : Region} {a : Nat × Word} {adds : List (Nat × Word)} (h₁ : Poisons r [a] r₁) (h : Poisons r₁ adds r') :
    Poisons r (a :: adds) r' where
  handle := h.handle.trans h₁.handle
  elements := h.elements.trans h₁.elements
  place := h.place.trans h₁.place
  marked b hb hlt := by
    rcases List.mem_cons.1 hb with rfl | hb
    · exact h.kept _ (h₁.marked b (List.mem_cons_self ..) hlt)
    · exact h.marked b hb (by rwa [h₁.elements])
  kept x hx := h.kept x (h₁.kept x hx)
  others n hn := by
    rw [h.others n fun b hb => by rw [h₁.elements]; exact hn b (List.mem_cons_of_mem _ hb), h₁.others n fun b hb => ?_]
    exact hn b (List.mem_cons.2 (.inl (by simpa using hb)))

/-- One poisoned add, with the lines poisoned so far and the counts of clamped and dropped ones: the step of `addRow` (R203, R205). -/
def addPoisoned (e : Engine) (acc : Region × List Nat × Nat × Nat) (a : Nat × Word) : Region × List Nat × Nat × Nat :=
  match regionElem e acc.1 a.1 with
  | (some i, inb) =>
    ((addElem acc.1 i a.2 true).1, (if (addElem acc.1 i a.2 true).2 then insertNat (i / 16) acc.2.1 else acc.2.1),
      (if inb then acc.2.2.1 else acc.2.2.1 + 1), acc.2.2.2)
  | (none, _) => (acc.1, acc.2.1, acc.2.2.1, acc.2.2.2 + 1)

/-- The first use of a region by a task. -/
def touch (r : Region) (step task : Nat) : Region :=
  { r with touched := true, step := (if r.touched then r.step else step), addedBy := insertNat task r.addedBy }

/-- A poisoned add makes its line's mark while accesses clamp (R203, R208). -/
theorem addPoisoned_spec {e : Engine} (hclamps : clamps e = true) (acc : Region × List Nat × Nat × Nat) (a : Nat × Word) :
    Poisons acc.1 [a] (addPoisoned e acc a).1 ∧ (addPoisoned e acc a).2.1 ≠ [] := by
  have hins : ∀ n (l : List Nat), insertNat n l ≠ [] := fun n l hnil => by
    have hmem : n ∈ insertNat n l := mem_insertNat.2 (.inl rfl)
    simp [hnil] at hmem
  by_cases hlt : a.1 < acc.1.elements
  · have helem : regionElem e acc.1 a.1 = (some a.1, true) := if_pos hlt
    refine ⟨⟨?_, ?_, ?_, ?_, ?_, ?_⟩, ?_⟩
    all_goals simp only [addPoisoned, helem, addElem, markRegion, Bool.true_or, if_true, List.mem_singleton, forall_eq]
    · exact fun _ => mem_insertNat.2 (.inl rfl)
    · exact fun x hx => mem_insertNat.2 (.inr hx)
    · exact fun n hn => lookupD_assign_ne _ _ _ (Ne.symm hn.2)
    · exact hins _ _
  · have helem : regionElem e acc.1 a.1 = (some (acc.1.elements - 1), false) := by simp [regionElem, hlt, hclamps]
    refine ⟨⟨?_, ?_, ?_, ?_, ?_, ?_⟩, ?_⟩
    all_goals simp only [addPoisoned, helem, addElem, markRegion, Bool.true_or, if_true, List.mem_singleton, forall_eq]
    · exact fun h => absurd h hlt
    · exact fun x hx => mem_insertNat.2 (.inr hx)
    · exact fun n hn => absurd hn.1 hlt
    · exact hins _ _

theorem foldl_addPoisoned_spec {e : Engine} (hclamps : clamps e = true) (adds : List (Nat × Word)) (acc : Region × List Nat × Nat × Nat) :
    Poisons acc.1 adds (adds.foldl (addPoisoned e) acc).1 ∧
    (adds ≠ [] ∨ acc.2.1 ≠ [] → (adds.foldl (addPoisoned e) acc).2.1 ≠ []) := by
  induction adds generalizing acc with
  | nil => exact ⟨Poisons.nil _, fun h => by simpa using h⟩
  | cons a adds ih =>
    obtain ⟨hone, hbad⟩ := addPoisoned_spec hclamps acc a
    obtain ⟨hrest, hbads⟩ := ih (addPoisoned e acc a)
    exact ⟨hone.cons hrest, fun _ => hbads (.inr hbad)⟩

section AddRow
variable {e : Engine} {c : CombId} {h step task : Nat} {adds : List (Nat × Word)} {r : Region}

/-- A poisoned row added into a resident region (R205, R208): the region, the poison event, and nothing else of the work in hand. -/
theorem addRow_poisoned (hr : regionOf e h = some r) (hfrozen : r.frozen = false) (hne : adds ≠ []) (hclamps : clamps e = true) :
    ∃ r', Poisons r adds r' ∧ regionOf (addRow e c h step task adds true) h = some r' ∧
      (addRow e c h step task adds true).hub = (raiseErr e errPoison).hub ∧ workOf (addRow e c h step task adds true) = workOf e := by
  have hhandle : r.handle = h := by
    unfold regionOf at hr
    split at hr
    · simp at hr
    · simpa using List.find?_some hr
  obtain ⟨hpoisons, hbad⟩ := foldl_addPoisoned_spec hclamps adds (touch r step task, [], 0, 0)
  have hrow : addRow e c h step task adds true =
      let x := adds.foldl (addPoisoned e) (touch r step task, [], 0, 0)
      let e := onRegion e h fun _ => x.1
      let e := bumpComb (bumpComb (bumpComb e c .oobClamped x.2.2.1) c .oobFilled x.2.2.2) c .linesOut x.2.1.length
      if x.2.1.isEmpty then e else poisonEvent (markOut e task) c.val codeHalted := by
    unfold addRow
    rw [hr]
    dsimp only
    rw [if_neg (by simp [hfrozen, hne])]
    rfl
  rw [hrow]
  dsimp only
  rw [if_neg (by simpa using hbad (.inl hne))]
  refine ⟨_, ⟨hpoisons.handle, hpoisons.elements, hpoisons.place, hpoisons.marked, hpoisons.kept, hpoisons.others⟩, ?_, ?_, ?_⟩
  · rw [regionOf_poisonEvent, markOut, regionOf_onTask]
    simp only [bumpComb, regionOf_bump]
    exact regionOf_onRegion_const hr (hpoisons.handle.trans hhandle)
  · simp [bumpComb, markOut, raiseErr]
  · simp

/-- The adds of a row that all go to one resident region, its lines poisoned at the brood buffer (R405, R407). -/
theorem handAdds_resident {t : TaskRec} {i tile reach row : Nat} {adds : List (Nat × Nat × Word)} (p ends last waited : Bool)
    (hr : regionOf e h = some r) (hplace : r.place = .resident c) (hfrozen : r.frozen = false) (hne : adds ≠ [])
    (hall : ∀ a ∈ adds, a.1 = h) (hclamps : clamps e = true) :
    ∃ e₁ r', handAdds e c t i tile reach row adds p true ends last waited = e₁ ∧ Poisons r (adds.map Prod.snd) r' ∧
      regionOf e₁ h = some r' ∧ e₁.hub = (raiseErr e errPoison).hub ∧ workOf e₁ = workOf e := by
  have hhs : addHandles adds = [h] := dedup_of_forall_eq (by simpa using hne) (by simpa using fun a b w hw => hall _ hw)
  have hpart : (adds.filter fun a => a.1 == h) = adds := List.filter_eq_self.2 fun a ha => by simpa using hall a ha
  obtain ⟨r', hpoisons, hregion, hhub, hwork⟩ := addRow_poisoned (c := c) (step := t.step) (task := i) (adds := adds.map Prod.snd) hr hfrozen
    (by simpa using hne) hclamps
  have hspill : spilled e h = false := by simp [spilled, hr, hplace]
  have hspill' : spilled (addRow e c h t.step i (adds.map Prod.snd) true) h = false := by
    simp [spilled, hregion, hpoisons.place, hplace]
  refine ⟨_, r', ?_, hpoisons, hregion, hhub, hwork⟩
  simp [handAdds, hhs, hspill, hspill', hpart, sumNat, bumpComb, bump]

end AddRow


/-! ### Drain-only tasks -/

/-- The task that a drain unit holds or can take is resident (R310). -/
theorem taskOf_of_drainTask {e : Engine} {c : CombId} {f : FrameId} {x : Fin 4} {k : Ctx} {tk : Task}
    (h : drainTask e c f = some (x, k, tk)) : taskOf e k.task = some tk := by
  obtain ⟨y, -, hy⟩ := List.mem_filterMap.1 (mem_of_minBy h)
  split at hy
  · split at hy
    · next ht =>
      obtain ⟨-, hy⟩ := Option.ite_none_right_eq_some.1 hy
      split at hy
      · obtain ⟨rfl, rfl, rfl⟩ : _ ∧ _ ∧ _ := by simpa using (Option.ite_none_right_eq_some.1 hy).2
        exact ht
      · simp at hy
    · simp at hy
  · simp at hy

@[simp] theorem drainTask_bump (e : Engine) (q : Ctr) (n : Nat) (c : CombId) (f : FrameId) :
    drainTask (bump e q n) c f = drainTask e c f := by
  simp [drainTask]

@[simp] theorem works_bump (e : Engine) (q : Ctr) (n : Nat) (c : CombId) : works (bump e q n) c = works e c := by
  simp [works, inAction, enabled, fenceOf, islandOf]

/-- The task's one tile is committed, and has left the comb. -/
def tileDone (t : Task) : Task := { t with commTiles := [0], doneTiles := [0] }

/-- The engine once the drain unit has taken what has landed for a task. -/
def drainTakes (e : Engine) (c : CombId) (f : FrameId) (k : Ctx) (t : TaskRec) : Engine :=
  takeLanded (onFrame e c f fun fr => { fr with drainOnly := some k.task }) c f k t

section DrainOnly
variable {m : Mem} {e : Engine} {c : CombId} {f : FrameId} {x : Fin 4} {k : Ctx} {tk : Task} {lane : LaneFault}

/-- The frame whose drain unit a task holds. -/
theorem workFrame_drainTakes (h : HasFrame e c f) (t : TaskRec) :
    workFrame (drainTakes e c f k t) c f = { workFrame e c f with drainOnly := some k.task } := by
  rw [drainTakes, workFrame_of_workOf (workOf_takeLanded _ c f k t), h.workFrame_onFrame]

theorem hasFrame_drainTakes (h : HasFrame e c f) (t : TaskRec) : HasFrame (drainTakes e c f k t) c f :=
  (hasFrame_of_workOf (workOf_takeLanded _ c f k t) c f).2 (hasFrame_onFrame.2 h)

theorem drainTakes_keeps (e : Engine) (c : CombId) (f : FrameId) (k : Ctx) (t : TaskRec) :
    (drainTakes e c f k t).fences = e.fences ∧ (drainTakes e c f k t).mbx = e.mbx ∧ (drainTakes e c f k t).hub.cycle = e.hub.cycle ∧
    (∀ i, (taskOf (drainTakes e c f k t) i).map taskWork = (taskOf e i).map taskWork) ∧
    ∀ q, workCtr q = true → ctrVal (drainTakes e c f k t) q = ctrVal e q := by
  have hwork := workOf_takeLanded (onFrame e c f fun fr => { fr with drainOnly := some k.task }) c f k t
  exact ⟨(fences_of_workOf hwork :), (mbx_of_workOf hwork :), (cycle_of_workOf hwork :), (taskWork_of_workOf hwork :),
    fun q hq => (ctrVal_of_workOf hwork hq :)⟩

/-- A drain-only task waits for its operands, runs again after a lane mismatch, or commits its one tile (R230, R310). -/
theorem drainOnlyRun_cases (hw : works e c = true) (hd : drainTask e c f = some (x, k, tk)) :
    (operandsHere (drainTakes e c f k tk.record) c k tk.record = false → drainOnlyRun m e c f lane = drainTakes e c f k tk.record) ∧
    (operandsHere (drainTakes e c f k tk.record) c k tk.record = true → outHere k (drainPlaces tk.record) = true →
      writeParked (drainTakes e c f k tk.record) c k.task = false →
      (lane = true → drainOnlyRun m e c f lane = drainLane (drainTakes e c f k tk.record) c f k.task) ∧
      (lane = false → ∃ e₁, workOf e₁ = workOf (drainTakes e c f k tk.record) ∧
        workOf (drainOnlyRun m e c f lane) = workOf (onTask e₁ k.task tileDone))) := by
  refine ⟨fun hops => ?_, fun hops hplaces hpark => ⟨fun hlane => ?_, fun hlane => ?_⟩⟩
  · simp only [drainTakes] at hops
    simp [drainOnlyRun, hw, hd, hops, drainTakes]
  · simp only [drainTakes] at hops hpark
    simp [drainOnlyRun, hw, hd, hops, hplaces, hpark, hlane, drainTakes]
  · simp only [drainTakes] at hops hpark
    simp only [drainOnlyRun, hw, hd, hops, hplaces, hpark, hlane, Bool.not_true, Bool.false_eq_true, if_false, Bool.or_self]
    generalize hstores : (List.range tk.record.outRows).foldl _ (takeLanded _ c f k tk.record) = e₁
    refine ⟨e₁, hstores ▸ workOf_foldl (fun _ _ => workOf_storeOut _ _ _ _ _ _ _ _) _ _, ?_⟩
    split
    · exact workOf_taskCommitted _ _ _
    · exact (workOf_scratchClear _ _ _ _).trans (workOf_taskCommitted _ _ _)

end DrainOnly

/-! ### The commands -/

theorem exec_replayRestart (c : CombId) (f : FrameId) (s : State) :
    exec (.replayRestart c f) s = .next (withEng s (replayRestart s.eng c f)) := rfl

theorem exec_stagingRowWriteout (c : CombId) (f : FrameId) (fault : RowFault) (s : State) :
    exec (.stagingRowWriteout c f fault) s = .next (withEng s (writeout s.mem s.eng c f fault)) := rfl

theorem exec_drainOnlyRun (c : CombId) (f : FrameId) (rd : List MemLine) (lane : LaneFault) (s : State) :
    exec (.drainOnlyRun c f rd lane) s = .next { s with
      mem := absorb s.mem rd, eng := drainOnlyRun (landed s.mem rd) (readEngIn s c rd) c f lane } := rfl

/-- A frame in REPLAY_FLUSH restarts once its skew is empty (R103). -/
theorem replayRestart_of_flush {e : Engine} {c : CombId} {f : FrameId} (hw : works e c = true) (hmode : (frameOf e c f).mode = .replayFlush) :
    replayRestart e c f = if (frameOf e c f).flush = 0 then onFrame e c f fun fr => { fr with mode := .run } else e := by
  by_cases hflush : (frameOf e c f).flush = 0 <;> simp [replayRestart, hw, hmode, hflush]

/-- A working comb's engine is in RUN, so that accesses out of bounds clamp (R203). -/
theorem clamps_of_works {e : Engine} {c : CombId} (hw : works e c = true) : clamps e = true := by
  simp only [works, inAction, Bool.and_eq_true] at hw
  simp [clamps, hw.1.1.1.1]

section Row
variable {m : Mem} {e : Engine} {c : CombId} {f : FrameId} {o : OutJob} {os : List OutJob} {fault : RowFault}

/-- A row without adds is added to the running tile, or waits for its retry, or its frame's comb is fenced. -/
theorem writeout_running (hf : HasFrame e c f) (hw : works e c = true) (hout : (frameOf e c f).out = o :: os)
    (hstore : storing o.record = true) (hlast : o.lastOfTile = false) (hnext : o.next < 63) (hadds : elemD o.adds o.next [] = [])
    (hpark : writeParked e c o.task = false) :
    (fault.drain = true → writeout m e c f fault = drainLane e c f o.task) ∧
    (fault.drain = false → writeout m e c f fault =
      onFrame (onFrame e c f (addToRunning o.next (elemD o.rows o.next []))) c f nextRow) := by
  have hearlier : earlierAdds e c f o [] = false := by simp [earlierAdds]
  have hnone : addHandles (elemD o.adds o.next []) = [] := by rw [hadds]; rfl
  obtain ⟨hlane, hrow⟩ := writeout_row (m := m) (fault := fault) hw hout (.inr hlast) hnext hpark (by rw [hadds]; rfl)
    (by rw [hnone]; exact hearlier) (by rw [hnone]; rfl)
  refine ⟨hlane, fun hdrain => ?_⟩
  rw [hrow hdrain, hnone, List.any_nil, Bool.and_false, laneSeen_false, writeRow_running _ hstore hlast hnext hadds]
  refine afterRow_of_next (o := { o with next := o.next + 1, waited := false }) (os := os) ?_ (Nat.succ_lt_succ hnext)
  rw [(hasFrame_onFrame.2 hf).frameOf_onFrame, hf.frameOf_onFrame, nextRow, addToRunning, hout]
  rfl

/-- A row of adds into one resident region, a lane mismatch of the brood adds or a failed line check among them (R405, R407). -/
theorem writeout_brood {h : Nat} {r : Region} (hf : HasFrame e c f) (hw : works e c = true) (hout : (frameOf e c f).out = o :: os)
    (hstore : storing o.record = false) (hnext : o.next < 63) (hne : elemD o.adds o.next [] ≠ [])
    (hall : ∀ a ∈ elemD o.adds o.next [], a.1 = h) (hr : regionOf e h = some r) (hplace : r.place = .resident c) (hfrozen : r.frozen = false)
    (hwait : addWaits e h o.record.step = false) (hearlier : earlierAdds e c f o [h] = false) (hpark : writeParked e c o.task = false)
    (hdrain : fault.drain = false) (hfault : fault.add = true ∨ fault.crc = true) :
    ∃ r', Poisons r ((elemD o.adds o.next []).map Prod.snd) r' ∧ regionOf (writeout m e c f fault) h = some r' ∧
      (frameOf (writeout m e c f fault) c f).out = { o with next := o.next + 1, waited := false } :: os ∧
      (∀ q, workCtr q = true → ctrVal (writeout m e c f fault) q = ctrVal (laneSeen e c fault.add) q) ∧
      (writeout m e c f fault).hub = (raiseErr (laneSeen e c fault.add) errPoison).hub := by
  have hhs : addHandles (elemD o.adds o.next []) = [h] :=
    dedup_of_forall_eq (by simpa using hne) (by simpa using fun a b w hw => hall _ hw)
  have hspill : spilled e h = false := by simp [spilled, hr, hplace]
  have hbrood : (fault.add || fault.crc) = true := by rcases hfault with h | h <;> simp [h]
  obtain ⟨-, hrow⟩ := writeout_row (m := m) (fault := fault) hw hout (.inl hstore) hnext hpark
    (by simp [addsWait, hhs, hwait]) (by rw [hhs]; exact hearlier) (by simp [hhs, hspill])
  obtain ⟨e₀, p, ends, last, he₀, hwrite⟩ :=
    writeRow_adds (m := m) (e := laneSeen e c fault.add) (c := c) (f := f) (o := o) true hstore hnext
  have hsame : regionOf e₀ h = some r ∧ clamps e₀ = true ∧ e₀.hub = (laneSeen e c fault.add).hub ∧
      workOf e₀ = workOf (laneSeen e c fault.add) := by
    have hclamps : clamps (laneSeen e c fault.add) = true := by
      rw [← clamps_of_works hw, clamps, laneSeen_boot, clamps]
    rcases he₀ with rfl | rfl
    · exact ⟨by rw [regionOf_laneSeen, hr], hclamps, rfl, rfl⟩
    · exact ⟨by rw [markOut, regionOf_onTask, regionOf_laneSeen, hr], hclamps, rfl, workOf_markOut _ _⟩
  obtain ⟨hr₀, hclamps₀, hhub₀, hwork₀⟩ := hsame
  obtain ⟨e₁, r', hhand, hpoisons, hregion, hhub, hwork⟩ := handAdds_resident (t := o.record) (i := o.task) (tile := o.tile)
    (reach := o.reach) (row := o.next) p ends last o.waited hr₀ hplace hfrozen hne hall hclamps₀
  have hwork₁ := hwork.trans hwork₀
  have hf₁ : HasFrame e₁ c f := (hasFrame_of_workOf hwork₁ c f).2 ((hasFrame_laneSeen e c fault.add).2 hf)
  have hframe : (frameOf e₁ c f).out = o :: os := by
    have hsame := workFrame_of_workOf hwork₁ c f
    rw [workFrame, workFrame, frameOf_laneSeen] at hsame
    exact (congrArg Frame.out hsame).trans hout
  have hnew : (frameOf (onFrame e₁ c f nextRow) c f).out = { o with next := o.next + 1, waited := false } :: os := by
    rw [hf₁.frameOf_onFrame, nextRow, hframe]; rfl
  have heq : writeout m e c f fault = onFrame e₁ c f nextRow := by
    rw [hrow hdrain, hhs, hbrood, List.any_cons, hspill, Bool.not_false, Bool.true_or, Bool.and_true, hwrite, hhand]
    exact afterRow_of_next hnew (Nat.succ_lt_succ hnext)
  rw [heq]
  exact ⟨r', hpoisons, hregion, hnew, fun q hq => (ctrVal_of_workOf hwork₁ hq :), hhub.trans (by rw [raiseErr, hhub₀, raiseErr])⟩

end Row

section DrainOnlyRun
variable {m : Mem} {e : Engine} {c : CombId} {f : FrameId} {x : Fin 4} {k : Ctx} {tk : Task}

/-- A drain-only task that has all of its operands commits its one tile (R230, R310). -/
theorem drainOnlyRun_commits (hf : HasFrame e c f) (hw : works e c = true) (hd : drainTask e c f = some (x, k, tk))
    (hops : operandsHere (drainTakes e c f k tk.record) c k tk.record = true) (hplaces : outHere k (drainPlaces tk.record) = true)
    (hpark : writeParked (drainTakes e c f k tk.record) c k.task = false) :
    ∃ tk', taskOf (drainOnlyRun m e c f false) k.task = some tk' ∧ tk'.commTiles = [0] ∧ tk'.doneTiles = [0] ∧ tk'.record = tk.record ∧
      (frameOf (drainOnlyRun m e c f false) c f).drainOnly = some k.task ∧ (drainOnlyRun m e c f false).mbx = e.mbx := by
  obtain ⟨e₁, he₁, hrun⟩ := ((drainOnlyRun_cases (m := m) hw hd).2 hops hplaces hpark).2 rfl
  obtain ⟨-, hmbx, -, htasks, -⟩ := drainTakes_keeps e c f k tk.record
  obtain ⟨t₀, ht₀, hw₀⟩ : ∃ t, taskOf (drainTakes e c f k tk.record) k.task = some t ∧ taskWork t = taskWork tk :=
    Option.map_eq_some_iff.1 ((htasks k.task).trans (congrArg _ (taskOf_of_drainTask hd)))
  obtain ⟨t₁, ht₁, hw₁⟩ := taskOf_some_of_workOf he₁ ht₀
  obtain ⟨t₂, ht₂, hw₂⟩ := taskOf_some_of_workOf hrun ((taskOf_onTask_self e₁ k.task (g := tileDone)).trans (congrArg _ ht₁))
  refine ⟨t₂, ht₂, congrArg (fun w => w.2.1) hw₂, congrArg (fun w => w.2.2) hw₂, ?_, ?_, ?_⟩
  · exact (congrArg Prod.fst hw₂).trans ((congrArg Prod.fst hw₁).trans (congrArg Prod.fst hw₀))
  · have hframe : workFrame (drainOnlyRun m e c f false) c f = workFrame (drainTakes e c f k tk.record) c f :=
      (workFrame_of_workOf hrun c f).trans (workFrame_of_workOf he₁ c f)
    rw [workFrame_drainTakes hf] at hframe
    exact (congrArg Frame.drainOnly hframe :)
  · exact (mbx_of_workOf hrun).trans ((mbx_of_workOf he₁).trans hmbx)

/-- A lane mismatch of a drain-only task: the task runs again, or its frame's comb is fenced (R407, R411, R412). -/
theorem drainOnlyRun_lane (hf : HasFrame e c f) (hw : works e c = true) (hd : drainTask e c f = some (x, k, tk))
    (hops : operandsHere (drainTakes e c f k tk.record) c k tk.record = true) (hplaces : outHere k (drainPlaces tk.record) = true)
    (hpark : writeParked (drainTakes e c f k tk.record) c k.task = false) :
    (¬ Recurs e c f → Retried (drainTakes e c f k tk.record) (drainOnlyRun m e c f true) c f true) ∧
    (Recurs e c f → ∃ e₁, e₁.fences = e.fences ∧ drainOnlyRun m e c f true = fenceComb e₁ c 3 f.val) := by
  have hrun := ((drainOnlyRun_cases (m := m) (lane := true) hw hd).2 hops hplaces hpark).1 rfl
  obtain ⟨hfences, -, hcycle, -, -⟩ := drainTakes_keeps e c f k tk.record
  have hrecurs : Recurs (drainTakes e c f k tk.record) c f ↔ Recurs e c f := by
    have hmis : (frameOf (drainTakes e c f k tk.record) c f).mismatch = (frameOf e c f).mismatch :=
      (congrArg Frame.mismatch (workFrame_drainTakes hf tk.record) :)
    rw [Recurs, Recurs, hmis, hcycle]
  obtain ⟨w, hfence, hretry⟩ := drainLane_cases (drainTakes e c f k tk.record) c f k.task
  refine ⟨fun h => ?_, fun h => ⟨_, ?_, hrun.trans (hfence (hrecurs.2 h))⟩⟩
  · rw [hrun, hretry (mt hrecurs.1 h)]
    exact retried_countRetry (hasFrame_drainTakes hf tk.record) true w k.task
  · exact (laneSeen_fences _ c true).trans hfences

end DrainOnlyRun

/-- Settles O32: each command by the lemma of its outcome (`replayRestart_of_flush`, `writeout_running`, `writeout_brood`,
`drainOnlyRun_cases`), and a lane mismatch of the drain unit by `drainLane_cases`. -/
theorem drainUnitRowsAndTasks : Obligations.DrainUnitRowsAndTasks := by
  unfold Obligations.DrainUnitRowsAndTasks
  rintro s c f fr rfl hw hcombs hframes
  have h : HasFrame s.eng c f := hasFrame_of_lengths f hcombs hframes
  simp only [exec_replayRestart, exec_stagingRowWriteout]
  refine ⟨fun hmode => ⟨fun hflush => ?_, fun hflush => ?_⟩,
    fun o os fault hout hstore hlast hnext hadds hpark hrun => ⟨fun hdrain => ?_, fun hdrain hfirst => ?_, fun hdrain hlen hagain => ?_⟩,
    fun o os fault hd r hout hstore hnext hne hall hr hplace hfrozen hwait hearlier hpark hdrain hfault => ?_,
    fun rd lane x k tk e hd he => ?_⟩
  · refine ⟨_, rfl, ?_⟩
    rw [withEng_eng, replayRestart_of_flush hw hmode, if_pos hflush]
    exact ⟨h.frameOf_onFrame _, fun g hg => frameOf_onFrame_ne _ hg, rfl, rfl⟩
  · rw [replayRestart_of_flush hw hmode, if_neg (Nat.ne_of_gt hflush)]
    rfl
  · refine ⟨_, rfl, ?_⟩
    obtain ⟨hadded, hothers⟩ := addToRunning_running (elemD o.rows o.next []) (Nat.lt_succ_of_lt hnext) hrun
    rw [withEng_eng, (writeout_running h hw hout hstore hlast hnext hadds hpark).2 hdrain, (hasFrame_onFrame.2 h).frameOf_onFrame,
      h.frameOf_onFrame]
    refine ⟨?_, hadded, hothers, fun g hg => ?_, rfl, rfl⟩
    · rw [nextRow, addToRunning, hout]; rfl
    · rw [frameOf_onFrame_ne _ hg, frameOf_onFrame_ne _ hg]
  · obtain ⟨w, -, hretry⟩ := drainLane_cases s.eng c f o.task
    have hr := retried_countRetry h true w o.task
    refine ⟨_, rfl, ?_⟩
    rw [withEng_eng, (writeout_running h hw hout hstore hlast hnext hadds hpark).1 hdrain, hretry (not_recurs_iff.2 hfirst), hr.frame]
    exact ⟨rfl, rfl, rfl, hr.lanes rfl, hr.retries, hr.laneBit rfl, hr.retryBit, hr.fences, hr.mp, rfl⟩
  · obtain ⟨w, hfence, -⟩ := drainLane_cases s.eng c f o.task
    refine ⟨_, rfl, ?_⟩
    rw [withEng_eng, (writeout_running h hw hout hstore hlast hnext hadds hpark).1 hdrain, hfence hagain]
    have hfences : (recordMismatch (laneSeen s.eng c true) c f w).fences = s.eng.fences := laneSeen_fences s.eng c true
    obtain ⟨hown, -, hbit, hfault⟩ := fenceComb_spec (e := recordMismatch (laneSeen s.eng c true) c f w) (c := c) (frame := f.val)
      (by rw [hfences, hlen]; exact c.isLt)
    exact ⟨hown, hfault, hbit, rfl⟩
  · obtain ⟨r', hpoisons, hregion, hnew, hctr, hhub⟩ := writeout_brood (m := s.mem) h hw hout hstore hnext hne hall hr hplace hfrozen hwait
      hearlier hpark hdrain hfault
    have hbit : ∀ b, errBit (writeout s.mem s.eng c f fault) b = (errBit (laneSeen s.eng c fault.add) b || decide (errPoison = b)) :=
      fun b => (errBit_congr hhub b).trans (errBit_raiseErr _ (by decide) b)
    refine ⟨_, r', rfl, hnew, hregion, fun a ha => hpoisons.marked a.2 (List.mem_map_of_mem ha), hpoisons.kept,
      fun n hn => hpoisons.others n ?_, ?_, fun hadd => ?_, ?_, rfl⟩
    · simpa using fun i w a ha => hn _ ha
    · rw [withEng_eng, hctr _ (by simp), ctrVal_laneSeen]
      simp
    · rw [withEng_eng, hbit, hadd, errBit_laneSeen, Bool.true_or]
    · rw [withEng_eng, hbit, decide_eq_true rfl, Bool.or_true]
  · have hw' : works (readEngIn s c rd) c = true := by simpa [readEngIn, bumpComb] using hw
    have hd' : drainTask (readEngIn s c rd) c f = some (x, k, tk) := by simpa [readEngIn, bumpComb] using hd
    have h' : HasFrame (readEngIn s c rd) c f := hasFrame_bump.2 h
    have he' : e = drainTakes (readEngIn s c rd) c f k tk.record := he
    have hframe : frameOf (readEngIn s c rd) c f = frameOf s.eng c f := frameOf_bump _ _ _ c f
    have hrecurs : Recurs (readEngIn s c rd) c f ↔ Recurs s.eng c f := by
      rw [Recurs, Recurs, hframe, readEngIn, bumpComb, bump_hub]
    obtain ⟨hfences, -, hcycle, htasks, hctr⟩ := drainTakes_keeps (readEngIn s c rd) c f k tk.record
    subst he'
    simp only [exec_drainOnlyRun]
    refine ⟨fun hops => ?_, fun hops hplaces hpark => ⟨fun hlane => ?_, fun hlane hfirst => ?_, fun hlane hlen hagain => ?_⟩⟩
    · rw [(drainOnlyRun_cases hw' hd').1 hops]
    · subst hlane
      obtain ⟨tk', htask, hcomm, hdone, hrec, hdrain, hmbx⟩ := drainOnlyRun_commits (m := landed s.mem rd) h' hw' hd' hops hplaces hpark
      exact ⟨_, tk', rfl, htask, hcomm, hdone, hrec, hdrain, hmbx.trans (bump_mbx _ _ _), rfl⟩
    · subst hlane
      have hr := (drainOnlyRun_lane (m := landed s.mem rd) h' hw' hd' hops hplaces hpark).1
        (mt hrecurs.1 (not_recurs_iff.2 hfirst))
      obtain ⟨t₀, ht₀, hw₀⟩ : ∃ t, taskOf (drainOnlyRun (landed s.mem rd) (readEngIn s c rd) c f true) k.task = some t ∧
          taskWork t = taskWork tk :=
        Option.map_eq_some_iff.1 ((hr.tasks k.task).trans ((htasks k.task).trans (congrArg _ (taskOf_of_drainTask hd'))))
      refine ⟨_, t₀, rfl, ht₀, congrArg (fun w => w.2.1) hw₀, ?_, ?_, ?_, hr.laneBit rfl, ?_, rfl⟩
      · rw [hr.frame]
        exact (congrArg Frame.drainOnly (workFrame_drainTakes h' tk.record) :)
      · rw [hr.frame, hcycle, readEngIn, bumpComb, bump_hub]
      · rw [hr.retries, hctr _ (by simp), readEngIn, bumpComb, ctrVal_bump_ne _ _ (by simp)]
      · rw [hr.fences, hfences, readEngIn, bumpComb, bump_fences]
    · subst hlane
      obtain ⟨e₁, hfen, hrun⟩ := (drainOnlyRun_lane (m := landed s.mem rd) h' hw' hd' hops hplaces hpark).2 (hrecurs.2 hagain)
      obtain ⟨hown, -, hbit, -⟩ := fenceComb_spec (e := e₁) (c := c) (frame := f.val) (by
        rw [hfen, readEngIn, bumpComb, bump_fences, hlen]; exact c.isLt)
      refine ⟨_, rfl, ?_⟩
      rw [hrun]
      exact ⟨hown, hbit, rfl⟩

end Sys2Proof.Machine
end

section
/-! Proofs: one cycle of a frame, and the commit of an interval that zero maps skip. -/

namespace Sys2Proof.Machine

/-! ### The movement of a cycle -/

/-- A frame after its operands have moved, its read-out apart (R87). -/
def stepped (mv : Move) (fr : Frame) : Frame :=
  match mv with
  | .still => fr
  | .null => { fr with pipe := shift fr.pipe none, cells := accumulate (shift fr.pipe none) fr.cells }
  | .enter => { fr with pipe := shift fr.pipe fr.steps.head?, steps := fr.steps.tail
                        cells := accumulate (shift fr.pipe fr.steps.head?) fr.cells }

/-- The drain unit reads nothing while no attempt's last step has entered (R97). -/
theorem readable_none {fr : Frame} (h : ∀ a ∈ fr.flight, a.age = none) (moving : Bool) : readable fr moving = none := by
  unfold readable
  split
  · rfl
  · next i _ =>
    split
    · next a n ha hn =>
      rw [ha, Option.bind_some, h a (List.mem_of_getElem? ha)] at hn
      cases hn
    · rfl

theorem readOut_frame (fr : Frame) (moving : Bool) : ∃ cs fl, readOut fr moving = { fr with cells := cs, flight := fl } := by
  unfold readOut
  split
  · exact ⟨_, _, rfl⟩
  · exact ⟨_, _, rfl⟩

theorem readEnd_frame (fr : Frame) (o : Option (Nat × Attempt)) : ∃ cs fl, readEnd fr o = { fr with cells := cs, flight := fl } := by
  unfold readEnd
  split
  · split
    · exact ⟨_, _, rfl⟩
    · exact ⟨_, _, rfl⟩
  · exact ⟨_, _, rfl⟩

/-- The middle of a cycle: nothing moves, or a null or a due step enters, and the attempt whose last step it is starts to age (R97). -/
def movement (mv : Move) (fr : Frame) : Frame :=
  match mv with
  | .still => fr
  | .null => moveFrame none fr
  | .enter =>
    let fr := moveFrame fr.steps.head? fr
    let fr := { fr with steps := fr.steps.tail }
    if fr.steps.isEmpty then lastEntered fr else fr

theorem moveFrame_flight_nil {fr : Frame} {inp : Option StepIn} (h : fr.flight = []) : (moveFrame inp fr).flight = [] := by
  simp [moveFrame, h]

theorem lastEntered_flight_nil {fr : Frame} (h : fr.flight = []) : (lastEntered fr).flight = [] := by
  rw [lastEntered, h]
  rfl

theorem movement_frame (mv : Move) (fr : Frame) : ∃ fl, movement mv fr = { stepped mv fr with flight := fl } ∧ (fr.flight = [] → fl = []) := by
  cases mv with
  | still => exact ⟨_, rfl, id⟩
  | null => exact ⟨_, rfl, moveFrame_flight_nil (inp := none)⟩
  | enter =>
    dsimp only [movement]
    split
    · exact ⟨_, rfl, fun h => lastEntered_flight_nil (moveFrame_flight_nil (inp := fr.steps.head?) h)⟩
    · exact ⟨_, rfl, moveFrame_flight_nil (inp := fr.steps.head?)⟩

theorem cycleFrame_eq (mv : Move) (fr : Frame) :
    cycleFrame mv fr = readEnd (movement mv (readOut (sinceRead fr) (mv != .still))) (readable fr (mv != .still)) := by
  cases mv <;> rfl

/-- A cycle moves the operands and reads out; with nothing to read it only moves them (R87, R98). -/
theorem cycleFrame_spec (mv : Move) (fr : Frame) : ∃ cs fl, cycleFrame mv fr = { stepped mv fr with cells := cs, flight := fl } ∧
    ((∀ a ∈ fr.flight, a.age = none) → cs = (stepped mv fr).cells) ∧ (fr.flight = [] → fl = []) := by
  rw [cycleFrame_eq]
  by_cases hquiet : ∀ a ∈ fr.flight, a.age = none
  · have hsince : ∀ a ∈ (sinceRead fr).flight, a.age = none := fun a ha => by
      obtain ⟨b, hb, rfl⟩ := List.mem_map.1 ha
      split <;> exact hquiet b hb
    obtain ⟨fl, hmove, hnil⟩ := movement_frame mv (sinceRead fr)
    have hcells : stepped mv (sinceRead fr) = { stepped mv fr with flight := (sinceRead fr).flight } := by cases mv <;> rfl
    refine ⟨_, fl, ?_, fun _ => rfl, fun h => hnil (by simp [sinceRead, h])⟩
    rw [readable_none hquiet, readOut, readable_none hsince]
    dsimp only [readEnd]
    rw [hmove, hcells]
  · obtain ⟨cs, fl, hout⟩ := readOut_frame (sinceRead fr) (mv != .still)
    obtain ⟨fl', hmove, -⟩ := movement_frame mv (readOut (sinceRead fr) (mv != .still))
    obtain ⟨cs'', fl'', hend⟩ := readEnd_frame (movement mv (readOut (sinceRead fr) (mv != .still))) (readable fr (mv != .still))
    refine ⟨cs'', fl'', ?_, fun h => absurd h hquiet, fun h => absurd (by simp [h]) hquiet⟩
    rw [hend, hmove, hout]
    cases mv <;> rfl

/-! ### The cycle of a frame -/

/-- The frame's place among the 64 cycles over which DUTY spreads what it withholds (R551). -/
def nextBeat (fr : Frame) : Frame := { fr with beat := (fr.beat + 1) % 64 }

/-- The engine as a frame's cycle begins: a stretched one has counted where a step is due (R272), and the beat goes on. -/
def startCycle (e : Engine) (c : CombId) (f : FrameId) : Engine :=
  onFrame (if islandStretched e c.val && frameDue (frameOf e c f) then bumpComb e c .stallDroop 1 else e) c f nextBeat

section StartCycle
variable {e : Engine} {c : CombId} {f : FrameId}

theorem hasFrame_startCycle (h : HasFrame e c f) : HasFrame (startCycle e c f) c f := by
  refine hasFrame_onFrame.2 ?_
  split
  · exact hasFrame_bump.2 h
  · exact h

theorem frameOf_startCycle (h : HasFrame e c f) : frameOf (startCycle e c f) c f = nextBeat (frameOf e c f) := by
  unfold startCycle
  split
  · rw [bumpComb, (hasFrame_bump.2 h).frameOf_onFrame, frameOf_bump]
  · rw [h.frameOf_onFrame]

theorem ctrVal_startCycle {k : Ctr} (hk : k ≠ .comb c .stallDroop) : ctrVal (startCycle e c f) k = ctrVal e k := by
  rw [startCycle, ctrVal_onFrame]
  split
  · exact ctrVal_bump_ne e 1 hk
  · rfl

theorem startCycle_sch (e : Engine) (c : CombId) (f : FrameId) : (startCycle e c f).sch = e.sch := by
  rw [startCycle, onFrame_sch]
  split
  · exact bump_sch e _ 1
  · rfl

theorem combOf_startCycle_ne {d : CombId} (h : d ≠ c) : combOf (startCycle e c f) d = combOf e d := by
  rw [startCycle, combOf_onFrame_ne f nextBeat h]
  split
  · exact combOf_bump e _ 1 d
  · rfl

theorem startCycle_of_not_stretched (h : islandStretched e c.val = false) : startCycle e c f = onFrame e c f nextBeat := by
  simp [startCycle, h]

end StartCycle

/-- One cycle of a working comb's frame: a flush empties the skew, DUTY withholds the cycle, or the frame lives it (R103, R551). -/
theorem frameStep_of_works {m : Mem} {e : Engine} {c : CombId} {f : FrameId} {rowLate colLate : Bool} (hw : works e c = true) :
    ((frameOf e c f).mode = .replayFlush → frameStep m e c f rowLate colLate =
      if withheld (dutyNow e) (frameOf e c f).beat then bumpComb (startCycle e c f) c .stallReplay 1
      else onFrame (bumpComb (startCycle e c f) c .stallReplay 1) c f fun fr => { sinceRead fr with flush := fr.flush - 1 }) ∧
    ((frameOf e c f).mode ≠ .replayFlush → frameStep m e c f rowLate colLate =
      if withheld (dutyNow e) (frameOf e c f).beat then
        (if frameDue (frameOf e c f) || waitsForTile (startCycle e c f) c f then bumpComb (startCycle e c f) c .stallThermal 1
          else startCycle e c f)
      else liveCycle m (startCycle e c f) c f rowLate colLate) := by
  have hduty : dutyNow (if islandStretched e c.val && frameDue (frameOf e c f) then bumpComb e c .stallDroop 1 else e) = dutyNow e := by
    split <;> simp [dutyNow, bumpComb]
  constructor <;> intro hmode <;> simp only [frameStep, hw, hmode, hduty, Bool.not_true, Bool.false_eq_true, if_false, if_true] <;> rfl

/-! ### A cycle that the frame lives -/

/-- The frame's operands moved, and its mode. -/
def afterMove (e : Engine) (c : CombId) (f : FrameId) (mv : Move) (mode : FrameMode) : Engine :=
  onFrame (onFrame e c f (cycleFrame mv)) c f fun fr => { fr with mode := mode }

theorem frameOf_afterMove {e : Engine} {c : CombId} {f : FrameId} (h : HasFrame e c f) (mv : Move) (mode : FrameMode) :
    frameOf (afterMove e c f mv mode) c f = { cycleFrame mv (frameOf e c f) with mode := mode } := by
  rw [afterMove, (hasFrame_onFrame.2 h).frameOf_onFrame, h.frameOf_onFrame]

@[simp] theorem ctrVal_afterMove (e : Engine) (c : CombId) (f : FrameId) (mv : Move) (mode : FrameMode) (k : Ctr) :
    ctrVal (afterMove e c f mv mode) k = ctrVal e k := by
  simp [afterMove]

@[simp] theorem afterMove_sch (e : Engine) (c : CombId) (f : FrameId) (mv : Move) (mode : FrameMode) : (afterMove e c f mv mode).sch = e.sch := by
  simp [afterMove]

theorem combOf_afterMove_ne {c d : CombId} (e : Engine) (f : FrameId) (mv : Move) (mode : FrameMode) (h : d ≠ c) :
    combOf (afterMove e c f mv mode) d = combOf e d := by
  rw [afterMove, combOf_onFrame_ne f _ h, combOf_onFrame_ne f _ h]

/-- The cycle counted in the stall counter of its cause (R271). -/
def stalled (m : Mem) (e : Engine) (c : CombId) (f : FrameId) (drain : Bool) : Engine := bumpComb e c (stallCause m e c f drain) 1

@[simp] theorem ctrVal_stalled (m : Mem) (e : Engine) (c : CombId) (f g : FrameId) (drain : Bool) (k : FrameCtr) :
    ctrVal (stalled m e c f drain) (.frame c g k) = ctrVal e (.frame c g k) :=
  ctrVal_bump_ne e 1 (by simp)

@[simp] theorem frameOf_stalled (m : Mem) (e : Engine) (c : CombId) (f g : FrameId) (drain : Bool) :
    frameOf (stalled m e c f drain) c g = frameOf e c g :=
  frameOf_bump e _ 1 c g

@[simp] theorem stalled_sch (m : Mem) (e : Engine) (c : CombId) (f : FrameId) (drain : Bool) : (stalled m e c f drain).sch = e.sch :=
  bump_sch e _ 1

/-- A step that has just entered is one that a working cell takes. -/
theorem anyStep_enter {fr : Frame} {st : StepIn} {rest : List StepIn} (hsteps : fr.steps = st :: rest) :
    anyStep (cycleFrame .enter fr).pipe = true := by
  obtain ⟨cs, fl, hframe, -, -⟩ := cycleFrame_spec .enter fr
  rw [hframe]
  simp [stepped, hsteps, shift, anyStep]

section Live
variable {m : Mem} {e : Engine} {c : CombId} {f : FrameId} {rowLate colLate : Bool}

/-- No interval passes while steps wait to enter (R153). -/
theorem passSkips_of_steps (hsteps : (frameOf e c f).steps ≠ []) (n : Nat) : passSkips m c f rowLate colLate n e = e := by
  have hdue : (!(frameOf e c f).steps.isEmpty) = true := by simpa using hsteps
  cases n with
  | zero => rfl
  | succ n =>
    unfold passSkips
    dsimp only
    split
    · rfl
    · rw [hdue, Bool.true_or, Bool.true_or, if_pos rfl]

theorem liveCycle_enter (h : HasFrame e c f) {st : StepIn} {rest : List StepIn} (hsteps : (frameOf e c f).steps = st :: rest) :
    liveCycle m e c f false false = bumpFrame (afterMove e c f .enter .run) c f .active 1 := by
  have hskip : passSkips m c f false false ((frameOf e c f).jobs.foldl (fun n j => n + j.parts.length) 0) e = e :=
    passSkips_of_steps (by simp [hsteps]) _
  have hany : anyStep (frameOf (onFrame e c f (cycleFrame .enter)) c f).pipe = true := by
    rw [h.frameOf_onFrame]
    exact anyStep_enter hsteps
  unfold liveCycle
  rw [hskip]
  simp [hsteps, freezeOf, hany, afterMove]

theorem liveCycle_late {st : StepIn} {rest : List StepIn} (hsteps : (frameOf e c f).steps = st :: rest)
    (hlate : rowLate = true ∨ colLate = true) : liveCycle m e c f rowLate colLate =
      stalled m (freezeRings m (bumpFrame (afterMove e c f .still (if rowLate then .frozenRowf else .frozenColf)) c f
        (if rowLate then .freezeRowf else .freezeColf) 1) c f) c f false := by
  have hskip : passSkips m c f rowLate colLate ((frameOf e c f).jobs.foldl (fun n j => n + j.parts.length) 0) e = e :=
    passSkips_of_steps (by simp [hsteps]) _
  unfold liveCycle
  rw [hskip]
  cases rowLate <;> cases colLate <;> simp_all [freezeOf, afterMove, stalled]

/-- No interval passes while the due one has steps (R153). -/
theorem passSkips_of_work {j : TileJob} {p : Part} {pf : PartFeed} (hdue : dueJob (frameOf e c f) = some (j, p))
    (hfeed : partFeed m e c j p = some pf) (hwork : skipped pf.feed.build = false) (n : Nat) : passSkips m c f rowLate colLate n e = e := by
  cases n with
  | zero => rfl
  | succ n => simp [passSkips, hdue, hfeed, hwork]

theorem liveCycle_drain {j : TileJob} {p : Part} {pf : PartFeed} (hsteps : (frameOf e c f).steps = [])
    (hdue : dueJob (frameOf e c f) = some (j, p)) (hfeed : partFeed m e c j p = some pf) (hwork : skipped pf.feed.build = false)
    (hdrain : freezeOf m e c (frameOf e c f) rowLate colLate = ⟨false, false, true⟩) : liveCycle m e c f rowLate colLate =
      stalled m (bumpFrame (afterMove e c f .null .frozenDrain) c f .freezeDrain 1) c f true := by
  unfold liveCycle
  rw [passSkips_of_work hdue hfeed hwork]
  simp [hsteps, hdue, hdrain, afterMove, stalled]

/-- A null step has entered, and the cycle counts as active while the skew holds steps (R110). -/
def nullCycle (e : Engine) (c : CombId) (f : FrameId) : Engine :=
  if anyStep (frameOf (onFrame e c f (cycleFrame .null)) c f).pipe then bumpFrame (afterMove e c f .null .idle) c f .active 1
  else afterMove e c f .null .idle

theorem nullCycle_keeps (h : HasFrame e c f) :
    frameOf (nullCycle e c f) c f = { cycleFrame .null (frameOf e c f) with mode := .idle } ∧
    (∀ i, taskOf (nullCycle e c f) i = taskOf e i) ∧ ctrVal (nullCycle e c f) (.frame c f .intervals) = ctrVal e (.frame c f .intervals) := by
  rw [← frameOf_afterMove h]
  unfold nullCycle
  split
  · exact ⟨frameOf_bump .., fun i => by simp [bumpFrame, afterMove], (ctrVal_bump_ne _ 1 (by simp)).trans (ctrVal_afterMove ..)⟩
  · exact ⟨rfl, fun i => by simp [afterMove], ctrVal_afterMove ..⟩

/-- A frame without a due step takes a null step and is idle (R110). -/
theorem liveCycle_idle {e' : Engine} (h : HasFrame e' c f)
    (hskip : passSkips m c f rowLate colLate ((frameOf e c f).jobs.foldl (fun n j => n + j.parts.length) 0) e = e')
    (hsteps : (frameOf e' c f).steps = []) (hdue : dueJob (frameOf e' c f) = none) :
    frameOf (liveCycle m e c f rowLate colLate) c f = { cycleFrame .null (frameOf e' c f) with mode := .idle } ∧
    (∀ i, taskOf (liveCycle m e c f rowLate colLate) i = taskOf e' i) ∧
    ctrVal (liveCycle m e c f rowLate colLate) (.frame c f .intervals) = ctrVal e' (.frame c f .intervals) := by
  have hlive : liveCycle m e c f rowLate colLate =
      if waitsForTile (nullCycle e' c f) c f then stalled m (nullCycle e' c f) c f false else nullCycle e' c f := by
    unfold liveCycle
    rw [hskip]
    simp only [hsteps, hdue, List.isEmpty_nil, Option.isSome_none, Bool.not_true, Bool.or_self, Bool.false_and, Bool.false_or, Bool.not_false,
      Bool.true_and, Bool.false_eq_true, if_false, if_true]
    rfl
  obtain ⟨hframe, htask, hctr⟩ := nullCycle_keeps h
  rw [hlive]
  split
  · exact ⟨(frameOf_stalled ..).trans hframe, fun i => (taskOf_bump ..).trans (htask i), (ctrVal_stalled ..).trans hctr⟩
  · exact ⟨hframe, htask, hctr⟩

end Live

/-! ### An interval that zero maps skip -/

/-- The tile of a pass that begins, its part's width settled. -/
def settledJob (pf : PartFeed) (j : TileJob) : TileJob :=
  settleNarrow pf.feed { j with parts := updAt j.parts j.entered (settlePart pf.feed.wide) }

theorem settledJob_frame (pf : PartFeed) (j : TileJob) : (settledJob pf j).task = j.task ∧ (settledJob pf j).tile = j.tile ∧
    (settledJob pf j).ctx = j.ctx ∧ (settledJob pf j).parts = updAt j.parts j.entered (settlePart pf.feed.wide) := by
  unfold settledJob settleNarrow
  split
  · exact ⟨rfl, rfl, rfl, rfl⟩
  · exact ⟨rfl, rfl, rfl, rfl⟩

/-- The attempt of a skipped interval joins the flight, and its part counts as entered (R153). -/
def skipEntry (pf : PartFeed) (j : TileJob) (p : Part) (fr : Frame) : Frame :=
  let entered := onJob (onJob fr j.task j.tile (settledJob pf)) j.task j.tile fun j => { j with pass := 0, entered := j.entered + 1 }
  { entered with flight := fr.flight ++ [attemptOf pf j p pf.feed.build j.pass fr.nextB] }

/-- The attempt leaves the flight again. -/
def skipLeft (j : TileJob) (fr : Frame) : Frame :=
  onJob { fr with flight := fr.flight.dropLast } j.task j.tile fun j => { j with entered := j.entered - 1 }

/-- A frame's only tile, of one part, after the skipped attempt has joined and left. -/
def skippedJob (pf : PartFeed) (j : TileJob) : TileJob := { settledJob pf j with pass := 0 }

theorem updFirst_only {j : TileJob} (g : TileJob → TileJob) {i n : Nat} (htask : j.task = i) (htile : j.tile = n) :
    updFirst (fun j => j.task == i && j.tile == n) g [j] = [g j] := by
  simp [updFirst, htask, htile]

theorem skipLeft_skipEntry {fr : Frame} {j : TileJob} (pf : PartFeed) (p : Part) (hjobs : fr.jobs = [j]) :
    skipLeft j (skipEntry pf j p fr) = { fr with jobs := [skippedJob pf j] } := by
  obtain ⟨htask, htile, -, -⟩ := settledJob_frame pf j
  simp only [skipLeft, skipEntry, onJob, hjobs, updFirst_only, htask, htile, List.dropLast_concat, Nat.add_sub_cancel, skippedJob]

/-- A skipped interval begins: it counts what its feeders read, and joins the flight without steps (R153). -/
theorem beginPass_skipped {m : Mem} {e : Engine} {c : CombId} {f : FrameId} {j : TileJob} {p : Part} {pf : PartFeed}
    (hfeed : partFeed m (readyPart m e c f j p) c j p = some pf) (hskip : skipped pf.feed.build = true) :
    ∃ e', workOf e' = workOf e ∧ beginPass m e c f j p = onFrame e' c f (skipEntry pf j p) := by
  have htrap : workOf (if pf.feed.build.trap then onTask (readyPart m e c f j p) j.task (fun t => { t with late := some (t.late.getD codeGroupOverflow) })
      else readyPart m e c f j p) = workOf e := by
    split
    · exact (workOf_onTask _ j.task).trans (workOf_readyPart m e c f j p)
    · exact workOf_readyPart m e c f j p
  refine ⟨_, ?_, by simp only [beginPass, hfeed, hskip, if_true]; rfl⟩
  split
  · exact (workOf_onTask _ j.task).trans htrap
  · exact htrap

/-- Only a frame that is there has intervals that wait for write-out. -/
theorem hasFrame_of_out {e : Engine} {c : CombId} {f : FrameId} (h : (workFrame e c f).out ≠ []) : HasFrame e c f := by
  constructor
  · by_contra hc
    have hcomb : combOf e c = {} := by simp [combOf, List.getElem?_eq_none (Nat.le_of_not_lt hc)]
    have hdefault : ∀ g : FrameId, (((({} : Comb).frames)[g.val]?).getD {}).out = [] := by decide
    refine h ?_
    rw [workFrame, frameOf, hcomb]
    exact hdefault f
  · by_contra hf
    exact h (by simp [workFrame, frameOf, List.getElem?_eq_none (Nat.le_of_not_lt hf), frameWork])

/-- The drain unit converts and stores the tile whose last part is skipped (R153). -/
theorem skipPart_last {m : Mem} {e : Engine} {c : CombId} {f : FrameId} {t : TaskRec} {j j' : TileJob} {p : Part} {a : Attempt}
    (hlast : (frameOf (beginPass m e c f j p) c f).flight.getLast? = some a)
    (hfind : (frameOf (countReplay (onFrame (beginPass m e c f j p) c f (skipLeft j)) c f a) c f).jobs.find?
      (fun x => x.task == j.task && x.tile == j.tile) = some j') (hone : j'.parts.length = 1) :
    skipPart m e c f t j p = commitPart m (countReplay (onFrame (beginPass m e c f j p) c f (skipLeft j)) c f a) c f a [] := by
  simp only [skipPart, hlast]
  unfold skipLeft at hfind
  simp only [hfind, hone, if_true]
  rfl

theorem leaveTile_only {fr : Frame} {a : Attempt} {j : TileJob} (hjobs : fr.jobs = [j]) (htask : j.task = a.task) (htile : j.tile = a.tile) :
    leaveTile a [] fr = { fr with jobs := [] } := by
  simp only [leaveTile, onJob, hjobs, updFirst_only _ htask htile]
  rfl

theorem isSome_of_partFeed {m : Mem} {e : Engine} {c : CombId} {j : TileJob} {p : Part} {pf : PartFeed} (h : partFeed m e c j p = some pf) :
    (ctxOf e c j.ctx).isSome = true ∧ (taskOf e j.task).isSome = true := by
  unfold partFeed at h
  split at h
  · next hctx htask => simp [hctx, htask]
  · cases h

/-- The only interval of a frame's only tile commits as it is skipped: the tile's row waits for write-out, nothing counts in FRM_INTERVALS, and
the task has committed the tile (R153, assumptions/104, assumptions/141). -/
theorem skipPart_only {m : Mem} {e : Engine} {c : CombId} {f : FrameId} {t : TaskRec} {j : TileJob} {p : Part} {pf : PartFeed} (h : HasFrame e c f)
    (hjobs : (frameOf e c f).jobs = [j]) (hflight : (frameOf e c f).flight = []) (hparts : j.parts = [p]) (hentered : j.entered = 0)
    (hfeed : partFeed m (readyPart m e c f j p) c j p = some pf) (hskip : skipped pf.feed.build = true) :
    ∃ a o tk, a.task = j.task ∧ a.tile = j.tile ∧ a.skip = true ∧ CommitsTo a (settlePart pf.feed.wide p) [] o ∧
      workFrame (skipPart m e c f t j p) c f = { workFrame e c f with jobs := [], out := (workFrame e c f).out ++ [o] } ∧
      ctrVal (skipPart m e c f t j p) (.frame c f .intervals) = ctrVal e (.frame c f .intervals) ∧
      taskOf (skipPart m e c f t j p) j.task = some tk ∧ j.tile ∈ tk.commTiles := by
  obtain ⟨e', hwork, hbegin⟩ := beginPass_skipped hfeed hskip
  have he' : HasFrame e' c f := (hasFrame_of_workOf hwork c f).2 h
  have hframe : workFrame e' c f = workFrame e c f := workFrame_of_workOf hwork c f
  have hjobs' : (frameOf e' c f).jobs = [j] := (congrArg Frame.jobs hframe :).trans hjobs
  have hflight' : (frameOf e' c f).flight = [] := (congrArg Frame.flight hframe :).trans hflight
  generalize ha : attemptOf pf j p pf.feed.build j.pass (frameOf e' c f).nextB = a
  have hlast : (frameOf (beginPass m e c f j p) c f).flight.getLast? = some a := by
    rw [hbegin, he'.frameOf_onFrame]
    simp [skipEntry, hflight', ha]
  have hleft : frameOf (onFrame (onFrame e' c f (skipEntry pf j p)) c f (skipLeft j)) c f =
      { frameOf e' c f with jobs := [skippedJob pf j] } := by
    rw [(hasFrame_onFrame.2 he').frameOf_onFrame, he'.frameOf_onFrame, skipLeft_skipEntry pf p hjobs']
  obtain ⟨htask, htile, hctx, hsettled⟩ := settledJob_frame pf j
  have hat : a.task = j.task := by rw [← ha]; rfl
  have hai : a.tile = j.tile := by rw [← ha]; rfl
  generalize he₂ : countReplay (onFrame (onFrame e' c f (skipEntry pf j p)) c f (skipLeft j)) c f a = e₂
  have hframe₂ : frameOf e₂ c f = { frameOf e' c f with jobs := [skippedJob pf j] } := by rw [← he₂, frameOf_countReplay, hleft]
  have hfind : (frameOf e₂ c f).jobs.find? (fun x => x.task == j.task && x.tile == j.tile) = some (skippedJob pf j) := by
    simp [hframe₂, skippedJob, htask, htile]
  have hone : (skippedJob pf j).parts = [settlePart pf.feed.wide p] := by
    rw [skippedJob, hsettled, hparts, hentered]
    rfl
  have hcommit : skipPart m e c f t j p = commitPart m e₂ c f a [] := by
    rw [← he₂, ← hbegin]
    refine skipPart_last hlast ?_ (congrArg List.length hone)
    rw [hbegin, he₂, hfind]
  have hready : workOf e' = workOf (readyPart m e c f j p) := by rw [hwork, workOf_readyPart]
  obtain ⟨hctxReady, htaskReady⟩ := isSome_of_partFeed hfeed
  have hctx₂ : (ctxOf e₂ c (skippedJob pf j).ctx).isSome = true := by
    rw [← he₂, ctxOf_countReplay, ctxOf_onFrame, ctxOf_onFrame, skippedJob, hctx, ctxOf_isSome_of_workOf hready, hctxReady]
  obtain ⟨tk, htk⟩ : ∃ tk, taskOf e₂ a.task = some tk := by
    have hmap : (taskOf e₂ a.task).map taskWork = (taskOf (readyPart m e c f j p) j.task).map taskWork := by
      rw [← he₂, taskWork_countReplay, taskOf_onFrame, taskOf_onFrame, hat, taskWork_of_workOf hready]
    have hsome := congrArg Option.isSome hmap
    rw [Option.isSome_map, Option.isSome_map, htaskReady] at hsome
    exact Option.isSome_iff_exists.1 hsome
  rw [← hat, ← hai] at hfind
  have h₂ : HasFrame e₂ c f := by
    rw [← he₂]
    simpa using he'
  obtain ⟨o, ho, hwf, hctr, hdone⟩ := commitPart_spec (m := m) (vals := []) h₂ hfind htk hone hctx₂ (.inl rfl)
  obtain ⟨tk', htk', hmem⟩ := hdone rfl
  refine ⟨a, o, tk', hat, hai, ?_, ho, ?_, ?_, ?_, ?_⟩
  · rw [← ha]
    exact hskip
  · have hwf₂ : workFrame e₂ c f = { workFrame e c f with jobs := [skippedJob pf j] } := by rw [workFrame, hframe₂, ← hframe]; rfl
    rw [hcommit, hwf, hwf₂]
    exact leaveTile_only rfl (htask.trans hat.symm) (htile.trans hai.symm)
  · have hskipped : a.skip = true := by rw [← ha]; exact hskip
    rw [hcommit, hctr _ rfl, if_pos hskipped, ← he₂, ctrVal_countReplay, if_neg (by simp), ctrVal_onFrame, ctrVal_onFrame,
      ctrVal_of_workOf hwork rfl]
  · rw [hcommit, ← hat]
    exact htk'
  · rwa [hai] at hmem

/-- A frame is its work in hand with its register files. -/
theorem frameOf_of_workFrame {e : Engine} {c : CombId} {f : FrameId} {fr : Frame} (h : workFrame e c f = fr) :
    frameOf e c f = { fr with banks := (frameOf e c f).banks, smooth := (frameOf e c f).smooth, held := (frameOf e c f).held } := by
  rw [← h]
  rfl

/-! ### FRAME_STEP -/

theorem exec_frameStep (c : CombId) (f : FrameId) (rowLate colLate : Bool) (s : State) :
    exec (.frameStep c f rowLate colLate) s = .next (withEng s (frameStep s.mem s.eng c f rowLate colLate)) := rfl

section FrameStep
variable {m : Mem} {e : Engine} {c : CombId} {f : FrameId} {rowLate colLate : Bool}

/-- A cycle that DUTY withholds moves nothing (R551). -/
theorem frameStep_withheld (h : HasFrame e c f) (hw : works e c = true) (hhold : withheld (dutyNow e) (frameOf e c f).beat = true) :
    frameOf (frameStep m e c f rowLate colLate) c f = nextBeat (frameOf e c f) ∧ (frameStep m e c f rowLate colLate).sch = e.sch ∧
    ((frameOf e c f).mode ≠ .replayFlush → frameDue (frameOf e c f) = true → ctrVal (frameStep m e c f rowLate colLate) (.comb c .stallThermal) =
      min (2 ^ 32 - 1) (ctrVal e (.comb c .stallThermal) + 1)) := by
  obtain ⟨hflush, hlive⟩ := frameStep_of_works (m := m) (rowLate := rowLate) (colLate := colLate) (f := f) hw
  by_cases hmode : (frameOf e c f).mode = .replayFlush
  · rw [hflush hmode, if_pos hhold, bumpComb, frameOf_bump, frameOf_startCycle h, bump_sch, startCycle_sch]
    exact ⟨rfl, rfl, fun hne => absurd hmode hne⟩
  · rw [hlive hmode, if_pos hhold]
    split
    · rw [bumpComb, frameOf_bump, frameOf_startCycle h, bump_sch, startCycle_sch]
      refine ⟨rfl, rfl, fun _ _ => ?_⟩
      rw [ctrVal_bump_one, if_pos rfl, ctrVal_startCycle (by simp)]
      rfl
    · next hdue =>
      rw [frameOf_startCycle h, startCycle_sch]
      exact ⟨rfl, rfl, fun _ hd => absurd (by rw [hd, Bool.true_or]) hdue⟩

/-- In a flush the skew empties, and the cycle counts as lost to the replay (R103). -/
theorem frameStep_flush (h : HasFrame e c f) (hw : works e c = true) (hhold : withheld (dutyNow e) (frameOf e c f).beat = false)
    (hmode : (frameOf e c f).mode = .replayFlush) : frameOf (frameStep m e c f rowLate colLate) c f =
      { sinceRead (nextBeat (frameOf e c f)) with flush := (frameOf e c f).flush - 1 } ∧
    ctrVal (frameStep m e c f rowLate colLate) (.comb c .stallReplay) = min (2 ^ 32 - 1) (ctrVal e (.comb c .stallReplay) + 1) := by
  have hne : ¬ withheld (dutyNow e) (frameOf e c f).beat = true := by simp [hhold]
  rw [(frameStep_of_works hw).1 hmode, if_neg hne, bumpComb, (hasFrame_bump.2 (hasFrame_startCycle h)).frameOf_onFrame, frameOf_bump,
    frameOf_startCycle h, ctrVal_onFrame, ctrVal_bump_one, if_pos rfl, ctrVal_startCycle (by simp)]
  exact ⟨rfl, rfl⟩

/-- A cycle that DUTY does not withhold, flushes apart, is lived. -/
theorem frameStep_lives (hw : works e c = true) (hhold : withheld (dutyNow e) (frameOf e c f).beat = false)
    (hmode : (frameOf e c f).mode ≠ .replayFlush) :
    frameStep m e c f rowLate colLate = liveCycle m (startCycle e c f) c f rowLate colLate := by
  have hne : ¬ withheld (dutyNow e) (frameOf e c f).beat = true := by simp [hhold]
  rw [(frameStep_of_works hw).2 hmode, if_neg hne]

/-- The part due of a tile of one part is its first. -/
theorem entered_of_dueJob {fr : Frame} {j : TileJob} {p : Part} (hdue : dueJob fr = some (j, p)) (hparts : j.parts = [p]) : j.entered = 0 := by
  obtain ⟨k, -, hk⟩ := Option.bind_eq_some_iff.1 hdue
  obtain ⟨q, hq, heq⟩ := Option.map_eq_some_iff.1 hk
  obtain ⟨rfl, rfl⟩ := Prod.mk.inj heq
  obtain ⟨hlt, -⟩ := List.getElem?_eq_some_iff.1 hq
  simpa [hparts] using hlt

theorem passSkips_one {j : TileJob} {p : Part} {pf : PartFeed} (hsteps : (frameOf e c f).steps = [])
    (hdue : dueJob (frameOf e c f) = some (j, p)) (hfeed : partFeed m e c j p = some pf) (hskip : skipped pf.feed.build = true)
    (hrow : (freezeOf m e c (frameOf e c f) rowLate colLate).row = false) (hcol : (freezeOf m e c (frameOf e c f) rowLate colLate).col = false) :
    passSkips m c f rowLate colLate 1 e = skipPart m e c f pf.tk.record j p := by
  simp [passSkips, hsteps, hdue, hfeed, hskip, hrow, hcol]

/-- A due step enters (R87). -/
theorem frameStep_enters (h : HasFrame e c f) (hlives : frameStep m e c f false false = liveCycle m (startCycle e c f) c f false false)
    {st : StepIn} {rest : List StepIn} (hsteps : (frameOf e c f).steps = st :: rest) :
    (∃ cs fl, frameOf (frameStep m e c f false false) c f =
        { stepped .enter (nextBeat (frameOf e c f)) with cells := cs, flight := fl, mode := .run } ∧
      ((∀ a ∈ (frameOf e c f).flight, a.age = none) → cs = accumulate (shift (frameOf e c f).pipe (some st)) (frameOf e c f).cells)) ∧
    ctrVal (frameStep m e c f false false) (.frame c f .active) = min (2 ^ 32 - 1) (ctrVal e (.frame c f .active) + 1) ∧
    (∀ d, d ≠ c → combOf (frameStep m e c f false false) d = combOf e d) ∧ (frameStep m e c f false false).sch = e.sch := by
  have hstart := hasFrame_startCycle h
  have hlive := liveCycle_enter (m := m) hstart (by rw [frameOf_startCycle h]; exact hsteps)
  obtain ⟨cs, fl, hframe, hcells, -⟩ := cycleFrame_spec .enter (nextBeat (frameOf e c f))
  rw [hlives, hlive, bumpFrame]
  refine ⟨⟨cs, fl, ?_, fun hquiet => ?_⟩, ?_, fun d hd => ?_, ?_⟩
  · rw [frameOf_bump, frameOf_afterMove hstart, frameOf_startCycle h, hframe]
  · rw [hcells hquiet]
    simp [stepped, nextBeat, hsteps]
  · rw [ctrVal_bump_one, if_pos rfl, ctrVal_afterMove, ctrVal_startCycle (by simp)]
    rfl
  · rw [combOf_bump, combOf_afterMove_ne _ f _ _ hd, combOf_startCycle_ne hd]
  · rw [bump_sch, afterMove_sch, startCycle_sch]

/-- With a feeder short nothing moves (R107, R108). -/
theorem frameStep_freezes (h : HasFrame e c f)
    (hlives : frameStep m e c f rowLate colLate = liveCycle m (startCycle e c f) c f rowLate colLate)
    {st : StepIn} {rest : List StepIn} (hsteps : (frameOf e c f).steps = st :: rest) (hlate : rowLate = true ∨ colLate = true) :
    (∃ cs fl, workFrame (frameStep m e c f rowLate colLate) c f = { nextBeat (workFrame e c f) with
        cells := cs, flight := fl, mode := if rowLate then .frozenRowf else .frozenColf } ∧
      ((∀ a ∈ (frameOf e c f).flight, a.age = none) → cs = (frameOf e c f).cells)) ∧
    ctrVal (frameStep m e c f rowLate colLate) (.frame c f (if rowLate then .freezeRowf else .freezeColf)) =
      min (2 ^ 32 - 1) (ctrVal e (.frame c f (if rowLate then .freezeRowf else .freezeColf)) + 1) ∧
    ctrVal (frameStep m e c f rowLate colLate) (.frame c f .active) = ctrVal e (.frame c f .active) := by
  have hstart := hasFrame_startCycle h
  have hlive := liveCycle_late (m := m) (by rw [frameOf_startCycle h]; exact hsteps) hlate
  obtain ⟨cs, fl, hframe, hcells, -⟩ := cycleFrame_spec .still (nextBeat (frameOf e c f))
  rw [hlives, hlive]
  have hctr : ∀ k, ctrVal (stalled m (freezeRings m (bumpFrame (afterMove (startCycle e c f) c f .still
        (if rowLate then .frozenRowf else .frozenColf)) c f (if rowLate then .freezeRowf else .freezeColf) 1) c f) c f false) (.frame c f k) =
      ctrVal (bumpFrame e c f (if rowLate then .freezeRowf else .freezeColf) 1) (.frame c f k) := fun k => by
    have hstarted : ∀ q, ctrVal (startCycle e c f) (.frame c f q) = ctrVal e (.frame c f q) := fun q => ctrVal_startCycle (by simp)
    rw [ctrVal_stalled, ctrVal_of_workOf (workOf_freezeRings ..) rfl, bumpFrame, bumpFrame, ctrVal_bump_one, ctrVal_bump_one, ctrVal_afterMove,
      ctrVal_afterMove, hstarted, hstarted]
  refine ⟨⟨cs, fl, ?_, hcells⟩, ?_, ?_⟩
  · rw [workFrame, frameOf_stalled, ← workFrame, workFrame_of_workOf (workOf_freezeRings ..), workFrame, bumpFrame, frameOf_bump,
      frameOf_afterMove hstart, frameOf_startCycle h, hframe]
    rfl
  · rw [hctr, bumpFrame, ctrVal_bump_one, if_pos rfl]
    cases rowLate <;> rfl
  · rw [hctr]
    exact ctrVal_bump_ne e 1 (by cases rowLate <;> simp)

/-- While the drain unit has not read what the next interval would fill, null steps enter (R106). -/
theorem frameStep_drains (h : HasFrame e c f)
    (hlives : frameStep m e c f rowLate colLate = liveCycle m (startCycle e c f) c f rowLate colLate) {j : TileJob} {p : Part} {pf : PartFeed}
    (hsteps : (frameOf e c f).steps = []) (hdue : dueJob (frameOf e c f) = some (j, p)) (hfeed : partFeed m (startCycle e c f) c j p = some pf)
    (hwork : skipped pf.feed.build = false)
    (hdrain : freezeOf m (startCycle e c f) c (frameOf (startCycle e c f) c f) rowLate colLate = ⟨false, false, true⟩) :
    (∃ cs fl, frameOf (frameStep m e c f rowLate colLate) c f =
      { stepped .null (nextBeat (frameOf e c f)) with cells := cs, flight := fl, mode := .frozenDrain }) ∧
    ctrVal (frameStep m e c f rowLate colLate) (.frame c f .freezeDrain) = min (2 ^ 32 - 1) (ctrVal e (.frame c f .freezeDrain) + 1) ∧
    ctrVal (frameStep m e c f rowLate colLate) (.frame c f .active) = ctrVal e (.frame c f .active) ∧
    (frameStep m e c f rowLate colLate).sch = e.sch := by
  have hstart := hasFrame_startCycle h
  have hframe := frameOf_startCycle h
  have hlive := liveCycle_drain (m := m) (rowLate := rowLate) (colLate := colLate) (by rw [hframe]; exact hsteps) (by rw [hframe]; exact hdue)
    hfeed hwork hdrain
  obtain ⟨cs, fl, hcycle, -, -⟩ := cycleFrame_spec .null (nextBeat (frameOf e c f))
  rw [hlives, hlive]
  refine ⟨⟨cs, fl, ?_⟩, ?_, ?_, ?_⟩
  · rw [frameOf_stalled, bumpFrame, frameOf_bump, frameOf_afterMove hstart, hframe, hcycle]
  · rw [ctrVal_stalled, bumpFrame, ctrVal_bump_one, if_pos rfl, ctrVal_afterMove, ctrVal_startCycle (by simp)]
    rfl
  · rw [ctrVal_stalled, bumpFrame, ctrVal_bump_ne _ 1 (by simp), ctrVal_afterMove, ctrVal_startCycle (by simp)]
  · rw [stalled_sch, bumpFrame, bump_sch, afterMove_sch, startCycle_sch]

/-- The only interval of a frame's only tile, skipped, commits where its first step would have entered, and the frame is idle (R153). -/
theorem frameStep_skips (h : HasFrame e c f)
    (hlives : frameStep m e c f rowLate colLate = liveCycle m (startCycle e c f) c f rowLate colLate) {j : TileJob} {p : Part} {pf pf' : PartFeed}
    (hsteps : (frameOf e c f).steps = []) (hdue : dueJob (frameOf e c f) = some (j, p)) (hfeed : partFeed m (startCycle e c f) c j p = some pf)
    (hskip : skipped pf.feed.build = true) (hrow : (freezeOf m (startCycle e c f) c (frameOf (startCycle e c f) c f) rowLate colLate).row = false)
    (hcol : (freezeOf m (startCycle e c f) c (frameOf (startCycle e c f) c f) rowLate colLate).col = false)
    (hfeed' : partFeed m (readyPart m (startCycle e c f) c f j p) c j p = some pf') (hskip' : skipped pf'.feed.build = true)
    (hjobs : (frameOf e c f).jobs = [j]) (hparts : j.parts = [p]) (hflight : (frameOf e c f).flight = []) :
    ∃ o tk, o.task = j.task ∧ o.tile = j.tile ∧ o.reach = p.start + p.len ∧ o.lastOfTile = true ∧ o.staged = false ∧
      (∃ cs, workFrame (frameStep m e c f rowLate colLate) c f = { stepped .null (nextBeat (workFrame e c f)) with
        cells := cs, flight := [], jobs := [], out := (frameOf e c f).out ++ [o], mode := .idle }) ∧
      ctrVal (frameStep m e c f rowLate colLate) (.frame c f .intervals) = ctrVal e (.frame c f .intervals) ∧
      taskOf (frameStep m e c f rowLate colLate) j.task = some tk ∧ j.tile ∈ tk.commTiles := by
  have hstart := hasFrame_startCycle h
  have hframe := frameOf_startCycle h
  obtain ⟨a, o, tk, htask, htile, hskipped, ho, hcommit, hctr, htk, hmem⟩ := skipPart_only (t := pf.tk.record) hstart (by rw [hframe]; exact hjobs)
    (by rw [hframe]; exact hflight) hparts (entered_of_dueJob hdue hparts) hfeed' hskip'
  have hlast : passSkips m c f rowLate colLate ((frameOf (startCycle e c f) c f).jobs.foldl (fun n j => n + j.parts.length) 0) (startCycle e c f) =
      skipPart m (startCycle e c f) c f pf.tk.record j p := by
    have hone : (frameOf (startCycle e c f) c f).jobs.foldl (fun n j => n + j.parts.length) 0 = 1 := by simp [hframe, nextBeat, hjobs, hparts]
    rw [hone]
    exact passSkips_one (by rw [hframe]; exact hsteps) (by rw [hframe]; exact hdue) hfeed hskip hrow hcol
  generalize skipPart m (startCycle e c f) c f pf.tk.record j p = e' at *
  have he' : HasFrame e' c f := hasFrame_of_out (by simp [hcommit])
  have hwork : workFrame (startCycle e c f) c f = nextBeat (workFrame e c f) := by rw [workFrame, hframe]; rfl
  rw [hwork] at hcommit
  have hsteps' : (frameOf e' c f).steps = [] := (congrArg Frame.steps hcommit :).trans hsteps
  have hjobs' : (frameOf e' c f).jobs = [] := (congrArg Frame.jobs hcommit :)
  have hflight' : (frameOf e' c f).flight = [] := (congrArg Frame.flight hcommit :).trans hflight
  have hidle : dueJob (frameOf e' c f) = none := by simp [dueJob, hjobs']
  obtain ⟨hlive, htasks, hcount⟩ := liveCycle_idle he' hlast hsteps' hidle
  obtain ⟨cs, fl, hcycle, -, hempty⟩ := cycleFrame_spec .null (frameOf e' c f)
  rw [hlives, hcount, htasks, hctr, ctrVal_startCycle (by simp)]
  refine ⟨o, tk, ho.task.trans htask, ho.tile.trans htile, ho.reach, ho.last, by rw [ho.staged, hskipped]; rfl, ⟨cs, ?_⟩, rfl, htk, hmem⟩
  rw [workFrame, hlive, hcycle, hempty hflight']
  change { stepped .null (workFrame e' c f) with cells := cs, flight := [], mode := .idle } = _
  rw [hcommit]
  rfl

end FrameStep

/-- Settles O30: a frame's cycle by its cases (`frameStep_withheld`, `frameStep_flush`, `frameStep_enters`, `frameStep_freezes`,
`frameStep_drains`, `frameStep_skips`); that a skipped interval counts in no FRM_INTERVALS is the model's choice (assumptions/104,
assumptions/141). -/
theorem frameStepMovesOrFreezes : Obligations.FrameStepMovesOrFreezes := by
  unfold Obligations.FrameStepMovesOrFreezes
  rintro s c f rowLate colLate fr rfl hcombs hframes
  have h : HasFrame s.eng c f := hasFrame_of_lengths f hcombs hframes
  simp only [exec_frameStep]
  refine ⟨fun hw => ?_, fun hw hhold => ?_, fun hw hhold => ⟨fun hmode => ?_, fun st rest hmode hsteps => ⟨?_, fun hlate => ?_⟩, ?_⟩⟩
  · simp only [frameStep, hw]
    rfl
  · obtain ⟨hframe, hsch, hstall⟩ := frameStep_withheld (m := s.mem) (rowLate := rowLate) (colLate := colLate) h hw hhold
    refine ⟨_, rfl, ?_⟩
    rw [withEng_eng]
    exact ⟨hframe, hsch, rfl, rfl, hstall⟩
  · obtain ⟨hframe, hctr⟩ := frameStep_flush (m := s.mem) (rowLate := rowLate) (colLate := colLate) h hw hhold hmode
    refine ⟨_, rfl, ?_⟩
    rw [withEng_eng, hframe]
    exact ⟨rfl, hmode, rfl, rfl, hctr, rfl, rfl⟩
  · rintro rfl rfl
    obtain ⟨⟨cs, fl, hframe, hcells⟩, hctr, hothers, hsch⟩ := frameStep_enters h (frameStep_lives (m := s.mem) hw hhold hmode) hsteps
    refine ⟨_, rfl, ?_⟩
    rw [withEng_eng, hframe]
    exact ⟨congrArg List.tail hsteps, congrArg (shift _) (congrArg List.head? hsteps), rfl, rfl, hcells, hctr, hothers, hsch, rfl, rfl⟩
  · obtain ⟨⟨cs, fl, hframe, hcells⟩, hctr, hactive⟩ := frameStep_freezes h (frameStep_lives (m := s.mem) hw hhold hmode) hsteps hlate
    refine ⟨_, rfl, ?_⟩
    rw [withEng_eng, frameOf_of_workFrame hframe]
    exact ⟨rfl, rfl, rfl, hctr, hactive, hcells, rfl, rfl⟩
  · rintro e j p pf hmode hplain he hsteps hdue hfeed
    have hlives := frameStep_lives (m := s.mem) (rowLate := rowLate) (colLate := colLate) hw hhold hmode
    obtain rfl : e = startCycle s.eng c f := he.trans (startCycle_of_not_stretched hplain).symm
    refine ⟨fun hdrain hwork => ?_, fun pf' hrow hcol hskip hfeed' hskip' hjobs hparts hflight => ?_⟩
    · obtain ⟨⟨cs, fl, hframe⟩, hctr, hactive, hsch⟩ := frameStep_drains h hlives hsteps hdue hfeed hwork hdrain
      refine ⟨_, rfl, ?_⟩
      rw [withEng_eng, hframe]
      exact ⟨rfl, rfl, hsteps, rfl, hctr, hactive, hsch, rfl⟩
    · obtain ⟨o, tk, htask, htile, hreach, hlast, hstaged, ⟨cs, hframe⟩, hctr, htk, hmem⟩ := frameStep_skips h hlives hsteps hdue hfeed hskip
        hrow hcol hfeed' hskip' hjobs hparts hflight
      refine ⟨_, o, rfl, ?_⟩
      rw [withEng_eng, frameOf_of_workFrame hframe]
      exact ⟨rfl, rfl, rfl, htask, htile, hreach, hlast, hstaged, rfl, hctr, ⟨tk, htk, hmem⟩, rfl⟩

end Sys2Proof.Machine
end

section
/-! Proofs: tiles issued to a frame. -/

namespace Sys2Proof.Machine

/-! ### The least by a measure, of those sorted by a key -/

theorem mem_insertBy {α : Type} {lt : α → α → Bool} {a x : α} {l : List α} : x ∈ insertBy lt a l ↔ x = a ∨ x ∈ l := by
  induction l with
  | nil => simp [insertBy]
  | cons b l ih =>
    simp only [insertBy]
    split
    · simp
    · simp [ih]; tauto

theorem mem_sortBy {α : Type} {lt : α → α → Bool} {x : α} {l : List α} : x ∈ sortBy lt l ↔ x ∈ l := by
  induction l with
  | nil => simp [sortBy]
  | cons a l ih => simp [sortBy, mem_insertBy, ih]

/-- An element put into a list that rises by a key leaves it rising. -/
theorem pairwise_insertBy {α : Type} (key : α → Nat) (a : α) {l : List α} (h : l.Pairwise (key · ≤ key ·)) :
    (insertBy (fun x y => decide (key x < key y)) a l).Pairwise (key · ≤ key ·) := by
  induction l with
  | nil => simp [insertBy]
  | cons b l ih =>
    obtain ⟨hb, hl⟩ := List.pairwise_cons.1 h
    simp only [insertBy, decide_eq_true_eq]
    split
    · next hlt =>
      refine List.pairwise_cons.2 ⟨fun x hx => ?_, h⟩
      rcases List.mem_cons.1 hx with rfl | hx
      · exact hlt.le
      · exact hlt.le.trans (hb x hx)
    · next hle =>
      refine List.pairwise_cons.2 ⟨fun x hx => ?_, ih hl⟩
      rcases mem_insertBy.1 hx with rfl | hx
      · exact Nat.le_of_not_lt hle
      · exact hb x hx

theorem pairwise_sortBy {α : Type} (key : α → Nat) (l : List α) :
    (sortBy (fun x y => decide (key x < key y)) l).Pairwise (key · ≤ key ·) := by
  induction l with
  | nil => exact List.Pairwise.nil
  | cons a l ih => exact pairwise_insertBy key a ih

/-- An element that measures less than those before it, and no more than those after it, is the smallest. -/
theorem minBy_append_cons {α : Type} {m : α → Nat} {l₁ l₂ : List α} {a : α}
    (h₁ : ∀ x ∈ l₁, m a < m x) (h₂ : ∀ x ∈ l₂, m a ≤ m x) :
    minBy m (l₁ ++ a :: l₂) = some a := by
  have hkeep : l₂.foldl (fun b c => if m c < m b then c else b) a = a := by
    induction l₂ with
    | nil => rfl
    | cons x l₂ ih =>
      rw [List.foldl_cons, if_neg (Nat.not_lt.2 (h₂ x (by simp)))]
      exact ih fun y hy => h₂ y (by simp [hy])
  cases l₁ with
  | nil => exact congrArg some hkeep
  | cons b l₁ =>
    refine congrArg some ?_
    induction l₁ generalizing b with
    | nil => exact (congrArg (l₂.foldl _) (if_pos (h₁ b (by simp)))).trans hkeep
    | cons x l₁ ih =>
      refine ih (if m x < m b then x else b) fun y hy => ?_
      rcases List.mem_cons.1 hy with rfl | hy
      · split <;> exact h₁ _ (by simp)
      · exact h₁ y (by simp [hy])

/-- An element that ranks before every other, by a measure and then by a key, is the one that is found. -/
theorem minBy_sortBy {α : Type} {m key : α → Nat} {l : List α} {a : α} (ha : a ∈ l)
    (h : ∀ b ∈ l, b ≠ a → m a < m b ∨ (m a = m b ∧ key a < key b)) :
    minBy m (sortBy (fun x y => decide (key x < key y)) l) = some a := by
  obtain ⟨l₁, l₂, hl, hfirst⟩ := List.eq_append_cons_of_mem (mem_sortBy.2 ha)
  have hrank : ∀ b ∈ l₁ ++ a :: l₂, b ≠ a → m a < m b ∨ (m a = m b ∧ key a < key b) := fun b hb =>
    h b (mem_sortBy.1 (hl ▸ hb))
  have hsorted := hl ▸ pairwise_sortBy key l
  rw [hl]
  refine minBy_append_cons (fun x hx => ?_) fun x hx => ?_
  · have hkey : key x ≤ key a := (List.pairwise_append.1 hsorted).2.2 x hx a (by simp)
    have hx' := hrank x (by simp [hx]) (ne_of_mem_of_not_mem hx hfirst)
    omega
  · by_cases hxa : x = a
    · exact (congrArg m hxa).ge
    · have hx' := hrank x (by simp [hx]) hxa
      omega

/-! ### Counters that an issue does not read -/

@[simp] theorem tileError_bump (m : Mem) (e : Engine) (q : Ctr) (n : Nat) (c : CombId) (k : Ctx) (tk : Task) (mask tile : Nat) :
    tileError m (bump e q n) c k tk mask tile = tileError m e c k tk mask tile := by
  rw [(bump_spec e q n).2.2]; rfl

@[simp] theorem candidates_bump (e : Engine) (q : Ctr) (n : Nat) (c : CombId) (f : FrameId) :
    candidates (bump e q n) c f = candidates e c f := by
  rw [(bump_spec e q n).2.2]; rfl

@[simp] theorem issuable_bump (e : Engine) (q : Ctr) (n : Nat) (c : CombId) (a : Cand) : issuable (bump e q n) c a = issuable e c a := by
  rw [(bump_spec e q n).2.2]; rfl

/-- A candidate's context and its task, which has not failed. -/
theorem of_mem_candidates {e : Engine} {c : CombId} {f : FrameId} {a : Cand} (h : a ∈ candidates e c f) :
    ctxOf e c a.x = some a.k ∧ taskOf e a.k.task = some a.tk ∧ a.tk.failed = none := by
  obtain ⟨x, -, hx⟩ := List.mem_filterMap.1 h
  split at hx
  · simp at hx
  · next k hctx =>
    split at hx
    · simp at hx
    · next tk mask hprod =>
      obtain ⟨tile, -, rfl⟩ := Option.map_eq_some_iff.1 (Option.ite_none_right_eq_some.1 hx).2
      simp only [productOf] at hprod
      split at hprod
      · next t ht =>
        obtain ⟨hok, hpair⟩ := Option.ite_none_right_eq_some.1 hprod
        obtain ⟨rfl, -⟩ := Prod.mk.inj (Option.some.inj hpair)
        simp only [Bool.and_eq_true, Option.isNone_iff_eq_none] at hok
        exact ⟨hctx, ht, hok.1.2⟩
      · simp at hprod

/-! ### A tile that can not run -/

/-- A comb that is not fenced takes a change of all combs. -/
theorem combOf_mapCombs {e : Engine} {c : CombId} (g : Comb → Comb) (hc : c.val < e.combs.length) (he : enabled e c = true) :
    combOf (mapCombs e g) c = g (combOf e c) := by
  have hcause : ((e.fences[c.val]?).getD {}).cause = 0 := by simpa [enabled, fenceOf] using he
  have hzip : ((List.range e.combs.length).zip e.combs)[c.val]? = some (c.val, e.combs[c.val]) := by
    simp [hc]
  rw [combOf, mapCombs, List.getElem?_map, hzip, Option.map_some, if_pos hcause, Option.getD_some, combOf, List.getElem?_eq_getElem hc,
    Option.getD_some]

@[simp] theorem taskOf_mapCombs (e : Engine) (g : Comb → Comb) (i : Nat) : taskOf (mapCombs e g) i = taskOf e i := rfl

@[simp] theorem haltOnFail_combs (e : Engine) (code : Nat) : (haltOnFail e code).combs = e.combs := by
  unfold haltOnFail
  split
  · exact askStop_combs ..
  · rfl

@[simp] theorem taskOf_haltOnFail (e : Engine) (code i : Nat) : taskOf (haltOnFail e code) i = taskOf e i := by
  unfold haltOnFail
  split
  · exact taskOf_congr (askStop_run ..).1 i
  · rfl

/-- A frame that abandons a task has no tile of it. -/
theorem task_ne_of_mem_frameWithout {i : Nat} {keep : OutJob → Bool} {fr : Frame} {j : TileJob} (h : j ∈ (frameWithout i keep fr).jobs) :
    j.task ≠ i := by
  by_cases hholds : frameHolds fr i = true
  · have hjobs : (frameWithout i keep fr).jobs = (fr.jobs.filter fun j => j.task != i).map fun j => { j with entered := 0, pass := 0 } := by
      simp only [frameWithout, hholds, Bool.not_true, Bool.false_eq_true, if_false]
      split <;> rfl
    rw [hjobs] at h
    obtain ⟨o, ho, rfl⟩ := List.mem_map.1 h
    simpa using (List.mem_filter.1 ho).2
  · have hsame : frameWithout i keep fr = fr := by simp [frameWithout, hholds]
    rw [hsame] at h
    simp only [frameHolds, Bool.or_eq_true, List.any_eq_true, not_or, not_exists, not_and] at hholds
    simpa using hholds.1.1.1 j h

/-- A task that fails keeps its first code (R314). -/
theorem taskOf_failInComb {e : Engine} {i : Nat} {tk : Task} (code : Nat) (h : taskOf e i = some tk) :
    taskOf (failInComb e i code) i = some { tk with failed := some (tk.failed.getD code) } := by
  rw [failInComb, failTask, taskOf_haltOnFail, taskOf_onTask_self, taskOf_mapCombs, h, Option.map_some]

/-- The frames of a comb that works have no tile of a task that has failed there (R134). -/
theorem task_ne_of_mem_failInComb {e : Engine} {c : CombId} {f : FrameId} {i code : Nat} {j : TileJob} (h : HasFrame e c f)
    (he : enabled e c = true) (hj : j ∈ (frameOf (failInComb e i code) c f).jobs) : j.task ≠ i := by
  rw [frameOf, failInComb, failTask, combOf, haltOnFail_combs, onTask_combs, ← combOf, combOf_mapCombs _ h.1 he, List.getElem?_map,
    List.getElem?_eq_getElem h.2, Option.map_some, Option.getD_some] at hj
  exact task_ne_of_mem_frameWithout hj

/-! ### A tile that is issued -/

theorem ctxOf_onCtx_self {e : Engine} {c : CombId} (x : Fin 4) (g : Ctx → Ctx) (hc : c.val < e.combs.length) :
    ctxOf (onCtx e c x g) c x = (ctxOf e c x).map g := by
  rw [ctxOf, onCtx, combOf_onComb_self _ hc, updAt_getElem?_self, ctxOf]
  cases (combOf e c).ctxs[x.val]? <;> rfl

@[simp] theorem frameOf_onCtx (e : Engine) (c : CombId) (x : Fin 4) (g : Ctx → Ctx) (d : CombId) (f : FrameId) :
    frameOf (onCtx e c x g) d f = frameOf e d f := frameOf_onComb e c d f

theorem combOf_onCtx_ne {e : Engine} {c d : CombId} (x : Fin 4) (g : Ctx → Ctx) (h : d ≠ c) : combOf (onCtx e c x g) d = combOf e d :=
  combOf_onComb_ne _ h

/-- A judged tile's cut changes at most its context, which goes on with its task (R160). -/
theorem keepCut_cases (m : Mem) (e : Engine) (c : CombId) (x : Fin 4) (k : Ctx) (t : TaskRec) (map : List Byte) (tile : Nat) :
    keepCut m e c x k t map tile = e ∨
      ∃ g, keepCut m e c x k t map tile = onCtx e c x g ∧ ∀ k, (g k).task = k.task := by
  unfold keepCut
  split
  · exact .inr ⟨_, rfl, fun _ => rfl⟩
  · exact .inl rfl

section KeepCut
variable (m : Mem) (e : Engine) (c : CombId) (x : Fin 4) (k : Ctx) (t : TaskRec) (map : List Byte) (tile : Nat)

@[simp] theorem frameOf_keepCut (d : CombId) (f : FrameId) : frameOf (keepCut m e c x k t map tile) d f = frameOf e d f := by
  obtain h | ⟨g, h, -⟩ := keepCut_cases m e c x k t map tile <;> simp [h]

@[simp] theorem keepCut_sch : (keepCut m e c x k t map tile).sch = e.sch := by
  obtain h | ⟨g, h, -⟩ := keepCut_cases m e c x k t map tile <;> simp [h]

theorem combOf_keepCut_ne {d : CombId} (hd : d ≠ c) : combOf (keepCut m e c x k t map tile) d = combOf e d := by
  obtain h | ⟨g, h, hg⟩ := keepCut_cases m e c x k t map tile
  · rw [h]
  · rw [h, combOf_onCtx_ne x _ hd]

theorem HasFrame.keepCut {e : Engine} {c : CombId} {f : FrameId} (hf : HasFrame e c f) : HasFrame (keepCut m e c x k t map tile) c f := by
  obtain h | ⟨g, h, hg⟩ := keepCut_cases m e c x k t map tile
  · rwa [h]
  · rw [h]; exact hf.onComb c

theorem ctxOf_keepCut {e : Engine} {c : CombId} {k₀ : Ctx} (hc : c.val < e.combs.length) (hk : ctxOf e c x = some k₀) :
    ∃ k', ctxOf (Machine.keepCut m e c x k t map tile) c x = some k' ∧ k'.task = k₀.task := by
  obtain h | ⟨g, h, hg⟩ := keepCut_cases m e c x k t map tile
  · exact ⟨k₀, by rw [h, hk], rfl⟩
  · exact ⟨g k₀, by rw [h, ctxOf_onCtx_self x _ hc, hk, Option.map_some], hg k₀⟩

end KeepCut

/-- A tile joins a frame and claims its bank. -/
def takesTile (t : TaskRec) (j : TileJob) (fr : Frame) : Frame := claimBank t j.task j.tile { fr with jobs := fr.jobs ++ [j] }

@[simp] theorem takesTile_jobs (t : TaskRec) (j : TileJob) (fr : Frame) : (takesTile t j fr).jobs = fr.jobs ++ [j] := by
  unfold takesTile claimBank; split <;> rfl

@[simp] theorem takesTile_cells (t : TaskRec) (j : TileJob) (fr : Frame) : (takesTile t j fr).cells = fr.cells := by
  unfold takesTile claimBank; split <;> rfl

/-- An event that counts where a condition holds counts once or not at all. -/
theorem ite_bumpComb (b : Bool) (e : Engine) (c : CombId) (k : CombCtr) :
    (if b = true then bumpComb e c k 1 else e) = bumpComb e c k (b2n b) := by
  cases b <;> rfl

/-- What an issue does: the tile's cut is kept, the tile joins the frame, two events may count, and the context moves on (R310). -/
theorem issueTile_eq (m : Mem) (e : Engine) (c : CombId) (f : FrameId) (a : Cand) : ∃ map j n₁ n₂ capped,
    issueTile m e c f a = onCtx (bumpComb (bumpComb (onFrame (keepCut m e c a.x a.k a.tk.record map a.tile) c f
      (takesTile a.tk.record j)) c .ilenCapped n₁) c .carouselRefetch n₂) c a.x
      (fun k => { k with nextTile := a.tile + 1, capped := k.capped || capped }) ∧
    j.task = a.k.task ∧ j.tile = a.tile ∧ j.ctx = a.x ∧ j.entered = 0 := by
  simp only [issueTile, ite_bumpComb]
  exact ⟨_, _, _, _, _, rfl, rfl, rfl, rfl, rfl⟩

section Issue
variable {m : Mem} {e : Engine} {c : CombId} {f : FrameId} {a : Cand}

/-- An issued tile stands last in its frame, and its context moves on; nothing else of the frames, combs and tasks changes. -/
theorem issueTile_spec (h : HasFrame e c f) (hk : ctxOf e c a.x = some a.k) : ∃ j k,
    (frameOf (issueTile m e c f a) c f).jobs = (frameOf e c f).jobs ++ [j] ∧ j.task = a.k.task ∧ j.tile = a.tile ∧ j.ctx = a.x ∧
    j.entered = 0 ∧ ctxOf (issueTile m e c f a) c a.x = some k ∧ k.task = a.k.task ∧ k.nextTile = a.tile + 1 ∧
    (frameOf (issueTile m e c f a) c f).cells = (frameOf e c f).cells ∧
    (∀ g, g ≠ f → frameOf (issueTile m e c f a) c g = frameOf e c g) ∧
    (∀ d, d ≠ c → combOf (issueTile m e c f a) d = combOf e d) ∧ (issueTile m e c f a).sch = e.sch := by
  obtain ⟨map, j, n₁, n₂, capped, heq, htask, htile, hctx, hentered⟩ := issueTile_eq m e c f a
  obtain ⟨k, hcut, hcuttask⟩ := ctxOf_keepCut m a.x a.k a.tk.record map a.tile h.1 hk
  have hcutframe := h.keepCut m a.x a.k a.tk.record map a.tile
  have hframe : frameOf (issueTile m e c f a) c f = takesTile a.tk.record j (frameOf e c f) := by
    rw [heq, frameOf_onCtx, bumpComb, frameOf_bump, bumpComb, frameOf_bump, hcutframe.frameOf_onFrame, frameOf_keepCut]
  refine ⟨j, { k with nextTile := a.tile + 1, capped := k.capped || capped }, ?_, htask, htile, hctx, hentered, ?_, hcuttask, rfl, ?_,
    fun g hg => ?_, fun d hd => ?_, ?_⟩
  · rw [hframe, takesTile_jobs]
  · rw [heq, ctxOf_onCtx_self, bumpComb, ctxOf_bump, bumpComb, ctxOf_bump, ctxOf_onFrame, hcut, Option.map_some]
    exact (hasFrame_bump.2 (hasFrame_bump.2 (hasFrame_onFrame.2 hcutframe))).1
  · rw [hframe, takesTile_cells]
  · rw [heq, frameOf_onCtx, bumpComb, frameOf_bump, bumpComb, frameOf_bump, frameOf_onFrame_ne _ hg, frameOf_keepCut]
  · rw [heq, combOf_onCtx_ne _ _ hd, bumpComb, combOf_bump, bumpComb, combOf_bump, combOf_onFrame_ne f _ hd,
      combOf_keepCut_ne _ _ _ _ _ _ _ _ hd]
  · rw [heq, onCtx_sch, bumpComb, bump_sch, bumpComb, bump_sch, onFrame_sch, keepCut_sch]

/-! ### TILE_ISSUE -/

/-- The first candidate whose tile can not run, with its code. -/
def firstError (m : Mem) (e : Engine) (c : CombId) (f : FrameId) : Option (Cand × Nat) :=
  (candidates e c f).findSome? fun a => (tileError m e c a.k a.tk a.mask a.tile).map fun code => (a, code)

@[simp] theorem firstError_bump (m : Mem) (e : Engine) (q : Ctr) (n : Nat) (c : CombId) (f : FrameId) :
    firstError m (bump e q n) c f = firstError m e c f := by
  simp [firstError]

theorem mem_candidates_of_firstError {code : Nat} (h : firstError m e c f = some (a, code)) : a ∈ candidates e c f := by
  obtain ⟨b, hb, hcode⟩ := List.exists_of_findSome?_eq_some h
  obtain ⟨_, -, hpair⟩ := Option.map_eq_some_iff.1 hcode
  exact (Prod.mk.inj hpair).1 ▸ hb

/-- The first tile that can not run fails its task (R134), and a misaligned transform counts. -/
theorem tileIssue_of_error {code : Nat} (hw : works e c = true) (herr : firstError m e c f = some (a, code)) :
    tileIssue m e c f = failInComb (bumpComb e c .xformAlign (b2n (decide (code = codeXformAlign)))) a.k.task code := by
  rw [firstError] at herr
  simp only [tileIssue, hw, herr, Bool.not_true, Bool.false_eq_true, if_false]
  rw [← ite_bumpComb]
  simp only [decide_eq_true_eq]

/-- Where every tile can run, the one that ranks before all others that can be issued is issued (R310). -/
theorem tileIssue_of_least (hw : works e c = true) (herr : ∀ b ∈ candidates e c f, tileError m e c b.k b.tk b.mask b.tile = none)
    (ha : a ∈ candidates e c f) (hacc : accepts (frameOf e c f) a.tk.record = true) (hiss : issuable e c a = true)
    (hleast : ∀ b ∈ candidates e c f, accepts (frameOf e c f) b.tk.record = true → issuable e c b = true → b ≠ a →
      tileRank a.tk < tileRank b.tk ∨ (tileRank a.tk = tileRank b.tk ∧ a.k.order < b.k.order)) :
    tileIssue m e c f = issueTile m e c f a := by
  have hnone : firstError m e c f = none := List.findSome?_eq_none_iff.2 fun b hb => by rw [herr b hb]; rfl
  rw [firstError] at hnone
  have hmin := minBy_sortBy (m := fun a => tileRank a.tk) (key := fun a => a.k.order)
    (l := (candidates e c f).filter fun a => accepts (frameOf e c f) a.tk.record && issuable e c a)
    (List.mem_filter.2 ⟨ha, by rw [hacc, hiss]; rfl⟩) fun b hb => by
      obtain ⟨hb, hok⟩ := List.mem_filter.1 hb
      obtain ⟨hbacc, hbiss⟩ := Bool.and_eq_true_iff.1 hok
      exact hleast b hb hbacc hbiss
  simp only [tileIssue, hw, hnone, hmin, Bool.not_true, Bool.false_eq_true, if_false]

end Issue

theorem exec_tileIssue (c : CombId) (f : FrameId) (rd : List MemLine) (s : State) :
    exec (.tileIssue c f rd) s = .next (readingIn s c rd fun m e => tileIssue m e c f) := rfl

theorem enabled_of_works {e : Engine} {c : CombId} (h : works e c = true) : enabled e c = true := by
  simp only [works, Bool.and_eq_true] at h
  exact h.1.2

@[simp] theorem enabled_bump (e : Engine) (q : Ctr) (n : Nat) (c : CombId) : enabled (bump e q n) c = enabled e c := by
  simp [enabled, fenceOf]

/-- Settles O29: the lines that the comb reads change only its retry counter, so that the tiles are judged as in the state before; the
first one that can not run fails its task, and otherwise the one that ranks before all others is found and issued. -/
theorem tileIssueTakesLowestClass : Obligations.TileIssueTakesLowestClass := by
  unfold Obligations.TileIssueTakesLowestClass
  intro s c f rd hw hcombs hframes
  have hf : HasFrame s.eng c f := hasFrame_of_lengths f hcombs hframes
  have hf' : HasFrame (readEngIn s c rd) c f := hasFrame_bump.2 hf
  have hw' : works (readEngIn s c rd) c = true := by rw [readEngIn, bumpComb, works_bump, hw]
  simp only [exec_tileIssue]
  refine ⟨fun a code herr => ?_, fun a ha herr hacc hiss hleast => ?_⟩
  · obtain ⟨-, htask, hfailed⟩ := of_mem_candidates (mem_candidates_of_firstError herr)
    have heng : tileIssue (landed s.mem rd) (readEngIn s c rd) c f = _ := tileIssue_of_error (code := code) hw'
      ((firstError_bump ..).trans herr)
    refine ⟨_, { a.tk with failed := some code }, rfl, ?_, rfl, fun j hj => ?_, rfl, rfl⟩
    · have htask' : taskOf (bumpComb (readEngIn s c rd) c .xformAlign (b2n (decide (code = codeXformAlign)))) a.k.task = some a.tk := by
        simp only [bumpComb, readEngIn, taskOf_bump, htask]
      rw [readingIn_eng, heng, taskOf_failInComb code htask', hfailed, Option.getD_none]
    · rw [readingIn_eng, heng] at hj
      exact task_ne_of_mem_failInComb (hasFrame_bump.2 hf') ((enabled_bump ..).trans (enabled_of_works hw')) hj
  · obtain ⟨hctx, -, -⟩ := of_mem_candidates ha
    have heng : tileIssue (landed s.mem rd) (readEngIn s c rd) c f = issueTile (landed s.mem rd) (readEngIn s c rd) c f a := by
      have hleast' := tileIssue_of_least (m := landed s.mem rd) (f := f) (a := a) hw'
      simp only [readEngIn, bumpComb, candidates_bump, tileError_bump, frameOf_bump, issuable_bump] at hleast'
      exact hleast' herr ha hacc hiss hleast
    obtain ⟨j, k, hjobs, htask, htile, hx, hentered, hk, hktask, hnext, hcells, hothers, hcombs, hsch⟩ :=
      issueTile_spec (m := landed s.mem rd) (a := a) hf' (by rw [readEngIn, bumpComb, ctxOf_bump, hctx])
    simp only [readEngIn, bumpComb, frameOf_bump, combOf_bump, bump_sch] at hjobs hcells hothers hcombs hsch
    refine ⟨_, j, k, rfl, ?_⟩
    rw [readingIn_eng, heng]
    exact ⟨hjobs, htask, htile, hx, hentered, hk, hktask, hnext, hcells, hothers, hcombs, hsch, rfl⟩

end Sys2Proof.Machine
end

section
/-! Proofs: what the cells of the frame array add in a step. -/

namespace Sys2Proof.Machine

/-! ### Sums of products and correction elements, in pairs -/

theorem sumInt_eq_sum (l : List Int) : sumInt l = l.sum := List.sum_eq_foldl.symm

/-- A pair of sums is the sum of the pairs. -/
theorem pair_sumInt {α : Type} (f g : α → Int) (l : List α) : (sumInt (l.map f), sumInt (l.map g)) = (l.map fun a => (f a, g a)).sum := by
  rw [sumInt_eq_sum, sumInt_eq_sum]
  induction l with
  | nil => rfl
  | cons a l ih => rw [List.map_cons, List.map_cons, List.map_cons, List.sum_cons, List.sum_cons, List.sum_cons, ← ih, Prod.mk_add_mk]

/-- A run that adds what each element gives ends with the sum. -/
theorem foldl_eq_sum {α β : Type} [AddMonoid β] {u : β → α → β} {g : α → β} (h : ∀ b a, u b a = b + g a) (l : List α) :
    l.foldl u 0 = (l.map g).sum := by
  have hfrom : ∀ b, l.foldl u b = b + (l.map g).sum := by
    induction l with
    | nil => simp
    | cons a l ih => intro b; rw [List.foldl_cons, ih, h, List.map_cons, List.sum_cons, add_assoc]
  rw [hfrom, zero_add]

/-- A map over the indices of a list is one over its elements. -/
theorem map_range_eq_map {α β : Type} {l : List α} {n : Nat} {g : Nat → β} {f : α → β} (hn : l.length = n)
    (h : ∀ j a, l[j]? = some a → g j = f a) : (List.range n).map g = l.map f := by
  refine List.ext_getElem (by simp [hn]) fun j h₁ h₂ => ?_
  rw [List.getElem_map, List.getElem_map, List.getElem_range]
  exact h j _ (List.getElem?_eq_getElem _)

/-- Elements sorted into bins, each bin weighed: every element is weighed by its own bin. -/
theorem sum_bins {α R : Type} [CommRing R] (n : Nat) (l : List α) (bin : α → Nat) (w : α → R) (b : Nat → R) (h : ∀ a ∈ l, bin a < n) :
    ((List.range n).map fun p => (l.map fun a => if bin a = p then w a else 0).sum * b p).sum = (l.map fun a => w a * b (bin a)).sum := by
  induction l with
  | nil => simp
  | cons a l ih =>
    have hown : ((List.range n).map fun p => (if bin a = p then w a else 0) * b p).sum = w a * b (bin a) := by
      rw [← List.sum_toFinset _ List.nodup_range, List.toFinset_range]
      simp [ite_mul, h a (by simp)]
    simp only [List.map_cons, List.sum_cons, add_mul, List.sum_map_add, hown, ih fun x hx => h x (by simp [hx])]

/-! ### Operands -/

/-- The codes that a row presents. -/
def rowCodes : RowOp → Int × Int
  | .code x y => (x, y)
  | .slot _ _ _ => 0

/-- The weight code of a row's slot, and 1 where the slot is occupied. -/
def slotWeights : RowOp → Int × Int
  | .slot occ _ q => (q, b2n occ)
  | .code _ _ => 0

/-- The position code of a row's slot. -/
def slotPos : RowOp → Nat
  | .slot _ p _ => p
  | .code _ _ => 0

/-- The codes that a column presents. -/
def colCodes : ColOp → Int × Int
  | .code u v => (u, v)
  | .group _ _ => 0

/-- Element p of a column's group, with its correction element. -/
def groupElem (p : Nat) : ColOp → Int × Int
  | .group e k => (lane e p, lane k p)
  | .code _ _ => 0

/-- The product of two pairs of codes, which adds nothing to the correction sum. -/
def codeProduct (a b : Int × Int) : Int × Int := (a.1 * b.1 + a.2 * b.2, 0)

/-- The product takes sums of columns, and of rows, apart (R86). -/
theorem codeProduct_sum {α : Type} (a : Int × Int) (f : α → Int × Int) (l : List α) :
    codeProduct a (l.map f).sum = (l.map fun c => codeProduct a (f c)).sum := by
  induction l with
  | nil => simp [codeProduct]
  | cons c l ih =>
    rw [List.map_cons, List.map_cons, List.sum_cons, List.sum_cons, ← ih]
    ext
    · simp only [codeProduct, Prod.fst_add, Prod.snd_add]; ring
    · simp [codeProduct]

theorem codeProduct_comm (a b : Int × Int) : codeProduct a b = codeProduct b a := by
  simp only [codeProduct, mul_comm]

theorem sum_codeProduct {α : Type} (f : α → Int × Int) (b : Int × Int) (l : List α) :
    codeProduct (l.map f).sum b = (l.map fun c => codeProduct (f c) b).sum := by
  simp only [codeProduct_comm _ b, codeProduct_sum]

/-! #### The feeders' sums and bins -/

theorem colSum_eq_sum (st : StepIn) : colSum st = (st.cols.map colCodes).sum :=
  foldl_eq_sum (fun a c => by cases c <;> simp [colCodes, Prod.ext_iff]) _

theorem rowSumIn_eq_sum (st : StepIn) : rowSumIn st = (st.rows.map rowCodes).sum :=
  foldl_eq_sum (fun a r => by cases r <;> simp [rowCodes, Prod.ext_iff]) _

theorem binB_eq_sum (st : StepIn) (p : Nat) : binB st p = (st.cols.map (groupElem p)).sum :=
  foldl_eq_sum (fun a c => by cases c <;> simp [groupElem, Prod.ext_iff]) _

theorem binA_eq_sum (st : StepIn) (p : Nat) : binA st p = (st.rows.map fun r => if slotPos r = p then slotWeights r else 0).sum :=
  foldl_eq_sum (fun a r => by
    cases r with
    | code => simp [slotWeights]
    | slot occ q w => by_cases h : q = p <;> simp [slotPos, slotWeights, h, Prod.ext_iff]) _

/-! ### What the cells of a row, of a column and of the array add together -/

/-- What the working cells of row i add. -/
def rowOps (st : StepIn) (i : Nat) : List (Int × Int) := (List.range 64).map fun j => cellOp st i j

/-- What the working cells of column j add. -/
def colOps (st : StepIn) (j : Nat) : List (Int × Int) := (List.range 64).map fun i => cellOp st i j

section Pairs
variable {st : StepIn} {op : RowOp → ColOp → Int × Int} (hr : st.rows.length = 64) (hc : st.cols.length = 64)
  (hop : ∀ i j r c, st.rows[i]? = some r → st.cols[j]? = some c → cellOp st i j = op r c)

include hc hop in
/-- What a row's cells add, read off the columns. -/
theorem rowOps_eq_map {i : Nat} {r : RowOp} (h : st.rows[i]? = some r) : rowOps st i = st.cols.map (op r) :=
  map_range_eq_map hc fun j c hj => hop i j r c h hj

include hr hop in
/-- What a column's cells add, read off the rows. -/
theorem colOps_eq_map {j : Nat} {c : ColOp} (h : st.cols[j]? = some c) : colOps st j = st.rows.map fun r => op r c :=
  map_range_eq_map hr fun i r hi => hop i j r c hi h

include hr hc hop in
theorem allOps_sum : ((List.range 64).flatMap (rowOps st)).sum = (st.rows.map fun r => (st.cols.map (op r)).sum).sum := by
  rw [List.flatMap_def, List.sum_flatten, List.map_map]
  exact congrArg List.sum (map_range_eq_map hr fun i r hi => congrArg List.sum (rowOps_eq_map hc hop hi))

end Pairs

/-! ### Steps of codes (R83, R86) -/

section Codes
variable {st : StepIn} (hr : st.rows.length = 64) (hc : st.cols.length = 64) (hs : st.sampled = false)
  (hrows : ∀ r ∈ st.rows, ∃ x y, r = .code x y) (hcols : ∀ c ∈ st.cols, ∃ u v, c = .code u v)

include hrows hcols

theorem cellOp_codes (i j : Nat) (r : RowOp) (c : ColOp) (hi : st.rows[i]? = some r) (hj : st.cols[j]? = some c) :
    cellOp st i j = codeProduct (rowCodes r) (colCodes c) := by
  obtain ⟨x, y, rfl⟩ := hrows r (List.mem_of_getElem? hi)
  obtain ⟨u, v, rfl⟩ := hcols c (List.mem_of_getElem? hj)
  simp [cellOp, hi, hj, codeProduct, rowCodes, colCodes]

include hc hs in
theorem colCheckOp_codes {i : Nat} {r : RowOp} (hi : st.rows[i]? = some r) : colCheckOp st i = (rowOps st i).sum := by
  rw [rowOps_eq_map hc (cellOp_codes hrows hcols) hi, ← codeProduct_sum, ← colSum_eq_sum]
  obtain ⟨x, y, rfl⟩ := hrows r (List.mem_of_getElem? hi)
  simp [colCheckOp, hi, hs, codeProduct, rowCodes]

include hr in
theorem rowCheckOp_codes {j : Nat} {c : ColOp} (hj : st.cols[j]? = some c) : rowCheckOp st j = (colOps st j).sum := by
  rw [colOps_eq_map hr (cellOp_codes hrows hcols) hj, ← sum_codeProduct, ← rowSumIn_eq_sum]
  obtain ⟨u, v, rfl⟩ := hcols c (List.mem_of_getElem? hj)
  simp [rowCheckOp, hj, codeProduct, colCodes]

include hr hc hs in
theorem cornerOp_codes : cornerOp st = ((List.range 64).flatMap (rowOps st)).sum := by
  have hkind : slotStep st = false := by
    rw [slotStep, List.any_eq_false]
    intro r hr
    obtain ⟨x, y, rfl⟩ := hrows r hr
    simp
  simp only [allOps_sum hr hc (cellOp_codes hrows hcols), ← codeProduct_sum, ← sum_codeProduct, ← rowSumIn_eq_sum, ← colSum_eq_sum]
  simp [cornerOp, hs, hkind, codeProduct]

end Codes

/-! ### Steps of slots and groups (R118, R169, R410) -/

section Slots
variable {st : StepIn} (hr : st.rows.length = 64) (hc : st.cols.length = 64) (hs : st.sampled = false)
  (hrows : ∀ r ∈ st.rows, ∃ o p q, r = .slot o p q ∧ p < 8) (hcols : ∀ c ∈ st.cols, ∃ e k, c = .group e k)

include hrows in
theorem slotPos_lt {r : RowOp} (h : r ∈ st.rows) : slotPos r < 8 := by
  obtain ⟨o, p, q, rfl, hp⟩ := hrows r h
  exact hp

include hrows hcols

theorem cellOp_slots (i j : Nat) (r : RowOp) (c : ColOp) (hi : st.rows[i]? = some r) (hj : st.cols[j]? = some c) :
    cellOp st i j = slotWeights r * groupElem (slotPos r) c := by
  obtain ⟨o, p, q, rfl, -⟩ := hrows r (List.mem_of_getElem? hi)
  obtain ⟨e, k, rfl⟩ := hcols c (List.mem_of_getElem? hj)
  cases o <;> simp [cellOp, hi, hj, slotWeights, groupElem, slotPos, b2n]

include hc in
theorem colCheckOp_slots {i : Nat} {r : RowOp} (hi : st.rows[i]? = some r) : colCheckOp st i = (rowOps st i).sum := by
  rw [rowOps_eq_map hc (cellOp_slots hrows hcols) hi, List.sum_map_mul_left, ← binB_eq_sum]
  obtain ⟨o, p, q, rfl, -⟩ := hrows r (List.mem_of_getElem? hi)
  cases o <;> simp [colCheckOp, hi, slotWeights, slotPos, b2n, Prod.mul_def]

include hr hs in
theorem rowCheckOp_slots {j : Nat} {c : ColOp} (hj : st.cols[j]? = some c) : rowCheckOp st j = (colOps st j).sum := by
  rw [colOps_eq_map hr (cellOp_slots hrows hcols) hj,
    ← sum_bins 8 st.rows slotPos slotWeights (fun p => groupElem p c) fun r h => slotPos_lt hrows h]
  obtain ⟨e, k, rfl⟩ := hcols c (List.mem_of_getElem? hj)
  simp only [← binA_eq_sum, rowCheckOp, hj, hs, Bool.false_eq_true, if_false, pair_sumInt]
  rfl

include hr hc hs in
theorem cornerOp_slots : cornerOp st = ((List.range 64).flatMap (rowOps st)).sum := by
  have hkind : slotStep st = true := by
    obtain ⟨r, hmem⟩ := List.exists_mem_of_length_pos (l := st.rows) (by omega)
    obtain ⟨o, p, q, rfl, -⟩ := hrows r hmem
    exact List.any_eq_true.2 ⟨_, hmem, rfl⟩
  simp only [allOps_sum hr hc (cellOp_slots hrows hcols), List.sum_map_mul_left, ← binB_eq_sum]
  rw [← sum_bins 8 st.rows slotPos slotWeights (binB st) fun r h => slotPos_lt hrows h]
  simp only [← binA_eq_sum, cornerOp, hs, hkind, Bool.false_eq_true, if_false, if_true, pair_sumInt]
  rfl

end Slots

/-! ### Steps of the sampled product (R128, R129, R131) -/

/-- The position code that a cell owns, if any (R128). -/
def ownerOf (st : StepIn) (i j : Nat) : Option Nat := elemD (elemD st.owner i []) j none

/-- The code that row i gives its cell in column j: none in an idle cell (R129). -/
def ownedCode (st : StepIn) (j i : Nat) : Int := if (ownerOf st i j).isSome then ((st.rows[i]?).elim 0 fun r => (rowCodes r).1) else 0

section Sampled
variable {st : StepIn} (hr : st.rows.length = 64) (hc : st.cols.length = 64) (hs : st.sampled = true)
  (hrows : ∀ r ∈ st.rows, ∃ x y, r = .code x y) (hcols : ∀ c ∈ st.cols, ∃ e k, c = .group e k)
  (howner : ∀ i j p, ownerOf st i j = some p → p < 8)

/-- A cell multiplies its row's code by the element that its own slot selects (R129). -/
theorem cellOp_sampled {i j : Nat} {x y : Int} {e k : List Int} (hi : st.rows[i]? = some (.code x y)) (hj : st.cols[j]? = some (.group e k)) :
    cellOp st i j = ((ownerOf st i j).elim 0 fun p => x * lane e p, 0) := by
  simp only [cellOp, hi, hj, ownerOf]
  cases elemD (elemD st.owner i []) j none <;> rfl

include hc hs hcols in
theorem colCheckOp_sampled {i : Nat} {x y : Int} (hi : st.rows[i]? = some (.code x y)) : colCheckOp st i = (rowOps st i).sum := by
  have hcell : rowOps st i = (List.range 64).map fun j => (x * (match ownerOf st i j, st.cols[j]? with
      | some p, some (.group e _) => lane e p
      | _, _ => 0), 0) := List.map_congr_left fun j hj => by
    have hj : j < st.cols.length := by rw [hc]; exact List.mem_range.1 hj
    obtain ⟨e, k, hcol⟩ := hcols _ (List.getElem_mem hj)
    rw [cellOp_sampled hi ((List.getElem?_eq_getElem hj).trans (congrArg some hcol)), List.getElem?_eq_getElem hj, hcol]
    cases ownerOf st i j <;> simp
  rw [hcell, ← pair_sumInt, sumInt_eq_sum, sumInt_eq_sum, List.sum_map_mul_left, List.sum_map_zero]
  simp only [colCheckOp, hi, hs, if_true, sumInt_eq_sum]
  rfl

include hr hs hrows howner in
theorem rowCheckOp_sampled {j : Nat} {e k : List Int} (hj : st.cols[j]? = some (.group e k)) : rowCheckOp st j = (colOps st j).sum := by
  have hrow : ∀ i < 64, ∃ x y, st.rows[i]? = some (.code x y) := fun i hi => by
    obtain ⟨x, y, h⟩ := hrows _ (List.getElem_mem (hr.symm ▸ hi))
    exact ⟨x, y, (List.getElem?_eq_getElem _).trans (congrArg some h)⟩
  have hcell : colOps st j = (List.range 64).map fun i => (ownedCode st j i * lane e ((ownerOf st i j).getD 0), 0) :=
    List.map_congr_left fun i hi => by
      obtain ⟨x, y, hi⟩ := hrow i (List.mem_range.1 hi)
      rw [cellOp_sampled hi hj, ownedCode, hi]
      cases ownerOf st i j <;> simp [rowCodes]
  have hbin : ∀ i ∈ List.range 64, (ownerOf st i j).getD 0 < 8 := fun i _ => by
    cases h : ownerOf st i j with
    | none => decide
    | some p => exact howner i j p h
  rw [hcell, ← pair_sumInt, sumInt_eq_sum, sumInt_eq_sum, List.sum_map_zero, ← sum_bins 8 _ _ _ (lane e) hbin]
  simp only [rowCheckOp, hj, hs, if_true, sumInt_eq_sum]
  refine congrArg (fun l => (List.sum l, (0 : Int))) (List.map_congr_left fun p _ => ?_)
  rw [mul_comm]
  refine congrArg (fun l => List.sum l * lane e p) (List.map_congr_left fun i hi => ?_)
  obtain ⟨x, y, hi⟩ := hrow i (List.mem_range.1 hi)
  rw [ownedCode, hi, ownerOf]
  cases elemD (elemD st.owner i []) j none <;> simp [rowCodes]

end Sampled

/-! ### Check cells -/

section Formed
variable {st : StepIn} (h : StepFormed st)
include h

/-- A check-column cell adds what the working cells of its row add. -/
theorem colCheckOp_eq_sum {i : Nat} (hi : i < 64) : colCheckOp st i = (rowOps st i).sum := by
  obtain ⟨hr, hc, ⟨hs, hrows, hcols⟩ | ⟨-, hrows, hcols⟩ | ⟨hs, hrows, hcols, -⟩⟩ := h
  all_goals have hrow := List.getElem?_eq_getElem (hr.symm ▸ hi : i < st.rows.length)
  · exact colCheckOp_codes hc hs hrows hcols hrow
  · exact colCheckOp_slots hc hrows hcols hrow
  · obtain ⟨x, y, hcode⟩ := hrows _ (List.mem_of_getElem? hrow)
    exact colCheckOp_sampled hc hs hcols (hrow.trans (congrArg some hcode))

/-- A check-row cell adds what the working cells of its column add. -/
theorem rowCheckOp_eq_sum {j : Nat} (hj : j < 64) : rowCheckOp st j = (colOps st j).sum := by
  obtain ⟨hr, hc, ⟨-, hrows, hcols⟩ | ⟨hs, hrows, hcols⟩ | ⟨hs, hrows, hcols, howner⟩⟩ := h
  all_goals have hcol := List.getElem?_eq_getElem (hc.symm ▸ hj : j < st.cols.length)
  · exact rowCheckOp_codes hr hrows hcols hcol
  · exact rowCheckOp_slots hr hs hrows hcols hcol
  · obtain ⟨e, k, hgroup⟩ := hcols _ (List.mem_of_getElem? hcol)
    exact rowCheckOp_sampled hr hs hrows howner (hcol.trans (congrArg some hgroup))

/-- The corner adds what all the working cells add, and nothing in the sampled product. -/
theorem cornerOp_eq_sum : cornerOp st = (if st.sampled then [] else (List.range 64).flatMap (rowOps st)).sum := by
  obtain ⟨hr, hc, ⟨hs, hrows, hcols⟩ | ⟨hs, hrows, hcols⟩ | ⟨hs, -⟩⟩ := h
  · rw [cornerOp_codes hr hc hs hrows hcols, hs]; rfl
  · rw [cornerOp_slots hr hc hs hrows hcols, hs]; rfl
  · rw [cornerOp, hs]; rfl

end Formed

/-! ### Accumulators -/

@[simp] theorem accOf_setAcc_self (c : Cell) (b : Bool) (a : Acc) : accOf (setAcc c b a) b = a := by cases b <;> rfl

@[simp] theorem accOf_setAcc_not (c : Cell) (b : Bool) (a : Acc) : accOf (setAcc c b a) (!b) = accOf c (!b) := by cases b <;> rfl

/-- A working cell's add (R85, R169). -/
theorem addsTo_accAdd (a : Acc) (prod corr : Int) : AddsTo a (accAdd a prod corr) prod corr := by
  simp [AddsTo, accAdd, BitVec.toInt_add, BitVec.toInt_ofInt]

/-- A check cell's add (R86, R410). -/
theorem addsTo_checkAdd (a : Acc) (prod corr : Int) : AddsTo a (checkAdd a prod corr) prod corr := by
  simp [AddsTo, checkAdd, BitVec.toInt_add, BitVec.toInt_ofInt]

/-- A working cell overflows where the sum leaves the range of 24 bits (R85). -/
theorem accAdd_ovf (a : Acc) (prod corr : Int) :
    (accAdd a prod corr).ovf = (a.ovf || decide (a.val.toInt + prod < -8388608 ∨ 8388608 ≤ a.val.toInt + prod)) := rfl

/-- What a check cell adds in a step. -/
def checkOp (st : StepIn) (i j : Nat) : Int × Int :=
  if i < 64 then colCheckOp st i else if j < 64 then rowCheckOp st j else cornerOp st

theorem cellStep_working {st : StepIn} {i j : Nat} (hi : i < 64) (hj : j < 64) (c : Cell) : cellStep st i j c =
    setAcc c st.accB (accAdd (accOf c st.accB) (cellOp st i j).1 (cellOp st i j).2) := by
  simp [cellStep, hi, hj]

theorem cellStep_check {st : StepIn} {i j : Nat} (h : ¬(i < 64 ∧ j < 64)) (c : Cell) : cellStep st i j c =
    setAcc c st.accB (checkAdd (accOf c st.accB) (checkOp st i j).1 (checkOp st i j).2) := by
  simp only [cellStep, checkOp, if_neg h]
  split
  · rfl
  · split <;> rfl

/-- A step leaves the accumulator of the other interval (R88). -/
theorem accOf_cellStep_not (st : StepIn) (i j : Nat) (c : Cell) : accOf (cellStep st i j c) (!st.accB) = accOf c (!st.accB) :=
  accOf_setAcc_not ..

/-! ### The array -/

/-- A cell takes the step that entered i + j cycles before (R87), if any. -/
theorem cellAt_accumulate (pipe : List (Option StepIn)) (cs : List (List Cell)) {i j : Nat} (hi : i < 65) (hj : j < 65) :
    cellAt (accumulate pipe cs) i j = (elemD pipe (i + j) none).elim (cellAt cs i j) fun st => cellStep st i j (cellAt cs i j) := by
  rw [cellAt, accumulate, elemD_map_range _ _ hi, elemD_map_range _ _ hj]
  cases elemD pipe (i + j) none <;> rfl

/-- The sum that a check cell adds, part by part. -/
theorem checkOp_eq_sumInt {st : StepIn} (h : StepFormed st) {i j : Nat} {l : List (Int × Int)}
    (hl : l = if i < 64 then rowOps st i else if j < 64 then colOps st j else if st.sampled then [] else (List.range 64).flatMap (rowOps st)) :
    checkOp st i j = (sumInt (l.map Prod.fst), sumInt (l.map Prod.snd)) := by
  rw [pair_sumInt, List.map_id', hl, checkOp]
  split
  · next hi => exact colCheckOp_eq_sum h hi
  · split
    · next hj => exact rowCheckOp_eq_sum h hj
    · exact cornerOp_eq_sum h

/-- Settles O28: the array's cells take the steps of the skew one by one; a working cell's product is read off the form of the step, and a
check cell's by the sums over its row, its column and the array. -/
theorem cellsTakeStepsInSkew : Obligations.CellsTakeStepsInSkew := by
  unfold Obligations.CellsTakeStepsInSkew
  intro pipe cs i j hi hj
  rw [cellAt_accumulate pipe cs hi hj]
  refine ⟨fun st hst => ?_, fun hnone => by rw [hnone]; rfl⟩
  rw [hst, Option.elim_some]
  refine ⟨accOf_cellStep_not .., fun prod corr hi hj hform => ?_, fun hformed hcheck => ?_⟩
  · have hop : cellOp st i j = (prod, corr) := by
      rcases hform with ⟨x, y, u, v, hrow, hcol, rfl, rfl⟩ | ⟨occ, p, q, l, k, hrow, hcol, rfl, rfl⟩ | ⟨x, y, l, k, hrow, hcol, rfl, rfl⟩
      · simp [cellOp, hrow, hcol]
      · simp [cellOp, hrow, hcol, lane]
      · rw [cellOp_sampled hrow hcol, ownerOf]
        cases elemD (elemD st.owner i []) j none <;> rfl
    rw [cellStep_working hi hj, accOf_setAcc_self, hop]
    exact ⟨addsTo_accAdd .., accAdd_ovf ..⟩
  · intro row sum
    rw [cellStep_check (by omega), accOf_setAcc_self, checkOp_eq_sumInt hformed (l := sum) rfl]
    exact ⟨addsTo_checkAdd .., rfl⟩

end Sys2Proof.Machine
end

section
/-! Proofs: a firmware processor's restart, and the observer poll. -/

namespace Sys2Proof.Machine

/-! ### A processor's restart (R528, R529) -/

/-- The clamp of FP0's restart: envelope QUIET, step 2 at most, the mark that FP0 restarts, and nothing else. -/
theorem clampFp0_spec (e : Engine) :
    (clampFp0 e).pwr.envelope = 2 ∧ (clampFp0 e).pwr.step = min 2 e.pwr.step ∧
    clampFp0 e = { e with fwp := { e.fwp with clampQuiet := true }, pwr := (clampFp0 e).pwr } := by
  unfold clampFp0 lowerStep
  split
  · next h => exact ⟨rfl, (Nat.min_eq_left (Nat.le_of_lt h)).symm, rfl⟩
  · next h => exact ⟨rfl, (Nat.min_eq_right (Nat.le_of_not_lt h)).symm, rfl⟩

/-- The power state that the clamp leaves depends on the power state alone. -/
theorem clampFp0_pwr_congr {e e' : Engine} (h : e.pwr = e'.pwr) : (clampFp0 e).pwr = (clampFp0 e').pwr := by
  simp only [clampFp0, lowerStep, h]
  split <;> rfl

/-- The commands by which a processor restarts, each with its cause (R506, R528). -/
def Restarts (e : Engine) (p : ProcId) (pc : Word) (c : Instr) (cause : Nat) : Prop :=
  (c = .watchdogExpiry p pc ∧ cause = 1) ∨ (c = .selfRestart p pc ∧ cause = 3) ∨
    ∃ sh o, c = .protectStore p sh o pc ∧ isRo e p sh o = true ∧ cause = 2

theorem exec_of_restarts {s : State} {p : ProcId} {pc : Word} {c : Instr} {cause : Nat} (h : Restarts s.eng p pc c cause) :
    exec c s = .next (withEng s (restartProc s.eng p cause pc)) := by
  rcases h with ⟨rfl, rfl⟩ | ⟨rfl, rfl⟩ | ⟨sh, o, rfl, hro, rfl⟩
  · rfl
  · rfl
  · have hstore : protectStore s.eng p sh o pc = restartProc s.eng p causeProtect pc := if_pos hro
    exact congrArg (fun e => Host.Outcome.next (withEng s e)) hstore

/-- A store beside what is loaded restarts nothing (R506). -/
theorem exec_protectStore_of_not_ro {s : State} {p : ProcId} {sh : Bool} {o : Nat} (pc : Word) (h : isRo s.eng p sh o = false) :
    exec (.protectStore p sh o pc) s = .next s := by
  have hstore : protectStore s.eng p sh o pc = s.eng := if_neg (by simp [h])
  exact congrArg (fun e => Host.Outcome.next (withEng s e)) hstore

section Restart
variable {e : Engine} {p : ProcId} (cause : Nat) (pc : Word)
  (hup : (procOf e p.val).run = .run ∨ (procOf e p.val).run = .restarting) (hact : e.pwr.pstate = .active)
include hup hact

/-- All that a restart does: the processor and the record of its restart, RESTARTS, trace point 0x0001, and FP0's clamp. -/
theorem restartProc_eq : restartProc e p cause pc = { e with
    ctr := (bump e (.restarts p) 1).ctr
    log := (logEvent e 55 0x0001 0 ([BitVec.ofNat 8 p.val, BitVec.ofNat 8 cause, 0, 0] ++ leBytes 4 pc.toNat)).log
    pwr := if p.val = 0 then (clampFp0 e).pwr else e.pwr
    fwp := { e.fwp with
      procs := updAt e.fwp.procs p.val fun q => { q with run := .restarting, ready := false }
      lastFp := p.val, lastCause := cause, lastPc := pc, totals := updAt e.fwp.totals p.val (· + 1)
      clampQuiet := if p.val = 0 then true else e.fwp.clampQuiet } } := by
  have hgo : ¬(((procOf e p.val).run ≠ .run ∧ (procOf e p.val).run ≠ .restarting) ∨ e.pwr.pstate ≠ .active) := by tauto
  rw [restartProc, if_neg hgo]
  by_cases hp : p.val = 0
  · simp only [if_pos hp]
    rw [(clampFp0_spec _).2.2, clampFp0_pwr_congr (e' := e) (by simp)]
    rfl
  · simp only [if_neg hp]
    rfl

/-- The processors after a restart are those of one change. -/
theorem procOf_restartProc (q : Nat) : procOf (restartProc e p cause pc) q =
    procOf (onProc e p.val fun x => { x with run := .restarting, ready := false }) q := by
  rw [restartProc_eq cause pc hup hact]; rfl

/-- RESTARTS of the processor counts up to 255. -/
theorem ctrVal_restartProc_restarts :
    ctrVal (restartProc e p cause pc) (.restarts p) = min 255 (ctrVal e (.restarts p) + 1) := by
  rw [restartProc_eq cause pc hup hact]
  exact (bump_spec e (.restarts p) 1).1

/-- Trace point 0x0001, whose group is always enabled, has one record more on its way. -/
theorem inflight_restartProc : (restartProc e p cause pc).log.inflight.map LogRec.traceId =
    e.log.inflight.map LogRec.traceId ++ [0x0001] := by
  rw [restartProc_eq cause pc hup hact]
  obtain ⟨l, hl, hrec, -⟩ :=
    logEvent_spec e 55 0x0001 0 ([BitVec.ofNat 8 p.val, BitVec.ofNat 8 cause, 0, 0] ++ leBytes 4 pc.toNat)
  simp only [hl, List.map_append, hrec rfl]
  rfl

end Restart

/-! ### The observer poll (R192, R448) -/

theorem rcLeft_comb_zero (e : Engine) (c : CombId) (k : CombCtr) : rcLeft e (.comb c k) 0 = 0 := by
  simp [rcLeft, rcShown, ctrUnit]

theorem observerCtrs_nodup : observerCtrs.Nodup := by
  have hhist : ((List.finRange 64).map CombCtr.hist).Nodup := (List.nodup_finRange 64).map fun _ _ => CombCtr.hist.inj
  simp [observerCtrs, hhist]

/-- A comb whose observers FP3 has read. -/
def observed (cb : Comb) : Comb := { cb with nonzeroShadow := cb.nonzero, nonzero := 0 }

/-- The engine with a comb's observer counters at 0. -/
def clearObservers (c : CombId) (e : Engine) : Engine := setEach (Ctr.comb c) (fun _ _ => 0) observerCtrs e

/-- A read takes the whole of every count. -/
theorem readObservers_eq (e : Engine) (c : CombId) : readObservers e c = onComb (clearObservers c e) c observed := by
  simp only [readObservers, clearObservers, setEach, rcTake_eq_setCtr, rcLeft_comb_zero]
  rfl

/-- A comb's read changes counters and the comb, nothing else. -/
theorem readObservers_frame (e : Engine) (c : CombId) :
    readObservers e c = { onComb e c observed with ctr := (clearObservers c e).ctr } := by
  rw [readObservers_eq]
  generalize hclear : clearObservers c e = taken
  have htaken : taken = { e with ctr := taken.ctr } := hclear ▸ setEach_frame (Ctr.comb c) (fun _ _ => 0) observerCtrs e
  rw [htaken]
  rfl

theorem combOf_readObservers (e : Engine) (c d : CombId) : combOf (readObservers e c) d = combOf (onComb e c observed) d := by
  have hcombs : (readObservers e c).combs = (onComb e c observed).combs := by rw [readObservers_frame]
  rw [combOf, hcombs, combOf]

/-- A comb's read clears its observer counters and leaves the others. -/
theorem ctrVal_readObservers (e : Engine) (c : CombId) (k : Ctr) :
    ctrVal (readObservers e c) k = if k ∈ observerCtrs.map (Ctr.comb c) then 0 else ctrVal e k := by
  rw [readObservers_eq, ctrVal_onComb]
  split
  · next hk =>
    obtain ⟨o, ho, rfl⟩ := List.mem_map.1 hk
    have hnodup : (observerCtrs.map (Ctr.comb c)).Nodup := observerCtrs_nodup.map fun _ _ h => (Ctr.comb.inj h).2
    exact ctrVal_setEach_of_mem _ _ (fun _ _ _ _ => rfl) _ _ hnodup ho
  · next hk => exact ctrVal_setEach_of_notMem _ _ _ _ hk

/-- Combs read one after another: the counters of all of them are clear, the others stay. -/
theorem ctrVal_foldl_readObservers (l : List CombId) (e : Engine) (k : Ctr) : ctrVal (l.foldl readObservers e) k =
    if ∃ c ∈ l, k ∈ observerCtrs.map (Ctr.comb c) then 0 else ctrVal e k := by
  induction l generalizing e with
  | nil => simp
  | cons c l ih =>
    rw [List.foldl_cons, ih, ctrVal_readObservers]
    by_cases hc : k ∈ observerCtrs.map (Ctr.comb c) <;> simp [-List.mem_map, hc]

/-- Combs read one after another, none twice: each is read once, the others stay. -/
theorem combOf_foldl_readObservers {l : List CombId} (hl : l.Nodup) {e : Engine} (hlen : e.combs.length = 50) (c : CombId) :
    combOf (l.foldl readObservers e) c = if c ∈ l then observed (combOf e c) else combOf e c := by
  induction l generalizing e with
  | nil => rfl
  | cons d l ih =>
    obtain ⟨hd, hl⟩ := List.nodup_cons.1 hl
    have hlen' : (readObservers e d).combs.length = 50 := by rw [readObservers_frame]; simpa using hlen
    rw [List.foldl_cons, ih hl hlen', combOf_readObservers]
    by_cases hc : c = d
    · subst hc
      have hc : c.val < e.combs.length := hlen.symm ▸ c.isLt
      simp [hd, combOf_onComb_self observed hc]
    · simp [hc, combOf_onComb_ne observed hc]

/-! #### The poll as a whole -/

theorem mem_enabledCombs {e : Engine} {c : CombId} : c ∈ enabledCombs e ↔ enabled e c = true := by
  simp [enabledCombs, allCombs]

theorem enabledCombs_nodup (e : Engine) : (enabledCombs e).Nodup := (List.nodup_finRange 50).filter _

theorem leaveWfi_frame (e : Engine) : leaveWfi e = { e with pwr := (leaveWfi e).pwr } := by
  unfold leaveWfi
  split <;> rfl

/-- A summary is a record on its way to the log: counters, combs and messages stay. -/
theorem summarise_keeps (e : Engine) (n : Nat) :
    ((summarise e n).ctr, (summarise e n).combs, (summarise e n).mbx) = (e.ctr, e.combs, e.mbx) := by
  simp [summarise, drawFree]

/-- The engine with every enabled comb's observers read, before FP3 writes its summaries. -/
def afterObservers (e : Engine) : Engine := (enabledCombs e).foldl readObservers (leaveWfi e)

section Poll
variable {e : Engine} (hup : procUp e 3 = true) (hrun : running e = true)
include hup hrun

/-- FP3 reads every enabled comb, then writes a summary for each layer that runs. -/
theorem observerPoll_eq : observerPoll e = (observedLayers (afterObservers e)).foldl summarise (afterObservers e) := by
  have hcombs : enabledCombs (leaveWfi e) = enabledCombs e := enabledCombs_of_fences (by rw [leaveWfi_frame])
  simp only [observerPoll, hup, hrun, hcombs, afterObservers]
  rfl

/-- The summaries leave counters, combs and messages. -/
theorem observerPoll_keeps : (observerPoll e).ctr = (afterObservers e).ctr ∧ (observerPoll e).combs = (afterObservers e).combs ∧
    (observerPoll e).mbx = (afterObservers e).mbx := by
  rw [observerPoll_eq hup hrun]
  simpa only [Prod.mk.injEq] using foldl_keeps (fun x : Engine => (x.ctr, x.combs, x.mbx)) summarise_keeps _ _

/-- Each enabled comb is read, the others stay. -/
theorem combOf_observerPoll (hlen : e.combs.length = 50) (c : CombId) :
    combOf (observerPoll e) c = if enabled e c = true then observed (combOf e c) else combOf e c := by
  obtain ⟨-, hcombs, -⟩ := observerPoll_keeps hup hrun
  have hlen' : (leaveWfi e).combs.length = 50 := by rw [leaveWfi_frame]; exact hlen
  have hleave : combOf (leaveWfi e) c = combOf e c := by rw [leaveWfi_frame]; rfl
  calc combOf (observerPoll e) c = combOf (afterObservers e) c := by simp only [combOf, hcombs]
    _ = _ := by simp only [afterObservers, combOf_foldl_readObservers (enabledCombs_nodup e) hlen', mem_enabledCombs, hleave]

/-- The observer counters of every enabled comb are clear, the other counters stay. -/
theorem ctrVal_observerPoll (k : Ctr) : ctrVal (observerPoll e) k =
    if ∃ c ∈ enabledCombs e, k ∈ observerCtrs.map (Ctr.comb c) then 0 else ctrVal e k := by
  obtain ⟨hctr, -, -⟩ := observerPoll_keeps hup hrun
  have hleave : ctrVal (leaveWfi e) k = ctrVal e k := by rw [leaveWfi_frame]; rfl
  calc ctrVal (observerPoll e) k = ctrVal (afterObservers e) k := by simp only [ctrVal, hctr]
    _ = _ := by rw [afterObservers, ctrVal_foldl_readObservers, hleave]

theorem observerPoll_mbx : (observerPoll e).mbx = e.mbx := by
  obtain ⟨-, -, hmbx⟩ := observerPoll_keeps hup hrun
  have hleave : (leaveWfi e).mbx = e.mbx := by rw [leaveWfi_frame]
  have hread : ∀ x c, (readObservers x c).mbx = x.mbx := fun x c => by rw [readObservers_frame]; rfl
  exact hmbx.trans ((foldl_keeps Engine.mbx hread _ _).trans hleave)

end Poll

/-- Settles O58: the three causes run one restart, all of which `restartProc_eq` says; the poll is one read of each enabled comb, after
which only summaries for the log follow. -/
theorem restartsAndObserves : Obligations.RestartsAndObserves := by
  unfold Obligations.RestartsAndObserves
  intro s
  refine ⟨fun p c cause pc hup hact hprocs htotals hc => ?_, fun p sh o pc => exec_protectStore_of_not_ro pc, fun hup hrun hlen => ?_⟩
  · have hproc : p.val < s.eng.fwp.procs.length := hprocs.symm ▸ p.isLt
    have htot : p.val < s.eng.fwp.totals.length := htotals.symm ▸ p.isLt
    have hself := (procOf_restartProc cause pc hup hact p.val).trans (procOf_onProc_self _ hproc)
    have hothers : ∀ q, q ≠ p.val → procOf (restartProc s.eng p cause pc) q = procOf s.eng q := fun q hq =>
      (procOf_restartProc cause pc hup hact q).trans (procOf_onProc_ne _ hq)
    have hctr := ctrVal_restartProc_restarts cause pc hup hact
    have hlog := inflight_restartProc cause pc hup hact
    have heq := restartProc_eq cause pc hup hact
    obtain ⟨henv, hstep, -⟩ := clampFp0_spec s.eng
    refine ⟨_, exec_of_restarts hc, congrArg Proc.run hself, congrArg Proc.ready hself, hothers, ?_, ?_, ?_, hctr, ?_, hlog,
      fun hp => ?_, fun hp => ?_, ?_, ?_, rfl, rfl⟩
    all_goals simp only [withEng_eng, heq]
    · exact elemD_updAt_self _ _ htot
    · subst hp
      exact ⟨rfl, henv, hstep⟩
    · exact if_neg (Fin.val_ne_of_ne hp)
  · have hcomb := combOf_observerPoll hup hrun hlen
    have hctr := ctrVal_observerPoll hup hrun
    refine ⟨_, rfl, fun c hen => ?_, fun c hen => ?_, fun k hk => ?_, observerPoll_mbx hup hrun, rfl, rfl⟩
    · have hc := (hcomb c).trans (if_pos hen)
      exact ⟨congrArg Comb.nonzeroShadow hc, congrArg Comb.nonzero hc, fun k hk =>
        (hctr _).trans (if_pos ⟨c, mem_enabledCombs.2 hen, List.mem_map_of_mem hk⟩)⟩
    · exact (hcomb c).trans (if_neg (by simp [hen]))
    · refine (hctr k).trans (if_neg ?_)
      rintro ⟨c, -, hmem⟩
      obtain ⟨o, ho, rfl⟩ := List.mem_map.1 hmem
      exact hk c o ho rfl

end Sys2Proof.Machine
end

section
/-! Proofs: what bytes sent to memory read as (R4, R416, R453). -/

namespace Sys2Proof.Machine

/-! ### Lists of bytes and of lines -/

theorem mem_dedup {α : Type} [DecidableEq α] {l : List α} {a : α} : a ∈ dedup l ↔ a ∈ l := by
  have hfold : ∀ acc : List α, a ∈ l.foldl (fun acc b => if b ∈ acc then acc else b :: acc) acc ↔ a ∈ acc ∨ a ∈ l := by
    induction l with
    | nil => simp
    | cons b l ih =>
      intro acc
      rw [List.foldl_cons, ih, List.mem_cons]
      split
      · next hb => exact ⟨fun h => h.imp_right .inr, fun h => h.elim .inl fun h => h.elim (fun h => .inl (h ▸ hb)) .inr⟩
      · rw [List.mem_cons]; tauto
  simp [dedup, hfold]

/-- The element of a numbered list whose number, counted from `a`, is `x`. -/
theorem find?_zip_range {α : Type} (bs : List α) (a x : Nat) :
    ((List.range bs.length).zip bs).find? (fun p => a + p.1 == x) = if a ≤ x then (bs[x - a]?).map fun b => (x - a, b) else none := by
  induction bs using List.reverseRecOn with
  | nil => simp
  | append_singleton bs b ih =>
    rw [List.length_append, List.length_singleton, List.range_succ, List.zip_append (by simp), List.find?_append, ih]
    rcases Nat.lt_trichotomy x (a + bs.length) with hx | rfl | hx
    · by_cases ha : a ≤ x
      · have hlt : x - a < bs.length := by omega
        simp [ha, List.getElem?_append, hlt]
      · have hne : a + bs.length ≠ x := by omega
        simp [ha, hne]
    · simp
    · have hlen : bs.length < x - a := by omega
      have ha : a ≤ x := by omega
      have hne : a + bs.length ≠ x := by omega
      simp [ha, hne, List.getElem?_append, Nat.not_lt.2 hlen.le, Nat.sub_ne_zero_of_lt hlen]

/-- The byte that a line's bytes hold for an address of the line. -/
def lineHit (bytes : List (Nat × Byte)) (x : Nat) : Option Byte := (bytes.find? fun p => p.1 == x % 64).map Prod.snd

/-- Of the bytes of a range, the line of an address holds that of the address. -/
theorem lineHit_linePart {a x : Nat} {bs : List Byte} (hend : a + bs.length ≤ 2 ^ 52) (hx : x < 2 ^ 52) :
    lineHit (linePart a bs (x / 64)) x = if a ≤ x then bs[x - a]? else none := by
  have hmine : ∀ p ∈ (List.range bs.length).zip bs, (if (a + p.1) % 2 ^ 52 / 64 = x / 64 then some ((a + p.1) % 2 ^ 52 % 64, p.2) else none).any
      (fun q => q.1 == x % 64) = (a + p.1 == x) := fun p hp => by
    have hlt : p.1 < bs.length := List.mem_range.1 (List.of_mem_zip hp).1
    rw [Nat.mod_eq_of_lt (by omega : a + p.1 < 2 ^ 52), Bool.eq_iff_iff, beq_iff_eq]
    split <;> simp <;> omega
  rw [lineHit, linePart, List.find?_filterMap, List.find?_congr hmine, find?_zip_range]
  split
  · next hle =>
    have hxx : x % 4503599627370496 = x := Nat.mod_eq_of_lt hx
    cases hb : bs[x - a]? <;> simp [Nat.add_sub_cancel' hle, hxx]
  · rfl

theorem mem_linesOf {a n l : Nat} : l ∈ linesOf a n ↔ n ≠ 0 ∧ lineOf a ≤ l ∧ l ≤ lineOf (a + n - 1) := by
  unfold linesOf
  split
  · next h => simp [h]
  · next h =>
    simp only [span, List.mem_map, List.mem_range, ne_eq, h, not_false_eq_true, true_and]
    exact ⟨fun ⟨i, hi, hl⟩ => by omega, fun ⟨h1, h2⟩ => ⟨l - lineOf a, by omega, by omega⟩⟩

/-- The line of an address of a range is among the lines that are sent. -/
theorem mem_sentLines {a n x : Nat} (hend : a + n ≤ 2 ^ 52) (hle : a ≤ x) (hlt : x < a + n) :
    x / 64 ∈ dedup ((linesOf a n).map (· % 2 ^ 46)) := by
  refine mem_dedup.2 (List.mem_map.2 ⟨x / 64, mem_linesOf.2 ?_, Nat.mod_eq_of_lt (by omega)⟩)
  rw [lineOf, lineOf, Nat.mod_eq_of_lt (by omega : a < 2 ^ 52), Nat.mod_eq_of_lt (by omega : a + n - 1 < 2 ^ 52)]
  omega

/-! ### Views -/

section Views
variable {e e' : Engine} (m : Mem)

theorem viewByte_congr (h : e'.mp = e.mp) (x : Nat) : viewByte m e' x = viewByte m e x := by rw [viewByte, viewByte, h]
theorem viewPoison_congr (h : e'.mp = e.mp) (l : Nat) : viewPoison m e' l = viewPoison m e l := by rw [viewPoison, viewPoison, h]

theorem viewBytes_eq_map (a n : Nat) : viewBytes m e a n = (List.range n).map fun i => viewByte m e (a + i) := by
  induction n generalizing a with
  | zero => rfl
  | succ n ih => simp [viewBytes, ih, List.range_succ_eq_map, Function.comp_def, Nat.add_assoc, Nat.add_comm 1]

/-- A number reads as its bytes do. -/
theorem viewNat_of_bytes {m' : Mem} {a n : Nat} (h : ∀ i < n, viewByte m' e' (a + i) = viewByte m e (a + i)) :
    viewNat m' e' a n = viewNat m e a n := by
  rw [viewNat, viewNat, viewBytes_eq_map, viewBytes_eq_map]
  exact congrArg leNat (List.map_congr_left fun i hi => h i (List.mem_range.1 hi))

end Views

/-! ### Lines and bytes sent -/

section Sent
variable {e : Engine} {who : Writer} (m : Mem)

/-- Whether a stream is lost is a matter of the resident tasks. -/
theorem writesLost_eq (e : Engine) (w : Writer) : writesLost e w =
    (writerTask w).any fun i => ((e.sch.run.map Graph.tasks).getD []).any fun t => t.index == i && t.lost := by
  unfold writesLost
  cases e.sch.run <;> cases writerTask w <;> simp

theorem writesLost_congr {e' : Engine} (h : e'.sch.run.map Graph.tasks = e.sch.run.map Graph.tasks) (w : Writer) :
    writesLost e' w = writesLost e w := by rw [writesLost_eq, writesLost_eq, h]

variable (hlost : writesLost e who = false)
include hlost

theorem viewByte_sendLine (l : Nat) (bytes : List (Nat × Byte)) (p c : Bool) {x : Nat} (hx : x < 2 ^ 52) :
    viewByte m (sendLine e who l bytes p c) x =
      if l = x / 64 then (lineHit bytes x).getD (viewByte m e x) else viewByte m e x := by
  simp only [viewByte, sendLine, hlost, writesGet, List.foldl_append, Nat.mod_eq_of_lt hx, lineOf, lineHit,
    Bool.false_eq_true, if_false, List.foldl_cons, List.foldl_nil]
  split
  · cases bytes.find? fun p => p.1 == x % 64 <;> rfl
  · rfl

theorem viewPoison_sendLine (l : Nat) (bytes : List (Nat × Byte)) (p c : Bool) (line : Nat) :
    viewPoison m (sendLine e who l bytes p c) line =
      if l = line then (if bytes.length = 64 ∨ c = true then p else viewPoison m e line || p) else viewPoison m e line := by
  simp [viewPoison, sendLine, hlost, wholeLine]

theorem viewByte_sendLines (bytes : Nat → List (Nat × Byte)) (p : Nat → Bool) (c : Bool) (ls : List Nat) {x : Nat} (hx : x < 2 ^ 52) :
    viewByte m (ls.foldl (fun e l => sendLine e who l (bytes l) (p l) c) e) x =
      if x / 64 ∈ ls then (lineHit (bytes (x / 64)) x).getD (viewByte m e x) else viewByte m e x := by
  induction ls generalizing e with
  | nil => simp
  | cons l ls ih =>
    rw [List.foldl_cons, ih (e := sendLine e who l (bytes l) (p l) c) hlost, viewByte_sendLine m hlost _ _ _ _ hx]
    by_cases hl : x / 64 = l
    · subst hl
      cases lineHit (bytes (x / 64)) x <;> simp
    · simp [hl, Ne.symm hl]

/-- A range sent line by line reads as its bytes, everything else as before. -/
theorem viewByte_sendRange {a : Nat} {bs : List Byte} (p : Nat → Bool) (c : Bool) (hend : a + bs.length ≤ 2 ^ 52) {x : Nat} (hx : x < 2 ^ 52) :
    viewByte m ((dedup ((linesOf a bs.length).map (· % 2 ^ 46))).foldl (fun e l => sendLine e who l (linePart a bs l) (p l) c) e) x =
      if a ≤ x then (bs[x - a]?).getD (viewByte m e x) else viewByte m e x := by
  rw [viewByte_sendLines m hlost _ _ _ _ hx, lineHit_linePart hend hx]
  by_cases hin : a ≤ x ∧ x < a + bs.length
  · rw [if_pos (mem_sentLines hend hin.1 hin.2), if_pos hin.1, if_pos hin.1]
  · have hnone : (if a ≤ x then bs[x - a]? else none) = none := by
      split
      · exact List.getElem?_eq_none (by omega)
      · rfl
    by_cases ha : a ≤ x
    · rw [if_pos ha] at hnone
      simp [ha, hnone]
    · simp [ha]

theorem viewByte_sendBytes {a : Nat} {bs : List Byte} (p : Nat → Bool) (hend : a + bs.length ≤ 2 ^ 52) {x : Nat} (hx : x < 2 ^ 52) :
    viewByte m (sendBytes e who a bs p) x = if a ≤ x then (bs[x - a]?).getD (viewByte m e x) else viewByte m e x :=
  viewByte_sendRange m hlost p false hend hx

theorem viewByte_sendBytes_outside {a : Nat} {bs : List Byte} (p : Nat → Bool) (hend : a + bs.length ≤ 2 ^ 52) {x : Nat} (hx : x < 2 ^ 52)
    (hout : x < a ∨ a + bs.length ≤ x) : viewByte m (sendBytes e who a bs p) x = viewByte m e x := by
  rw [viewByte_sendBytes m hlost p hend hx]
  split
  · rw [List.getElem?_eq_none (by omega)]; rfl
  · rfl

theorem viewBytes_sendBytes {a : Nat} {bs : List Byte} (p : Nat → Bool) (hend : a + bs.length ≤ 2 ^ 52) :
    viewBytes m (sendBytes e who a bs p) a bs.length = bs := by
  rw [viewBytes_eq_map]
  refine List.ext_getElem (by simp) fun i _ hi => ?_
  rw [List.getElem_map, List.getElem_range, viewByte_sendBytes m hlost p hend (by omega), if_pos (by omega), Nat.add_sub_cancel_left,
    List.getElem?_eq_getElem hi, Option.getD_some]

/-- A region cleared reads +0 (R210). -/
theorem viewByte_sendClear {a n : Nat} (hend : a + n ≤ 2 ^ 52) {x : Nat} (hx : x < 2 ^ 52) :
    viewByte m (sendClear e who a n) x = if a ≤ x ∧ x < a + n then 0 else viewByte m e x := by
  have hrange := viewByte_sendRange (bs := List.replicate n 0) m hlost (fun _ => false) true (by simpa using hend) hx
  rw [List.length_replicate] at hrange
  rw [sendClear, hrange, List.getElem?_replicate]
  by_cases ha : a ≤ x
  · by_cases hn : x < a + n
    · rw [if_pos ha, if_pos (by omega), if_pos ⟨ha, hn⟩]; rfl
    · rw [if_pos ha, if_neg (by omega), if_neg (by omega)]; rfl
  · rw [if_neg ha, if_neg (by omega)]

omit hlost in
/-- Bytes that fall in one line are one write. -/
theorem sendBytes_of_oneLine {a : Nat} {bs : List Byte} (p : Nat → Bool) (hne : bs ≠ []) (hend : a + bs.length ≤ 2 ^ 52)
    (hline : (a + bs.length - 1) / 64 = a / 64) :
    sendBytes e who a bs p = sendLine e who (a / 64) (linePart a bs (a / 64)) (p (a / 64)) := by
  have hlen : 0 < bs.length := List.length_pos_iff.2 hne
  have hlines : ∀ l ∈ (linesOf a bs.length).map (· % 2 ^ 46), l = a / 64 := fun l hl => by
    obtain ⟨k, hk, rfl⟩ := List.mem_map.1 hl
    obtain ⟨-, hlo, hhi⟩ := mem_linesOf.1 hk
    rw [lineOf, Nat.mod_eq_of_lt (by omega)] at hlo hhi
    show k % 2 ^ 46 = a / 64
    omega
  have hsent : (linesOf a bs.length).map (· % 2 ^ 46) ≠ [] := fun h => by
    have hmem := mem_sentLines hend (Nat.le_refl a) (by omega)
    rw [h] at hmem
    exact absurd hmem (by simp [dedup])
  rw [sendBytes, dedup_of_forall_eq hsent hlines]
  rfl

/-- A partial write adds its mark to its line's (assumptions/3). -/
theorem viewPoison_sendBytes_oneLine {a : Nat} {bs : List Byte} (p : Nat → Bool) (hne : bs ≠ []) (hend : a + bs.length ≤ 2 ^ 52)
    (hline : (a + bs.length - 1) / 64 = a / 64) (hpart : bs.length < 64) :
    viewPoison m (sendBytes e who a bs p) (a / 64) = (viewPoison m e (a / 64) || p (a / 64)) := by
  have hlen : (linePart a bs (a / 64)).length ≤ bs.length := (List.length_filterMap_le _ _).trans (by simp)
  rw [sendBytes_of_oneLine p hne hend hline, viewPoison_sendLine m hlost, if_pos rfl, if_neg (by simp; omega)]

end Sent

end Sys2Proof.Machine
end

section
/-! Proofs: a spilled add in its region, and its wait. -/

namespace Sys2Proof.Machine

/-! ### Marks and events -/

/-- Lines sent one after the other change the memory port alone. -/
theorem sendLines_frame (who : Writer) (bytes : Nat → List (Nat × Byte)) (p : Nat → Bool) (c : Bool) (ls : List Nat) (e : Engine) :
    ls.foldl (fun e l => sendLine e who l (bytes l) (p l) c) e =
      { e with mp := (ls.foldl (fun e l => sendLine e who l (bytes l) (p l) c) e).mp } := by
  induction ls generalizing e with
  | nil => rfl
  | cons l ls ih => rw [List.foldl_cons, ih]; rfl

theorem sendBytes_frame (e : Engine) (w : Writer) (a : Nat) (bs : List Byte) (p : Nat → Bool) :
    sendBytes e w a bs p = { e with mp := (sendBytes e w a bs p).mp } := sendLines_frame w (linePart a bs) p false _ e

theorem sendClear_frame (e : Engine) (w : Writer) (a n : Nat) : sendClear e w a n = { e with mp := (sendClear e w a n).mp } :=
  sendLines_frame w (linePart a (List.replicate n 0)) (fun _ => false) true _ e

@[simp] theorem sendBytes_hub (e : Engine) (w : Writer) (a : Nat) (bs : List Byte) (p : Nat → Bool) : (sendBytes e w a bs p).hub = e.hub := by
  rw [sendBytes_frame]
@[simp] theorem sendBytes_sch (e : Engine) (w : Writer) (a : Nat) (bs : List Byte) (p : Nat → Bool) : (sendBytes e w a bs p).sch = e.sch := by
  rw [sendBytes_frame]
@[simp] theorem sendBytes_cap (e : Engine) (w : Writer) (a : Nat) (bs : List Byte) (p : Nat → Bool) : (sendBytes e w a bs p).cap = e.cap := by
  rw [sendBytes_frame]
@[simp] theorem sendBytes_combs (e : Engine) (w : Writer) (a : Nat) (bs : List Byte) (p : Nat → Bool) : (sendBytes e w a bs p).combs = e.combs := by
  rw [sendBytes_frame]
@[simp] theorem sendBytes_ctr (e : Engine) (w : Writer) (a : Nat) (bs : List Byte) (p : Nat → Bool) : (sendBytes e w a bs p).ctr = e.ctr := by
  rw [sendBytes_frame]
@[simp] theorem sendClear_hub (e : Engine) (w : Writer) (a n : Nat) : (sendClear e w a n).hub = e.hub := by
  rw [sendClear_frame]
@[simp] theorem sendClear_sch (e : Engine) (w : Writer) (a n : Nat) : (sendClear e w a n).sch = e.sch := by
  rw [sendClear_frame]
@[simp] theorem sendClear_cap (e : Engine) (w : Writer) (a n : Nat) : (sendClear e w a n).cap = e.cap := by
  rw [sendClear_frame]
@[simp] theorem sendClear_combs (e : Engine) (w : Writer) (a n : Nat) : (sendClear e w a n).combs = e.combs := by
  rw [sendClear_frame]
@[simp] theorem sendClear_ctr (e : Engine) (w : Writer) (a n : Nat) : (sendClear e w a n).ctr = e.ctr := by
  rw [sendClear_frame]

theorem any_updFirst {α : Type} {p q : α → Bool} {f : α → α} (hf : ∀ a, q (f a) = q a) (l : List α) : (updFirst p f l).any q = l.any q := by
  induction l with
  | nil => rfl
  | cons a l ih => by_cases h : p a <;> simp [updFirst, h, hf, ih]

theorem writesLost_of_sch {e e' : Engine} (h : e'.sch = e.sch) (w : Writer) : writesLost e' w = writesLost e w :=
  writesLost_congr (by rw [h]) w

@[simp] theorem writesLost_poisonEvent (e : Engine) (i n : Nat) (w : Writer) : writesLost (poisonEvent e i n) w = writesLost e w :=
  writesLost_congr (poisonEvent_run e i n).1 w

@[simp] theorem writesLost_markOut (e : Engine) (i : Nat) (w : Writer) : writesLost (markOut e i) w = writesLost e w := by
  rw [writesLost_eq, writesLost_eq, markOut, onTask, onGraph]
  cases e.sch.run with
  | none => rfl
  | some g =>
    refine congrArg (writerTask w).any (funext fun t => ?_)
    exact any_updFirst (q := fun k => k.index == t && k.lost) (f := fun k => { k with poisonOut := true }) (fun _ => rfl) g.tasks

@[simp] theorem capMarked_mp (e : Engine) (i : Nat) (bad : Bool) : (capMarked e i bad).mp = e.mp := by
  cases bad <;> simp [capMarked, markOut]
@[simp] theorem capMarked_cap (e : Engine) (i : Nat) (bad : Bool) : (capMarked e i bad).cap = e.cap := by
  cases bad <;> simp [capMarked, markOut]
@[simp] theorem capMarked_combs (e : Engine) (i : Nat) (bad : Bool) : (capMarked e i bad).combs = e.combs := by
  cases bad <;> simp [capMarked, markOut]
@[simp] theorem capMarked_ctr (e : Engine) (i : Nat) (bad : Bool) : (capMarked e i bad).ctr = e.ctr := by
  cases bad <;> simp [capMarked, markOut]
@[simp] theorem writesLost_capMarked (e : Engine) (i : Nat) (bad : Bool) (w : Writer) : writesLost (capMarked e i bad) w = writesLost e w := by
  cases bad <;> simp [capMarked]

/-- A mark takes no error bit back. -/
theorem errBit_capMarked {e : Engine} {b : Nat} (h : errBit e b = true) (i : Nat) (bad : Bool) : errBit (capMarked e i bad) b = true := by
  cases bad with
  | false => exact h
  | true =>
    rw [capMarked, if_pos rfl, errBit_congr (poisonEvent_hub ..), errBit_raiseErr _ (by decide)]
    exact Bool.or_eq_true_iff.2 (.inl h)

/-! ### One add (R205, R208, R213) -/

section Add
variable {e : Engine} (m : Mem) (task : Nat) (r : Region) (i : Nat) (v : Word) (bad : Bool)

/-- The mark that an add gives its line. -/
def addMark (m : Mem) (e : Engine) (r : Region) (i : Nat) (v : Word) (bad : Bool) : Bool :=
  viewPoison m e (lineOf (r.accAddr + 4 * i) % 2 ^ 46) || bad || fBad (fAdd (w32 (viewNat m e (r.accAddr + 4 * i) 4)) v)

theorem spillOne_eq : spillOne m e task r i v bad =
    capMarked (sendBytes e (.cap task) (r.accAddr + 4 * i) (leBytes 4 (fAdd (w32 (viewNat m e (r.accAddr + 4 * i) 4)) v).toNat)
      fun _ => addMark m e r i v bad) task (addMark m e r i v bad) := rfl

@[simp] theorem spillOne_cap : (spillOne m e task r i v bad).cap = e.cap := by rw [spillOne_eq, capMarked_cap, sendBytes_cap]
@[simp] theorem spillOne_combs : (spillOne m e task r i v bad).combs = e.combs := by rw [spillOne_eq, capMarked_combs, sendBytes_combs]
@[simp] theorem spillOne_ctr : (spillOne m e task r i v bad).ctr = e.ctr := by rw [spillOne_eq, capMarked_ctr, sendBytes_ctr]
@[simp] theorem writesLost_spillOne (w : Writer) : writesLost (spillOne m e task r i v bad) w = writesLost e w := by
  rw [spillOne_eq, writesLost_capMarked, writesLost_of_sch (sendBytes_sch ..)]

theorem errBit_spillOne {b : Nat} (h : errBit e b = true) : errBit (spillOne m e task r i v bad) b = true :=
  errBit_capMarked ((errBit_congr (sendBytes_hub ..) b).trans h) _ _

variable (hlost : writesLost e (.cap task) = false) (hend : r.accAddr + 4 * i + 4 ≤ 2 ^ 52)
include hlost hend

theorem viewNat_spillOne_self : viewNat m (spillOne m e task r i v bad) (r.accAddr + 4 * i) 4 =
    (fAdd (w32 (viewNat m e (r.accAddr + 4 * i) 4)) v).toNat := by
  have hbytes := viewBytes_sendBytes (bs := leBytes 4 (fAdd (w32 (viewNat m e (r.accAddr + 4 * i) 4)) v).toNat) m hlost
    (fun _ => addMark m e r i v bad) (by simpa using hend)
  rw [leBytes_length] at hbytes
  rw [spillOne_eq, viewNat_of_bytes m fun _ _ => viewByte_congr m (capMarked_mp ..) _, viewNat, hbytes, leNat_leBytes]
  exact Nat.mod_eq_of_lt (BitVec.isLt _)

theorem viewByte_spillOne_outside {x : Nat} (hx : x < 2 ^ 52) (hout : x < r.accAddr + 4 * i ∨ r.accAddr + 4 * i + 4 ≤ x) :
    viewByte m (spillOne m e task r i v bad) x = viewByte m e x := by
  rw [spillOne_eq, viewByte_congr m (capMarked_mp ..), viewByte_sendBytes_outside m hlost _ (by simpa using hend) hx (by simpa using hout)]

/-- An add marks its line where the line, the entry or the sum is marked, and takes no mark away (R208, R420). -/
theorem viewPoison_spillOne (halign : r.accAddr % 64 = 0) : viewPoison m (spillOne m e task r i v bad) (lineOf (r.accAddr + 4 * i)) =
    (viewPoison m e (lineOf (r.accAddr + 4 * i)) || addMark m e r i v bad) := by
  have hline : lineOf (r.accAddr + 4 * i) = (r.accAddr + 4 * i) / 64 := by rw [lineOf, Nat.mod_eq_of_lt (by omega)]
  rw [spillOne_eq, viewPoison_congr m (capMarked_mp ..), hline]
  exact viewPoison_sendBytes_oneLine m hlost _ (List.ne_nil_of_length_pos (by simp)) (by simpa using hend) (by rw [leBytes_length]; omega)
    (by rw [leBytes_length]; decide)

end Add

/-! ### The adds of a line -/

/-- The adds of an entry one after the other. -/
def applyAdds (m : Mem) (e : Engine) (task : Nat) (r : Region) (bad : Bool) (adds : List (Nat × Word)) : Engine :=
  adds.foldl (fun e a => spillOne m e task r a.1 a.2 bad) e

section Adds
variable {e : Engine} (m : Mem) (task : Nat) {r : Region} (bad : Bool) {adds : List (Nat × Word)}

theorem applyAdds_keeps : (applyAdds m e task r bad adds).cap = e.cap ∧ (applyAdds m e task r bad adds).combs = e.combs ∧
    (applyAdds m e task r bad adds).ctr = e.ctr :=
  ⟨foldl_keeps Engine.cap (fun _ _ => spillOne_cap ..) adds e, foldl_keeps Engine.combs (fun _ _ => spillOne_combs ..) adds e,
   foldl_keeps Engine.ctr (fun _ _ => spillOne_ctr ..) adds e⟩

theorem errBit_applyAdds {b : Nat} (h : errBit e b = true) : errBit (applyAdds m e task r bad adds) b = true := by
  induction adds generalizing e with
  | nil => exact h
  | cons a adds ih => exact ih (errBit_spillOne _ _ _ _ _ _ h)

variable (hlost : writesLost e (.cap task) = false)
include hlost

/-- A byte outside the adds' elements reads as before. -/
theorem viewByte_applyAdds_outside (hend : ∀ a ∈ adds, r.accAddr + 4 * a.1 + 4 ≤ 2 ^ 52) {x : Nat} (hx : x < 2 ^ 52)
    (hout : ∀ a ∈ adds, x < r.accAddr + 4 * a.1 ∨ r.accAddr + 4 * a.1 + 4 ≤ x) :
    viewByte m (applyAdds m e task r bad adds) x = viewByte m e x := by
  induction adds generalizing e with
  | nil => rfl
  | cons a adds ih =>
    obtain ⟨hend, hends⟩ := List.forall_mem_cons.1 hend
    obtain ⟨hout, houts⟩ := List.forall_mem_cons.1 hout
    exact (ih ((writesLost_spillOne ..).trans hlost) hends houts).trans (viewByte_spillOne_outside m task r _ _ _ hlost hend hx hout)

/-- Each element takes its own add (R205): no two of them name one element. -/
theorem viewNat_applyAdds (hnodup : (adds.map Prod.fst).Nodup) (hend : ∀ a ∈ adds, r.accAddr + 4 * a.1 + 4 ≤ 2 ^ 52) :
    ∀ a ∈ adds, viewNat m (applyAdds m e task r bad adds) (r.accAddr + 4 * a.1) 4 =
      (fAdd (w32 (viewNat m e (r.accAddr + 4 * a.1) 4)) a.2).toNat := by
  induction adds generalizing e with
  | nil => simp
  | cons b adds ih =>
    obtain ⟨hnew, hnodup⟩ := List.nodup_cons.1 hnodup
    obtain ⟨hend, hends⟩ := List.forall_mem_cons.1 hend
    have hlost' : writesLost (spillOne m e task r b.1 b.2 bad) (.cap task) = false := (writesLost_spillOne ..).trans hlost
    have hne : ∀ a ∈ adds, a.1 ≠ b.1 := fun a ha h => hnew (h ▸ List.mem_map_of_mem ha)
    refine List.forall_mem_cons.2 ⟨?_, fun a ha => ?_⟩
    · have hrest : ∀ j < 4, viewByte m (applyAdds m (spillOne m e task r b.1 b.2 bad) task r bad adds) (r.accAddr + 4 * b.1 + j) =
          viewByte m (spillOne m e task r b.1 b.2 bad) (r.accAddr + 4 * b.1 + j) := fun j hj =>
        viewByte_applyAdds_outside m task bad hlost' hends (by omega) fun a ha => by
          have := hne a ha
          omega
      exact (viewNat_of_bytes m hrest).trans (viewNat_spillOne_self m task r _ _ _ hlost hend)
    · have hfirst : ∀ j < 4, viewByte m (spillOne m e task r b.1 b.2 bad) (r.accAddr + 4 * a.1 + j) = viewByte m e (r.accAddr + 4 * a.1 + j) :=
        fun j hj => viewByte_spillOne_outside m task r _ _ _ hlost hend (by have := hends a ha; omega) (by have := hne a ha; omega)
      exact (ih hlost' hnodup hends a ha).trans (by rw [viewNat_of_bytes m hfirst])

/-- The mark of an entry or of a fault reaches the line of its adds (R208, R405, R407). -/
theorem viewPoison_applyAdds {l : Nat} (hend : ∀ a ∈ adds, r.accAddr + 4 * a.1 + 4 ≤ 2 ^ 52) (halign : r.accAddr % 64 = 0)
    (hline : ∀ a ∈ adds, lineOf (r.accAddr + 4 * a.1) = l) (h : viewPoison m e l = true ∨ (bad = true ∧ adds ≠ [])) :
    viewPoison m (applyAdds m e task r bad adds) l = true := by
  induction adds generalizing e with
  | nil => exact h.elim id fun ⟨_, hne⟩ => absurd rfl hne
  | cons a adds ih =>
    obtain ⟨hend, hends⟩ := List.forall_mem_cons.1 hend
    obtain ⟨rfl, hlines⟩ := List.forall_mem_cons.1 hline
    refine ih ((writesLost_spillOne ..).trans hlost) hends hlines (.inl ?_)
    rw [viewPoison_spillOne m task r _ _ _ hlost hend halign]
    rcases h with h | ⟨rfl, -⟩
    · rw [h, Bool.true_or]
    · simp [addMark]

end Adds

/-! ### The entry as it is taken up -/

/-- The engine once a lane mismatch of the add is seen (R407). -/
def addLane (e : Engine) (lane : LaneFault) : Engine := if lane then laneEvent (bump e .hubLaneMismatch 1) else e

section Lane
variable (e : Engine) (lane : LaneFault)

@[simp] theorem addLane_mp : (addLane e lane).mp = e.mp := by cases lane <;> simp [addLane, laneEvent]
@[simp] theorem addLane_sch : (addLane e lane).sch = e.sch := by cases lane <;> simp [addLane, laneEvent]
@[simp] theorem addLane_cap : (addLane e lane).cap = e.cap := by cases lane <;> simp [addLane, laneEvent]
@[simp] theorem addLane_combs : (addLane e lane).combs = e.combs := by cases lane <;> simp [addLane, laneEvent]

theorem ctrVal_addLane (k : Ctr) : ctrVal (addLane e lane) k =
    if lane = true ∧ k = .hubLaneMismatch then min 65535 (ctrVal e .hubLaneMismatch + 1) else ctrVal e k := by
  cases lane with
  | false => simp [addLane]
  | true =>
    rw [addLane, if_pos rfl, laneEvent, ctrVal_raiseErr, ctrVal_bump_one]
    simp [ctrMax, ctrWidth]

theorem errBit_addLane : errBit (addLane e true) errLaneMismatch = true := by
  rw [addLane, if_pos rfl, laneEvent, errBit_raiseErr _ (by decide)]
  simp

end Lane

section Fresh
variable (e : Engine) (r : Region)

@[simp] theorem freshCandidate_hub : (freshCandidate e r).hub = e.hub := by unfold freshCandidate; split <;> simp [zeroSpilled]
@[simp] theorem freshCandidate_cap : (freshCandidate e r).cap = e.cap := by unfold freshCandidate; split <;> simp [zeroSpilled]
@[simp] theorem freshCandidate_combs : (freshCandidate e r).combs = e.combs := by unfold freshCandidate; split <;> simp [zeroSpilled]
@[simp] theorem freshCandidate_ctr : (freshCandidate e r).ctr = e.ctr := by unfold freshCandidate; split <;> simp [zeroSpilled]

@[simp] theorem writesLost_onRegion (h : Nat) (f : Region → Region) (w : Writer) : writesLost (onRegion e h f) w = writesLost e w :=
  writesLost_congr (by simp [onRegion, onGraph, Function.comp_def]) w

@[simp] theorem writesLost_freshCandidate (w : Writer) : writesLost (freshCandidate e r) w = writesLost e w := by
  unfold freshCandidate
  split
  · rw [writesLost_onRegion]
    exact writesLost_of_sch (sendClear_sch ..) w
  · rfl

/-- A candidate region that its MASK task has read starts again at +0 (text after R216). -/
theorem viewByte_freshCandidate {e : Engine} (m : Mem) {r : Region} (hlost : writesLost e (.cap noTask) = false)
    (hend : r.accAddr + 4 * r.elements ≤ 2 ^ 52) {x : Nat} (hx : x < 2 ^ 52) : viewByte m (freshCandidate e r) x =
      if r.stale = true ∧ r.accAddr ≤ x ∧ x < r.accAddr + 4 * r.elements then 0 else viewByte m e x := by
  unfold freshCandidate
  split
  · next hstale =>
    rw [viewByte_congr m (onRegion_mp ..), zeroSpilled, viewByte_sendClear m hlost hend hx]
    simp [hstale]
  · next hstale => simp [hstale]

theorem viewNat_freshCandidate {e : Engine} (m : Mem) {r : Region} (hlost : writesLost e (.cap noTask) = false)
    (hend : r.accAddr + 4 * r.elements ≤ 2 ^ 52) {i : Nat} (hi : i < r.elements) : w32 (viewNat m (freshCandidate e r) (r.accAddr + 4 * i) 4) =
      if r.stale = true then 0 else w32 (viewNat m e (r.accAddr + 4 * i) 4) := by
  have hbyte : ∀ j < 4, viewByte m (freshCandidate e r) (r.accAddr + 4 * i + j) =
      if r.stale = true then 0 else viewByte m e (r.accAddr + 4 * i + j) := fun j hj => by
    rw [viewByte_freshCandidate m hlost hend (by omega)]
    have hin : r.accAddr ≤ r.accAddr + 4 * i + j ∧ r.accAddr + 4 * i + j < r.accAddr + 4 * r.elements := by omega
    simp [hin]
  by_cases hstale : r.stale = true
  · simp only [hstale, if_true] at hbyte ⊢
    rw [viewNat, viewBytes_eq_map, List.map_congr_left fun j hj => hbyte j (List.mem_range.1 hj)]
    rfl
  · simp only [hstale] at hbyte ⊢
    exact congrArg w32 (viewNat_of_bytes m hbyte)

end Fresh

/-- The engine as the first add of an entry finds it. -/
def addReady (e : Engine) (lane : LaneFault) (r : Region) : Engine := freshCandidate (addLane e lane) r

/-- The region once the adds of an entry are in it (R209). -/
def addedTo (task step : Nat) (r : Region) : Region :=
  { r with touched := true, step := (if r.touched then r.step else step), addedBy := insertNat task r.addedBy }

/-- The next turn is the task's (R326). -/
def turnGiven (e : Engine) : Engine := { e with cap := { e.cap with turn := true } }

/-- The wait of an entry counted, where its row has not counted yet (R209). -/
def waitCounted (e : Engine) (x : HandleEntry) : Engine := if x.waited then e else bumpComb (rowWaited e x) (srcComb x) .stepWaits 1

/-- The entry gone once its adds are applied. -/
def addsDone (x : HandleEntry) (rest : List HandleEntry) (step : Nat) (e : Engine) : Engine :=
  let e := bump (onRegion e x.region (addedTo x.task step)) .spillAdds 1
  { e with cap := { e.cap with turn := true, spill := rest } }

/-- An add at its element, or at none where it is out of bounds and dropped (R203). -/
def addAt (m : Mem) (task : Nat) (r : Region) (bad : Bool) (e : Engine) (a : Nat × Word) : Engine :=
  match spillElem e r a.1 with
  | (some i, e) => spillOne m e task r i a.2 bad
  | (none, e) => e

theorem addAt_of_lt {r : Region} {a : Nat × Word} (h : a.1 < r.elements) (m : Mem) (task : Nat) (bad : Bool) (e : Engine) :
    addAt m task r bad e a = spillOne m e task r a.1 a.2 bad := by simp [addAt, spillElem, regionElem, h]

/-- What marks the sums of an entry: its own mark, a lane mismatch and a line CRC that fails (R208, R405, R407). -/
def addBad (x : HandleEntry) (fault : AddFault) : Bool := x.h.poison || fault.lane || fault.crc

/-- The engine once the adds of an entry, all of one line, are applied. -/
def addsApplied (m : Mem) (e : Engine) (x : HandleEntry) (rest : List HandleEntry) (r : Region) (fault : AddFault) : Engine :=
  addsDone x rest (stepOf e x.task) (applyAdds m (addReady e fault.lane r) x.task r (addBad x fault) x.adds)

/-! ### The command -/

section Spill
variable {e : Engine} (m : Mem) {x : HandleEntry} {rest : List HandleEntry} {r : Region} (fault : AddFault)
  (hworks : capWorks e = true) (hspill : e.cap.spill = x :: rest) (hturn : e.cap.job = none ∨ e.cap.turn = false)
  (hr : regionOf e x.region = some r)
include hworks hspill hturn hr

/-- An add that waits gives the turn to the task, and is counted once (R209, assumptions/45). -/
theorem spillAdd_waits (hwaits : addWaits e x.region (stepOf e x.task) = true) : spillAdd m e fault =
    turnGiven (waitCounted e x) := by
  have hmine : (!capWorks e || (e.cap.job.isSome && e.cap.turn)) = false := by
    rcases hturn with h | h <;> simp [hworks, h]
  simp only [spillAdd, hspill, hmine, hr, hwaits, if_true, Bool.false_eq_true, if_false]
  rfl

/-- Adds of one line, all in bounds, are applied together, and the entry goes. -/
theorem spillAdd_applies (hwaits : addWaits e x.region (stepOf e x.task) = false)
    (hin : ∀ a ∈ x.adds, a.1 < r.elements ∧ lineOf (r.accAddr + 4 * a.1) = firstLine e r x.adds) : spillAdd m e fault =
    addsApplied m e x rest r fault := by
  have hmine : (!capWorks e || (e.cap.job.isSome && e.cap.turn)) = false := by
    rcases hturn with h | h <;> simp [hworks, h]
  have hline : ∀ e' : Engine, ∀ a ∈ x.adds, addLine e' r a.1 = lineOf (r.accAddr + 4 * a.1) := fun e' a ha => by
    simp [addLine, regionElem, (hin a ha).1]
  have hfirst : ∀ e' : Engine, firstLine e' r x.adds = firstLine e r x.adds := fun e' => by
    cases hadds : x.adds with
    | nil => rfl
    | cons a l => rw [firstLine, firstLine, hline e' a (by simp [hadds]), hline e a (by simp [hadds])]
  have hnow : ∀ e' : Engine, x.adds.filter (fun a => addLine e' r a.1 == firstLine e' r x.adds) = x.adds := fun e' =>
    List.filter_eq_self.2 fun a ha => by rw [hline e' a ha, hfirst e', (hin a ha).2]; exact beq_self_eq_true _
  have hlater : ∀ e' : Engine, x.adds.filter (fun a => addLine e' r a.1 != firstLine e' r x.adds) = [] := fun e' =>
    List.filter_eq_nil_iff.2 fun a ha => by rw [hline e' a ha, hfirst e', (hin a ha).2]; simp
  have hdone : spillAdd m e fault =
      addsDone x rest (stepOf e x.task) (x.adds.foldl (addAt m x.task r (addBad x fault)) (addReady e fault.lane r)) := by
    simp only [spillAdd, hspill, hmine, hr, hwaits, Bool.false_eq_true, if_false, hnow, hlater]
    rfl
  rw [hdone, addsApplied, applyAdds]
  exact congrArg _ (List.foldl_ext _ _ _ fun e a ha => addAt_of_lt (hin a ha).1 ..)

end Spill

theorem exec_spillAdd (fault : AddFault) (s : State) : exec (.spillAdd fault) s = .next (withEng s (spillAdd s.mem s.eng fault)) := rfl

/-- A wait counts once; the entry knows it, none leaves, and nothing is written. -/
theorem waitCounted_of_new {e : Engine} {x : HandleEntry} {rest : List HandleEntry} (hspill : e.cap.spill = x :: rest)
    (hnew : x.waited = false) :
    (∃ l, (waitCounted e x).cap.spill = { x with waited := true } :: l ∧ l.length = rest.length) ∧
    (waitCounted e x).cap.job = e.cap.job ∧ (waitCounted e x).mp = e.mp ∧ (waitCounted e x).sch = e.sch ∧
    ctrVal (waitCounted e x) (.comb (srcComb x) .stepWaits) = min 255 (ctrVal e (.comb (srcComb x) .stepWaits) + 1) := by
  have hcount : waitCounted e x = bump (rowWaited e x) (.comb (srcComb x) .stepWaits) 1 := by rw [waitCounted, hnew]; rfl
  rw [hcount, bump_cap, bump_mp, bump_sch, ctrVal_bump_one, if_pos rfl]
  exact ⟨by simp [rowWaited, hspill], rfl, rfl, rfl, rfl⟩

section Done
variable (x : HandleEntry) (rest : List HandleEntry) (step : Nat) (e : Engine)

theorem addsDone_mp : (addsDone x rest step e).mp = e.mp := bump_mp ..
theorem addsDone_combs : (addsDone x rest step e).combs = e.combs := bump_combs ..
theorem addsDone_hub : (addsDone x rest step e).hub = e.hub := bump_hub ..
theorem ctrVal_addsDone (k : Ctr) : ctrVal (addsDone x rest step e) k =
    if k = .spillAdds then min (2 ^ 32 - 1) (ctrVal e .spillAdds + 1) else ctrVal e k := by
  have hbump := ctrVal_bump_one (onRegion e x.region (addedTo x.task step)) .spillAdds k
  exact hbump

end Done

section Ready
variable (e : Engine) (lane : LaneFault) (r : Region)

theorem writesLost_addReady (w : Writer) : writesLost (addReady e lane r) w = writesLost e w :=
  (writesLost_freshCandidate ..).trans (writesLost_of_sch (addLane_sch ..) w)

/-- A lane mismatch changes no byte. -/
theorem viewByte_addReady {e : Engine} (m : Mem) {r : Region} (hlost : writesLost e (.cap noTask) = false)
    (hend : r.accAddr + 4 * r.elements ≤ 2 ^ 52) {x : Nat} (hx : x < 2 ^ 52) : viewByte m (addReady e lane r) x =
      if r.stale = true ∧ r.accAddr ≤ x ∧ x < r.accAddr + 4 * r.elements then 0 else viewByte m e x := by
  rw [addReady, viewByte_freshCandidate m ((writesLost_of_sch (addLane_sch ..) _).trans hlost) hend hx, viewByte_congr m (addLane_mp ..)]

theorem viewNat_addReady {e : Engine} (m : Mem) {r : Region} (hlost : writesLost e (.cap noTask) = false)
    (hend : r.accAddr + 4 * r.elements ≤ 2 ^ 52) {i : Nat} (hi : i < r.elements) : w32 (viewNat m (addReady e lane r) (r.accAddr + 4 * i) 4) =
      if r.stale = true then 0 else w32 (viewNat m e (r.accAddr + 4 * i) 4) := by
  rw [addReady, viewNat_freshCandidate m ((writesLost_of_sch (addLane_sch ..) _).trans hlost) hend hi,
    viewNat_of_bytes m fun _ _ => viewByte_congr m (addLane_mp ..) _]

theorem ctrVal_addReady (k : Ctr) : ctrVal (addReady e lane r) k = ctrVal (addLane e lane) k := by
  rw [ctrVal, ctrVal, addReady, freshCandidate_ctr]

end Ready

/-- The elements that are added to lie inside the address space. -/
theorem addEnds {e : Engine} {r : Region} {l : List (Nat × Word)} (hend : r.accAddr + 4 * r.elements ≤ 2 ^ 52)
    (hin : ∀ a ∈ l, a.1 < r.elements ∧ lineOf (r.accAddr + 4 * a.1) = firstLine e r l) :
    ∀ a ∈ l, r.accAddr + 4 * a.1 + 4 ≤ 2 ^ 52 := fun a ha => by
  have := (hin a ha).1
  omega

section Applied
variable (m : Mem) {e : Engine} {x : HandleEntry} {rest : List HandleEntry} {r : Region} {fault : AddFault}

theorem addsApplied_combs : (addsApplied m e x rest r fault).combs = e.combs := by
  obtain ⟨-, hcombs, -⟩ := applyAdds_keeps (e := addReady e fault.lane r) m x.task (r := r) (addBad x fault) (adds := x.adds)
  rw [addsApplied, addsDone_combs, hcombs, addReady, freshCandidate_combs, addLane_combs]

/-- HUB_SPILL_ADDS counts the entry, and HUB_LANE_MISMATCH a lane mismatch beside it (R326, R407). -/
theorem ctrVal_addsApplied (k : Ctr) : ctrVal (addsApplied m e x rest r fault) k =
    if k = .spillAdds then min (2 ^ 32 - 1) (ctrVal e .spillAdds + 1)
    else if fault.lane = true ∧ k = .hubLaneMismatch then min 65535 (ctrVal e .hubLaneMismatch + 1) else ctrVal e k := by
  obtain ⟨-, -, hctr⟩ := applyAdds_keeps (e := addReady e fault.lane r) m x.task (r := r) (addBad x fault) (adds := x.adds)
  have hadds : ∀ q, ctrVal (applyAdds m (addReady e fault.lane r) x.task r (addBad x fault) x.adds) q = ctrVal (addLane e fault.lane) q :=
    fun q => (congrArg (lookupD · q 0) hctr).trans (ctrVal_addReady ..)
  have hspills : ctrVal (addLane e fault.lane) .spillAdds = ctrVal e .spillAdds := by rw [ctrVal_addLane, if_neg (by simp)]
  rw [addsApplied, ctrVal_addsDone, hadds, hadds, hspills, ctrVal_addLane]

theorem errBit_addsApplied (hlane : fault.lane = true) : errBit (addsApplied m e x rest r fault) errLaneMismatch = true := by
  rw [addsApplied, errBit_congr (addsDone_hub ..)]
  exact errBit_applyAdds m x.task _ ((errBit_congr (freshCandidate_hub ..) _).trans (hlane ▸ errBit_addLane e))

variable (hlost : writesLost e (.cap x.task) = false) (hend : r.accAddr + 4 * r.elements ≤ 2 ^ 52)
  (hin : ∀ a ∈ x.adds, a.1 < r.elements ∧ lineOf (r.accAddr + 4 * a.1) = firstLine e r x.adds)
include hlost hend hin

/-- The line of the adds takes the mark of the entry, of a lane mismatch and of a line CRC that fails (R208, R405, R407). -/
theorem viewPoison_addsApplied (halign : r.accAddr % 64 = 0) (hne : x.adds ≠ []) (hbad : addBad x fault = true) :
    viewPoison m (addsApplied m e x rest r fault) (firstLine e r x.adds) = true := by
  rw [addsApplied, viewPoison_congr m (addsDone_mp ..)]
  exact viewPoison_applyAdds m x.task _ ((writesLost_addReady ..).trans hlost) (addEnds hend hin) halign (fun a ha => (hin a ha).2)
    (.inr ⟨hbad, hne⟩)

variable (hlostNone : writesLost e (.cap noTask) = false)
include hlostNone

/-- Each element takes its add in F32, onto +0 in a candidate region that has been read (R205, text after R216). -/
theorem viewNat_addsApplied (hnodup : (x.adds.map Prod.fst).Nodup) {a : Nat × Word} (ha : a ∈ x.adds) :
    viewNat m (addsApplied m e x rest r fault) (r.accAddr + 4 * a.1) 4 =
      (fAdd (if r.stale then 0 else w32 (viewNat m e (r.accAddr + 4 * a.1) 4)) a.2).toNat := by
  rw [addsApplied, viewNat_of_bytes m fun _ _ => viewByte_congr m (addsDone_mp ..) _,
    viewNat_applyAdds m x.task _ ((writesLost_addReady ..).trans hlost) hnodup (addEnds hend hin) a ha,
    viewNat_addReady _ m hlostNone hend (hin a ha).1]

/-- Every other byte reads as before, or +0 where such a region starts again. -/
theorem viewByte_addsApplied {b : Nat} (hb : b < 2 ^ 52) (hout : ∀ a ∈ x.adds, b < r.accAddr + 4 * a.1 ∨ r.accAddr + 4 * a.1 + 4 ≤ b) :
    viewByte m (addsApplied m e x rest r fault) b =
      if r.stale = true ∧ r.accAddr ≤ b ∧ b < r.accAddr + 4 * r.elements then 0 else viewByte m e b := by
  rw [addsApplied, viewByte_congr m (addsDone_mp ..),
    viewByte_applyAdds_outside m x.task _ ((writesLost_addReady ..).trans hlost) (addEnds hend hin) hb hout,
    viewByte_addReady _ m hlostNone hend hb]

end Applied

/-- Settles O45: an add that waits by `spillAdd_waits` and `waitCounted_of_new`; one that goes by `spillAdd_applies`, each part by the lemma
of `addsApplied` about it. -/
theorem spilledAddsAccumulate : Obligations.SpilledAddsAccumulate := by
  unfold Obligations.SpilledAddsAccumulate
  intro s x rest r fault hworks hspill hturn hr
  simp only [exec_spillAdd]
  refine ⟨fun hwaits => ⟨fun hnew => ?_, fun hold => ?_⟩, fun hwaits hne hnodup hin halign hend hlost hlostNone => ?_⟩
  · obtain ⟨⟨l, hl, hlen⟩, hjob, hmp, hsch, hctr⟩ := waitCounted_of_new hspill hnew
    refine ⟨_, l, rfl, ?_⟩
    rw [withEng_eng, withEng_mem, spillAdd_waits s.mem fault hworks hspill hturn hr hwaits]
    exact ⟨hl, hlen, rfl, hjob, hctr, hmp, hsch, rfl⟩
  · rw [spillAdd_waits s.mem fault hworks hspill hturn hr hwaits, waitCounted, hold]
    rfl
  · refine ⟨_, rfl, ?_⟩
    rw [withEng_eng, withEng_mem, withEng_posted, spillAdd_applies s.mem fault hworks hspill hturn hr hwaits hin]
    refine ⟨rfl, rfl, fun a ha => viewNat_addsApplied s.mem hlost hend hin hlostNone hnodup ha,
      fun b hb hout => viewByte_addsApplied s.mem hlost hend hin hlostNone hb hout,
      fun hbad => viewPoison_addsApplied s.mem hlost hend hin halign hne ?_, ?_, ?_, errBit_addsApplied s.mem, addsApplied_combs s.mem, rfl, rfl⟩
    · rcases hbad with h | h | h <;> simp [addBad, h]
    · rw [ctrVal_addsApplied, if_pos rfl]
    · rw [ctrVal_addsApplied, if_neg (by simp)]
      simp

end Sys2Proof.Machine
end

section
/-! Proofs: a MASK task's last block over a frozen row. -/

namespace Sys2Proof.Machine

/-! ### A frozen row's EPOCH among the master weights of an open row (R358, R355)

CappingTaskMovesOn keeps apart what the open rows of a block write. With its last block a block row also gets its new EPOCH, its frozen rows
too (R358), and nothing keeps these from what the open rows have written. -/

/-- A MASK task at the last block of the first block row of an NM28 tensor. Its row pitch puts the EPOCH of row 1 in slot 1 at 0x60046, where
the master weights of row 0's last group begin. -/
def overlaidJob : CapJob :=
  { task := 0, kind := kMASK, param := 9, mode := 1, target := some 1, block := 1
    arg := { (default : UpdArg) with rows := 16, rowLen := 4, k := 16, codePitch := 64, factorPitch := 64, master := 0x6003E, m := 0x11000,
                                     v := 0x12000, freeze := 0x14000, cand := 0x15000 } }

/-- The tensor: slot 0 at 0x50000 with EPOCH 3, slot 1 at 0x60000. -/
def overlaidTensor : VerEntry :=
  { handle := 9, slots := 2, current := 0, w8 := false, codes := [0x50000, 0x60000], factors := [0x58000, 0x68000]
    epochs := [some 3, none, none] }

/-- The capping unit in RUN with that job. -/
def overlaidState : State :=
  { eng := { boot := { state := .run }, cap := { job := some overlaidJob }
             sch := { run := some { sub := ⟨5, 0x1000, 77, none⟩, hdr := default, samples := {}, logical := [], regions := []
                                    versions := [overlaidTensor], layers := [], gen := none, carousel := [] } } } }

/-- The freeze bits: of the first eight rows row 0 alone takes part. -/
def overlaidRead : LaneRead := { rd := [{ addr := 0x14000, data := 0xFE :: List.replicate 63 0, poison := false }] }

/-- Memory as the job reads it. -/
def overlaidMem : Mem := landed overlaidState.mem overlaidRead.rd

/-- The engine that takes the line. -/
def overlaidEng : Engine := readEng overlaidState overlaidRead.rd

/-- The job as it reads its target slot. -/
def overlaidTarget : CapJob := { overlaidJob with from_ := 1 }

/-- The rows of the block row that are frozen. -/
def overlaidFrozen (r : Nat) : Bool :=
  decide (r ∈ overlaidJob.heldRows) || ((freezeBit overlaidMem overlaidEng overlaidTarget (8 * overlaidJob.row + r)).1 &&
    !(freezeBit overlaidMem overlaidEng overlaidTarget (8 * overlaidJob.row + r)).2)

/-- The ranges that row 0 writes, by the premise of CappingTaskMovesOn. -/
def overlaidRanges : List (Nat × Nat) :=
  [(0x60000, 8), (0x60009, 3), (0x60046, 8), (0x11008, 8), (0x12008, 8), (0x68002, 2)]

theorem overlaidRanges_apart : Apart overlaidRanges := by unfold Apart; decide

/-- No position of the block holds a master weight other than +0. -/
theorem overlaid_weights : ∀ x ∈ ((blockRows overlaidJob).filter fun r => decide (r ∉ overlaidJob.skipRows)).flatMap
    (blockPos overlaidMem overlaidEng overlaidTarget overlaidFrozen), x.w = 0 := by decide +kernel

/-- The state that the command answers. -/
def overlaidNext : State := reading overlaidState overlaidRead.rd (maskBlock overlaidRead.lane)

/-- Row 1's EPOCH lies over row 0's master weight. -/
theorem overlaidNext_weight : viewNat overlaidNext.mem overlaidNext.eng 0x60046 4 = 4 := by decide +kernel

/-- Refutes O48: with the last block of a block row its frozen rows get their new EPOCH too (R358), and the premise that keeps the ranges
apart names those of the open rows alone. In `overlaidState` the EPOCH of frozen row 1 lies over the first master weight that row 0 writes:
the block holds +0 at every position, and 4 stands there. -/
theorem not_cappingTaskMovesOn : ¬ Obligations.CappingTaskMovesOn := by
  unfold Obligations.CappingTaskMovesOn
  rintro ⟨-, hmask, -⟩
  obtain ⟨-, -, hblock, -⟩ := hmask overlaidState overlaidRead overlaidMem overlaidJob rfl (by decide) rfl rfl (by decide)
  have hopen : ((blockRows overlaidJob).filter fun r => decide (r ∉ overlaidJob.skipRows) && !overlaidFrozen r) = [0] := by decide +kernel
  obtain ⟨t, l, hexec, -, hkept, hrows⟩ := hblock 1 overlaidEng [] [] [0] overlaidTarget 2 7 14 4 overlaidFrozen
    rfl (Or.inl rfl) rfl (by decide) rfl rfl rfl hopen.symm rfl (by decide) (by decide +kernel) rfl overlaidRanges_apart
  obtain rfl : t = overlaidNext := (Host.Outcome.next.inj hexec).symm
  have hzero : ∀ x ∈ l, x.w = 0 := fun x hx => (hkept x hx).elim (overlaid_weights x) fun ⟨_, _, _, hw, _⟩ => hw
  obtain ⟨hweight, -⟩ := hrows 0 (by simp) _ _ _ _ _ 0 rfl rfl rfl rfl rfl (by decide)
  have hval : viewNat overlaidNext.mem overlaidNext.eng 0x60046 4 = 0 := by
    refine hweight.trans ?_
    split
    · next x hx =>
      have hmem : x ∈ l := List.mem_of_mem_filter (mem_sortBy.1 (List.mem_of_getElem? hx))
      simp [hzero x hmem]
    · rfl
  rw [overlaidNext_weight] at hval
  exact absurd hval (by decide)

end Sys2Proof.Machine
end

section
/-! Proofs: reading rules for rings and their streams, and the binding of a ring (R260). -/

namespace Sys2Proof.Machine

/-! ### Rings -/

/-- A comb's part that a comb without content does not have is read after a change of the comb whether or not the engine has the comb. -/
theorem combOf_onComb (e : Engine) (c d : CombId) (f : Comb → Comb) :
    combOf (onComb e c f) d = if d = c ∧ c.val < e.combs.length then f (combOf e d) else combOf e d := by
  by_cases hd : d = c
  · subst hd
    by_cases hlen : d.val < e.combs.length
    · rw [combOf_onComb_self _ hlen, if_pos ⟨rfl, hlen⟩]
    · rw [if_neg fun h => hlen h.2]
      simp [combOf, onComb, updAt_getElem?, List.getElem?_eq_none (Nat.le_of_not_lt hlen)]
  · rw [combOf_onComb_ne _ hd, if_neg fun h => hd h.1]

/-- A comb that holds anything is one of the engine's. -/
theorem lt_of_combOf {e : Engine} {c : CombId} (h : combOf e c ≠ {}) : c.val < e.combs.length := by
  by_contra hlen
  exact h (by simp [combOf, List.getElem?_eq_none (Nat.le_of_not_lt hlen)])

theorem ringOf_default (r : Nat) : ((({} : Comb).rings)[r]?).getD none = none := by
  simp only [List.getElem?_replicate]
  split <;> rfl

theorem lt_of_ringOf {e : Engine} {c : CombId} {r : Nat} {g : Ring} (h : ringOf e c r = some g) : c.val < e.combs.length :=
  lt_of_combOf fun hd => by rw [ringOf, hd, ringOf_default] at h; exact absurd h (by simp)

/-- A ring read after a change of a ring. -/
theorem ringOf_onRing (e : Engine) (c d : CombId) (r q : Nat) (f : Ring → Ring) :
    ringOf (onRing e c r f) d q = if d = c ∧ q = r then (ringOf e d q).map f else ringOf e d q := by
  rw [ringOf, onRing, combOf_onComb]
  by_cases hd : d = c
  · subst hd
    by_cases hlen : d.val < e.combs.length
    · rw [if_pos ⟨rfl, hlen⟩, updAt_getElem?, ringOf]
      by_cases hq : q = r
      · subst hq
        rw [if_pos rfl, if_pos ⟨rfl, rfl⟩]
        cases (combOf e d).rings[q]? <;> rfl
      · rw [if_neg (Ne.symm hq), if_neg fun h => hq h.2]
    · have hnone : ringOf e d q = none := by
        by_contra h
        obtain ⟨g, hg⟩ := Option.ne_none_iff_exists'.1 h
        exact hlen (lt_of_ringOf hg)
      rw [if_neg fun h => hlen h.2, ← ringOf, hnone]
      split <;> rfl
  · rw [if_neg fun h => hd h.1, if_neg fun h => hd h.1, ringOf]

theorem ringOf_onRing_self (e : Engine) (c : CombId) (r : Nat) (f : Ring → Ring) : ringOf (onRing e c r f) c r = (ringOf e c r).map f := by
  rw [ringOf_onRing, if_pos ⟨rfl, rfl⟩]

theorem ringOf_onRing_ne (e : Engine) {c d : CombId} {r q : Nat} (f : Ring → Ring) (h : ¬(d = c ∧ q = r)) :
    ringOf (onRing e c r f) d q = ringOf e d q := by rw [ringOf_onRing, if_neg h]

/-- A ring is a matter of its comb. -/
theorem ringOf_congr {e e' : Engine} {c : CombId} (h : combOf e' c = combOf e c) (r : Nat) : ringOf e' c r = ringOf e c r := by
  rw [ringOf, ringOf, h]

theorem ringOf_onComb {e : Engine} {c d : CombId} {f : Comb → Comb} (hf : ∀ cb, (f cb).rings = cb.rings := by intro; rfl) (r : Nat) :
    ringOf (onComb e c f) d r = ringOf e d r := by
  rw [ringOf, combOf_onComb]
  split
  · rw [hf, ringOf]
  · rfl

/-- A change of a ring leaves its comb's park records. -/
theorem parks_onRing (e : Engine) (c d : CombId) (r : Nat) (f : Ring → Ring) : (combOf (onRing e c r f) d).parks = (combOf e d).parks := by
  rw [onRing, combOf_onComb]
  split <;> rfl

/-! ### Contexts -/

theorem ctxOf_onComb {e : Engine} {c d : CombId} {f : Comb → Comb} (hf : ∀ cb, (f cb).ctxs = cb.ctxs := by intro; rfl) (x : Fin 4) :
    ctxOf (onComb e c f) d x = ctxOf e d x := by
  rw [ctxOf, combOf_onComb]
  split
  · rw [hf, ctxOf]
  · rfl

/-- The tasks that name a ring are a matter of the comb's contexts and of the resident tasks. -/
theorem ringUsers_congr {e e' : Engine} {c : CombId} (hctx : ∀ x, ctxOf e' c x = ctxOf e c x) (htask : ∀ i, taskOf e' i = taskOf e i)
    {r : Nat} : ringUsers e' c r = ringUsers e c r := by
  simp only [ringUsers, hctx, htask]

/-! ### Streams attached -/

/-- A stream attached leaves the ring's slots and lines, and every stream that it has. -/
theorem attachOne_keeps (g : Ring) (u : Fin 4 × Ctx × Task × Nat × Desc) :
    (attachOne g u).slots = g.slots ∧ (attachOne g u).lines = g.lines ∧ (attachOne g u).parked = g.parked ∧
      g.streams ⊆ (attachOne g u).streams := by
  obtain ⟨x, k, tk, role, d⟩ := u
  simp only [attachOne]
  split
  · exact ⟨rfl, rfl, rfl, fun _ h => h⟩
  · exact ⟨rfl, rfl, rfl, List.subset_append_left ..⟩

/-- The stream attached is one of the ring's, whether or not it was before. -/
theorem exists_stream_attachOne (g : Ring) (u : Fin 4 × Ctx × Task × Nat × Desc) :
    ∃ q ∈ (attachOne g u).streams, q.task = u.2.1.task ∧ q.role = u.2.2.2.1 := by
  obtain ⟨x, k, tk, role, d⟩ := u
  simp only [attachOne]
  split
  · next h =>
    obtain ⟨q, hq, hmine⟩ := List.any_eq_true.1 h
    rw [Bool.and_eq_true, beq_iff_eq, beq_iff_eq] at hmine
    exact ⟨q, hq, hmine⟩
  · exact ⟨_, List.mem_append_right _ (List.mem_singleton.2 rfl), rfl, rfl⟩

/-- All of the streams attached are the ring's. -/
theorem foldl_attachOne (us : List (Fin 4 × Ctx × Task × Nat × Desc)) (g : Ring) :
    (us.foldl attachOne g).slots = g.slots ∧ (us.foldl attachOne g).lines = g.lines ∧ (us.foldl attachOne g).parked = g.parked ∧
      g.streams ⊆ (us.foldl attachOne g).streams ∧
      ∀ u ∈ us, ∃ q ∈ (us.foldl attachOne g).streams, q.task = u.2.1.task ∧ q.role = u.2.2.2.1 := by
  induction us generalizing g with
  | nil => exact ⟨rfl, rfl, rfl, fun _ h => h, fun _ h => absurd h List.not_mem_nil⟩
  | cons u us ih =>
    obtain ⟨hslots, hlines, hparked, hstreams, hall⟩ := ih (attachOne g u)
    obtain ⟨hslots₁, hlines₁, hparked₁, hstreams₁⟩ := attachOne_keeps g u
    refine ⟨hslots.trans hslots₁, hlines.trans hlines₁, hparked.trans hparked₁, fun q hq => hstreams (hstreams₁ hq), fun v hv => ?_⟩
    rcases List.mem_cons.1 hv with rfl | hv
    · obtain ⟨q, hq, hmine⟩ := exists_stream_attachOne g v
      exact ⟨q, hstreams hq, hmine⟩
    · exact hall v hv

/-- Streams attached one after the other to a ring change nothing else. -/
theorem foldl_onRing (c : CombId) (r : Nat) {α : Type} (f : Ring → α → Ring) (us : List α) (e : Engine) :
    let t := us.foldl (fun e u => onRing e c r fun g => f g u) e
    ringOf t c r = (ringOf e c r).map (fun g => us.foldl f g) ∧ (∀ q, q ≠ r → ringOf t c q = ringOf e c q) ∧
      (∀ d, d ≠ c → combOf t d = combOf e d) ∧ (combOf t c).freeSlots = (combOf e c).freeSlots ∧ t = { e with combs := t.combs } := by
  induction us generalizing e with
  | nil => exact ⟨by simp, fun _ _ => rfl, fun _ _ => rfl, rfl, rfl⟩
  | cons u us ih =>
    obtain ⟨hring, hrings, hcombs, hfree, hframe⟩ := ih (onRing e c r fun g => f g u)
    refine ⟨?_, fun q hq => ?_, fun d hd => ?_, ?_, ?_⟩
    · rw [List.foldl_cons, hring, ringOf_onRing_self, Option.map_map]; rfl
    · rw [List.foldl_cons, hrings q hq, ringOf_onRing_ne _ _ fun h => hq h.2]
    · rw [List.foldl_cons, hcombs d hd, onRing, combOf_onComb_ne _ hd]
    · rw [List.foldl_cons, hfree, onRing, combOf_onComb]
      split <;> rfl
    · rw [List.foldl_cons, hframe]; rfl

/-! ### RING_BIND -/

/-- A comb with a ring bound to slots of its pool. -/
def bindSlots (r : Nat) (n : Nat) (cb : Comb) : Comb :=
  { cb with freeSlots := cb.freeSlots - n, rings := updAt cb.rings r fun _ => some { slots := n, tailCount := Config.slotLines } }

/-- A ring that takes fewer slots than it asks for is counted (R260). -/
def countShrunk (e : Engine) (c : CombId) (want : Nat) : Engine :=
  if min want (combOf e c).freeSlots < want then bumpComb e c .ringShrunk 1 else e

theorem combOf_countShrunk (e : Engine) (c : CombId) (want : Nat) (d : CombId) : combOf (countShrunk e c want) d = combOf e d := by
  unfold countShrunk
  split
  · exact combOf_bump ..
  · rfl

theorem countShrunk_frame (e : Engine) (c : CombId) (want : Nat) : countShrunk e c want = { e with ctr := (countShrunk e c want).ctr } := by
  unfold countShrunk
  split
  · exact (bump_spec ..).2.2
  · rfl

section Bind
variable {e : Engine} {c : CombId} {r : Fin 12} {want : Nat} (hw : works e c = true) (hfree : ringOf e c r.val = none)
  (hwant : ((ringUsers e c r.val).head?.map fun u => u.2.2.2.2.credits) = some want)
include hw hfree hwant

/-- Below three slots a ring waits, else it takes them, and every stream that names it joins. -/
theorem ringBind_eq : ringBind e c r = if min want (combOf e c).freeSlots < 3 then e
    else attachStreams (onComb (countShrunk e c want) c (bindSlots r.val (min want (combOf e c).freeSlots))) c r.val := by
  obtain ⟨u, hu, rfl⟩ := Option.map_eq_some_iff.1 hwant
  obtain ⟨us, husers⟩ := List.head?_eq_some_iff.1 hu
  simp only [ringBind, hw, Bool.not_true, Bool.false_eq_true, if_false, hfree, husers]
  rfl

end Bind

/-- Settles O25: below three slots by the guard of `ringBind_eq`; else the pool and the new ring by `bindSlots`, and the streams, each of
which joins it, by `foldl_attachOne`. -/
theorem ringBindTakesSlots : Obligations.RingBindTakesSlots := by
  unfold Obligations.RingBindTakesSlots
  intro s c r want hw hcombs hrings hnone hwant
  have hbind := ringBind_eq hw hnone hwant
  have hc : c.val < s.eng.combs.length := by rw [hcombs]; exact c.isLt
  refine ⟨fun hfew => ?_, fun hmany => ?_⟩
  · rw [if_pos hfew] at hbind
    exact congrArg (fun e => Host.Outcome.next { s with eng := e }) hbind
  · rw [if_neg (Nat.not_lt.2 hmany)] at hbind
    set n := min want (combOf s.eng c).freeSlots with hn
    set e₁ := onComb (countShrunk s.eng c want) c (bindSlots r.val n) with he₁
    have hself : combOf e₁ c = bindSlots r.val n (combOf s.eng c) := by
      rw [he₁, combOf_onComb_self _ (by rw [countShrunk_frame]; exact hc), combOf_countShrunk]
    have husers : ringUsers e₁ c r.val = ringUsers s.eng c r.val := by
      refine ringUsers_congr (fun x => ?_) fun i => ?_
      · rw [ctxOf, hself, ctxOf]; rfl
      · rw [he₁, taskOf_onComb]; exact taskOf_congr (by rw [countShrunk_frame]) i
    obtain ⟨hring, hothers, hcombs', hslots, hframe⟩ := foldl_onRing c r.val attachOne (ringUsers e₁ c r.val) e₁
    rw [← attachStreams] at hring hothers hcombs' hslots hframe
    obtain ⟨hgslots, hglines, hgparked, -, hgstreams⟩ :=
      foldl_attachOne (ringUsers e₁ c r.val) { slots := n, tailCount := Config.slotLines }
    refine ⟨_, _, rfl, ?_, hgslots, hglines, hgparked, husers ▸ hgstreams, ?_, ?_, fun q hq => ?_, fun d hd => ?_, ?_, rfl, rfl⟩
    · have hr : r.val < (combOf s.eng c).rings.length := by rw [hrings]; exact r.isLt
      have hnew : ringOf e₁ c r.val = some { slots := n, tailCount := Config.slotLines } := by
        rw [ringOf, hself, bindSlots, updAt_getElem?_self, List.getElem?_eq_getElem hr]; rfl
      rw [onEngine_eng, hbind, hring, hnew]; rfl
    · rw [onEngine_eng, hbind, hslots, hself]; rfl
    · rw [onEngine_eng, hbind, hframe]
      show ctrVal (countShrunk s.eng c want) _ = _
      have hless : n < want ↔ (combOf s.eng c).freeSlots < want := by omega
      unfold countShrunk
      rw [← hn]
      by_cases hshrunk : n < want
      · rw [if_pos hshrunk, if_pos (hless.1 hshrunk), bumpComb, ctrVal_bump_one, if_pos rfl]; rfl
      · rw [if_neg hshrunk, if_neg (fun h => hshrunk (hless.2 h))]
    · rw [onEngine_eng, hbind, hothers q hq, ringOf, hself, bindSlots, updAt_getElem?_ne _ _ (Ne.symm hq), ringOf]
    · rw [onEngine_eng, hbind, hcombs' d hd, he₁, combOf_onComb_ne _ hd, combOf_countShrunk]
    · rw [onEngine_eng, hbind, hframe, he₁, countShrunk_frame]; rfl

end Sys2Proof.Machine
end

section
/-! Proofs: what a line that memory returns leaves in the engine's memory, and the lists that a response changes. -/

namespace Sys2Proof.Machine

/-! ### Elements of a list of which one is changed or found -/

/-- Where some element satisfies the predicate, one that does is changed. -/
theorem exists_mem_updFirst {α : Type} {p : α → Bool} (f : α → α) {l : List α} {a : α} (ha : a ∈ l) (hp : p a = true) :
    ∃ b ∈ l, p b = true ∧ f b ∈ updFirst p f l := by
  induction l with
  | nil => exact absurd ha List.not_mem_nil
  | cons x l ih =>
    by_cases hx : p x = true
    · exact ⟨x, List.mem_cons_self .., hx, by simp [updFirst, hx]⟩
    · rcases List.mem_cons.1 ha with rfl | ha
      · exact absurd hp hx
      · obtain ⟨b, hb, hpb, hfb⟩ := ih ha
        exact ⟨b, List.mem_cons_of_mem _ hb, hpb, by simp [updFirst, hx, hfb]⟩

/-- An element that does not satisfy the predicate stays. -/
theorem mem_updFirst_of_not {α : Type} {p : α → Bool} (f : α → α) {l : List α} {a : α} (ha : a ∈ l) (hp : p a = false) :
    a ∈ updFirst p f l := by
  induction l with
  | nil => exact absurd ha List.not_mem_nil
  | cons x l ih =>
    by_cases hx : p x = true
    · rcases List.mem_cons.1 ha with rfl | ha
      · exact absurd (hx.symm.trans hp) (by decide)
      · simp [updFirst, hx, ha]
    · rcases List.mem_cons.1 ha with rfl | ha
      · simp [updFirst, hx]
      · simp [updFirst, hx, ih ha]

/-- The one element with a number is the one that is changed. -/
theorem mem_updFirst_of_nodup {α : Type} {key : α → Nat} {p : α → Bool} (f : α → α) {l : List α} {a : α} (hl : (l.map key).Nodup)
    (ha : a ∈ l) (hp : p a = true) (hkey : ∀ b, p b = true → key b = key a) : f a ∈ updFirst p f l := by
  obtain ⟨b, hb, hpb, hfb⟩ := exists_mem_updFirst f ha hp
  rwa [List.inj_on_of_nodup_map hl hb ha (hkey b hpb)] at hfb

theorem indexOf?_none {α : Type} {p : α → Bool} {l : List α} (h : ∀ a ∈ l, p a = false) : indexOf? p l = none := by
  induction l with
  | nil => rfl
  | cons x l ih => simp [indexOf?, h x, ih fun a ha => h a (List.mem_cons_of_mem _ ha)]

theorem exists_indexOf? {α : Type} {p : α → Bool} {l : List α} {a : α} (ha : a ∈ l) (hp : p a = true) :
    ∃ i, indexOf? p l = some i ∧ i < l.length := by
  induction l with
  | nil => exact absurd ha List.not_mem_nil
  | cons x l ih =>
    by_cases hx : p x = true
    · exact ⟨0, by simp [indexOf?, hx], by simp⟩
    · rcases List.mem_cons.1 ha with rfl | ha
      · exact absurd hp hx
      · obtain ⟨i, hi, hlt⟩ := ih ha
        exact ⟨i + 1, by simp [indexOf?, hx, hi], by simpa using hlt⟩

/-! ### Bytes of memory -/

theorem cellsGet_of_notMem {l : List Host.Cell} {x : Nat} (h : ∀ c ∈ l, c.1 ≠ x) : cellsGet l x = memDefault := by
  induction l with
  | nil => rfl
  | cons c l ih =>
    rw [cellsGet, if_neg (h c (List.mem_cons_self ..)), ih fun d hd => h d (List.mem_cons_of_mem _ hd)]

/-- A byte written reads back, and every other byte reads as before. -/
theorem cellsGet_cellsPut {l : List Host.Cell} (hl : l.Pairwise fun a b => a.1 < b.1) (a : Nat) (b : Byte) (x : Nat) :
    cellsGet (cellsPut l a b) x = if x = a then b else cellsGet l x := by
  induction l with
  | nil =>
    by_cases hb : b = memDefault
    · simp [cellsPut, cellsGet, hb]
    · simp [cellsPut, cellsGet, hb, eq_comm]
  | cons c l ih =>
    obtain ⟨k, v⟩ := c
    obtain ⟨hlt, hl⟩ := List.pairwise_cons.1 hl
    have hrest : cellsGet l k = memDefault := cellsGet_of_notMem fun c hc => (hlt c hc).ne'
    rw [cellsPut]
    split
    · next hak =>
      have hnone : cellsGet ((k, v) :: l) a = memDefault := cellsGet_of_notMem fun c hc => by
        rcases List.mem_cons.1 hc with rfl | hc
        · exact hak.ne'
        · exact (hak.trans (hlt c hc)).ne'
      split
      · next hb =>
        split
        · next hx => rw [hx, hnone, hb]
        · rfl
      · simp only [cellsGet, eq_comm]
    · split
      · next hak =>
        subst hak
        split
        · next hb =>
          by_cases hx : x = a
          · rw [hx, hrest, if_pos rfl, hb]
          · rw [if_neg hx, cellsGet, if_neg (Ne.symm hx)]
        · by_cases hx : x = a
          · simp [cellsGet, hx]
          · simp [cellsGet, hx, Ne.symm hx]
      · next hak =>
        rw [cellsGet, cellsGet, ih hl]
        by_cases hx : x = a
        · rw [if_neg (by omega : k ≠ x), if_pos hx, if_pos hx]
        · simp [hx]

/-- Bytes written read back. -/
theorem cellsGet_cellsPutAll {bs : List Byte} {l : List Host.Cell} (hl : cellsWf l = true) (a x : Nat) :
    cellsGet (cellsPutAll l a bs) x = if a ≤ x then (bs[x - a]?).getD (cellsGet l x) else cellsGet l x := by
  induction bs generalizing l a with
  | nil => simp [cellsPutAll]
  | cons b bs ih =>
    rw [cellsPutAll, ih (cellsPut_wf a b hl), cellsGet_cellsPut (cellsWf_iff.1 hl).1]
    rcases Nat.lt_trichotomy x a with hx | rfl | hx
    · rw [if_neg (by omega), if_neg (by omega), if_neg (by omega)]
    · simp
    · have hsucc : x - a = x - (a + 1) + 1 := by omega
      rw [if_pos (show a + 1 ≤ x from hx), if_pos (show a ≤ x from hx.le), if_neg (show x ≠ a from hx.ne'), hsucc,
        List.getElem?_cons_succ]

theorem takeBytes_all {bs : List Byte} {n : Nat} (h : bs.length = n) : takeBytes bs 0 n = bs := by
  simp [takeBytes, ← h]

/-- Memory holds the bytes of a line that it has returned (R416). -/
theorem memGet_absorb_line {m : Mem} (hm : m.wf = true) {l : MemLine} (hlen : l.data.length = 64) (halign : l.addr % 64 = 0)
    (hend : l.addr < 2 ^ 52) {o : Nat} (ho : o < 64) : memGet (absorb m [l]) (l.addr + o) = elemD l.data o 0 := by
  have hbase : 64 * lineOf l.addr = l.addr := by rw [lineOf, Nat.mod_eq_of_lt hend]; omega
  have hcells : (absorb m [l]).cells = cellsPutAll m.cells l.addr l.data := by
    simp only [absorb, List.foldl_cons, List.foldl_nil, memLine, memMark, hbase, takeBytes_all hlen]
    split <;> rfl
  rw [memGet, hcells, cellsGet_cellsPutAll (Mem.wf_iff.1 hm).1, if_pos (by omega), Nat.add_sub_cancel_left, elemD,
    List.getElem?_eq_getElem (by omega)]
  rfl

@[simp] theorem absorb_nil (m : Mem) : absorb m [] = m := rfl

end Sys2Proof.Machine
end

section
/-! Proofs: read responses: a line that lands, one that is asked for again, one that faults (R264, R286, R405, R452). -/

namespace Sys2Proof.Machine

/-! ### The streams of a reference -/

section Streams
variable {e : Engine} {c : CombId}

/-- The contexts of a comb each changed. -/
theorem ctxOf_mapCtxs (g : Ctx → Ctx) (x : Fin 4) :
    ctxOf (onComb e c fun cb => { cb with ctxs := cb.ctxs.map fun o => o.map g }) c x = (ctxOf e c x).map g := by
  rw [ctxOf, ctxOf, combOf_onComb]
  split
  · rw [List.getElem?_map]
    cases (combOf e c).ctxs[x.val]? <;> rfl
  · next hlen =>
    have hc : combOf e c = {} := by_contra fun h => hlen ⟨rfl, lt_of_combOf h⟩
    have hnone : ∀ x : Fin 4, ((({} : Comb).ctxs)[x.val]?).getD none = none := by decide
    rw [hc, hnone]; rfl

/-- A task's context is found again after a change that keeps the tasks. -/
theorem ctxFor_mapCtxs {g : Ctx → Ctx} (hg : ∀ k, (g k).task = k.task) (task : Nat) :
    ctxFor (onComb e c fun cb => { cb with ctxs := cb.ctxs.map fun o => o.map g }) c task =
      (ctxFor e c task).map fun p => (p.1, g p.2) := by
  have hmap : (fun x => ((ctxOf e c x).map g).map fun k => (x, k)) =
      fun x => ((ctxOf e c x).map fun k => (x, k)).map fun p : Fin 4 × Ctx => (p.1, g p.2) := by
    funext x
    cases ctxOf e c x <;> rfl
  simp only [ctxFor, ctxOf_mapCtxs, hmap]
  rw [← List.map_filterMap, List.find?_map]
  exact congrArg (fun p => Option.map _ (List.find? p _)) (funext fun p => by simp [hg])

/-- A reference's stream read after its change. -/
theorem streamIn_onStream {r task role : Nat} {sm : Stream} (h : streamIn e c r task role = some sm) {f : Stream → Stream}
    (hf : ∀ s, (f s).task = s.task ∧ (f s).role = s.role := by intro; exact ⟨rfl, rfl⟩) :
    streamIn (onStream e c r task role f) c r task role = some (f sm) := by
  unfold streamIn onStream at *
  by_cases hw : isWriteRole role = true
  · simp only [hw, if_true] at h ⊢
    obtain ⟨p, hp, hsm⟩ := Option.bind_eq_some_iff.1 h
    have htask : p.2.task = task := by simpa using List.find?_some hp
    have hkeep : ∀ k, (onOuts task role f k).task = k.task := fun k => by unfold onOuts; split <;> rfl
    rw [ctxFor_mapCtxs hkeep, hp]
    simp only [Option.map_some, Option.bind_some, onOuts, htask, if_true]
    rw [updFirst_find? _ _ _ fun s hs => by simpa [(hf s).2] using hs, hsm]; rfl
  · simp only [hw, Bool.false_eq_true, if_false] at h ⊢
    obtain ⟨g, hg, hsm⟩ := Option.bind_eq_some_iff.1 h
    refine (congrArg (fun o => Option.bind o fun g => streamOf g task role) (ringOf_onRing_self e c r _)).trans ?_
    rw [hg]
    simp only [Option.map_some, Option.bind_some, streamOf]
    rw [updFirst_find? _ _ _ fun s hs => by simpa [hf s] using hs, ← streamOf, hsm]; rfl

theorem streamIn_congr {e' : Engine} (h : e'.combs = e.combs) (r task role : Nat) : streamIn e' c r task role = streamIn e c r task role := by
  simp only [streamIn, ctxFor, ctxOf, ringOf, combOf, h]

end Streams

/-! ### Marks, tags and park records -/

theorem errBit_poisonEvent (e : Engine) (i n : Nat) : errBit (poisonEvent e i n) errPoison = true := by
  rw [errBit_congr (poisonEvent_hub e i n), errBit_raiseErr e (b := errPoison) (by decide)]
  simp

theorem landedPoison_of_pos (e : Engine) (c : CombId) {n : Nat} (code : Nat) (h : n ≠ 0) :
    landedPoison e c n code = poisonEvent (bumpComb e c .linesIn n) c.val code := by
  rw [landedPoison, if_neg h]

/-- A channel's free tags are a matter of the port's requests. -/
theorem freeId_congr {e e' : Engine} (hreads : e'.mp.reads = e.mp.reads) (hwrites : e'.mp.writes = e.mp.writes) (ch : ChanId) :
    freeId e' ch = freeId e ch := by
  simp only [freeId, idUsed, hreads, hwrites]

theorem askLine_of_free {e : Engine} {line i : Nat} (h : freeId e (chanOf line) = some i) (dst : ReadFor) (tries : Nat) :
    askLine e dst line tries = { e with mp := { e.mp with reads := e.mp.reads ++
      [{ chan := chanOf line, id := BitVec.ofNat 10 i, addr := 64 * line, dst := dst, tries := tries }] } } := by
  unfold askLine
  dsimp only
  rw [h]

theorem takePark_none {ps : List Park} (h : ∀ p ∈ ps, p.state ≠ .free) (p : Park) : takePark ps p = none := by
  rw [takePark, indexOf?_none fun q hq => by simpa using h q hq]; rfl

/-- A free record is taken by the park. -/
theorem exists_takePark {ps : List Park} (h : ∃ q ∈ ps, q.state = .free) (p : Park) : ∃ qs, takePark ps p = some qs ∧ p ∈ qs := by
  obtain ⟨q, hq, hfree⟩ := h
  obtain ⟨i, hi, hlt⟩ := exists_indexOf? (p := fun x : Park => x.state == .free) hq (by simpa using hfree)
  refine ⟨_, by rw [takePark, hi]; rfl, List.mem_of_getElem? (i := i) ?_⟩
  rw [updAt_getElem?_self, List.getElem?_eq_getElem hlt]; rfl

theorem parkRecord_spec (m : Mem) (e : Engine) (c : CombId) (r : Fin 12) (l : SlotLine) (s : Stream) (index : Bool) :
    (parkRecord m e c r l s index).state = .parked ∧ (parkRecord m e c r l s index).ring = r.val ∧
      (parkRecord m e c r l s index).write = false := by
  cases index
  · exact ⟨rfl, rfl, rfl⟩
  · exact ⟨rfl, rfl, rfl⟩

/-- Park records taken leave the rings. -/
theorem ringOf_parks (e : Engine) (c : CombId) (f : List Park → List Park) (d : CombId) (q : Nat) :
    ringOf (onComb e c fun cb => { cb with parks := f cb.parks }) d q = ringOf e d q := ringOf_onComb (r := q)

/-- A ring's park leaves the rings and the memory port. -/
theorem parkRing_keeps (m : Mem) (e : Engine) (c : CombId) (r : Fin 12) :
    (∀ d q, ringOf (parkRing m e c r) d q = ringOf e d q) ∧ (parkRing m e c r).mp = e.mp := by
  have hbump : ∀ (f : List Park → List Park) d q, ringOf (bump (onComb e c fun cb => { cb with parks := f cb.parks }) .parked 1) d q = ringOf e d q :=
    fun f d q => (ringOf_congr (combOf_bump ..) q).trans (ringOf_parks e c f d q)
  unfold parkRing
  split
  · exact ⟨fun _ _ => rfl, rfl⟩
  · cases ringPark e c r.val with
    | some p =>
      simp only [Option.isSome_some, if_true]
      split
      · exact ⟨hbump _, bump_mp ..⟩
      · exact ⟨ringOf_parks e c _, rfl⟩
    | none =>
      simp only [Option.isSome_none, Bool.false_eq_true, if_false]
      split
      · exact ⟨hbump fun _ => _, bump_mp ..⟩
      · exact ⟨fun _ _ => rfl, rfl⟩

section ParkRing
variable (m : Mem) {e : Engine} {c : CombId} {r : Fin 12}
variable {y : SlotLine × Stream × Bool} (hfault : (ringOf e c r.val).bind faultLine = some y) (hnone : ringPark e c r.val = none)
include hfault hnone

theorem parkRing_takes {ps : List Park} (htake : takePark (combOf e c).parks (parkRecord m e c r y.1 y.2.1 y.2.2) = some ps) :
    parkRing m e c r = bump (onComb e c fun cb => { cb with parks := ps }) .parked 1 := by
  obtain ⟨l, s, index⟩ := y
  simp only [parkRing, hfault, hnone, htake, Option.isSome_none, Bool.false_eq_true, if_false]

theorem parkRing_waits (htake : takePark (combOf e c).parks (parkRecord m e c r y.1 y.2.1 y.2.2) = none) : parkRing m e c r = e := by
  obtain ⟨l, s, index⟩ := y
  simp only [parkRing, hfault, hnone, htake, Option.isSome_none, Bool.false_eq_true, if_false]

end ParkRing

/-! ### A response by its status -/

/-- The engine without a read that is responseOf. -/
def dropRead (e : Engine) (ch : ChanId) (id : BitVec 10) : Engine :=
  { e with mp := { e.mp with reads := dropFirst (fun x => x.chan == ch && x.id == id) e.mp.reads } }

section Response
variable {s : State} {ch : ChanId} {id : BitVec 10} {q : ReadReq} {l : RespLine}

/-- While a dip has stopped its island's clock an entry waits in its crossing (R17). -/
theorem crossing_stopped {i : Nat} {c : Instr} {f : State → State} (hstop : (islandOf s.eng i).stopped = true) (hawake : awake s.eng = true)
    (hpad : s.eng.pwr.padHold = false) : crossing s i c f = { s with held := s.held ++ [c] } := by
  simp [crossing, hstop, hawake, hpad]

theorem crossing_runs {i : Nat} {c : Instr} {f : State → State} (hrun : (islandOf s.eng i).stopped = false) : crossing s i c f = f s := by
  simp [crossing, hrun]

/-- What the engine becomes with a response, and the line that memory is known to hold. -/
def responseOf (s : State) (ch : ChanId) (id : BitVec 10) (st : RespStatus) (l : RespLine) : Engine × Option MemLine :=
  readResponse s.mem s.eng ch id st l

theorem exec_memoryReadResponse (hrun : (islandOf s.eng (readIsland s.eng ch id)).stopped = false) (st : RespStatus) (l : RespLine) :
    exec (.memoryReadResponse ch id st l) s = .next { s with
      eng := (responseOf s ch id st l).1, mem := absorb s.mem (responseOf s ch id st l).2.toList } := by
  refine congrArg Host.Outcome.next ((crossing_runs hrun).trans ?_)
  dsimp only [responseOf]
  cases (readResponse s.mem s.eng ch id st l).2 <;> rfl

variable (hq : readFor s.eng ch id = some q)
include hq

theorem responseOf_ok (hlen : l.data.length = 64) (hcheck : fabricCheck l.data q.addr = l.check) :
    responseOf s ch id .ok l =
      (deliver (dropRead s.eng ch id) q l.data l.poison, some { addr := q.addr, data := l.data, poison := l.poison }) := by
  simp only [responseOf, readResponse, hq, takeBytes_all hlen, hcheck, bne_self_eq_false, Bool.false_eq_true, if_false, dropRead]

theorem responseOf_bad {st : RespStatus} (hlen : l.data.length = 64) (hbad : st = .check ∨ (st = .ok ∧ fabricCheck l.data q.addr ≠ l.check)) :
    responseOf s ch id st l = (checkFailed (dropRead s.eng ch id) q l, none) := by
  rcases hbad with rfl | ⟨rfl, hcheck⟩
  · simp only [responseOf, readResponse, hq, dropRead]
  · simp only [responseOf, readResponse, hq, takeBytes_all hlen, bne_iff_ne.2 hcheck, if_true, dropRead]

theorem responseOf_fault : responseOf s ch id .fault l = (faultAt s.mem (dropRead s.eng ch id) q, none) := by
  simp only [responseOf, readResponse, hq, dropRead]

end Response

/-! ### A line of a ring -/

/-- A slot's line with what memory has returned for it. -/
def landedSlot (data : List Byte) (poison : Bool) (x : SlotLine) : SlotLine :=
  { x with landed := true, data := data, check := crc32c data, poison := poison }

section RingLine
variable {e : Engine} {c : CombId} {r : Fin 12} {ser : Nat} {g : Ring} {x : SlotLine} {q : ReadReq} (hdst : q.dst = .ring c r ser)
  (hring : ringOf e c r.val = some g) (hnodup : (g.lines.map SlotLine.ser).Nodup) (hx : x ∈ g.lines) (hser : x.ser = ser)
  (hopen : x.landed = false)
include hdst hring hx hser hopen

theorem stillOpen_ring : stillOpen e q = true := by
  simp only [stillOpen, hdst, hring, Option.any_some, List.any_eq_true]
  exact ⟨x, hx, by simp [hser, hopen]⟩

include hnodup in
/-- A line delivered lands in its slot, and counts where it is poisoned (R264, R420). -/
theorem deliver_ring (data : List Byte) (poison : Bool) : ∃ g', ringOf (deliver e q data poison) c r.val = some g' ∧
    landedSlot data poison x ∈ g'.lines ∧ (∀ y ∈ g.lines, y.ser ≠ ser → y ∈ g'.lines) ∧ (deliver e q data poison).mp = e.mp ∧
    ctrVal (deliver e q data poison) (.comb c .linesIn) =
      (if poison then min 65535 (ctrVal e (.comb c .linesIn) + 1) else ctrVal e (.comb c .linesIn)) ∧
    (poison = true → errBit (deliver e q data poison) errPoison = true) := by
  have hdeliver : deliver e q data poison = if poison then landedPoison (landLine e c r.val ser data poison) c 1 codeHalted
      else landLine e c r.val ser data poison := by
    simp only [deliver, stillOpen_ring hdst hring hx hser hopen, Bool.not_true, Bool.false_eq_true, if_false, hdst]
  obtain ⟨g', hg', hlines⟩ : ∃ g', ringOf (landLine e c r.val ser data poison) c r.val = some g' ∧
      g'.lines = updFirst (fun l => l.ser == ser) (landedSlot data poison) g.lines :=
    ⟨_, (ringOf_onRing_self ..).trans (congrArg _ hring), rfl⟩
  have hmine : landedSlot data poison x ∈ g'.lines :=
    hlines ▸ mem_updFirst_of_nodup _ hnodup hx (by simp [hser]) fun b hb => by rw [hser]; simpa using hb
  have hothers : ∀ y ∈ g.lines, y.ser ≠ ser → y ∈ g'.lines := fun y hy hne =>
    hlines ▸ mem_updFirst_of_not _ hy (by simpa using hne)
  rw [hdeliver]
  cases poison
  · exact ⟨g', hg', hmine, hothers, rfl, rfl, fun h => absurd h (by decide)⟩
  · rw [if_pos rfl, landedPoison_of_pos _ _ _ Nat.one_ne_zero]
    refine ⟨g', ?_, hmine, hothers, ?_, ?_, fun _ => errBit_poisonEvent ..⟩
    · exact (ringOf_congr (by simp [combOf, bumpComb]) _).trans hg'
    · rw [poisonEvent_mp, bumpComb, bump_mp]; rfl
    · rw [ctrVal_poisonEvent, bumpComb, ctrVal_bump_one, if_pos rfl]; rfl

/-- A line that fails its fabric check for the first time is asked for again, and counts (R405). -/
theorem checkFailed_asks (l : RespLine) (htries : q.tries = 0) {i : Nat} (hfree : freeId e (chanOf (lineOf q.addr)) = some i) :
    checkFailed e q l = { bumpComb e c .fabricRetry 1 with mp := { e.mp with reads := e.mp.reads ++
      [{ chan := chanOf (lineOf q.addr), id := BitVec.ofNat 10 i, addr := 64 * lineOf q.addr, dst := q.dst, tries := 1 }] } } := by
  have hcomb : reqComb q = some c := by simp only [reqComb, hdst]
  have hmp : (bumpComb e c .fabricRetry 1).mp = e.mp := bump_mp ..
  simp only [checkFailed, stillOpen_ring hdst hring hx hser hopen, Bool.not_true, Bool.false_eq_true, if_false, htries, if_true, hcomb]
  rw [askLine_of_free ((freeId_congr (by rw [hmp]) (by rw [hmp]) _).trans hfree), hmp]

/-- A second failure lands it poisoned. -/
theorem checkFailed_lands {l : RespLine} (hlen : l.data.length = 64) (htries : q.tries ≠ 0) :
    checkFailed e q l = deliver e q l.data true := by
  simp only [checkFailed, stillOpen_ring hdst hring hx hser hopen, Bool.not_true, Bool.false_eq_true, if_false, htries, takeBytes_all hlen]

/-- The ring with the line of a request asked for no more. -/
def unaskedRing (ser : Nat) (g : Ring) : Ring :=
  { g with lines := updFirst (fun l => l.ser == ser && !l.landed) (fun l => { l with asked := false }) g.lines, parked := true }

/-- The engine in which the ring of a faulting line is parked and has no record yet. -/
def ringFaulted (e : Engine) (c : CombId) (r ser : Nat) : Engine := onRing (onRing e c r fun g =>
  { g with lines := updFirst (fun l => l.ser == ser && !l.landed) (fun l => { l with asked := false }) g.lines }) c r fun g =>
    { g with parked := true }

omit hx hser hopen hdst in
theorem ringOf_ringFaulted : ringOf (ringFaulted e c r.val ser) c r.val = some (unaskedRing ser g) := by
  rw [ringFaulted, ringOf_onRing_self, ringOf_onRing_self, hring]; rfl

/-- A fault parks the ring (R286). -/
theorem faultAt_ring (m : Mem) : faultAt m e q = parkRing m (ringFaulted e c r.val ser) c r := by
  simp only [faultAt, stillOpen_ring hdst hring hx hser hopen, Bool.not_true, Bool.false_eq_true, if_false, unask, hdst, readFault]
  rfl

include hnodup in
omit hring hdst in
theorem mem_unaskedRing : { x with asked := false } ∈ (unaskedRing ser g).lines ∧
    ∀ y ∈ g.lines, y.ser ≠ ser → y ∈ (unaskedRing ser g).lines :=
  ⟨mem_updFirst_of_nodup (fun l : SlotLine => { l with asked := false }) hnodup hx (by simp [hser, hopen])
      fun b hb => by rw [hser]; exact (by simpa using hb : b.ser = ser ∧ b.landed = false).1,
    fun y hy hne => mem_updFirst_of_not _ hy (by simp [hne])⟩

include hnodup in
omit hdst in
/-- The line that faulted has not landed, so that the ring has one to park at. -/
theorem exists_faultLine : ∃ y, (ringOf (ringFaulted e c r.val ser) c r.val).bind faultLine = some y := by
  rw [ringOf_ringFaulted hring, Option.bind_some, faultLine]
  cases hfind : (unaskedRing ser g).lines.find? fun l => !l.asked && !l.landed with
  | some l => exact ⟨_, rfl⟩
  | none => exact absurd (List.find?_eq_none.1 hfind _ (mem_unaskedRing hnodup hx hser hopen).1) (by simp [hopen])

include hnodup in
/-- The ring's park by its record: one that it takes counts; without a free one it waits (R286, R290). -/
theorem faultAt_ring_spec (m : Mem) (hc : c.val < e.combs.length) :
    ringOf (faultAt m e q) c r.val = some (unaskedRing ser g) ∧ (faultAt m e q).mp = e.mp ∧
    (ringPark e c r.val = none → (∃ p ∈ (combOf e c).parks, p.state = .free) →
      ctrVal (faultAt m e q) .parked = min 65535 (ctrVal e .parked + 1) ∧
      ∃ p ∈ (combOf (faultAt m e q) c).parks, p.state = .parked ∧ p.ring = r.val ∧ p.write = false) ∧
    (ringPark e c r.val = none → (∀ p ∈ (combOf e c).parks, p.state ≠ .free) →
      ctrVal (faultAt m e q) .parked = ctrVal e .parked ∧ (combOf (faultAt m e q) c).parks = (combOf e c).parks) := by
  obtain ⟨y, hfault⟩ := exists_faultLine hring hnodup hx hser hopen
  have hparks : (combOf (ringFaulted e c r.val ser) c).parks = (combOf e c).parks := by
    rw [ringFaulted, parks_onRing, parks_onRing]
  have hnone : ringPark e c r.val = none → ringPark (ringFaulted e c r.val ser) c r.val = none := fun h => by rwa [ringPark, hparks]
  obtain ⟨hrings, hmp⟩ := parkRing_keeps m (ringFaulted e c r.val ser) c r
  rw [faultAt_ring hdst hring hx hser hopen m]
  refine ⟨(hrings c r.val).trans (ringOf_ringFaulted hring), hmp, fun hpark hfree => ?_, fun hpark hfull => ?_⟩
  · rw [← hparks] at hfree
    obtain ⟨ps, htake, hp⟩ := exists_takePark hfree (parkRecord m (ringFaulted e c r.val ser) c r y.1 y.2.1 y.2.2)
    rw [parkRing_takes m hfault (hnone hpark) htake]
    refine ⟨?_, parkRecord m (ringFaulted e c r.val ser) c r y.1 y.2.1 y.2.2, ?_, parkRecord_spec ..⟩
    · rw [ctrVal_bump_one, if_pos rfl]; rfl
    · rw [combOf_bump, combOf_onComb_self _ (by simpa [ringFaulted, onRing] using hc)]; exact hp
  · rw [← hparks] at hfull ⊢
    rw [parkRing_waits m hfault (hnone hpark) (takePark_none hfull _)]
    exact ⟨rfl, rfl⟩

end RingLine

end Sys2Proof.Machine
end

section
/-! Proofs: read responses to index streams and to the light path, and what O34 states of all three. -/

namespace Sys2Proof.Machine

/-! ### Index lines and source lines -/

/-- The lines of a buffer once memory has returned one of them. -/
def landsAt (line : Nat) (data : List Byte) (poison : Bool) (ls : List SlotLine) : List SlotLine :=
  updFirst (fun l => l.line == line && !l.landed) (landedSlot data poison) ls

/-- The line that lands is one of the buffer's. -/
theorem exists_mem_landsAt {ls : List SlotLine} {x : SlotLine} {line : Nat} (hx : x ∈ ls) (hline : x.line = line) (hopen : x.landed = false)
    (data : List Byte) (poison : Bool) : ∃ y ∈ landsAt line data poison ls,
      y.line = line ∧ y.landed = true ∧ y.data = data ∧ y.check = crc32c data ∧ y.poison = poison := by
  obtain ⟨b, -, hb, hmem⟩ := exists_mem_updFirst (p := fun l : SlotLine => l.line == line && !l.landed) (landedSlot data poison) hx
    (by simp [hline, hopen])
  exact ⟨_, hmem, (by simpa using hb : b.line = line ∧ b.landed = false).1, rfl, rfl, rfl, rfl⟩

section Index
variable {e : Engine} {c : CombId} {r : Fin 12} {task role : Nat} {sm : Stream} {x : SlotLine} {q : ReadReq}
  (hdst : q.dst = .index c r task role) (hsm : streamIn e c r.val task role = some sm) (hx : x ∈ sm.index)
  (hline : x.line = lineOf q.addr) (hopen : x.landed = false)
include hdst hsm hx hline hopen

/-- An index line delivered lands in its stream's buffer (R254). -/
theorem deliver_index (data : List Byte) (poison : Bool) :
    streamIn (deliver e q data poison) c r.val task role = some { sm with index := landsAt (lineOf q.addr) data poison sm.index } ∧
    (deliver e q data poison).mp = e.mp := by
  have hstill : stillOpen e q = true := by
    simp only [stillOpen, hdst, hsm, Option.any_some, List.any_eq_true]
    exact ⟨x, hx, by simp [hline, hopen]⟩
  have hdeliver : deliver e q data poison =
      let t := onStream e c r.val task role fun s => { s with index := landsAt (lineOf q.addr) data poison s.index }
      if poison then poisonEvent t c.val codeHalted else t := by
    simp only [deliver, hstill, Bool.not_true, Bool.false_eq_true, if_false, hdst]
    rfl
  rw [hdeliver]
  cases poison
  · exact ⟨streamIn_onStream hsm, rfl⟩
  · exact ⟨(streamIn_congr (poisonEvent_combs ..) ..).trans (streamIn_onStream hsm), poisonEvent_mp ..⟩

end Index

/-- The light path waits while a source line has not landed (R256). -/
theorem lightStep_waits {e : Engine} {o : LightMove} {z : SlotLine} (ho : e.hf.opened = some o) (hwritten : o.written = false)
    (hz : z ∈ o.lines) (hopen : z.landed = false) : lightStep e = e := by
  have hall : o.lines.all SlotLine.landed = false := List.all_eq_false.2 ⟨z, hz, by simp [hopen]⟩
  unfold lightStep
  split
  · next task i o' _ ho' =>
    obtain rfl := Option.some.inj (ho.symm.trans ho')
    simp [hall, ho, hwritten]
  · rfl

section Light
variable {e : Engine} {o : LightMove} {x : SlotLine} {q : ReadReq} (hdst : q.dst = .light) (ho : e.hf.opened = some o)
  (hx : x ∈ o.lines) (hline : x.line = lineOf q.addr) (hopen : x.landed = false)
include hdst ho hx hline hopen

/-- A source line delivered lands at the light path, which goes on. -/
theorem deliver_light (data : List Byte) (poison : Bool) : deliver e q data poison =
    lightStep (onLight e fun o => { o with lines := landsAt (lineOf q.addr) data poison o.lines }) := by
  have hstill : stillOpen e q = true := by
    simp only [stillOpen, hdst, ho, Option.any_some, List.any_eq_true]
    exact ⟨x, hx, by simp [hline, hopen]⟩
  simp only [deliver, hstill, Bool.not_true, Bool.false_eq_true, if_false, hdst]
  rfl

/-- With another line still to come, nothing else happens. -/
theorem deliver_light_waits {z : SlotLine} (hwritten : o.written = false) (hz : z ∈ o.lines) (hne : z.line ≠ x.line)
    (hzopen : z.landed = false) (data : List Byte) (poison : Bool) : deliver e q data poison =
      onLight e (fun o => { o with lines := landsAt (lineOf q.addr) data poison o.lines }) ∧
      z ∈ landsAt (lineOf q.addr) data poison o.lines := by
  have hkeeps : z ∈ landsAt (lineOf q.addr) data poison o.lines := mem_updFirst_of_not _ hz (by simp [← hline, hne])
  refine ⟨(deliver_light hdst ho hx hline hopen data poison).trans ?_, hkeeps⟩
  exact lightStep_waits (congrArg (Option.map _) ho) hwritten hkeeps hzopen

end Light

/-! ### The statement -/

theorem readIsland_of_comb {e : Engine} {ch : ChanId} {id : BitVec 10} {q : ReadReq} {c : CombId} (hq : readFor e ch id = some q)
    (hcomb : reqComb q = some c) : readIsland e ch id = c.val := by
  simp only [readIsland, hq, Option.bind_some, hcomb]

theorem readIsland_of_hub {e : Engine} {ch : ChanId} {id : BitVec 10} {q : ReadReq} (hq : readFor e ch id = some q)
    (hcomb : reqComb q = none) : readIsland e ch id = 50 := by
  simp only [readIsland, hq, Option.bind_some, hcomb]

theorem mul_lineOf {a : Nat} (halign : a % 64 = 0) (hend : a < 2 ^ 52) : 64 * lineOf a = a := by
  rw [lineOf, Nat.mod_eq_of_lt hend]; omega

/-- Settles O34: what a response is by its status and its check (`responseOf_ok`, `responseOf_bad`, `responseOf_fault`), and what each comes
to for a ring (`deliver_ring`, `checkFailed_asks`, `faultAt_ring`), an index stream and the light path. -/
theorem readResponseLandsLine : Obligations.ReadResponseLandsLine := by
  unfold Obligations.ReadResponseLandsLine
  rintro s ch id l q rest hq rfl halign hend hlen
  refine ⟨fun hstop hawake hpad st => congrArg Host.Outcome.next (crossing_stopped hstop hawake hpad), ?_, ?_⟩
  · intro c r ser g x hdst hrun hcombs hring hnodup hx hser hopen
    have hisland : (islandOf s.eng (readIsland s.eng ch id)).stopped = false := by
      rw [readIsland_of_comb (c := c) hq (by simp only [reqComb, hdst])]; exact hrun
    have hring' : ringOf (dropRead s.eng ch id) c r.val = some g := hring
    refine ⟨fun hcheck => ?_, fun st hbad => ⟨fun htries i hfree => ?_, fun htries => ?_⟩, ?_⟩
    · obtain ⟨g', hg', hmine, hothers, hmp, hctr, hbit⟩ :=
        deliver_ring hdst hring' hnodup hx hser hopen l.data l.poison
      refine ⟨_, g', exec_memoryReadResponse hisland .ok l, ?_⟩
      rw [responseOf_ok hq hlen hcheck]
      exact ⟨hg', hmine, hothers, congrArg MemPort.reads hmp, rfl,
        fun o ho hm => memGet_absorb_line hm hlen halign hend ho, hctr, hbit, rfl⟩
    · refine ⟨_, exec_memoryReadResponse hisland st l, ?_⟩
      rw [responseOf_bad hq hlen hbad, checkFailed_asks hdst hring' hx hser hopen l htries hfree, mul_lineOf halign hend]
      refine ⟨bump_combs .., rfl, rfl, ?_⟩
      show ctrVal (bump _ _ 1) _ = _
      rw [ctrVal_bump_one, if_pos rfl]; rfl
    · obtain ⟨g', hg', hmine, -, hmp, hctr, hbit⟩ := deliver_ring hdst hring' hnodup hx hser hopen l.data true
      refine ⟨_, g', exec_memoryReadResponse hisland st l, ?_⟩
      rw [responseOf_bad hq hlen hbad, checkFailed_lands hdst hring' hx hser hopen hlen htries]
      exact ⟨hg', hmine, congrArg MemPort.reads hmp, hctr, hbit rfl, rfl⟩
    · obtain ⟨hmine, hothers⟩ := mem_unaskedRing hnodup hx hser hopen
      obtain ⟨hparked, hmp, htakes, hwaits⟩ :=
        faultAt_ring_spec hdst hring' hnodup hx hser hopen s.mem (hcombs.symm ▸ c.isLt : c.val < s.eng.combs.length)
      refine ⟨_, unaskedRing ser g, exec_memoryReadResponse hisland .fault l, ?_⟩
      rw [responseOf_fault hq]
      exact ⟨hparked, rfl, hmine, hothers, congrArg MemPort.reads hmp, htakes, hwaits, rfl, rfl⟩
  · refine fun hcheck => ⟨fun c r task role sm x hdst hrun hsm hx hline hopen => ?_,
      fun o x z hdst hrun ho hwritten hx hline hopen hz hne hzopen => ?_⟩
    · have hisland : (islandOf s.eng (readIsland s.eng ch id)).stopped = false := by
        rw [readIsland_of_comb (c := c) hq (by simp only [reqComb, hdst])]; exact hrun
      obtain ⟨hstream, hmp⟩ := deliver_index (e := dropRead s.eng ch id) hdst hsm hx hline hopen l.data l.poison
      obtain ⟨y, hy, hyline, hyland, hydata, hycheck, hypoison⟩ := exists_mem_landsAt hx hline hopen l.data l.poison
      refine ⟨_, { sm with index := landsAt (lineOf q.addr) l.data l.poison sm.index }, y, exec_memoryReadResponse hisland .ok l, ?_⟩
      rw [responseOf_ok hq hlen hcheck]
      exact ⟨hstream, hy, hyline, hyland, hydata, hycheck, hypoison, rfl, congrArg MemPort.reads hmp, rfl⟩
    · have hisland : (islandOf s.eng (readIsland s.eng ch id)).stopped = false := by
        rw [readIsland_of_hub hq (by simp only [reqComb, hdst])]; exact hrun
      obtain ⟨hdeliver, hkept⟩ := deliver_light_waits (e := dropRead s.eng ch id) hdst ho hx hline hopen hwritten hz hne hzopen l.data l.poison
      obtain ⟨y, hy, hyline, hyland, hydata, -, hypoison⟩ := exists_mem_landsAt hx hline hopen l.data l.poison
      refine ⟨_, { o with lines := landsAt (lineOf q.addr) l.data l.poison o.lines }, y, exec_memoryReadResponse hisland .ok l, ?_⟩
      rw [responseOf_ok hq hlen hcheck, hdeliver]
      exact ⟨congrArg (Option.map _) ho, hy, hyline.trans hline.symm, hyland, hydata, hypoison, hkept, hwritten, rfl, rfl, rfl⟩

end Sys2Proof.Machine
end

section
/-! Proofs: what the streams of a comb leave as it was when they move on: the memory port and the hub forager. -/

namespace Sys2Proof.Machine

/-- The memory port and the hub forager. -/
def hubPart (e : Engine) : MemPort × HubForager := (e.mp, e.hf)

theorem mp_of_hubPart {e e' : Engine} (h : hubPart e' = hubPart e) : e'.mp = e.mp := congrArg Prod.fst h
theorem hf_of_hubPart {e e' : Engine} (h : hubPart e' = hubPart e) : e'.hf = e.hf := congrArg Prod.snd h

@[simp] theorem hubPart_onComb (e : Engine) (c : CombId) (f : Comb → Comb) : hubPart (onComb e c f) = hubPart e := rfl
@[simp] theorem hubPart_onRing (e : Engine) (c : CombId) (r : Nat) (f : Ring → Ring) : hubPart (onRing e c r f) = hubPart e := rfl
@[simp] theorem hubPart_onStream (e : Engine) (c : CombId) (r i role : Nat) (f : Stream → Stream) :
    hubPart (onStream e c r i role f) = hubPart e := rfl
@[simp] theorem hubPart_onTask (e : Engine) (i : Nat) (f : Task → Task) : hubPart (onTask e i f) = hubPart e := rfl
@[simp] theorem hubPart_bump (e : Engine) (k : Ctr) (n : Nat) : hubPart (bump e k n) = hubPart e :=
  Prod.ext (bump_mp e k n) (bump_hf e k n)
@[simp] theorem hubPart_bumpComb (e : Engine) (c : CombId) (k : CombCtr) (n : Nat) : hubPart (bumpComb e c k n) = hubPart e :=
  hubPart_bump ..
@[simp] theorem hubPart_poisonEvent (e : Engine) (i n : Nat) : hubPart (poisonEvent e i n) = hubPart e :=
  Prod.ext (poisonEvent_mp e i n) (poisonEvent_hf e i n)

@[simp] theorem hubPart_landLine (e : Engine) (c : CombId) (r ser : Nat) (data : List Byte) (poison : Bool) :
    hubPart (landLine e c r ser data poison) = hubPart e := rfl
@[simp] theorem hubPart_freePark (e : Engine) (c : CombId) (r : Nat) (st : ParkState) : hubPart (freePark e c r st) = hubPart e := rfl
@[simp] theorem hubPart_landedPoison (e : Engine) (c : CombId) (n code : Nat) : hubPart (landedPoison e c n code) = hubPart e := by
  unfold landedPoison
  split <;> simp
@[simp] theorem hubPart_storeMarked (e : Engine) (c : CombId) (a : ActLine) : hubPart (storeMarked e c a) = hubPart e := by
  unfold storeMarked
  split <;> simp
@[simp] theorem hubPart_endStream (e : Engine) (c : CombId) (r : Fin 12) (s : Stream) : hubPart (endStream e c r s) = hubPart e := by
  simp only [endStream, hubPart_onRing, hubPart_onStream]
  split <;> rfl
@[simp] theorem hubPart_takeIndex (m : Mem) (e : Engine) (c : CombId) (r : Fin 12) (s : Stream) (ix : Desc) (ps : List Nat) :
    hubPart (takeIndex m e c r s ix ps) = hubPart e := by
  simp only [takeIndex, hubPart_bumpComb, hubPart_onStream]
@[simp] theorem hubPart_keepCut (m : Mem) (e : Engine) (c : CombId) (x : Fin 4) (k : Ctx) (t : TaskRec) (map : List Byte) (tile : Nat) :
    hubPart (keepCut m e c x k t map tile) = hubPart e := by
  rcases keepCut_cases m e c x k t map tile with h | ⟨_, h, -⟩
  · rw [h]
  · rw [h]; rfl

/-- A move that leaves them. -/
def Fill.Keeps (e : Engine) : Fill → Prop
  | .moved e' => hubPart e' = hubPart e
  | .want _ => True
  | .blocked => True

theorem fetchLine_keeps (e : Engine) (c : CombId) (r : Fin 12) (g : Ring) (s : Stream) (d : Desc) (key : Reader) (line : Nat) :
    (fetchLine e c r g s d key line).Keeps e := by
  unfold fetchLine
  split
  · exact hubPart_onRing ..
  · split
    · trivial
    · dsimp only
      split
      · exact hubPart_landedPoison ..
      · split
        · refine (hubPart_storeMarked ..).trans ?_
          split <;> simp
        · trivial

theorem indexStep_keeps (m : Mem) (e : Engine) (c : CombId) (r : Fin 12) (s : Stream) (ix : Desc) (ps : List Nat) (x : Fill)
    (h : indexStep m e c r s ix ps = some x) : x.Keeps e := by
  unfold indexStep at h
  dsimp only at h
  split at h
  · exact absurd h (by simp)
  · split at h
    · obtain rfl := Option.some.inj h; exact hubPart_takeIndex ..
    · split at h
      · obtain rfl := Option.some.inj h
        split
        · exact hubPart_takeIndex ..
        · trivial
      · split at h
        · obtain rfl := Option.some.inj h
          split
          · exact hubPart_onStream ..
          · trivial
        · split at h
          · obtain rfl := Option.some.inj h; exact hubPart_poisonEvent ..
          · split at h
            · obtain rfl := Option.some.inj h
              exact (hubPart_storeMarked ..).trans (hubPart_bumpComb ..)
            · obtain rfl := Option.some.inj h; trivial

theorem dataStep_keeps (e : Engine) (c : CombId) (r : Fin 12) (g : Ring) (s : Stream) (tk : Task) (d : Desc) (key : Reader) (n : Need)
    (have_ : Nat → Bool) (len : Nat) : (dataStep e c r g s tk d key n have_ len).Keeps e := by
  unfold dataStep
  split
  · have hdue : ∀ (due : Bool) l, (if due then Fill.blocked else fetchLine e c r g s d key l).Keeps e := fun due l => by
      cases due
      · exact fetchLine_keeps ..
      · trivial
    exact hdue _ _
  · split
    · trivial
    · exact (hubPart_onStream ..).trans (by simp)

theorem streamStep_keeps (m : Mem) (e : Engine) (c : CombId) (r : Fin 12) (g : Ring) (s : Stream) (k : Ctx) (tk : Task) (map : List Byte)
    (len : Nat) : (streamStep m e c r g s k tk map len).Keeps e := by
  unfold streamStep
  dsimp only
  split
  · next h =>
    obtain ⟨ix, -, h⟩ := Option.bind_eq_some_iff.1 h
    exact indexStep_keeps m e c r s ix _ _ h
  · exact dataStep_keeps ..

theorem fillStep_keeps (m : Mem) (e : Engine) (c : CombId) (r : Fin 12) : (fillStep m e c r).Keeps e := by
  unfold fillStep
  split
  · trivial
  · split
    · dsimp only
      split
      · exact hubPart_endStream ..
      · split
        · exact streamStep_keeps ..
        · split
          · exact hubPart_onStream ..
          · split
            · exact hubPart_onStream ..
            · split
              · trivial
              · split
                · exact hubPart_keepCut ..
                · exact streamStep_keeps ..
    · trivial

theorem hubPart_fillRing (m : Mem) (c : CombId) (r : Fin 12) (n : Nat) (e : Engine) : hubPart (fillRing m c r n e).1 = hubPart e := by
  induction n generalizing e with
  | zero => rfl
  | succ n ih =>
    unfold fillRing
    split
    · rfl
    · split
      · rfl
      · split
        · rfl
        · have hstep := fillStep_keeps m e c r
          split
          · next h => rw [h] at hstep; exact (ih _).trans hstep
          · rfl
          · rfl

theorem hubPart_fillOut (m : Mem) (c : CombId) (task role n : Nat) (e : Engine) : hubPart (fillOut m c task role n e).1 = hubPart e := by
  induction n generalizing e with
  | zero => rfl
  | succ n ih =>
    unfold fillOut
    split
    · dsimp only
      split
      · rfl
      · split
        · rfl
        · split
          · next h => exact (ih _).trans (indexStep_keeps _ _ _ _ _ _ _ _ h)
          · rfl
          · rfl
    · rfl

theorem hubPart_fillComb (m : Mem) (acc : Engine × List Bid) (c : CombId) : hubPart (fillComb m acc c).1 = hubPart acc.1 := by
  unfold fillComb
  dsimp only
  refine (foldl_keeps (fun acc : Engine × List Bid => hubPart acc.1) (fun acc x => hubPart_fillOut ..) _ _).trans ?_
  refine foldl_keeps (fun acc : Engine × List Bid => hubPart acc.1) (fun acc r => ?_) _ _
  split
  · rfl
  · exact hubPart_fillRing ..

end Sys2Proof.Machine
end

section
/-! Proofs: the requests that are out, and what parks, translation events and the light path leave of them (R287 to R290, R454). -/

namespace Sys2Proof.Machine

/-! ### Requests that are out -/

/-- The reads and the round robin as they were, and no write out under a tag that was not out before. -/
structure SentKept (p p' : MemPort) : Prop where
  reads : p'.reads = p.reads
  rr : p'.rr = p.rr
  sent : ∀ w ∈ p'.writes, w.sent = true → ∃ x ∈ p.writes, x.sent = true ∧ x.chan = w.chan ∧ x.id = w.id

theorem SentKept.refl (p : MemPort) : SentKept p p := ⟨rfl, rfl, fun w hw hs => ⟨w, hw, hs, rfl, rfl⟩⟩

theorem SentKept.trans {p q r : MemPort} (h₁ : SentKept p q) (h₂ : SentKept q r) : SentKept p r :=
  ⟨h₂.reads.trans h₁.reads, h₂.rr.trans h₁.rr, fun w hw hs => by
    obtain ⟨x, hx, hxs, hxc, hxi⟩ := h₂.sent w hw hs
    obtain ⟨y, hy, hys, hyc, hyi⟩ := h₁.sent x hx hxs
    exact ⟨y, hy, hys, hyc.trans hxc, hyi.trans hxi⟩⟩

theorem SentKept.of_eq {p q : MemPort} (h : q = p) : SentKept p q := h ▸ SentKept.refl p

theorem SentKept.of_hubPart {e e' : Engine} (h : hubPart e' = hubPart e) : SentKept e.mp e'.mp := .of_eq (mp_of_hubPart h)

/-- Writes each changed but for their tag are out as before. -/
theorem SentKept.map (p : MemPort) {f : WriteReq → WriteReq} (hf : ∀ w, (f w).sent = w.sent ∧ (f w).chan = w.chan ∧ (f w).id = w.id) :
    SentKept p { p with writes := p.writes.map f } :=
  ⟨rfl, rfl, fun w hw hs => by
    obtain ⟨x, hx, rfl⟩ := List.mem_map.1 hw
    obtain ⟨hsent, hchan, hid⟩ := hf x
    exact ⟨x, hx, hsent ▸ hs, hchan.symm, hid.symm⟩⟩

theorem SentKept.filter (p : MemPort) (keep : WriteReq → Bool) : SentKept p { p with writes := p.writes.filter keep } :=
  ⟨rfl, rfl, fun w hw hs => ⟨w, (List.mem_filter.1 hw).1, hs, rfl, rfl⟩⟩

/-- A step of a run that keeps them keeps them over the run. -/
theorem SentKept.foldl {α : Type} {f : Engine → α → Engine} (hf : ∀ e a, SentKept e.mp (f e a).mp) (l : List α) (e : Engine) :
    SentKept e.mp (l.foldl f e).mp := by
  induction l generalizing e with
  | nil => exact .refl _
  | cons a l ih => exact (hf e a).trans (ih _)

theorem SentKept.andFoldl {α : Type} {p : MemPort} {f : Engine → α → Engine} {l : List α} {e : Engine} (h : SentKept p e.mp)
    (hf : ∀ e a, SentKept e.mp (f e a).mp) : SentKept p (l.foldl f e).mp :=
  h.trans (SentKept.foldl hf l e)

/-- A write that waits for its grant is not out. -/
theorem sendLine_sentKept (e : Engine) (who : Writer) (l : Nat) (bytes : List (Nat × Byte)) (p c : Bool) :
    SentKept e.mp (sendLine e who l bytes p c).mp :=
  ⟨rfl, rfl, fun w hw hs => by
    rcases List.mem_append.1 hw with hw | hw
    · exact ⟨w, hw, hs, rfl, rfl⟩
    · split at hw
      · exact absurd hw List.not_mem_nil
      · rw [List.mem_singleton.1 hw] at hs
        exact absurd hs Bool.false_ne_true⟩

theorem sendBytes_sentKept (e : Engine) (who : Writer) (a : Nat) (bs : List Byte) (p : Nat → Bool) : SentKept e.mp (sendBytes e who a bs p).mp :=
  SentKept.foldl (fun e l => sendLine_sentKept e who l _ _ _) _ e

/-! ### The light path and the log -/

theorem lightWrite_sentKept (e : Engine) (task : Nat) (o : LightMove) : SentKept e.mp (lightWrite e task o).mp := by
  have hsend : ∀ e' : Engine, e'.mp = e.mp → ∀ p, SentKept e.mp (sendBytes e' (.hub task) o.dst (lightBytes o) p).mp := fun e' h p =>
    h ▸ sendBytes_sentKept e' _ _ _ p
  have hmark : ∀ (b : Bool) (e' : Engine), SentKept e.mp e'.mp →
      SentKept e.mp (if b = true then poisonEvent (markOut e' task) 50 codeHalted else e').mp := fun b e' h => by
    cases b
    · exact h
    · exact h.trans (.of_eq (poisonEvent_mp ..))
  exact hmark _ _ (hsend _ (bump_mp ..) _)

theorem lightStep_sentKept (e : Engine) : SentKept e.mp (lightStep e).mp := by
  unfold lightStep
  split
  · next task i o _ _ =>
    dsimp only
    have hwrite : SentKept e.mp (if (!o.written && o.lines.all SlotLine.landed) = true then lightWrite e task o else e).mp := by
      split
      · exact lightWrite_sentKept ..
      · exact .refl _
    generalize (if (!o.written && o.lines.all SlotLine.landed) = true then lightWrite e task o else e) = e₁ at *
    have hcount : (if writesLost e₁ (.hub task) = true then e₁ else bump e₁ .light 1).mp = e₁.mp := by
      split
      · rfl
      · exact bump_mp ..
    have hdone : ∀ done : Bool, SentKept e.mp (if done = true then
        let e := if writesLost e₁ (.hub task) then e₁ else bump e₁ .light 1
        { e with hf := { e.hf with light := some (task, i + 1), opened := none } } else e₁).mp := fun done => by
      cases done
      · exact hwrite
      · exact hwrite.trans (.of_eq hcount)
    exact hdone _
  · exact .refl _

@[simp] theorem postMsg_mp (e : Engine) (op seq : Byte) (ws : List Word) : (postMsg e op seq ws).mp = e.mp := by
  rw [postMsg_spec]; split <;> rfl

theorem logMove1_sentKept (e : Engine) : SentKept e.mp (logMove1 e).mp := by
  unfold logMove1
  split
  · dsimp only
    rw [leaveWfi_frame]
    exact sendBytes_sentKept ..
  · exact .refl _

theorem logFlush_sentKept (e : Engine) : SentKept e.mp (logFlush e).mp := by
  unfold logFlush
  split
  · exact .refl _
  · split
    · unfold logMove
      split
      · exact logMove1_sentKept e
      · exact .refl _
    · exact .of_eq (foldl_keeps Engine.mp (fun e q => postMsg_mp ..) _ _)

theorem logWritten_sentKept (e : Engine) (ok : Bool) : SentKept e.mp (logWritten e ok).mp := by
  unfold logWritten
  split
  · exact .refl _
  · have hflush : ∀ l : Log, SentKept e.mp (logFlush { e with log := l }).mp := fun l => logFlush_sentKept { e with log := l }
    exact hflush _

/-! ### Resuming and filling -/

@[simp] theorem hubPart_resumeRead (e : Engine) (c : CombId) (r : Nat) : hubPart (resumeRead e c r) = hubPart e := rfl
@[simp] theorem hubPart_resumeOut (e : Engine) (c : CombId) (p : Park) (s : Stream) : hubPart (resumeOut e c p s) = hubPart e := rfl
@[simp] theorem hubPart_fillOutIndex (e : Engine) (c : CombId) (p : Park) (s : Stream) : hubPart (fillOutIndex e c p s) = hubPart e := by
  simp only [fillOutIndex, hubPart_poisonEvent, hubPart_bump, hubPart_onStream, hubPart_onComb]

@[simp] theorem hubPart_readUnresolved (e : Engine) (c : CombId) (r : Fin 12) : hubPart (readUnresolved e c r) = hubPart e := by
  unfold readUnresolved
  split
  · rfl
  · next g _ s index _ =>
    have hland : ∀ (l : List SlotLine), hubPart (l.foldl (fun e' x => landLine e' c r.val x.ser (fillLine (streamDesc e c s) x.line) true) e) =
        hubPart e := fun l => foldl_keeps hubPart
        (u := fun e' x => landLine e' c r.val x.ser (fillLine (streamDesc e c s) x.line) true) (fun _ _ => rfl) l e
    dsimp only
    cases index
    all_goals
      simp only [if_true, Bool.false_eq_true, if_false]
      split
      · simp [hland]
      · simp [hland]

@[simp] theorem hubPart_parkRing (m : Mem) (e : Engine) (c : CombId) (r : Fin 12) : hubPart (parkRing m e c r) = hubPart e := by
  unfold parkRing
  split
  · rfl
  · cases ringPark e c r.val with
    | some p =>
      simp only [Option.isSome_some, if_true]
      split
      · exact hubPart_bump ..
      · rfl
    | none =>
      simp only [Option.isSome_none, Bool.false_eq_true, if_false]
      split
      · exact hubPart_bump ..
      · rfl

@[simp] theorem hubPart_parkOut (e : Engine) (c : CombId) (task role : Nat) : hubPart (parkOut e c task role) = hubPart e := by
  unfold parkOut
  split
  · rfl
  · split
    · rfl
    · split
      · exact hubPart_bump ..
      · rfl

@[simp] theorem setParks_mp (e : Engine) (w : Writer) (ps : List Park) : (setParks e w ps).mp = e.mp := by
  cases w <;> rfl

theorem parkWrite_mp (m : Mem) (e : Engine) (w : WriteReq) : (parkWrite m e w).mp = e.mp := by
  unfold parkWrite
  split
  · exact (bump_mp ..).trans (setParks_mp ..)
  · rfl

theorem parkLight_mp (e : Engine) : (parkLight e).mp = e.mp := by
  unfold parkLight
  split
  · rfl
  · split
    · exact bump_mp ..
    · rfl

theorem resumeWrite_sentKept (e : Engine) (w : Writer) (line : Nat) : SentKept e.mp (resumeWrite e w line).mp := by
  refine (SentKept.of_eq (setParks_mp e w _)).trans (SentKept.map _ fun x => ?_)
  split
  · exact ⟨rfl, rfl, rfl⟩
  · exact ⟨rfl, rfl, rfl⟩

theorem writeUnresolved_sentKept (e : Engine) (w : Writer) (line : Nat) : SentKept e.mp (writeUnresolved e w line).mp := by
  have hdoom : SentKept e.mp { e.mp with writes := (e.mp.writes.filter fun x => x.sent || !sameWriter x.who w).map (fun x =>
      if sameWriter x.who w then { x with doomed := true, bytes := [], poison := false, clean := false } else x) } :=
    (SentKept.filter e.mp _).trans <| SentKept.map _ fun x => by
      split
      · exact ⟨rfl, rfl, rfl⟩
      · exact ⟨rfl, rfl, rfl⟩
  have hlog : ∀ e₁ : Engine, SentKept e.mp e₁.mp → SentKept e.mp (logWritten e₁ false).mp := fun e₁ h =>
    h.trans (logWritten_sentKept e₁ false)
  unfold writeUnresolved
  dsimp only
  rw [poisonEvent_mp]
  have hmp : (bump (freeWritePark e w line) .unresolved 1).mp = e.mp := (bump_mp ..).trans (setParks_mp ..)
  cases w with
  | comb c x i => rw [hmp]; exact hdoom
  | hub i => rw [hmp]; exact hdoom
  | cap i => rw [hmp]; exact hdoom
  | link i => rw [hmp]; exact hdoom
  | firmware => rw [hmp]; exact hdoom
  | log => exact hlog _ (hmp ▸ hdoom)

/-! ### Translation events -/

theorem lightEvent_sentKept (e : Engine) (op : XlatOp) : SentKept e.mp (lightEvent e op).mp := by
  cases op with
  | retry => exact .refl _
  | abort =>
    unfold lightEvent
    dsimp only
    refine (SentKept.of_eq ?_).trans (lightStep_sentKept _)
    rw [poisonEvent_mp, bump_mp]; rfl

theorem eventOn_sentKept (e : Engine) (c : CombId) (op : XlatOp) (p : Park) : SentKept e.mp (eventOn e c op p).mp := by
  unfold eventOn
  split
  · exact .refl _
  · split
    · split
      · cases op with
        | retry => exact resumeWrite_sentKept ..
        | abort => exact writeUnresolved_sentKept ..
      · split
        · exact .of_hubPart (hubPart_resumeOut ..)
        · exact .of_hubPart (hubPart_fillOutIndex ..)
        · exact .refl _
    · cases op with
      | retry => exact .of_hubPart (hubPart_resumeRead ..)
      | abort => exact .of_hubPart (hubPart_readUnresolved ..)

theorem eventOnHub_sentKept (e : Engine) (op : XlatOp) (p : Park) : SentKept e.mp (eventOnHub e op p).mp := by
  unfold eventOnHub
  split
  · exact .refl _
  · split
    · exact lightEvent_sentKept ..
    · split
      · cases op with
        | retry => exact resumeWrite_sentKept ..
        | abort => exact (writeUnresolved_sentKept ..).trans (lightStep_sentKept _)
      · exact .refl _

theorem noteRing_mp (e : Engine) (op : XlatOp) (size : BitVec 2) (page : Nat) (c : CombId) (r : Fin 12) :
    (noteRing e op size page c r).mp = e.mp := by
  have hif : ∀ (b : Bool) (f : Ring → Ring), (if b = true then onRing e c r.val f else e).mp = e.mp := fun b f => by cases b <;> rfl
  unfold noteRing
  split
  · rfl
  · exact hif ..

theorem noteWaiting_sentKept (e : Engine) (op : XlatOp) (size : BitVec 2) (page : Nat) : SentKept e.mp (noteWaiting e op size page).mp := by
  have htag : ∀ (b : Bool) (w : WriteReq), (if b = true then { w with event := some op } else w).sent = w.sent ∧
      (if b = true then { w with event := some op } else w).chan = w.chan ∧
      (if b = true then { w with event := some op } else w).id = w.id := fun b w => by
    cases b
    · exact ⟨rfl, rfl, rfl⟩
    · exact ⟨rfl, rfl, rfl⟩
  have hrings := SentKept.foldl (f := fun e c => (List.finRange 12).foldl (fun e r => noteRing e op size page c r) e)
    (fun e c => SentKept.foldl (fun e r => .of_eq (noteRing_mp e op size page c r)) _ e) (enabledCombs e) e
  unfold noteWaiting
  dsimp only
  generalize (enabledCombs e).foldl (fun e c => (List.finRange 12).foldl (fun e r => noteRing e op size page c r) e) e = e₁ at *
  have houts := hrings.trans <| SentKept.foldl (f := fun e c => (combOuts e c).foldl (fun e s => onStream e c 0 s.task s.role
    (noteOut e op size page c)) e) (fun e c => SentKept.foldl (f := fun e (s : Stream) => onStream e c 0 s.task s.role (noteOut e op size page c))
      (fun e s => .refl _) _ e) (enabledCombs e₁) e₁
  generalize (enabledCombs e₁).foldl (fun e c => (combOuts e c).foldl (fun e s => onStream e c 0 s.task s.role
    (noteOut e op size page c)) e) e₁ = e₂ at *
  refine SentKept.trans (q := (match lightLine e₂ with
    | some l => if !lightParked e₂ && inPage size page l then onLight e₂ fun o => { o with event := some op } else e₂
    | none => e₂).mp) (houts.trans ?_) (SentKept.map _ fun w => htag _ w)
  split
  · split
    · exact .refl _
    · exact .refl _
  · exact .refl _

theorem takeEvent_sentKept (e : Engine) (x : XlatOp × Nat × Nat) : SentKept e.mp (takeEvent e x).mp := by
  unfold takeEvent applyEvent
  dsimp only
  refine SentKept.andFoldl (SentKept.andFoldl (noteWaiting_sentKept ..) fun e c => ?_) fun e p => eventOnHub_sentKept ..
  exact SentKept.foldl (fun e p => eventOn_sentKept ..) _ e

/-! ### Records for waiting streams -/

theorem parkWaitingRing_sentKept (m : Mem) (e : Engine) (c : CombId) (r : Fin 12) : SentKept e.mp (parkWaitingRing m e c r).mp := by
  unfold parkWaitingRing
  split
  · exact .refl _
  · split
    · exact .refl _
    · refine (SentKept.of_hubPart (hubPart_parkRing m e c r)).trans ?_
      dsimp only
      split
      · exact eventOn_sentKept (onRing (parkRing m e c r) c r.val _) ..
      · exact .refl _

theorem parkWaitingOut_sentKept (e : Engine) (c : CombId) (s : Stream) : SentKept e.mp (parkWaitingOut e c s).mp := by
  unfold parkWaitingOut
  refine (SentKept.of_hubPart (hubPart_parkOut e c s.task s.role)).trans ?_
  dsimp only
  split
  · exact eventOn_sentKept ..
  · exact .refl _

theorem parkWaitingWrite_sentKept (m : Mem) (e : Engine) (w : WriteReq) : SentKept e.mp (parkWaitingWrite m e w).mp := by
  unfold parkWaitingWrite
  split
  · exact .refl _
  · refine (SentKept.of_eq (parkWrite_mp m e w)).trans ?_
    dsimp only
    split
    · split
      · exact eventOn_sentKept ..
      · exact eventOnHub_sentKept ..
    · exact .refl _

theorem parkWaitingLight_sentKept (e : Engine) : SentKept e.mp (parkWaitingLight e).mp := by
  unfold parkWaitingLight
  refine (SentKept.of_eq (parkLight_mp e)).trans ?_
  dsimp only
  split
  · split
    · exact lightEvent_sentKept ..
    · exact .refl _
  · exact .refl _

/-- Records given to waiting streams, and events that were held, send nothing out. -/
theorem settleParks_sentKept (m : Mem) (e : Engine) : SentKept e.mp (settleParks m e).mp := by
  unfold settleParks
  have hheld : SentKept e.mp { e.mp with heldXlat := [] } := ⟨rfl, rfl, (SentKept.refl e.mp).sent⟩
  dsimp only
  refine SentKept.trans (SentKept.andFoldl (SentKept.andFoldl (SentKept.andFoldl (SentKept.andFoldl (l := e.mp.heldXlat)
    (e := { e with mp := { e.mp with heldXlat := [] } }) hheld takeEvent_sentKept)
    fun e c => ?_) fun e c => ?_) (parkWaitingWrite_sentKept m)) (parkWaitingLight_sentKept _)
  · exact SentKept.foldl (fun e r => parkWaitingRing_sentKept m e c r) _ e
  · exact SentKept.foldl (fun e s => parkWaitingOut_sentKept e c s) _ e

/-! ### With no write parked -/

section Quiet
variable {e : Engine} (hquiet : ∀ w ∈ e.mp.writes, w.parked = false)
include hquiet

/-- An event finds no parked write to resume or to end. -/
theorem hubPart_eventOn (c : CombId) (op : XlatOp) (p : Park) : hubPart (eventOn e c op p) = hubPart e := by
  have hnone : writerOf e (combWriter c) p.line = none := by
    rw [writerOf, List.find?_eq_none.2 fun w hw => by simp [hquiet w hw]]; rfl
  unfold eventOn
  split
  · rfl
  · split
    · rw [hnone]
      dsimp only
      split
      · exact hubPart_resumeOut ..
      · exact hubPart_fillOutIndex ..
      · rfl
    · cases op with
      | retry => exact hubPart_resumeRead ..
      | abort => exact hubPart_readUnresolved ..

theorem hubPart_parkWaitingRing (m : Mem) (c : CombId) (r : Fin 12) : hubPart (parkWaitingRing m e c r) = hubPart e := by
  have hpark := hubPart_parkRing m e c r
  unfold parkWaitingRing
  split
  · rfl
  · split
    · rfl
    · dsimp only
      split
      · refine (hubPart_eventOn ?_ ..).trans hpark
        exact (mp_of_hubPart hpark).symm ▸ hquiet
      · exact hpark

theorem hubPart_parkWaitingOut (c : CombId) (s : Stream) : hubPart (parkWaitingOut e c s) = hubPart e := by
  have hpark := hubPart_parkOut e c s.task s.role
  unfold parkWaitingOut
  dsimp only
  split
  · exact (hubPart_eventOn ((mp_of_hubPart hpark).symm ▸ hquiet) ..).trans hpark
  · exact hpark

omit hquiet in
/-- A run of steps each of which leaves the port where no write is parked leaves it. -/
theorem hubPart_foldl {α : Type} {f : Engine → α → Engine}
    (hf : ∀ e : Engine, (∀ w ∈ e.mp.writes, w.parked = false) → ∀ a, hubPart (f e a) = hubPart e) (l : List α) (e : Engine)
    (hquiet : ∀ w ∈ e.mp.writes, w.parked = false) : hubPart (l.foldl f e) = hubPart e := by
  induction l generalizing e with
  | nil => rfl
  | cons a l ih =>
    have hstep := hf e hquiet a
    exact (ih (f e a) ((mp_of_hubPart hstep).symm ▸ hquiet)).trans hstep

/-- Without held events, parked writes or a light path, records given to waiting streams leave the memory port. -/
theorem settleParks_mp (m : Mem) (hheld : e.mp.heldXlat = []) (hopened : e.hf.opened = none) : (settleParks m e).mp = e.mp := by
  have hstart : { e with mp := { e.mp with heldXlat := [] } } = e := by rw [← hheld]
  unfold settleParks
  rw [hheld, List.foldl_nil, hstart]
  have hrings := hubPart_foldl (f := fun e c => (List.finRange 12).foldl (fun e r => parkWaitingRing m e c r) e)
    (fun e h c => hubPart_foldl (fun e h r => hubPart_parkWaitingRing h m c r) _ e h) (enabledCombs e) e hquiet
  dsimp only
  generalize (enabledCombs e).foldl (fun e c => (List.finRange 12).foldl (fun e r => parkWaitingRing m e c r) e) e = e₁ at *
  have houts := (hubPart_foldl (f := fun e c => (combOuts e c).foldl (fun e s => parkWaitingOut e c s) e)
    (fun e h c => hubPart_foldl (fun e h s => hubPart_parkWaitingOut h c s) _ e h) (enabledCombs e₁) e₁
    ((mp_of_hubPart hrings).symm ▸ hquiet)).trans hrings
  generalize (enabledCombs e₁).foldl (fun e c => (combOuts e c).foldl (fun e s => parkWaitingOut e c s) e) e₁ = e₂ at *
  have hwrites : e₂.mp.writes.foldl (parkWaitingWrite m) e₂ = e₂ := by
    have hnone : ∀ w ∈ e₂.mp.writes, w.parked = false := (mp_of_hubPart houts).symm ▸ hquiet
    generalize e₂.mp.writes = ws at *
    induction ws with
    | nil => rfl
    | cons w ws ih =>
      rw [List.foldl_cons, parkWaitingWrite, hnone w (List.mem_cons_self ..)]
      exact ih fun x hx => hnone x (List.mem_cons_of_mem _ hx)
  have hlight : e₂.hf.opened = none := (hf_of_hubPart houts).symm ▸ hopened
  have hline : lightLine e₂ = none := by rw [lightLine, hlight]
  have hpark : parkLight e₂ = e₂ := by
    rw [parkLight, hline]
    exact ite_self _
  rw [hwrites, parkWaitingLight, hpark, hlight]
  exact mp_of_hubPart houts

end Quiet

end Sys2Proof.Machine
end

section
/-! Proofs: the request that a memory channel grants: who bids, which bid is chosen, and what goes out (R262, R267, R269). -/

namespace Sys2Proof.Machine

/-! ### The smallest of a list -/

theorem minBy_le {α : Type} {m : α → Nat} {l : List α} {a : α} (h : minBy m l = some a) : ∀ b ∈ l, m a ≤ m b := by
  have hfold : ∀ (l : List α) (a : α), m (l.foldl (fun b c => if m c < m b then c else b) a) ≤ m a ∧
      ∀ b ∈ l, m (l.foldl (fun b c => if m c < m b then c else b) a) ≤ m b := fun l => by
    induction l with
    | nil => exact fun a => ⟨le_rfl, by simp⟩
    | cons x l ih =>
      intro a
      obtain ⟨hle, hall⟩ := ih (if m x < m a then x else a)
      have hx : m (if m x < m a then x else a) ≤ m x ∧ m (if m x < m a then x else a) ≤ m a := by
        split <;> omega
      refine ⟨hle.trans hx.2, fun b hb => ?_⟩
      rcases List.mem_cons.1 hb with rfl | hb
      · exact hle.trans hx.1
      · exact hall b hb
  cases l with
  | nil => exact absurd h (by simp [minBy])
  | cons x l =>
    obtain rfl := Option.some.inj h
    intro b hb
    rcases List.mem_cons.1 hb with rfl | hb
    · exact (hfold l b).1
    · exact (hfold l x).2 b hb

theorem exists_minBy {α : Type} (m : α → Nat) {l : List α} (h : l ≠ []) : ∃ a, minBy m l = some a := by
  cases l with
  | nil => exact absurd rfl h
  | cons x l => exact ⟨_, rfl⟩

/-! ### The choice -/

section Choice
variable {e : Engine} {ch : ChanId} {bs : List Bid}

/-- What `choose` makes smallest: the deadline key, and for equal keys the turns that the round robin still has to go. -/
def bidKey (e : Engine) (b : Bid) : Nat := dlKey e b * 64 + (b.seat + 52 - (e.mp.rr + 1) % 52) % 52

/-- A turn is below the 64 by which the deadline key is scaled. -/
theorem dlKey_le_of_bidKey {b o : Bid} (h : bidKey e b ≤ bidKey e o) : dlKey e b ≤ dlKey e o := by
  have hturn : ∀ n : Nat, n % 52 < 52 := fun n => Nat.mod_lt n (by decide)
  have hb := hturn (b.seat + 52 - (e.mp.rr + 1) % 52)
  have ho := hturn (o.seat + 52 - (e.mp.rr + 1) % 52)
  unfold bidKey at h
  omega

theorem choose_none (h : ∀ b ∈ bs, chanOf b.line ≠ ch) : choose e ch bs = none := by
  have hnone : bs.filter (fun b => chanOf b.line == ch) = [] := List.filter_eq_nil_iff.2 fun b hb => by simpa using h b hb
  unfold choose
  rw [hnone]
  rfl

/-- One of the bids on the channel is chosen: of a class below 3 if there is one, and with the smallest key of those that may go. -/
theorem exists_choose (h : ∃ b ∈ bs, chanOf b.line = ch) : ∃ b, choose e ch bs = some b ∧ b ∈ bs ∧ chanOf b.line = ch ∧
    ∀ o ∈ bs, chanOf o.line = ch → (o.cls e < 3 ∨ 3 ≤ b.cls e) → (o.cls e < 3 → b.cls e < 3) ∧ dlKey e b ≤ dlKey e o := by
  have hmem : ∀ b, b ∈ bs.filter (fun b => chanOf b.line == ch) ↔ b ∈ bs ∧ chanOf b.line = ch := fun b => by simp
  obtain ⟨b₀, hb₀, hch₀⟩ := h
  unfold choose
  dsimp only
  generalize bs.filter (fun b => chanOf b.line == ch) = here at *
  have hfore : ∀ b, b ∈ here.filter (fun b => decide (b.cls e < 3)) ↔ b ∈ here ∧ b.cls e < 3 := fun b => by simp
  generalize hf : here.filter (fun b => decide (b.cls e < 3)) = fore at *
  cases fore with
  | nil =>
    obtain ⟨b, hb⟩ := exists_minBy (bidKey e) (List.ne_nil_of_mem ((hmem b₀).2 ⟨hb₀, hch₀⟩))
    obtain ⟨hbs, hch⟩ := (hmem b).1 (mem_of_minBy hb)
    refine ⟨b, hb, hbs, hch, fun o ho hoch _ => ?_⟩
    have hohere := (hmem o).2 ⟨ho, hoch⟩
    exact ⟨fun hcls => absurd ((hfore o).2 ⟨hohere, hcls⟩) List.not_mem_nil, dlKey_le_of_bidKey (minBy_le hb o hohere)⟩
  | cons x fore =>
    obtain ⟨b, hb⟩ := exists_minBy (bidKey e) (List.cons_ne_nil x fore)
    obtain ⟨hhere, hcls⟩ := (hfore b).1 (mem_of_minBy hb)
    obtain ⟨hbs, hch⟩ := (hmem b).1 hhere
    refine ⟨b, hb, hbs, hch, fun o ho hoch hmay => ⟨fun _ => hcls, ?_⟩⟩
    have hocls : o.cls e < 3 := hmay.resolve_right (Nat.not_le.2 hcls)
    exact dlKey_le_of_bidKey (minBy_le hb o ((hfore o).2 ⟨(hmem o).2 ⟨ho, hoch⟩, hocls⟩))

end Choice

/-! ### The bids -/

/-- Whether a bid is a read of a comb. -/
def Bid.isRead : Bid → Bool
  | .read _ _ _ => true
  | .light _ => false
  | .write _ => false

theorem foldl_reads {α : Type} {f : Engine × List Bid → α → Engine × List Bid}
    (hf : ∀ acc a, (∀ b ∈ acc.2, b.isRead = true) → ∀ b ∈ (f acc a).2, b.isRead = true) (l : List α) (acc : Engine × List Bid)
    (hacc : ∀ b ∈ acc.2, b.isRead = true) : ∀ b ∈ (l.foldl f acc).2, b.isRead = true := by
  induction l generalizing acc with
  | nil => exact hacc
  | cons a l ih => exact ih _ (hf acc a hacc)

/-- A comb's streams bid for reads. -/
theorem isRead_of_mem_fillComb (m : Mem) (c : CombId) (acc : Engine × List Bid) (hacc : ∀ b ∈ acc.2, b.isRead = true) :
    ∀ b ∈ (fillComb m acc c).2, b.isRead = true := by
  have hadd : ∀ (bs : List Bid) (r : Fin 12) (o : Option Want), (∀ b ∈ bs, b.isRead = true) →
      ∀ b ∈ (match o with | some w => bs ++ [Bid.read c r w] | none => bs : List Bid), b.isRead = true := fun bs r o hbs b hb => by
    cases o with
    | none => exact hbs b hb
    | some w =>
      rcases List.mem_append.1 hb with hb | hb
      · exact hbs b hb
      · rw [List.mem_singleton.1 hb]; rfl
  unfold fillComb
  dsimp only
  refine foldl_reads (fun acc x h => hadd _ _ _ h) _ _ (foldl_reads (fun acc r h => ?_) _ acc hacc)
  split
  · exact h
  · exact hadd _ _ _ h

theorem isRead_of_mem_fillAll (m : Mem) (e : Engine) : ∀ b ∈ (fillAll m e).2, b.isRead = true := by
  unfold fillAll
  refine foldl_reads (fun acc c h => ?_) _ _ (by simp)
  split
  · exact h
  · exact isRead_of_mem_fillComb m c acc h

/-- Whether a write waits for its grant. -/
def WriteReq.waits (w : WriteReq) : Bool := !w.sent && !w.parked

/-- Whether a write waits for its grant in the place of another: of the same writer, on the same channel. -/
def WriteReq.sameTurn (w x : WriteReq) : Bool := x.waits && x.who == w.who && x.chan == w.chan

/-- The step of the fold of `writeBids`: the writes that are the oldest of their writer on the channel. -/
def waitingStep (ch : ChanId) (acc : List WriteReq) (w : WriteReq) : List WriteReq :=
  if w.sent || w.parked || w.chan != ch || acc.any (fun x => x.who == w.who) then acc else acc ++ [w]

theorem waitingStep_cases (ch : ChanId) (acc : List WriteReq) (w : WriteReq) :
    (waitingStep ch acc w = acc ∧ (w.waits = true → w.chan = ch → ∃ x ∈ acc, x.who = w.who)) ∨
    (waitingStep ch acc w = acc ++ [w] ∧ w.waits = true ∧ w.chan = ch ∧ ∀ x ∈ acc, x.who ≠ w.who) := by
  unfold waitingStep WriteReq.waits
  split
  · next h =>
    refine .inl ⟨rfl, fun hwaits hchan => ?_⟩
    obtain ⟨hsent, hparked⟩ := Bool.and_eq_true_iff.1 hwaits
    simpa [Bool.not_eq_true' _ ▸ hsent, Bool.not_eq_true' _ ▸ hparked, hchan] using h
  · next h => exact .inr ⟨rfl, by simp_all, by simp_all, by simp_all⟩

/-- Each is the first of its turn, and every write that waits on the channel has its writer's oldest among them. -/
theorem foldl_waitingStep (ch : ChanId) (ws : List WriteReq) :
    (∀ w ∈ ws.foldl (waitingStep ch) [], w.chan = ch ∧ ws.find? w.sameTurn = some w) ∧
    ∀ x ∈ ws, x.waits = true → x.chan = ch → ∃ w ∈ ws.foldl (waitingStep ch) [], w.who = x.who := by
  induction ws using List.reverseRecOn with
  | nil => simp
  | append_singleton ws a ih =>
    obtain ⟨hfirst, hall⟩ := ih
    rw [List.foldl_append, List.foldl_cons, List.foldl_nil]
    have hfind : ∀ w ∈ ws.foldl (waitingStep ch) [], w.chan = ch ∧ (ws ++ [a]).find? w.sameTurn = some w := fun w hw => by
      rw [List.find?_append, (hfirst w hw).2]
      exact ⟨(hfirst w hw).1, rfl⟩
    rcases waitingStep_cases ch (ws.foldl (waitingStep ch) []) a with ⟨hskip, hold⟩ | ⟨hadd, hwaits, hchan, hnew⟩
    · rw [hskip]
      refine ⟨hfind, fun x hx hxw hxc => ?_⟩
      rcases List.mem_append.1 hx with hx | hx
      · exact hall x hx hxw hxc
      · obtain rfl := List.mem_singleton.1 hx
        exact hold hxw hxc
    · rw [hadd]
      refine ⟨fun w hw => ?_, fun x hx hxw hxc => ?_⟩
      · rcases List.mem_append.1 hw with hw | hw
        · exact hfind w hw
        · obtain rfl := List.mem_singleton.1 hw
          have hnone : ws.find? w.sameTurn = none := List.find?_eq_none.2 fun x hx hturn => by
            simp only [WriteReq.sameTurn, Bool.and_eq_true, beq_iff_eq] at hturn
            obtain ⟨y, hy, hwho⟩ := hall x hx hturn.1.1 (hturn.2.trans hchan)
            exact hnew y hy (hwho.trans hturn.1.2)
          rw [List.find?_append, hnone]
          exact ⟨hchan, by simp [WriteReq.sameTurn, hwaits]⟩
      · rcases List.mem_append.1 hx with hx | hx
        · obtain ⟨w, hw, hwho⟩ := hall x hx hxw hxc
          exact ⟨w, List.mem_append_left _ hw, hwho⟩
        · obtain rfl := List.mem_singleton.1 hx
          exact ⟨x, by simp, rfl⟩

/-- A write that bids is on the channel, and the first of its turn. -/
theorem first_of_mem_writeBids {e : Engine} {ch : ChanId} {w : WriteReq} (h : Bid.write w ∈ writeBids e ch) :
    w.chan = ch ∧ e.mp.writes.find? w.sameTurn = some w := by
  obtain ⟨x, hx, hbid⟩ := List.mem_filterMap.1 h
  obtain ⟨-, hbid⟩ := Option.ite_none_left_eq_some.1 hbid
  obtain rfl := Bid.write.inj (Option.some.inj hbid)
  exact (foldl_waitingStep ch e.mp.writes).1 x hx

/-- So is every write among the bids for a channel. -/
theorem first_of_mem_bidsFor {m : Mem} {e₀ e : Engine} {ch : ChanId} {bs : List Bid} {w : WriteReq} (hbids : bidsFor m e₀ ch = (e, bs))
    (h : Bid.write w ∈ bs) : w.chan = ch ∧ e.mp.writes.find? w.sameTurn = some w := by
  have hreads : ∀ b ∈ (if running e₀ then fillAll m e₀ else (e₀, [])).2, b.isRead = true := by
    split
    · exact isRead_of_mem_fillAll m e₀
    · simp
  have hlight : ∀ e : Engine, Bid.write w ∉ lightBid e := fun e hw => by
    unfold lightBid at hw
    split at hw
    · split at hw
      · exact List.not_mem_nil hw
      · obtain ⟨l, -, hl⟩ := List.mem_map.1 hw
        exact absurd hl (by simp)
    · exact List.not_mem_nil hw
  unfold bidsFor at hbids
  obtain ⟨rfl, rfl⟩ := Prod.mk.inj hbids
  rcases List.mem_append.1 h with h | h
  · rcases List.mem_append.1 h with h | h
    · exact absurd (hreads _ h) (by simp [Bid.isRead])
    · split at h
      · exact absurd h (hlight _)
      · exact absurd h List.not_mem_nil
  · exact first_of_mem_writeBids h

/-! ### What goes out -/

theorem mem_updFirst_of_find? {α : Type} {p : α → Bool} (f : α → α) {l : List α} {a : α} (h : l.find? p = some a) :
    f a ∈ updFirst p f l := by
  induction l with
  | nil => exact absurd h (by simp)
  | cons x l ih =>
    cases hp : p x
    · rw [List.find?_cons_of_neg (by simp [hp])] at h
      simpa [updFirst, hp] using .inr (ih h)
    · rw [List.find?_cons_of_pos hp] at h
      obtain rfl := Option.some.inj h
      simp [updFirst, hp]

theorem hubPart_placeLine (e : Engine) (c : CombId) (r : Fin 12) (w : Want) : hubPart (placeLine e c r w) = hubPart e := by
  unfold placeLine
  split
  · split
    · rfl
    · split
      · split <;> rfl
      · rfl
  · rfl

section Out
variable {e : Engine} {i : Nat}

theorem askLine_mp (dst : ReadFor) {line : Nat} (hfree : freeId e (chanOf line) = some i) (tries : Nat) : (askLine e dst line tries).mp =
    { e.mp with reads := e.mp.reads ++ [{ chan := chanOf line, id := BitVec.ofNat 10 i, addr := 64 * line, dst := dst, tries := tries }] } := by
  rw [askLine_of_free hfree]

theorem grant_mp (c : CombId) (r : Fin 12) {w : Want} (hfree : freeId e (chanOf w.line) = some i) : (grant e c r w).mp =
    { e.mp with reads := e.mp.reads ++ [{ chan := chanOf w.line, id := BitVec.ofNat 10 i, addr := 64 * w.line, dst := w.dst, tries := 0 }] } := by
  have hask : ∀ e' : Engine, e'.mp = e.mp → (askLine e' w.dst w.line 0).mp = { e.mp with
      reads := e.mp.reads ++ [{ chan := chanOf w.line, id := BitVec.ofNat 10 i, addr := 64 * w.line, dst := w.dst, tries := 0 }] } :=
    fun e' h => by
      rw [askLine_mp w.dst ((freeId_congr (congrArg MemPort.reads h) (congrArg MemPort.writes h) _).trans hfree), h]
  have hpark : ∀ (b : Bool) (e' : Engine), e'.mp = e.mp → (if b = true then e' else freePark e' c r.val .resuming).mp = e.mp :=
    fun b e' h => by cases b <;> exact h
  unfold grant
  refine hask _ (hpark _ _ ?_)
  cases w.dst <;> rfl

theorem sendWrite_mp {w : WriteReq} (hfree : freeId e w.chan = some i) : (sendWrite e w).mp =
    { e.mp with writes := updFirst w.sameTurn (fun x => { x with sent := true, id := BitVec.ofNat 10 i }) e.mp.writes } := by
  unfold sendWrite
  rw [hfree]
  rfl

theorem askLight_mp {l : Nat} (hfree : freeId e (chanOf l) = some i) : (askLight e l).mp =
    { e.mp with reads := e.mp.reads ++ [{ chan := chanOf l, id := BitVec.ofNat 10 i, addr := 64 * l, dst := .light, tries := 0 }] } := by
  unfold askLight
  have hfree' : ∀ f, freeId (onLight e f) (chanOf l) = some i := fun f => (freeId_congr rfl rfl _).trans hfree
  exact askLine_mp .light (hfree' _) 0

/-- The engine whose round robin stands at a bid. -/
def withTurn (e : Engine) (b : Bid) : Engine := { e with mp := { e.mp with rr := b.seat } }

theorem freeId_withTurn (b : Bid) (ch : ChanId) : freeId (withTurn e b) ch = freeId e ch := freeId_congr rfl rfl ch

theorem grantBid_read (m : Mem) (c : CombId) (r : Fin 12) (w : Want) : grantBid m e (.read c r w) =
    (fillComb m (grant (placeLine (withTurn e (.read c r w)) c r w) c r w, []) c).1 := rfl

theorem grantBid_light (m : Mem) (l : Nat) : grantBid m e (.light l) = askLight (withTurn e (.light l)) l := rfl

theorem grantBid_write (m : Mem) (w : WriteReq) : grantBid m e (.write w) = sendWrite (withTurn e (.write w)) w := rfl

theorem grantBid_read_mp (m : Mem) (c : CombId) (r : Fin 12) {w : Want} (hfree : freeId e (chanOf w.line) = some i) :
    (grantBid m e (.read c r w)).mp = { (withTurn e (.read c r w)).mp with
      reads := e.mp.reads ++ [{ chan := chanOf w.line, id := BitVec.ofNat 10 i, addr := 64 * w.line, dst := w.dst, tries := 0 }] } := by
  have hplace := mp_of_hubPart (hubPart_placeLine (withTurn e (.read c r w)) c r w)
  have hfree' := (freeId_congr (congrArg MemPort.reads hplace) (congrArg MemPort.writes hplace) (chanOf w.line)).trans
    ((freeId_withTurn _ _).trans hfree)
  have hgrant := grant_mp (e := placeLine (withTurn e (.read c r w)) c r w) c r hfree'
  rw [hplace] at hgrant
  rw [grantBid_read, mp_of_hubPart (hubPart_fillComb m _ c)]
  exact hgrant

theorem grantBid_light_mp (m : Mem) {l : Nat} (hfree : freeId e (chanOf l) = some i) : (grantBid m e (.light l)).mp =
    { (withTurn e (.light l)).mp with
      reads := e.mp.reads ++ [{ chan := chanOf l, id := BitVec.ofNat 10 i, addr := 64 * l, dst := .light, tries := 0 }] } := by
  rw [grantBid_light, askLight_mp ((freeId_withTurn _ _).trans hfree)]
  rfl

theorem grantBid_write_mp (m : Mem) {w : WriteReq} (hfree : freeId e w.chan = some i) : (grantBid m e (.write w)).mp =
    { (withTurn e (.write w)).mp with
      writes := updFirst w.sameTurn (fun x => { x with sent := true, id := BitVec.ofNat 10 i }) e.mp.writes } := by
  rw [grantBid_write, sendWrite_mp ((freeId_withTurn _ _).trans hfree)]
  rfl

end Out

/-! ### The step -/

theorem exec_lineRequestGrant (s : State) (ch : ChanId) :
    exec (.lineRequestGrant ch) s = .next { s with eng := lineGrant s.mem s.eng ch } := rfl

theorem lineGrant_dead {e : Engine} (h : hubAlive e = false) (m : Mem) (ch : ChanId) : lineGrant m e ch = e := by
  simp [lineGrant, h]

section Alive
variable {m : Mem} {e₀ e : Engine} {ch : ChanId} {bs : List Bid} (halive : hubAlive e₀ = true) (hbids : bidsFor m e₀ ch = (e, bs))
include halive hbids

/-- Without a free tag, or with nothing that waits on the channel, only parks are settled. -/
theorem lineGrant_idle (h : freeId e ch = none ∨ ∀ b ∈ bs, chanOf b.line ≠ ch) : lineGrant m e₀ ch = settleParks m e := by
  unfold lineGrant
  rw [halive, hbids]
  rcases h with h | h
  · simp [h]
  · simp [choose_none h]

theorem lineGrant_grants {i : Nat} (hfree : freeId e ch = some i) {b : Bid} (hb : choose e ch bs = some b) :
    lineGrant m e₀ ch = settleParks m (grantBid m e b) := by
  unfold lineGrant
  rw [halive, hbids]
  simp [hfree, hb]

end Alive

/-! ### What a granted write leaves -/

theorem of_mem_updFirst {α : Type} {p : α → Bool} {f : α → α} {l : List α} {a : α} (h : a ∈ updFirst p f l) :
    a ∈ l ∨ ∃ b ∈ l, a = f b := by
  induction l with
  | nil => exact absurd h List.not_mem_nil
  | cons x l ih =>
    unfold updFirst at h
    split at h
    · rcases List.mem_cons.1 h with rfl | h
      · exact .inr ⟨x, List.mem_cons_self .., rfl⟩
      · exact .inl (List.mem_cons_of_mem _ h)
    · rcases List.mem_cons.1 h with rfl | h
      · exact .inl (List.mem_cons_self ..)
      · rcases ih h with h | ⟨b, hb, rfl⟩
        · exact .inl (List.mem_cons_of_mem _ h)
        · exact .inr ⟨b, List.mem_cons_of_mem _ hb, rfl⟩

theorem sendWrite_hf (e : Engine) (w : WriteReq) : (sendWrite e w).hf = e.hf := by
  unfold sendWrite
  split <;> rfl

/-- With no write parked, no event held and no light path, the write that bid is out under the tag, in its place among the others. -/
theorem settled_write_out (m : Mem) {e : Engine} {w : WriteReq} {i : Nat} (hfree : freeId e w.chan = some i)
    (hfirst : e.mp.writes.find? w.sameTurn = some w) (hheld : e.mp.heldXlat = []) (hopened : e.hf.opened = none)
    (hquiet : ∀ x ∈ e.mp.writes, x.parked = false) :
    { w with sent := true, id := BitVec.ofNat 10 i } ∈ (settleParks m (grantBid m e (.write w))).mp.writes ∧
    (settleParks m (grantBid m e (.write w))).mp.writes.length = e.mp.writes.length := by
  have hmp := grantBid_write_mp m hfree
  have hhf : (grantBid m e (.write w)).hf.opened = none := by rw [grantBid_write, sendWrite_hf]; exact hopened
  have hparked : ∀ x ∈ (grantBid m e (.write w)).mp.writes, x.parked = false := fun x hx => by
    rw [hmp] at hx
    rcases of_mem_updFirst hx with hx | ⟨y, hy, rfl⟩
    · exact hquiet x hx
    · exact hquiet y hy
  rw [settleParks_mp hparked m (by rw [hmp]; exact hheld) hhf, hmp]
  exact ⟨mem_updFirst_of_find? _ hfirst, updFirst_length ..⟩

/-- Settles O33: the bid chosen goes out under the lowest free tag, and settling parks afterwards sends nothing. -/
theorem grantAsksForOneLine : Obligations.GrantAsksForOneLine := by
  unfold Obligations.GrantAsksForOneLine
  intro s ch e bs
  refine ⟨fun hdead => ?_, fun halive hbids => ⟨fun i hfree hwaits => ?_, fun hidle => ?_⟩⟩
  · rw [exec_lineRequestGrant, lineGrant_dead hdead]
  · obtain ⟨b, hchoose, hb, hchan, hbest⟩ := exists_choose hwaits
    have hkept := settleParks_sentKept s.mem (grantBid s.mem e b)
    refine ⟨_, b, exec_lineRequestGrant s ch, hb, hchan, hbest, ?_⟩
    rw [lineGrant_grants halive hbids hfree hchoose]
    dsimp only
    cases b with
    | read c r w =>
      have hmp := grantBid_read_mp s.mem c r (hchan ▸ hfree : freeId e (chanOf w.line) = some i)
      refine ⟨?_, ?_, nofun, nofun, rfl, rfl⟩
      · rw [hkept.rr, hmp]; rfl
      · rintro _ _ _ ⟨⟩
        rw [hkept.reads, hmp, ← hchan]; rfl
    | light l =>
      have hmp := grantBid_light_mp (l := l) s.mem (hchan ▸ hfree : freeId e (chanOf l) = some i)
      refine ⟨?_, nofun, ?_, nofun, rfl, rfl⟩
      · rw [hkept.rr, hmp]; rfl
      · rintro _ ⟨⟩
        rw [hkept.reads, hmp, ← hchan]; rfl
    | write w =>
      obtain ⟨hwchan, hfirst⟩ := first_of_mem_bidsFor hbids hb
      have hwfree : freeId e w.chan = some i := hwchan ▸ hfree
      have hmp := grantBid_write_mp s.mem hwfree
      refine ⟨?_, nofun, nofun, ?_, rfl, rfl⟩
      · rw [hkept.rr, hmp]; rfl
      · rintro _ ⟨⟩
        have hreads : (settleParks s.mem (grantBid s.mem e (.write w))).mp.reads = e.mp.reads := by rw [hkept.reads, hmp]; rfl
        exact ⟨hreads, fun hheld hopened hquiet => settled_write_out s.mem hwfree hfirst hheld hopened hquiet⟩
  · have hkept := settleParks_sentKept s.mem e
    refine ⟨_, exec_lineRequestGrant s ch, ?_⟩
    rw [lineGrant_idle halive hbids hidle]
    exact ⟨hkept.reads, hkept.rr, hkept.sent, rfl, rfl⟩

end Sys2Proof.Machine
end

section
/-! Proofs: a parked ring whose stream carries a write role: after ABORT no stream of the ring goes on with fill (R288). -/

namespace Sys2Proof.Machine

/-- A stream of a ring under a write role, which no descriptor of a ring gives. -/
def outRoleStream : Stream := { task := 0, ctx := 0, role := rOUT }

/-- The line that it asked for. -/
def outRoleLine : SlotLine := { ser := 0, line := 0x400, role := rOUT, need := [⟨0, 0, 0⟩] }

/-- A ring that the stream has parked. -/
def outRoleRing : Ring := { slots := 3, tailCount := 1, nextSer := 1, parked := true, streams := [outRoleStream], lines := [outRoleLine] }

def outRolePark : Park := { state := .parked, ring := 0, line := 0x400 }

def outRoleComb : Comb := { rings := some outRoleRing :: List.replicate 11 none, parks := outRolePark :: List.replicate 7 {} }

/-- A chip of which only comb 3 is not fenced, with its first ring parked. -/
def outRoleState : State :=
  { eng := { combs := (List.replicate 50 {}).set 3 outRoleComb, fences := (List.replicate 50 { cause := 1 }).set 3 {} } }

theorem combOf_outRoleState (d : CombId) : combOf outRoleState.eng d = if d = 3 then outRoleComb else {} := by
  decide +revert +kernel

/-- No other ring is bound. -/
theorem ringOf_outRoleState {d : CombId} {q : Nat} {h : Ring} (hring : ringOf outRoleState.eng d q = some h) : d = 3 ∧ q = 0 := by
  rw [ringOf, combOf_outRoleState] at hring
  split at hring
  · next hd =>
    refine ⟨hd, ?_⟩
    cases q with
    | zero => rfl
    | succ q =>
      rw [outRoleComb, List.getElem?_cons_succ, List.getElem?_replicate] at hring
      split at hring
      · exact absurd hring nofun
      · exact absurd hring nofun
  · exact absurd hring (by rw [ringOf_default]; exact nofun)

/-- The only park record taken is the ring's. -/
theorem parks_outRoleState {d : CombId} {m : Nat} {q : Park} (hq : (combOf outRoleState.eng d).parks[m]? = some q) (h : d ≠ 3 ∨ m ≠ 0) :
    q.state = .free := by
  rw [combOf_outRoleState] at hq
  split at hq
  · next hd =>
    cases m with
    | zero => exact absurd rfl (h.resolve_left (not_not.2 hd))
    | succ m =>
      rw [outRoleComb, List.getElem?_cons_succ, List.getElem?_replicate] at hq
      obtain ⟨-, hq⟩ := Option.ite_none_right_eq_some.1 hq
      rw [← Option.some.inj hq]
  · exact (List.eq_replicate_iff.1 (rfl : ({} : Comb).parks = List.replicate 8 {})).2 q (List.mem_of_getElem? hq) ▸ rfl

/-- The state after an event with ABORT for the page. -/
def outRoleNext : State := reading outRoleState [] fun m e => translationEvent m e .abort 0 1

/-- The ring goes on without a stream that is filled. -/
theorem outRoleNext_filling : ((ringOf outRoleNext.eng 3 0).map fun g => g.streams.any (·.filling)) = some false := by decide +kernel

/-- Refutes O36: a stream of a ring is changed by its task and its role, and under a write role that names the index stream in its task's
context. The premises do not say that a parked ring's streams carry read roles: in `outRoleState` ABORT fills the lines of ring 0 of comb
3, and no stream of the ring goes on with fill. -/
theorem not_parkedRingResumesOrFills : ¬ Obligations.ParkedRingResumesOrFills := by
  unfold Obligations.ParkedRingResumesOrFills
  intro h
  obtain ⟨-, -, hsettled⟩ := h outRoleState (by decide +kernel) rfl
  obtain ⟨hring, -⟩ := hsettled (by decide +kernel) (by decide) rfl rfl (by decide +kernel)
  obtain ⟨-, hlost⟩ := hring 3 0 outRoleRing outRoleLine outRoleStream outRolePark 0 (by decide +kernel) rfl rfl rfl rfl (by decide) rfl
    (by decide +kernel) rfl rfl rfl rfl (fun m q hq hm => parks_outRoleState hq (.inr hm))
    (fun d hd q hq => (List.mem_iff_getElem?.1 hq).elim fun m hm => parks_outRoleState hm (.inl hd)) fun d q g hg _ => ringOf_outRoleState hg
  obtain ⟨t, g', hexec, hg', -, -, -, hfill, -⟩ := hlost _ (.inl ⟨0, 1, by decide, by decide, rfl⟩)
  obtain rfl : t = outRoleNext := (Host.Outcome.next.inj hexec).symm
  obtain ⟨-, s, hs, -, -, hfilling⟩ := hfill rfl
  have hnone := outRoleNext_filling
  rw [show ringOf outRoleNext.eng 3 0 = some g' from hg', Option.map_some, Option.some.injEq] at hnone
  exact absurd (List.any_eq_true.2 ⟨s, hs, hfilling⟩) (by simp [hnone])

end Sys2Proof.Machine
end

section
/-! Proofs: a short descriptor whose source runs past the last address of memory (R255). -/

namespace Sys2Proof.Machine

/-- The LIGHT task, whose list stands at 0x8000. -/
def wrappingTask : Task := { index := 0, record := { (default : TaskRec) with arg := 0x8000 }, life := .running .hub }

/-- The engine in RUN, with that task at the first entry of its list. -/
def wrappingState : State :=
  { eng := { boot := { state := .run }, hf := { light := some (0, 0) }
             sch := { run := some { sub := ⟨5, 0x1000, 77, none⟩, hdr := default, samples := {}, logical := [], regions := []
                                    versions := [], layers := [], gen := none, carousel := [], tasks := [wrappingTask] } } } }

/-- The entry: two bytes from the last address of memory on, to 0x4000. -/
def wrappingEntry : List Byte := leBytes 8 (2 ^ 52 - 1) ++ leBytes 8 0x4000 ++ leBytes 2 2 ++ List.replicate 14 0

/-- The line that it is read from. -/
def wrappingRead : List MemLine := [{ addr := 0x8000, data := wrappingEntry ++ List.replicate 32 0, poison := false }]

def wrappingMem : Mem := landed wrappingState.mem wrappingRead

theorem wrappingEntry_read : wrappingEntry = viewBytes wrappingMem wrappingState.eng 0x8000 32 := by decide +kernel

/-- The state that the command answers. -/
def wrappingNext : State := reading wrappingState wrappingRead shortDescriptor

/-- The light path has no source line to wait for and hands its writes over at once. -/
theorem wrappingNext_written : wrappingNext.eng.hf.opened.map LightMove.written = some true := by decide +kernel

/-- Refutes O37: an entry whose source runs past the last address names no line of memory, for the last byte's line is line 0 and the range
of lines is empty. In `wrappingState` the light path waits for none and writes in the step that takes the entry up. -/
theorem not_listsAndQueuesMoveOn : ¬ Obligations.ListsAndQueuesMoveOn := by
  unfold Obligations.ListsAndQueuesMoveOn
  rintro ⟨hshort, -⟩
  obtain ⟨-, hentry⟩ := hshort wrappingState wrappingRead wrappingMem 0 0 wrappingTask 0x8000 wrappingEntry rfl (by decide +kernel) rfl
    (by decide +kernel) (by decide +kernel) wrappingEntry_read
  obtain ⟨-, hvalid⟩ := hentry rfl
  obtain ⟨-, hmove, -⟩ := hvalid (by decide +kernel) (by decide +kernel)
  obtain ⟨t, o, hexec, hopened, -, -, -, -, hwaits, -⟩ := hmove (by decide +kernel) (by decide +kernel)
  obtain rfl : t = wrappingNext := (Host.Outcome.next.inj hexec).symm
  have hwritten := wrappingNext_written
  rw [hopened, Option.map_some, hwaits] at hwritten
  exact absurd hwritten (by decide)

end Sys2Proof.Machine
end

section
/-! Proofs: graphs submitted by GRAPH_SUBMIT and CHECKPOINT_REQUEST (R293, R519). -/

namespace Sys2Proof.Machine

/-! ### A command that its processor serves -/

theorem exec_graphSubmit (s : State) : exec .graphSubmit s = .next (withEng s (graphSubmit s.eng)) := rfl
theorem exec_checkpointRequest (s : State) : exec .checkpointRequest s = .next (withEng s (checkpointRequest s.eng)) := rfl

/-- A command that no check turns away is carried out once its processor has taken it. -/
theorem serve_of_servable {e : Engine} {p op : Nat} {t : Taken} (h : Servable e p op t) (f : Msg → Engine → Engine) :
    serve e p op f = f t.msg (leaveWfi (takeFront e p)) := by
  obtain ⟨hfront, hscreen, -⟩ := h
  simp [serve, hfront, hscreen]

@[simp] theorem leaveWfi_sch (e : Engine) : (leaveWfi e).sch = e.sch := by rw [leaveWfi_frame]

/-- A processor that leaves WFI does so before or after the scheduler's books change. -/
theorem leaveWfi_withSch (e : Engine) (q : Sched) : { leaveWfi e with sch := q } = leaveWfi { e with sch := q } := by
  by_cases h : e.pwr.pstate = .active <;> simp [leaveWfi, h]

/-- A processor that leaves WFI does so before or after a reply. -/
theorem reply_leaveWfi {e : Engine} (m : Msg) (code : Nat) (ws : List Word) (h : e.mbx.ring.length < 256) :
    reply (leaveWfi e) m code ws = leaveWfi (reply e m code ws) := by
  have hmbx : (leaveWfi e).mbx = e.mbx := by rw [leaveWfi_frame]
  have hmsg : replyMsg (leaveWfi e) m code ws = replyMsg e m code ws := by rw [leaveWfi_frame]; rfl
  rw [reply_spec m code ws h, reply_spec m code ws (by rw [hmbx]; exact h), hmbx, hmsg]
  by_cases h : e.pwr.pstate = .active <;> simp [leaveWfi, h]

/-- A reply to a command that its processor has taken, while the ring has room. -/
theorem reply_served {e : Engine} (p : Nat) (m : Msg) (code : Nat) (ws : List Word) (h : e.mbx.ring.length < 256) :
    reply (leaveWfi (takeFront e p)) m code ws =
      leaveWfi { e with mbx := { e.mbx with taken := takenAfter e p, ring := e.mbx.ring ++ [replyMsg e m code ws] } } :=
  (reply_leaveWfi (e := takeFront e p) m code ws h).trans (congrArg leaveWfi (reply_spec (e := takeFront e p) m code ws h))

/-- The same once a graph has joined the scheduler's books. -/
theorem reply_served_withSch {e : Engine} (p : Nat) (q : Sched) (m : Msg) (code : Nat) (ws : List Word) (h : e.mbx.ring.length < 256) :
    reply { leaveWfi (takeFront e p) with sch := q } m code ws =
      leaveWfi { e with sch := q, mbx := { e.mbx with taken := takenAfter e p, ring := e.mbx.ring ++ [replyMsg e m code ws] } } := by
  rw [leaveWfi_withSch]
  exact reply_served (e := { e with sch := q }) p m code ws h

/-- Whether FP1's queue has room is a matter of the scheduler's books and of the messages that wait for FP1. -/
theorem graphRoom_served (e : Engine) (p : Nat) : graphRoom (leaveWfi (takeFront e p)) = decide (notDone e < 8) := by
  rw [leaveWfi_frame]; rfl

/-! ### GRAPH_SUBMIT -/

section Submit
variable {e : Engine} {t : Taken}

theorem graphSubmit_badArg (h : Servable e 1 opSubmit t) (ha : msgAddr t.msg 0 128 = none) :
    graphSubmit e = leaveWfi { e with mbx := { e.mbx with
      taken := takenAfter e 1, ring := e.mbx.ring ++ [replyMsg e t.msg 4 []] } } := by
  rw [graphSubmit, serve_of_servable h, ha]
  dsimp only
  rw [reply_served _ _ _ _ h.2.2]

theorem graphSubmit_full {a : Nat} (h : Servable e 1 opSubmit t) (ha : msgAddr t.msg 0 128 = some a) (hfull : 8 ≤ notDone e) :
    graphSubmit e = leaveWfi { e with mbx := { e.mbx with
      taken := takenAfter e 1, ring := e.mbx.ring ++ [replyMsg e t.msg 5 []] } } := by
  rw [graphSubmit, serve_of_servable h, ha]
  dsimp only
  rw [graphRoom_served, decide_eq_false (Nat.not_lt.2 hfull), Bool.not_false, if_pos rfl, reply_served _ _ _ _ h.2.2]

theorem graphSubmit_queues {a : Nat} (h : Servable e 1 opSubmit t) (ha : msgAddr t.msg 0 128 = some a) (hroom : notDone e < 8) :
    graphSubmit e = leaveWfi { e with
      sch := { e.sch with
        nextGid := (e.sch.nextGid + 1) % 255, done := e.sch.done.filter (· ≠ e.sch.nextGid)
        queue := e.sch.queue ++ [{ gid := e.sch.nextGid, addr := a, cookie := w32 (msgWord t.msg 2) }] }
      mbx := { e.mbx with
        taken := takenAfter e 1, ring := e.mbx.ring ++ [replyMsg e t.msg 0 [w32 e.sch.nextGid]] } } := by
  rw [graphSubmit, serve_of_servable h, ha]
  dsimp only
  rw [graphRoom_served, decide_eq_true hroom, Bool.not_true, if_neg Bool.false_ne_true]
  refine (reply_served_withSch (e := e) 1 _ _ _ _ h.2.2).trans ?_
  rw [leaveWfi_frame (takeFront e 1)]
  rfl

end Submit

/-! ### CHECKPOINT_REQUEST -/

/-- Bytes read where they were put: the part of them at an offset. -/
theorem cellsRead_cellsPutAll {l : List Host.Cell} (hl : cellsWf l = true) (a : Nat) (bs : List Byte) (o n : Nat) (hn : o + n ≤ bs.length) :
    cellsRead (cellsPutAll l a bs) (a + o) n = (bs.drop o).take n := by
  induction n generalizing o with
  | zero => simp [cellsRead]
  | succ n ih =>
    have ho : o < bs.length := by omega
    rw [cellsRead, Nat.add_assoc, ih (o + 1) (by omega), cellsGet_cellsPutAll hl, if_pos (by omega), Nat.add_sub_cancel_left,
      List.getElem?_eq_getElem ho, Option.getD_some, List.drop_eq_getElem_cons ho, List.take_succ_cons]

/-- A checkpoint graph as FP1 builds it: its header, its task record, and room for the completion record (R519). -/
def ckptGraph (table : Option (Nat × Nat)) (arg step : Nat) : List Byte := ckptHeader table ++ ckptTask arg step ++ List.replicate 256 0

@[simp] theorem ckptHeader_length (table : Option (Nat × Nat)) : (ckptHeader table).length = 128 := by simp [ckptHeader]

/-- The task record stands behind the header: its kind and class, its step, and its argument at offset 104 (Table 09-3). -/
theorem ckptGraph_task (table : Option (Nat × Nat)) (arg step : Nat) :
    ((ckptGraph table arg step).drop 128).take 8 = [7, 3, 0, 0] ++ leBytes 4 step ∧
      ((ckptGraph table arg step).drop 232).take 8 = leBytes 8 arg := by
  have hdrop : ∀ n, (ckptGraph table arg step).drop (128 + n) = (ckptTask arg step ++ List.replicate 256 0).drop n := fun n => by
    rw [ckptGraph, List.append_assoc, ← List.drop_drop, List.drop_left' (ckptHeader_length table)]
  refine ⟨?_, ?_⟩
  · rw [hdrop 0]; rfl
  · rw [hdrop 104]; rfl

theorem ckptGraph_length (table : Option (Nat × Nat)) (arg step : Nat) : (ckptGraph table arg step).length = 512 := by
  rw [ckptGraph, List.length_append, List.length_append, ckptHeader_length, List.length_replicate]
  rfl

/-- The task record of a checkpoint graph reads back from the part of FP1's area that the graph takes. -/
theorem ckptArea_task {area : List Host.Cell} (hwf : cellsWf area = true) (k : Nat) (table : Option (Nat × Nat)) (arg step : Nat) :
    cellsRead (cellsPutAll area (512 * k) (ckptGraph table arg step)) (512 * k + 128) 8 = [7, 3, 0, 0] ++ leBytes 4 step ∧
      cellsRead (cellsPutAll area (512 * k) (ckptGraph table arg step)) (512 * k + 128 + 104) 8 = leBytes 8 arg := by
  obtain ⟨htask, harg⟩ := ckptGraph_task table arg step
  rw [Nat.add_assoc (512 * k) 128 104, cellsRead_cellsPutAll hwf, cellsRead_cellsPutAll hwf]
  · exact ⟨htask, harg⟩
  all_goals rw [ckptGraph_length]; omega

section Checkpoint
variable {e : Engine} {t : Taken} (h : Servable e 1 opCheckpoint t)
include h

theorem checkpointRequest_full (hfull : 8 ≤ notDone e) :
    checkpointRequest e = leaveWfi { e with mbx := { e.mbx with
      taken := takenAfter e 1, ring := e.mbx.ring ++ [replyMsg e t.msg 5 []] } } := by
  rw [checkpointRequest, serve_of_servable h]
  dsimp only
  rw [graphRoom_served, decide_eq_false (Nat.not_lt.2 hfull), Bool.not_false, if_pos rfl, reply_served _ _ _ _ h.2.2]

theorem checkpointRequest_queues (hroom : notDone e < 8) :
    checkpointRequest e = leaveWfi { e with
      sch := { e.sch with
        nextGid := (e.sch.nextGid + 1) % 255, done := e.sch.done.filter (· ≠ e.sch.nextGid)
        queue := { gid := e.sch.nextGid, addr := 0, cookie := 0, ckpt := some (ckptSlot e) } :: e.sch.queue
        ckptArea := cellsPutAll e.sch.ckptArea (512 * ckptSlot e)
          (ckptGraph e.sch.lastTable (msgWord t.msg 0 + msgWord t.msg 1 * 2 ^ 32) (msgWord t.msg 2)) }
      mbx := { e.mbx with
        taken := takenAfter e 1, ring := e.mbx.ring ++ [replyMsg e t.msg 0 [w32 e.sch.nextGid]] } } := by
  rw [checkpointRequest, serve_of_servable h]
  dsimp only
  rw [graphRoom_served, decide_eq_true hroom, Bool.not_true, if_neg Bool.false_ne_true]
  refine (reply_served_withSch (e := e) 1 _ _ _ _ h.2.2).trans ?_
  rw [leaveWfi_frame (takeFront e 1)]
  rfl

end Checkpoint

/-- Settles O17: each answer by the lemma of its case; the checkpoint's task record reads back from FP1's area by `ckptArea_task`. -/
theorem submitQueuesGraph : Obligations.SubmitQueuesGraph := by
  unfold Obligations.SubmitQueuesGraph
  refine ⟨fun s t a h ha => ⟨fun hfull => ?_, fun hroom => ?_⟩, fun s t h ha => ?_, fun s t h hwf => ⟨fun hfull => ?_, fun hroom => ?_⟩⟩
  · rw [exec_graphSubmit, graphSubmit_full h ha hfull]
  · rw [exec_graphSubmit, graphSubmit_queues h ha hroom]
  · rw [exec_graphSubmit, graphSubmit_badArg h ha]
  · rw [exec_checkpointRequest, checkpointRequest_full h hfull]
  · obtain ⟨htask, harg⟩ := ckptArea_task hwf (ckptSlot s.eng) s.eng.sch.lastTable (msgWord t.msg 0 + msgWord t.msg 1 * 2 ^ 32) (msgWord t.msg 2)
    refine ⟨_, exec_checkpointRequest s, ?_⟩
    rw [withEng_eng, checkpointRequest_queues h hroom, leaveWfi_frame]
    dsimp only
    exact ⟨rfl, rfl, rfl, rfl, htask, harg, rfl, rfl⟩

end Sys2Proof.Machine
end

section
/-! Proofs: a task record that enters the window (R297, R298, R300, R303). -/

namespace Sys2Proof.Machine

/-- Lines read for the hub change nothing but counters. -/
theorem exists_readEng (s : State) (rd : List MemLine) : ∃ ctr, readEng s rd = { s.eng with ctr := ctr } :=
  ⟨_, (bump_spec s.eng .hubFabricRetry (retried rd)).2.2⟩

theorem exec_taskFetch (rd : List MemLine) (s : State) :
    exec (.taskFetch rd) s = .next { s with mem := absorb s.mem rd, eng := taskFetch (landed s.mem rd) (readEng s rd) } := rfl

/-! ### The running graph after its changes -/

theorem run_onGraph {e : Engine} {g : Graph} (h : e.sch.run = some g) (f : Graph → Graph) : (onGraph e f).sch.run = some (f g) := by
  rw [onGraph, h]; rfl

/-- A failure that is no one's to stop the graph for only ends its task (R142, R314). -/
theorem endTask_of_ok {e : Engine} {i status code : Nat} (u : ExecUnit)
    (h : status ≠ 3 ∨ (code ≠ codeTileMapInvalid ∧ code ≠ codeDescInvalid)) :
    endTask e i u status code = onTask e i fun t => { t with life := .ended u status code } := by
  unfold endTask
  split
  · next h3 =>
    obtain ⟨htile, hdesc⟩ := h.resolve_left (fun hne => hne h3)
    simp [haltOnFail, htile, hdesc]
  · rfl

theorem updFirst_append_of_none {α : Type} {p : α → Bool} (f : α → α) {l : List α} (r : List α) (h : ∀ a ∈ l, p a = false) :
    updFirst p f (l ++ r) = l ++ updFirst p f r := by
  induction l with
  | nil => rfl
  | cons a l ih =>
    simp [updFirst, h a (List.mem_cons_self ..), ih fun b hb => h b (List.mem_cons_of_mem _ hb)]

/-! ### A task becomes ready (R300) -/

/-- A fetched task is ready. -/
def madeReady (t : Task) : Task := { t with life := if t.life = .fetched then .ready else t.life }

theorem settleReady_of_preds {e : Engine} {g : Graph} {i n : Nat} (hrun : e.sch.run = some g) (hpreds : predsOf g i = some n) :
    settleReady e i = if n < arrivalsOf g i then askStop e codeTaskInvalid 0xF0 noTask
      else if arrivalsOf g i = n then onTask e i madeReady else e := by
  simp only [settleReady, hrun, hpreds]
  rfl

/-- A graph but for what the settling of a task can change. -/
def settleFrame (g : Graph) : Graph := { g with tasks := [], retired := [], stop := none, stopUnit := 0, stopTask := 0 }

/-- The task that came last into the window is judged by its arrivals: ready, waiting, or one too many. -/
theorem settleReady_last {e : Engine} {g : Graph} {l : List Task} {x : Task} (hrun : e.sch.run = some g) (htasks : g.tasks = l ++ [x])
    (hl : ∀ t ∈ l, t.index ≠ x.index) (hstop : g.stop = none) :
    ∃ g', (settleReady e x.index).sch.run = some g' ∧
      g'.tasks = l ++ [if arrivalsOf g x.index = x.record.predCount then madeReady x else x] ∧
      g'.stop = (if x.record.predCount < arrivalsOf g x.index then some 2 else none) ∧ settleFrame g' = settleFrame g ∧
      settleReady e x.index = { e with sch := (settleReady e x.index).sch } := by
  have hmine : ∀ t ∈ l, (t.index == x.index) = false := fun t ht => by simpa using hl t ht
  have hpreds : predsOf g x.index = some x.record.predCount := by
    have hnone : l.find? (fun t => t.index == x.index) = none := List.find?_eq_none.2 fun t ht => by simpa using hl t ht
    simp [predsOf, htasks, List.find?_append, hnone]
  rw [settleReady_of_preds hrun hpreds]
  rcases Nat.lt_trichotomy x.record.predCount (arrivalsOf g x.index) with hlt | heq | hgt
  · rw [if_pos hlt, (askStop_spec e _ _ _).1 g hrun hstop, if_neg (Nat.ne_of_gt hlt), if_pos hlt]
    exact ⟨_, rfl, htasks, rfl, rfl, rfl⟩
  · rw [if_neg (by omega), if_pos heq.symm, if_pos heq.symm, if_neg (by omega)]
    refine ⟨_, run_onGraph hrun _, ?_, hstop, rfl, rfl⟩
    rw [htasks, updFirst_append_of_none _ _ hmine, updFirst, if_pos (beq_self_eq_true _)]
  · rw [if_neg (by omega), if_neg (by omega), if_neg (by omega), if_neg (by omega)]
    exact ⟨g, hrun, htasks, hstop, rfl, rfl⟩

/-! ### The next record -/

/-- The index found is one that is neither resident nor completed, unless there is none. -/
theorem nextIndex_free (g : Graph) (n i : Nat) (h : nextIndex g n i < i + n) : ∀ t ∈ g.tasks, t.index ≠ nextIndex g n i := by
  induction n generalizing i with
  | zero => exact absurd h (Nat.lt_irrefl _)
  | succ n ih =>
    unfold nextIndex at h ⊢
    split
    · next hheld =>
      rw [if_pos hheld] at h
      exact ih (i + 1) (by omega)
    · next hfree =>
      simp only [Bool.or_eq_true, not_or, Bool.not_eq_true, List.any_eq_false, beq_iff_eq] at hfree
      exact hfree.1

/-- A record as it enters the window. -/
def enteredTask (e : Engine) (g : Graph) (i : Nat) (r : TaskRec) : Task :=
  { index := i, record := r, life := if recordBad e g r then .ended .hub 3 codeTaskInvalid else .fetched }

/-- The graph with the record in its window. -/
def recordEntered (i : Nat) (r : TaskRec) (g : Graph) : Graph :=
  { g with
    fetch := i + 1, tasks := g.tasks ++ [{ index := i, record := r }], lastStep := r.step
    firstOfStep := if g.firstOfStep.any (fun p => p.1 == r.step) then g.firstOfStep else g.firstOfStep ++ [(r.step, i)] }

/-- Whether a record is valid for its graph is a matter of the graph's layers. -/
theorem recordBad_congr {e e' : Engine} (h : e'.sch.run.map Graph.layers = e.sch.run.map Graph.layers) (g : Graph) (t : TaskRec) :
    recordBad e' g t = recordBad e g t := by
  have hlayer : layerOf e' t = layerOf e t := by
    unfold layerOf
    cases hr : e.sch.run <;> cases hr' : e'.sch.run <;> simp_all
  simp only [recordBad, maskOf, hlayer]

/-- A record on a sound line enters the window as a task that waits, or as one of the hub that has failed (R298). -/
theorem enterTask_eq {m : Mem} {e : Engine} {g : Graph} {i : Nat} {r : TaskRec} (hrun : e.sch.run = some g)
    (hfree : ∀ t ∈ g.tasks, t.index ≠ i) (hkind : recordBad e g r = true ∨ r.kind ≠ kGENLOOP) :
    ∃ e₁ g₁, enterTask m e g i r false = settleReady e₁ i ∧ e₁ = { e with sch := e₁.sch } ∧ e₁.sch.run = some g₁ ∧
      g₁.tasks = g.tasks ++ [enteredTask e g i r] ∧ settleFrame g₁ = settleFrame (recordEntered i r g) ∧ g₁.stop = g.stop := by
  have hmine : ∀ t ∈ g.tasks, (t.index == i) = false := fun t ht => by simpa using hfree t ht
  have hsame : recordBad (onGraph e (recordEntered i r)) g r = recordBad e g r :=
    recordBad_congr (by rw [run_onGraph hrun, hrun]; rfl) g r
  have henter : enterTask m e g i r false =
      if recordBad (onGraph e (recordEntered i r)) g r then settleReady (endTask (onGraph e (recordEntered i r)) i .hub 3 codeTaskInvalid) i
      else settleReady (if r.kind = kGENLOOP then enterLoop m (onGraph e (recordEntered i r)) g i r else onGraph e (recordEntered i r)) i := rfl
  rw [hsame] at henter
  by_cases hbad : recordBad e g r = true
  · rw [if_pos hbad, endTask_of_ok _ (.inr (by decide))] at henter
    refine ⟨_, _, henter, rfl, run_onGraph (run_onGraph hrun _) _, ?_, rfl, rfl⟩
    simp [recordEntered, updFirst_append_of_none _ _ hmine, updFirst, enteredTask, hbad]
  · rw [if_neg hbad, if_neg (hkind.resolve_left hbad)] at henter
    refine ⟨_, _, henter, rfl, run_onGraph hrun _, ?_, rfl, rfl⟩
    simp [recordEntered, enteredTask, hbad]

/-- With room in the window the next record enters it. -/
theorem taskFetch_eq {m : Mem} {e : Engine} {g : Graph} {i : Nat} {r : TaskRec} (hrunning : running e = true) (hrun : e.sch.run = some g)
    (hstop : g.stop = none) (hroom : g.tasks.length < 4096) (hmore : g.fetch < g.hdr.tasks)
    (hi : i = nextIndex g (g.hdr.tasks - g.fetch) g.fetch) (hlt : i < g.hdr.tasks) (hr : r = taskRecAt m e g i)
    (hsound : subPoisoned m e g.sub (g.hdr.taskBase + 128 * i) 128 = false) (hstep : g.lastStep ≤ r.step) :
    taskFetch m e = enterTask m e g i r false := by
  have hwindow : decide (Config.windowTasks ≤ g.tasks.length) = false := decide_eq_false (Nat.not_le.2 hroom)
  rw [taskFetch, hrun]
  dsimp only
  rw [hrunning, hstop, hwindow, decide_eq_false (Nat.not_le.2 hmore), ← hi, ← hr, hsound, decide_eq_false (Nat.not_lt.2 hstep)]
  exact if_neg (Nat.not_le.2 hlt)

/-- Settles O23: `taskFetch_eq` and `enterTask_eq` bring the record into the window, and `settleReady_last` judges it by its arrivals. -/
theorem taskFetchEntersWindow : Obligations.TaskFetchEntersWindow := by
  unfold Obligations.TaskFetchEntersWindow
  rintro s rd g m i r rfl hrunning hrun hstop hroom hmore hi hlt hr hsound hstep hkind
  obtain ⟨ctr, hctr⟩ := exists_readEng s rd
  have hfree : ∀ t ∈ g.tasks, t.index ≠ i := hi ▸ nextIndex_free g _ _ (by omega)
  obtain ⟨e₁, g₁, henter, hframe₁, hrun₁, htasks₁, hsame₁, hstop₁⟩ :=
    enterTask_eq (m := landed s.mem rd) (e := { s.eng with ctr := ctr }) hrun hfree hkind
  obtain ⟨g', hrun', htasks', hstop', hsame', hframe'⟩ :=
    settleReady_last (x := enteredTask s.eng g i r) hrun₁ htasks₁ hfree (hstop₁.trans hstop)
  have hfetch : taskFetch (landed s.mem rd) (readEng s rd) = settleReady e₁ i := by
    rw [hctr, ← henter]
    exact taskFetch_eq hrunning hrun hstop hroom hmore hi hlt hr hsound hstep
  have hsame : settleFrame g' = settleFrame (recordEntered i r g) := hsame'.trans hsame₁
  have hframe : settleReady e₁ i = { s.eng with ctr := ctr, sch := (settleReady e₁ i).sch } := by
    rw [show settleReady e₁ i = _ from hframe', hframe₁]
  have harrivals : arrivalsOf g₁ i = arrivalsOf g i :=
    (congrArg (fun g => arrivalsOf g i) hsame₁ : arrivalsOf (settleFrame g₁) i = arrivalsOf (settleFrame (recordEntered i r g)) i)
  refine ⟨_, g', exec_taskFetch rd s, ?_, (congrArg Graph.fetch hsame :), ?_, ?_, (congrArg Graph.lastStep hsame :),
    (congrArg Graph.completed hsame :), (congrArg Graph.arrivals hsame :), (congrArg Graph.hdr hsame :), (congrArg Graph.sub hsame :), ?_⟩
  · rw [hfetch]; exact hrun'
  · rw [htasks', show (enteredTask s.eng g i r).index = i from rfl, harrivals]
    by_cases hbad : recordBad s.eng g r = true <;> by_cases hready : arrivalsOf g i = r.predCount <;>
      simp [enteredTask, madeReady, hbad, hready]
  · rw [hstop', show (enteredTask s.eng g i r).index = i from rfl, harrivals]; rfl
  · rw [hfetch, hframe]
    exact ⟨rfl, rfl, rfl, rfl, rfl⟩

end Sys2Proof.Machine
end

section
/-! Proofs: the admission of a graph (R293, R294, R415, R518). -/

namespace Sys2Proof.Machine

theorem exec_graphAdmit (rd : List MemLine) (s : State) :
    exec (.graphAdmit rd) s = .next { s with mem := absorb s.mem rd, eng := graphAdmit (landed s.mem rd) (readEng s rd) } := rfl

/-- A change of one element that leaves a key leaves the list of keys. -/
theorem map_updFirst_of_eq {α β : Type} (p : α → Bool) {f : α → α} {key : α → β} (hf : ∀ a, key (f a) = key a) (l : List α) :
    (updFirst p f l).map key = l.map key := by
  induction l with
  | nil => rfl
  | cons a l ih => unfold updFirst; split <;> simp [hf, ih]

/-! ### Poison events -/

/-- A part of the engine that does not look at the records on their way, the poison error bit, and what a poison event marks in the running
graph. -/
structure PoisonBlind {β : Type} (p : Engine → β) : Prop where
  log : ∀ e l, p { e with log := l } = p e
  raised : ∀ e, p (raiseErr e errPoison) = p e
  marked : ∀ e g first stop unit task, e.sch.run = some g → p { e with sch := { e.sch with
    run := some { g with firstPoison := first, stop := stop, stopUnit := unit, stopTask := task } } } = p e

namespace PoisonBlind

section
variable {β : Type} {p : Engine → β} (hp : PoisonBlind p)
include hp

theorem askStop (e : Engine) (code unit task : Nat) : p (askStop e code unit task) = p e := by
  cases hrun : e.sch.run with
  | none => rw [(askStop_spec ..).2.1 hrun]
  | some g =>
    cases hstop : g.stop with
    | some c => rw [(askStop_spec ..).2.2 g c hrun hstop]
    | none =>
      rw [(askStop_spec e code unit task).1 g hrun hstop]
      exact hp.marked e g g.firstPoison _ _ _ hrun

theorem poisonEvent (e : Engine) (i n : Nat) : p (poisonEvent e i n) = p e := by
  unfold Machine.poisonEvent
  cases hrun : e.sch.run with
  | none =>
    simp only [raiseErr_sch, hrun]
    exact hp.raised e
  | some g =>
    simp only [raiseErr_sch, hrun]
    have hmark : p (if g.firstPoison = true then raiseErr e errPoison else
        logEvent { raiseErr e errPoison with sch := { e.sch with run := some { g with firstPoison := true } } } i 0x000C 0
          [BitVec.ofNat 8 i]) = p e := by
      split
      · exact hp.raised e
      · rw [logEvent_frame, hp.log]
        exact (hp.marked (raiseErr e errPoison) g true g.stop g.stopUnit g.stopTask hrun).trans (hp.raised e)
    split
    · exact (hp.askStop ..).trans hmark
    · exact hmark

theorem noteRead (e : Engine) (bad : Bool) : p (noteRead e bad) = p e := by
  unfold Machine.noteRead
  split
  · exact hp.poisonEvent ..
  · rfl

end

end PoisonBlind

/-! ### A graph's end as the host is told it (R518) -/

/-- With FP1 up, room in the ring and no abort that waits, a graph's end is one message, GRAPH_DONE in HUB_DONE and a record
on its way. -/
theorem reportDone_spec {e : Engine} (s : Submitted) (outcome code first completed : Nat) (hup : procUp e 1 = true)
    (hroom : e.mbx.ring.length < 256) (hnone : e.mbx.abortReplies = []) :
    ∃ msg unsolicited log, msg.opcode = 0xC1 ∧ msg.words = doneWords s outcome code first completed ∧
      reportDone e s outcome code first completed =
        { e with hub := { e.hub with graphDone := true }, sch := { e.sch with done := insertNat s.gid e.sch.done }
                 mbx := { e.mbx with ring := e.mbx.ring ++ [msg], unsolicited := unsolicited }, log := log } := by
  obtain ⟨log, hlog⟩ : ∃ log, logEvent
      { e with hub := { e.hub with graphDone := true }, sch := { e.sch with done := insertNat s.gid e.sch.done } } 55 0x0004 (fwFlags 1) ((doneWords s outcome code first completed).flatMap fun w => leBytes 4 w.toNat) =
      { e with hub := { e.hub with graphDone := true }, sch := { e.sch with done := insertNat s.gid e.sch.done }, log := log } :=
    ⟨_, logEvent_frame ..⟩
  refine ⟨{ major := (negotiated e).1, minor := (negotiated e).2, opcode := 0xC1, seq := e.mbx.unsolicited
            words := doneWords s outcome code first completed }, e.mbx.unsolicited + 1, log, rfl, rfl, ?_⟩
  unfold reportDone
  rw [if_pos (by exact hup), tellDone, hlog, announce, postMsg_spec, if_pos (by exact hroom), answerAborts]
  simp only [hnone, List.filter_nil, List.foldl_nil]
  rfl

theorem captureErr_armed {e : Engine} (unit code task : Nat) (hrun : e.sch.run = none) (harmed : e.hub.errFirst = none) :
    captureErr e unit code task =
      { e with hub := { e.hub with errFirst := some (BitVec.ofNat 8 unit, BitVec.ofNat 8 code), errTask := task } } := by
  simp only [captureErr, hrun, harmed, Option.map_none]
  rw [← hrun]

/-! ### Combs that rejoin (R415) -/

theorem rejoin_frame (e : Engine) (c : CombId) :
    rejoin e c = { e with fences := (rejoin e c).fences, pwr := (rejoin e c).pwr, ctr := (rejoin e c).ctr, rw := (rejoin e c).rw
                          combs := (rejoin e c).combs } := by
  unfold rejoin
  split <;> rfl

theorem rejoin_fences (e : Engine) (c : CombId) :
    (rejoin e c).fences = if (fenceOf e c).pending then updAt e.fences c.val fun _ => {} else e.fences := by
  unfold rejoin
  cases (fenceOf e c).pending <;> rfl

theorem enabled_rejoin (e : Engine) (c d : CombId) : enabled (rejoin e c) d = (enabled e d || decide (d = c) && (fenceOf e d).pending) := by
  cases hp : (fenceOf e c).pending
  · rw [enabled_of_fences (e' := e) (by rw [rejoin_fences, hp]; rfl)]
    by_cases h : d = c <;> simp [h, hp]
  · rw [enabled_of_fences (e' := { e with fences := updAt e.fences c.val fun _ => {} }) (by rw [rejoin_fences, hp]; rfl), enabled_unfenced]
    by_cases h : d = c
    · simp [h, hp]
    · simp [h, Fin.val_ne_of_ne h]

theorem pending_rejoin (e : Engine) (c d : CombId) : (fenceOf (rejoin e c) d).pending = ((fenceOf e d).pending && !decide (d = c)) := by
  by_cases h : d = c
  · subst h
    cases hp : (fenceOf e d).pending
    · rw [fenceOf, rejoin_fences, hp]
      simpa [fenceOf] using hp
    · rw [fenceOf, rejoin_fences, hp, if_pos rfl, updAt_getElem?]
      cases e.fences[d.val]? <;> simp
  · rw [fenceOf, rejoin_fences]
    split
    · rw [updAt_getElem?_ne _ _ (Fin.val_ne_of_ne (Ne.symm h))]
      simp [fenceOf, h]
    · simp [fenceOf, h]

theorem enabled_rejoins (l : List CombId) (e : Engine) (c : CombId) :
    enabled (l.foldl rejoin e) c = (enabled e c || decide (c ∈ l) && (fenceOf e c).pending) := by
  induction l generalizing e with
  | nil => simp
  | cons d l ih =>
    rw [List.foldl_cons, ih, enabled_rejoin, pending_rejoin]
    by_cases h : c = d <;> simp [h]

/-- The combs of an admission: those enabled and those that rejoin, in ascending order (R294). -/
theorem enabledCombs_rejoined (e : Engine) :
    enabledCombs (allCombs.foldl rejoin e) = allCombs.filter fun c => enabled e c || (fenceOf e c).pending := by
  refine congrArg (List.filter · allCombs) (funext fun c => ?_)
  rw [enabled_rejoins, decide_eq_true (show c ∈ allCombs from List.mem_finRange c), Bool.true_and]

/-! ### The start (R294 step 7) -/

/-- What the start of a graph leaves of the books of graphs: all but the places of regions, a stop that poison asks for and the mark
of the first poison. -/
def startedGraph (g : Graph) : Graph × List Nat :=
  ({ g with regions := [], stop := none, stopUnit := 0, stopTask := 0, firstPoison := false }, g.regions.map Region.handle)

/-- What the start of a graph leaves of the engine. -/
def startedPart (e : Engine) : Option (Graph × List Nat) × List Submitted × SchPhase × Option (Byte × Byte) × Mbx :=
  (e.sch.run.map startedGraph, e.sch.queue, e.sch.phase, e.hub.errFirst, e.mbx)

theorem startedPart_of_eq {e e' : Engine} (hsch : e'.sch = e.sch) (hhub : e'.hub.errFirst = e.hub.errFirst) (hmbx : e'.mbx = e.mbx) :
    startedPart e' = startedPart e := by
  rw [startedPart, startedPart, hsch, hhub, hmbx]

theorem poisonBlind_startedPart : PoisonBlind startedPart where
  log _ _ := rfl
  raised _ := rfl
  marked _ _ _ _ _ _ hrun := by simp [startedPart, startedGraph, hrun]

theorem startedPart_sendBytes (e : Engine) (w : Writer) (a : Nat) (bs : List Byte) (p : Nat → Bool) :
    startedPart (sendBytes e w a bs p) = startedPart e := by
  rw [sendBytes_frame]; rfl

theorem startedPart_onRegion (e : Engine) (h : Nat) {f : Region → Region} (hf : ∀ r, (f r).handle = r.handle) :
    startedPart (onRegion e h f) = startedPart e := by
  cases hrun : e.sch.run <;> simp [startedPart, startedGraph, onRegion, onGraph, hrun, map_updFirst_of_eq _ hf]

theorem startedPart_placeAt (e : Engine) (r : Region) (c : Option CombId) : startedPart (placeAt e r c) = startedPart e := by
  cases c with
  | some c => exact startedPart_onRegion (onComb e c _) r.handle (f := fun r => { r with place := .resident c }) fun _ => rfl
  | none =>
    unfold placeAt zeroSpilled
    rw [sendClear_frame]
    refine Eq.trans (b := startedPart (bump (onRegion e r.handle fun r => { r with place := .spilled }) .broodSpilled 1)) rfl ?_
    rw [startedPart_of_eq (bump_sch ..) (congrArg Hub.errFirst (bump_hub ..)) (bump_mbx ..), startedPart_onRegion]
    exact fun _ => rfl

theorem startedPart_placeRegion (e : Engine) (r : Region) : startedPart (placeRegion e r) = startedPart e := by
  unfold placeRegion
  split
  · rfl
  · split
    · rfl
    · dsimp only
      split <;> exact startedPart_placeAt ..

theorem startedPart_placeRegions (e : Engine) : startedPart (placeRegions e) = startedPart e := by
  unfold placeRegions
  split
  · rfl
  · rw [foldl_keeps startedPart startedPart_placeRegion, foldl_keeps startedPart fun _ _ => by rfl]

theorem startedPart_loadCarousel (m : Mem) (e : Engine) (l : Nat) (c : CombId) : startedPart (loadCarousel m e l c) = startedPart e := by
  unfold loadCarousel landedPoison
  dsimp only
  split
  · rfl
  · split
    · rfl
    · rw [poisonBlind_startedPart.poisonEvent, bumpComb, startedPart_of_eq (bump_sch ..) (congrArg Hub.errFirst (bump_hub ..)) (bump_mbx ..)]
      rfl

/-- The start sets up the running graph and its phase. -/
theorem startedPart_startGraph (m : Mem) (e : Engine) (g : Graph) (hckpt : g.sub.ckpt = none) :
    startedPart (startGraph m e g) = startedPart { e with sch := { e.sch with run := some g, phase := .run } } := by
  unfold startGraph
  simp only [headerAddr, hckpt]
  rw [startedPart_of_eq (logEvent_sch ..) (congrArg Hub.errFirst (logEvent_hub ..)) (logEvent_mbx ..), poisonBlind_startedPart.noteRead]
  have hpos : ∀ e' : Engine, startedPart (match g.gen with | some t => writePositions e' t | none => e') = startedPart e' := by
    intro e'
    cases g.gen with
    | none => rfl
    | some t => exact startedPart_sendBytes ..
  refine (hpos _).trans ?_
  split
  · rw [startedPart_placeRegions]; rfl
  · rw [foldl_keeps startedPart fun e (p : Nat × CombId) => startedPart_loadCarousel m e p.1 p.2, startedPart_placeRegions]; rfl

/-! ### The admission -/

/-- The engine as an admission that was called for sees it: the graph off the queue, HUB_ERR_FIRST armed. -/
def admitting (e : Engine) (rest : List Submitted) : Engine := rearmErr { e with sch := { e.sch with queue := rest } }

theorem graphAdmit_eq {m : Mem} {e : Engine} {sub : Submitted} {rest : List Submitted} (hready : admitReady e = true)
    (hqueue : e.sch.queue = sub :: rest) (hclean : subPoisoned m e sub sub.addr 128 = false) :
    graphAdmit m e = if sub.addr % 128 ≠ 0 ∨ !headerOk (subBytes m e sub sub.addr 128) (parseHeader (subBytes m e sub sub.addr 128)) then
        refuse (admitting e rest) sub codeGraphInvalid false
      else admitTables m (admitting e rest) sub (parseHeader (subBytes m e sub sub.addr 128)) := by
  unfold graphAdmit
  rw [if_neg (by simp [hready]), hqueue]
  exact if_neg (by exact ne_true_of_eq_false hclean)

section Tables
variable (m : Mem) {e e' : Engine} (h : e'.mp = e.mp)
include h

theorem viewBytes_congr (a n : Nat) : viewBytes m e' a n = viewBytes m e a n := by simp only [viewBytes_eq_map, viewByte_congr m h]

theorem viewPoisoned_congr (a n : Nat) : viewPoisoned m e' a n = viewPoisoned m e a n := by
  simp only [viewPoisoned, funext (viewPoison_congr m h)]

theorem tableRow_congr (base size : Nat) : tableRow m e' base size = tableRow m e base size :=
  funext fun _ => viewBytes_congr m h _ _

/-- The carousel table reads as the writes on their way and the fences say. -/
theorem readCarousel_congr (hfences : e'.fences = e.fences) (hd : GraphHdr) : readCarousel m e' hd = readCarousel m e hd := by
  have hcount : admitCount e' = admitCount e := by simp only [admitCount, enabled_of_fences hfences, fenceOf, hfences]
  rw [readCarousel, readCarousel, tableRow_congr m h, viewPoisoned_congr m h, hcount]

/-- The version table reads as the writes on their way say. -/
theorem readVersions_congr (hd : GraphHdr) : readVersions m e' hd = readVersions m e hd := by
  simp only [readVersions, tableRow_congr m h, viewPoisoned_congr m h, viewNat, viewBytes_congr m h]

/-- The generation table reads as the writes on their way say. -/
theorem readGen_congr (hd : GraphHdr) : readGen m e' hd = readGen m e hd := by
  rw [readGen, readGen, viewBytes_congr m h, viewPoisoned_congr m h]

/-- The brood map reads as the writes on their way say. -/
theorem readRegions_congr (hd : GraphHdr) : readRegions m e' hd = readRegions m e hd := by
  rw [readRegions, readRegions, tableRow_congr m h, viewPoisoned_congr m h]

end Tables

/-- Combs that rejoin change fences, islands, counters, registers and combs. -/
theorem rejoins_changes (l : List CombId) (e : Engine) : ∃ fs pwr ctr rw combs,
    l.foldl rejoin e = { e with fences := fs, pwr := pwr, ctr := ctr, rw := rw, combs := combs } := by
  induction l generalizing e with
  | nil => exact ⟨_, _, _, _, _, rfl⟩
  | cons c l ih =>
    obtain ⟨fs, pwr, ctr, rw, combs, h⟩ := ih (rejoin e c)
    rw [List.foldl_cons, h, rejoin_frame]
    exact ⟨_, _, _, _, _, rfl⟩

/-- A refused graph is told to the host and runs no task. -/
theorem refuse_spec {e : Engine} (s : Submitted) (code : Nat) (hrun : e.sch.run = none) (harmed : e.hub.errFirst = none)
    (hup : procUp e 1 = true) (hroom : e.mbx.ring.length < 256) (hnone : e.mbx.abortReplies = []) :
    ∃ msg unsolicited log, msg.words = doneWords s 2 code noTask e.sch.completedCount ∧
      refuse e s code false =
        { e with hub := { e.hub with errFirst := some (0xF0, BitVec.ofNat 8 code), errTask := noTask, graphDone := true }
                 sch := { e.sch with done := insertNat s.gid e.sch.done }
                 mbx := { e.mbx with ring := e.mbx.ring ++ [msg], unsolicited := unsolicited }, log := log } := by
  unfold refuse
  rw [if_neg Bool.false_ne_true]
  dsimp only
  rw [captureErr_armed _ _ _ hrun harmed]
  obtain ⟨msg, unsolicited, log, -, hwords, h⟩ := reportDone_spec
    (e := { e with hub := { e.hub with errFirst := some (BitVec.ofNat 8 0xF0, BitVec.ofNat 8 code), errTask := noTask } })
    s 2 code noTask e.sch.completedCount hup hroom hnone
  exact ⟨msg, unsolicited, log, hwords, h⟩

/-- With every table valid the graph starts with the registers as sampled and the combs of the admission. -/
theorem admitTables_started {m : Mem} {e : Engine} {sub : Submitted} {h : GraphHdr} {tab : List (Nat × Nat)} {vs : List VerEntry}
    {gen : Option Gen} {rs : List Region} (hckpt : sub.ckpt = none) (htab : readCarousel m e h = some tab)
    (hvs : readVersions m e h = some vs) (hgen : readGen m e h = some gen) (hrs : readRegions m e h = some rs)
    (hheld : ∀ x ∈ tab, ∃ v ∈ vs, v.handle = x.1) :
    ∃ ly, startedPart (admitTables m e sub h) = startedPart { e with sch := { e.sch with
      phase := .run
      run := some {
        sub := sub, hdr := h, samples := sampleRegs e, logical := allCombs.filter fun c => enabled e c || (fenceOf e c).pending
        regions := rs, versions := vs, layers := ly, gen := gen, carousel := tab } } } := by
  have hall : (!tab.all fun x => vs.any fun v => v.handle == x.1) = false := by simpa using hheld
  obtain ⟨fs, pwr, ctr, rw, combs, hjoin⟩ := rejoins_changes allCombs e
  have hvs' : readVersions m (allCombs.foldl rejoin e) h = some vs := (readVersions_congr m (by rw [hjoin]) h).trans hvs
  have hgen' : readGen m (allCombs.foldl rejoin e) h = some gen := (readGen_congr m (by rw [hjoin]) h).trans hgen
  have hrs' : readRegions m (allCombs.foldl rejoin e) h = some rs := (readRegions_congr m (by rw [hjoin]) h).trans hrs
  refine ⟨readLayers m (allCombs.foldl rejoin e) sub h, ?_⟩
  simp only [admitTables, htab, hvs', hgen', hrs', hall, Bool.false_eq_true, if_false]
  rw [startedPart_startGraph _ _ _ hckpt, enabledCombs_rejoined, hjoin]
  rfl

/-- Settles O22: `graphAdmit_eq` takes the graph off the queue; `refuse_spec` or `admitTables_started` says the rest. -/
theorem graphAdmitStartsOrRefuses : Obligations.GraphAdmitStartsOrRefuses := by
  unfold Obligations.GraphAdmitStartsOrRefuses
  rintro s rd sub rest m bs h rfl hbs hh hready hqueue hckpt hclean
  have hadmit := hready
  simp only [admitReady, Bool.and_eq_true, Option.isNone_iff_eq_none] at hadmit
  obtain ⟨⟨⟨⟨-, hup⟩, hrun⟩, -⟩, -⟩ := hadmit
  obtain ⟨ctr, hctr⟩ := exists_readEng s rd
  have hstep := graphAdmit_eq (m := landed s.mem rd) (e := { s.eng with ctr := ctr }) hready hqueue hclean
  rw [show subBytes (landed s.mem rd) { s.eng with ctr := ctr } sub sub.addr 128 = subBytes (landed s.mem rd) s.eng sub sub.addr 128
    from rfl, ← hbs, ← hh] at hstep
  rw [exec_graphAdmit, hctr]
  refine ⟨fun hbad hroom hnone => ?_, fun tab vs gen rs haligned hok htab hvs hgen hrs hheld => ?_⟩
  · obtain ⟨msg, unsolicited, log, hwords, hrefuse⟩ := refuse_spec (e := admitting { s.eng with ctr := ctr } rest) sub codeGraphInvalid
      hrun rfl hup hroom hnone
    rw [if_pos (by simpa [imp_iff_not_or] using hbad), hrefuse] at hstep
    rw [hstep]
    refine ⟨_, rfl, hrun, rfl, rfl, rfl, rfl, rfl, ?_, rfl, rfl, rfl⟩
    simp [admitting, hwords, doneWords, noTask, codeGraphInvalid]
  · have htab' := (readCarousel_congr (landed s.mem rd) (e := s.eng) (e' := admitting { s.eng with ctr := ctr } rest) rfl rfl h).trans htab
    have hvs' := (readVersions_congr (landed s.mem rd) (e := s.eng) (e' := admitting { s.eng with ctr := ctr } rest) rfl h).trans hvs
    have hgen' := (readGen_congr (landed s.mem rd) (e := s.eng) (e' := admitting { s.eng with ctr := ctr } rest) rfl h).trans hgen
    have hrs' := (readRegions_congr (landed s.mem rd) (e := s.eng) (e' := admitting { s.eng with ctr := ctr } rest) rfl h).trans hrs
    obtain ⟨ly, hpart⟩ := admitTables_started hckpt htab' hvs' hgen' hrs' hheld
    rw [if_neg (by simpa [haligned] using hok)] at hstep
    rw [← hstep] at hpart
    simp only [startedPart, Prod.mk.injEq] at hpart
    obtain ⟨hrun', hqueue', hphase, herr, hmbx⟩ := hpart
    rw [Option.map_some, Option.map_eq_some_iff] at hrun'
    obtain ⟨g, hg, hsame⟩ := hrun'
    simp only [startedGraph, Prod.mk.injEq, Graph.mk.injEq] at hsame
    obtain ⟨⟨hsub, hhdr, hsamples, hlogical, -, hversions, -, -, -, hfetch, htasks, -, -, -, hcompleted, -⟩, hregions⟩ := hsame
    exact ⟨_, g, rfl, hg, hsub, hhdr, hsamples, hlogical, hfetch, htasks, hcompleted, hregions, hversions, hqueue', hphase, herr, hmbx,
      rfl, rfl⟩

end Sys2Proof.Machine
end

section
/-! Proofs: the end of a graph (R225, R273, R518). -/

namespace Sys2Proof.Machine

/-! ### Parts of the engine that a graph's end leaves -/

/-- The engine without its counters, the records and writes on their way, and the links. -/
def besidesTraffic (e : Engine) : Engine := { e with ctr := [], log := {}, mp := {}, lnk := {} }

/-- The engine without what works on a graph's tasks. -/
def hostSide (e : Engine) : Engine := besidesTraffic { e with combs := [], hf := {}, cap := {} }

section Parts
variable {e e' : Engine}

theorem parts_of_hostSide (h : hostSide e' = hostSide e) : e'.hub = e.hub ∧ e'.rw = e.rw ∧ e'.fences = e.fences ∧ e'.boot = e.boot ∧
    e'.fwp = e.fwp ∧ e'.mbx = e.mbx ∧ e'.sch = e.sch ∧ e'.pwr = e.pwr := by
  simp only [hostSide, besidesTraffic, Engine.mk.injEq] at h
  obtain ⟨hhub, hrw, -, -, hfences, hboot, hfwp, hmbx, -, hsch, -, -, -, -, hpwr, -⟩ := h
  exact ⟨hhub, hrw, hfences, hboot, hfwp, hmbx, hsch, hpwr⟩

theorem hostSide_of_besidesTraffic (h : besidesTraffic e' = besidesTraffic e) : hostSide e' = hostSide e := by
  simp only [hostSide, besidesTraffic, Engine.mk.injEq, true_and] at h ⊢
  obtain ⟨hhub, hrw, hfences, hboot, hfwp, hmbx, hsch, -, -, -, hpwr, hsb, htap⟩ := h
  exact ⟨hhub, hrw, hfences, hboot, hfwp, hmbx, hsch, hpwr, hsb, htap⟩

theorem combs_of_besidesTraffic (h : besidesTraffic e' = besidesTraffic e) : e'.combs = e.combs := by
  simp only [besidesTraffic, Engine.mk.injEq] at h
  obtain ⟨-, -, -, -, -, -, -, -, -, -, hcombs, -⟩ := h
  exact hcombs

end Parts

theorem besidesTraffic_bump (e : Engine) (k : Ctr) (n : Nat) : besidesTraffic (bump e k n) = besidesTraffic e := by
  rw [(bump_spec e k n).2.2]; rfl

theorem besidesTraffic_logEvent (e : Engine) (i t n : Nat) (bs : List Byte) : besidesTraffic (logEvent e i t n bs) = besidesTraffic e := by
  rw [logEvent_frame]; rfl

theorem besidesTraffic_sendBytes (e : Engine) (w : Writer) (a : Nat) (bs : List Byte) (p : Nat → Bool) :
    besidesTraffic (sendBytes e w a bs p) = besidesTraffic e := by
  rw [sendBytes_frame]; rfl

theorem besidesTraffic_writeVersions (e : Engine) : besidesTraffic (writeVersions e) = besidesTraffic e := by
  unfold writeVersions
  split
  · rfl
  · refine foldl_keeps besidesTraffic (fun x p => ?_) _ e
    refine (besidesTraffic_sendBytes ..).trans ?_
    split
    · exact (besidesTraffic_logEvent ..).trans (besidesTraffic_bump ..)
    · rfl

theorem besidesTraffic_returnCredit (e : Engine) (p : PortId) (ch : Nat) : besidesTraffic (returnCredit e p ch) = besidesTraffic e := rfl

theorem besidesTraffic_freeOut (e : Engine) (b : Bucket) : besidesTraffic (freeOut e b) = besidesTraffic e := by
  refine foldl_keeps besidesTraffic (fun x y => ?_) _ e
  cases y.1 with
  | none => rfl
  | some p => exact besidesTraffic_returnCredit ..

theorem besidesTraffic_dropWaiting (e : Engine) (gone : Flit → Bool) : besidesTraffic (dropWaiting e gone) = besidesTraffic e := by
  refine foldl_keeps besidesTraffic (fun x p => ?_) _ e
  dsimp only
  rw [foldl_keeps besidesTraffic fun y f => by rw [besidesTraffic_returnCredit, besidesTraffic_bump]]
  rfl

/-! ### What the engine held for the graph is released -/

/-- A comb gives up what it held for the graph. -/
def releaseComb (e : Engine) (c : CombId) : Engine := dropReads (onComb e c idleComb) c

theorem combs_releaseComb (e : Engine) (c : CombId) : (releaseComb e c).combs = (onComb e c idleComb).combs := rfl

theorem ctxs_releaseCombs (l : List CombId) {e : Engine} (hlen : e.combs.length = 50) (c : CombId) :
    (combOf (l.foldl releaseComb e) c).ctxs = if c ∈ l then [none, none, none, none] else (combOf e c).ctxs := by
  induction l generalizing e with
  | nil => rfl
  | cons d l ih =>
    have hlen' : (releaseComb e d).combs.length = 50 := by rw [combs_releaseComb]; simpa using hlen
    have hd : combOf (releaseComb e d) c = combOf (onComb e d idleComb) c := rfl
    rw [List.foldl_cons, ih hlen', hd]
    by_cases hc : c = d
    · subst hc
      have hin : c.val < e.combs.length := hlen.symm ▸ c.isLt
      simp [combOf_onComb_self idleComb hin, idleComb]
    · simp [hc, combOf_onComb_ne idleComb hc]

theorem combOf_congr {e e' : Engine} (h : e'.combs = e.combs) (c : CombId) : combOf e' c = combOf e c := by rw [combOf, combOf, h]

/-- The activation stores and the brood buffers as no graph runs hold no context. -/
theorem ctxs_freeBrood_releaseStores {e : Engine} {c : CombId} (hc : c.val < e.combs.length) (hen : enabled e c = true) :
    (combOf (freeBrood (releaseStores e)) c).ctxs = (combOf e c).ctxs := by
  rw [freeBrood, combOf_mapCombs (e := releaseStores e) _ (by simpa [releaseStores] using hc) hen]
  simp [combOf, releaseStores, List.getElem?_eq_getElem hc]

/-- Once a graph is released, none runs and every enabled comb's contexts are empty. -/
theorem releaseGraph_spec (e : Engine) :
    hostSide (releaseGraph e) = hostSide { e with sch := { e.sch with run := none, phase := .idle } } ∧
    (e.combs.length = 50 → ∀ c, enabled e c = true → (combOf (releaseGraph e) c).ctxs = [none, none, none, none]) := by
  have hhost : hostSide ((enabledCombs e).foldl releaseComb e) = hostSide e := foldl_keeps hostSide (fun _ _ => by rfl) _ e
  have hlen : ((enabledCombs e).foldl releaseComb e).combs.length = e.combs.length :=
    foldl_keeps (fun x : Engine => x.combs.length) (fun x c => by rw [combs_releaseComb]; simp) _ e
  have hctx : e.combs.length = 50 → _ := fun h50 => ctxs_releaseCombs (enabledCombs e) h50
  unfold releaseGraph
  change hostSide { dropWaiting _ _ with sch := _ } = _ ∧ (_ → ∀ c, _ → (combOf { dropWaiting _ _ with sch := _ } c).ctxs = _)
  rw [show (enabledCombs e).foldl (fun e c => dropReads (onComb e c idleComb) c) e = (enabledCombs e).foldl releaseComb e from rfl]
  generalize (enabledCombs e).foldl releaseComb e = e₁ at *
  generalize hfree : freeBrood (releaseStores (forgetReads e₁ fun d => d == .light)) = e₂
  have hout := foldl_keeps besidesTraffic besidesTraffic_freeOut e₂.lnk.buckets e₂
  generalize e₂.lnk.buckets.foldl freeOut e₂ = e₃ at *
  generalize hidle : ({ e₃ with hf := _, cap := _, lnk := _, mp := _ } : Engine) = e₄
  have hdrop := besidesTraffic_dropWaiting e₄ fun _ => true
  generalize dropWaiting e₄ (fun _ => true) = e₅ at *
  have hsides : hostSide e₅ = hostSide e :=
    calc hostSide e₅ = hostSide e₄ := hostSide_of_besidesTraffic hdrop
      _ = hostSide e₃ := by rw [← hidle]; rfl
      _ = hostSide e₂ := hostSide_of_besidesTraffic hout
      _ = hostSide e₁ := by rw [← hfree]; rfl
      _ = hostSide e := hhost
  refine ⟨congrArg (fun x : Engine => { x with sch := { x.sch with run := none, phase := .idle } }) hsides, fun h50 c hen => ?_⟩
  have hcombs : e₅.combs = e₂.combs :=
    (combs_of_besidesTraffic hdrop).trans ((by rw [← hidle] : e₄.combs = e₃.combs).trans (combs_of_besidesTraffic hout))
  have hen₁ : enabled e₁ c = true := (enabled_of_fences (parts_of_hostSide hhost).2.2.1 c).trans hen
  calc (combOf { e₅ with sch := _ } c).ctxs = (combOf e₂ c).ctxs := congrArg Comb.ctxs (combOf_congr hcombs c)
    _ = (combOf e₁ c).ctxs := by
      rw [← hfree]
      exact ctxs_freeBrood_releaseStores (e := forgetReads e₁ _) (hlen.symm ▸ h50.symm ▸ c.isLt) hen₁
    _ = [none, none, none, none] := by
      rw [hctx h50 c, if_pos (mem_enabledCombs.2 hen)]

/-! ### The graph's end -/

theorem procUp_congr {e e' : Engine} (hfwp : e'.fwp = e.fwp) (hpwr : e'.pwr = e.pwr) (p : Nat) : procUp e' p = procUp e p := by
  simp only [procUp, procOf, islandOf, hfwp, hpwr]

/-- What a graph's end leaves and does for the host (R518): GRAPH_DONE is set and posted, no graph runs, no enabled comb holds a context. -/
structure EndedGraph (e t : Engine) (g : Graph) (outcome code : Nat) : Prop where
  run : t.sch.run = none
  phase : t.sch.phase = .idle
  queue : t.sch.queue = e.sch.queue
  done : t.sch.done = insertNat g.sub.gid e.sch.done
  graphDone : t.hub.graphDone = true
  errStatus : t.hub.errStatus = e.hub.errStatus
  boot : t.boot = e.boot
  rw : t.rw = e.rw
  posted : ∃ msg, t.mbx.ring = e.mbx.ring ++ [msg] ∧ msg.opcode = 0xC1 ∧
    msg.words = doneWords g.sub outcome code (g.firstErr.getD noTask) e.sch.completedCount
  contexts : e.combs.length = 50 → ∀ c, enabled e c = true → (combOf t c).ctxs = [none, none, none, none]

theorem endGraph_ended {e : Engine} {g : Graph} (outcome code : Nat) (hrun : e.sch.run = some g) (hckpt : g.sub.ckpt = none)
    (hup : procUp e 1 = true) (hroom : e.mbx.ring.length < 256) (hnone : e.mbx.abortReplies = []) (hhost : e.mbx.host ≠ .draining) :
    EndedGraph e (endGraph e outcome code) g outcome code := by
  have hver := besidesTraffic_writeVersions e
  unfold endGraph
  simp only [hrun, hckpt, Option.isSome_none, Bool.false_and, Bool.false_eq_true, if_false]
  generalize writeVersions e = e₁ at *
  obtain ⟨hhub, hrw, hfences, hboot, hfwp, hmbx, hsch, hpwr⟩ := parts_of_hostSide (hostSide_of_besidesTraffic hver)
  obtain ⟨msg, unsolicited, log, hop, hwords, htold⟩ := reportDone_spec
    (e := { e₁ with sch := { e₁.sch with lastTable := some (g.hdr.versionTable, g.hdr.versionEntries), fetched := g.fetch } })
    g.sub outcome code (g.firstErr.getD noTask) e₁.sch.completedCount
    ((procUp_congr hfwp hpwr 1).trans hup) (by rw [hmbx]; exact hroom) (by rw [hmbx]; exact hnone)
  rw [htold]
  generalize htoldEng : ({ e₁ with hub := _, mbx := _, log := _, sch := _ } : Engine) = e₂
  obtain ⟨hreleased, hctx⟩ := releaseGraph_spec e₂
  obtain ⟨hhub', hrw', -, hboot', -, hmbx', hsch', -⟩ := parts_of_hostSide hreleased
  have hkept : orphanIfDue (releaseGraph e₂) = releaseGraph e₂ := by
    have hdrain : (releaseGraph e₂).mbx.host ≠ .draining := by
      rw [hmbx', ← htoldEng]
      exact (congrArg Mbx.host hmbx).trans_ne hhost
    simp [orphanIfDue, hdrain]
  rw [hkept]
  subst htoldEng
  exact
    { run := by rw [hsch'], phase := by rw [hsch']
      queue := by rw [hsch']; dsimp only; rw [hsch]
      done := by rw [hsch']; dsimp only; rw [hsch]
      graphDone := by rw [hhub']
      errStatus := by rw [hhub']; dsimp only; rw [hhub]
      boot := hboot'.trans hboot, rw := hrw'.trans hrw
      posted := ⟨msg, by rw [hmbx']; dsimp only; rw [hmbx], hop, by rw [hwords, hsch]⟩
      contexts := fun h50 c hen =>
        hctx ((congrArg List.length (combs_of_besidesTraffic hver)).trans h50) c ((enabled_of_fences hfences c).trans hen) }

end Sys2Proof.Machine
end

section
/-! Proofs: what the frames of a stopped graph leave as their rows go out (R103, R315, R420). -/

namespace Sys2Proof.Machine

/-! ### Parts of the engine that a frame's drain unit leaves -/

/-- A part of the engine that does not look at combs, counters and poison events. -/
structure LeftByReads {β : Type} (p : Engine → β) : Prop where
  onComb : ∀ e c f, p (onComb e c f) = p e
  bump : ∀ e k n, p (bump e k n) = p e
  poisonEvent : ∀ e i n, p (poisonEvent e i n) = p e

namespace LeftByReads

section
variable {β : Type} {p : Engine → β} (hp : LeftByReads p)
include hp

theorem onFrame (e : Engine) (c : CombId) (f : FrameId) (g : Frame → Frame) : p (onFrame e c f g) = p e := hp.onComb ..
theorem onRing (e : Engine) (c : CombId) (r : Nat) (g : Ring → Ring) : p (onRing e c r g) = p e := hp.onComb ..
theorem onCtx (e : Engine) (c : CombId) (x : Fin 4) (g : Ctx → Ctx) : p (onCtx e c x g) = p e := hp.onComb ..
theorem bumpComb (e : Engine) (c : CombId) (k : CombCtr) (n : Nat) : p (bumpComb e c k n) = p e := hp.bump ..

theorem checkSlots (e : Engine) (c : CombId) (rs : List (Nat × Reader)) : p (checkSlots e c rs) = p e := by
  refine foldl_keeps p (fun e rk => ?_) rs e
  cases ringOf e c rk.1 with
  | none => rfl
  | some g =>
    dsimp only
    split
    · rfl
    · rw [hp.poisonEvent, hp.bumpComb, hp.onRing]

theorem takeLanded (e : Engine) (c : CombId) (f : FrameId) (k : Ctx) (t : TaskRec) : p (takeLanded e c f k t) = p e := by
  refine (hp.onFrame ..).trans ?_
  rw [foldl_keeps p fun e r => hp.onRing .., hp.checkSlots]

end

end LeftByReads

/-- A part of the engine that does not look at regions, at writes on their way and at what a task's outputs count either. -/
structure LeftByDrain {β : Type} (p : Engine → β) : Prop extends LeftByReads p where
  onTask : ∀ e i (f : Task → Task), (∀ t, (f t).late = t.late) → p (onTask e i f) = p e
  onRegion : ∀ e h f, p (onRegion e h f) = p e
  sendLine : ∀ e w l bs a b, p (sendLine e w l bs a b) = p e

namespace LeftByDrain

section
variable {β : Type} {p : Engine → β} (hp : LeftByDrain p)
include hp

theorem markOut (e : Engine) (i : Nat) : p (markOut e i) = p e := hp.onTask _ _ _ fun _ => rfl
theorem markPoison (e : Engine) (i j n : Nat) : p (Machine.poisonEvent (Machine.markOut e i) j n) = p e := by rw [hp.poisonEvent, hp.markOut]

theorem finishTile (e : Engine) (c : CombId) (f : FrameId) (fd : Feed) (o : OutJob) (running : List (List Word)) :
    p (finishTile e c f fd o running) = p e := by
  dsimp only [Machine.finishTile]
  split
  · exact hp.onFrame ..
  · rw [releaseTile, foldl_keeps p fun e r => hp.onRing e c r _, hp.onFrame]

/-! #### Stores -/

theorem dropEntry (e : Engine) (c : CombId) (en : Nat × Nat) : p (dropEntry e c en) = p e := by
  rw [Machine.dropEntry, hp.bumpComb, hp.onComb]

theorem keepLine (e : Engine) (c : CombId) (d : Nat) (l : ActLine) : p (keepLine e c d l) = p e := by
  dsimp only [Machine.keepLine]
  generalize hroom : (if (l.mb, l.layer) ∉ (actEntries (combOf e c).act).filter (fun x => x.1 == l.mb) ∧ d ≤ _ then _ else e) = e₁
  have hkept : p e₁ = p e := by
    rw [← hroom]
    split
    · split
      · exact hp.dropEntry ..
      · rfl
    · rfl
  split
  · rw [hp.onComb, hkept]
  · split
    · split
      · split
        · exact hkept
        · rw [hp.onComb, hp.dropEntry, hkept]
      · exact hkept
    · rw [hp.onComb, hkept]

theorem storeLine (m : Mem) (e : Engine) (c : CombId) (x : Fin 4) (i : Nat) (t : TaskRec) (l : Nat) (bs : List (Nat × Byte)) (b : Bool) :
    p (storeLine m e c x i t l bs b) = p e := by
  dsimp only [Machine.storeLine]
  have hsent : p (if b then Machine.bumpComb (Machine.sendLine e (.comb c x i) l (lastBytes bs) b) c .linesOut 1
      else Machine.sendLine e (.comb c x i) l (lastBytes bs) b) = p e := by
    split
    · rw [hp.bumpComb, hp.sendLine]
    · exact hp.sendLine ..
  split
  · rw [hp.keepLine, hsent]
  · exact hsent

theorem sendBit (m : Mem) (e : Engine) (w : Writer) (b : Nat) (on bad : Bool) : p (sendBit m e w b on bad) = p e := hp.sendLine ..

theorem storeZmap (m : Mem) (e : Engine) (c : CombId) (x : Fin 4) (i : Nat) (d z : Desc) (ix zx : IxSrc) (l : List (Nat × Nat × Word)) :
    p (storeZmap m e c x i d z ix zx l) = p e := by
  dsimp only [Machine.storeZmap]
  split
  · rfl
  · refine foldl_keeps p (fun e v => ?_) _ e
    have hmis : p (match (locate e z zx false v.2 v.1).block with
        | some b => Machine.bumpComb (Machine.bumpComb (Machine.bumpComb e c .oobClamped (locate e z zx false v.2 v.1).clamped) c .oobFilled
            (locate e z zx false v.2 v.1).filled) c .misaligned (b2n (b % 64 != 0))
        | none => Machine.bumpComb (Machine.bumpComb e c .oobClamped (locate e z zx false v.2 v.1).clamped) c .oobFilled
            (locate e z zx false v.2 v.1).filled) = p e := by
      split <;> simp only [hp.bumpComb]
    split
    · split
      · rw [foldl_keeps p fun e n => hp.sendBit .., hp.sendBit]
        exact hmis
      · exact (hp.sendBit ..).trans hmis
    · exact (hp.markPoison ..).trans hmis
    · exact hmis

theorem storeOut (m : Mem) (e : Engine) (c : CombId) (x : Fin 4) (k : Ctx) (t : TaskRec) (l : List (Nat × Nat × Word)) (b : Bool) :
    p (storeOut m e c x k t l b) = p e := by
  have hmark : ∀ (P : Prop) [Decidable P] e', p (if P then Machine.poisonEvent (Machine.markOut e' k.task) c.val codeHalted else e') = p e' :=
    fun P _ e' => by
      split
      · exact hp.markPoison ..
      · rfl
  unfold Machine.storeOut
  split
  · rfl
  · dsimp only
    split
    · rw [hp.storeZmap, hmark, foldl_keeps p fun e (y : Nat × List (Nat × Byte) × Bool) => hp.storeLine ..]
      simp only [hp.bumpComb]
    · rw [hmark, foldl_keeps p fun e (y : Nat × List (Nat × Byte) × Bool) => hp.storeLine ..]
      simp only [hp.bumpComb]

/-! #### Adds -/

theorem addRow (e : Engine) (c : CombId) (h step i : Nat) (adds : List (Nat × Word)) (b : Bool) : p (addRow e c h step i adds b) = p e := by
  unfold Machine.addRow
  split
  · rfl
  · split
    · rfl
    · dsimp only
      generalize List.foldl _ _ adds = acc
      split
      · simp only [hp.bumpComb, hp.onRegion]
      · simp only [hp.markPoison, hp.bumpComb, hp.onRegion]

theorem handAdds (e : Engine) (c : CombId) (t : TaskRec) (i tile reach row : Nat) (adds : List (Nat × Nat × Word))
    (poison brood ends last waited : Bool) : p (handAdds e c t i tile reach row adds poison brood ends last waited) = p e := by
  dsimp only [Machine.handAdds]
  rw [foldl_keeps p fun e h => hp.onComb .., hp.bumpComb, foldl_keeps p fun e h => ?_]
  split
  · rfl
  · exact hp.addRow ..

/-! #### Rows -/

theorem writeRow (m : Mem) (e : Engine) (c : CombId) (f : FrameId) (o : OutJob) (b : Bool) : p (writeRow m e c f o b) = p e := by
  dsimp only [Machine.writeRow]
  rw [hp.onFrame]
  have hmark : ∀ (P : Prop) [Decidable P] e', p (if P then Machine.markOut e' o.task else e') = p e' := fun P _ e' => by
    split
    · exact hp.markOut ..
    · rfl
  split
  all_goals
    simp only [hp.handAdds, hmark]
    split
    · split
      · rfl
      · split
        · exact (hp.storeOut ..).trans (hp.onCtx ..)
        · rfl
    · exact hp.onFrame ..
    · rfl

theorem settleTile (e : Engine) (c : CombId) (i tile : Nat) : p (settleTile e c i tile) = p e :=
  hp.onTask _ _ _ fun t => by
    split <;> rfl

theorem endJob (m : Mem) (e : Engine) (c : CombId) (f : FrameId) (o : OutJob) : p (endJob m e c f o) = p e := by
  dsimp only [Machine.endJob]
  generalize hoff : (if (storing o.record || spillPending (Machine.onFrame e c f _) c o.task o.tile) = true then _ else _) = e₁
  have hkept : p e₁ = p e := by
    rw [← hoff]
    split
    · exact hp.onFrame ..
    · exact (hp.onTask _ _ _ fun _ => by rfl).trans (hp.onFrame ..)
  have hchain : ∀ e', p (chainHandle m e' c o) = p e' := fun e' => by
    unfold chainHandle
    split
    · rfl
    · dsimp only
      split
      · rfl
      · exact hp.onComb ..
  split
  · exact hkept
  · rw [hchain, hp.settleTile, hp.onFrame, hp.onFrame, hkept]

/-- A row written out without a fault. -/
theorem writeout (m : Mem) (e : Engine) (c : CombId) (f : FrameId) : p (writeout m e c f {}) = p e := by
  unfold Machine.writeout
  split
  · rfl
  · split
    · rfl
    · next o os hout =>
      extract_lets last e₁
      have hformed : p e₁ = p e := by
        unfold e₁
        split
        · split
          · rw [hp.finishTile, checkSides, hp.checkSlots]
          · rfl
        · rfl
      split
      · exact hformed
      · next o' os' hout' =>
        extract_lets adds hs placed brood laned written
        have hwritten : p written = p e := by
          have hlaned : laned = e₁ := if_neg Bool.false_ne_true
          exact (hp.writeRow ..).trans ((congrArg p hlaned).trans hformed)
        generalize placed = ready
        simp only [Bool.false_eq_true, if_false]
        split
        · exact hformed
        · split
          · split
            · exact hformed
            · rw [hp.bumpComb, hp.onFrame, hformed]
          · split
            · exact hformed
            · split
              · split
                · rw [hp.endJob, hwritten]
                · exact hwritten
              · exact hwritten

end

end LeftByDrain

/-! ### A halt of the frames -/

/-- What a halt of the frames leaves: all but combs, what poison marks and what tasks have done. -/
def besidesFrames (e : Engine) :
    List Fence × Boot × AMap RegName Word × Fwp × Mbx × Power × Nat × Bool × Sched × Option (Submitted × List (Option Nat)) :=
  (e.fences, e.boot, e.rw, e.fwp, e.mbx, e.pwr, e.combs.length, e.hub.graphDone, { e.sch with run := none },
    e.sch.run.map fun g => (g.sub, g.tasks.map Task.late))

theorem poisonBlind_besidesFrames : PoisonBlind besidesFrames where
  log _ _ := rfl
  raised _ := rfl
  marked _ _ _ _ _ _ hrun := by simp [besidesFrames, hrun]

theorem leftByDrain_besidesFrames : LeftByDrain besidesFrames where
  onComb e c f := by simp [besidesFrames]
  bump e k n := by rw [(bump_spec e k n).2.2]; rfl
  poisonEvent := poisonBlind_besidesFrames.poisonEvent
  onTask e i f hf := by
    cases hrun : e.sch.run <;> simp [besidesFrames, onTask, onGraph, hrun, map_updFirst_of_eq _ hf]
  onRegion e h f := by cases hrun : e.sch.run <;> simp [besidesFrames, onRegion, onGraph, hrun]
  sendLine _ _ _ _ _ _ := rfl

theorem besidesFrames_haltFrames (m : Mem) (e : Engine) : besidesFrames (haltFrames m e) = besidesFrames e := by
  have hflush : ∀ e c f, besidesFrames (flushFrame m c e f) = besidesFrames e := fun e c f =>
    foldl_keeps besidesFrames (fun x _ => leftByDrain_besidesFrames.writeout m x c f) _ e
  unfold haltFrames
  dsimp only
  rw [foldl_keeps besidesFrames fun x c => foldl_keeps besidesFrames (fun y f => hflush y c f) _ x]
  simp [besidesFrames, mapCombs]

end Sys2Proof.Machine
end

section
/-! Proofs: a stop that was asked for ends the graph (R315, R397, R468, R518). -/

namespace Sys2Proof.Machine

theorem exec_graphStop (s : State) :
    exec .graphStop s = .next { s with eng := graphStop s.mem s.eng } := rfl

/-! ### Steps of a stop -/

theorem besidesFrames_captureErr (e : Engine) (unit code task : Nat) : besidesFrames (captureErr e unit code task) = besidesFrames e := by
  unfold captureErr
  cases hfirst : e.hub.errFirst <;> cases hrun : e.sch.run <;> simp [besidesFrames, hfirst, hrun]

theorem besidesFrames_writeCompletion {e : Engine} (t : Task) (u : ExecUnit) (status code : Nat)
    (hckpt : ∀ g, e.sch.run = some g → g.sub.ckpt = none) : besidesFrames (writeCompletion e t u status code) = besidesFrames e := by
  unfold writeCompletion
  cases hrun : e.sch.run with
  | none => rfl
  | some g =>
    simp only [hckpt g hrun, Option.isSome_none, Bool.false_eq_true, false_and, if_false]
    have hsent : besidesFrames (sendAll e (.hub noTask) (g.hdr.completionBase + 8 * t.index) (completionBytes e t u status code) false) =
        besidesFrames e := by rw [sendAll, sendBytes_frame]; rfl
    split
    · exact (besidesFrames_captureErr ..).trans hsent
    · exact hsent

theorem besidesFrames_stopTask {e : Engine} (code : Nat) (failed : Bool) (t : Task)
    (hckpt : ∀ g, e.sch.run = some g → g.sub.ckpt = none) : besidesFrames (stopTask code failed e t) = besidesFrames e := by
  unfold stopTask
  split
  · split
    · exact besidesFrames_writeCompletion _ _ _ _ hckpt
    · rfl
  · split
    · rfl
    · exact besidesFrames_writeCompletion _ _ _ _ hckpt
  · rfl

/-- A halt leaves the graph running, with its submission and its tasks' late failures. -/
theorem exists_run_of_besidesFrames {e e' : Engine} {g : Graph} (h : besidesFrames e' = besidesFrames e) (hrun : e.sch.run = some g) :
    ∃ g', e'.sch.run = some g' ∧ g'.sub = g.sub ∧ g'.tasks.map Task.late = g.tasks.map Task.late := by
  simp only [besidesFrames, Prod.mk.injEq] at h
  obtain ⟨-, -, -, -, -, -, -, -, -, hmap⟩ := h
  rw [hrun, Option.map_some, Option.map_eq_some_iff] at hmap
  obtain ⟨g', hg', hpair⟩ := hmap
  obtain ⟨hsub, hlate⟩ := Prod.mk.inj hpair
  exact ⟨g', hg', hsub, hlate⟩

theorem ckpt_of_besidesFrames {e e' : Engine} (h : besidesFrames e' = besidesFrames e) (hckpt : ∀ g, e.sch.run = some g → g.sub.ckpt = none)
    (g : Graph) (hg : e'.sch.run = some g) : g.sub.ckpt = none := by
  obtain ⟨g', hg', hsub, -⟩ := exists_run_of_besidesFrames h.symm hg
  exact hsub ▸ hckpt g' hg'

theorem besidesFrames_stopTasks (code : Nat) (failed : Bool) (l : List Task) {e : Engine}
    (hckpt : ∀ g, e.sch.run = some g → g.sub.ckpt = none) : besidesFrames (l.foldl (stopTask code failed) e) = besidesFrames e := by
  induction l generalizing e with
  | nil => rfl
  | cons t l ih =>
    have hone := besidesFrames_stopTask code failed t hckpt
    rw [List.foldl_cons, ih (ckpt_of_besidesFrames hone hckpt), hone]

theorem besidesTraffic_multicast (e : Engine) (g : Group) (f : Flit) : besidesTraffic (multicast e g f) = besidesTraffic e := by
  have hdown : besidesTraffic (sendDown e g f) = besidesTraffic e := foldl_keeps besidesTraffic (fun _ _ => by rfl) _ e
  exact (show besidesTraffic (multicast e g f) = besidesTraffic (sendDown e g f) from rfl).trans hdown

theorem besidesTraffic_leaderFail (f : Flit) (e : Engine) (g : Group) : besidesTraffic (leaderFail f e g) = besidesTraffic e := by
  dsimp only [leaderFail]
  split
  · rfl
  · split
    · exact besidesTraffic_multicast ..
    · split <;> exact besidesTraffic_multicast ..

theorem besidesTraffic_tellLeader (e : Engine) (b : Bucket) (op reason : Nat) : besidesTraffic (tellLeader e b op reason) = besidesTraffic e := by
  unfold tellLeader
  split
  · unfold sendUp
    split <;> rfl
  · rfl

/-- A stop is told to other members over the links alone (R397). -/
theorem besidesTraffic_tellStopped (e : Engine) : besidesTraffic (tellStopped e) = besidesTraffic e := by
  refine foldl_keeps besidesTraffic (fun x b => ?_) _ e
  unfold tellStop
  split
  · split
    · exact besidesTraffic_leaderFail ..
    · exact besidesTraffic_tellLeader ..
  · rfl

theorem besidesFrames_of_besidesTraffic {e e' : Engine} (h : besidesTraffic e' = besidesTraffic e) : besidesFrames e' = besidesFrames e := by
  obtain ⟨hhub, hrw, hfences, hboot, hfwp, hmbx, hsch, hpwr⟩ := parts_of_hostSide (hostSide_of_besidesTraffic h)
  simp only [besidesFrames, hhub, hrw, hfences, hboot, hfwp, hmbx, hsch, hpwr, combs_of_besidesTraffic h]

/-! ### The stop as a whole -/

/-- The stop's error is recorded, unless the host asked for the stop (R468). -/
def recordStop (e : Engine) (code : Nat) : Engine := if code = codeAborted then e else raiseErr e errGraphStopped

theorem errBit_recordStop {e : Engine} {code : Nat} (h : code ≠ codeAborted) : errBit (recordStop e code) errGraphStopped = true := by
  rw [recordStop, if_neg h, errBit_raiseErr e (by decide), decide_eq_true rfl, Bool.or_true]

/-- A stop that was asked for ends the graph after the frames have halted, its tasks' records are written and its error is recorded. -/
theorem graphStop_endGraph (m : Mem) {e : Engine} {g : Graph} {code : Nat} (hrun : e.sch.run = some g) (hstop : g.stop = some code)
    (halive : hubAlive e = true) (hckpt : g.sub.ckpt = none) :
    ∃ e' g', besidesFrames e' = besidesFrames e ∧ e'.sch.run = some g' ∧ (code ≠ codeAborted → errBit e' errGraphStopped = true) ∧
      graphStop m e = endGraph e' (if code = codeAborted then 3 else 1) (stopReport g' code) := by
  have hckpt' : ∀ g', e.sch.run = some g' → g'.sub.ckpt = none := fun g' hg' => by
    rw [hrun, Option.some.injEq] at hg'
    exact hg' ▸ hckpt
  have hhalt := besidesFrames_haltFrames m e
  unfold graphStop
  simp only [hrun, hstop, halive, Bool.not_true, Bool.false_eq_true, if_false]
  generalize haltFrames m e = e₁ at *
  obtain ⟨g₁, hg₁, -, -⟩ := exists_run_of_besidesFrames hhalt hrun
  simp only [hg₁]
  have hone := (besidesFrames_stopTasks code true g₁.tasks (ckpt_of_besidesFrames hhalt hckpt')).trans hhalt
  have htwo := (besidesFrames_stopTasks code false g₁.tasks (ckpt_of_besidesFrames hone hckpt')).trans hone
  generalize g₁.tasks.foldl (stopTask code false) (g₁.tasks.foldl (stopTask code true) e₁) = e₂ at *
  have hcaptured := (besidesFrames_captureErr e₂ g.stopUnit.toNat code g.stopTask).trans htwo
  generalize captureErr e₂ g.stopUnit.toNat code g.stopTask = e₃ at *
  have hrecorded : besidesFrames (recordStop e₃ code) = besidesFrames e₃ := by
    unfold recordStop
    split <;> rfl
  have htold := besidesTraffic_tellStopped (recordStop e₃ code)
  have hall := (besidesFrames_of_besidesTraffic htold).trans (hrecorded.trans hcaptured)
  obtain ⟨g', hg', -, -⟩ := exists_run_of_besidesFrames hall hrun
  refine ⟨tellStopped (recordStop e₃ code), g', hall, hg', fun hcode => ?_, ?_⟩
  · rw [errBit_congr (parts_of_hostSide (hostSide_of_besidesTraffic htold)).1]
    exact errBit_recordStop hcode
  · rw [show (if code = codeAborted then e₃ else raiseErr e₃ errGraphStopped) = recordStop e₃ code from rfl, hg']

/-- A stop of the poison policy reports its own code unless a write fault of a task came before it. -/
theorem stopReport_of_lates {g g' : Graph} {code : Nat} (hsame : g'.tasks.map Task.late = g.tasks.map Task.late)
    (hlate : code = codeHalted → ∀ tk ∈ g.tasks, tk.late ≠ some codePageFault) : stopReport g' code = code := by
  unfold stopReport
  split
  · next h =>
    obtain ⟨hcode, hany⟩ := h
    obtain ⟨t, ht, hpf⟩ := List.any_eq_true.1 hany
    obtain ⟨t', ht', hsame'⟩ := List.mem_map.1 (hsame ▸ List.mem_map_of_mem (f := Task.late) ht)
    exact absurd (hsame'.trans (by simpa using hpf)) (hlate hcode t' ht')
  · rfl

/-- Settles O27: `graphStop_endGraph` reduces the stop to the end of a graph, which `endGraph_ended` describes. -/
theorem graphStopEndsGraph : Obligations.GraphStopEndsGraph := by
  unfold Obligations.GraphStopEndsGraph
  intro s g code hrun hstop
  rw [exec_graphStop]
  refine ⟨fun hdead => ?_, fun halive hup hroom hnone hhost hckpt hlen hlate => ?_⟩
  · simp [graphStop, hrun, hstop, hdead]
  · obtain ⟨e', g', hkept, hrun', herr, hend⟩ := graphStop_endGraph s.mem hrun hstop halive hckpt
    obtain ⟨g₁, hg₁, hsub, hlates⟩ := exists_run_of_besidesFrames hkept hrun
    obtain rfl : g₁ = g' := Option.some.inj (hg₁.symm.trans hrun')
    have hreport : stopReport g₁ code = code := stopReport_of_lates hlates hlate
    simp only [besidesFrames, Prod.mk.injEq] at hkept
    obtain ⟨hfences, hboot, hrw, hfwp, hmbx, hpwr, hlen', -, hsch, -⟩ := hkept
    have hended := endGraph_ended (e := e') (if code = codeAborted then 3 else 1) code hrun' (hsub ▸ hckpt)
      ((procUp_congr hfwp hpwr 1).trans hup) (by rw [hmbx]; exact hroom) (by rw [hmbx]; exact hnone) (by rw [hmbx]; exact hhost)
    rw [hreport] at hend
    rw [hend]
    obtain ⟨msg, hring, hop, hwords⟩ := hended.posted
    rw [hmbx] at hring
    refine ⟨_, rfl, hended.run, hended.phase, ?_, ?_, hended.graphDone, ?_, ?_, fun hcode => ?_, fun c hen => ?_, hended.boot.trans hboot,
      hended.rw.trans hrw, rfl, rfl⟩
    · exact hended.queue.trans (congrArg Sched.queue hsch :)
    · rw [hended.done, hsub, show e'.sch.done = s.eng.sch.done from (congrArg Sched.done hsch :)]
    · rw [hring, List.take_left]
    · simp only [hring, List.drop_left, List.map_cons, List.map_nil, hop, hwords, hsub, doneWords, List.take_succ_cons, List.take_zero]
    · rw [errBit, hended.errStatus]
      exact herr hcode
    · exact hended.contexts (hlen'.trans hlen) c ((enabled_of_fences hfences c).trans hen)

end Sys2Proof.Machine
end

section
/-! Proofs: a task completes with its record (R301, R302, R303, R518). -/

namespace Sys2Proof.Machine

theorem exec_taskComplete (i : Nat) (rd : List MemLine) (s : State) :
    exec (.taskComplete i rd) s = .next { s with mem := absorb s.mem rd, eng := completeTask (landed s.mem rd) (readEng s rd) i } := rfl

/-! ### What a completed task leaves -/

/-- A task that completes with its record written, before its successors are released. -/
def taskLeft (e : Engine) (t : Task) (u : ExecUnit) (status code : Nat) : Engine :=
  let e := unpin (freeInComb (retireTask (writeCompletion e t u status code) t) u t) t.record.param (ownPin t.index)
  if tPublish t.record && status == 1 then publish e t.record.param t.record.step else e

theorem finishTask_eq (m : Mem) (e : Engine) (t : Task) (u : ExecUnit) (status code : Nat) (release : Bool) :
    finishTask m e t u status code release =
      (let e := if release && !t.again then releaseSuccs m (taskLeft e t u status code) t (status == 3 && failsEarly code)
        else taskLeft e t u status code
      if release && allDone e then endGraph e 0 0 else e) := rfl

/-- The graph without the completed task in its window. -/
def taskRetired (t : Task) (status : Nat) (g : Graph) : Graph :=
  { g with
    firstErr := if status = 3 then some (g.firstErr.getD t.index) else g.firstErr
    tasks := g.tasks.filter fun x => x.index != t.index
    retired := (g.retired.filter fun x => x.index != t.index) ++ [t]
    completed := (g.completed.filter fun x => x.1 != t.index) ++ [(t.index, t.record.step)]
    mbs := if t.record.mbClose && t.record.mbValid then closeMb t.record g.mbs else g.mbs }

/-- The hub once a completion record is written: a failure is reported. -/
def hubTold (h : Hub) (t : Task) (u : ExecUnit) (status code : Nat) : Hub :=
  if status = 3 then
    { h with
      errStatus := h.errStatus ||| BitVec.ofNat 8 (2 ^ errTaskFailed)
      errFirst := some (h.errFirst.getD (BitVec.ofNat 8 (unitByte u), BitVec.ofNat 8 code))
      errTask := if h.errFirst.isNone then t.index else h.errTask }
  else h

theorem writeCompletion_eq {e : Engine} {g : Graph} (t : Task) (u : ExecUnit) (status code : Nat) (hrun : e.sch.run = some g)
    (hckpt : g.sub.ckpt = none) : writeCompletion e t u status code =
      { e with
        mp := (sendAll e (.hub noTask) (g.hdr.completionBase + 8 * t.index) (completionBytes e t u status code) false).mp
        hub := hubTold e.hub t u status code
        sch := { e.sch with run := some { g with firstErr := if status = 3 then some (g.firstErr.getD t.index) else g.firstErr } } } := by
  unfold writeCompletion
  simp only [hrun, hckpt, Option.isSome_none, Bool.false_eq_true, false_and, if_false]
  rw [sendAll, sendBytes_frame]
  by_cases h3 : status = 3
  · subst h3
    cases hfirst : e.hub.errFirst <;> simp [captureErr, raiseErr, hubTold, hrun, hfirst]
  · simp [h3, hubTold, ← hrun]

theorem freeInComb_frame (e : Engine) (u : ExecUnit) (t : Task) : freeInComb e u t = { e with combs := (freeInComb e u t).combs } := by
  unfold freeInComb
  cases u with
  | comb c => dsimp only; split <;> rfl
  | hub => rfl
  | cap => rfl
  | link => rfl

theorem freeInComb_combs_congr {e e' : Engine} (h : e'.combs = e.combs) (u : ExecUnit) (t : Task) :
    (freeInComb e' u t).combs = (freeInComb e u t).combs := by
  unfold freeInComb
  cases u with
  | comb c => dsimp only; split <;> simp only [onComb, h]
  | hub => exact h
  | cap => exact h
  | link => exact h

theorem retireTask_eq {e : Engine} {g : Graph} (t : Task) (hrun : e.sch.run = some g) :
    retireTask e t = { e with sch := { e.sch with
      run := some { taskRetired t 0 g with firstErr := g.firstErr }
      completedCount := (taskRetired t 0 g).completed.length } } := by
  unfold retireTask
  rw [onGraph, hrun]
  rfl

theorem onVer_of_run {e : Engine} {g : Graph} (hrun : e.sch.run = some g) (h : Nat) (f : VerEntry → VerEntry) :
    ∃ vs, onVer e h f = { e with sch := { e.sch with run := some { g with versions := vs } } } := by
  refine ⟨updFirst (fun v => v.handle == h) f g.versions, ?_⟩
  simp [onVer, onGraph, hrun]

/-- A completed task's pin is released and its version published; nothing else changes. -/
theorem versionsReleased {e : Engine} {g : Graph} (t : Task) (status : Nat) (hrun : e.sch.run = some g) : ∃ vs,
    (if tPublish t.record && status == 1 then publish (unpin e t.record.param (ownPin t.index)) t.record.param t.record.step
      else unpin e t.record.param (ownPin t.index)) = { e with sch := { e.sch with run := some { g with versions := vs } } } := by
  obtain ⟨vs, hunpin⟩ := onVer_of_run hrun t.record.param fun v => { v with pins := v.pins.filter fun p => p.2 != ownPin t.index }
  rw [show unpin e t.record.param (ownPin t.index) = _ from hunpin]
  split
  · obtain ⟨vs', hpublish⟩ := onVer_of_run (e := { e with sch := { e.sch with run := some { g with versions := vs } } }) rfl
      t.record.param _
    exact ⟨vs', hpublish⟩
  · exact ⟨vs, rfl⟩

/-- A completed task leaves the window and its comb, and its record is on its way. -/
theorem taskLeft_eq {e : Engine} {g : Graph} (t : Task) (u : ExecUnit) (status code : Nat) (hrun : e.sch.run = some g)
    (hckpt : g.sub.ckpt = none) : ∃ vs,
    taskLeft e t u status code =
      { e with
        mp := (sendAll e (.hub noTask) (g.hdr.completionBase + 8 * t.index) (completionBytes e t u status code) false).mp
        hub := hubTold e.hub t u status code
        sch := { e.sch with
          run := some { taskRetired t status g with versions := vs }
          completedCount := (taskRetired t status g).completed.length }
        combs := (freeInComb e u t).combs } := by
  have hretired := retireTask_eq (e := writeCompletion e t u status code) t (by rw [writeCompletion_eq t u status code hrun hckpt])
  have hcombs : (freeInComb (retireTask (writeCompletion e t u status code) t) u t).combs = (freeInComb e u t).combs :=
    freeInComb_combs_congr (by rw [hretired, writeCompletion_eq t u status code hrun hckpt]) u t
  have hfreed : freeInComb (retireTask (writeCompletion e t u status code) t) u t = { e with
      mp := (sendAll e (.hub noTask) (g.hdr.completionBase + 8 * t.index) (completionBytes e t u status code) false).mp
      hub := hubTold e.hub t u status code
      sch := { e.sch with run := some (taskRetired t status g), completedCount := (taskRetired t status g).completed.length }
      combs := (freeInComb e u t).combs } := by
    rw [freeInComb_frame, hcombs, hretired, writeCompletion_eq t u status code hrun hckpt]
    rfl
  obtain ⟨vs, hvs⟩ := versionsReleased t status (e := freeInComb (retireTask (writeCompletion e t u status code) t) u t)
    (g := taskRetired t status g) (by rw [hfreed])
  exact ⟨vs, hvs.trans (by rw [hfreed])⟩

/-! ### A task that has ended completes -/

/-- A task's last commit touches versions and combs alone. -/
theorem taskCommitted_eq {e : Engine} {g : Graph} (c : CombId) (r : TaskRec) (hrun : e.sch.run = some g) : ∃ vs cs,
    taskCommitted e c r = { e with sch := { e.sch with run := some { g with versions := vs } }, combs := cs } := by
  have hpin : ∃ vs, (if tUnpin r && r.mbValid then unpinMb e r.param r.mb r.step else e) =
      { e with sch := { e.sch with run := some { g with versions := vs } } } := by
    split
    · obtain ⟨vs, hone⟩ := onVer_of_run hrun r.param fun v => match pinOf v r.mb with
        | some sl => { v with freed := v.freed ++ [(sl, r.mb, r.step)] }
        | none => v
      obtain ⟨vs', htwo⟩ := onVer_of_run (e := { e with sch := { e.sch with run := some { g with versions := vs } } }) rfl r.param
        fun v => { v with pins := v.pins.filter fun p => p.2 != r.mb }
      exact ⟨vs', (congrArg (fun x => unpin x r.param r.mb) hone).trans htwo⟩
    · exact ⟨g.versions, by simp [← hrun]⟩
  obtain ⟨vs, hvs⟩ := hpin
  unfold taskCommitted
  rw [hvs]
  refine ⟨vs, ?_⟩
  dsimp only
  split <;> split <;> exact ⟨_, rfl⟩

/-- A task that TASK_COMPLETE may complete: its graph runs and no stop has been asked for, its writes have been answered, and it does not
wait for rows as the graph's last (R301, assumptions/40). -/
structure MayComplete (e : Engine) (g : Graph) (i : Nat) (tk : Task) : Prop where
  running : running e = true
  run : e.sch.run = some g
  stop : g.stop = none
  task : taskOf e i = some tk
  answered : writesOpen e i = false
  waits : lastWaits e i = false

section Cases
variable (m : Mem) {e : Engine} {g : Graph} {i : Nat} {tk : Task} (h : MayComplete e g i tk)
include h

theorem MayComplete.go : (!Machine.running e || g.stop.isSome || writesOpen e i || lastWaits e i) = false := by
  simp [h.running, h.stop, h.answered, h.waits]

theorem completeTask_ended {u : ExecUnit} {st code : Nat} (hlife : tk.life = .ended u st code) (hlate : tk.late = none ∨ st ≠ 1) :
    completeTask m e i = finishTask m e tk u st code true := by
  simp only [completeTask, h.run, h.task, h.go, hlife, Bool.false_eq_true, if_false]
  cases hl : tk.late with
  | none => rfl
  | some l => exact if_neg (hlate.resolve_left (by simp [hl]))

theorem completeTask_late {u : ExecUnit} {k code : Nat} (hlife : tk.life = .ended u 1 k) (hlate : tk.late = some code) :
    completeTask m e i = finishTask m e tk u 3 code true := by
  simp only [completeTask, h.run, h.task, h.go, hlife, hlate, Bool.false_eq_true, if_false, if_true]

theorem completeTask_comb {c : CombId} (hlife : tk.life = .running (.comb c)) : completeTask m e i = combDone m e c tk := by
  simp only [completeTask, h.run, h.task, h.go, hlife, Bool.false_eq_true, if_false]

theorem completeTask_genLoop (hlife : tk.life = .running .hub) (hkind : tk.record.kind = kGENLOOP) : completeTask m e i = genLoop m e tk := by
  simp only [completeTask, h.run, h.task, h.go, hlife, hkind, Bool.false_eq_true, if_false, if_true]

end Cases

/-- A task that has done its work, and whose writes have been answered, is finished with what it ends with (R301). -/
theorem completeTask_of_endsWith (m : Mem) {e : Engine} {g : Graph} {i : Nat} {tk : Task} {u : ExecUnit} {st code : Nat}
    (h : MayComplete e g i tk) (hends : EndsWith e tk u st code) : ∃ vs cs, completeTask m e i =
      finishTask m { e with sch := { e.sch with run := some { g with versions := vs } }, combs := cs } tk u st code true := by
  suffices hfinish : ∃ e', (e' = e ∨ ∃ c, e' = taskCommitted e c tk.record) ∧ completeTask m e i = finishTask m e' tk u st code true by
    obtain ⟨e', rfl | ⟨c, rfl⟩, he'⟩ := hfinish
    · exact ⟨g.versions, e'.combs, by rw [he', ← h.run]⟩
    · obtain ⟨vs, cs, hcommit⟩ := taskCommitted_eq c tk.record h.run
      exact ⟨vs, cs, by rw [he', hcommit]⟩
  rcases hends with ⟨hlife, hlate⟩ | ⟨k, hlife, hlate, hst⟩ | ⟨c, hu, hlife, hwork⟩
  · exact ⟨e, Or.inl rfl, completeTask_ended m h hlife hlate⟩
  · exact ⟨e, Or.inl rfl, hst ▸ completeTask_late m h hlife hlate⟩
  · subst hu
    rw [completeTask_comb m h hlife]
    unfold combDone
    rcases hwork with ⟨hfailed, hst, hout⟩ | ⟨hfailed, hdone, hend⟩
    · refine ⟨e, Or.inl rfl, ?_⟩
      simp only [hfailed]
      rw [if_neg, hst]
      simpa using hout
    · have hlate : ∀ e', (match tk.late with
          | some code => finishTask m e' tk (.comb c) 3 code true
          | none => finishTask m e' tk (.comb c) 1 0 true) = finishTask m e' tk (.comb c) st code true := fun e' => by
        rcases hend with ⟨hl, rfl, rfl⟩ | ⟨hl, rfl⟩ <;> simp only [hl]
      simp only [hfailed]
      by_cases hprod : isProduct tk.record = true
      · simp only [workDone, hprod, if_true] at hdone
        refine ⟨if tileCount tk.record (maskOf e tk.record) = 0 then taskCommitted e c tk.record else e, ?_, ?_⟩
        · split
          · exact Or.inr ⟨c, rfl⟩
          · exact Or.inl rfl
        · rw [if_pos hprod, if_pos hdone]
          exact hlate _
      · simp only [workDone, hprod, Bool.false_eq_true, if_false] at hdone
        refine ⟨e, Or.inl rfl, ?_⟩
        rw [if_neg hprod]
        split
        · exact hlate e
        · obtain ⟨n, l, hcons⟩ := List.exists_cons_of_ne_nil hdone
          simp only [hcons]
          exact hlate e

/-! ### The successors are released (R300) -/

/-- What the release of successors leaves. -/
def besidesSuccs (e : Engine) : MemPort × Option (Byte × Byte) × Nat × Bool × Mbx × AMap RegName Word × List Comb ×
    Option (List (Nat × Nat) × List Nat) :=
  (e.mp, e.hub.errFirst, e.hub.errTask, errBit e errTaskFailed, e.mbx, e.rw, e.combs,
    e.sch.run.map fun g => (g.completed, g.tasks.map Task.index))

theorem poisonBlind_besidesSuccs : PoisonBlind besidesSuccs where
  log _ _ := rfl
  raised e := by
    rw [besidesSuccs, errBit_raiseErr e (by decide)]
    simp [besidesSuccs, raiseErr, errPoison, errTaskFailed]
  marked _ _ _ _ _ _ hrun := by simp [besidesSuccs, hrun, errBit]

theorem besidesSuccs_settleReady (e : Engine) (i : Nat) : besidesSuccs (settleReady e i) = besidesSuccs e := by
  unfold settleReady
  split
  · rfl
  · next g hrun =>
    split
    · rfl
    · split
      · exact poisonBlind_besidesSuccs.askStop ..
      · split
        · have hidx := fun l => map_updFirst_of_eq (fun t : Task => t.index == i)
            (f := fun t => { t with life := if t.life = .fetched then .ready else t.life }) (key := Task.index) (fun _ => rfl) l
          simp [besidesSuccs, onTask, onGraph, hrun, hidx, errBit]
        · rfl

theorem besidesSuccs_releaseEdge (m : Mem) (t : Task) (bad : Bool) (e : Engine) (j : Nat) :
    besidesSuccs (releaseEdge m t bad e j) = besidesSuccs e := by
  unfold releaseEdge
  split
  · rfl
  · next g hrun =>
    split
    · rfl
    · dsimp only
      split
      · rw [poisonBlind_besidesSuccs.askStop, poisonBlind_besidesSuccs.noteRead]
      · split
        · exact poisonBlind_besidesSuccs.askStop ..
        · rw [besidesSuccs_settleReady]
          simp [besidesSuccs, onGraph, hrun, errBit]

theorem besidesSuccs_releaseSuccs (m : Mem) (e : Engine) (t : Task) (bad : Bool) :
    besidesSuccs (releaseSuccs m e t bad) = besidesSuccs e :=
  foldl_keeps besidesSuccs (besidesSuccs_releaseEdge m t bad) _ e

/-! ### What a completed task leaves in its comb -/

theorem ctxs_freeCtx {i : Nat} {cb : Comb} {k : Ctx} (hk : some k ∈ (freeCtx i cb).ctxs) : k.task ≠ i := by
  obtain ⟨o, -, ho⟩ := List.mem_map.1 hk
  cases o with
  | none => simp at ho
  | some k' =>
    dsimp only at ho
    split at ho
    · simp at ho
    · next hne => exact Option.some.inj ho ▸ hne

theorem drainOnly_freeCtx {i : Nat} {cb : Comb} {fr : Frame} (hfr : fr ∈ (freeCtx i cb).frames) : fr.drainOnly ≠ some i := by
  obtain ⟨fr', -, rfl⟩ := List.mem_map.1 hfr
  unfold freeDrain
  split
  · simp
  · next hne => exact hne

/-- A comb that a completed task has left holds neither a context nor a drain unit for it (R260, R310). -/
theorem freeInComb_comb (e : Engine) (c : CombId) (t : Task) :
    (∀ k, some k ∈ (combOf (freeInComb e (.comb c) t) c).ctxs → k.task ≠ t.index) ∧
    ∀ fr ∈ (combOf (freeInComb e (.comb c) t) c).frames, fr.drainOnly ≠ some t.index := by
  rw [freeInComb]
  generalize hleft : onComb e c (freeCtx t.index) = e₁
  have hcomb : (∀ k, some k ∈ (combOf e₁ c).ctxs → k.task ≠ t.index) ∧
      ∀ fr ∈ (combOf e₁ c).frames, fr.drainOnly ≠ some t.index := by
    rw [← hleft, combOf_onComb]
    split
    · exact ⟨fun k hk => ctxs_freeCtx hk, fun fr hfr => drainOnly_freeCtx hfr⟩
    · next hout =>
      have hnone : e.combs[c.val]? = none := List.getElem?_eq_none (by simpa using hout)
      simp [combOf, hnone]
  split
  · rw [combOf_onComb]
    split
    · unfold releasePersist
      split <;> exact hcomb
    · exact hcomb
  · exact hcomb

/-! ### The completion as a whole -/

theorem completionBytes_congr {e e' : Engine} (h : e'.sch.run.bind Graph.gen = e.sch.run.bind Graph.gen) (t : Task) (u : ExecUnit)
    (status code : Nat) : completionBytes e' t u status code = completionBytes e t u status code := by
  simp only [completionBytes, iterOf, h]

theorem completionBytes_length (e : Engine) (t : Task) (u : ExecUnit) (status code : Nat) : (completionBytes e t u status code).length = 8 := by
  simp [completionBytes, leBytes]

theorem writesLost_hub_noTask {e : Engine} {g : Graph} (hrun : e.sch.run = some g) (hreal : ∀ o ∈ g.tasks, o.index ≠ noTask) :
    writesLost e (.hub noTask) = false := by
  simp only [writesLost_eq, hrun, Option.map_some, Option.getD_some, writerTask, Option.any_some, List.any_eq_false, Bool.and_eq_true,
    beq_iff_eq, not_and, Bool.not_eq_true]
  exact fun o ho hidx => absurd hidx (hreal o ho)

theorem index_of_taskOf {e : Engine} {i : Nat} {t : Task} (h : taskOf e i = some t) : t.index = i := by
  unfold taskOf at h
  split at h
  · simp at h
  · simpa using List.find?_some h

/-- What a completion leaves while other tasks are in the window. -/
structure CompletedTask (m : Mem) (e t : Engine) (g : Graph) (tk : Task) (u : ExecUnit) (st code : Nat) : Prop where
  completed : ∃ g', t.sch.run = some g' ∧ g'.completed = (g.completed.filter fun x => x.1 != tk.index) ++ [(tk.index, tk.record.step)]
  gone : taskOf t tk.index = none
  record : viewBytes m t (g.hdr.completionBase + 8 * tk.index) 8 = completionBytes e tk u st code
  others : ∀ a, a < 2 ^ 52 → a < g.hdr.completionBase + 8 * tk.index ∨ g.hdr.completionBase + 8 * tk.index + 8 ≤ a →
    viewByte m t a = viewByte m e a
  failed : st = 3 → errBit t errTaskFailed = true ∧ (e.hub.errFirst = none →
    t.hub.errFirst = some (BitVec.ofNat 8 (unitByte u), BitVec.ofNat 8 code) ∧ t.hub.errTask = tk.index)
  freed : ∀ c, u = .comb c → (∀ k, some k ∈ (combOf t c).ctxs → k.task ≠ tk.index) ∧
    ∀ fr ∈ (combOf t c).frames, fr.drainOnly ≠ some tk.index
  mbx : t.mbx = e.mbx
  rw : t.rw = e.rw

theorem finishTask_completed (m m' : Mem) {e : Engine} {g : Graph} {tk : Task} {u : ExecUnit} {st code : Nat} (hrun : e.sch.run = some g)
    (hckpt : g.sub.ckpt = none) (hend : g.hdr.completionBase + 8 * tk.index + 8 ≤ 2 ^ 52) (hreal : ∀ o ∈ g.tasks, o.index ≠ noTask)
    (hother : ∃ o ∈ g.tasks, o.index ≠ tk.index) : CompletedTask m' e (finishTask m e tk u st code true) g tk u st code := by
  obtain ⟨vs, hleft⟩ := taskLeft_eq tk u st code hrun hckpt
  obtain ⟨o, ho, hne⟩ := hother
  have hlost := writesLost_hub_noTask hrun hreal
  rw [finishTask_eq]
  generalize hafter : (if (true && !tk.again) = true then releaseSuccs m (taskLeft e tk u st code) tk (st == 3 && failsEarly code)
    else taskLeft e tk u st code) = e₂
  have hkept : besidesSuccs e₂ = besidesSuccs (taskLeft e tk u st code) := by
    rw [← hafter]
    split
    · exact besidesSuccs_releaseSuccs ..
    · rfl
  rw [hleft] at hkept
  simp only [besidesSuccs, Prod.mk.injEq] at hkept
  obtain ⟨hmp, hfirst, htask, hbit, hmbx, hrw, hcombs, hgraph⟩ := hkept
  rw [Option.map_some, Option.map_eq_some_iff] at hgraph
  obtain ⟨g₂, hrun₂, hpair⟩ := hgraph
  obtain ⟨hcompleted, hindices⟩ := Prod.mk.inj hpair
  have hmore : allDone e₂ = false := by
    have hin : o.index ∈ g₂.tasks.map Task.index := hindices ▸ List.mem_map.2 ⟨o, List.mem_filter.2 ⟨ho, by simpa using hne⟩, rfl⟩
    have hnil : g₂.tasks.isEmpty = false := by
      rw [List.isEmpty_eq_false_iff]
      rintro hnil
      simp [hnil] at hin
    simp [allDone, hrun₂, hnil]
  dsimp only
  rw [hmore, Bool.and_false, if_neg Bool.false_ne_true]
  have hlen := completionBytes_length e tk u st code
  refine ⟨⟨g₂, hrun₂, hcompleted⟩, ?_, ?_, fun a ha hout => ?_, fun h3 => ?_, fun c hu => ?_, hmbx, hrw⟩
  · simp only [taskOf, hrun₂, List.find?_eq_none]
    intro x hx
    have hmem : x.index ∈ (g.tasks.filter fun y => y.index != tk.index).map Task.index := hindices ▸ List.mem_map_of_mem hx
    obtain ⟨y, hy, hyx⟩ := List.mem_map.1 hmem
    simpa [hyx] using (List.mem_filter.1 hy).2
  · rw [viewBytes_congr m' hmp, ← hlen]
    exact viewBytes_sendBytes m' hlost _ (by rw [hlen]; exact hend)
  · rw [viewByte_congr m' hmp]
    exact viewByte_sendBytes_outside m' hlost _ (by rw [hlen]; exact hend) ha (by rw [hlen]; exact hout)
  · rw [hbit, hfirst, htask]
    simp only [hubTold, h3, if_true]
    refine ⟨?_, fun hnone => by simp [hnone]⟩
    exact (errBit_raiseErr e (by decide) errTaskFailed).trans (by simp)
  · subst hu
    rw [combOf_congr hcombs]
    exact freeInComb_comb e c tk

/-- A task that is not the window's last has no rows to wait for. -/
theorem lastWaits_of_other {e : Engine} {g : Graph} {i : Nat} (hrun : e.sch.run = some g) (hother : ∃ o ∈ g.tasks, o.index ≠ i) :
    lastWaits e i = false := by
  obtain ⟨o, ho, hne⟩ := hother
  have hall : (g.tasks.all fun t => t.index == i) = false := by
    rw [List.all_eq_false]
    exact ⟨o, ho, by simpa using hne⟩
  simp [lastWaits, hrun, hall]

/-- A task that completes while others are in the window. -/
theorem completeTask_completed {m m' : Mem} {e : Engine} {g : Graph} {i : Nat} {tk : Task} {u : ExecUnit} {st code : Nat}
    (h : MayComplete e g i tk) (hends : EndsWith e tk u st code) (hckpt : g.sub.ckpt = none)
    (hend : g.hdr.completionBase + 8 * i + 8 ≤ 2 ^ 52) (hreal : ∀ o ∈ g.tasks, o.index ≠ noTask) (hother : ∃ o ∈ g.tasks, o.index ≠ i) :
    CompletedTask m' e (completeTask m e i) g tk u st code := by
  obtain rfl := index_of_taskOf h.task
  obtain ⟨vs, cs, hfinish⟩ := completeTask_of_endsWith m h hends
  have hdone := finishTask_completed m m' (e := { e with sch := { e.sch with run := some { g with versions := vs } }, combs := cs }) (u := u)
    (st := st) (code := code) rfl hckpt hend hreal hother
  rw [hfinish]
  exact { hdone with record := hdone.record.trans (completionBytes_congr (by simp [h.run]) ..) }

/-- The graph's last task ends it (R518). -/
theorem completeTask_last {m : Mem} {e : Engine} {g : Graph} {i : Nat} {tk : Task} {u : ExecUnit} {st code : Nat}
    (h : MayComplete e g i tk) (hends : EndsWith e tk u st code) (hckpt : g.sub.ckpt = none)
    (hlast : ∀ o ∈ g.tasks, o.index = i) (hfetched : g.hdr.tasks ≤ g.fetch) (hsuccs : tk.record.succCount = 0)
    (hhost : e.mbx.host ≠ .draining) (hup : procUp e 1 = true) (hroom : e.mbx.ring.length < 256) (hnone : e.mbx.abortReplies = []) :
    ∃ msg, (completeTask m e i).sch.run = none ∧ (completeTask m e i).sch.phase = .idle ∧ (completeTask m e i).hub.graphDone = true ∧
      (completeTask m e i).sch.queue = e.sch.queue ∧ (completeTask m e i).mbx.ring = e.mbx.ring ++ [msg] ∧ msg.opcode = 0xC1 ∧
      msg.words = doneWords g.sub 0 0 (g.firstErr.getD (if st = 3 then i else noTask))
        ((g.completed.filter fun x => x.1 != i).length + 1) := by
  obtain rfl := index_of_taskOf h.task
  obtain ⟨vs, cs, hfinish⟩ := completeTask_of_endsWith m h hends
  obtain ⟨vs', hleft⟩ := taskLeft_eq (e := { e with sch := { e.sch with run := some { g with versions := vs } }, combs := cs }) tk u st code
    rfl hckpt
  have hsucc : ∀ x bad, releaseSuccs m x tk bad = x := fun x bad => by rw [releaseSuccs, hsuccs]; rfl
  have hempty : g.tasks.filter (fun x => x.index != tk.index) = [] := by simpa using hlast
  rw [hfinish, finishTask_eq]
  simp only [hsucc, ite_self, hleft]
  rw [if_pos (by simp [allDone, taskRetired, h.stop, hfetched, hempty])]
  generalize hengine : ({ e with hub := _, mp := _, sch := _, combs := _ } : Engine) = e₁
  have hended := endGraph_ended (e := e₁) (g := { taskRetired tk st { g with versions := vs } with versions := vs' }) 0 0
    (by rw [← hengine]) hckpt (by rw [← hengine]; exact hup) (by rw [← hengine]; exact hroom) (by rw [← hengine]; exact hnone) (by rw [← hengine]; exact hhost)
  obtain ⟨msg, hring, hop, hwords⟩ := hended.posted
  refine ⟨msg, hended.run, hended.phase, hended.graphDone, ?_, ?_, hop, ?_⟩
  · rw [hended.queue, ← hengine]
  · rw [hring, ← hengine]
  · rw [hwords, ← hengine]
    by_cases h3 : st = 3 <;> simp [taskRetired, h3]

end Sys2Proof.Machine
end

section
/-! Proofs: a SELECT task writes its tokens (R230, R320). -/

namespace Sys2Proof.Machine

/-! ### Writes that are on their way -/

theorem writesOpen_eq (e : Engine) (i : Nat) : writesOpen e i = e.mp.writes.any fun w => writerTask w.who == some i := by
  refine congrArg e.mp.writes.any (funext fun w => ?_)
  cases w.who <;> simp [writerTask]

/-- Bytes sent by a task's unit keep the task's writes open (R289, R301). -/
theorem writesOpen_sendBytes {e : Engine} {who : Writer} {a i : Nat} {bs : List Byte} (p : Nat → Bool)
    (hwho : writerTask who = some i) (hlost : writesLost e who = false) (hne : bs ≠ []) (hend : a + bs.length ≤ 2 ^ 52) :
    writesOpen (sendBytes e who a bs p) i = true := by
  have hsent : ∀ e l, writesOpen (sendLine e who l (linePart a bs l) (p l)) i = (writesOpen e i || !writesLost e who) := by
    intro e l
    rw [writesOpen_eq, writesOpen_eq]
    cases hl : writesLost e who <;> simp [sendLine, hl, hwho]
  have hopen : ∀ (ls : List Nat) (e : Engine), writesOpen e i = true →
      writesOpen (ls.foldl (fun e l => sendLine e who l (linePart a bs l) (p l)) e) i = true := fun ls e h =>
    List.foldlRecOn ls _ (motive := fun e => writesOpen e i = true) h fun e he l _ => by rw [hsent, he, Bool.true_or]
  have hfirst : a / 64 ∈ dedup ((linesOf a bs.length).map (· % 2 ^ 46)) :=
    mem_sentLines hend (Nat.le_refl a) (Nat.lt_add_of_pos_right (List.length_pos_iff.2 hne))
  unfold sendBytes
  cases hlines : dedup ((linesOf a bs.length).map (· % 2 ^ 46)) with
  | nil => exact absurd (hlines ▸ hfirst) (List.not_mem_nil)
  | cons l ls => exact hopen ls _ (by rw [hsent, hlost, Bool.not_false, Bool.or_true])

/-! ### The drain unit takes the logits -/

/-- What the logits that a drain unit takes leave: the memory port, and the graph's tasks and generation. -/
def besidesLogits (e : Engine) : MemPort × Option (List Task × Option Gen) := (e.mp, e.sch.run.map fun g => (g.tasks, g.gen))

theorem poisonBlind_besidesLogits : PoisonBlind besidesLogits where
  log _ _ := rfl
  raised _ := rfl
  marked _ _ _ _ _ _ hrun := by simp [besidesLogits, hrun]

theorem leftByReads_besidesLogits : LeftByReads besidesLogits where
  onComb _ _ _ := rfl
  bump e k n := by rw [(bump_spec e k n).2.2]; rfl
  poisonEvent := poisonBlind_besidesLogits.poisonEvent

theorem besidesLogits_taskCommitted (e : Engine) (c : CombId) (r : TaskRec) : besidesLogits (taskCommitted e c r) = besidesLogits e := by
  have hver : ∀ e h f, besidesLogits (onVer e h f) = besidesLogits e := fun e h f => by
    simp [besidesLogits, onVer, onGraph, Function.comp_def]
  have hpin : besidesLogits (if tUnpin r && r.mbValid then unpinMb e r.param r.mb r.step else e) = besidesLogits e := by
    split
    · exact (hver ..).trans (hver ..)
    · rfl
  unfold taskCommitted
  refine Eq.trans ?_ hpin
  dsimp only
  split <;> split <;> rfl

theorem taskOf_of_besidesLogits {e e' : Engine} (h : besidesLogits e' = besidesLogits e) (i : Nat) : taskOf e' i = taskOf e i := by
  refine taskOf_congr ?_ i
  have hgraph := congrArg (Option.map Prod.fst) (congrArg Prod.snd h :)
  simpa [besidesLogits, Function.comp_def] using hgraph

theorem exists_run_of_besidesLogits {e e' : Engine} {g : Graph} (h : besidesLogits e' = besidesLogits e) (hrun : e.sch.run = some g) :
    ∃ g', e'.sch.run = some g' ∧ g'.tasks = g.tasks ∧ g'.gen = g.gen := by
  have hgraph := (congrArg Prod.snd h :)
  simp only [besidesLogits] at hgraph
  rw [hrun, Option.map_some, Option.map_eq_some_iff] at hgraph
  obtain ⟨g', hg', hpair⟩ := hgraph
  exact ⟨g', hg', Prod.mk.inj hpair⟩

/-- The writes of a task that no unresolvable fault has touched are not lost. -/
theorem writesLost_of_nodup {e : Engine} {g : Graph} {who : Writer} {i : Nat} {tk : Task} (hrun : e.sch.run = some g)
    (hwho : writerTask who = some i) (hnodup : (g.tasks.map Task.index).Nodup) (htask : taskOf e i = some tk) (hkept : tk.lost = false) :
    writesLost e who = false := by
  have hfind : g.tasks.find? (fun t => t.index == i) = some tk := by simpa [taskOf, hrun] using htask
  simp only [writesLost_eq, hrun, hwho, Option.map_some, Option.getD_some, Option.any_some, List.any_eq_false, Bool.and_eq_true, beq_iff_eq]
  rintro o ho ⟨hidx, hlost⟩
  have hsame : o = tk := List.inj_on_of_nodup_map hnodup ho (List.mem_of_find?_eq_some hfind) (hidx.trans (index_of_taskOf htask).symm)
  rw [hsame, hkept] at hlost
  exact absurd hlost Bool.false_ne_true

/-! ### The tokens -/

/-- The tokens of a SELECT task as they are written. -/
def tokenBytes (m : Mem) (e : Engine) (c : CombId) (k : Ctx) (r : TaskRec) : List Byte :=
  (List.range 32).flatMap fun n => leBytes 4 (selectToken (logitsRow (drainFeed m e c k r) n))

theorem writeTokens_spec (m m' : Mem) {e : Engine} {gn : Gen} {c : CombId} {x : Fin 4} {k : Ctx} {tk : Task}
    (hgen : e.sch.run.bind Graph.gen = some gn) (htask : taskOf e k.task = some tk) (hend : gn.tokenAddr + 128 ≤ 2 ^ 52)
    (hlost : writesLost e (.comb c x k.task) = false) :
    (∃ tk', taskOf (writeTokens m e c x k tk) k.task = some tk' ∧ tk'.commTiles = [0] ∧ tk'.life = tk.life) ∧
    viewBytes m' (writeTokens m e c x k tk) gn.tokenAddr 128 = tokenBytes m e c k tk.record ∧
    writesOpen (writeTokens m e c x k tk) k.task = true := by
  have hbytes : ((List.range 32).map fun t => selectToken (logitsRow (drainFeed m e c k tk.record) t)).flatMap (leBytes 4) =
      tokenBytes m e c k tk.record := by rw [tokenBytes, List.flatMap_map]
  have hlen : (tokenBytes m e c k tk.record).length = 128 := by
    simp [tokenBytes, List.length_flatMap, leBytes]
  generalize hsent : sendAll e (.comb c x k.task) gn.tokenAddr (tokenBytes m e c k tk.record) tk.poisonIn = e₁
  have hwrite : writeTokens m e c x k tk = taskCommitted (onTask
      (if tk.poisonIn then poisonEvent (markOut e₁ k.task) c.val codeHalted else e₁)
      k.task fun t => { t with commTiles := [0], doneTiles := [0] }) c tk.record := by
    simp only [writeTokens, hgen, hbytes, hsent]
  have hmp : (writeTokens m e c x k tk).mp = e₁.mp := by
    rw [hwrite]
    refine (congrArg Prod.fst (besidesLogits_taskCommitted ..) :).trans ?_
    split
    · exact poisonEvent_mp ..
    · rfl
  refine ⟨?_, ?_, ?_⟩
  · have htask₁ : taskOf e₁ k.task = some tk := by rw [← hsent, sendAll]; exact (taskOf_congr (by rw [sendBytes_sch]) _).trans htask
    rw [hwrite, taskOf_of_besidesLogits (besidesLogits_taskCommitted ..), taskOf_onTask_self]
    split
    · rw [taskOf_poisonEvent, markOut, taskOf_onTask_self, htask₁]
      exact ⟨_, rfl, rfl, rfl⟩
    · rw [htask₁]
      exact ⟨_, rfl, rfl, rfl⟩
  · rw [viewBytes_congr m' hmp, ← hsent, ← hlen]
    exact viewBytes_sendBytes m' hlost _ (by rw [hlen]; exact hend)
  · rw [writesOpen_eq, hmp, ← writesOpen_eq, ← hsent]
    exact writesOpen_sendBytes _ rfl hlost (List.ne_nil_of_length_pos (by rw [hlen]; decide)) (by rw [hlen]; exact hend)

/-- A SELECT task that holds or takes its drain unit waits for its logits, and writes its tokens once they are there. -/
theorem completeTask_select {m : Mem} {e : Engine} {g : Graph} {i : Nat} {tk : Task} {c : CombId} {x : Fin 4} {k : Ctx} {f : FrameId}
    (h : MayComplete e g i tk) (hlife : tk.life = .running (.comb c)) (hfailed : tk.failed = none) (hkind : tk.record.kind = kSELECT)
    (htiles : tk.commTiles = []) (hctx : ctxFor e c i = some (x, k)) (hholder : selectHolder e c k = some f) :
    completeTask m e i =
      (let e := takeLanded (onFrame e c f fun fr => { fr with drainOnly := some i }) c f k tk.record
      if operandsHere e c k tk.record then writeTokens m e c x k tk else e) := by
  have hprod : isProduct tk.record = false := by simp [isProduct, hkind]; decide
  have hidx := index_of_taskOf h.task
  have htask : k.task = i := by simpa using List.find?_some hctx
  rw [completeTask_comb m h hlife]
  simp only [combDone, hfailed, hprod, htiles, hidx, hctx, selectTokens, hholder, htask, Bool.false_eq_true, if_false]
  rw [if_neg (by rw [hkind]; decide)]

end Sys2Proof.Machine
end

section
/-! Proofs: a GEN_LOOP task starts another iteration (R322). -/

namespace Sys2Proof.Machine

/-! ### Views under writes elsewhere -/

/-- Bytes sent elsewhere leave a view, whether their stream goes on or not. -/
theorem viewByte_sendBytes_apart (m : Mem) (e : Engine) (who : Writer) {a : Nat} {bs : List Byte} (p : Nat → Bool)
    (hend : a + bs.length ≤ 2 ^ 52) {x : Nat} (hx : x < 2 ^ 52) (hout : x < a ∨ a + bs.length ≤ x) :
    viewByte m (sendBytes e who a bs p) x = viewByte m e x := by
  cases hlost : writesLost e who with
  | false => exact viewByte_sendBytes_outside m hlost p hend hx hout
  | true =>
    refine viewByte_congr m ?_ x
    have hkept : (sendBytes e who a bs p).mp = e.mp ∧ (sendBytes e who a bs p).sch = e.sch :=
      List.foldlRecOn _ _ (motive := fun e' : Engine => e'.mp = e.mp ∧ e'.sch = e.sch) ⟨rfl, rfl⟩ fun e' he l _ => by
        obtain ⟨hmp, hsch⟩ := he
        have hlost' : writesLost e' who = true := (writesLost_of_sch hsch who).trans hlost
        simp [sendLine, hlost', hmp, hsch]
    exact hkept.1

/-! ### The sequence contexts -/

/-- Two changes of element i that agree on it are one. -/
theorem updAt_congr {α : Type} {l : List α} {i : Nat} {f f' : α → α} (h : ∀ a, l[i]? = some a → f a = f' a) :
    updAt l i f = updAt l i f' := by
  refine List.ext_getElem? fun j => ?_
  rw [updAt_getElem?, updAt_getElem?]
  split
  · next hij =>
    subst hij
    cases hl : l[i]? with
    | none => rfl
    | some a => rw [Option.map_some, Option.map_some, h a hl]
  · rfl

theorem updAt_id {α : Type} (l : List α) (i : Nat) : updAt l i id = l :=
  List.ext_getElem? fun j => by simp [updAt_getElem?]

/-- A sequence context once its position has drawn token k (R322). -/
def drawnCtx (k : Nat) (c : GenCtx) : GenCtx :=
  if !c.active then c
  else if k = c.stop ∨ k = 0xFFFFFFFF ∨ c.maxPos ≤ c.pos + 1 then { c with active := false } else { c with pos := c.pos + 1 }

/-- What a poisoned token leaves: the memory port, the count of iterations, the graph's submission and its generation. -/
def besidesTokens (e : Engine) : MemPort × Nat × Option (Submitted × Option Gen) :=
  (e.mp, e.sch.genIter, e.sch.run.map fun g => (g.sub, g.gen))

theorem poisonBlind_besidesTokens : PoisonBlind besidesTokens where
  log _ _ := rfl
  raised _ := rfl
  marked _ _ _ _ _ _ hrun := by simp [besidesTokens, hrun]

/-- The graph runs with a submission and a generation, after a count of iterations. -/
structure Generating (e : Engine) (sub : Submitted) (gn : Gen) (iter : Nat) : Prop where
  running : ∃ g, e.sch.run = some g ∧ g.sub = sub ∧ g.gen = some gn
  iterations : e.sch.genIter = iter

/-- One context is moved on by its token; the tokens stay as they were. -/
theorem genContext_spec (m : Mem) {e : Engine} {sub : Submitted} {gn : Gen} {iter : Nat} (h : Generating e sub gn iter)
    {x : Nat} (hx : x < 32) (hend : gn.posAddr + 128 ≤ 2 ^ 52) (htok : gn.tokenAddr + 128 ≤ 2 ^ 52)
    (hapart : gn.posAddr + 128 ≤ gn.tokenAddr ∨ gn.tokenAddr + 128 ≤ gn.posAddr) :
    Generating (genContext m e x) sub { gn with ctxs := updAt gn.ctxs x (drawnCtx (viewNat m e (gn.tokenAddr + 4 * x) 4)) } iter ∧
    ∀ j < 128, viewByte m (genContext m e x) (gn.tokenAddr + j) = viewByte m e (gn.tokenAddr + j) := by
  obtain ⟨⟨g, hrun, hsub, hgen⟩, hiter⟩ := h
  unfold genContext
  simp only [hrun, Option.bind_some, hgen]
  generalize hc : elemD gn.ctxs x ⟨false, 0, 0, 0⟩ = c
  have hctx : ∀ b, gn.ctxs[x]? = some b → b = c := fun b hb => by rw [← hc, elemD, hb, Option.getD_some]
  by_cases hactive : c.active = true
  · rw [if_neg (by simp [hactive])]
    have hnext : (if viewNat m e (gn.tokenAddr + 4 * x) 4 = c.stop ∨ viewNat m e (gn.tokenAddr + 4 * x) 4 = 0xFFFFFFFF ∨
        c.maxPos ≤ c.pos + 1 then { c with active := false } else { c with pos := c.pos + 1 }) = drawnCtx (viewNat m e (gn.tokenAddr + 4 * x) 4) c := by
      simp [drawnCtx, hactive]
    have hread := poisonBlind_besidesTokens.noteRead e (viewPoisoned m e (gn.tokenAddr + 4 * x) 4)
    rw [hnext]
    generalize viewNat m e (gn.tokenAddr + 4 * x) 4 = k
    have hlist : updAt gn.ctxs x (fun _ => drawnCtx k c) = updAt gn.ctxs x (drawnCtx k) := updAt_congr fun b hb => by rw [hctx b hb]
    generalize noteRead e _ = e₁ at *
    simp only [besidesTokens, Prod.mk.injEq] at hread
    obtain ⟨hmp, hiter₁, hgraph⟩ := hread
    rw [hrun, Option.map_some, Option.map_eq_some_iff] at hgraph
    obtain ⟨g₁, hrun₁, hpair⟩ := hgraph
    obtain ⟨hsub₁, hgen₁⟩ := Prod.mk.inj hpair
    generalize hmoved : onGraph e₁ _ = e₂
    have hgenerating : Generating e₂ sub { gn with ctxs := updAt gn.ctxs x (drawnCtx k) } iter := by
      rw [← hmoved]
      exact ⟨⟨_, run_onGraph hrun₁ _, hsub₁.trans hsub, by simp [hgen₁, hgen, hlist]⟩, hiter₁.trans hiter⟩
    have hmp₂ : e₂.mp = e.mp := by rw [← hmoved]; exact hmp
    split
    · refine ⟨?_, fun j hj => ?_⟩
      · rw [sendAll, sendBytes_frame]
        exact ⟨hgenerating.running, hgenerating.iterations⟩
      · rw [← viewByte_congr m hmp₂]
        have hlen := leBytes_length 4 (drawnCtx k c).pos
        exact viewByte_sendBytes_apart m e₂ _ _ (by omega) (by omega) (by omega)
    · exact ⟨hgenerating, fun j _ => viewByte_congr m hmp₂ _⟩
  · rw [if_pos (by simp [hactive])]
    have hsame : updAt gn.ctxs x (drawnCtx (viewNat m e (gn.tokenAddr + 4 * x) 4)) = gn.ctxs :=
      (updAt_congr fun b hb => by rw [hctx b hb]; simp [drawnCtx, hactive]).trans (updAt_id _ x)
    exact ⟨⟨⟨g, hrun, hsub, by rw [hsame, hgen]⟩, hiter⟩, fun j _ => rfl⟩

/-- The contexts once the first n of them have moved on. -/
def drawnCtxs (m : Mem) (e : Engine) (gn : Gen) (n : Nat) : List GenCtx :=
  (List.range n).foldl (fun cs x => updAt cs x (drawnCtx (viewNat m e (gn.tokenAddr + 4 * x) 4))) gn.ctxs

theorem getElem?_drawnCtxs (m : Mem) (e : Engine) (gn : Gen) (n x : Nat) :
    (drawnCtxs m e gn n)[x]? = if x < n then gn.ctxs[x]?.map (drawnCtx (viewNat m e (gn.tokenAddr + 4 * x) 4)) else gn.ctxs[x]? := by
  induction n with
  | zero => rfl
  | succ n ih =>
    rw [drawnCtxs, List.range_succ, List.foldl_append, List.foldl_cons, List.foldl_nil, updAt_getElem?]
    rw [drawnCtxs] at ih
    rw [ih]
    by_cases hx : n = x
    · subst hx
      simp
    · rw [if_neg hx]
      congr 1
      exact propext (by omega)

/-- An iteration moves every context on by the token that its position drew. -/
theorem genContexts_spec (m : Mem) {e : Engine} {sub : Submitted} {gn : Gen} {iter : Nat} (h : Generating e sub gn iter)
    (hend : gn.posAddr + 128 ≤ 2 ^ 52) (htok : gn.tokenAddr + 128 ≤ 2 ^ 52)
    (hapart : gn.posAddr + 128 ≤ gn.tokenAddr ∨ gn.tokenAddr + 128 ≤ gn.posAddr) {n : Nat} (hn : n ≤ 32) :
    Generating ((List.range n).foldl (genContext m) e) sub { gn with ctxs := drawnCtxs m e gn n } iter ∧
    ∀ j < 128, viewByte m ((List.range n).foldl (genContext m) e) (gn.tokenAddr + j) = viewByte m e (gn.tokenAddr + j) := by
  induction n with
  | zero => exact ⟨h, fun _ _ => rfl⟩
  | succ n ih =>
    obtain ⟨hgenerating, htokens⟩ := ih (by omega)
    obtain ⟨hstep, hkept⟩ := genContext_spec m hgenerating (by omega : n < 32) hend htok hapart
    rw [List.range_succ, List.foldl_append, List.foldl_cons, List.foldl_nil]
    refine ⟨?_, fun j hj => (hkept j hj).trans (htokens j hj)⟩
    have hdrew : viewNat m ((List.range n).foldl (genContext m) e) (gn.tokenAddr + 4 * n) 4 = viewNat m e (gn.tokenAddr + 4 * n) 4 :=
      viewNat_of_bytes m fun i hi => by
        rw [Nat.add_assoc]
        exact htokens _ (by omega)
    rw [hdrew] at hstep
    rw [drawnCtxs, List.range_succ, List.foldl_append, List.foldl_cons, List.foldl_nil]
    exact hstep

/-! ### The iteration as a whole -/

/-- What an iteration that leaves a context active does: the fetch point returns to the body's first task. -/
structure Iterated (t : Engine) (first i : Nat) (ctxs : List GenCtx) (iter : Nat) : Prop where
  graph : ∃ g' gn', t.sch.run = some g' ∧ g'.gen = some gn' ∧ gn'.ctxs = ctxs ∧ g'.fetch = first ∧
    (∀ o ∈ g'.tasks, o.index < first ∨ i < o.index) ∧ ∀ o ∈ g'.completed, o.1 < first ∨ i < o.1
  iterations : t.sch.genIter = iter

/-- The graph whose loop body runs again. -/
def rewoundGraph (first i : Nat) (g : Graph) : Graph :=
  let outside (x : Nat) : Bool := decide (x < first ∨ i < x)
  { g with
    fetch := first, tasks := g.tasks.filter (fun t => outside t.index), retired := g.retired.filter (fun t => outside t.index)
    completed := g.completed.filter (fun x => outside x.1), arrivals := g.arrivals.filter (fun a => outside a.2.1)
    poisoned := g.poisoned.filter (fun a => outside a.2), lastStep := 0 }

theorem rewindLoop_iterated {e : Engine} {g : Graph} {gn : Gen} (first i : Nat) (hrun : e.sch.run = some g) (hgen : g.gen = some gn) :
    Iterated (rewindLoop e first i) first i gn.ctxs e.sch.genIter := by
  have hrun' := run_onGraph hrun (rewoundGraph first i)
  have hrewound : rewindLoop e first i = { onGraph e (rewoundGraph first i) with sch := { (onGraph e (rewoundGraph first i)).sch with
      completedCount := (rewoundGraph first i g).completed.length } } := by
    rw [show rewindLoop e first i = countCompleted (onGraph e (rewoundGraph first i)) from rfl]
    simp only [countCompleted, hrun']
  rw [hrewound]
  exact ⟨⟨_, gn, hrun', hgen, rfl, rfl, fun o ho => by simpa using (List.mem_filter.1 ho).2,
    fun o ho => by simpa using (List.mem_filter.1 ho).2⟩, rfl⟩

theorem genLoop_iterated (m : Mem) {e : Engine} {g : Graph} {gn : Gen} (t : Task) (hrun : e.sch.run = some g) (hckpt : g.sub.ckpt = none)
    (hgen : g.gen = some gn) (hend : gn.posAddr + 128 ≤ 2 ^ 52) (htok : gn.tokenAddr + 128 ≤ 2 ^ 52)
    (hapart : gn.posAddr + 128 ≤ gn.tokenAddr ∨ gn.tokenAddr + 128 ≤ gn.posAddr)
    (hlive : (drawnCtxs m e gn 32).any GenCtx.active = true) :
    Iterated (genLoop m e t) (t.record.arg.toNat % 2 ^ 20) t.index (drawnCtxs m e gn 32) (min (e.sch.genIter + 1) (2 ^ 32 - 1)) := by
  obtain ⟨⟨⟨g₁, hrun₁, hsub₁, hgen₁⟩, hiter⟩, -⟩ := genContexts_spec m (n := 32) ⟨⟨g, hrun, rfl, hgen⟩, rfl⟩ hend htok hapart
    (Nat.le_refl _)
  unfold genLoop
  generalize (List.range 32).foldl (genContext m) e = e₁ at *
  generalize drawnCtxs m e gn 32 = cs at *
  obtain ⟨vs, hleft⟩ := taskLeft_eq t .hub 1 0 hrun₁ (hsub₁ ▸ hckpt)
  simp only [hrun₁, Option.bind_some, hgen₁, hlive, if_true]
  rw [finishTask_eq]
  simp only [Bool.false_and, Bool.false_eq_true, if_false]
  have hrunLeft : (taskLeft e₁ t .hub 1 0).sch.run = some { taskRetired t 1 g₁ with versions := vs } := by rw [hleft]
  have hiterLeft : (taskLeft e₁ t .hub 1 0).sch.genIter = e.sch.genIter := by rw [hleft, ← hiter]
  clear hleft
  generalize taskLeft e₁ t .hub 1 0 = e₂ at *
  rw [← hiterLeft]
  exact rewindLoop_iterated (t.record.arg.toNat % 2 ^ 20) t.index (gn := { gn with ctxs := cs, loops := _ }) (run_onGraph hrunLeft _)
    (congrArg (Option.map _) hgen₁)

/-- Settles O26: a completion by `completeTask_completed` or, of the graph's last task, by `completeTask_last`; a SELECT task's tokens by
`writeTokens_spec`; an iteration by `genLoop_iterated`. -/
theorem taskCompleteWritesRecord : Obligations.TaskCompleteWritesRecord := by
  unfold Obligations.TaskCompleteWritesRecord
  refine ⟨?_, ?_, ?_⟩
  · intro s i rd g tk u st code hrunning hrun hstop hckpt htask hends hopen hend hreal
    obtain ⟨ctr, hctr⟩ := exists_readEng s rd
    rw [exec_taskComplete, hctr]
    have hidx := index_of_taskOf htask
    have hfilter : g.completed.filter (fun x => decide (x.1 ≠ i)) = g.completed.filter fun x => x.1 != tk.index := by
      rw [hidx]
      exact List.filter_congr fun x _ => by rw [Bool.eq_iff_iff]; simp
    refine ⟨fun hother => ?_, fun hlast hfetched hrows hsuccs hhost hup hroom hnone => ?_⟩
    · have hmay : MayComplete { s.eng with ctr := ctr } g i tk := ⟨hrunning, hrun, hstop, htask, hopen, lastWaits_of_other hrun hother⟩
      have hdone := completeTask_completed (m := landed s.mem rd) (m' := absorb s.mem rd) hmay hends hckpt hend hreal hother
      obtain ⟨g', hrun', hcompleted⟩ := hdone.completed
      rw [hfilter]
      subst hidx
      exact ⟨_, g', rfl, hrun', hdone.gone, hcompleted, hdone.record, hdone.others, hdone.failed, hdone.freed, hdone.mbx, hdone.rw, rfl, rfl⟩
    · have hrows' : rowsLeft { s.eng with ctr := ctr } = false := hrows
      have hmay : MayComplete { s.eng with ctr := ctr } g i tk := ⟨hrunning, hrun, hstop, htask, hopen, by simp [lastWaits, hrun, hrows']⟩
      obtain ⟨msg, hrun', hphase, hgd, hqueue, hring, hop, hwords⟩ := completeTask_last (m := landed s.mem rd) hmay hends hckpt hlast hfetched
        hsuccs hhost hup hroom hnone
      refine ⟨_, rfl, hrun', hphase, hgd, hqueue, ?_, ?_, rfl⟩
      · rw [hring, List.take_left]
      · rw [hfilter]
        subst hidx
        simp only [hring, List.drop_left, List.map_cons, List.map_nil, hop, hwords]
        rfl
  · intro s i rd g gn tk c x k f e hrunning hrun hstop hgen htask hlife hfailed hkind htiles hkept hnodup _ hopen hwaits htok hctx hholder he
    obtain ⟨ctr, hctr⟩ := exists_readEng s rd
    have hstart : completeTask (landed s.mem rd) (readEng s rd) i =
        if operandsHere e c k tk.record then writeTokens (landed s.mem rd) e c x k tk else e := by
      rw [he, hctr]
      exact completeTask_select (e := { s.eng with ctr := ctr }) ⟨hrunning, hrun, hstop, htask, hopen, hwaits⟩ hlife hfailed hkind htiles hctx
        hholder
    obtain rfl : k.task = i := by simpa using List.find?_some hctx
    have hlogits : besidesLogits e = besidesLogits s.eng := by
      rw [he, leftByReads_besidesLogits.takeLanded, leftByReads_besidesLogits.onFrame, hctr]
      rfl
    have htask' : taskOf e k.task = some tk := (taskOf_of_besidesLogits hlogits _).trans htask
    rw [exec_taskComplete, hstart]
    refine ⟨fun hhere => ?_, fun hwait => ?_⟩
    · obtain ⟨g', hrun', htasks, hgen'⟩ := exists_run_of_besidesLogits hlogits hrun
      have hlost : writesLost e (.comb c x k.task) = false := writesLost_of_nodup hrun' rfl (htasks ▸ hnodup) htask' hkept
      obtain ⟨⟨tk', htk', htiles', hlife'⟩, htokens, hwrites⟩ := writeTokens_spec (landed s.mem rd) (absorb s.mem rd)
        (by rw [hrun', Option.bind_some, hgen', hgen]) htask' htok hlost
      rw [if_pos hhere]
      exact ⟨_, tk', rfl, htk', htiles', hlife', htokens, hwrites, rfl⟩
    · rw [if_neg (by simp [hwait])]
      exact ⟨_, rfl, htask', (congrArg Prod.fst hlogits :), rfl⟩
  · intro s i rd g gn tk hrunning hrun hstop hckpt hgen htask hlife hkind hopen hwaits hlen htok hapart next hnext hlive
    obtain ⟨ctr, hctr⟩ := exists_readEng s rd
    have hmay : MayComplete { s.eng with ctr := ctr } g i tk := ⟨hrunning, hrun, hstop, htask, hopen, hwaits⟩
    rw [exec_taskComplete, hctr, completeTask_genLoop _ hmay hlife hkind]
    have hctxs : ∀ x, x < 32 → (drawnCtxs (landed s.mem rd) { s.eng with ctr := ctr } gn 32)[x]? = some (next x) := fun x hx => by
      have hget := List.getElem?_eq_getElem (hlen.symm ▸ hx : x < gn.ctxs.length)
      rw [getElem?_drawnCtxs, if_pos hx, hget, Option.map_some, hnext x hx _ hget]
      rfl
    obtain ⟨x, hx, hactive⟩ := hlive
    obtain ⟨⟨g', gn', hrun', hgen', hctxs', hfetch, htasks, hcompleted⟩, hiter⟩ := genLoop_iterated (landed s.mem rd)
      (e := { s.eng with ctr := ctr }) tk hrun hckpt hgen (by omega) htok (by omega)
      (List.any_eq_true.2 ⟨next x, List.mem_of_getElem? (hctxs x hx), hactive⟩)
    obtain rfl := index_of_taskOf htask
    exact ⟨_, g', gn', rfl, hrun', hgen', fun y hy => by rw [hctxs', hctxs y hy], hfetch, htasks, hcompleted, hiter, rfl⟩

end Sys2Proof.Machine
end

section
/-! Proofs: the task that a dispatch takes (R305, R306, R311 to R313, R426). -/

namespace Sys2Proof.Machine

theorem exec_taskDispatch (rd : List MemLine) (s : State) :
    exec (.taskDispatch rd) s = .next { s with mem := absorb s.mem rd, eng := taskDispatch (landed s.mem rd) (readEng s rd) } := rfl

/-! ### The first in rank -/

theorem lexLt_asymm : ∀ a b : List Nat, lexLt a b = true → lexLt b a = false
  | _, [], h => by simp [lexLt] at h
  | [], b :: r, _ => rfl
  | a :: l, b :: r, h => by
    have ih := lexLt_asymm l r
    simp only [lexLt] at h ⊢
    split at h
    · next hlt => rw [if_neg (by omega), if_pos hlt]
    · next hge =>
      split at h
      · exact absurd h Bool.false_ne_true
      · next hle =>
        rw [if_neg hle, if_neg hge]
        exact ih h

/-- The element before every other is the first. -/
theorem firstOf_of_before {α : Type} {before : α → α → Bool} {a : α} {l : List α} (hin : a ∈ l)
    (hfirst : ∀ b ∈ l, b ≠ a → before a b = true ∧ before b a = false) : firstOf before l = some a := by
  have hfold : ∀ (l : List α) (b : α), (∀ x ∈ b :: l, x ≠ a → before a x = true ∧ before x a = false) → a ∈ b :: l →
      l.foldl (fun m x => if before x m then x else m) b = a := by
    intro l
    induction l with
    | nil =>
      intro b _ hin
      exact (List.mem_singleton.1 hin).symm
    | cons x l ih =>
      intro b hall hin
      rw [List.foldl_cons]
      have hbest : (if before x b then x else b) ∈ [b, x] ∧ (a = b ∨ a = x → (if before x b then x else b) = a) := by
        refine ⟨by split <;> simp, fun hwhich => ?_⟩
        by_cases hba : b = a
        · subst hba
          by_cases hxb : x = b
          · rw [hxb, ite_self]
          · rw [if_neg (by simp [(hall x (by simp) hxb).2])]
        · have hxa : a = x := hwhich.resolve_left (Ne.symm hba)
          subst hxa
          rw [if_pos (hall b (by simp) hba).1]
      obtain ⟨hmem, hwins⟩ := hbest
      refine ih _ (fun y hy => ?_) ?_
      · rcases List.mem_cons.1 hy with rfl | hy
        · refine hall _ ?_
          rcases List.mem_cons.1 hmem with h | h
          · rw [h]; simp
          · rw [List.mem_singleton.1 h]; simp
        · exact hall y (by simp [hy])
      · rcases List.mem_cons.1 hin with hab | hin
        · rw [hwins (Or.inl hab)]; simp
        · rcases List.mem_cons.1 hin with hax | hin
          · rw [hwins (Or.inr hax)]; simp
          · exact List.mem_cons_of_mem _ hin
  cases l with
  | nil => exact absurd hin List.not_mem_nil
  | cons b l => exact congrArg some (hfold l b hfirst hin)

/-! ### What every dispatch does -/

/-- A task as it is dispatched. -/
def begunTask (g : Graph) (t x : Task) : Task :=
  { x with
    head := false, order := g.dispatches, mbNum := x.mbNum.or (mbNum g x.record)
    poisonIn := x.poisonIn || g.poisoned.any fun p => p.1 == t.index }

/-- The graph as a task is dispatched. -/
def begunGraph (g : Graph) (t : Task) : Graph :=
  { g with
    mbs := openAt g t, dispatches := g.dispatches + 1
    tasks := updFirst (fun x => x.index == t.index) (begunTask g t) g.tasks
    retired := updFirst (fun x => x.index == t.index) (begunTask g t) g.retired }

theorem beginDispatch_eq {e : Engine} {g : Graph} (t : Task) (hrun : e.sch.run = some g) : ∃ gen iter ctr,
    beginDispatch e g t = { e with ctr := ctr, sch := { e.sch with run := some { begunGraph g t with gen := gen }, genIter := iter } } := by
  have hbegun : onTask (onGraph e fun g => { g with mbs := openAt g t, dispatches := g.dispatches + 1 }) t.index (begunTask g t) =
      { e with sch := { e.sch with run := some (begunGraph g t) } } := by
    simp only [onTask, onGraph, hrun, Option.map_some]
    rfl
  have hloops : ∀ (e : Engine) (g : Graph) p, e.sch.run = some g → ∃ gen iter,
      startLoops e p = { e with sch := { e.sch with run := some { g with gen := gen }, genIter := iter } } := by
    intro e g p hrun
    dsimp only [startLoops]
    split
    · exact ⟨_, 0, by rw [onGraph, hrun]; rfl⟩
    · exact ⟨g.gen, e.sch.genIter, by rw [← hrun]⟩
  obtain ⟨gen, iter, hgen⟩ := hloops { e with sch := { e.sch with run := some (begunGraph g t) } } (begunGraph g t)
    (fun l => decide (l.first ≤ t.index ∧ t.index < l.task)) rfl
  have hstart : beginDispatch e g t =
      if (g.poisoned.any fun p => p.1 == t.index) && !t.reissued then bump (startLoops (onTask (onGraph e fun g =>
        { g with mbs := openAt g t, dispatches := g.dispatches + 1 }) t.index (begunTask g t))
          fun l => decide (l.first ≤ t.index ∧ t.index < l.task)) .poisonIn 1
      else startLoops (onTask (onGraph e fun g => { g with mbs := openAt g t, dispatches := g.dispatches + 1 }) t.index (begunTask g t))
          fun l => decide (l.first ≤ t.index ∧ t.index < l.task) := rfl
  rw [hstart, hbegun, hgen]
  split
  · exact ⟨gen, iter, _, (bump_spec _ _ _).2.2⟩
  · exact ⟨gen, iter, e.ctr, rfl⟩

theorem taskOf_begun {e : Engine} {g : Graph} {t : Task} {gen : Option Gen} (iter : Nat) (ctr : AMap Ctr Nat) (hrun : e.sch.run = some g) (i : Nat) :
    taskOf { e with ctr := ctr, sch := { e.sch with run := some { begunGraph g t with gen := gen }, genIter := iter } } i =
      if i = t.index then (taskOf e i).map (begunTask g t) else taskOf e i := by
  have hsame := taskOf_congr (e := onTask e t.index (begunTask g t))
    (e' := { e with ctr := ctr, sch := { e.sch with run := some { begunGraph g t with gen := gen }, genIter := iter } })
    (by rw [onTask, onGraph, hrun]; rfl) i
  rw [hsame]
  split
  · next h => rw [h, taskOf_onTask_self]
  · next h => rw [taskOf_onTask_ne e h]

/-! ### Where a task goes -/

theorem eligible_congr {e e' : Engine} (hcombs : e'.combs = e.combs) (hpwr : e'.pwr = e.pwr) (hsamples : samplesOf e' = samplesOf e)
    (hfill : ∀ i, (taskOf e' i).map isFiller = (taskOf e i).map isFiller) (c : CombId) (filler : Bool) :
    eligible e' c filler = eligible e c filler := by
  have hone : ∀ i, (match taskOf e' i with | some t => isFiller t | none => false) = match taskOf e i with | some t => isFiller t | none => false :=
    fun i => by
      have h := hfill i
      cases h' : taskOf e' i <;> cases h'' : taskOf e i <;> simp_all
  unfold eligible
  simp only [combOf_congr hcombs, islandOf, hpwr, hsamples]
  refine ite_congr rfl (fun _ => rfl) fun _ => ite_congr rfl (fun _ => ?_) fun _ => rfl
  refine congrArg (fun n => min _ (_ - n)) (congrArg (fun p => countIf p (combOf e c).ctxs) (funext fun o => ?_))
  cases o with
  | none => rfl
  | some k => exact hone k.task

theorem targetOf_congr {e e' : Engine} {t t' : Task} (hregion : ∀ h, regionOf e' h = regionOf e h) (hcombs : e'.combs = e.combs)
    (hfences : e'.fences = e.fences) (heligible : ∀ c filler, eligible e' c filler = eligible e c filler) (hrecord : t'.record = t.record)
    (haged : t'.aged = t.aged) (g : Graph) : targetOf e' g t' = targetOf e g t := by
  have hen := enabled_of_fences hfences
  have hens := enabledCombs_of_fences hfences
  simp only [targetOf, shardComb, combFor, nextEnabled, freestComb, hregion, combOf_congr hcombs, hen, hens, heligible, hrecord, isFiller, haged]

/-! ### A dispatch as a whole -/

theorem taskDispatch_eq (m : Mem) {e : Engine} {g : Graph} {tk : Task} (hrunning : running e = true) (hrun : e.sch.run = some g)
    (hstop : g.stop = none) (htask : taskOf e tk.index = some tk) (hready : tk.life = .ready) (hgo : canGo e g tk = true)
    (hfirst : ∀ o ∈ g.tasks, o ≠ tk → o.life = .ready → canGo e g o = true → lexLt (rankOf g tk) (rankOf g o) = true) :
    taskDispatch m e = startTask m (beginDispatch e g tk) g (begunTask g tk tk) := by
  have hin : tk ∈ g.tasks := by
    simp only [taskOf, hrun] at htask
    exact List.mem_of_find?_eq_some htask
  have hbest : firstOf (fun a b => lexLt (rankOf g a) (rankOf g b)) (g.tasks.filter fun t => t.life == .ready && canGo e g t) = some tk := by
    refine firstOf_of_before (List.mem_filter.2 ⟨hin, by simp [hready, hgo]⟩) fun o ho hne => ?_
    obtain ⟨ho, hable⟩ := List.mem_filter.1 ho
    simp only [Bool.and_eq_true, beq_iff_eq] at hable
    have hlt := hfirst o ho hne hable.1 hable.2
    exact ⟨hlt, lexLt_asymm _ _ hlt⟩
  obtain ⟨gen, iter, ctr, hbegun⟩ := beginDispatch_eq tk hrun
  have htask' : taskOf (beginDispatch e g tk) tk.index = some (begunTask g tk tk) := by
    rw [hbegun, taskOf_begun iter ctr hrun, if_pos rfl, htask, Option.map_some]
  simp only [taskDispatch, hrun, hrunning, hstop, hbest, htask', Bool.not_true, Option.isSome_none, Bool.or_false, Bool.false_eq_true, if_false]

/-- The engine in which a task of graph g is being dispatched. -/
structure Dispatching (e e' : Engine) (g : Graph) (tk : Task) : Prop where
  task : taskOf e' tk.index = some (begunTask g tk tk)
  target : targetOf e' g (begunTask g tk tk) = targetOf e g tk
  skip : skips e' tk.record = skips e tk.record
  graph : ∃ g', e'.sch.run = some g' ∧ g'.dispatches = g.dispatches + 1
  rest : e' = { e with ctr := e'.ctr, sch := e'.sch }

theorem dispatching_begun {e : Engine} {g : Graph} {tk : Task} (hrun : e.sch.run = some g) (htask : taskOf e tk.index = some tk) :
    Dispatching e (beginDispatch e g tk) g tk := by
  obtain ⟨gen, iter, ctr, hbegun⟩ := beginDispatch_eq tk hrun
  have htasks : ∀ i, taskOf (beginDispatch e g tk) i = if i = tk.index then (taskOf e i).map (begunTask g tk) else taskOf e i := fun i => by
    rw [hbegun, taskOf_begun iter ctr hrun]
  have hregion : ∀ h, regionOf (beginDispatch e g tk) h = regionOf e h := fun h => regionOf_congr (by rw [hbegun, hrun]; rfl) h
  have hfill : ∀ i, (taskOf (beginDispatch e g tk) i).map isFiller = (taskOf e i).map isFiller := fun i => by
    rw [htasks]
    split
    · rw [Option.map_map]; rfl
    · rfl
  refine ⟨by rw [htasks, if_pos rfl, htask, Option.map_some], ?_, ?_, ⟨_, by rw [hbegun], rfl⟩, by rw [hbegun]⟩
  · refine targetOf_congr hregion (by rw [hbegun]) (by rw [hbegun]) ?_ rfl rfl g
    exact eligible_congr (by rw [hbegun]) (by rw [hbegun]) (by rw [hbegun, samplesOf, samplesOf, hrun]; rfl) hfill
  · simp only [skips, hregion]

end Sys2Proof.Machine
end

section
/-! Proofs: tasks dispatched to the hub, to the link groups and to combs (R248, R306, R310, R426). -/

namespace Sys2Proof.Machine

/-! ### Tasks of the hub and of the link groups -/

theorem startTask_light (m : Mem) (e : Engine) (g : Graph) {t : Task} (hkind : t.record.kind = kLIGHT) (hep : t.record.epilogue = 0)
    (harg : t.record.arg.toNat % 32 = 0) : startTask m e g t =
      { onTask e t.index fun x => { x with life := .running .hub } with hf := { e.hf with light := some (t.index, 0) } } := by
  have hskip : skips e t.record = false := by simp [skips, hkind, kLIGHT, kDW]
  simp [startTask, hskip, isCombTask, isCap, hkind, hep, harg, kLIGHT, kSELECT, kUPDATE, kMASK, kCKPT, kBUCKET, onTask, onGraph]

theorem startTask_bucket {m : Mem} (e : Engine) (g : Graph) {t : Task} (hkind : t.record.kind = kBUCKET) (hep : t.record.epilogue = 0) :
    startTask m e g t = if signBroadcast m e t.record then onTask e t.index fun x => { x with life := .ended .link 3 codeTaskInvalid }
      else takeBucket (onTask e t.index fun x => { x with life := .running .link }) t.index t.record.step := by
  have hskip : skips e t.record = false := by simp [skips, hkind, kBUCKET, kDW]
  have hend : endTask e t.index .link 3 codeTaskInvalid = onTask e t.index fun x => { x with life := .ended .link 3 codeTaskInvalid } :=
    endTask_of_ok .link (Or.inr (by decide))
  simp [startTask, hskip, isCombTask, isCap, hkind, hep, hend, kSELECT, kUPDATE, kMASK, kCKPT, kBUCKET]

/-- A task whose bucket no step repeat has kept gets a bucket of its own. -/
theorem takeBucket_new {e : Engine} {i : Nat} (step : Nat)
    (hnew : ∀ b ∈ e.lnk.buckets, ¬(b.task = i ∧ b.dispatched = false ∧ b.state = .waiting)) :
    takeBucket e i step = { e with lnk := { e.lnk with
      buckets := e.lnk.buckets ++ [{ parseBucket [] i step with order := e.lnk.admissions }], admissions := e.lnk.admissions + 1 } } := by
  have hnone : (e.lnk.buckets.any fun b => b.task == i && !b.dispatched && b.state == .waiting) = false := by
    rw [List.any_eq_false]
    intro b hb
    have := hnew b hb
    simp only [Bool.and_eq_true, beq_iff_eq, Bool.not_eq_true', and_assoc]
    exact this
  simp only [takeBucket, hnone, Bool.false_eq_true, if_false]

/-! ### Descriptors at dispatch -/

/-- What the descriptors of a dispatched task leave: the contexts, the memory port, the mailboxes and the tasks. -/
def besidesDescs (e : Engine) : List (List (Option Ctx)) × MemPort × Mbx × Option (List Task) :=
  (e.combs.map Comb.ctxs, e.mp, e.mbx, e.sch.run.map Graph.tasks)

theorem poisonBlind_besidesDescs : PoisonBlind besidesDescs where
  log _ _ := rfl
  raised _ := rfl
  marked _ _ _ _ _ _ hrun := by simp [besidesDescs, hrun]

section Parts
variable {e e' : Engine} (h : besidesDescs e' = besidesDescs e)
include h

theorem mbx_of_besidesDescs : e'.mbx = e.mbx := (congrArg (fun p => p.2.2.1) h :)
theorem mp_of_besidesDescs : e'.mp = e.mp := (congrArg (fun p => p.2.1) h :)
theorem taskOf_of_besidesDescs (i : Nat) : taskOf e' i = taskOf e i := taskOf_congr (congrArg (fun p => p.2.2.2) h :) i
theorem length_of_besidesDescs : e'.combs.length = e.combs.length := by
  have hlen := (congrArg (fun p => p.1.length) h :)
  simpa [besidesDescs] using hlen
theorem ctxs_of_besidesDescs (c : CombId) : (combOf e' c).ctxs = (combOf e c).ctxs := by
  have hget : (e'.combs[c.val]?).map Comb.ctxs = (e.combs[c.val]?).map Comb.ctxs := by
    rw [← List.getElem?_map, ← List.getElem?_map, show e'.combs.map Comb.ctxs = e.combs.map Comb.ctxs from (congrArg Prod.fst h :)]
  unfold combOf
  cases h' : e'.combs[c.val]? <;> cases h'' : e.combs[c.val]? <;> simp_all

end Parts

theorem besidesDescs_bump (e : Engine) (k : Ctr) (n : Nat) : besidesDescs (bump e k n) = besidesDescs e := by
  rw [(bump_spec e k n).2.2]; rfl

theorem besidesDescs_onComb (e : Engine) (c : CombId) {f : Comb → Comb} (hf : ∀ cb, (f cb).ctxs = cb.ctxs) :
    besidesDescs (onComb e c f) = besidesDescs e := by
  simp only [besidesDescs, onComb, map_updAt_of_eq Comb.ctxs hf]

theorem besidesDescs_onVer (e : Engine) (h : Nat) (f : VerEntry → VerEntry) : besidesDescs (onVer e h f) = besidesDescs e := by
  simp [besidesDescs, onVer, onGraph, Function.comp_def]

theorem besidesDescs_cacheBatch (e : Engine) (c : CombId) (hold : List Nat) (b : Batch) :
    besidesDescs (cacheBatch e c hold b) = besidesDescs e :=
  besidesDescs_onComb e c fun cb => by
    dsimp only [keepBatch]
    split
    · rfl
    · split <;> rfl

theorem besidesDescs_batchFor (m : Mem) (e : Engine) (c : CombId) (hold : List Nat) (a : Nat) :
    besidesDescs (batchFor m e c hold a).2.2 = besidesDescs e := by
  unfold batchFor
  split
  · exact besidesDescs_cacheBatch ..
  · have hcount : ∀ b : Bool, besidesDescs (if b then bumpComb e c .descRefetch 1 else e) = besidesDescs e := fun b => by
      split
      · exact besidesDescs_bump ..
      · rfl
    dsimp only [landedPoison]
    split
    · exact (besidesDescs_cacheBatch ..).trans (hcount _)
    · exact (poisonBlind_besidesDescs.poisonEvent ..).trans ((besidesDescs_bump ..).trans ((besidesDescs_cacheBatch ..).trans (hcount _)))

theorem besidesDescs_rearm (e : Engine) (c : CombId) (t : TaskRec) (b : Batch) (known : Bool) :
    besidesDescs (rearm e c t b known).2 = besidesDescs e := by
  unfold rearm
  split
  · rfl
  · split
    · rfl
    · refine (besidesDescs_cacheBatch ..).trans ?_
      split
      · rfl
      · exact besidesDescs_bump ..

theorem besidesDescs_nameDesc (m : Mem) (e : Engine) (c : CombId) (hold : List Nat) (b : Batch) (role n : Nat) :
    besidesDescs (nameDesc m e c hold b role n).2 = besidesDescs e := by
  unfold nameDesc
  dsimp only
  split
  · exact besidesDescs_batchFor ..
  · rfl

theorem besidesDescs_nameDescs (m : Mem) (e : Engine) (c : CombId) (t : TaskRec) :
    besidesDescs (nameDescs m e c t).2 = besidesDescs e := by
  unfold nameDescs
  split
  · rfl
  · refine (foldl_keeps (fun acc : List NamedDesc × Engine => besidesDescs acc.2) (fun acc r => ?_) _ _).trans
      ((besidesDescs_rearm ..).trans (besidesDescs_batchFor ..))
    split
    · exact besidesDescs_nameDesc ..
    · rfl

theorem besidesDescs_readSlot (e : Engine) (i : Nat) (t : TaskRec) (mask : Nat) : besidesDescs (readSlot e i t mask).2 = besidesDescs e := by
  unfold readSlot
  split
  · unfold pinTask
    split
    · rfl
    · split
      · rfl
      · dsimp only
        split
        · rfl
        · exact besidesDescs_onVer ..
  · split <;> rfl

theorem besidesDescs_stepShard (e : Engine) (c : CombId) (t : TaskRec) : besidesDescs (stepShard e c t) = besidesDescs e := by
  unfold stepShard
  split
  · rfl
  · exact besidesDescs_onComb _ _ fun _ => rfl

/-! ### A comb task starts or fails -/

/-- A comb task that has taken a context of its comb, or failed there, with its record. -/
def StartedAt (e : Engine) (c : CombId) (i : Nat) (r : TaskRec) : Prop :=
  ∃ tk, taskOf e i = some tk ∧ tk.record = r ∧
    ((tk.life = .running (.comb c) ∧ ∃ k, some k ∈ (combOf e c).ctxs ∧ k.task = i) ∨ ∃ code, tk.life = .ended (.comb c) 3 code)

theorem failAt_started {e : Engine} {i : Nat} {tk : Task} (c : CombId) (code : Nat) (htask : taskOf e i = some tk) :
    StartedAt (failAt e i c code) c i tk.record ∧ (failAt e i c code).mbx = e.mbx ∧ (failAt e i c code).mp = e.mp := by
  have hcount : ∀ (P : Prop) [Decidable P] e k n, besidesDescs (if P then bumpComb e c k n else e) = besidesDescs e := fun P _ e k n => by
    split
    · exact besidesDescs_bump ..
    · rfl
  unfold failAt
  dsimp only
  generalize hcounted : (if code = codeEpochStale then bumpComb _ c .epochStale 1 else _) = e₁
  have hkept : besidesDescs e₁ = besidesDescs e := by rw [← hcounted, hcount, hcount]
  have hhalt : ∀ e', (haltOnFail e' code).mbx = e'.mbx ∧ (haltOnFail e' code).mp = e'.mp := fun e' => by
    unfold haltOnFail
    split
    · rw [askStop_frame]; exact ⟨rfl, rfl⟩
    · exact ⟨rfl, rfl⟩
  obtain ⟨hmbx, hmp⟩ := hhalt (onTask e₁ i fun t => { t with life := .ended (.comb c) 3 code })
  rw [endTask, if_pos rfl]
  refine ⟨⟨{ tk with life := .ended (.comb c) 3 code }, ?_, rfl, Or.inr ⟨code, rfl⟩⟩, hmbx.trans ?_, hmp.trans ?_⟩
  · rw [taskOf_haltOnFail, taskOf_onTask_self, taskOf_of_besidesDescs hkept, htask]
    rfl
  · exact (mbx_of_besidesDescs hkept : e₁.mbx = e.mbx)
  · exact (mp_of_besidesDescs hkept : e₁.mp = e.mp)

theorem besidesDescs_attachStreams (e : Engine) (c : CombId) (r : Nat) : besidesDescs (attachStreams e c r) = besidesDescs e := by
  refine foldl_keeps besidesDescs (fun e u => ?_) _ e
  refine besidesDescs_onComb e c ?_
  exact fun _ => rfl

theorem takeCtx_started {e : Engine} {i : Nat} {c : CombId} {tk : Task} {k : Ctx} (htask : taskOf e i = some tk) (hk : k.task = i)
    (hc : c.val < e.combs.length) (hfree : none ∈ (combOf e c).ctxs) :
    StartedAt (takeCtx e i c k) c i tk.record ∧ (takeCtx e i c k).mbx = e.mbx ∧ (takeCtx e i c k).mp = e.mp := by
  obtain ⟨x, hx, hlt⟩ := exists_indexOf? (p := Option.isNone) hfree rfl
  unfold takeCtx
  simp only [hx]
  generalize hk' : ({ k with outs := _ } : Ctx) = k'
  generalize hput : onTask (onComb e c _) i _ = e₁
  have hattached : besidesDescs ((dedup (k.descs.map fun p => p.2.ring)).foldl (fun e r => attachStreams e c r) e₁) = besidesDescs e₁ :=
    foldl_keeps besidesDescs (fun e r => besidesDescs_attachStreams e c r) _ e₁
  have hctx : some k' ∈ (combOf e₁ c).ctxs := by
    rw [← hput, combOf_congr (show (onTask (onComb e c _) i _).combs = (onComb e c _).combs from rfl), combOf_onComb_self _ hc]
    refine List.mem_of_getElem? (i := x) ?_
    rw [updAt_getElem?_self, List.getElem?_eq_getElem hlt, Option.map_some]
  have htask₁ : taskOf e₁ i = some { tk with life := .running (.comb c) } := by
    rw [← hput, taskOf_onTask_self, taskOf_onComb, htask, Option.map_some]
  refine ⟨⟨_, (taskOf_of_besidesDescs hattached i).trans htask₁, rfl, Or.inl ⟨rfl, k', ?_, ?_⟩⟩, ?_, ?_⟩
  · rw [ctxs_of_besidesDescs hattached]; exact hctx
  · rw [← hk']; exact hk
  · rw [mbx_of_besidesDescs hattached, ← hput]; rfl
  · rw [mp_of_besidesDescs hattached, ← hput]; rfl

theorem startComb_started (m : Mem) {e : Engine} {tk : Task} {c : CombId} (htask : taskOf e tk.index = some tk)
    (hc : c.val < e.combs.length) (hfree : none ∈ (combOf e c).ctxs) :
    StartedAt (startComb m e tk c) c tk.index tk.record ∧ (startComb m e tk c).mbx = e.mbx ∧ (startComb m e tk c).mp = e.mp := by
  have hnamed := besidesDescs_nameDescs m e c tk.record
  unfold startComb
  dsimp only
  generalize (nameDescs m e c tk.record).2 = e₁ at *
  generalize (nameDescs m e c tk.record).1 = l
  have htask₁ := (taskOf_of_besidesDescs hnamed tk.index).trans htask
  split
  · next code _ =>
    obtain ⟨hstarted, hmbx, hmp⟩ := failAt_started c code htask₁
    exact ⟨hstarted, hmbx.trans (mbx_of_besidesDescs hnamed), hmp.trans (mp_of_besidesDescs hnamed)⟩
  · generalize (if isProduct tk.record then maskOf e tk.record else 0) = mask
    have hslot := (besidesDescs_readSlot e₁ tk.index tk.record mask).trans hnamed
    generalize (readSlot e₁ tk.index tk.record mask).2 = e₂ at *
    generalize (readSlot e₁ tk.index tk.record mask).1 = slot
    generalize hready : onComb (stepShard (onTask e₂ tk.index _) c tk.record) c _ = e₃
    have hkept : besidesDescs e₃ = besidesDescs (onTask e₂ tk.index fun t => { t with slotPin := slot }) := by
      rw [← hready]
      refine (besidesDescs_onComb _ _ ?_).trans (besidesDescs_stepShard ..)
      exact fun _ => rfl
    have htask₃ : taskOf e₃ tk.index = some { tk with slotPin := slot } := by
      rw [taskOf_of_besidesDescs hkept, taskOf_onTask_self, taskOf_of_besidesDescs hslot, htask, Option.map_some]
    have hlen₂ : e₂.combs.length = e.combs.length := length_of_besidesDescs hslot
    have hmbx₂ : e₂.mbx = e.mbx := mbx_of_besidesDescs hslot
    have hmp₂ : e₂.mp = e.mp := mp_of_besidesDescs hslot
    have hlen : e₃.combs.length = e.combs.length := (length_of_besidesDescs hkept).trans hlen₂
    have hctxs : (combOf e₃ c).ctxs = (combOf e c).ctxs := (ctxs_of_besidesDescs hkept c).trans (ctxs_of_besidesDescs hslot c)
    obtain ⟨hstarted, hmbx, hmp⟩ := takeCtx_started (k := { task := tk.index, order := _, descs := _, batches := _ }) htask₃ rfl
      (hlen.symm ▸ hc) (hctxs.symm ▸ hfree)
    exact ⟨hstarted, hmbx.trans ((mbx_of_besidesDescs hkept).trans hmbx₂), hmp.trans ((mp_of_besidesDescs hkept).trans hmp₂)⟩

/-! ### A comb that can take the task -/

/-- A comb from which a task may take a context has one that is free. -/
theorem none_mem_of_eligible {e : Engine} {c : CombId} {filler : Bool} (h : 0 < eligible e c filler) : none ∈ (combOf e c).ctxs := by
  have hfree : 0 < countIf Option.isNone (combOf e c).ctxs := by
    unfold eligible at h
    dsimp only at h
    split at h
    · omega
    · split at h <;> omega
  obtain ⟨o, ho⟩ := List.exists_mem_of_length_pos hfree
  obtain ⟨ho, hnone⟩ := List.mem_filter.1 ho
  exact Option.isNone_iff_eq_none.1 hnone ▸ ho

/-- A comb task that can be dispatched goes to a comb with a free context (R306). -/
theorem exists_target_of_canGo {e : Engine} {g : Graph} {t : Task} (hgo : canGo e g t = true) (hskip : skips e t.record = false)
    (hcomb : isCombTask t.record = true) : ∃ c, targetOf e g t = some c ∧ none ∈ (combOf e c).ctxs := by
  simp only [canGo, hskip, hcomb, Bool.and_eq_true, if_true, Bool.false_eq_true, if_false] at hgo
  obtain ⟨-, htarget, -⟩ := hgo
  cases hc : targetOf e g t with
  | none => simp [hc] at htarget
  | some c => exact ⟨c, rfl, none_mem_of_eligible (filler := isFiller t) (by simpa [hc] using htarget)⟩

theorem signBroadcast_congr (m : Mem) {e e' : Engine} (h : e'.mp = e.mp) (t : TaskRec) : signBroadcast m e' t = signBroadcast m e t := by
  rw [signBroadcast, signBroadcast, viewBytes_congr m h, viewPoisoned_congr m h]

/-- Settles O24: `taskDispatch_eq` names the task that is taken, and each unit's lemma says how it starts there. -/
theorem dispatchTakesBestReady : Obligations.DispatchTakesBestReady := by
  unfold Obligations.DispatchTakesBestReady
  refine ⟨?_, ?_⟩
  · intro s rd g tk hrunning hrun hstop htask hready hgo hlen hfirst
    obtain ⟨ctr, hctr⟩ := exists_readEng s rd
    have hstart := taskDispatch_eq (landed s.mem rd) (e := { s.eng with ctr := ctr }) hrunning hrun hstop htask hready hgo hfirst
    obtain ⟨htask', htarget, hskip, ⟨g', hrun', hcount⟩, hrest⟩ := dispatching_begun (e := { s.eng with ctr := ctr }) hrun htask
    rw [exec_taskDispatch, hctr, hstart]
    clear hstart
    generalize beginDispatch { s.eng with ctr := ctr } g tk = e at *
    have hmp : e.mp = s.eng.mp := (congrArg Engine.mp hrest :)
    refine ⟨fun hkind hep harg => ?_, fun hkind hep hsign => ?_, fun hkind hep hsign hnew => ?_, fun hcomb hskips => ?_⟩
    · rw [startTask_light _ e g (t := begunTask g tk tk) hkind hep harg]
      refine ⟨_, _, _, rfl, run_onGraph hrun' _, hcount, (taskOf_onTask_self e tk.index).trans (congrArg _ htask'), rfl, rfl, rfl, ?_,
        (congrArg Engine.combs hrest :), (congrArg Engine.lnk hrest :), (congrArg Engine.mbx hrest :), rfl, rfl⟩
      exact congrArg (fun h : HubForager => { h with light := some (tk.index, 0) }) (congrArg Engine.hf hrest :)
    · rw [startTask_bucket e g (t := begunTask g tk tk) hkind hep, if_pos (by exact (signBroadcast_congr _ hmp _).trans hsign)]
      exact ⟨_, _, rfl, (taskOf_onTask_self e tk.index).trans (congrArg _ htask'), rfl, (congrArg Engine.lnk hrest :),
        (congrArg Engine.combs hrest :), rfl⟩
    · have hlnk : e.lnk = s.eng.lnk := (congrArg Engine.lnk hrest :)
      rw [startTask_bucket e g (t := begunTask g tk tk) hkind hep,
        if_neg (by exact ne_true_of_eq_false ((signBroadcast_congr _ hmp _).trans hsign)), takeBucket_new _ (by exact hlnk ▸ hnew)]
      refine ⟨_, _, { parseBucket [] tk.index tk.record.step with order := e.lnk.admissions }, rfl,
        (taskOf_onTask_self e tk.index).trans (congrArg _ htask'), rfl, ?_, rfl, rfl, rfl, rfl, congrArg Links.admissions hlnk, ?_,
        (congrArg Engine.combs hrest :), (congrArg Engine.hf hrest :), rfl⟩
      · exact congrArg (fun l : Links => l.buckets ++ [{ parseBucket [] tk.index tk.record.step with order := e.lnk.admissions }]) hlnk
      · exact congrArg (fun l : Links => l.admissions + 1) hlnk
    · obtain ⟨c, hc, hfree⟩ := exists_target_of_canGo hgo hskips hcomb
      have hcombs : e.combs = s.eng.combs := (congrArg Engine.combs hrest :)
      have hsent : startTask (landed s.mem rd) e g (begunTask g tk tk) = startComb (landed s.mem rd) e (begunTask g tk tk) c := by
        have hskip' : skips e (begunTask g tk tk).record = false := hskip.trans hskips
        have hcomb' : isCombTask (begunTask g tk tk).record = true := hcomb
        simp only [startTask, hskip', hcomb', htarget.trans hc, Bool.false_eq_true, if_false, if_true]
      obtain ⟨⟨tk', htk', hrecord, hlife⟩, hmbx', hmp'⟩ := startComb_started (landed s.mem rd) (tk := begunTask g tk tk) (c := c) htask'
        (hcombs.symm ▸ hlen.symm ▸ c.isLt) (by rw [combOf_congr hcombs]; exact hfree)
      rw [hsent]
      exact ⟨_, tk', c, rfl, htk', hc, hrecord, hlife, hmbx'.trans (congrArg Engine.mbx hrest :), hmp'.trans hmp, rfl⟩
  · intro s i tk hrunning htask hready hcls hage
    have hgo : (!running s.eng || decide (ageUs s.eng = 0)) = false := by simp [hrunning, Nat.ne_of_gt hage]
    have haged : taskAge s.eng i = onTask s.eng i fun t => if t.life = .ready ∧ t.record.cls = 2 then { t with aged := true } else t := by
      unfold taskAge
      rw [if_neg (by simpa using hgo)]
    refine ⟨{ s with eng := taskAge s.eng i }, rfl, ?_, fun j hne => ?_, by rw [haged]; rfl, rfl⟩
    · rw [haged, taskOf_onTask_self _ _ fun t => by split <;> rfl, htask, Option.map_some, if_pos ⟨hready, hcls⟩]
    · rw [haged, taskOf_onTask_ne _ hne fun t => by split <;> rfl]

end Sys2Proof.Machine
end

section
/-! Proofs: repair, prune and regrow of a block (R355). -/

namespace Sys2Proof.Machine

/-! ### The lowest magnitude, and a position taken away -/

theorem firstOf_mem {α : Type} {before : α → α → Bool} {l : List α} {a : α} (h : firstOf before l = some a) : a ∈ l := by
  cases l with
  | nil => simp [firstOf] at h
  | cons b l =>
    obtain rfl := Option.some.inj h
    induction l generalizing b with
    | nil => simp
    | cons x l ih =>
      rw [List.foldl_cons]
      split
      · exact List.mem_cons_of_mem _ (ih x rfl)
      · exact List.mem_cons.2 ((List.mem_cons.1 (ih b rfl)).imp_right (List.mem_cons_of_mem _))

/-- The position chosen among those that satisfy a condition is one of them. -/
theorem of_lowestMag_filter {q : MaskPos → Bool} {l : List MaskPos} {p : MaskPos} (h : lowestMag (l.filter q) = some p) :
    p ∈ l ∧ q p = true := List.mem_filter.1 (firstOf_mem h)

/-- Where none is chosen, no position satisfies the condition. -/
theorem not_of_lowestMag_filter {q : MaskPos → Bool} {l : List MaskPos} (h : lowestMag (l.filter q) = none) : ∀ x ∈ l, q x = false := by
  have hnil : l.filter q = [] := by
    cases hf : l.filter q with
    | nil => rfl
    | cons a l' => simp [hf, lowestMag, firstOf] at h
  exact fun x hx => Bool.eq_false_iff.2 (List.filter_eq_nil_iff.1 hnil x hx)

theorem mem_removePos {l : List MaskPos} {p x : MaskPos} : x ∈ removePos l p ↔ x ∈ l ∧ ¬(x.r = p.r ∧ x.c = p.c) := by
  simp [removePos, imp_iff_not_or]

theorem removePos_subset {l : List MaskPos} {p : MaskPos} : ∀ x ∈ removePos l p, x ∈ l := fun _ hx => (mem_removePos.1 hx).1

/-- A position taken away makes the list shorter. -/
theorem length_removePos_lt {l : List MaskPos} {p : MaskPos} (h : p ∈ l) : (removePos l p).length < l.length :=
  List.length_filter_lt_length_iff_exists.2 ⟨p, h, by simp⟩

/-! ### Repair (step 1) -/

/-- A position that may go and stands in a row or column with more than `n`. -/
def surplus (n : Nat) (l : List MaskPos) (x : MaskPos) : Bool := !x.fixed && decide (n < rowCnt l x.r ∨ n < colCnt l x.c)

theorem repairBlock_succ (n fuel : Nat) (l : List MaskPos) : repairBlock n (fuel + 1) l =
    match lowestMag (l.filter (surplus n l)) with
    | some p => repairBlock n fuel (removePos l p)
    | none => l := by
  rw [repairBlock]
  rfl

theorem repairBlock_subset (n fuel : Nat) (l : List MaskPos) : ∀ x ∈ repairBlock n fuel l, x ∈ l := by
  induction fuel generalizing l with
  | zero => exact fun _ hx => hx
  | succ fuel ih =>
    rw [repairBlock_succ]
    split
    · next p _ => exact fun x hx => removePos_subset x (ih (removePos l p) x hx)
    · exact fun _ hx => hx

/-- Each round takes one position away, so that as many rounds as positions end with none too many. -/
theorem repairBlock_no_surplus (n fuel : Nat) (l : List MaskPos) (hfuel : l.length ≤ fuel) :
    ∀ x ∈ repairBlock n fuel l, surplus n (repairBlock n fuel l) x = false := by
  induction fuel generalizing l with
  | zero => simp [repairBlock, List.length_eq_zero_iff.1 (Nat.le_zero.1 hfuel)]
  | succ fuel ih =>
    rw [repairBlock_succ]
    split
    · next p hp =>
      have hshort := length_removePos_lt (of_lowestMag_filter hp).1
      exact ih (removePos l p) (by omega)
    · next hnone => exact not_of_lowestMag_filter hnone

/-- A fixed position stays, where no other position shares its place. -/
theorem repairBlock_keeps_fixed (n fuel : Nat) (l : List MaskPos) {x : MaskPos} (hx : x ∈ l) (hfixed : x.fixed = true)
    (halone : ∀ y ∈ l, y.r = x.r → y.c = x.c → y = x) : x ∈ repairBlock n fuel l := by
  induction fuel generalizing l with
  | zero => exact hx
  | succ fuel ih =>
    rw [repairBlock_succ]
    split
    · next p hp =>
      obtain ⟨hpl, hsur⟩ := of_lowestMag_filter hp
      have hne : ¬(x.r = p.r ∧ x.c = p.c) := fun ⟨hr, hc⟩ => by
        have hpx : p = x := halone p hpl hr.symm hc.symm
        simp [surplus, hpx, hfixed] at hsur
      exact ih (removePos l p) (mem_removePos.2 ⟨hx, hne⟩) fun y hy => halone y (removePos_subset y hy)
    · exact hx

theorem limits_of_not_surplus {n : Nat} {l : List MaskPos} {x : MaskPos} (h : surplus n l x = false) (hfree : x.fixed = false) :
    rowCnt l x.r ≤ n ∧ colCnt l x.c ≤ n := by
  simpa [surplus, hfree] using h

/-! ### Prune (step 2) -/

/-- What pruning keeps and takes, beside what has gone already. -/
theorem pruneBlock_spec (p : Nat) (l gone : List MaskPos) : (pruneBlock p l gone).2.length ≤ gone.length + p ∧
    (∀ x ∈ (pruneBlock p l gone).2, x ∈ gone ∨ (x ∈ l ∧ x.fixed = false)) ∧ (∀ x ∈ (pruneBlock p l gone).1, x ∈ l) := by
  induction p generalizing l gone with
  | zero => exact ⟨Nat.le_refl _, fun _ hx => .inl hx, fun _ hx => hx⟩
  | succ p ih =>
    rw [pruneBlock]
    split
    · next a ha =>
      obtain ⟨hal, hfree⟩ := of_lowestMag_filter ha
      obtain ⟨hlen, hgone, hkept⟩ := ih (removePos l a) (gone ++ [a])
      refine ⟨by rw [List.length_append, List.length_singleton] at hlen; omega, fun x hx => ?_, fun x hx => removePos_subset x (hkept x hx)⟩
      rcases hgone x hx with hx | ⟨hx, hxfree⟩
      · rcases List.mem_append.1 hx with hx | hx
        · exact .inl hx
        · obtain rfl := List.mem_singleton.1 hx
          exact .inr ⟨hal, by simpa using hfree⟩
      · exact .inr ⟨removePos_subset x hx, hxfree⟩
    · exact ⟨Nat.le_add_right _ _, fun _ hx => .inl hx, fun _ hx => hx⟩

/-! ### Regrow (step 3) -/

/-- A position inserted at the end counts in its own row and column alone. -/
theorem rowCnt_append_regrown (l : List MaskPos) (x : MaskCand) (i : Nat) :
    rowCnt (l ++ [regrown x]) i = rowCnt l i + if x.r = i then 1 else 0 := by
  by_cases h : x.r = i <;> simp [rowCnt, countIf, regrown, h]

theorem colCnt_append_regrown (l : List MaskPos) (x : MaskCand) (i : Nat) :
    colCnt (l ++ [regrown x]) i = colCnt l i + if x.c = i then 1 else 0 := by
  by_cases h : x.c = i <;> simp [colCnt, countIf, regrown, h]

/-- A candidate under the limit in its row and column leaves every row and column within the limit that was within it. -/
theorem limits_append_regrown {n : Nat} {l : List MaskPos} {x : MaskCand} (hrow : rowCnt l x.r < n) (hcol : colCnt l x.c < n) (i : Nat) :
    (rowCnt l i ≤ n → rowCnt (l ++ [regrown x]) i ≤ n) ∧ (colCnt l i ≤ n → colCnt (l ++ [regrown x]) i ≤ n) := by
  rw [rowCnt_append_regrown, colCnt_append_regrown]
  constructor
  · intro h
    split
    · next hi => subst hi; omega
    · exact h
  · intro h
    split
    · next hi => subst hi; omega
    · exact h

theorem regrowBlock_spec (n : Nat) (cs : List MaskCand) (left : Nat) (l : List MaskPos) : (regrowBlock n cs left l).1 ≤ left ∧
    (regrowBlock n cs left l).2.length = l.length + (regrowBlock n cs left l).1 ∧
    ∀ i, (rowCnt l i ≤ n → rowCnt (regrowBlock n cs left l).2 i ≤ n) ∧
      (colCnt l i ≤ n → colCnt (regrowBlock n cs left l).2 i ≤ n) := by
  induction cs generalizing left l with
  | nil => exact ⟨Nat.zero_le _, rfl, fun _ => ⟨id, id⟩⟩
  | cons x cs ih =>
    cases left with
    | zero => exact ⟨Nat.zero_le _, rfl, fun _ => ⟨id, id⟩⟩
    | succ left =>
      rw [regrowBlock]
      split
      · next hroom =>
        obtain ⟨hle, hlen, hlimits⟩ := ih left (l ++ [regrown x])
        have hinsert := limits_append_regrown hroom.1 hroom.2
        rw [List.length_append, List.length_singleton] at hlen
        exact ⟨Nat.succ_le_succ hle, by rw [hlen, Nat.add_right_comm, Nat.add_assoc],
          fun i => ⟨(hlimits i).1 ∘ (hinsert i).1, (hlimits i).2 ∘ (hinsert i).2⟩⟩
      · exact ih (left + 1) l

/-- Settles O47: each step of R355 by the lemmas about it; repair ends for want of a position too many. -/
theorem maskBlockKeepsLimits : Obligations.MaskBlockKeepsLimits := by
  unfold Obligations.MaskBlockKeepsLimits
  refine fun n l => ⟨fun fuel hfuel => ⟨fun x hx => ⟨repairBlock_subset n fuel l x hx, ?_⟩,
    fun x hx => repairBlock_keeps_fixed n fuel l hx⟩, fun p => ?_, fun cs left => ?_⟩
  · exact limits_of_not_surplus (repairBlock_no_surplus n fuel l hfuel x hx)
  · obtain ⟨hlen, hgone, hkept⟩ := pruneBlock_spec p l []
    exact ⟨by simpa using hlen, fun x hx => by simpa using hgone x hx, hkept⟩
  · obtain ⟨hle, hlen, hlimits⟩ := regrowBlock_spec n cs left l
    exact ⟨hle, hlen, fun i => (hlimits i).1, fun i => (hlimits i).2⟩

end Sys2Proof.Machine
end

section
/-! Proofs: the coefficient window (R575, R335) and the read of an underflow observer (R446). -/

namespace Sys2Proof.Machine

/-! ### The selection of UPD_COEF_SEL -/

/-- The bits that two numbers share, field by field. -/
theorem land_at_add {k b b' : Nat} (a a' : Nat) (hb : b < 2 ^ k) (hb' : b' < 2 ^ k) :
    Nat.land (at' a k + b) (at' a' k + b') = at' (Nat.land a a') k + Nat.land b b' := by
  have hdiv : Nat.land (at' a k + b) (at' a' k + b') / 2 ^ k = Nat.land a a' := by
    refine (Nat.and_div_two_pow (n := k)).trans ?_
    rw [at', at', Nat.add_comm, Nat.add_mul_div_right _ _ (Nat.two_pow_pos k), Nat.add_comm _ b', Nat.add_mul_div_right _ _ (Nat.two_pow_pos k),
      Nat.div_eq_of_lt hb, Nat.div_eq_of_lt hb', Nat.zero_add, Nat.zero_add]
    rfl
  have hmod : Nat.land (at' a k + b) (at' a' k + b') % 2 ^ k = Nat.land b b' := by
    refine (Nat.and_mod_two_pow (n := k)).trans ?_
    rw [at', at', Nat.mul_add_mod', Nat.mul_add_mod', Nat.mod_eq_of_lt hb, Nat.mod_eq_of_lt hb']
    rfl
  rw [← Nat.div_add_mod' (Nat.land (at' a k + b) (at' a' k + b')) (2 ^ k), hdiv, hmod, at']

/-- A selection with AUTO_INC, of a group and a word within their fields, is stored as it is: all its bits are RW (R575). -/
theorem rwVal_setRw_updCoefSel (e : Engine) {g w : Nat} (hg : g < 64) (hw : w < 32) :
    rwVal (setRw e .updCoefSel (at' 1 31 + (at' g 8 + w))) .updCoefSel = at' 1 31 + (at' g 8 + w) := by
  have hlow : at' g 8 + w < 2 ^ 14 := by simp only [at']; omega
  have hmask : rwMask .updCoefSel = at' 1 31 + (at' 63 8 + 31) := rfl
  have hlowMask : at' 63 8 + 31 < 2 ^ 31 := by norm_num [at']
  have hauto : Nat.land 1 1 = 1 := rfl
  have hgroup : Nat.land g 63 = g := (Nat.and_two_pow_sub_one_eq_mod g 6).trans (Nat.mod_eq_of_lt hg)
  have hword : Nat.land w 31 = w := (Nat.and_two_pow_sub_one_eq_mod w 5).trans (Nat.mod_eq_of_lt hw)
  rw [rwVal_setRw_self, hmask, land_at_add _ _ (hlow.trans (by norm_num)) hlowMask,
    land_at_add _ _ (by omega) (by norm_num), hauto, hgroup, hword]
  simp only [at'] at hlow ⊢
  omega

/-- UPD_COEF_SEL selects word `w` of group `g` (R575). -/
structure Selects (e : Engine) (auto : Bool) (g w : Nat) : Prop where
  group_lt : g < 64
  word_lt : w < 20
  rwVal_eq : rwVal e .updCoefSel = at' (b2n auto) 31 + at' g 8 + w

/-- The fields of the selection. -/
theorem Selects.fields {e : Engine} {auto : Bool} {g w : Nat} (h : Selects e auto g w) : bits (rwVal e .updCoefSel) 0 5 = w ∧
    bits (rwVal e .updCoefSel) 8 6 = g ∧ bit (rwVal e .updCoefSel) 31 = auto := by
  obtain ⟨hg, hw, hsel⟩ := h
  have hbit : b2n auto < 2 := by cases auto <;> decide
  simp only [at'] at hsel
  refine ⟨by simp only [bits]; omega, by simp only [bits]; omega, ?_⟩
  have htop : rwVal e .updCoefSel / 2 ^ 31 % 2 = b2n auto := by omega
  rw [bit, htop]
  cases auto <;> rfl

theorem coefSelected_of_selects {e : Engine} {auto : Bool} {g w : Nat} (h : Selects e auto g w) : coefSelected e = some (20 * g + w) := by
  obtain ⟨hword, hgroup, -⟩ := h.fields
  simp only [coefSelected, hword, hgroup, if_pos h.word_lt]

/-- An access moves the selection on with AUTO_INC alone (R575). -/
theorem rwVal_coefAdvance {e : Engine} {auto : Bool} {g w : Nat} (h : Selects e auto g w) :
    rwVal (coefAdvance e) .updCoefSel = coefNext auto g w := by
  obtain ⟨hword, hgroup, hauto⟩ := h.fields
  obtain ⟨hg, hw, hsel⟩ := h
  simp only [coefAdvance, coefNext, hword, hgroup, hauto]
  cases auto with
  | false => simpa [at', b2n] using hsel
  | true =>
    simp only [hw, and_self, if_true, Bool.not_true, Bool.false_eq_true, if_false]
    split
    · have hfirst := rwVal_setRw_updCoefSel (w := 0) e (Nat.mod_lt (g + 1) (by decide : 0 < 64)) (by decide)
      rwa [Nat.add_zero] at hfirst
    · rw [Nat.add_assoc]
      exact rwVal_setRw_updCoefSel e hg (by omega)

/-- An access changes the selection alone. -/
theorem coefAdvance_frame (e : Engine) : coefAdvance e = { e with rw := (coefAdvance e).rw } := by
  unfold coefAdvance
  dsimp only
  split <;> rfl

/-- With WORD 20 to 31 nothing is selected, and nothing advances. -/
theorem coefSelected_of_ge {e : Engine} (h : 20 ≤ bits (rwVal e .updCoefSel) 0 5) : coefSelected e = none := if_neg (by omega)

theorem coefAdvance_of_ge {e : Engine} (h : 20 ≤ bits (rwVal e .updCoefSel) 0 5) : coefAdvance e = e := if_neg (by omega)

theorem rwVal_congr {e e' : Engine} (h : e'.rw = e.rw) (r : RegName) : rwVal e' r = rwVal e r := by rw [rwVal, rwVal, h]

theorem coefSelected_congr {e e' : Engine} (h : e'.rw = e.rw) : coefSelected e' = coefSelected e := by
  simp only [coefSelected, rwVal_congr h]

/-- Held shadows show the RW fields as they stand (R443). -/
theorem readSrc_rw (s : State) : (readSrc s).rw = s.eng.rw := by
  unfold readSrc
  split <;> rfl

/-! ### Words of the table -/

/-- A read passes over the writes that wait for other words (R446). -/
theorem coefRead_of_none {ps : List Posted} {e : Engine} {i : Nat} (hi : coefSelected e = some i) (h : ∀ p ∈ ps, p.coef ≠ some i) :
    coefRead ps e = (coefWord e i).toNat := by
  simp only [coefRead, hi]
  exact (List.foldl_ext _ (fun v _ => v) _ fun v p hp => if_neg (h p hp)).trans (List.foldl_fixed' (fun _ => rfl) ps)

/-- The last write that waits for the word decides what a read returns (R446, R575). -/
theorem coefRead_append {ps : List Posted} {p : Posted} {e : Engine} {i : Nat} (hi : coefSelected e = some i) (h : p.coef = some i) :
    coefRead (ps ++ [p]) e = Nat.land p.data.toNat (coefMask i) := by
  simp only [coefRead, hi, List.foldl_append, List.foldl_cons, List.foldl_nil, if_pos h]

theorem coefRead_of_ge (ps : List Posted) {e : Engine} (h : 20 ≤ bits (rwVal e .updCoefSel) 0 5) : coefRead ps e = 0 := by
  simp only [coefRead, coefSelected_of_ge h]

theorem toNat_w32_land (d : Word) (m : Nat) : (w32 (Nat.land d.toNat m)).toNat = Nat.land d.toNat m :=
  (BitVec.toNat_ofNat _ 32).trans (Nat.mod_eq_of_lt (Nat.lt_of_le_of_lt Nat.and_le_left d.isLt))

/-- A write stores the bits that its word has; the reserved words 18 and 19 have none (Table 10-2, R335). -/
theorem coefWord_coefStore_self (e : Engine) {g w : Nat} (hw : w < 20) (v : Word) : coefWord (coefStore e (20 * g + w) v) (20 * g + w) =
    if 18 ≤ w then coefWord e (20 * g + w) else w32 (Nat.land v.toNat (if w = 17 then 0xFF03 else 0xFFFFFFFF)) := by
  have hmod : (20 * g + w) % 20 = w := by omega
  by_cases h : 18 ≤ w
  · simp only [coefStore, hmod, if_pos h]
  · simp only [coefStore, coefMask, coefWord, hmod, if_neg h, lookupD_assign_self]

theorem coefWord_coefStore_ne (e : Engine) {i k : Nat} (v : Word) (h : k ≠ i) : coefWord (coefStore e i v) k = coefWord e k := by
  unfold coefStore
  split
  · rfl
  · exact lookupD_assign_ne _ _ _ h

/-- A stored word changes the table alone. -/
theorem coefStore_frame (e : Engine) (i : Nat) (v : Word) :
    coefStore e i v = { e with cap := { e.cap with coef := (coefStore e i v).cap.coef } } := by
  unfold coefStore
  split <;> rfl

/-! ### The command -/

/-- A firmware write leaves what waits for other words, and no write that waits for its own (R448). -/
def dropCoef (i : Nat) (p : Posted) : Posted := if p.coef = some i then { p with coef := none } else p

theorem dropCoef_ne (i : Nat) (p : Posted) : (dropCoef i p).coef ≠ some i := by
  unfold dropCoef
  split
  · exact nofun
  · assumption

theorem map_dropCoef_of_none {ps : List Posted} {i : Nat} (h : ∀ p ∈ ps, p.coef ≠ some i) : ps.map (dropCoef i) = ps :=
  (List.map_congr_left fun p hp => if_neg (h p hp)).trans (List.map_id' ps)

theorem exec_coefDataAccess (acc : CoefAccess) (s : State) : exec (.coefDataAccess acc) s = .next (coefAccess s acc) := rfl

section Access
variable {s : State} (hl : s.eng.boot.hubLocked = true)
include hl

theorem coefAccess_portRead :
    coefAccess s .portRead = withEng s (coefAdvance (setRdata s.eng (coefRead s.posted (readSrc s)))) := by
  simp [coefAccess, hl, coefPortRead, onEngine, withEng]

theorem coefAccess_fwRead : coefAccess s .fwRead = withEng s (coefAdvance s.eng) := by
  simp [coefAccess, hl, onEngine, withEng]

/-- A port write waits with its word's index while the queue has room (R442, R575). -/
theorem coefAccess_portWrite_room (v : Word) (h : portWrites s.posted < 32) : coefAccess s (.portWrite v) =
    { s with posted := s.posted ++ [{ addr := 0x1808, data := v, coef := coefSelected s.eng }], eng := coefAdvance s.eng } := by
  simp [coefAccess, hl, Config.postedDepth, h, coefPortWrite]

theorem coefAccess_portWrite_full (v : Word) (h : ¬ portWrites s.posted < 32) : coefAccess s (.portWrite v) = s := by
  simp [coefAccess, hl, Config.postedDepth, h]

theorem coefAccess_fwWrite (v : Word) {i : Nat} (h : coefSelected s.eng = some i) : coefAccess s (.fwWrite v) =
    { s with posted := s.posted.map (dropCoef i), eng := coefAdvance (coefStore s.eng i v) } := by
  simp only [coefAccess, hl, coefFwWrite, h]
  rfl

theorem coefAccess_fwWrite_none (v : Word) (h : coefSelected s.eng = none) : coefAccess s (.fwWrite v) = s := by
  simp [coefAccess, hl, coefFwWrite, h]

/-- With WORD 20 to 31 a read returns 0, and nothing is stored or advances (R575). -/
theorem coefAccess_of_ge (hword : 20 ≤ bits (rwVal s.eng .updCoefSel) 0 5) (acc : CoefAccess) : (coefAccess s acc).mem = s.mem ∧
    (coefAccess s acc).eng = if acc = .portRead then setRdata s.eng 0 else s.eng := by
  have hsel := coefSelected_of_ge hword
  have hstay := coefAdvance_of_ge hword
  cases acc with
  | portRead =>
    have hread : coefRead s.posted (readSrc s) = 0 := coefRead_of_ge _ (by rwa [rwVal_congr (readSrc_rw s)])
    rw [coefAccess_portRead hl, hread]
    exact ⟨rfl, coefAdvance_of_ge (e := setRdata s.eng 0) hword⟩
  | portWrite v =>
    by_cases hroom : portWrites s.posted < 32
    · rw [coefAccess_portWrite_room hl v hroom, hstay]
      exact ⟨rfl, rfl⟩
    · rw [coefAccess_portWrite_full hl v hroom]
      exact ⟨rfl, rfl⟩
  | fwRead =>
    rw [coefAccess_fwRead hl, hstay]
    exact ⟨rfl, rfl⟩
  | fwWrite v =>
    rw [coefAccess_fwWrite_none hl v hsel]
    exact ⟨rfl, rfl⟩

variable {auto : Bool} {g w : Nat} (hsel : Selects s.eng auto g w)
include hsel

/-- A port read shows the word with the waiting writes to it, and moves the selection on (R446, R575). -/
theorem coefPortRead_spec : ∃ t, exec (.coefDataAccess .portRead) s = .next t ∧ t.posted = s.posted ∧ t.mem = s.mem ∧
    (s.shadow = none → (∀ p ∈ s.posted, p.coef ≠ some (20 * g + w)) → t.eng.hub.rdata = coefWord s.eng (20 * g + w)) ∧
    (∀ p ps, s.posted = ps ++ [p] → p.coef = some (20 * g + w) →
      t.eng.hub.rdata.toNat = Nat.land p.data.toNat (coefMask (20 * g + w))) ∧
    rwVal t.eng .updCoefSel = coefNext auto g w ∧ t.eng.cap = s.eng.cap ∧ t.eng.ctr = s.eng.ctr := by
  have hsrc : coefSelected (readSrc s) = some (20 * g + w) := (coefSelected_congr (readSrc_rw s)).trans (coefSelected_of_selects hsel)
  have hframe := coefAdvance_frame (setRdata s.eng (coefRead s.posted (readSrc s)))
  have hdata : (coefAdvance (setRdata s.eng (coefRead s.posted (readSrc s)))).hub.rdata = w32 (coefRead s.posted (readSrc s)) := by
    rw [hframe]; rfl
  refine ⟨_, (exec_coefDataAccess _ s).trans (congrArg _ (coefAccess_portRead hl)), rfl, rfl, fun hsh hnone => ?_,
    fun p ps hps hp => ?_, ?_, ?_, ?_⟩
  · have hsrc' : readSrc s = s.eng := by simp only [readSrc, hsh]
    rw [withEng_eng, hdata, coefRead_of_none hsrc hnone, hsrc', w32, BitVec.ofNat_toNat, BitVec.setWidth_eq]
  · rw [withEng_eng, hdata, hps, coefRead_append hsrc hp, toNat_w32_land]
  · exact rwVal_coefAdvance (e := setRdata s.eng _) ⟨hsel.group_lt, hsel.word_lt, hsel.rwVal_eq⟩
  · rw [withEng_eng, hframe]; rfl
  · rw [withEng_eng, hframe]; rfl

theorem coefFwRead_spec : ∃ t, exec (.coefDataAccess .fwRead) s = .next t ∧ t.posted = s.posted ∧ t.mem = s.mem ∧
    rwVal t.eng .updCoefSel = coefNext auto g w ∧ t.eng = { s.eng with rw := t.eng.rw } :=
  ⟨_, (exec_coefDataAccess _ s).trans (congrArg _ (coefAccess_fwRead hl)), rfl, rfl, rwVal_coefAdvance hsel, coefAdvance_frame s.eng⟩

theorem coefPortWrite_spec (v : Word) (hroom : portWrites s.posted < 32) : ∃ t, exec (.coefDataAccess (.portWrite v)) s = .next t ∧
    t.posted = s.posted ++ [{ addr := 0x1808, data := v, coef := some (20 * g + w) }] ∧ t.mem = s.mem ∧
    rwVal t.eng .updCoefSel = coefNext auto g w ∧ t.eng = { s.eng with rw := t.eng.rw } :=
  ⟨_, (exec_coefDataAccess _ s).trans (congrArg _ (coefAccess_portWrite_room hl v hroom)), by rw [coefSelected_of_selects hsel], rfl,
    rwVal_coefAdvance hsel, coefAdvance_frame s.eng⟩

/-- A firmware write stores its word at once and overtakes the writes that wait for it (R335, R448, R575). -/
theorem coefFwWrite_spec (v : Word) : ∃ t, exec (.coefDataAccess (.fwWrite v)) s = .next t ∧ t.mem = s.mem ∧
    (∀ p ∈ t.posted, p.coef ≠ some (20 * g + w)) ∧
    ((∀ p ∈ s.posted, p.coef ≠ some (20 * g + w)) → t.posted = s.posted) ∧
    coefWord t.eng (20 * g + w) = (if 18 ≤ w then coefWord s.eng (20 * g + w)
      else w32 (Nat.land v.toNat (if w = 17 then 0xFF03 else 0xFFFFFFFF))) ∧
    (∀ i, i ≠ 20 * g + w → coefWord t.eng i = coefWord s.eng i) ∧ rwVal t.eng .updCoefSel = coefNext auto g w ∧
    t.eng.cap = { s.eng.cap with coef := t.eng.cap.coef } ∧ t.eng = { s.eng with rw := t.eng.rw, cap := t.eng.cap } := by
  have hstore := coefStore_frame s.eng (20 * g + w) v
  have hframe := coefAdvance_frame (coefStore s.eng (20 * g + w) v)
  have hrw : (coefStore s.eng (20 * g + w) v).rw = s.eng.rw := (congrArg Engine.rw hstore :)
  have hcap : (coefAdvance (coefStore s.eng (20 * g + w) v)).cap = (coefStore s.eng (20 * g + w) v).cap := (congrArg Engine.cap hframe :)
  have hword : ∀ i, coefWord (coefAdvance (coefStore s.eng (20 * g + w) v)) i = coefWord (coefStore s.eng (20 * g + w) v) i :=
    fun i => by rw [coefWord, coefWord, hcap]
  have hsel' : Selects (coefStore s.eng (20 * g + w) v) auto g w := ⟨hsel.group_lt, hsel.word_lt, (rwVal_congr hrw _).trans hsel.rwVal_eq⟩
  refine ⟨_, (exec_coefDataAccess _ s).trans (congrArg _ (coefAccess_fwWrite hl v (coefSelected_of_selects hsel))), rfl, fun p hp => ?_,
    map_dropCoef_of_none, ?_, fun i hi => ?_, rwVal_coefAdvance hsel', ?_, ?_⟩
  · obtain ⟨q, -, rfl⟩ := List.mem_map.1 hp
    exact dropCoef_ne _ q
  · exact (hword _).trans (coefWord_coefStore_self s.eng hsel.word_lt v)
  · exact (hword i).trans (coefWord_coefStore_ne s.eng v hi)
  · rw [hcap, hstore]
  · rw [hframe, hstore]

end Access

/-! ### The read of an underflow observer -/

theorem exec_obsUflowRead (c : CombId) (late : Nat) (s : State) : exec (.obsUflowRead c late) s = .next (uflowRead s c late) := rfl

/-- Once the hub has locked, while the shadows follow their registers. -/
theorem uflowRead_followed {s : State} (hl : s.eng.boot.hubLocked = true) (hsh : s.shadow = none) (c : CombId) (late : Nat) :
    uflowRead s c late = withEng s (copyNonzero (setRdata (takeFields s.posted s.eng (.cmbObsUflow c) [late])
      (readReg s.posted s.eng (.cmbObsUflow c) [late])) c) := by
  simp only [uflowRead, hl, readTake_of_followed _ _ hsh, withEng, hsh, Option.map_none]
  rfl

theorem rcShown_uflow (e : Engine) (c : CombId) (late : Nat) : rcShown e (.comb c .uflow) late = ctrVal e (.comb c .uflow) - late :=
  Nat.div_one _

/-- The register shows the underflow count without the events that came late (R445). -/
theorem readReg_cmbObsUflow (ps : List Posted) (e : Engine) (c : CombId) (late : Nat) :
    readReg ps e (.cmbObsUflow c) [late] = ctrVal e (.comb c .uflow) - late := by
  have hfields : readReg ps e (.cmbObsUflow c) [late] = 0 + (0 + at' (rcShown e (.comb c .uflow) late) 0) := rfl
  rw [hfields, rcShown_uflow]
  simp [at']

theorem rcLeft_uflow (e : Engine) (c : CombId) (late : Nat) : rcLeft e (.comb c .uflow) late =
    if ctrVal e (.comb c .uflow) - late = 2 ^ 32 - 1 then 0 else min late (ctrVal e (.comb c .uflow)) := by
  have hmax : ctrMax (.comb c .uflow) / ctrUnit (.comb c .uflow) = 2 ^ 32 - 1 := Nat.div_one _
  have hrest : ctrVal e (.comb c .uflow) - (ctrVal e (.comb c .uflow) - late) * 1 = min late (ctrVal e (.comb c .uflow)) := by omega
  rw [rcLeft, rcShown_uflow, hmax]
  exact if_congr Iff.rfl rfl hrest

/-- The live count of the comb goes to its shadow and starts again at 0 (R446); the other combs stay. -/
theorem copyNonzero_spec {e e' : Engine} {c : CombId} (hcombs : e'.combs = e.combs) (hc : c.val < e.combs.length) :
    (combOf (copyNonzero e' c) c).nonzeroShadow = (combOf e c).nonzero ∧ (combOf (copyNonzero e' c) c).nonzero = 0 ∧
    ∀ d, d ≠ c → combOf (copyNonzero e' c) d = combOf e d := by
  have hself : combOf (copyNonzero e' c) c = { combOf e c with nonzeroShadow := (combOf e c).nonzero, nonzero := 0 } := by
    rw [copyNonzero, combOf_onComb_self _ (hcombs ▸ hc), combOf_congr hcombs]
  exact ⟨congrArg Comb.nonzeroShadow hself, congrArg Comb.nonzero hself, fun d hd => (combOf_onComb_ne _ hd).trans (combOf_congr hcombs d)⟩

/-- Settles O12: the window by the lemma about each kind of access, the observer by `takeFields_spec` and the copy of its comb. -/
theorem coefAndObserverReads : Obligations.CoefAndObserverReads := by
  unfold Obligations.CoefAndObserverReads
  refine ⟨fun s g w auto hg hw hl hrw => ?_, fun s acc hl hword => ?_, fun s c late hl hlen hsh _ => ?_⟩
  · have hsel : Selects s.eng auto g w := ⟨hg, hw, hrw⟩
    exact ⟨coefPortRead_spec hl hsel, coefFwRead_spec hl hsel, coefPortWrite_spec hl hsel, coefFwWrite_spec hl hsel⟩
  · obtain ⟨hmem, heng⟩ := coefAccess_of_ge hl hword acc
    refine ⟨_, exec_coefDataAccess acc s, hmem, ?_, fun hread => ?_⟩
    · rw [heng]
      split <;> rfl
    · rw [heng, if_pos hread]
      rfl
  · obtain ⟨htaken, hothers, hframe⟩ := takeFields_spec s.posted s.eng (.cmbObsUflow c) [late]
    have hcombs : (setRdata (takeFields s.posted s.eng (.cmbObsUflow c) [late]) (readReg s.posted s.eng (.cmbObsUflow c) [late])).combs =
        s.eng.combs := (congrArg Engine.combs hframe :)
    obtain ⟨hshadow, hlive, hrest⟩ := copyNonzero_spec hcombs (by rw [hlen]; exact c.isLt)
    refine ⟨_, (exec_obsUflowRead c late s).trans (congrArg _ (uflowRead_followed hl hsh c late)), rfl, rfl, ?_, ?_, hshadow, hlive, hrest,
      fun k hk => hothers k (by simpa [rcFields] using hk)⟩
    · rw [← readReg_cmbObsUflow]; rfl
    · exact (htaken 0 _ rfl).trans (rcLeft_uflow s.eng c late)

end Sys2Proof.Machine
end

section
/-! Proofs: a row of an UPDATE task that clamps no code, beside a count of clamped codes above its field. -/

namespace Sys2Proof.Machine

/-! ### A count above its field's greatest value (R42)

UpdateRowAppliesRecurrence has the count of clamped codes end at the sum or at its field's greatest value, whichever is less, in every
state. A row that clamps no code counts nothing, so that a count which stands above its field stays there. -/

/-- An UPDATE task at the first of two dense rows of 16 columns, its coefficients and its learning rate zero. -/
def unclampedJob : CapJob :=
  { task := 0, kind := kUPDATE, param := 9, mode := 0, target := some 1
    arg := { (default : UpdArg) with rows := 2, rowLen := 16, k := 16, codePitch := 64, factorPitch := 64, master := 0x10000, m := 0x11000,
                                     v := 0x12000, grad := 0x13000 } }

/-- The capping unit in RUN with that job, on the tensor of `overlaidState`, and 2^32 clamped codes counted in a field of 32 bits. -/
def overfullState : State :=
  { eng := { overlaidState.eng with ctr := [(.clamped, 2 ^ 32)], cap := { job := some unclampedJob } } }

/-- The row's header: scale 1.0, zero point 8, EPOCH 3 (Table 02-4). All else reads 0. -/
def unclampedRead : List MemLine := [{ addr := 0x50000, data := [0, 0, 0x80, 0x3F, 8, 0, 3, 0] ++ List.replicate 56 0, poison := false }]

/-- The state that the command answers. -/
def overfullNext : State := reading overfullState unclampedRead fun m e => updateRow m e false

/-- The row counts no clamped code: the count stays above its field. -/
theorem overfullNext_clamped : ctrVal overfullNext.eng .clamped = 2 ^ 32 := by decide +kernel

/-- Refutes O46: the count of clamped codes is said to end within its field, but a row that clamps none leaves the count as it is, and no
premise has it within its field before. In `overfullState` the row's sixteen weights are all +0 and no code is clamped: 2^32 stands before
and after, one more than the field holds. -/
theorem not_updateRowAppliesRecurrence : ¬ Obligations.UpdateRowAppliesRecurrence := by
  unfold Obligations.UpdateRowAppliesRecurrence
  rintro ⟨-, hcoded, -⟩
  obtain ⟨-, hupdated⟩ := hcoded overfullState unclampedRead _ unclampedJob 1 _ rfl (by decide) rfl rfl (by decide) rfl (by decide) rfl rfl
    (by decide)
  obtain ⟨t, k, hexec, -, -, -, -, -, -, -, hclamped, -⟩ := hupdated _ _ _ _ _ _ (by decide +kernel) (by decide +kernel) (by decide +kernel)
    (by decide +kernel) (by decide +kernel) rfl rfl (by decide +kernel) rfl rfl (by decide +kernel) (by decide +kernel) rfl rfl
    (by unfold Apart; decide +kernel)
  obtain rfl : t = overfullNext := (Host.Outcome.next.inj hexec).symm
  rw [overfullNext_clamped] at hclamped
  have hmost : ctrMax .clamped < 2 ^ 32 := by decide
  omega

end Sys2Proof.Machine
end

section
/-! Proofs: reading rules for link ports, buckets and groups, and a multicast that has nothing to send. -/

namespace Sys2Proof.Machine

-- In turn, not side by side: each proof that waits for another holds a stack, which counts against the check's memory limit.
set_option Elab.async false

/-! ### Ports -/

theorem updAt_updAt {α : Type} (l : List α) (i : Nat) (f g : α → α) : updAt (updAt l i f) i g = updAt l i fun a => g (f a) := by
  refine List.ext_getElem? fun j => ?_
  simp only [updAt_getElem?]
  split
  · rw [Option.map_map]; rfl
  · rfl

/-- Two changes of a port are one. -/
theorem onPort_onPort (e : Engine) (p : PortId) (f g : Port → Port) : onPort (onPort e p f) p g = onPort e p fun q => g (f q) := by
  simp [onPort, updAt_updAt]

theorem port_lt {e : Engine} (hlen : e.lnk.ports.length = 18) (p : PortId) : p.val < e.lnk.ports.length := by
  have := p.isLt; omega

theorem portOf_congr {e e' : Engine} (h : e'.lnk.ports = e.lnk.ports) (p : PortId) : portOf e' p = portOf e p := by rw [portOf, portOf, h]

@[simp] theorem portOf_bump (e : Engine) (k : Ctr) (n : Nat) (p : PortId) : portOf (bump e k n) p = portOf e p := portOf_congr (by simp) p
@[simp] theorem portOf_onBucket (e : Engine) (o : Nat) (f : Bucket → Bucket) (p : PortId) : portOf (onBucket e o f) p = portOf e p := rfl
@[simp] theorem onPort_buckets (e : Engine) (p : PortId) (f : Port → Port) : (onPort e p f).lnk.buckets = e.lnk.buckets := rfl
@[simp] theorem onPort_groups (e : Engine) (p : PortId) (f : Port → Port) : (onPort e p f).lnk.groups = e.lnk.groups := rfl
@[simp] theorem onPort_own (e : Engine) (p : PortId) (f : Port → Port) : (onPort e p f).lnk.own = e.lnk.own := rfl

/-- A change of one port leaves all else (R367). -/
theorem onlyPort_onPort (s : State) (p : PortId) (f : Port → Port) : OnlyPort s (withEng s (onPort s.eng p f)) p :=
  ⟨rfl, fun _ hq => portOf_onPort_ne f hq⟩

/-! ### Ports that run -/

theorem linkOn_of_linkRuns {e : Engine} {p : PortId} (h : linkRuns e p = true) : linkOn e p = true := (Bool.and_eq_true_iff.1 h).1

theorem not_stopped_of_linkRuns {e : Engine} {p : PortId} (h : linkRuns e p = true) : (islandOf e (linkIsland p)).stopped = false := by
  simpa using (Bool.and_eq_true_iff.1 h).2

/-! ### Buckets and groups -/

/-- The first element of a kind, replaced by one with the same image, leaves the list of images. -/
theorem map_updFirst_found {α β : Type} {p : α → Bool} {a : α} (π : α → β) (a' : α) (hπ : π a' = π a) {l : List α} (h : l.find? p = some a) :
    (updFirst p (fun _ => a') l).map π = l.map π := by
  induction l with
  | nil => rfl
  | cons x l ih =>
    by_cases hx : p x = true
    · obtain rfl : x = a := by simpa [List.find?, hx] using h
      simp [updFirst, hx, hπ]
    · have hrest : l.find? p = some a := by simpa [List.find?, hx] using h
      simp [updFirst, hx, ih hrest]


theorem bucketAt_congr {e e' : Engine} (h : e'.lnk.buckets = e.lnk.buckets) (o : Nat) : bucketAt e' o = bucketAt e o := by
  rw [bucketAt, bucketAt, h]

@[simp] theorem bucketAt_bump (e : Engine) (k : Ctr) (n o : Nat) : bucketAt (bump e k n) o = bucketAt e o := bucketAt_congr (by simp) o

/-- A bucket read after its change. -/
theorem bucketAt_onBucket {e : Engine} {o : Nat} {b : Bucket} {f : Bucket → Bucket} (h : bucketAt e o = some b)
    (hf : ∀ x, (f x).order = x.order := by intro; rfl) : bucketAt (onBucket e o f) o = some (f b) := by
  refine (updFirst_find? _ _ _ fun x hx => by simpa [hf] using hx).trans ?_
  exact congrArg (Option.map f) h

/-- A bucket read after it is replaced by one of the same place. -/
theorem bucketAt_onBucket_const {e : Engine} {o : Nat} {b b' : Bucket} (h : bucketAt e o = some b) (ho : b'.order = o) :
    bucketAt (onBucket e o fun _ => b') o = some b' := by
  refine (updFirst_find? _ _ _ fun _ _ => by simpa using ho).trans ?_
  exact congrArg (Option.map fun _ => b') h

theorem order_of_bucketAt {e : Engine} {o : Nat} {b : Bucket} (h : bucketAt e o = some b) : b.order = o := by
  simpa using List.find?_some h

theorem mem_of_bucketAt {e : Engine} {o : Nat} {b : Bucket} (h : bucketAt e o = some b) : b ∈ e.lnk.buckets := List.mem_of_find?_eq_some h

theorem groupAt_congr {e e' : Engine} (h : e'.lnk.groups = e.lnk.groups) (id gen : Nat) : groupAt e' id gen = groupAt e id gen := by
  rw [groupAt, groupAt, h]

@[simp] theorem groupAt_bump (e : Engine) (k : Ctr) (n id gen : Nat) : groupAt (bump e k n) id gen = groupAt e id gen :=
  groupAt_congr (by simp) id gen

/-- A group read after its change. -/
theorem groupAt_onGroup {e : Engine} {id gen : Nat} {g : Group} {f : Group → Group} (h : groupAt e id gen = some g)
    (hf : ∀ x, (f x).id = x.id ∧ (f x).generation = x.generation := by intro; exact ⟨rfl, rfl⟩) :
    groupAt (onGroup e id gen f) id gen = some (f g) := by
  refine (updFirst_find? _ _ _ fun x hx => by simpa [hf] using hx).trans ?_
  exact congrArg (Option.map f) h

theorem id_of_groupAt {e : Engine} {id gen : Nat} {g : Group} (h : groupAt e id gen = some g) : g.id = id ∧ g.generation = gen := by
  simpa using List.find?_some h

/-! ### A multicast's next flit -/

/-- A bucket once its first waiting RESULT flit has been forwarded (R388). -/
def forwardedBucket (b : Bucket) (x : Option PortId × Flit) (rest : List (Option PortId × Flit)) : Bucket :=
  { b with out := rest, got := b.got + 1, poisonResult := b.poisonResult || flitPoison x.2 }

/-- The credit of a RESULT flit goes back to the port that brought it (R376). -/
def creditBack (e : Engine) (o : Option PortId) : Engine := match o with | some p => returnCredit e p 1 | none => e

/-- The engine once a RESULT flit has entered every child port's queue and has been written (R388). -/
def forwardedOne (e : Engine) (b : Bucket) (x : Option PortId × Flit) (rest : List (Option PortId × Flit)) : Engine :=
  writeResult (onBucket (creditBack ((openKids b).foldl (fun e p => pushDown e b x.2 p) e) x.1) b.order fun _ => forwardedBucket b x rest)
    b x.2

/-- A multicast stays, or its first flit goes to every child port; with the last one the bucket lands (R383, R388). -/
theorem forwardOne_cases (e : Engine) (o : Nat) : forwardOne e o = e ∨ ∃ b x rest, bucketAt e o = some b ∧ b.out = x :: rest ∧
    (openKids b).all (hasCredit e) = true ∧ forwardOne e o =
      if b.got + 1 = groupsIn b then landBucket (forwardedOne e b x rest) (forwardedBucket b x rest) else forwardedOne e b x rest := by
  unfold forwardOne
  cases hb : bucketAt e o with
  | none => exact .inl rfl
  | some b =>
    obtain rfl := order_of_bucketAt hb
    dsimp only
    cases hout : b.out with
    | nil => exact .inl rfl
    | cons x rest =>
      dsimp only
      cases hall : (openKids b).all (hasCredit e) with
      | false => exact .inl rfl
      | true => exact .inr ⟨b, x, rest, rfl, hout, hall, rfl⟩

/-! ### Multicasts with nothing to send -/

theorem forwardBucket_of_nil (e : Engine) {b : Bucket} (h : b.out = []) : forwardBucket e b = e := by simp [forwardBucket, h]

theorem broadcastOk_of_allreduce (e : Engine) {b : Bucket} (h : b.broadcast = false) : broadcastOk e b = e := by simp [broadcastOk, h]

/-- A run of steps none of which does anything. -/
theorem foldl_of_idle {α β : Type} {u : β → α → β} {l : List α} {x : β} (h : ∀ a ∈ l, u x a = x) : l.foldl u x = x := by
  induction l with
  | nil => rfl
  | cons a l ih =>
    rw [List.foldl_cons, h a (List.mem_cons_self ..)]
    exact ih fun b hb => h b (List.mem_cons_of_mem _ hb)

theorem broadcastsOk_of_allreduce {e : Engine} (h : ∀ b ∈ e.lnk.buckets, b.broadcast = false) : broadcastsOk e = e :=
  foldl_of_idle fun b hb => broadcastOk_of_allreduce e (h b hb)

/-- Where no RESULT flit waits and no bucket is a broadcast, nothing moves on. -/
theorem moveMulticasts_of_idle {e : Engine} (h : ∀ b ∈ e.lnk.buckets, b.out = [] ∧ b.broadcast = false) : moveMulticasts e = e := by
  have hforward : forwardAll e = e := foldl_of_idle fun b hb => forwardBucket_of_nil e (h b (mem_sortBy.1 hb)).1
  rw [moveMulticasts, hforward, broadcastsOk_of_allreduce fun b hb => (h b hb).2]

end Sys2Proof.Machine
end

section
/-! Proofs: the deadlines, timeouts and replays of the reduction (R394, R399, R400, R402). -/

namespace Sys2Proof.Machine

-- In turn, not side by side: each proof that waits for another holds a stack, which counts against the check's memory limit.
set_option Elab.async false

theorem exec_bucketDeadline (tag : BitVec 16) (s : State) :
    exec (.bucketDeadline tag) s = .next (withEng s (bucketDeadline s.eng tag.toNat)) := rfl
theorem exec_sealWaitTimeout (tag : BitVec 16) (s : State) : exec (.sealWaitTimeout tag) s = .next (withEng s (sealWait s.eng tag.toNat)) := rfl
theorem exec_joinTimeout (id : Byte) (s : State) : exec (.joinTimeout id) s = .next (withEng s (joinTimeout s.eng id.toNat)) := rfl
theorem exec_patienceExpiry (p : PortId) (s : State) : exec (.patienceExpiry p) s = .next (withEng s (patienceExpiry s.eng p)) := rfl
theorem exec_unicastReplay (p : PortId) (rd : List MemLine) (s : State) : exec (.unicastReplay p rd) s = .next { s with
    mem := absorb s.mem rd, eng := unicastReplay p (landed s.mem rd) (readEng s rd) } := rfl

/-! ### Messages to the leader -/

/-- A message toward the leader stays here where this device is it (R377). -/
theorem sendUp_of_root {e : Engine} {g : Group} (h : (tree0 g).parent = none) (f : Flit) : sendUp e g f = pushOwn e f := by
  unfold sendUp; rw [h]

/-- A bucket that has failed (R394). -/
def failedBucket (b : Bucket) : Bucket := { b with failed := true, deadlineOn := false }

/-- A bucket's first failure is told to the leader (R394). -/
theorem failBucket_of_root {e : Engine} {b : Bucket} {g : Group} (hfailed : b.failed = false)
    (hgroup : groupAt e b.group b.generation = some g) (hroot : (tree0 g).parent = none) (reason : Nat) :
    failBucket e b reason = pushOwn (onBucket e b.order failedBucket)
      (ctlFlit g opFail b.tag b.step b.attempt reason 0) := by
  have htell : failBucket e b reason = tellLeader (onBucket e b.order failedBucket) b opFail reason := if_neg (by simp [hfailed])
  have hgroup' : groupAt (onBucket e b.order failedBucket) b.group b.generation = some g := hgroup
  rw [htell, tellLeader, hgroup']
  exact sendUp_of_root hroot _

/-! ### What a multicast leaves of its buckets -/

/-- The counters, and the ports that each bucket's multicast has dropped. -/
def dropMarks (e : Engine) : AMap Ctr Nat × List (Nat × List (PortId × Nat)) := (e.ctr, e.lnk.buckets.map fun b => (b.order, b.drops))

theorem dropMarks_onBucket (e : Engine) (o : Nat) {f : Bucket → Bucket}
    (hf : ∀ b, (f b).order = b.order ∧ (f b).drops = b.drops := by intro; exact ⟨rfl, rfl⟩) : dropMarks (onBucket e o f) = dropMarks e :=
  congrArg (Prod.mk e.ctr) (map_updFirst_of_eq _ (fun b => Prod.ext (hf b).1 (hf b).2) _)

theorem dropMarks_bucketDone (e : Engine) (b : Bucket) : dropMarks (bucketDone e b) = dropMarks e := by
  refine Eq.trans ?_ (dropMarks_onBucket e b.order (f := fun b => { b with state := .done }))
  unfold bucketDone
  dsimp only [endTask]
  rw [if_neg (by decide)]
  split <;> rfl

theorem dropMarks_landBucket (e : Engine) (b : Bucket) : dropMarks (landBucket e b) = dropMarks e := by
  refine Eq.trans ?_ (dropMarks_onBucket e b.order (f := fun b => { b with state := .landed, own := [], sums := [], up := [] }))
  dsimp only [landBucket]
  split
  · split
    · exact dropMarks_bucketDone ..
    · rfl
  · rfl

/-- Where a RESULT flit's entries go, as what bytes, and which lines are marked (R388). -/
def resultAddr (b : Bucket) (f : Flit) : Nat := b.result + 128 * (if b.resultF32 then 4 else 2) * (f.offset.toNat % 2 ^ 18)
def resultWords (f : Flit) : List Word := (List.range 128).map fun j => bf16ToF32 (field f.payload (2 * j) 2)
def resultBytes (b : Bucket) (f : Flit) : List Byte :=
  if b.resultF32 then (resultWords f).flatMap fun w => leBytes 4 w.toNat else takeBytes f.payload 0 256
def resultBad (b : Bucket) (f : Flit) : List Nat := badLines (if b.resultF32 then 4 else 2) (resultAddr b f) (resultWords f)

/-- The engine once it has seen a RESULT flit's poison (R420). -/
def resultSeen (e : Engine) (b : Bucket) (f : Flit) : Engine := if flitPoison f || !(resultBad b f).isEmpty then raiseErr e errPoison else e

theorem writeResult_eq (e : Engine) (b : Bucket) (f : Flit) : writeResult e b f =
    sendBytes (resultSeen e b f) (.link b.task) (resultAddr b f) (resultBytes b f) fun l => flitPoison f || decide (l ∈ resultBad b f) := rfl

theorem dropMarks_writeResult (e : Engine) (b : Bucket) (f : Flit) : dropMarks (writeResult e b f) = dropMarks e := by
  have hsent : dropMarks (writeResult e b f) = dropMarks (resultSeen e b f) := by rw [writeResult_eq, sendBytes_frame]; rfl
  rw [hsent, resultSeen]
  split <;> rfl

theorem dropMarks_creditBack (e : Engine) (o : Option PortId) : dropMarks (creditBack e o) = dropMarks e := by cases o <;> rfl

theorem dropMarks_forwardedOne {e : Engine} {b : Bucket} (hb : bucketAt e b.order = some b) (x : Option PortId × Flit)
    (rest : List (Option PortId × Flit)) : dropMarks (forwardedOne e b x rest) = dropMarks e := by
  have hdown : dropMarks ((openKids b).foldl (fun e p => pushDown e b x.2 p) e) = dropMarks e := foldl_keeps dropMarks (fun _ _ => by rfl) _ e
  have hbuckets : ((openKids b).foldl (fun e p => pushDown e b x.2 p) e).lnk.buckets = e.lnk.buckets :=
    foldl_keeps (fun y : Engine => y.lnk.buckets) (fun _ _ => by rfl) _ e
  unfold forwardedOne
  generalize (openKids b).foldl (fun e p => pushDown e b x.2 p) e = e₁ at *
  have hfound : bucketAt (creditBack e₁ x.1) b.order = some b := by
    rw [← hb]
    exact bucketAt_congr ((by cases x.1 <;> rfl : (creditBack e₁ x.1).lnk.buckets = e₁.lnk.buckets).trans hbuckets) _
  rw [dropMarks_writeResult, ← hdown, ← dropMarks_creditBack e₁ x.1]
  exact congrArg (Prod.mk _) (map_updFirst_found _ (forwardedBucket b x rest) (by rfl) hfound)

theorem dropMarks_forwardOne (e : Engine) (o : Nat) : dropMarks (forwardOne e o) = dropMarks e := by
  rcases forwardOne_cases e o with h | ⟨b, x, rest, hb, -, -, h⟩
  · rw [h]
  · obtain rfl := order_of_bucketAt hb
    rw [h]
    split
    · rw [dropMarks_landBucket, dropMarks_forwardedOne hb]
    · exact dropMarks_forwardedOne hb x rest

theorem dropMarks_tellLeader (e : Engine) (b : Bucket) (op reason : Nat) : dropMarks (tellLeader e b op reason) = dropMarks e := by
  unfold tellLeader
  split
  · unfold sendUp; split <;> rfl
  · rfl

theorem dropMarks_broadcastOk (e : Engine) (b : Bucket) : dropMarks (broadcastOk e b) = dropMarks e := by
  dsimp only [broadcastOk]
  split
  · rw [dropMarks_tellLeader, dropMarks_onBucket]
  · rfl

/-- Multicasts that move on count nothing and drop no port. -/
theorem dropMarks_moveMulticasts (e : Engine) : dropMarks (moveMulticasts e) = dropMarks e := by
  rw [moveMulticasts, broadcastsOk, foldl_keeps dropMarks dropMarks_broadcastOk]
  exact foldl_keeps dropMarks (fun x (b : Bucket) => foldl_keeps dropMarks (fun y _ => dropMarks_forwardOne y b.order) _ x) _ e

theorem find?_of_map_eq {α β : Type} {l l' : List α} {π : α → β} {p : α → Bool} {a : α} (hmap : l'.map π = l.map π) (h : l.find? p = some a)
    (hp : ∀ x y, π x = π y → p x = p y) : ∃ a', l'.find? p = some a' ∧ π a' = π a := by
  induction l generalizing l' with
  | nil => simp at h
  | cons x l ih =>
    cases l' with
    | nil => simp at hmap
    | cons y l' =>
      obtain ⟨hy, hrest⟩ := List.cons.inj hmap
      have hsame := hp y x hy
      cases hx : p x with
      | true =>
        obtain rfl : x = a := by simpa [hx] using h
        exact ⟨y, by simp [hsame, hx], hy⟩
      | false => simpa [hsame, hx] using ih hrest (by simpa [hx] using h)

/-- A bucket's dropped ports, read where the marks are the same. -/
theorem bucketAt_of_dropMarks {e e' : Engine} (h : dropMarks e' = dropMarks e) {o : Nat} {b : Bucket} (hb : bucketAt e o = some b) :
    ∃ b', bucketAt e' o = some b' ∧ b'.drops = b.drops := by
  obtain ⟨b', hfound, hmark⟩ := find?_of_map_eq (Prod.mk.inj h).2 hb fun x y hxy => by rw [(Prod.mk.inj hxy).1]
  exact ⟨b', hfound, (Prod.mk.inj hmark).2⟩

/-! ### The timers -/

/-- A bucket whose multicast goes on without a child port (R400). -/
def dropPort (p : PortId) (b : Bucket) : Bucket := { b with drops := b.drops ++ [(p, b.got)] }
/-- A bucket that owes a child port nothing more (R400). -/
def settlePort (p : PortId) (b : Bucket) : Bucket := { b with drops := b.drops.filter fun d => d.1 != p }
/-- A port with a unicast to send (R400). -/
def pushReplay (l : List Flit) (q : Port) : Port := { q with replay := q.replay ++ l }
/-- A group whose time for GO is over (R402). -/
def lateGroup (id : Nat) (g : Group) : Group := if g.id = id ∧ g.go = false then { g with late := true } else g

section Timers
variable {s : State} {b : Bucket} (hhub : hubAlive s.eng = true) (hat : bucketAt s.eng b.order = some b)
include hhub hat

theorem exec_bucketDeadline_root {tag : BitVec 16} {g : Group} (htag : activeTag s.eng tag.toNat = some b) (hon : b.deadlineOn = true)
    (hfailed : b.failed = false) (hgroup : groupAt s.eng b.group b.generation = some g) (hroot : (tree0 g).parent = none) :
    ∃ t b', exec (.bucketDeadline tag) s = .next t ∧
      ctrVal t.eng .deadlineExp = min 255 (ctrVal s.eng .deadlineExp + 1) ∧ bucketAt t.eng b.order = some b' ∧
      b' = { b with failed := true, deadlineOn := false } ∧
      t.eng.lnk.own = s.eng.lnk.own ++ [ctlFlit g opFail b.tag b.step b.attempt 1 0] ∧ t.mem = s.mem ∧ t.posted = s.posted := by
  have heng : bucketDeadline s.eng tag.toNat = pushOwn (onBucket (bump s.eng .deadlineExp 1) b.order failedBucket)
      (ctlFlit g opFail b.tag b.step b.attempt 1 0) := by
    unfold bucketDeadline
    rw [htag]
    dsimp only
    rw [if_pos (by simp [hon, hhub])]
    exact failBucket_of_root hfailed ((groupAt_bump ..).trans hgroup) hroot failDeadline
  refine ⟨_, _, exec_bucketDeadline tag s, ?_, ?_, rfl, ?_, rfl, rfl⟩
  · rw [withEng_eng, heng]
    exact (ctrVal_bump_one s.eng .deadlineExp .deadlineExp).trans (if_pos rfl)
  · rw [withEng_eng, heng]
    exact bucketAt_onBucket ((bucketAt_bump ..).trans hat)
  · rw [withEng_eng, heng]
    show (bump s.eng .deadlineExp 1).lnk.own ++ _ = _
    rw [bump_lnk]

omit hat in
theorem exec_sealWaitTimeout_unsealed {r : Graph} (hrun : s.eng.sch.run = some r) (hgoing : r.stop = none) {tag : BitVec 16}
    (htag : (s.eng.lnk.buckets.find? fun x => unsealed x && x.tag == tag.toNat) = some b) :
    (contributed s.eng b = true → sealedOf s.eng b = false → exec (.sealWaitTimeout tag) s = .next (withEng s { s.eng with
      sch := { s.eng.sch with run := some { r with stop := some 13, stopUnit := 0xF2, stopTask := 0x1FFFFF } } })) ∧
    (contributed s.eng b = false ∨ sealedOf s.eng b = true → exec (.sealWaitTimeout tag) s = .next s) := by
  have heng : sealWait s.eng tag.toNat =
      if contributed s.eng b && !sealedOf s.eng b && hubAlive s.eng then askStop s.eng codeLinkLost 0xF2 noTask else s.eng := by
    unfold sealWait; rw [htag]
  rw [exec_sealWaitTimeout, heng]
  refine ⟨fun hsent hopen => ?_, fun h => ?_⟩
  · rw [if_pos (by simp [hsent, hopen, hhub]), (askStop_spec ..).1 r hrun hgoing]
    rfl
  · rw [if_neg (by rcases h with h | h <;> simp [h])]
    rfl

omit hat in
theorem exec_joinTimeout_waiting {r : Graph} (hrun : s.eng.sch.run = some r) (hgoing : r.stop = none) (hmem : b ∈ s.eng.lnk.buckets)
    {id : Byte} {g : Group} (hadm : b.admitted = true) (hwait : b.state = .waiting) (hid : b.group = id.toNat)
    (hgroup : groupAt s.eng id.toNat b.generation = some g) (hgo : g.go = false) :
    exec (.joinTimeout id) s = .next (withEng s { s.eng with
      sch := { s.eng.sch with run := some { r with stop := some 14, stopUnit := 0xF2, stopTask := 0x1FFFFF } }
      lnk := { s.eng.lnk with groups := s.eng.lnk.groups.map (lateGroup id.toNat) } }) := by
  have hwaits : (s.eng.lnk.buckets.any fun b => b.admitted && b.state == .waiting && b.group == id.toNat &&
      (match groupAt s.eng id.toNat b.generation with | some g => !g.go | none => false)) = true :=
    List.any_eq_true.2 ⟨b, hmem, by simp [hadm, hwait, hid, hgroup, hgo]⟩
  have heng : joinTimeout s.eng id.toNat =
      askStop { s.eng with lnk := { s.eng.lnk with groups := s.eng.lnk.groups.map (lateGroup id.toNat) } } codeJoinTimeout 0xF2 noTask :=
    if_pos (Bool.and_eq_true_iff.2 ⟨hwaits, hhub⟩)
  rw [exec_joinTimeout, heng]
  exact congrArg (fun e => Host.Outcome.next (withEng s e)) ((askStop_spec _ _ _ _).1 r hrun hgoing)

omit hhub in
theorem exec_patienceExpiry_held {p : PortId} (hruns : linkRuns s.eng p = true)
    (hheld : minBy Bucket.order (s.eng.lnk.buckets.filter (heldBack s.eng p)) = some b) :
    ∃ t b', exec (.patienceExpiry p) s = .next t ∧ bucketAt t.eng b.order = some b' ∧ (p, b.got) ∈ b'.drops ∧
      ctrVal t.eng .dropped = min 65535 (ctrVal s.eng .dropped + 1) ∧ t.mem = s.mem ∧ t.posted = s.posted := by
  have heng : patienceExpiry s.eng p =
      moveMulticasts (bump (onBucket s.eng b.order (dropPort p)) .dropped 1) := by
    unfold patienceExpiry; rw [hheld]; exact if_pos hruns
  generalize he : bump (onBucket s.eng b.order (dropPort p)) .dropped 1 = e at heng
  have hmarks := dropMarks_moveMulticasts e
  have hdropped : bucketAt e b.order = some (dropPort p b) := by
    rw [← he]; exact (bucketAt_bump ..).trans (bucketAt_onBucket hat)
  obtain ⟨b', hb', hdrops⟩ := bucketAt_of_dropMarks hmarks hdropped
  have hctr : ctrVal (moveMulticasts e) .dropped = ctrVal e .dropped := by rw [ctrVal, (Prod.mk.inj hmarks).1, ctrVal]
  refine ⟨_, b', (exec_patienceExpiry p s).trans (congrArg (fun e => Host.Outcome.next (withEng s e)) heng), hb',
    by simp [hdrops, dropPort], ?_, rfl, rfl⟩
  rw [withEng_eng, hctr, ← he]
  exact (ctrVal_bump_one ..).trans (if_pos rfl)

end Timers

/-! ### The unicast replay -/

theorem replayFlit_congr (m : Mem) {e e' : Engine} (h : e'.mp = e.mp) (b : Bucket) : replayFlit m e' b = replayFlit m e b := by
  funext i
  dsimp only [replayFlit, viewNat]
  simp only [viewBytes_congr m h, viewPoisoned_congr m h]

theorem exec_unicastReplay_dropped {s : State} {b : Bucket} (hhub : hubAlive s.eng = true) (hat : bucketAt s.eng b.order = some b)
    {p : PortId} (rd : List MemLine) {first : Nat} (hlen : s.eng.lnk.ports.length = 18)
    (hdue : minBy Bucket.order (s.eng.lnk.buckets.filter fun x => (x.state == .landed || x.state == .done) &&
      x.drops.any fun d => d.1 == p) = some b) (hfirst : b.drops.find? (fun d => d.1 == p) = some (p, first)) :
    ∃ t b', exec (.unicastReplay p rd) s = .next t ∧
      (portOf t.eng p).replay = (portOf s.eng p).replay ++ (span first (groupsIn b - first)).map (replayFlit (landed s.mem rd) s.eng b) ∧
      bucketAt t.eng b.order = some b' ∧ b'.drops = b.drops.filter (fun d => d.1 ≠ p) ∧
      ctrVal t.eng .replays = min 65535 (ctrVal s.eng .replays + 1) ∧
      (∀ q, q ≠ p → portOf t.eng q = portOf s.eng q) ∧ t.mem = absorb s.mem rd ∧ t.posted = s.posted := by
  obtain ⟨ctr, hread⟩ := exists_readEng s rd
  have hctr : ctrVal (readEng s rd) .replays = ctrVal s.eng .replays := ctrVal_bump_ne _ _ (by decide)
  generalize he : readEng s rd = e at *
  have heng : unicastReplay p (landed s.mem rd) e = bump (onBucket (onPort e p (pushReplay ((span first (groupsIn b - first)).map
      (replayFlit (landed s.mem rd) s.eng b)))) b.order (settlePort p)) .replays 1 := by
    have hdue' : minBy Bucket.order (e.lnk.buckets.filter fun x => (x.state == .landed || x.state == .done) &&
      x.drops.any fun d => d.1 == p) = some b := by rw [hread]; exact hdue
    have halive : hubAlive e = true := by rw [hread]; exact hhub
    dsimp only [unicastReplay]
    rw [hdue']
    dsimp only
    rw [if_neg (by simp [halive]), hfirst, replayFlit_congr _ (by rw [hread] : e.mp = s.eng.mp)]
    rfl
  have hports : e.lnk.ports = s.eng.lnk.ports := by rw [hread]
  have hbuckets : e.lnk.buckets = s.eng.lnk.buckets := by rw [hread]
  refine ⟨{ s with mem := absorb s.mem rd, eng := _ }, settlePort p b, (exec_unicastReplay p rd s).trans (by rw [he, heng]),
    ?_, ?_, ?_, ?_, fun q hq => ?_, rfl, rfl⟩
  · rw [portOf_bump, portOf_onBucket, portOf_onPort_self _ (port_lt (by rw [hports, hlen]) p), portOf_congr hports]
    rfl
  · exact (bucketAt_bump ..).trans (bucketAt_onBucket ((bucketAt_congr hbuckets _).trans hat))
  · exact List.filter_congr fun d _ => by by_cases hd : d.1 = p <;> simp [hd]
  · exact (ctrVal_bump_one ..).trans ((if_pos rfl).trans (by rw [← hctr]; rfl))
  · rw [portOf_bump, portOf_onBucket, portOf_onPort_ne _ hq, portOf_congr hports]

/-- Settles O44: each timer's effect, the multicasts that move on after it leaving the counters and the dropped ports as they are. -/
theorem reductionTimersAct : Obligations.ReductionTimersAct := by
  intro s b hhub hat hmem
  refine ⟨fun tag g htag hon hfailed hgroup hroot => exec_bucketDeadline_root hhub hat htag hon hfailed hgroup hroot,
    fun r hrun hgoing => ⟨fun tag htag => exec_sealWaitTimeout_unsealed hhub hrun hgoing htag,
      fun id g hadm hwait hid hgroup hgo => exec_joinTimeout_waiting hhub hrun hgoing hmem hadm hwait hid hgroup hgo⟩,
    fun p hruns hheld => exec_patienceExpiry_held hat hruns hheld,
    fun p rd first hlen hdue hfirst => exec_unicastReplay_dropped hhub hat rd hlen hdue hfirst⟩

end Sys2Proof.Machine
end

section
/-! Proofs: the waggle exchange and a link port's control (R368 to R371, R456 to R458). -/

namespace Sys2Proof.Machine

-- In turn, not side by side: each proof that waits for another holds a stack, which counts against the check's memory limit.
set_option Elab.async false

/-! ### A port's changes -/

/-- A port that has sent its CAPS (Table 11-2, step 1). -/
def capsSent (f : Flit) (q : Port) : Port :=
  { q with state := .waggle, wstep := .caps, caps := none, accept := none, readySeen := false, uns := [f] }

/-- A port that trains at rate 0 (R456). -/
def trained (c : LinkCfg) (st : PortState) (q : Port) : Port :=
  { q with state := st, wstep := .none, caps := none, accept := none, readySeen := false, uns := []
           rate := 0, laneMap := c.laneMap, polarity := c.polarity, trainReq := true, lock := false }

/-- A port that has dropped its link (R374). -/
def dropped (reason : Nat) (q : Port) : Port :=
  { q with state := .down, wstep := .none, reason := reason, version := 0, features := 0, caps := none, accept := none
           readySeen := false, trainReq := false, retryWait := false, held := [], resend := none, tries := none, skipping := false
           unacked := 0, uns := [], waitRx := [] }

/-- The LINK record's entry for a port (Table 15-6). -/
def linkCfg (e : Engine) (p : PortId) : LinkCfg := elemD e.boot.cfg.link p.val {}

/-- The engine whose buckets hold no credit of a port (R376). -/
def forgetPort (e : Engine) (p : PortId) : Engine := { e with lnk := { e.lnk with buckets := e.lnk.buckets.map (forgetSource p) } }

theorem sendCaps_eq (e : Engine) (p : PortId) : sendCaps e p = onPort e p (capsSent (ownCaps e p)) := rfl
theorem trainAt0_eq (e : Engine) (p : PortId) (st : PortState) : trainAt0 e p st = onPort e p (trained (linkCfg e p) st) := rfl
theorem portDown_eq (e : Engine) (p : PortId) (reason : Nat) : portDown e p reason = onPort (forgetPort e p) p (dropped reason) := rfl

/-- The exchange begins again with CAPS on lanes that are locked at rate 0, and else with training (R456). -/
theorem startExchange_onPort {e : Engine} {p : PortId} (hp : p.val < e.lnk.ports.length) (f : Port → Port) :
    startExchange (onPort e p f) p = onPort e p fun q =>
      if (f (portOf e p)).lock = true ∧ (f (portOf e p)).rate = 0 then capsSent (ownCaps e p) (f q)
      else trained (linkCfg e p) .training (f q) := by
  dsimp only [startExchange]
  rw [portOf_onPort_self f hp]
  split
  · exact onPort_onPort ..
  · exact onPort_onPort ..

/-- A port that trains after it has dropped its link (R368). -/
def trainedAnew (c : LinkCfg) (reason : Nat) (q : Port) : Port := trained c .training { dropped reason q with restarts := 0 }

/-- A port that ENABLE has turned off (R368). -/
def disabled (q : Port) : Port := { dropped 0 q with state := .disabled, lock := false }

theorem beginTraining_eq (e : Engine) (p : PortId) : beginTraining e p =
    onPort (forgetPort e p) p (trainedAnew (linkCfg e p) (portOf e p).reason) := by
  rw [beginTraining, portDown_eq, onPort_onPort, trainAt0_eq, onPort_onPort]
  rfl

theorem portOff_eq (e : Engine) (p : PortId) : portOff e p = onPort (forgetPort e p) p disabled := by
  rw [portOff, portDown_eq, onPort_onPort]
  rfl

/-- A port that has answered the partner's CAPS (R369). -/
def acceptSent (c : Caps) (v n : Nat) (q : Port) : Port :=
  pushUns { q with caps := some c, wstep := .accept } (waggleFlit [0x02, BitVec.ofNat 8 v, 0, BitVec.ofNat 8 n])

/-- A port whose lanes retrain at the rate of a version (Table 11-2, step 4). -/
def retrainAt (v n : Nat) (q : Port) : Port :=
  { q with version := v, features := BitVec.ofNat 8 n, rate := v, trainReq := true, lock := false, wstep := .retrain }

theorem compareAccepts_of_no_accept {e : Engine} {p : PortId} (h : (portOf e p).accept = none) : compareAccepts e p = e := by
  dsimp only [compareAccepts]
  rw [h]
  cases (portOf e p).caps <;> rfl

theorem compareAccepts_of_both {e : Engine} {p : PortId} {c : Caps} {a : Byte × Byte} {v n : Nat} (hcaps : (portOf e p).caps = some c)
    (haccept : (portOf e p).accept = some a) (hchoice : choice e p c = some (v, n)) :
    compareAccepts e p = if a.1.toNat = v ∧ a.2.toNat = n then onPort e p (retrainAt v n) else sendCaps e p := by
  dsimp only [compareAccepts]
  rw [hcaps, haccept]
  dsimp only
  rw [hchoice]
  rfl

/-- The version that two CAPS give is the highest of both masks (R369). -/
theorem le_of_choice {e : Engine} {p : PortId} {c : Caps} {v n : Nat} (h : choice e p c = some (v, n)) :
    ∀ w ∈ [1, 2, 3], bit (verMask e p) w = true → bit c.verMask.toNat w = true → w ≤ v := by
  intro w hw hmine htheirs
  unfold choice at h
  split at h
  next v' hfound =>
    obtain ⟨rfl, -⟩ := Prod.mk.inj (Option.some.inj h)
    obtain ⟨-, before, after, hlist, hbefore⟩ := List.find?_eq_some_iff_append.1 hfound
    have hmem : w ∈ before ++ v' :: after := hlist ▸ (by simpa [or_comm, or_assoc, or_left_comm] using hw)
    have hfalling : (before ++ v' :: after).Pairwise (· ≥ ·) := hlist ▸ (by decide)
    rcases List.mem_append.1 hmem with hin | hin
    · exact absurd (hbefore w hin) (by simp [hmine, htheirs])
    · rcases List.mem_cons.1 hin with rfl | hin
      · exact Nat.le_refl _
      · exact (List.pairwise_cons.1 (List.pairwise_append.1 hfalling).2.1).1 w hin
  · simp at h

/-! ### What a command that changes one port answers -/

section Next
variable {s : State} {p : PortId} {i : Instr} (hlen : s.eng.lnk.ports.length = 18)
include hlen

theorem next_onPort {f : Port → Port} (hexec : exec i s = .next (withEng s (onPort s.eng p f))) :
    ∃ t, exec i s = .next t ∧ OnlyPort s t p ∧ portOf t.eng p = f (portOf s.eng p) :=
  ⟨_, hexec, onlyPort_onPort s p f, portOf_onPort_self f (port_lt hlen p)⟩

theorem next_dropped {f : Port → Port} (hexec : exec i s = .next (withEng s (onPort (forgetPort s.eng p) p f))) :
    ∃ t, exec i s = .next t ∧ PortDropped s t p ∧ portOf t.eng p = f (portOf s.eng p) :=
  ⟨_, hexec, ⟨rfl, fun _ hq => portOf_onPort_ne f hq⟩, portOf_onPort_self (e := forgetPort s.eng p) f (port_lt hlen p)⟩

end Next

/-- A command of a port whose clock runs is taken at once (R17). -/
theorem exec_of_crossing {s : State} {p : PortId} (hruns : linkRuns s.eng p = true) (i : Instr) (f : Engine → Engine) {e : Engine}
    (heng : f s.eng = e) (hexec : exec i s = .next (crossing s (linkIsland p) i fun s => onEngine s f) := by rfl) :
    exec i s = .next (withEng s e) := by
  rw [hexec, crossing_runs (not_stopped_of_linkRuns hruns), ← heng]
  rfl

/-! ### The waggle exchange (Table 11-2) -/

section Waggle
variable {s : State} {p : PortId} (hruns : linkRuns s.eng p = true) (hlen : s.eng.lnk.ports.length = 18)
include hruns hlen

theorem exec_laneLock_training (htrain : (portOf s.eng p).trainReq = true) (hstate : (portOf s.eng p).state ≠ .waggle) :
    ∃ t, exec (.laneLock p) s = .next t ∧ OnlyPort s t p ∧ portOf t.eng p = { portOf s.eng p with
      lock := true, trainReq := false, state := .waggle, wstep := .caps, caps := none, accept := none, readySeen := false
      uns := [ownCaps s.eng p] } := by
  have heng : laneLock s.eng p = onPort s.eng p fun q => capsSent (ownCaps s.eng p) { q with lock := true, trainReq := false } := by
    dsimp only [laneLock]
    rw [if_neg (by simp [linkOn_of_linkRuns hruns, htrain]), if_neg fun h => hstate h.1, sendCaps_eq, onPort_onPort]
    rfl
  exact next_onPort hlen (exec_of_crossing hruns (.laneLock p) (laneLock · p) heng)

theorem exec_waggleRetryTimer_waiting (hretry : (portOf s.eng p).retryWait = true) :
    ∃ t, exec (.waggleRetryTimer p) s = .next t ∧ OnlyPort s t p ∧ (portOf t.eng p).retryWait = false ∧ (portOf t.eng p).restarts = 0 ∧
      ((portOf t.eng p).state = .waggle ∨ (portOf t.eng p).state = .training) := by
  have heng := startExchange_onPort (port_lt hlen p) fun q => { q with retryWait := false, restarts := 0 }
  have hexec : exec (.waggleRetryTimer p) s = .next (withEng s (startExchange
      (onPort s.eng p fun q => { q with retryWait := false, restarts := 0 }) p)) :=
    congrArg (fun e => Host.Outcome.next (withEng s e)) (if_pos (by simp [hruns, hretry]))
  rw [heng] at hexec
  obtain ⟨t, ht, honly, hport⟩ := next_onPort hlen hexec
  refine ⟨t, ht, honly, ?_⟩
  rw [hport]
  split
  · exact ⟨rfl, rfl, .inl rfl⟩
  · exact ⟨rfl, rfl, .inr rfl⟩

variable (hstate : (portOf s.eng p).state = .waggle)
include hstate

/-- CAPS without a version in common (R370). -/
theorem exec_capsReceive_none {c : Caps} (hstep : (portOf s.eng p).wstep = .caps) (hnone : choice s.eng p c = none) :
    ∃ t, exec (.capsReceive p c) s = .next t ∧ PortDropped s t p ∧ (portOf t.eng p).state = .down ∧ (portOf t.eng p).reason = 1 ∧
      (portOf t.eng p).partner = c.deviceId := by
  have heng : capsReceive s.eng p c = onPort (forgetPort s.eng p) p fun q =>
      dropped 1 { q with partner := c.deviceId, partnerPort := c.port } := by
    have hnone' : choice (onPort s.eng p fun q => { q with partner := c.deviceId, partnerPort := c.port }) p c = none := hnone
    dsimp only [capsReceive]
    rw [if_neg (by simp [linkOn_of_linkRuns hruns, hstate]), if_neg (by simp [hstep]), hnone']
    exact onPort_onPort (forgetPort s.eng p) ..
  obtain ⟨t, ht, honly, hport⟩ := next_dropped hlen (exec_of_crossing hruns (.capsReceive p c) (capsReceive · p c) heng)
  refine ⟨t, ht, honly, ?_⟩
  rw [hport]
  exact ⟨rfl, rfl, rfl⟩

/-- CAPS with a version in common, of which the highest is taken (R369). -/
theorem exec_capsReceive_some {c : Caps} {v n : Nat} (hstep : (portOf s.eng p).wstep = .caps) (haccept : (portOf s.eng p).accept = none)
    (hchoice : choice s.eng p c = some (v, n)) :
    ∃ t, exec (.capsReceive p c) s = .next t ∧ OnlyPort s t p ∧ (portOf t.eng p).state = .waggle ∧
      (portOf t.eng p).wstep = .accept ∧ (portOf t.eng p).caps = some c ∧ (portOf t.eng p).partner = c.deviceId ∧
      (portOf t.eng p).partnerPort = c.port ∧
      waggleFlit [0x02, BitVec.ofNat 8 v, 0, BitVec.ofNat 8 n] ∈ (portOf t.eng p).uns := by
  have heng : capsReceive s.eng p c = onPort s.eng p fun q => acceptSent c v n { q with partner := c.deviceId, partnerPort := c.port } := by
    have hchoice' : choice (onPort s.eng p fun q => { q with partner := c.deviceId, partnerPort := c.port }) p c = some (v, n) := hchoice
    dsimp only [capsReceive]
    rw [if_neg (by simp [linkOn_of_linkRuns hruns, hstate]), if_neg (by simp [hstep]), hchoice']
    dsimp only
    rw [onPort_onPort]
    refine compareAccepts_of_no_accept ?_
    rw [portOf_onPort_self _ (port_lt hlen p)]
    exact haccept
  obtain ⟨t, ht, honly, hport⟩ := next_onPort hlen (exec_of_crossing hruns (.capsReceive p c) (capsReceive · p c) heng)
  refine ⟨t, ht, honly, ?_⟩
  rw [hport]
  exact ⟨hstate, rfl, rfl, rfl, rfl, List.mem_append_right _ (List.mem_singleton_self _)⟩

/-- The ACCEPTs agree and the lanes retrain, or the exchange begins again (R369). -/
theorem exec_acceptReceive_compared {c : Caps} {v n : Nat} {a b : Byte} (hstep : (portOf s.eng p).wstep = .accept)
    (hcaps : (portOf s.eng p).caps = some c) (hchoice : choice s.eng p c = some (v, n)) :
    ∃ t, exec (.acceptReceive p a b) s = .next t ∧ OnlyPort s t p ∧ (portOf t.eng p).state = .waggle ∧
      (a.toNat = v ∧ b.toNat = n → (portOf t.eng p).version = v ∧ (portOf t.eng p).rate = v ∧
        (portOf t.eng p).features = b ∧ (portOf t.eng p).trainReq = true ∧ (portOf t.eng p).wstep = .retrain) ∧
      (¬(a.toNat = v ∧ b.toNat = n) → (portOf t.eng p).wstep = .caps ∧ (portOf t.eng p).uns = [ownCaps s.eng p]) := by
  have hport := portOf_onPort_self (fun q => { q with accept := some (a, b) }) (port_lt hlen p)
  have heng : acceptReceive s.eng p a b = onPort s.eng p fun q => if a.toNat = v ∧ b.toNat = n
      then retrainAt v n { q with accept := some (a, b) } else capsSent (ownCaps s.eng p) { q with accept := some (a, b) } := by
    dsimp only [acceptReceive]
    rw [if_neg (by simp [linkOn_of_linkRuns hruns, hstate]), if_pos (.inr hstep), if_pos hstep,
      compareAccepts_of_both (hport ▸ hcaps) (congrArg Port.accept hport) hchoice]
    split
    · exact onPort_onPort ..
    · exact onPort_onPort ..
  obtain ⟨t, ht, honly, hport⟩ := next_onPort hlen (exec_of_crossing hruns (.acceptReceive p a b) (acceptReceive · p a b) heng)
  refine ⟨t, ht, honly, ?_⟩
  rw [hport]
  by_cases hagree : a.toNat = v ∧ b.toNat = n
  · simp only [if_pos hagree]
    exact ⟨hstate, fun _ => ⟨rfl, rfl, by rw [← hagree.2]; exact BitVec.ofNat_toNat .., rfl, rfl⟩, fun h => absurd hagree h⟩
  · simp only [if_neg hagree]
    exact ⟨rfl, fun h => absurd h hagree, fun _ => ⟨rfl, rfl⟩⟩

/-- READY brings the port UP (R369, R376). -/
theorem exec_readyReceive_up (hstep : (portOf s.eng p).wstep = .ready) :
    ∃ t, exec (.readyReceive p) s = .next t ∧ OnlyPort s t p ∧ (portOf t.eng p).state = .up ∧ (portOf t.eng p).credit0 = 96 ∧
      (portOf t.eng p).credit1 = 96 - (portOf s.eng p).down.length ∧ (portOf t.eng p).txSeq = 0 ∧ (portOf t.eng p).rxSeq = 0 ∧
      (portOf t.eng p).held = [] ∧ (portOf t.eng p).version = (portOf s.eng p).version := by
  have heng : readyReceive s.eng p = onPort s.eng p portUp := by
    dsimp only [readyReceive]
    rw [if_neg (by simp [linkOn_of_linkRuns hruns, hstate]), if_pos hstep]
  obtain ⟨t, ht, honly, hport⟩ := next_onPort hlen (exec_of_crossing hruns (.readyReceive p) (readyReceive · p) heng)
  refine ⟨t, ht, honly, ?_⟩
  rw [hport]
  exact ⟨rfl, rfl, rfl, rfl, rfl, rfl, rfl⟩

/-- A step that has waited too long starts the exchange again (R370). -/
theorem exec_waggleTimeout_again (hleft : (portOf s.eng p).restarts < 3) :
    ∃ t, exec (.waggleTimeout p) s = .next t ∧ OnlyPort s t p ∧ (portOf t.eng p).restarts = (portOf s.eng p).restarts + 1 ∧
      ((portOf s.eng p).lock = true ∧ (portOf s.eng p).rate = 0 → (portOf t.eng p).state = .waggle ∧ (portOf t.eng p).wstep = .caps) ∧
      (¬((portOf s.eng p).lock = true ∧ (portOf s.eng p).rate = 0) → (portOf t.eng p).state = .training ∧
        (portOf t.eng p).trainReq = true ∧ (portOf t.eng p).rate = 0) := by
  have heng : waggleTimeout s.eng p = startExchange (onPort s.eng p fun q => { q with restarts := q.restarts + 1 }) p := by
    dsimp only [waggleTimeout]
    rw [if_neg (by simp [hruns, hstate]), if_pos hleft]
  rw [startExchange_onPort (port_lt hlen p)] at heng
  obtain ⟨t, ht, honly, hport⟩ := next_onPort (i := .waggleTimeout p) hlen (congrArg (fun e => Host.Outcome.next (withEng s e)) heng)
  refine ⟨t, ht, honly, ?_⟩
  rw [hport]
  by_cases hlocked : (portOf s.eng p).lock = true ∧ (portOf s.eng p).rate = 0
  · rw [if_pos hlocked]
    exact ⟨rfl, fun _ => ⟨rfl, rfl⟩, fun h => absurd hlocked h⟩
  · rw [if_neg hlocked]
    exact ⟨rfl, fun h => absurd h hlocked, fun _ => ⟨rfl, rfl, rfl⟩⟩

/-- After the third restart the port goes DOWN until its retry timer ends (R370). -/
theorem exec_waggleTimeout_down (hdone : 3 ≤ (portOf s.eng p).restarts) :
    ∃ t, exec (.waggleTimeout p) s = .next t ∧ PortDropped s t p ∧ (portOf t.eng p).state = .down ∧ (portOf t.eng p).reason = 2 ∧
      (portOf t.eng p).retryWait = true := by
  have heng : waggleTimeout s.eng p = onPort (forgetPort s.eng p) p fun q => { dropped 2 q with retryWait := true } := by
    dsimp only [waggleTimeout]
    rw [if_neg (by simp [hruns, hstate]), if_neg (by omega), portDown_eq, onPort_onPort]
  obtain ⟨t, ht, honly, hport⟩ := next_dropped (i := .waggleTimeout p) hlen (congrArg (fun e => Host.Outcome.next (withEng s e)) heng)
  refine ⟨t, ht, honly, ?_⟩
  rw [hport]
  exact ⟨rfl, rfl, rfl⟩

end Waggle

/-! ### A port's control (R368, R456 to R458) -/

theorem land_seven (n : Nat) : Nat.land n 7 = n % 8 := Nat.and_two_pow_sub_one_eq_mod n 3

theorem bit_eq_getLsbD (v : Word) (i : Nat) : bit v.toNat i = v.getLsbD i := by
  rw [bit, BitVec.getLsbD, Nat.testBit_eq_decide_div_mod_eq]; rfl

section Control
variable {e : Engine} {p : PortId} {v : Word} (hfuse : portFuseOn e p = true)
include hfuse

/-- A port that its fuse enables takes ENABLE and MAX_VER (R368). -/
theorem storePortCtrl_fused : storePortCtrl e p v = setRw e (.portCtrl p) (v.toNat % 8) := by
  rw [storePortCtrl, storeRw, rwStore, if_pos hfuse, land_seven]

theorem rwVal_storePortCtrl : rwVal (storePortCtrl e p v) (.portCtrl p) = v.toNat % 8 := by
  have hmask : rwMask (.portCtrl p) = 7 := rfl
  rw [storePortCtrl_fused hfuse, rwVal_setRw_self, hmask, land_seven]
  omega

/-- The port may train as ENABLE and the LINK record say (R368). -/
theorem portOn_storePortCtrl : portOn (storePortCtrl e p v) p = (v.getLsbD 0 && e.boot.cfg.hasLink) := by
  have hbit : bit (v.toNat % 8) 0 = v.getLsbD 0 := by
    rw [← bit_eq_getLsbD, bit, bit]
    congr 1
    omega
  rw [portOn, rwVal_storePortCtrl hfuse, hbit, storePortCtrl_fused hfuse]
  show (portFuseOn e p && v.getLsbD 0 && e.boot.cfg.hasLink) = _
  rw [hfuse, Bool.true_and]

theorem portOf_storePortCtrl (q : PortId) : portOf (storePortCtrl e p v) q = portOf e q := by rw [storePortCtrl_fused hfuse]; rfl

theorem linkCfg_storePortCtrl : linkCfg (storePortCtrl e p v) p = linkCfg e p := by rw [storePortCtrl_fused hfuse]; rfl

theorem linkOn_storePortCtrl : linkOn (storePortCtrl e p v) p = linkOn e p := by rw [storePortCtrl_fused hfuse]; rfl

/-- A change of the port after its control has been written, its link being dropped. -/
theorem storePortCtrl_dropped (hlen : e.lnk.ports.length = 18) (f : Port → Port) :
    portOf (onPort (forgetPort (storePortCtrl e p v) p) p f) p = f (portOf e p) ∧
    rwVal (onPort (forgetPort (storePortCtrl e p v) p) p f) (.portCtrl p) = v.toNat % 8 ∧
    ∀ q, q ≠ p → portOf (onPort (forgetPort (storePortCtrl e p v) p) p f) q = portOf e q := by
  have hlen' : (storePortCtrl e p v).lnk.ports.length = 18 := by rw [storePortCtrl_fused hfuse]; exact hlen
  refine ⟨?_, rwVal_storePortCtrl hfuse, fun q hq => ?_⟩
  · rw [portOf_onPort_self (e := forgetPort (storePortCtrl e p v) p) f (port_lt hlen' p)]
    exact congrArg f (portOf_storePortCtrl hfuse p)
  · rw [portOf_onPort_ne f hq]
    exact portOf_storePortCtrl hfuse q

end Control

section Write
variable {s : State} {p : PortId} {src : WriteSrc} {v : Word} (hhub : HubUp s.eng) (hpresents : Presents s src (.portCtrl p) v)
include hhub hpresents

theorem exec_portEnable (h3 : v.getLsbD 3 = false) : exec (.portEnable p src) s = .next (afterWrite s src (enableWrite p v s.eng)) :=
  congrArg Host.Outcome.next (bySourceIf_presents _ hhub hpresents (by rw [bit_eq_getLsbD, h3]; rfl))

theorem exec_retrain (h3 : v.getLsbD 3 = true) : exec (.retrain p src) s = .next (afterWrite s src (retrainWrite p v s.eng)) :=
  congrArg Host.Outcome.next (bySourceIf_presents _ hhub hpresents (by rw [bit_eq_getLsbD, h3]))

variable (hlen : s.eng.lnk.ports.length = 18) (hfuse : portFuseOn s.eng p = true)
include hlen hfuse

section Enabled
variable (hlink : s.eng.boot.cfg.hasLink = true) (hon : linkOn s.eng p = true) (h0 : v.getLsbD 0 = true)
include hlink hon h0

/-- ENABLE starts the training of a disabled port (R368, R456). -/
theorem exec_portEnable_trains (h3 : v.getLsbD 3 = false) (hstate : (portOf s.eng p).state = .disabled) :
    ∃ t, exec (.portEnable p src) s = .next t ∧ (portOf t.eng p).state = .training ∧ (portOf t.eng p).trainReq = true ∧
      (portOf t.eng p).rate = 0 ∧ (portOf t.eng p).laneMap = (elemD s.eng.boot.cfg.link p.val {}).laneMap ∧
      (portOf t.eng p).polarity = (elemD s.eng.boot.cfg.link p.val {}).polarity ∧ rwVal t.eng (.portCtrl p) = v.toNat % 8 ∧
      (∀ q, q ≠ p → portOf t.eng q = portOf s.eng q) ∧ t.posted = restOf s src ∧ t.mem = s.mem := by
  have heng : enableWrite p v s.eng = beginTraining (storePortCtrl s.eng p v) p := by
    dsimp only [enableWrite]
    rw [portOn_storePortCtrl hfuse, if_neg (by simp [h0, hlink]),
      if_pos ⟨(linkOn_storePortCtrl hfuse).trans hon, (congrArg Port.state (portOf_storePortCtrl hfuse p)).trans hstate⟩]
  rw [beginTraining_eq, linkCfg_storePortCtrl hfuse] at heng
  obtain ⟨hport, hreg, hothers⟩ := storePortCtrl_dropped (v := v) hfuse hlen
    (trainedAnew (linkCfg s.eng p) (portOf (storePortCtrl s.eng p v) p).reason)
  rw [exec_portEnable hhub hpresents h3, heng]
  exact ⟨_, rfl, congrArg Port.state hport, congrArg Port.trainReq hport, congrArg Port.rate hport, congrArg Port.laneMap hport,
    congrArg Port.polarity hport, hreg, hothers, rfl, rfl⟩

omit hlen hon in
theorem exec_portEnable_stays (h3 : v.getLsbD 3 = false) (hstate : (portOf s.eng p).state ≠ .disabled) :
    exec (.portEnable p src) s = .next (afterWrite s src (setRw s.eng (.portCtrl p) (v.toNat % 8))) := by
  have heng : enableWrite p v s.eng = storePortCtrl s.eng p v := by
    dsimp only [enableWrite]
    rw [portOn_storePortCtrl hfuse, if_neg (by simp [h0, hlink]),
      if_neg fun h => hstate ((congrArg Port.state (portOf_storePortCtrl hfuse p)).symm.trans h.2)]
  rw [exec_portEnable hhub hpresents h3, heng, storePortCtrl_fused hfuse]

/-- RETRAIN drops the link and trains again (R370). -/
theorem exec_retrain_trains (h3 : v.getLsbD 3 = true) :
    ∃ t, exec (.retrain p src) s = .next t ∧ (portOf t.eng p).state = .training ∧ (portOf t.eng p).held = [] ∧
      (portOf t.eng p).version = 0 ∧ (portOf t.eng p).trainReq = true ∧ rwVal t.eng (.portCtrl p) = v.toNat % 8 ∧
      (∀ q, q ≠ p → portOf t.eng q = portOf s.eng q) ∧ t.posted = restOf s src ∧ t.mem = s.mem := by
  have heng : retrainWrite p v s.eng = beginTraining (storePortCtrl s.eng p v) p := by
    dsimp only [retrainWrite]
    rw [portOn_storePortCtrl hfuse, if_neg (by simp [h0, hlink]), if_pos ((linkOn_storePortCtrl hfuse).trans hon)]
  rw [beginTraining_eq] at heng
  obtain ⟨hport, hreg, hothers⟩ := storePortCtrl_dropped (v := v) hfuse hlen
    (trainedAnew (linkCfg (storePortCtrl s.eng p v) p) (portOf (storePortCtrl s.eng p v) p).reason)
  rw [exec_retrain hhub hpresents h3, heng]
  exact ⟨_, rfl, congrArg Port.state hport, congrArg Port.held hport, congrArg Port.version hport, congrArg Port.trainReq hport, hreg,
    hothers, rfl, rfl⟩

end Enabled

/-- Without ENABLE, or without a LINK record, the port is DISABLED (R368). -/
theorem exec_portCtrl_disables (hoff : v.getLsbD 0 = false ∨ s.eng.boot.cfg.hasLink = false) {i : Instr}
    (hi : (v.getLsbD 3 = false ∧ i = .portEnable p src) ∨ (v.getLsbD 3 = true ∧ i = .retrain p src)) :
    ∃ t, exec i s = .next t ∧ ((portOf s.eng p).state = .disabled → v.getLsbD 3 = false → portOf t.eng p = portOf s.eng p) ∧
      (portOf t.eng p).state = .disabled ∧ ((portOf s.eng p).state ≠ .disabled → (portOf t.eng p).held = []) ∧
      rwVal t.eng (.portCtrl p) = v.toNat % 8 ∧ (∀ q, q ≠ p → portOf t.eng q = portOf s.eng q) ∧ t.posted = restOf s src ∧
      t.mem = s.mem := by
  have hport := portOf_storePortCtrl (v := v) hfuse
  have hnot : (!portOn (storePortCtrl s.eng p v) p) = true := by
    rw [portOn_storePortCtrl hfuse]; rcases hoff with h | h <;> rw [h] <;> simp
  obtain ⟨hdown, hreg, hothers⟩ := storePortCtrl_dropped (v := v) hfuse hlen disabled
  rw [← portOff_eq] at hdown hreg hothers
  rcases hi with ⟨h3, rfl⟩ | ⟨h3, rfl⟩
  · rw [exec_portEnable hhub hpresents h3]
    by_cases hstate : (portOf s.eng p).state = .disabled
    · have heng : enableWrite p v s.eng = storePortCtrl s.eng p v := by
        dsimp only [enableWrite]
        rw [if_pos hnot, if_pos ((congrArg Port.state (hport p)).trans hstate)]
      rw [heng]
      exact ⟨_, rfl, fun _ _ => hport p, (congrArg Port.state (hport p)).trans hstate, fun h => absurd hstate h, rwVal_storePortCtrl hfuse,
        fun q _ => hport q, rfl, rfl⟩
    · have heng : enableWrite p v s.eng = portOff (storePortCtrl s.eng p v) p := by
        dsimp only [enableWrite]
        rw [if_pos hnot, if_neg fun h => hstate ((congrArg Port.state (hport p)).symm.trans h)]
      rw [heng]
      exact ⟨_, rfl, fun h => absurd h hstate, congrArg Port.state hdown, fun _ => congrArg Port.held hdown, hreg, hothers, rfl, rfl⟩
  · have heng : retrainWrite p v s.eng = portOff (storePortCtrl s.eng p v) p := if_pos hnot
    rw [exec_retrain hhub hpresents h3, heng]
    exact ⟨_, rfl, fun _ h => absurd (h.symm.trans h3) (by decide), congrArg Port.state hdown, fun _ => congrArg Port.held hdown, hreg,
      hothers, rfl, rfl⟩

end Write

section Loss
variable {s : State} {p : PortId} (hruns : linkRuns s.eng p = true) (hlen : s.eng.lnk.ports.length = 18)
  (hstate : (portOf s.eng p).state = .up)
include hruns hlen hstate

/-- A lock lost while UP takes the port DOWN and counts (R457). -/
theorem exec_lockLoss_up (hlock : (portOf s.eng p).lock = true) :
    ∃ t, exec (.lockLoss p) s = .next t ∧ (portOf t.eng p).state = .down ∧ (portOf t.eng p).reason = 4 ∧ (portOf t.eng p).lock = false ∧
      (portOf t.eng p).trainReq = true ∧ ctrVal t.eng .linkPhyLost = min 255 (ctrVal s.eng .linkPhyLost + 1) ∧
      (∀ q, q ≠ p → portOf t.eng q = portOf s.eng q) ∧ t.posted = s.posted ∧ t.mem = s.mem := by
  have heng : lockLoss s.eng p = trainAt0 (bump (portDown s.eng p 4) .linkPhyLost 1) p .down := by
    dsimp only [lockLoss]
    rw [if_neg (by simp [linkOn_of_linkRuns hruns, hlock]), if_pos hstate]
  have hlen' : (bump (portDown s.eng p 4) .linkPhyLost 1).lnk.ports.length = 18 := by
    rw [bump_lnk, portDown_eq, onPort_ports_length]; exact hlen
  have hport : portOf (lockLoss s.eng p) p =
      trained (linkCfg (bump (portDown s.eng p 4) .linkPhyLost 1) p) .down (dropped 4 (portOf s.eng p)) := by
    rw [heng, trainAt0_eq, portOf_onPort_self _ (port_lt hlen' p), portOf_bump, portDown_eq,
      portOf_onPort_self (e := forgetPort s.eng p) _ (port_lt hlen p)]
    rfl
  have hcount : ctrVal (lockLoss s.eng p) .linkPhyLost = min 255 (ctrVal s.eng .linkPhyLost + 1) := by
    rw [heng]; exact (ctrVal_bump_one ..).trans (if_pos rfl)
  have hothers : ∀ q, q ≠ p → portOf (lockLoss s.eng p) q = portOf s.eng q := fun q hq => by
    rw [heng, trainAt0_eq, portOf_onPort_ne _ hq, portOf_bump, portDown_eq, portOf_onPort_ne _ hq]; rfl
  refine ⟨_, exec_of_crossing hruns (.lockLoss p) (lockLoss · p) rfl, ?_, ?_, ?_, ?_, hcount, hothers, rfl, rfl⟩ <;>
    rw [withEng_eng, hport] <;> rfl

/-- A discarded beat counts as a CRC error and asks for the flit again (R458). -/
theorem exec_rxBeatDiscard_up : ∃ t, exec (.rxBeatDiscard p) s = .next t ∧
    ctrVal t.eng (.crcErrors p) = min 4095 (ctrVal s.eng (.crcErrors p) + 1) ∧ (portOf t.eng p).skipping = true ∧
    (portOf t.eng p).rxSeq = (portOf s.eng p).rxSeq ∧ (portOf t.eng p).state = .up ∧
    ((portOf s.eng p).skipping = false → seqFlit opNak (portOf s.eng p).version (portOf s.eng p).rxSeq ∈ (portOf t.eng p).uns) ∧
    (∀ q, q ≠ p → portOf t.eng q = portOf s.eng q) ∧ t.posted = s.posted ∧ t.mem = s.mem := by
  have heng : beatDiscard s.eng p = badFlit s.eng p := if_pos (by simp [linkOn_of_linkRuns hruns, hstate])
  have hport : portOf (badFlit s.eng p) p = nakOnce (portOf s.eng p) := by
    rw [badFlit, portOf_onPort_self _ (port_lt (by simpa using hlen) p), portOf_bump]
  refine ⟨_, exec_of_crossing hruns (.rxBeatDiscard p) (beatDiscard · p) heng, (ctrVal_bump_one ..).trans (if_pos rfl), ?_, ?_, ?_, ?_,
    fun q hq => (portOf_onPort_ne _ hq).trans (portOf_bump ..), rfl, rfl⟩
  all_goals rw [withEng_eng, hport, nakOnce]
  · split
    · assumption
    · rfl
  · split <;> rfl
  · split <;> exact hstate
  · intro hskip
    rw [if_neg (by simp [hskip])]
    exact List.mem_append_right _ (List.mem_singleton_self _)

end Loss

/-- Settles O38: each command of a port by its case, as one change of the port on an engine that is otherwise the same. -/
theorem waggleAndPortControl : Obligations.WaggleAndPortControl := by
  refine ⟨fun s p hruns hlen => ⟨fun htrain hstate => exec_laneLock_training hruns hlen htrain hstate, fun hstate => ?_,
    fun hretry => exec_waggleRetryTimer_waiting hruns hlen hretry⟩, fun s p hlen => ⟨fun src v hhub hpresents => ⟨?_, ?_⟩, ?_⟩⟩
  · exact ⟨fun c hstep hnone => exec_capsReceive_none hruns hlen hstate hstep hnone,
      fun c v n hstep haccept hchoice => ⟨le_of_choice hchoice, exec_capsReceive_some hruns hlen hstate hstep haccept hchoice⟩,
      fun c v n a b hstep hcaps hchoice => exec_acceptReceive_compared hruns hlen hstate hstep hcaps hchoice,
      fun hstep => exec_readyReceive_up hruns hlen hstate hstep, fun hleft => exec_waggleTimeout_again hruns hlen hstate hleft,
      fun hdone => exec_waggleTimeout_down hruns hlen hstate hdone⟩
  · exact fun hfuse hlink hon h0 => ⟨fun h3 hstate => exec_portEnable_trains hhub hpresents hlen hfuse hlink hon h0 h3 hstate,
      fun h3 hstate => exec_portEnable_stays hhub hpresents hfuse hlink h0 h3 hstate,
      fun h3 => exec_retrain_trains hhub hpresents hlen hfuse hlink hon h0 h3⟩
  · exact fun hoff hfuse i hi => exec_portCtrl_disables hhub hpresents hlen hfuse hoff hi
  · exact fun hruns hstate => ⟨fun hlock => exec_lockLoss_up hruns hlen hstate hlock, exec_rxBeatDiscard_up hruns hlen hstate⟩

end Sys2Proof.Machine
end

section
/-! Proofs: sequenced flits, ACK, NAK, CREDIT and a port's timers (R374, R376, R387). -/

namespace Sys2Proof.Machine

-- In turn, not side by side: each proof that waits for another holds a stack, which counts against the check's memory limit.
set_option Elab.async false

theorem msgOp_seqFlit_nak (v : Nat) (l : BitVec 16) : msgOp (seqFlit opNak v l) = opNak := rfl

/-- A flit with its place in a port's sequence and its CRC (R374). -/
def sequenced (q : Port) (f : Flit) : Flit :=
  sealFlit { f with lseq := q.txSeq, kind := kindByte (flitKind f) (flitPoison f) q.version }

theorem crcGood_sealFlit (f : Flit) : crcGood (sealFlit f) = true := beq_iff_eq.2 rfl

/-! ### A sequenced flit (R374) -/

/-- A port that has taken a flit in turn (R374). -/
def flitTaken (q : Port) : Port :=
  let q := { q with rxSeq := q.rxSeq + 1, skipping := false, unacked := q.unacked + 1 }
  if 32 ≤ q.unacked then pushAck q else q

theorem flitTaken_keeps (q : Port) : (flitTaken q).rxSeq = q.rxSeq + 1 ∧ (flitTaken q).skipping = false ∧
    (flitTaken q).state = q.state ∧ (flitTaken q).grant0 = q.grant0 := by
  unfold flitTaken
  dsimp only
  split
  · exact ⟨rfl, rfl, rfl, rfl⟩
  · exact ⟨rfl, rfl, rfl, rfl⟩

section Sequenced
variable {e : Engine} {p : PortId} {f : Flit} (hon : linkOn e p = true) (hstate : (portOf e p).state = .up)
include hon hstate

theorem rxSequenced_bad (hcrc : crcGood f = false) : rxSequenced e p f = (badFlit e p, false) := by
  dsimp only [rxSequenced]
  rw [if_neg (by simp [hon, hstate]), if_pos (by simp [hcrc])]

theorem rxSequenced_late (hcrc : crcGood f = true) (hseq : f.lseq ≠ (portOf e p).rxSeq) :
    rxSequenced e p f = (onPort e p nakOnce, false) := by
  dsimp only [rxSequenced]
  rw [if_neg (by simp [hon, hstate]), if_neg (by simp [hcrc]), if_pos hseq]

theorem rxSequenced_inTurn (hcrc : crcGood f = true) (hkind : flitKind f < 3) (hseq : f.lseq = (portOf e p).rxSeq) :
    rxSequenced e p f = (bump (onPort e p flitTaken) (.rxFlits p) 1, true) := by
  dsimp only [rxSequenced]
  rw [if_neg (by simp [hon, hstate]), if_neg (by simp [hcrc]), if_neg (not_not_intro hseq), if_pos hkind]
  rfl

/-- An unsequenced message of its own kind acts on its port (R374). -/
theorem rxUnsequenced_eq {op : Nat} {act : Port → Port} (hcrc : crcGood f = true) (hkind : flitKind f = kControl) (hop : msgOp f = op) :
    rxUnsequenced e p op f act = onPort e p act := by
  dsimp only [rxUnsequenced]
  rw [if_neg (by simp [hon, hstate]), if_neg (by simp [hcrc]), if_neg (by simp [hkind, hop])]

end Sequenced

theorem nakOnce_eq (q : Port) : nakOnce q = if q.skipping then q else
    { q with skipping := true, uns := (q.uns.filter fun g => msgOp g != opNak) ++ [seqFlit opNak q.version q.rxSeq] } := by
  rw [nakOnce, pushUns, msgOp_seqFlit_nak]

/-! ### Links without buckets -/

theorem target_of_nil {e : Engine} (h : e.lnk.buckets = []) (f : Flit) : target e f = none := by rw [target, h]; rfl
theorem belongs_of_nil {e : Engine} (h : e.lnk.buckets = []) (f : Flit) : belongs e f = false := by rw [belongs, h]; rfl

theorem moveMulticasts_of_nil {e : Engine} (h : e.lnk.buckets = []) : moveMulticasts e = e :=
  moveMulticasts_of_idle fun b hb => by simp [h] at hb

theorem stompSum_of_nil {e : Engine} (h : e.lnk.buckets = []) (p : PortId) (f : Flit) : stompSum e p f = e := by
  rw [stompSum, target_of_nil h]

/-- A data flit for no bucket is stale (R387). -/
theorem placeFlit_of_nil {e : Engine} (h : e.lnk.buckets = []) {p : PortId} {f : Flit} (hkind : flitKind f < 2) (lane : Bool) :
    placeFlit e p f lane = returnCredit (bump e .staleFlits 1) p 0 := by
  have hresult : flitKind f ≠ kResult := fun hk => absurd (hk ▸ hkind) (by decide)
  rw [placeFlit, target_of_nil h, belongs_of_nil h]
  dsimp only
  rw [if_neg Bool.false_ne_true, if_neg hresult]

/-- A port that gives a credit of channel 0 back (R376). -/
def granted0 (q : Port) : Port :=
  pushUns { q with grant0 := (q.grant0 + 1) % 2 ^ 16 } (creditFlit q.version ((q.grant0 + 1) % 2 ^ 16) q.grant1)

theorem portOf_returnCredit {e : Engine} {p : PortId} (hp : p.val < e.lnk.ports.length) (hstate : (portOf e p).state = .up) :
    portOf (returnCredit e p 0) p = granted0 (portOf e p) := by
  rw [returnCredit, portOf_onPort_self _ hp, if_neg (not_not_intro hstate)]
  rfl

theorem forgetPort_of_nil {e : Engine} (h : e.lnk.buckets = []) (p : PortId) : forgetPort e p = e := by rw [forgetPort, h, List.map_nil, ← h]

/-! ### Resending (R374) -/

/-- A port that begins resending with its oldest flit. -/
def resending (l : BitVec 16) (n : Nat) (q : Port) : Port := { q with resend := some 0, tries := some (l, n) }

theorem resendOldest_first {e : Engine} {p : PortId} {f : Flit} {l : List Flit} (hheld : (portOf e p).held = f :: l)
    (htries : (portOf e p).tries = none) : resendOldest e p = onPort e p (resending f.lseq 1) := by
  dsimp only [resendOldest]
  rw [hheld]
  dsimp only
  rw [htries]
  rfl

theorem resendOldest_last {e : Engine} {p : PortId} {f : Flit} {l : List Flit} (hheld : (portOf e p).held = f :: l)
    (htries : (portOf e p).tries = some (f.lseq, 8)) (hnil : e.lnk.buckets = []) :
    resendOldest e p = onPort e p fun q => trained (linkCfg e p) .down (dropped 3 q) := by
  dsimp only [resendOldest]
  rw [hheld]
  dsimp only
  rw [htries]
  dsimp only
  rw [if_pos (by simp), portDown_eq, forgetPort_of_nil hnil, trainAt0_eq, onPort_onPort]
  rfl

theorem held_freeHeld (n : Nat) (q : Port) : (freeHeld n q).held = q.held.drop n ∧ (freeHeld n q).uns = q.uns := by
  unfold freeHeld
  split
  · next h => rw [h]; exact ⟨rfl, rfl⟩
  · exact ⟨rfl, rfl⟩

theorem tries_freeHeld (n : Nat) {q : Port} (h : q.tries = none) : (freeHeld n q).tries = none := by
  unfold freeHeld
  split
  · exact h
  · rfl

theorem lt_of_indexOf? {α : Type} {f : α → Bool} {l : List α} {i : Nat} (h : indexOf? f l = some i) : i < l.length := by
  induction l generalizing i with
  | nil => cases h
  | cons a l ih =>
    by_cases ha : f a = true
    · obtain rfl : 0 = i := Option.some.inj ((if_pos ha).symm.trans h)
      exact Nat.zero_lt_succ _
    · obtain ⟨j, hj, rfl⟩ := Option.map_eq_some_iff.1 ((if_neg ha).symm.trans h)
      exact Nat.succ_lt_succ (ih hj)

/-! ### The commands of a port that is UP -/

section Up
variable {s : State} {p : PortId} (hlen : s.eng.lnk.ports.length = 18) (hruns : linkRuns s.eng p = true)
  (hstate : (portOf s.eng p).state = .up)
include hlen hruns hstate

section NoBuckets
variable (hnil : s.eng.lnk.buckets = [])
include hnil

/-- A flit whose CRC fails or that is out of turn is not taken (R374). -/
theorem exec_dataFlitReceive_refused (f : Flit) (lane : Bool) (hbad : crcGood f = false ∨ flitKind f < 2 ∧ f.lseq ≠ (portOf s.eng p).rxSeq) :
    ∃ t, exec (.dataFlitReceive p f lane) s = .next t ∧
      portOf t.eng p = (if (portOf s.eng p).skipping then portOf s.eng p else
        { portOf s.eng p with skipping := true, uns := ((portOf s.eng p).uns.filter fun g => msgOp g != opNak) ++
          [seqFlit opNak (portOf s.eng p).version (portOf s.eng p).rxSeq] }) ∧
      (crcGood f = false → ctrVal t.eng (.crcErrors p) = min 4095 (ctrVal s.eng (.crcErrors p) + 1)) ∧
      (crcGood f = true → t.eng.ctr = s.eng.ctr) ∧ t.mem = s.mem ∧ t.posted = s.posted := by
  have hon := linkOn_of_linkRuns hruns
  rw [← nakOnce_eq]
  cases hcrc : crcGood f with
  | false =>
    have heng : dataReceive s.eng p f lane = badFlit s.eng p := by
      dsimp only [dataReceive]
      rw [hcrc, if_neg Bool.false_ne_true, stompSum_of_nil hnil, ite_self, rxSequenced_bad hon hstate hcrc]
    refine ⟨_, exec_of_crossing hruns (.dataFlitReceive p f lane) (dataReceive · p f lane) heng, ?_,
      fun _ => (ctrVal_bump_one ..).trans (if_pos rfl), fun h => absurd h Bool.false_ne_true, rfl, rfl⟩
    rw [withEng_eng, badFlit, portOf_onPort_self _ (port_lt (by simpa using hlen) p), portOf_bump]
  | true =>
    obtain ⟨hkind, hseq⟩ := hbad.resolve_left (by simp [hcrc])
    have heng : dataReceive s.eng p f lane = onPort s.eng p nakOnce := by
      dsimp only [dataReceive]
      rw [hcrc, if_pos rfl, if_neg (by omega), rxSequenced_late hon hstate hcrc hseq]
      rfl
    exact ⟨_, exec_of_crossing hruns (.dataFlitReceive p f lane) (dataReceive · p f lane) heng, portOf_onPort_self _ (port_lt hlen p),
      fun h => absurd h.symm Bool.false_ne_true, fun _ => rfl, rfl, rfl⟩

/-- A data flit in turn is taken, and one for no bucket is stale (R374, R387). -/
theorem exec_dataFlitReceive_stale (f : Flit) (lane : Bool) (hcrc : crcGood f = true) (hkind : flitKind f < 2)
    (hseq : f.lseq = (portOf s.eng p).rxSeq) :
    ∃ t, exec (.dataFlitReceive p f lane) s = .next t ∧ (portOf t.eng p).rxSeq = f.lseq + 1 ∧
      (portOf t.eng p).skipping = false ∧ (portOf t.eng p).grant0 = ((portOf s.eng p).grant0 + 1) % 2 ^ 16 ∧
      ctrVal t.eng .staleFlits = min (2 ^ 32 - 1) (ctrVal s.eng .staleFlits + 1) ∧
      ctrVal t.eng (.rxFlits p) = min (2 ^ 32 - 1) (ctrVal s.eng (.rxFlits p) + 1) ∧ t.mem = s.mem ∧ t.posted = s.posted := by
  have hnil' : (bump (bump (onPort s.eng p flitTaken) (.rxFlits p) 1) .staleFlits 1).lnk.buckets = [] := by simpa using hnil
  have heng : dataReceive s.eng p f lane = returnCredit (bump (bump (onPort s.eng p flitTaken) (.rxFlits p) 1) .staleFlits 1) p 0 := by
    dsimp only [dataReceive]
    rw [hcrc, if_pos rfl, if_neg (by omega), rxSequenced_inTurn (linkOn_of_linkRuns hruns) hstate hcrc (by omega) hseq]
    dsimp only
    rw [if_pos rfl, placeFlit_of_nil (by simpa using hnil) hkind]
    exact moveMulticasts_of_nil hnil'
  obtain ⟨hrx, hskip, hup, hgrant⟩ := flitTaken_keeps (portOf s.eng p)
  have hport : portOf (bump (bump (onPort s.eng p flitTaken) (.rxFlits p) 1) .staleFlits 1) p = flitTaken (portOf s.eng p) := by
    rw [portOf_bump, portOf_bump, portOf_onPort_self _ (port_lt hlen p)]
  have hgranted := portOf_returnCredit (port_lt (e := bump (bump (onPort s.eng p flitTaken) (.rxFlits p) 1) .staleFlits 1)
    (by simpa using hlen) p) (by rw [hport, hup]; exact hstate)
  rw [hport] at hgranted
  refine ⟨_, exec_of_crossing hruns (.dataFlitReceive p f lane) (dataReceive · p f lane) heng, ?_, ?_, ?_, ?_, ?_, rfl, rfl⟩
  · rw [withEng_eng, hgranted, hseq]; exact hrx
  · rw [withEng_eng, hgranted]; exact hskip
  · rw [withEng_eng, hgranted, ← hgrant]; rfl
  · refine (ctrVal_bump_one ..).trans ((if_pos rfl).trans ?_)
    rw [ctrVal_bump_ne _ _ (by simp)]
    rfl
  · exact (ctrVal_bump_ne _ _ (by simp)).trans ((ctrVal_bump_one ..).trans (if_pos rfl))

/-- CREDIT adds the partner's new credits (R376). -/
theorem exec_creditReceive_adds (f : Flit) (hcrc : crcGood f = true) (hkind : flitKind f = kControl) (hop : msgOp f = opCredit) :
    ∃ t, exec (.creditReceive p f) s = .next t ∧ OnlyPort s t p ∧
      (portOf t.eng p).credit0 = (portOf s.eng p).credit0 + (field f.payload 16 2 + 65536 - (portOf s.eng p).peer0) % 65536 ∧
      (portOf t.eng p).credit1 = (portOf s.eng p).credit1 + (field f.payload 18 2 + 65536 - (portOf s.eng p).peer1) % 65536 ∧
      (portOf t.eng p).peer0 = field f.payload 16 2 ∧ (portOf t.eng p).peer1 = field f.payload 18 2 := by
  have heng : creditTaken s.eng p f = creditReceive s.eng p f := moveMulticasts_of_nil (by
    rw [creditReceive, rxUnsequenced_eq (linkOn_of_linkRuns hruns) hstate hcrc hkind hop]; exact hnil)
  rw [creditReceive, rxUnsequenced_eq (linkOn_of_linkRuns hruns) hstate hcrc hkind hop] at heng
  obtain ⟨t, ht, honly, hport⟩ := next_onPort hlen (exec_of_crossing hruns (.creditReceive p f) (creditTaken · p f) heng)
  refine ⟨t, ht, honly, ?_⟩
  rw [hport]
  exact ⟨rfl, rfl, rfl, rfl⟩

/-- After the eighth try the port goes DOWN (R374). -/
theorem exec_resendTimeout_down {f : Flit} {l : List Flit} (hheld : (portOf s.eng p).held = f :: l)
    (htries : (portOf s.eng p).tries = some (f.lseq, 8)) :
    ∃ t, exec (.resendTimeout p) s = .next t ∧ OnlyPort s t p ∧ (portOf t.eng p).state = .down ∧ (portOf t.eng p).reason = 3 ∧
      (portOf t.eng p).held = [] := by
  have heng : resendTimeout s.eng p = resendOldest s.eng p := if_pos (by simp [hruns, hstate])
  rw [resendOldest_last hheld htries hnil] at heng
  obtain ⟨t, ht, honly, hport⟩ := next_onPort (i := .resendTimeout p) hlen (congrArg (fun e => Host.Outcome.next (withEng s e)) heng)
  refine ⟨t, ht, honly, ?_⟩
  rw [hport]
  exact ⟨rfl, rfl, rfl⟩

end NoBuckets

/-- ACK frees the flits up to the one it names (R374). -/
theorem exec_ackReceive_frees {f : Flit} {i : Nat} (hcrc : crcGood f = true) (hkind : flitKind f = kControl)
    (hi : indexOf? (fun (h : Flit) => h.lseq == msgLseq f) (portOf s.eng p).held = some i) (hop : msgOp f = opAck) :
    ∃ t, exec (.ackReceive p f) s = .next t ∧ OnlyPort s t p ∧ (portOf t.eng p).held = (portOf s.eng p).held.drop (i + 1) ∧
      (portOf t.eng p).uns = (portOf s.eng p).uns := by
  have heng := rxUnsequenced_eq (linkOn_of_linkRuns hruns) hstate hcrc hkind hop (act := fun q =>
    match indexOf? (fun (h : Flit) => h.lseq == msgLseq f) q.held with
    | some i => freeHeld (i + 1) q
    | none => q)
  obtain ⟨t, ht, honly, hport⟩ := next_onPort hlen (exec_of_crossing hruns (.ackReceive p f) (ackReceive · p f) heng)
  refine ⟨t, ht, honly, ?_⟩
  rw [hport, hi]
  exact held_freeHeld (i + 1) _

/-- NAK begins resending (R374). -/
theorem exec_nakReceive_resends {f : Flit} {i : Nat} (hcrc : crcGood f = true) (hkind : flitKind f = kControl)
    (hi : indexOf? (fun (h : Flit) => h.lseq == msgLseq f) (portOf s.eng p).held = some i) (hop : msgOp f = opNak)
    (htries : (portOf s.eng p).tries = none) :
    ∃ t, exec (.nakReceive p f) s = .next t ∧ OnlyPort s t p ∧ (portOf t.eng p).held = (portOf s.eng p).held.drop i ∧
      (portOf t.eng p).resend = some 0 := by
  obtain ⟨hheld, -⟩ := held_freeHeld i (portOf s.eng p)
  have hport := portOf_onPort_self (freeHeld i) (port_lt hlen p)
  have heng : nakReceive s.eng p f = resendOldest (onPort s.eng p (freeHeld i)) p := by
    dsimp only [nakReceive]
    rw [if_neg (by simp [linkOn_of_linkRuns hruns, hstate]), if_neg (by simp [hcrc]), if_neg (by simp [hkind, hop]), hi]
  rw [resendOldest_first (f := (portOf s.eng p).held[i]'(lt_of_indexOf? hi)) (l := (portOf s.eng p).held.drop (i + 1))
    (by rw [hport, hheld]; exact List.drop_eq_getElem_cons _) (by rw [hport]; exact tries_freeHeld i htries), onPort_onPort] at heng
  obtain ⟨t, ht, honly, hport⟩ := next_onPort hlen (exec_of_crossing hruns (.nakReceive p f) (nakReceive · p f) heng)
  refine ⟨t, ht, honly, ?_⟩
  rw [hport]
  exact ⟨hheld, rfl⟩

/-- FLIT_SEND gives the next control flit its LSEQ and CRC and holds it (R374). -/
theorem exec_flitSend_control {f : Flit} {l : List Flit} (huns : (portOf s.eng p).uns = []) (hresend : (portOf s.eng p).resend = none)
    (hroom : (portOf s.eng p).held.length < 256) (hctl : (portOf s.eng p).ctl = f :: l) :
    ∃ t g, exec (.flitSend p) s = .next t ∧ OnlyPort s t p ∧ (portOf t.eng p).tx = some g ∧ crcGood g = true ∧
      g.lseq = (portOf s.eng p).txSeq ∧ g.payload = f.payload ∧ (portOf t.eng p).held = (portOf s.eng p).held ++ [g] ∧
      (portOf t.eng p).txSeq = (portOf s.eng p).txSeq + 1 ∧ (portOf t.eng p).ctl = l := by
  have heng : flitSend s.eng p = onPort s.eng p fun q => { sendSequenced q f false with ctl := l } := by
    dsimp only [flitSend]
    rw [if_neg (by simp [hruns]), huns]
    dsimp only
    rw [if_neg (not_not_intro hstate), hresend]
    dsimp only
    rw [if_neg (show ¬ Config.resendWindow ≤ _ from Nat.not_le.2 hroom), hctl]
  obtain ⟨t, ht, honly, hport⟩ := next_onPort (i := .flitSend p) hlen (congrArg (fun e => Host.Outcome.next (withEng s e)) heng)
  refine ⟨t, sequenced (portOf s.eng p) f, ht, honly, ?_⟩
  rw [hport]
  exact ⟨rfl, crcGood_sealFlit _, rfl, rfl, rfl, rfl, rfl⟩

/-- The ACK timer sends the ACK that is due (R374). -/
theorem exec_ackTimer_due (hdue : (portOf s.eng p).unacked ≠ 0) :
    ∃ t, exec (.ackTimer p) s = .next t ∧ OnlyPort s t p ∧ (portOf t.eng p).unacked = 0 ∧
      seqFlit opAck (portOf s.eng p).version ((portOf s.eng p).rxSeq - 1) ∈ (portOf t.eng p).uns := by
  have heng : ackTimer s.eng p = onPort s.eng p pushAck := if_pos (by simp [hruns, hstate, hdue])
  obtain ⟨t, ht, honly, hport⟩ := next_onPort (i := .ackTimer p) hlen (congrArg (fun e => Host.Outcome.next (withEng s e)) heng)
  refine ⟨t, ht, honly, ?_⟩
  rw [hport]
  exact ⟨rfl, List.mem_append_right _ (List.mem_singleton_self _)⟩

/-- The resend timeout begins resending (R374). -/
theorem exec_resendTimeout_resends {f : Flit} {l : List Flit} (hheld : (portOf s.eng p).held = f :: l)
    (htries : (portOf s.eng p).tries = none) :
    ∃ t, exec (.resendTimeout p) s = .next t ∧ OnlyPort s t p ∧ (portOf t.eng p).resend = some 0 ∧
      (portOf t.eng p).tries = some (f.lseq, 1) ∧ (portOf t.eng p).held = f :: l := by
  have heng : resendTimeout s.eng p = resendOldest s.eng p := if_pos (by simp [hruns, hstate])
  rw [resendOldest_first hheld htries] at heng
  obtain ⟨t, ht, honly, hport⟩ := next_onPort (i := .resendTimeout p) hlen (congrArg (fun e => Host.Outcome.next (withEng s e)) heng)
  refine ⟨t, ht, honly, ?_⟩
  rw [hport]
  exact ⟨rfl, rfl, hheld⟩

end Up

/-! ### What arrives while the port's clock is stopped (R17) -/

section Stopped
variable {s : State} {p : PortId} (hstop : (islandOf s.eng (linkIsland p)).stopped = true) (hawake : awake s.eng = true)
  (hpad : s.eng.pwr.padHold = false)
include hstop hawake hpad

theorem exec_waits (i : Instr) (f : State → State) (hexec : exec i s = .next (crossing s (linkIsland p) i f)) :
    exec i s = .next { s with held := s.held ++ [i] } := by
  rw [hexec, crossing_stopped hstop hawake hpad]

theorem exec_message_waits {i : Instr} {f : Flit} (hi : i ∈ [Instr.ackReceive p f, .nakReceive p f, .creditReceive p f,
    .okReceive (.port p f), .failReceive (.port p f), .sealReceive (.port p f), .repeatReceive (.port p f), .abandonReceive (.port p f),
    .joinReceive (.port p f), .goReceive (.port p f)]) : exec i s = .next { s with held := s.held ++ [i] } := by
  simp only [List.mem_cons, List.not_mem_nil, or_false] at hi
  rcases hi with rfl | rfl | rfl | rfl | rfl | rfl | rfl | rfl | rfl | rfl <;> exact exec_waits hstop hawake hpad _ _ rfl

theorem exec_port_waits {i : Instr} (hi : i ∈ [Instr.readyReceive p, .laneLock p, .lockLoss p, .rxBeatDiscard p]) :
    exec i s = .next { s with held := s.held ++ [i] } := by
  simp only [List.mem_cons, List.not_mem_nil, or_false] at hi
  rcases hi with rfl | rfl | rfl | rfl <;> exact exec_waits hstop hawake hpad _ _ rfl

end Stopped

/-- Settles O39: a stopped clock by the crossing's rule, and each command of a port that is UP as one change of that port. -/
theorem flitsKeepSequence : Obligations.FlitsKeepSequence := by
  refine ⟨fun s p hstop hawake hpad i hi => ?_, fun s p hlen hruns hstate hnil => ⟨?_, ?_, ?_, ?_, ?_, ?_, ?_⟩⟩
  · rcases hi with ⟨f, hi⟩ | ⟨f, lane, rfl⟩ | ⟨f, rfl⟩ | ⟨c, rfl⟩ | ⟨v, f, rfl⟩ | hi
    · exact exec_message_waits hstop hawake hpad hi
    · exact exec_waits hstop hawake hpad _ _ rfl
    · exact exec_waits hstop hawake hpad _ _ rfl
    · exact exec_waits hstop hawake hpad _ _ rfl
    · exact exec_waits hstop hawake hpad _ _ rfl
    · exact exec_port_waits hstop hawake hpad hi
  · exact fun f lane hbad => exec_dataFlitReceive_refused hlen hruns hstate hnil f lane hbad
  · exact fun f lane hcrc hkind hseq => exec_dataFlitReceive_stale hlen hruns hstate hnil f lane hcrc hkind hseq
  · exact fun f i hcrc hkind hi => ⟨fun hop => exec_ackReceive_frees hlen hruns hstate hcrc hkind hi hop,
      fun hop htries => exec_nakReceive_resends hlen hruns hstate hcrc hkind hi hop htries⟩
  · exact fun f hcrc hkind hop => exec_creditReceive_adds hlen hruns hstate hnil f hcrc hkind hop
  · exact fun f l huns hresend hroom hctl => exec_flitSend_control hlen hruns hstate huns hresend hroom hctl
  · exact fun hdue => exec_ackTimer_due hlen hruns hstate hdue
  · exact fun f l hheld => ⟨fun htries => exec_resendTimeout_resends hlen hruns hstate hheld htries,
      fun htries => exec_resendTimeout_down hlen hruns hstate hnil hheld htries⟩

end Sys2Proof.Machine
end

section
/-! Proofs: OK, FAIL and JOIN at the leader (R389, R395, R396, R402). -/

namespace Sys2Proof.Machine

-- In turn, not side by side: each proof that waits for another holds a stack, which counts against the check's memory limit.
set_option Elab.async false

/-- A message is acted on where its crossing's clock runs (R17). -/
theorem exec_of_message {s : State} {m : MsgSrc} (hruns : (islandOf s.eng (msgIsland m)).stopped = false) (i : Instr) (f : Engine → Engine)
    {e : Engine} (heng : f s.eng = e) (hexec : exec i s = .next (crossing s (msgIsland m) i fun s => onEngine s f) := by rfl) :
    exec i s = .next (withEng s e) := by
  rw [hexec, crossing_runs hruns, ← heng]
  rfl

/-! ### A message down a group's tree -/

/-- The engine besides its ports. -/
def besidesPorts (e : Engine) : Engine := { e with lnk := { e.lnk with ports := [] } }

theorem besidesPorts_sendDown (e : Engine) (g : Group) (f : Flit) : besidesPorts (sendDown e g f) = besidesPorts e :=
  foldl_keeps besidesPorts (u := fun e p => pushCtl e { f with hopRank := BitVec.ofNat 8 (tree0 g).rank } p) (fun _ _ => rfl) _ e

/-- A message down the tree leaves what is not of the ports. -/
theorem sendDown_keeps {α : Type} (π : Engine → α) (e : Engine) (g : Group) (f : Flit)
    (hπ : ∀ e, π (besidesPorts e) = π e := by intro; rfl) : π (sendDown e g f) = π e :=
  (hπ _).symm.trans ((congrArg π (besidesPorts_sendDown e g f)).trans (hπ e))

theorem groupAt_multicast (e : Engine) (g : Group) (f : Flit) (id gen : Nat) : groupAt (multicast e g f) id gen = groupAt e id gen :=
  sendDown_keeps (groupAt · id gen) e g f

/-- The leader takes its own multicast too (R377). -/
theorem own_multicast (e : Engine) (g : Group) (f : Flit) : (multicast e g f).lnk.own = e.lnk.own ++ [f] :=
  congrArg (· ++ [f]) (sendDown_keeps (·.lnk.own) e g f)

/-! ### Messages that come to the leader -/

theorem id_of_groupFor {e : Engine} {id step : Nat} {g : Group} (h : groupFor e id step = some g) : g.id = id := by
  unfold groupFor at h
  split at h
  · exact (id_of_groupAt h).1
  · simpa using List.find?_some h

/-- A message from a child, or from this device, is acted on by the leader (R377). -/
theorem upward_of_root {e : Engine} {f : Flit} {o : Option PortId} {g : Group} {act : Engine → Group → Engine}
    (hroot : (tree0 g).parent = none) (hchild : ∀ p, o = some p → fromChild g p = true) : upward e f o (some g) act = act e g := by
  cases o with
  | none => rfl
  | some p =>
    dsimp only [upward]
    rw [if_pos (hchild p rfl), hroot]
    exact if_neg Bool.false_ne_true

/-! ### OK -/

/-- The SEQs of a step's attempt whose OK the leader holds (R389). -/
def okTags (g : Group) (step a : Nat) : List Nat := dedup ((g.oks.filter fun x => x.2.1 == step && x.2.2 == a).map Prod.fst)

/-- A group that has acted on a step's attempt (R389, R395). -/
def actedGroup (step a : Nat) (g : Group) : Group := { g with acted := g.acted ++ [(step, a)] }

/-- A step is sealed by no one who has no bucket of it. -/
theorem checkSeal_of_none {e : Engine} {id step : Nat}
    (h : (e.lnk.buckets.find? fun b => b.known && b.group == id && b.step == step) = none) : checkSeal e id step = e := by
  unfold checkSeal
  split
  · rfl
  · rw [h]

section Seal
variable {e : Engine} {g : Group} {step : Nat} {b : Bucket}
  (hbucket : (e.lnk.buckets.find? fun b => b.known && b.group == g.id && b.step == step) = some b)
  (hgroup : groupAt e g.id g.generation = some g) (hgen : b.generation = g.generation) (hroot : (tree0 g).parent = none)
  (hopen : stepSealed g step = false) (hacted : (step, stepAttempt g step) ∉ g.acted)
include hbucket hgroup hgen hroot hopen hacted

/-- The leader seals a step of which it holds every OK (R389). -/
theorem checkSeal_of_root : checkSeal e g.id step = if (okTags g step (stepAttempt g step)).length = b.stepBuckets
    then multicast (onGroup e g.id g.generation (actedGroup step (stepAttempt g step))) g (ctlFlit g opSeal 0 step (stepAttempt g step) 0 0)
    else e := by
  have hfor : groupFor e g.id step = some g := by
    dsimp only [groupFor]
    rw [hbucket]
    dsimp only
    rw [hgen, hgroup]
  unfold checkSeal
  rw [hfor]
  dsimp only
  rw [hbucket]
  dsimp only
  by_cases hall : (okTags g step (stepAttempt g step)).length = b.stepBuckets
  · rw [if_pos hall, if_neg]
    · rfl
    · rintro (h | h | h | h)
      · simp [hroot] at h
      · exact h hall
      · exact hacted h
      · simp [hopen] at h
  · rw [if_neg hall, if_pos (.inr (.inl hall))]

end Seal

/-- A group that keeps an OK (R389). -/
def okGroup (tag step a : Nat) (g : Group) : Group := { g with oks := g.oks ++ [(tag, step, a)] }

section Leader
variable {e : Engine} {f : Flit} {g : Group} (hattempt : msgAttempt f = stepAttempt g (msgStep f)) (hopen : stepSealed g (msgStep f) = false)
  (hacted : (msgStep f, msgAttempt f) ∉ g.acted)
include hattempt hopen hacted

/-- The leader has not acted on the attempt yet. -/
theorem leader_acts : ¬(msgAttempt f ≠ stepAttempt g (msgStep f) ∨ stepSealed g (msgStep f) = true ∨ (msgStep f, msgAttempt f) ∈ g.acted) := by
  rintro (h | h | h)
  · exact h hattempt
  · simp [hopen] at h
  · exact hacted h

variable (hgroup : groupAt e g.id g.generation = some g)
include hgroup

/-- An OK of the present attempt is kept, and the last one seals the step (R389). -/
theorem leaderOk_of_root (hroot : (tree0 g).parent = none) (hfor : msgGroup e f = some g) :
    ∃ g', groupAt (leaderOk f e g) g.id g.generation = some g' ∧
    g'.oks = g.oks ++ [(msgTag f, msgStep f, msgAttempt f)] ∧ g'.sealed = g.sealed ∧
    ∀ b, (e.lnk.buckets.find? fun b => b.known && b.group == g.id && b.step == msgStep f) = some b → b.generation = g.generation →
      (leaderOk f e g).lnk.own = e.lnk.own ++ (if (okTags g' (msgStep f) (msgAttempt f)).length = b.stepBuckets
        then [ctlFlit g opSeal 0 (msgStep f) (msgAttempt f) 0 0] else []) := by
  have hok : leaderOk f e g = checkSeal (onGroup e g.id g.generation (okGroup (msgTag f) (msgStep f) (msgAttempt f))) g.id (msgStep f) :=
    if_neg (leader_acts hattempt hopen hacted)
  have hkept := groupAt_onGroup (f := okGroup (msgTag f) (msgStep f) (msgAttempt f)) hgroup
  rw [hok]
  cases hbucket : e.lnk.buckets.find? fun b => b.known && b.group == g.id && b.step == msgStep f with
  | none =>
    rw [checkSeal_of_none (e := onGroup e g.id g.generation _) hbucket]
    exact ⟨_, hkept, rfl, rfl, fun b hb => nomatch hb⟩
  | some b =>
    have hgen : b.generation = g.generation := by
      unfold msgGroup groupFor at hfor
      rw [← id_of_groupFor hfor, hbucket] at hfor
      exact (id_of_groupAt hfor).2.symm
    have hseal := checkSeal_of_root (e := onGroup e g.id g.generation (okGroup (msgTag f) (msgStep f) (msgAttempt f)))
      (g := okGroup (msgTag f) (msgStep f) (msgAttempt f) g) hbucket hkept hgen hroot hopen (hattempt ▸ hacted)
    rw [show stepAttempt (okGroup _ _ _ g) _ = stepAttempt g (msgStep f) from rfl, ← hattempt] at hseal
    by_cases hall : (okTags (okGroup (msgTag f) (msgStep f) (msgAttempt f) g) (msgStep f) (msgAttempt f)).length = b.stepBuckets
    · rw [if_pos hall] at hseal
      refine ⟨actedGroup (msgStep f) (msgAttempt f) (okGroup (msgTag f) (msgStep f) (msgAttempt f) g), ?_, rfl, rfl, fun b' hb _ => ?_⟩
      · exact (congrArg (groupAt · g.id g.generation) hseal).trans ((groupAt_multicast ..).trans (groupAt_onGroup hkept))
      · obtain rfl := Option.some.inj hb
        exact (congrArg (fun e : Engine => e.lnk.own) hseal).trans ((own_multicast ..).trans (congrArg (e.lnk.own ++ ·) (if_pos hall).symm))
    · rw [if_neg hall] at hseal
      refine ⟨okGroup (msgTag f) (msgStep f) (msgAttempt f) g, (congrArg (groupAt · g.id g.generation) hseal).trans hkept, rfl, rfl,
        fun b' hb _ => ?_⟩
      obtain rfl := Option.some.inj hb
      rw [if_neg hall]
      exact (congrArg (fun e : Engine => e.lnk.own) hseal).trans (List.append_nil _).symm

/-- The first FAIL makes a REPEAT, or an ABANDON past the limit or after a member's stop (R395, R396). -/
theorem leaderFail_of_root : ∃ g', groupAt (leaderFail f e g) g.id g.generation = some g' ∧
    g'.acted = g.acted ++ [(msgStep f, msgAttempt f)] ∧ g'.attempt = g.attempt ∧ (leaderFail f e g).lnk.own = e.lnk.own ++
      [if msgReason f = 4 then ctlFlit g opAbandon 0 (msgStep f) (msgAttempt f) 4 0
       else if repeatLimit e < msgAttempt f + 1 then ctlFlit g opAbandon 0 (msgStep f) (msgAttempt f) (msgReason f) 0
       else ctlFlit g opRepeat 0 (msgStep f) (msgAttempt f + 1) 0 0] := by
  have hkept := groupAt_onGroup (f := actedGroup (msgStep f) (msgAttempt f)) hgroup
  have hfail : leaderFail f e g = multicast (onGroup e g.id g.generation (actedGroup (msgStep f) (msgAttempt f))) g
      (if msgReason f = 4 then ctlFlit g opAbandon 0 (msgStep f) (msgAttempt f) 4 0
       else if repeatLimit e < msgAttempt f + 1 then ctlFlit g opAbandon 0 (msgStep f) (msgAttempt f) (msgReason f) 0
       else ctlFlit g opRepeat 0 (msgStep f) (msgAttempt f + 1) 0 0) := by
    refine (if_neg (leader_acts hattempt hopen hacted)).trans ?_
    rw [apply_ite (multicast _ g), apply_ite (multicast _ g)]
    rfl
  rw [hfail]
  exact ⟨_, (groupAt_multicast ..).trans hkept, rfl, rfl, own_multicast ..⟩

end Leader

/-! ### JOIN -/

/-- A group that has counted a JOIN (R402). -/
def joinedGroup (g : Group) : Group := { g with joins := g.joins + 1 }

/-- The last JOIN makes GO, unless the time for it is over (R402). -/
theorem handleJoin_of_root {e : Engine} {g : Group} (hgroup : groupAt e g.id g.generation = some g) (hroot : (tree0 g).parent = none)
    (f : Flit) : groupAt (handleJoin e g f) g.id g.generation = some (joinedGroup g) ∧ (handleJoin e g f).lnk.own = e.lnk.own ++
      (if g.joins + 1 = g.members ∧ g.late = false then [ctlFlit g opGo 0 0 0 0 g.generation] else []) := by
  have hkept := groupAt_onGroup (f := joinedGroup) hgroup
  have hjoin : handleJoin e g f = if g.joins + 1 = g.members ∧ g.late = false
      then multicast (onGroup e g.id g.generation joinedGroup) g (ctlFlit g opGo 0 0 0 0 g.generation)
      else onGroup e g.id g.generation joinedGroup := by
    dsimp only [handleJoin]
    rw [hroot]
    simp only [Bool.not_eq_true']
    rfl
  rw [hjoin]
  split
  · exact ⟨(groupAt_multicast ..).trans hkept, own_multicast ..⟩
  · exact ⟨hkept, (List.append_nil _).symm⟩

/-- Settles O41: each message acted on by the leader, as what it leaves of the group and adds to this device's own messages. -/
theorem leaderDecidesStep : Obligations.LeaderDecidesStep := by
  intro s m e f o g hruns hgroup hroot hchild
  refine ⟨fun htake hfor hattempt hopen hacted => ?_, fun htake hfor hattempt hopen hacted => ?_, fun htake hid hgen => ?_⟩
  · have heng : okReceive s.eng m = leaderOk f e g := by
      unfold okReceive
      rw [htake]
      dsimp only
      rw [hfor]
      exact upward_of_root hroot hchild
    obtain ⟨g', hat, hoks, hsealed, hown⟩ := leaderOk_of_root hattempt hopen hacted hgroup hroot hfor
    exact ⟨_, g', exec_of_message hruns (.okReceive m) (okReceive · m) heng, hat, hoks, hsealed, hown, rfl, rfl⟩
  · have heng : failReceive s.eng m = leaderFail f e g := by
      unfold failReceive
      rw [htake]
      dsimp only
      rw [hfor]
      exact upward_of_root hroot hchild
    obtain ⟨g', hat, hacted', hattempt', hown⟩ := leaderFail_of_root hattempt hopen hacted hgroup
    exact ⟨_, g', exec_of_message hruns (.failReceive m) (failReceive · m) heng, hat, hacted', hattempt', hown, rfl, rfl⟩
  · have heng : joinReceive s.eng m = handleJoin e g f := by
      unfold joinReceive
      rw [htake]
      dsimp only
      rw [hid, hgen, hgroup]
      cases o with
      | none => rfl
      | some p => exact if_pos (hchild p rfl)
    obtain ⟨hat, hown⟩ := handleJoin_of_root hgroup hroot f
    exact ⟨_, _, exec_of_message hruns (.joinReceive m) (joinReceive · m) heng, hat, rfl, rfl, hown, rfl, rfl⟩

end Sys2Proof.Machine
end

section
/-! Proofs: SEAL, REPEAT, ABANDON and GO at a member (R377, R389, R395, R398, R402). -/

namespace Sys2Proof.Machine

-- In turn, not side by side: each proof that waits for another holds a stack, which counts against the check's memory limit.
set_option Elab.async false

/-! ### Messages that come from the leader -/

/-- The engine once a message of the parent has gone on to every child (R377). -/
def passedDown (e : Engine) (g : Group) (f : Flit) (o : Option PortId) : Engine := if o.isSome then sendDown e g f else e

theorem passedDown_keeps {α : Type} (π : Engine → α) (e : Engine) (g : Group) (f : Flit) (o : Option PortId)
    (hπ : ∀ e, π (besidesPorts e) = π e := by intro; rfl) : π (passedDown e g f o) = π e := by
  unfold passedDown
  split
  · exact sendDown_keeps π e g f hπ
  · rfl

/-- A message from the parent, or from this device, is acted on (R377). -/
theorem downward_of_parent {e : Engine} {f : Flit} {o : Option PortId} {g : Group} {act : Engine → Group → Engine}
    (hparent : ∀ p, o = some p → fromParent g p = true) : downward e f o (some g) act = act (passedDown e g f o) g := by
  cases o with
  | none => rfl
  | some p => exact if_pos (hparent p rfl)

/-- A message stays in the queue of a port, and it enters the queue of every port in the list. -/
theorem mem_ctl_foldl (f : Flit) {l : List PortId} {e : Engine} {p : PortId} (hlen : e.lnk.ports.length = 18)
    (h : p ∈ l ∨ f ∈ (portOf e p).ctl) : f ∈ (portOf (l.foldl (fun e p => pushCtl e f p) e) p).ctl := by
  induction l generalizing e with
  | nil => exact h.resolve_left List.not_mem_nil
  | cons q l ih =>
    refine ih ((onPort_ports_length ..).trans hlen) ?_
    by_cases hq : p = q
    · subst hq
      exact .inr ((portOf_onPort_self _ (port_lt hlen p)).symm ▸ List.mem_append_right _ (List.mem_singleton_self f))
    · exact h.imp (fun hp => (List.mem_cons.1 hp).resolve_left hq) fun hp => (portOf_onPort_ne _ hq).symm ▸ hp

/-- A message down the tree enters the queue of every port it is for (R377). -/
theorem mem_ctl_sendDown {e : Engine} (hlen : e.lnk.ports.length = 18) (g : Group) (f : Flit) {c : PortId × Nat}
    (hc : c ∈ (tree0 g).children) : { f with hopRank := BitVec.ofNat 8 (tree0 g).rank } ∈ (portOf (sendDown e g f) c.1).ctl :=
  mem_ctl_foldl _ hlen (.inl (List.mem_map_of_mem hc))

/-! ### SEAL -/

/-- A bucket that is DONE (R389). -/
def doneBucket (b : Bucket) : Bucket := { b with state := .done }

theorem lnk_bucketDone (e : Engine) (b : Bucket) : (bucketDone e b).lnk = (onBucket e b.order doneBucket).lnk := by
  unfold bucketDone
  dsimp only [endTask]
  rw [if_neg (by decide)]
  split <;> rfl

/-- The buckets hold one of an order that is DONE. -/
def HasDone (e : Engine) (o : Nat) : Prop := ∃ b ∈ e.lnk.buckets, b.order = o ∧ b.state = .done

/-- The buckets hold one of an order. -/
def HasOrder (e : Engine) (o : Nat) : Prop := ∃ b ∈ e.lnk.buckets, b.order = o

theorem hasDone_bucketDone_self {e : Engine} {b : Bucket} (h : HasOrder e b.order) : HasDone (bucketDone e b) b.order := by
  obtain ⟨x, hx, ho⟩ := h
  obtain ⟨y, -, hy, hmem⟩ := exists_mem_updFirst (p := fun x : Bucket => x.order == b.order) doneBucket hx (by simpa using ho)
  exact ⟨doneBucket y, by rw [lnk_bucketDone]; exact hmem, beq_iff_eq.1 hy, rfl⟩

theorem hasDone_bucketDone {e : Engine} {b : Bucket} {o : Nat} (h : HasDone e o) : HasDone (bucketDone e b) o := by
  by_cases hb : b.order = o
  · exact hb ▸ hasDone_bucketDone_self (h.imp fun x hx => ⟨hx.1, hx.2.1.trans hb.symm⟩)
  · obtain ⟨x, hx, ho, hstate⟩ := h
    exact ⟨x, by rw [lnk_bucketDone]; exact mem_updFirst_of_not _ hx (by simpa [ho] using Ne.symm hb), ho, hstate⟩

theorem hasOrder_bucketDone {e : Engine} {b : Bucket} {o : Nat} (h : HasOrder e o) : HasOrder (bucketDone e b) o := by
  by_cases hb : b.order = o
  · obtain ⟨x, hx, ho, -⟩ := hb ▸ hasDone_bucketDone_self (hb.symm ▸ h)
    exact ⟨x, hx, ho⟩
  · obtain ⟨x, hx, ho⟩ := h
    exact ⟨x, by rw [lnk_bucketDone]; exact mem_updFirst_of_not _ hx (by simpa [ho] using Ne.symm hb), ho⟩

/-- Every bucket of a list is DONE after the list's turn. -/
theorem hasDone_foldl {l : List Bucket} {e : Engine} {o : Nat} (hin : HasOrder e o) (h : HasDone e o ∨ ∃ b ∈ l, b.order = o) :
    HasDone (l.foldl bucketDone e) o := by
  induction l generalizing e with
  | nil => exact h.resolve_right fun ⟨b, hb, _⟩ => absurd hb List.not_mem_nil
  | cons b l ih =>
    refine ih (hasOrder_bucketDone hin) ?_
    rcases h with h | ⟨x, hx, ho⟩
    · exact .inl (hasDone_bucketDone h)
    · rcases List.mem_cons.1 hx with rfl | hx
      · exact .inl (ho ▸ hasDone_bucketDone_self (ho.symm ▸ hin))
      · exact .inr ⟨x, hx, ho⟩

/-- A bucket that is not in the list stays as it is. -/
theorem mem_foldl_bucketDone {l : List Bucket} {e : Engine} {b : Bucket} (hb : b ∈ e.lnk.buckets) (hl : ∀ x ∈ l, x.order ≠ b.order) :
    b ∈ (l.foldl bucketDone e).lnk.buckets := by
  induction l generalizing e with
  | nil => exact hb
  | cons x l ih =>
    refine ih ?_ fun y hy => hl y (List.mem_cons_of_mem _ hy)
    rw [lnk_bucketDone]
    exact mem_updFirst_of_not _ hb (by simpa using (hl x (List.mem_cons_self ..)).symm)

/-- A group that has sealed a step (R389). -/
def sealedGroup (step : Nat) (g : Group) : Group := { g with sealed := some step }

/-- The buckets that SEAL ends (R389). -/
def landedOf (g : Group) (step : Nat) (b : Bucket) : Bool := b.group == g.id && b.step == step && b.known && b.state == .landed

theorem sealStep_eq {f : Flit} {e : Engine} {g : Group} (hattempt : msgAttempt f = stepAttempt g (msgStep f))
    (hopen : stepSealed g (msgStep f) = false) : sealStep f e g =
      (e.lnk.buckets.filter (landedOf g (msgStep f))).foldl bucketDone (onGroup e g.id g.generation (sealedGroup (msgStep f))) := by
  refine if_neg ?_
  rintro (h | h)
  · exact h hattempt
  · simp [hopen] at h

section Sealed
variable {f : Flit} {e : Engine} {g : Group} (hattempt : msgAttempt f = stepAttempt g (msgStep f)) (hopen : stepSealed g (msgStep f) = false)
include hattempt hopen

theorem groupAt_sealStep (hgroup : groupAt e g.id g.generation = some g) :
    groupAt (sealStep f e g) g.id g.generation = some (sealedGroup (msgStep f) g) := by
  rw [sealStep_eq hattempt hopen]
  refine Eq.trans (groupAt_congr (foldl_keeps (fun e : Engine => e.lnk.groups) (fun x b => ?_) _ _) _ _) (groupAt_onGroup hgroup)
  exact (congrArg Links.groups (lnk_bucketDone x b)).trans rfl

/-- SEAL ends every LANDED bucket of the step (R389). -/
theorem hasDone_sealStep {b : Bucket} (hb : b ∈ e.lnk.buckets) (hlanded : landedOf g (msgStep f) b = true) :
    HasDone (sealStep f e g) b.order := by
  rw [sealStep_eq hattempt hopen]
  exact hasDone_foldl ⟨b, hb, rfl⟩ (.inr ⟨b, List.mem_filter.2 ⟨hb, hlanded⟩, rfl⟩)

/-- SEAL leaves the buckets of other steps (R389). -/
theorem mem_sealStep_of_ne (hnodup : (e.lnk.buckets.map Bucket.order).Nodup) {b : Bucket} (hb : b ∈ e.lnk.buckets)
    (hstep : b.step ≠ msgStep f) : b ∈ (sealStep f e g).lnk.buckets := by
  rw [sealStep_eq hattempt hopen]
  refine mem_foldl_bucketDone hb fun x hx ho => hstep ?_
  obtain ⟨hx, hlanded⟩ := List.mem_filter.1 hx
  simp only [landedOf, Bool.and_eq_true, beq_iff_eq] at hlanded
  rw [← List.inj_on_of_nodup_map hnodup hx hb ho]
  exact hlanded.1.1.2

end Sealed

/-! ### REPEAT -/

/-- The buckets, the groups and the counter of the repeats. -/
def links (e : Engine) : List Bucket × List Group × Nat := (e.lnk.buckets, e.lnk.groups, ctrVal e .repeats)

theorem links_stale (e : Engine) : links (bump e .staleFlits 1) = links e := by
  unfold links
  rw [bump_lnk, ctrVal_bump_ne _ _ (by simp)]

theorem links_logEvent (e : Engine) (i t n : Nat) (bs : List Byte) : links (logEvent e i t n bs) = links e := by
  unfold links ctrVal
  rw [logEvent_lnk, logEvent_ctr]

theorem links_freeOut (e : Engine) (b : Bucket) : links (freeOut e b) = links e := by
  refine foldl_keeps links (fun x y => ?_) _ e
  cases y.1 with
  | none => rfl
  | some p => rfl

theorem links_dropWaiting (e : Engine) (gone : Flit → Bool) : links (dropWaiting e gone) = links e := by
  refine foldl_keeps links (fun x p => ?_) _ e
  refine (foldl_keeps links (fun y f => ?_) _ _).trans rfl
  exact (show links (returnCredit (bump y .staleFlits 1) p _) = links (bump y .staleFlits 1) from rfl).trans (links_stale y)

theorem links_purgeFlits (e : Engine) (s : Nat) : links (purgeFlits e s) = links e := (links_dropWaiting ..).trans rfl


theorem links_clearRegion (e : Engine) (r : Region) : links (clearRegion e r) = links e := by
  unfold clearRegion
  split
  · rw [zeroSpilled, sendClear_frame]
    rfl
  · rfl

theorem links_repeatClear (e : Engine) (s : Nat) : links (repeatClear e s) = links e := by
  unfold repeatClear
  split
  · rfl
  · refine foldl_keeps links (fun x r => ?_) _ e
    split
    · rfl
    · split
      · exact links_clearRegion ..
      · rfl

theorem links_countCompleted (e : Engine) : links (countCompleted e) = links e := by unfold countCompleted; split <;> rfl

/-- What the rest of the engine undoes of a step leaves the buckets and the groups (R395). -/
theorem links_stepRepeat (e : Engine) (s : Nat) : links (stepRepeat e s) = links e := by
  cases hrun : e.sch.run with
  | none => rw [stepRepeat, hrun]
  | some g =>
    rw [stepRepeat, hrun]
    dsimp only
    rw [links_countCompleted]
    refine Eq.trans (links_repeatClear ..) ?_
    have hdrop (l : List Nat) : links (l.foldl dropTask e) = links e := foldl_keeps links (u := dropTask) (fun _ _ => rfl) l e
    have hlight (c : Prop) [Decidable c] (e : Engine) (f : ReadFor → Bool) : links (if c then forgetReads e f else e) = links e := by
      split <;> rfl
    exact (hlight _ (mapCombs _ _) _).trans (hdrop _)

/-- A bucket of a step that is repeated goes back to WAITING under its new attempt (R395). -/
def laterBucket (e : Engine) (s : Nat) (b : Bucket) : Bucket :=
  if s ≤ b.step ∧ (b.dispatched ∨ b.state = .waiting) then { resetBucket b with attempt := waitAttempt e b } else b
theorem laterBucket_waits (e : Engine) {s : Nat} {b : Bucket} (h : s ≤ (laterBucket e s b).step) :
    (laterBucket e s b).dispatched = false ∨ (laterBucket e s b).state = .waiting := by
  unfold laterBucket at h ⊢
  split at h
  next hlater => rw [if_pos hlater]; exact .inl rfl
  next hlater =>
    rw [if_neg hlater]
    exact .inl (Bool.eq_false_iff.2 fun hd => hlater ⟨h, .inl hd⟩)

theorem laterBucket_of_lt (e : Engine) {s : Nat} {b : Bucket} (h : b.step < s) : laterBucket e s b = b := if_neg fun hb => by omega

/-- The repeat counted and recorded (R395). -/
def noteRepeat (e : Engine) (s a : Nat) : Engine := logEvent (bump e .repeats 1) 50 0x000B 0 (leBytes 4 s ++ [BitVec.ofNat 8 a])
/-- The multicasts of a step that is repeated give their credits back (R395). -/
def freeLater (e : Engine) (s : Nat) : Engine :=
  e.lnk.buckets.foldl (fun e b => if s ≤ b.step ∧ b.dispatched then freeOut e b else e) e
/-- Every group with its attempts after a REPEAT (R395). -/
def withAttempts (e : Engine) (g : Group) (s a : Nat) : Engine :=
  { e with lnk := { e.lnk with groups := e.lnk.groups.map fun x => nextAttempts e g x s a } }
/-- Every bucket after a REPEAT (R395). -/
def withLater (e : Engine) (s : Nat) : Engine := { e with lnk := { e.lnk with buckets := e.lnk.buckets.map (laterBucket e s) } }

theorem links_freeLater (e : Engine) (s : Nat) : links (freeLater e s) = links e := by
  refine foldl_keeps links (fun x b => ?_) _ e
  split
  · exact links_freeOut ..
  · rfl

theorem nextAttempts_keeps (e : Engine) (g x : Group) (s a : Nat) :
    (nextAttempts e g x s a).id = x.id ∧ (nextAttempts e g x s a).generation = x.generation := by
  dsimp only [nextAttempts]
  split
  · exact ⟨rfl, rfl⟩
  · exact ⟨rfl, rfl⟩

/-- The repeated step has the attempt that REPEAT names (R395). -/
theorem stepAttempt_nextAttempts (e : Engine) (g : Group) (s a : Nat) : stepAttempt (nextAttempts e g g s a) s = a := by
  dsimp only [nextAttempts]
  rw [if_pos ⟨rfl, rfl⟩]
  exact lookupD_assign_self ..

theorem groupAt_withAttempts {e : Engine} {g : Group} (hgroup : groupAt e g.id g.generation = some g) (s a : Nat) :
    groupAt (withAttempts e g s a) g.id g.generation = some (nextAttempts e g g s a) := by
  have hsame : ((fun x : Group => x.id == g.id && x.generation == g.generation) ∘ fun x => nextAttempts e g x s a) =
      fun x => x.id == g.id && x.generation == g.generation := funext fun x => by
    obtain ⟨hid, hgen⟩ := nextAttempts_keeps e g x s a
    simp only [Function.comp_apply, hid, hgen]
  refine (List.find?_map ..).trans ?_
  rw [hsame]
  exact congrArg (Option.map _) hgroup

section Repeat
variable {f : Flit} {e : Engine} {g : Group} {r : Graph} (hrun : e.sch.run = some r) (hgoing : r.stop = none)
  (hattempt : stepAttempt g (msgStep f) < msgAttempt f) (hopen : stepSealed g (msgStep f) = false)
include hrun hgoing hattempt hopen

theorem links_repeatStep : links (repeatStep f e g) = links (withLater (withAttempts (freeLater (noteRepeat e (msgStep f) (msgAttempt f))
    (msgStep f)) g (msgStep f) (msgAttempt f)) (msgStep f)) := by
  refine Eq.trans (congrArg links (if_neg ?_)) ((links_stepRepeat ..).trans (links_purgeFlits ..))
  rw [hrun]
  simp only [hgoing, hopen, Option.isSome_none, Bool.false_eq_true, or_false, Nat.not_le]
  exact hattempt

/-- The group has the attempt that REPEAT names (R395). -/
theorem exists_groupAt_repeatStep (hgroup : groupAt e g.id g.generation = some g) :
    ∃ g', groupAt (repeatStep f e g) g.id g.generation = some g' ∧ stepAttempt g' (msgStep f) = msgAttempt f := by
  have hlinks := links_repeatStep hrun hgoing hattempt hopen
  have hfreed : groupAt (freeLater (noteRepeat e (msgStep f) (msgAttempt f)) (msgStep f)) g.id g.generation = some g := by
    refine (groupAt_congr (congrArg (·.2.1) (links_freeLater ..)) ..).trans ((groupAt_congr ?_ ..).trans hgroup)
    rw [noteRepeat, logEvent_lnk, bump_lnk]
  exact ⟨_, (groupAt_congr (congrArg (·.2.1) hlinks) ..).trans (groupAt_withAttempts hfreed ..), stepAttempt_nextAttempts ..⟩

/-- REPEAT counts in REPEATS (R395). -/
theorem ctrVal_repeatStep : ctrVal (repeatStep f e g) .repeats = min 65535 (ctrVal e .repeats + 1) := by
  refine (congrArg (·.2.2) (links_repeatStep hrun hgoing hattempt hopen)).trans ?_
  refine (congrArg (·.2.2) (links_freeLater (noteRepeat e (msgStep f) (msgAttempt f)) (msgStep f))).trans ?_
  exact (congrArg (·.2.2) (links_logEvent ..)).trans ((ctrVal_bump_one ..).trans (if_pos rfl))

/-- The buckets after a REPEAT are the ones before, each put back where it is of the step or a later one (R395). -/
theorem exists_buckets_repeatStep : ∃ x, (repeatStep f e g).lnk.buckets = e.lnk.buckets.map (laterBucket x (msgStep f)) := by
  refine ⟨withAttempts (freeLater (noteRepeat e (msgStep f) (msgAttempt f)) (msgStep f)) g (msgStep f) (msgAttempt f), ?_⟩
  refine (congrArg (·.1) (links_repeatStep hrun hgoing hattempt hopen)).trans (congrArg (List.map _) ?_)
  refine (congrArg (·.1) (links_freeLater (noteRepeat e (msgStep f) (msgAttempt f)) (msgStep f))).trans ?_
  refine (congrArg (·.1) (links_logEvent ..)).trans ?_
  exact congrArg Links.buckets (bump_lnk ..)

end Repeat

/-! ### ABANDON and GO -/

/-- ABANDON of a step that is not sealed stops the graph (R398). -/
theorem abandonStep_eq {f : Flit} {e : Engine} {g : Group} {r : Graph} (hrun : e.sch.run = some r) (hgoing : r.stop = none)
    (hopen : stepSealed g (msgStep f) = false) : abandonStep f e g = { e with
      lnk := { e.lnk with abandoned := insertNat g.id e.lnk.abandoned }
      sch := { e.sch with run := some { r with
        stop := some (if msgReason f = 4 then 12 else 11), stopUnit := 0xF2, stopTask := 0x1FFFFF } } } := by
  refine (if_neg ?_).trans ?_
  · simp [hopen, hrun]
  · exact (askStop_spec _ _ _ _).1 r hrun hgoing

/-- A group whose generation may be activated (R402). -/
def goneGroup (g : Group) : Group := { g with go := true }

/-- Settles O42: each message acted on by a member, on the engine that has passed it down where it came from the parent. -/
theorem memberFollowsLeader : Obligations.MemberFollowsLeader := by
  intro s m e f o g r hruns hgroup hrun hgoing hparent
  have hgroup' : groupAt (passedDown e g f o) g.id g.generation = some g := (passedDown_keeps (groupAt · g.id g.generation) ..).trans hgroup
  have hrun' : (passedDown e g f o).sch.run = some r := (passedDown_keeps (·.sch.run) ..).trans hrun
  have hbuckets : (passedDown e g f o).lnk.buckets = e.lnk.buckets := passedDown_keeps (·.lnk.buckets) ..
  refine ⟨fun htake hfor hattempt hopen hnodup => ?_, fun htake hfor hattempt hopen => ?_, fun htake hfor hopen => ?_,
    fun htake hid hgen => ?_⟩
  · have heng : sealReceive s.eng m = sealStep f (passedDown e g f o) g := by
      unfold sealReceive
      rw [htake]
      dsimp only
      rw [hfor]
      exact downward_of_parent hparent
    refine ⟨_, _, exec_of_message hruns (.sealReceive m) (sealReceive · m) heng, groupAt_sealStep hattempt hopen hgroup', rfl,
      fun b hb hid hstep hknown hlanded => ?_, fun b hb hstep => ?_, rfl, rfl⟩
    · exact hasDone_sealStep hattempt hopen (hbuckets ▸ hb) (by simp [landedOf, hid, hstep, hknown, hlanded])
    · exact mem_sealStep_of_ne hattempt hopen (hbuckets ▸ hnodup) (hbuckets ▸ hb) hstep
  · have heng : repeatReceive s.eng m = repeatStep f (passedDown e g f o) g := by
      unfold repeatReceive
      rw [htake]
      dsimp only
      rw [hfor]
      exact downward_of_parent hparent
    obtain ⟨g', hat, hnew⟩ := exists_groupAt_repeatStep hrun' hgoing hattempt hopen hgroup'
    obtain ⟨x, hmap⟩ := exists_buckets_repeatStep hrun' hgoing hattempt hopen
    rw [hbuckets] at hmap
    have hcount := (ctrVal_repeatStep hrun' hgoing hattempt hopen).trans
      (congrArg (fun n => min 65535 (n + 1)) (passedDown_keeps (ctrVal · .repeats) e g f o))
    refine ⟨_, g', exec_of_message hruns (.repeatReceive m) (repeatReceive · m) heng, hat, hnew, hcount, fun b hb hstep => ?_,
      fun b hb hstep => ?_, rfl, rfl⟩
    · obtain ⟨b', -, rfl⟩ := List.mem_map.1 (hmap ▸ hb)
      exact laterBucket_waits x hstep
    · exact hmap ▸ List.mem_map.2 ⟨b, hb, laterBucket_of_lt x hstep⟩
  · have heng : abandonReceive s.eng m = abandonStep f (passedDown e g f o) g := by
      unfold abandonReceive
      rw [htake]
      dsimp only
      rw [hfor]
      exact downward_of_parent hparent
    rw [abandonStep_eq hrun' hgoing hopen] at heng
    exact ⟨_, exec_of_message hruns (.abandonReceive m) (abandonReceive · m) heng,
      congrArg (insertNat g.id) (passedDown_keeps (·.lnk.abandoned) e g f o), rfl, hbuckets, rfl, rfl⟩
  · have heng : goReceive s.eng m = onGroup (passedDown e g f o) g.id g.generation goneGroup := by
      unfold goReceive
      rw [htake]
      dsimp only
      rw [hid, hgen, hgroup]
      exact downward_of_parent (act := fun e g => onGroup e g.id g.generation goneGroup) hparent
    refine ⟨_, exec_of_message hruns (.goReceive m) (goReceive · m) heng, groupAt_onGroup hgroup', hbuckets,
      passedDown_keeps (·.sch) e g f o, ?_, rfl, rfl⟩
    rintro p rfl hlen c hc
    exact mem_ctl_sendDown hlen g f hc

end Sys2Proof.Machine
end

section
/-! Proofs: words read back after they are sent, and the marks of the lines sent. -/

namespace Sys2Proof.Machine

-- In turn, not side by side: each proof that waits for another holds a stack, which counts against the check's memory limit.
set_option Elab.async false

/-- An entry of a list of parts of one length, laid out one after the other. -/
theorem getElem?_flatMap_of_length {α β : Type} {n : Nat} {f : α → List β} (hf : ∀ a, (f a).length = n) {l : List α} {i j : Nat} (hi : i < n) :
    (l.flatMap f)[n * j + i]? = l[j]?.bind fun a => (f a)[i]? := by
  induction l generalizing j with
  | nil => simp
  | cons a l ih =>
    rw [List.flatMap_cons]
    cases j with
    | zero => rw [List.getElem?_append_left (by rw [hf]; omega)]; simp
    | succ j =>
      have hstep : n * (j + 1) + i = n + (n * j + i) := by rw [Nat.mul_succ]; omega
      rw [hstep, List.getElem?_append_right (by rw [hf]; omega), hf, Nat.add_sub_cancel_left, ih, List.getElem?_cons_succ]

/-- 32-bit words as the bytes they are stored as. -/
def wordBytes (ws : List Word) : List Byte := ws.flatMap fun w => leBytes 4 w.toNat

theorem length_wordBytes (ws : List Word) : (wordBytes ws).length = 4 * ws.length := by
  rw [wordBytes, List.length_flatMap, List.map_congr_left fun w _ => leBytes_length 4 w.toNat, List.map_const', List.sum_replicate]
  simp [Nat.mul_comm]

section Sent
variable {e : Engine} {who : Writer} {a : Nat} (m : Mem) (hlost : writesLost e who = false)
include hlost

/-- A word that has been sent reads as it was sent. -/
theorem viewNat_sendWords {ws : List Word} (p : Nat → Bool) (hend : a + 4 * ws.length ≤ 2 ^ 52) {j : Nat} (hj : j < ws.length) :
    viewNat m (sendBytes e who a (wordBytes ws) p) (a + 4 * j) 4 = (elemD ws j 0).toNat := by
  have hlen := length_wordBytes ws
  have hword : viewBytes m (sendBytes e who a (wordBytes ws) p) (a + 4 * j) 4 = leBytes 4 (elemD ws j 0).toNat := by
    rw [viewBytes_eq_map]
    refine List.ext_getElem (by simp [leBytes_length]) fun i hi _ => ?_
    have hi4 : i < 4 := by simpa using hi
    rw [List.getElem_map, List.getElem_range, viewByte_sendBytes m hlost p (by omega) (by omega), if_pos (by omega),
      show a + 4 * j + i - a = 4 * j + i by omega, wordBytes, getElem?_flatMap_of_length (fun w => leBytes_length 4 _) hi4, elemD,
      List.getElem?_eq_getElem hj]
    simp [leBytes_length, hi4]
  rw [viewNat, hword, leNat_leBytes]
  exact Nat.mod_eq_of_lt (by have := (elemD ws j 0).isLt; omega)

/-- What lies beside the words sent reads as before. -/
theorem viewNat_sendWords_outside {ws : List Word} (p : Nat → Bool) (hend : a + 4 * ws.length ≤ 2 ^ 52) {x n : Nat} (hx : x + n ≤ 2 ^ 52)
    (hout : x + n ≤ a ∨ a + 4 * ws.length ≤ x) : viewNat m (sendBytes e who a (wordBytes ws) p) x n = viewNat m e x n := by
  have hlen := length_wordBytes ws
  exact viewNat_of_bytes m fun i hi => viewByte_sendBytes_outside m hlost p (by omega) (by omega) (by omega)

/-- A line that is marked stays marked, and every line sent with a mark is. -/
theorem viewPoison_sendLines {bytes : Nat → List (Nat × Byte)} {p : Nat → Bool} {c : Bool} (hp : ∀ l, p l = true) {ls : List Nat} {line : Nat}
    (h : line ∈ ls ∨ viewPoison m e line = true) :
    viewPoison m (ls.foldl (fun e l => sendLine e who l (bytes l) (p l) c) e) line = true := by
  induction ls generalizing e with
  | nil => exact h.resolve_left List.not_mem_nil
  | cons l ls ih =>
    refine ih (e := sendLine e who l (bytes l) (p l) c) hlost ?_
    rw [viewPoison_sendLine m hlost, hp]
    by_cases hl : l = line
    · exact .inr (by rw [if_pos hl, Bool.or_true, ite_self])
    · rw [if_neg hl]
      exact h.imp_left fun hmem => (List.mem_cons.1 hmem).resolve_left (Ne.symm hl)

theorem viewPoison_sendBytes_marked {bs : List Byte} {p : Nat → Bool} (hp : ∀ l, p l = true) (hend : a + bs.length ≤ 2 ^ 52)
    (hne : 0 < bs.length) : viewPoison m (sendBytes e who a bs p) (lineOf a) = true := by
  refine viewPoison_sendLines m hlost hp (.inl ?_)
  rw [lineOf, Nat.mod_eq_of_lt (by omega)]
  exact mem_sentLines hend (Nat.le_refl a) (by omega)

end Sent

theorem perm_insertBy {α : Type} (lt : α → α → Bool) (a : α) (l : List α) : (insertBy lt a l).Perm (a :: l) := by
  induction l with
  | nil => exact .refl _
  | cons b l ih =>
    unfold insertBy
    split
    · exact .refl _
    · exact (ih.cons b).trans (.swap a b l)

/-- A list sorted is the list in another order. -/
theorem perm_sortBy {α : Type} (lt : α → α → Bool) (l : List α) : (sortBy lt l).Perm l := by
  induction l with
  | nil => exact .nil
  | cons a l ih => exact (perm_insertBy lt a _).trans (ih.cons a)

end Sys2Proof.Machine
end

section
/-! Proofs: a position's last operand, and a RESULT flit forwarded and written (R376, R378, R379, R388, R407). -/

namespace Sys2Proof.Machine

-- In turn, not side by side: each proof that waits for another holds a stack, which counts against the check's memory limit.
set_option Elab.async false

/-! ### What a bucket has waiting -/

/-- What each bucket has waiting for its multicast, and whether it is a broadcast. -/
def waitingOut (e : Engine) : List (List (Option PortId × Flit) × Bool) := e.lnk.buckets.map fun b => (b.out, b.broadcast)

/-- No RESULT flit waits, and no bucket is a broadcast. -/
def Idle (e : Engine) : Prop := ∀ b ∈ e.lnk.buckets, b.out = [] ∧ b.broadcast = false

theorem idle_iff {e : Engine} : Idle e ↔ ∀ x ∈ waitingOut e, x = ([], false) := by simp [Idle, waitingOut]

theorem idle_congr {e e' : Engine} (h : waitingOut e' = waitingOut e) (he : Idle e) : Idle e' := idle_iff.2 (h ▸ idle_iff.1 he)

theorem waitingOut_onBucket (e : Engine) (o : Nat) {f : Bucket → Bucket}
    (hf : ∀ b, (f b).out = b.out ∧ (f b).broadcast = b.broadcast := by intro; exact ⟨rfl, rfl⟩) : waitingOut (onBucket e o f) = waitingOut e :=
  map_updFirst_of_eq _ (fun b => Prod.ext (hf b).1 (hf b).2) _

theorem waitingOut_congr {e e' : Engine} (h : e'.lnk.buckets = e.lnk.buckets) : waitingOut e' = waitingOut e := by
  rw [waitingOut, waitingOut, h]

theorem target_congr {e e' : Engine} (h : e'.lnk.buckets = e.lnk.buckets) (f : Flit) : target e' f = target e f := by rw [target, target, h]

theorem state_of_target {e : Engine} {f : Flit} {b : Bucket} (h : target e f = some b) : b.state = .active := by
  have := List.find?_some h
  simp only [Bool.and_eq_true, beq_iff_eq] at this
  exact this.1.1.1.1

/-! ### The last operand of a position (R378, R379) -/

theorem inOrder_congr {e e' : Engine} (h : e'.sch = e.sch) (ops : List Operand) : inOrder e' ops = inOrder e ops := by rw [inOrder, inOrder, h]

theorem mem_inOrder {e : Engine} {ops : List Operand} {o : Operand} : o ∈ inOrder e ops ↔ o ∈ ops := by
  have hordered (c : Bool) : o ∈ (if c = true then ops else sortBy (fun (a b : Operand) => decide (a.rank < b.rank)) ops) ↔ o ∈ ops := by
    split
    · exact Iff.rfl
    · exact mem_sortBy
  exact hordered _

/-- A sum with a poisoned operand is poisoned (R379). -/
theorem poison_sumOps {ops : List Operand} {o : Operand} (ho : o ∈ ops) (hp : o.poison = true) : (sumOps ops).2 = true := by
  cases ops with
  | nil => exact absurd ho List.not_mem_nil
  | cons a l => exact Bool.or_eq_true_iff.2 (.inl (List.any_eq_true.2 ⟨o, ho, hp⟩))

theorem lnk_sumEvent (e : Engine) (island : Nat) (ops : List Operand) (poison : Bool) : (sumEvent e island ops poison).lnk = e.lnk := by
  unfold sumEvent
  split
  · exact poisonEvent_lnk ..
  · rfl

/-- The flit that a position's operands make for the parent (R378). -/
def sumFlit (off : Nat) (ops : List Operand) : UpFlit :=
  { offset := off, sign := false, payload := fullPayload (sumOps ops).1, poison := (sumOps ops).2 }

/-- A bucket with one more flit to send up, in the order of offsets. -/
def withUp (u : UpFlit) (b : Bucket) : Bucket := { b with up := insertBy (fun (x y : UpFlit) => decide (x.offset < y.offset)) u b.up }

theorem formPosition_of_parent {e : Engine} {b : Bucket} {u : PortId} {off : Nat} (hparent : b.parent = some u) (hnext : b.upNext ≤ off)
    (island : Nat) (ops : List Operand) : formPosition e b island off ops =
      onBucket (sumEvent e island (inOrder e ops) (sumOps (inOrder e ops)).2) b.order (withUp (sumFlit off (inOrder e ops))) := by
  dsimp only [formPosition]
  rw [hparent]
  dsimp only [formUp]
  rw [if_pos hnext]
  rfl

/-- A bucket whose position has been formed. -/
def formedAt (b : Bucket) (off : Nat) (x : Bucket) : Bucket := { x with sums := (b.sums.filter fun s => s.offset != off) ++ [⟨off, []⟩] }

/-- A position's last operand forms it (R378). -/
theorem takeOperand_last {e : Engine} {b : Bucket} {off : Nat} {o : Operand} (hat : bucketAt e b.order = some b) (hin : off < groupsIn b)
    (hrank : ∀ x ∈ opsAt b off, x.rank ≠ o.rank) (hlast : (opsAt b off).length = b.children.length)
    (hopen : ∀ x ∈ b.sums, x.offset = off → x.ops ≠ []) (island : Nat) : takeOperand e b.order island off o =
      (formPosition (onBucket e b.order (formedAt b off)) b island off (opsAt b off ++ [o]), true) := by
  dsimp only [takeOperand]
  rw [hat]
  dsimp only
  rw [if_neg, if_pos (by simp [hlast])]
  · rfl
  · rintro (h | h | h)
    · omega
    · obtain ⟨x, hx, heq⟩ := List.any_eq_true.1 h
      exact hrank x hx (beq_iff_eq.1 heq)
    · obtain ⟨x, hx, heq⟩ := List.any_eq_true.1 h
      simp only [Bool.and_eq_true, beq_iff_eq, List.isEmpty_iff] at heq
      exact hopen x hx heq.1 heq.2

/-- A full flit's operand (R378). -/
def fullOperand (f : Flit) (rank : Nat) : Operand :=
  { rank := rank, vals := (List.range 128).map fun j => field f.payload (2 * j) 2, poison := flitPoison f }

/-- The engine once a port has taken a flit in turn (R374). -/
def tookFlit (e : Engine) (p : PortId) : Engine := bump (onPort e p flitTaken) (.rxFlits p) 1

theorem buckets_tookFlit (e : Engine) (p : PortId) : (tookFlit e p).lnk.buckets = e.lnk.buckets := by
  rw [tookFlit, bump_lnk]; rfl

theorem bucketAt_tookFlit {e : Engine} {o : Nat} {b : Bucket} (h : bucketAt e o = some b) (p : PortId) : bucketAt (tookFlit e p) o = some b :=
  (bucketAt_congr (buckets_tookFlit e p) o).trans h

theorem addFlit_last {e : Engine} {p : PortId} {f : Flit} {b : Bucket} {rank : Nat} (hat : bucketAt e b.order = some b)
    (hbroadcast : b.broadcast = false) (hkind : flitKind f = kFull)
    (hchild : b.children.find? (fun c => c.1 == p) = some (p, rank))
    (hrank : ∀ x ∈ opsAt b (f.offset.toNat % 2 ^ 18), x.rank ≠ rank) (hlast : (opsAt b (f.offset.toNat % 2 ^ 18)).length = b.children.length)
    (hin : f.offset.toNat % 2 ^ 18 < groupsIn b) (hopen : ∀ x ∈ b.sums, x.offset = f.offset.toNat % 2 ^ 18 → x.ops ≠ []) :
    addFlit e b p f false = formPosition (onBucket (returnCredit e p 0) b.order (formedAt b (f.offset.toNat % 2 ^ 18))) b (linkIsland p)
      (f.offset.toNat % 2 ^ 18) (opsAt b (f.offset.toNat % 2 ^ 18) ++ [fullOperand f rank]) := by
  have htake := takeOperand_last (e := returnCredit e p 0) (o := fullOperand f rank) hat hin hrank hlast hopen (linkIsland p)
  have hops : flitOperands b f rank (flitPoison f || false) = [(f.offset.toNat % 2 ^ 18, fullOperand f rank)] := by
    rw [Bool.or_false]
    exact if_neg (by rw [hkind]; decide)
  dsimp only [addFlit]
  rw [hchild]
  dsimp only
  rw [if_neg (by simp [hbroadcast]), if_neg Bool.false_ne_true, hops, List.foldl_cons, List.foldl_nil, htake]
  rfl

/-- The engine once a port has taken the last operand of a position, and its credit has gone back (R378). -/
def operandTaken (e : Engine) (p : PortId) (b : Bucket) (off : Nat) : Engine :=
  onBucket (returnCredit (tookFlit e p) p 0) b.order (formedAt b off)

theorem bucketAt_operandTaken {e : Engine} {b : Bucket} (hat : bucketAt e b.order = some b) (p : PortId) (off : Nat) :
    bucketAt (operandTaken e p b off) b.order = some (formedAt b off b) :=
  bucketAt_onBucket (e := returnCredit (tookFlit e p) p 0) (bucketAt_tookFlit hat p)

section Taken
variable {s : State} {p : PortId} {f : Flit} {b : Bucket} (hruns : linkRuns s.eng p = true)
  (hstate : (portOf s.eng p).state = .up) (hcrc : crcGood f = true) (hseq : f.lseq = (portOf s.eng p).rxSeq)
  (htarget : target s.eng f = some b) (hat : bucketAt s.eng b.order = some b) (hidle : Idle s.eng)
include hruns hstate hcrc hseq htarget hat hidle

/-- A data flit that brings a position's last operand completes its sum (R378, R379). -/
theorem exec_dataFlitReceive_forms {u : PortId} {rank off : Nat} (hoff : off = f.offset.toNat % 2 ^ 18) (hin : off < groupsIn b)
    (hkind : flitKind f = kFull) (hchild : b.children.find? (fun c => c.1 == p) = some (p, rank)) (hparent : b.parent = some u)
    (hrank : ∀ x ∈ opsAt b off, x.rank ≠ rank) (hlast : (opsAt b off).length = b.children.length)
    (hopen : ∀ x ∈ b.sums, x.offset = off → x.ops ≠ []) (hnext : b.upNext ≤ off) :
    ∃ t b' x, exec (.dataFlitReceive p f false) s = .next t ∧ bucketAt t.eng b.order = some b' ∧ x ∈ b'.up ∧ x.offset = off ∧
      x.payload = fullPayload (sumOps (inOrder s.eng (opsAt b off ++ [fullOperand f rank]))).1 ∧
      (flitPoison f = true → x.poison = true) ∧ b'.state = .active ∧ b'.formed = b.formed ∧ t.mem = s.mem ∧ t.posted = s.posted := by
  subst hoff
  set off := f.offset.toNat % 2 ^ 18
  set ops := opsAt b off ++ [fullOperand f rank]
  have horder : inOrder (operandTaken s.eng p b off) ops = inOrder s.eng ops := inOrder_congr (bump_sch ..) ops
  have hplace : placeFlit (tookFlit s.eng p) p f false = onBucket (sumEvent (operandTaken s.eng p b off) (linkIsland p) (inOrder s.eng ops)
      (sumOps (inOrder s.eng ops)).2) b.order (withUp (sumFlit off (inOrder s.eng ops))) := by
    unfold placeFlit
    rw [target_congr (buckets_tookFlit ..), htarget]
    dsimp only
    rw [if_neg (by rw [hkind]; decide), addFlit_last (bucketAt_tookFlit hat p)
      (hidle b (mem_of_bucketAt hat)).2 hkind hchild hrank hlast hin hopen, formPosition_of_parent hparent hnext]
    rw [← horder]
    rfl
  have hstill : Idle (placeFlit (tookFlit s.eng p) p f false) := by
    rw [hplace]
    refine idle_congr ?_ hidle
    rw [waitingOut_onBucket, waitingOut_congr (congrArg Links.buckets (lnk_sumEvent ..)), operandTaken, waitingOut_onBucket]
    exact waitingOut_congr (e' := returnCredit (tookFlit s.eng p) p 0) (buckets_tookFlit s.eng p)
  have heng : dataReceive s.eng p f false = placeFlit (tookFlit s.eng p) p f false := by
    dsimp only [dataReceive]
    rw [if_pos hcrc, if_neg (by rw [hkind]; decide),
      rxSequenced_inTurn (linkOn_of_linkRuns hruns) hstate hcrc (by rw [hkind]; decide) hseq]
    exact moveMulticasts_of_idle hstill
  rw [hplace] at heng
  have hsum := (bucketAt_congr (congrArg Links.buckets (lnk_sumEvent (operandTaken s.eng p b off) (linkIsland p) (inOrder s.eng ops)
    (sumOps (inOrder s.eng ops)).2)) b.order).trans (bucketAt_operandTaken hat p off)
  exact ⟨_, _, sumFlit off (inOrder s.eng ops), exec_of_crossing hruns (.dataFlitReceive p f false) (dataReceive · p f false) heng,
    bucketAt_onBucket hsum, mem_insertBy.2 (.inl rfl), rfl, rfl,
    fun hp => poison_sumOps (mem_inOrder.2 (List.mem_append_right _ (List.mem_singleton_self (fullOperand f rank)))) hp,
    (state_of_target htarget : b.state = .active), rfl, rfl, rfl⟩

end Taken

/-! ### One multicast moves on (R388) -/

/-- A run of steps of which only some do anything. -/
theorem foldl_filter_of_idle {α β : Type} {u : β → α → β} {p : α → Bool} (h : ∀ x a, p a = false → u x a = x) (l : List α) (x : β) :
    l.foldl u x = (l.filter p).foldl u x := by
  induction l generalizing x with
  | nil => rfl
  | cons a l ih =>
    rw [List.foldl_cons, List.filter_cons]
    cases ha : p a with
    | true => exact ih _
    | false => rw [h x a ha]; exact ih x

/-- Of a list whose elements are all out of the filter, the one that is changed is in it alone. -/
theorem filter_updFirst_found {α : Type} {q act : α → Bool} {f : α → α} {l : List α} {b : α} (h : l.find? q = some b)
    (hl : ∀ x ∈ l, act x = false) (hf : act (f b) = true) : (updFirst q f l).filter act = [f b] := by
  induction l with
  | nil => cases h
  | cons a l ih =>
    unfold updFirst
    by_cases ha : q a = true
    · obtain rfl : a = b := by simpa [List.find?, ha] using h
      rw [if_pos ha, List.filter_cons, if_pos hf, List.filter_eq_nil_iff.2 fun x hx => by simp [hl x (List.mem_cons_of_mem _ hx)]]
    · rw [if_neg ha, List.filter_cons, if_neg (by simp [hl a (List.mem_cons_self ..)])]
      exact ih (by simpa [List.find?, ha] using h) fun x hx => hl x (List.mem_cons_of_mem _ hx)

/-- A RESULT flit that waits alone is the only one that moves on. -/
theorem forwardAll_of_one {e : Engine} {b : Bucket} (h : (e.lnk.buckets.filter fun b => !b.out.isEmpty) = [b]) :
    forwardAll e = forwardBucket e b := by
  have hone := (perm_sortBy (fun (a b : Bucket) => decide (a.order < b.order)) e.lnk.buckets).filter fun b => !b.out.isEmpty
  rw [h, List.perm_singleton] at hone
  rw [forwardAll, foldl_filter_of_idle (p := fun b => !b.out.isEmpty) fun x a ha => forwardBucket_of_nil x (by simpa using ha), hone]
  rfl

/-- With credits on every child port the first flit goes (R388). -/
theorem forwardOne_of_credit {e : Engine} {b : Bucket} {x : Option PortId × Flit} {rest : List (Option PortId × Flit)}
    (hat : bucketAt e b.order = some b) (hout : b.out = x :: rest) (hall : (openKids b).all (hasCredit e) = true)
    (hmore : b.got + 1 ≠ groupsIn b) : forwardOne e b.order = forwardedOne e b x rest := by
  dsimp only [forwardOne]
  rw [hat]
  dsimp only
  rw [hout]
  dsimp only
  rw [if_neg (by simp [hall])]
  exact if_neg hmore

theorem lnk_writeResult (e : Engine) (b : Bucket) (f : Flit) : (writeResult e b f).lnk = e.lnk := by
  rw [writeResult_eq, sendBytes_frame]
  dsimp only [resultSeen]
  split <;> rfl

/-- The engine once a flit has entered every child port's queue. -/
def pushedDown (e : Engine) (b : Bucket) (f : Flit) : Engine := (openKids b).foldl (fun e p => pushDown e b f p) e

theorem pushedDown_keeps {α : Type} (π : Engine → α) (e : Engine) (b : Bucket) (f : Flit)
    (hπ : ∀ e, π (besidesPorts e) = π e := by intro; rfl) : π (pushedDown e b f) = π e :=
  (hπ _).symm.trans ((congrArg π (foldl_keeps besidesPorts (u := fun e p => pushDown e b f p) (fun _ _ => rfl) _ e)).trans (hπ e))

theorem buckets_forwardedOne (e : Engine) (b : Bucket) (x : Option PortId × Flit) (rest : List (Option PortId × Flit)) :
    (forwardedOne e b x rest).lnk.buckets = (onBucket e b.order fun _ => forwardedBucket b x rest).lnk.buckets := by
  rw [forwardedOne, lnk_writeResult]
  refine congrArg (updFirst _ _) (Eq.trans ?_ (pushedDown_keeps (·.lnk.buckets) e b x.2))
  cases x.1 <;> rfl

/-- A port that a multicast's flit has entered (R388). -/
def pushedPort (b : Bucket) (f : Flit) (q : Port) : Port :=
  { q with down := q.down ++ [{ f with hopRank := BitVec.ofNat 8 b.rank }], credit1 := q.credit1 - 1 }

theorem portOf_pushed {l : List PortId} (hl : l.Nodup) {e : Engine} (hlen : e.lnk.ports.length = 18) (b : Bucket) (f : Flit) (q : PortId) :
    portOf (l.foldl (fun e p => pushDown e b f p) e) q = if q ∈ l then pushedPort b f (portOf e q) else portOf e q := by
  induction l generalizing e with
  | nil => rfl
  | cons p l ih =>
    obtain ⟨hp, hl⟩ := List.nodup_cons.1 hl
    rw [List.foldl_cons, ih hl (e := pushDown e b f p) ((onPort_ports_length ..).trans hlen)]
    by_cases hq : q = p
    · subst hq
      rw [if_neg hp, if_pos (List.mem_cons_self ..)]
      exact portOf_onPort_self _ (port_lt hlen q)
    · have hport : portOf (pushDown e b f p) q = portOf e q := portOf_onPort_ne _ hq
      simp only [List.mem_cons, hq, false_or, hport]

/-- A bucket with a RESULT flit that waits for its multicast. -/
def queued (p : PortId) (g : Flit) (b : Bucket) : Bucket := { b with out := b.out ++ [(some p, g)] }

section Queued
variable {e : Engine} {b : Bucket} (hat : bucketAt e b.order = some b) (hidle : Idle e) (p : PortId) (g : Flit)
include hat hidle

theorem forwardAll_of_queued (hall : (openKids b).all (hasCredit e) = true) (hmore : b.got + 1 ≠ groupsIn b) :
    forwardAll (onBucket e b.order (queued p g)) = forwardedOne (onBucket e b.order (queued p g)) (queued p g b) (some p, g) [] := by
  have hout : (queued p g b).out = [(some p, g)] := congrArg (· ++ [(some p, g)]) (hidle b (mem_of_bucketAt hat)).1
  have hforward := forwardAll_of_one (e := onBucket e b.order (queued p g)) (filter_updFirst_found hat
    (fun x hx => by simp [(hidle x hx).1]) (by simp [hout]))
  rw [hforward, forwardBucket, hout]
  exact forwardOne_of_credit (bucketAt_onBucket hat) hout hall hmore

theorem moveMulticasts_of_queued (hall : (openKids b).all (hasCredit e) = true) (hmore : b.got + 1 ≠ groupsIn b) :
    moveMulticasts (onBucket e b.order (queued p g)) = forwardedOne (onBucket e b.order (queued p g)) (queued p g b) (some p, g) [] := by
  have hbroadcast : ∀ x ∈ (onBucket e b.order (queued p g)).lnk.buckets, x.broadcast = false := fun x hx => by
    rcases of_mem_updFirst hx with hx | ⟨y, hy, rfl⟩
    · exact (hidle x hx).2
    · exact (hidle y hy).2
  rw [moveMulticasts, forwardAll_of_queued hat hidle p g hall hmore]
  refine broadcastsOk_of_allreduce fun x hx => ?_
  rw [buckets_forwardedOne] at hx
  rcases of_mem_updFirst hx with hx | ⟨-, -, rfl⟩
  · exact hbroadcast x hx
  · exact (hidle b (mem_of_bucketAt hat)).2

end Queued

/-! ### The lanes that widen a result (R406, R407) -/

theorem flitKind_markFlit (f : Flit) : flitKind (markFlit f) = flitKind f := by
  have hall : ∀ k : Byte, (BitVec.ofNat 8 (Nat.lor k.toNat 8)).toNat % 8 = k.toNat % 8 := by decide
  exact hall f.kind

theorem flitPoison_markFlit (f : Flit) : flitPoison (markFlit f) = true := by
  have hall : ∀ k : Byte, bit (BitVec.ofNat 8 (Nat.lor k.toNat 8)).toNat 3 = true := by decide
  exact hall f.kind

/-- What a RESULT flit enters its bucket as (R407). -/
def widened (e : Engine) (p : PortId) (f : Flit) (lane : Bool) : Engine × Flit := if lane then widenFault e p f else (e, f)

/-- What a lane mismatch leaves of the engine. -/
def besidesEvents (e : Engine) : Links × MemPort × Option (List Task) := (e.lnk, e.mp, e.sch.run.map Graph.tasks)

theorem besidesEvents_poisonEvent (e : Engine) (i n : Nat) : besidesEvents (poisonEvent e i n) = besidesEvents e :=
  Prod.ext (poisonEvent_lnk ..) (Prod.ext (poisonEvent_mp ..) (poisonEvent_run ..).1)

theorem besidesEvents_bump (e : Engine) (k : Ctr) (n : Nat) : besidesEvents (bump e k n) = besidesEvents e := by
  rw [besidesEvents, bump_lnk, bump_mp, bump_sch]
  rfl

theorem besidesEvents_widened (e : Engine) (p : PortId) (f : Flit) (lane : Bool) : besidesEvents (widened e p f lane).1 = besidesEvents e := by
  cases lane with
  | false => rfl
  | true =>
    unfold widened widenFault
    rw [if_pos rfl]
    split
    · split
      · exact (besidesEvents_poisonEvent ..).trans (besidesEvents_bump ..)
      · rfl
    · rfl

theorem flit_widened {e : Engine} {f : Flit} {b : Bucket} (htarget : target e f = some b) (p : PortId) (lane : Bool) :
    (widened e p f lane).2 = f ∨ (lane = true ∧ b.resultF32 = true ∧ (widened e p f lane).2 = markFlit f) := by
  unfold widened widenFault
  rw [htarget]
  cases lane with
  | false => exact .inl rfl
  | true =>
    cases hwide : b.resultF32 with
    | false => simp [hwide]
    | true => simp [hwide]

theorem widened_fault {e : Engine} {f : Flit} {b : Bucket} (htarget : target e f = some b) (hwide : b.resultF32 = true) (p : PortId) :
    widened e p f true = (poisonEvent (laneEvent (bump e .hubLaneMismatch 1)) (linkIsland p) codeHalted, markFlit f) := by
  unfold widened widenFault
  rw [htarget, if_pos rfl]
  exact if_pos hwide

/-! ### What the result reads as in memory (R388) -/

theorem errBit_writeResult {e : Engine} {i : Nat} (h : errBit e i = true) (b : Bucket) (f : Flit) : errBit (writeResult e b f) i = true := by
  rw [writeResult_eq, errBit_congr (sendBytes_hub ..)]
  unfold resultSeen
  split
  · rw [errBit_raiseErr e (by decide), h, Bool.true_or]
  · exact h

theorem ctrVal_writeResult (e : Engine) (b : Bucket) (f : Flit) (k : Ctr) : ctrVal (writeResult e b f) k = ctrVal e k := by
  rw [writeResult_eq, sendBytes_frame]
  unfold resultSeen
  split <;> rfl

theorem mp_resultSeen (e : Engine) (b : Bucket) (f : Flit) : (resultSeen e b f).mp = e.mp := by unfold resultSeen; split <;> rfl

theorem length_takeBytes (bs : List Byte) (o n : Nat) : (takeBytes bs o n).length = n := by
  simp only [takeBytes, List.length_append, List.length_replicate, List.length_take]
  omega

section Written
variable {e : Engine} {b : Bucket} (m : Mem) (f : Flit) (hlost : writesLost e (.link b.task) = false)
include hlost

theorem writesLost_resultSeen : writesLost (resultSeen e b f) (.link b.task) = false := by
  unfold resultSeen
  split <;> exact hlost

theorem viewBytes_writeResult (hnarrow : b.resultF32 = false) (hend : b.result + 256 * (f.offset.toNat % 2 ^ 18) + 256 ≤ 2 ^ 52) :
    viewBytes m (writeResult e b f) (b.result + 256 * (f.offset.toNat % 2 ^ 18)) 256 = takeBytes f.payload 0 256 ∧
      ∀ a, a < 2 ^ 52 → a < b.result + 256 * (f.offset.toNat % 2 ^ 18) ∨ b.result + 256 * (f.offset.toNat % 2 ^ 18) + 256 ≤ a →
        viewByte m (writeResult e b f) a = viewByte m e a := by
  have haddr : resultAddr b f = b.result + 256 * (f.offset.toNat % 2 ^ 18) := by rw [resultAddr, hnarrow]; rfl
  have hbytes : resultBytes b f = takeBytes f.payload 0 256 := by rw [resultBytes, hnarrow]; rfl
  have hlen : (takeBytes f.payload 0 256).length = 256 := length_takeBytes ..
  rw [writeResult_eq, haddr, hbytes]
  refine ⟨?_, fun a ha hout => ?_⟩
  · have hview := viewBytes_sendBytes m (writesLost_resultSeen f hlost) (bs := takeBytes f.payload 0 256)
      (fun l => flitPoison f || decide (l ∈ resultBad b f)) (hlen.symm ▸ hend)
    rwa [hlen] at hview
  · rw [viewByte_sendBytes_outside m (writesLost_resultSeen f hlost) _ (hlen.symm ▸ hend) ha (hlen.symm ▸ hout)]
    exact viewByte_congr m (mp_resultSeen e b f) a

theorem viewNat_writeResult (hwide : b.resultF32 = true) (hend : b.result + 512 * (f.offset.toNat % 2 ^ 18) + 512 ≤ 2 ^ 52) :
    (∀ j, j < 128 → viewNat m (writeResult e b f) (b.result + 512 * (f.offset.toNat % 2 ^ 18) + 4 * j) 4 =
      (bf16ToF32 (field f.payload (2 * j) 2)).toNat) ∧
      (∀ a, a < 2 ^ 52 → a < b.result + 512 * (f.offset.toNat % 2 ^ 18) ∨ b.result + 512 * (f.offset.toNat % 2 ^ 18) + 512 ≤ a →
        viewByte m (writeResult e b f) a = viewByte m e a) ∧
      (flitPoison f = true → viewPoison m (writeResult e b f) (lineOf (b.result + 512 * (f.offset.toNat % 2 ^ 18))) = true) := by
  have haddr : resultAddr b f = b.result + 512 * (f.offset.toNat % 2 ^ 18) := by rw [resultAddr, hwide]; rfl
  have hbytes : resultBytes b f = wordBytes (resultWords f) := by rw [resultBytes, hwide]; rfl
  have hwords : (resultWords f).length = 128 := by simp [resultWords]
  have hlen : (wordBytes (resultWords f)).length = 512 := by rw [length_wordBytes, hwords]
  have hlost' := writesLost_resultSeen f hlost
  rw [writeResult_eq, haddr, hbytes]
  refine ⟨fun j hj => ?_, fun a ha hout => ?_, fun hpoison => ?_⟩
  · rw [viewNat_sendWords m hlost' _ (by rw [hwords]; exact hend) (hwords.symm ▸ hj)]
    simp [elemD, resultWords, hj]
  · rw [viewByte_sendBytes_outside m hlost' _ (hlen.symm ▸ hend) ha (hlen.symm ▸ hout)]
    exact viewByte_congr m (mp_resultSeen e b f) a
  · exact viewPoison_sendBytes_marked m hlost' (fun l => by rw [hpoison, Bool.true_or]) (hlen.symm ▸ hend) (by omega)

end Written

/-! ### A RESULT flit (R376, R388) -/

theorem portOf_tookFlit {e : Engine} (hlen : e.lnk.ports.length = 18) (p : PortId) : portOf (tookFlit e p) p = flitTaken (portOf e p) := by
  rw [tookFlit, portOf_bump, portOf_onPort_self _ (port_lt hlen p)]

theorem portOf_tookFlit_ne (e : Engine) {p q : PortId} (h : q ≠ p) : portOf (tookFlit e p) q = portOf e q := by
  rw [tookFlit, portOf_bump, portOf_onPort_ne _ h]

theorem length_tookFlit (e : Engine) (p : PortId) : (tookFlit e p).lnk.ports.length = e.lnk.ports.length := by
  rw [tookFlit, bump_lnk, onPort_ports_length]

theorem grant1_flitTaken (q : Port) : (flitTaken q).grant1 = q.grant1 := by
  unfold flitTaken
  dsimp only
  split <;> rfl

/-- A credit of channel 1 goes back on a port that is UP (R376). -/
theorem grant1_returnCredit {e : Engine} {p : PortId} (hp : p.val < e.lnk.ports.length) (hstate : (portOf e p).state = .up) :
    (portOf (returnCredit e p 1) p).grant1 = ((portOf e p).grant1 + 1) % 2 ^ 16 := by
  rw [returnCredit, portOf_onPort_self _ hp, if_neg (not_not_intro hstate)]
  rfl

/-- A RESULT flit in offset order waits for its multicast (R388). -/
theorem placeFlit_result {e : Engine} {p : PortId} {f : Flit} {b : Bucket} (htarget : target e f = some b) (hkind : flitKind f = kResult)
    (hparent : b.parent = some p) (hout : b.out = []) (hnext : f.offset.toNat % 2 ^ 18 = b.got) (hmore : b.got + 1 < groupsIn b) (lane : Bool) :
    placeFlit e p f lane = onBucket e b.order (queued p f) := by
  unfold placeFlit
  rw [htarget]
  dsimp only
  rw [if_pos hkind]
  refine if_pos ⟨hparent, ?_, ?_⟩ <;> rw [hout]
  · exact hnext
  · exact Nat.lt_of_succ_lt hmore

/-- The engine once a RESULT flit of a port has gone to every child, before it is written (R388). -/
def sentDown (e : Engine) (b : Bucket) (p : PortId) (g : Flit) : Engine :=
  onBucket (returnCredit (pushedDown (onBucket e b.order (queued p g)) b g) p 1) b.order fun _ => forwardedBucket (queued p g b) (some p, g) []

theorem forwardedOne_queued (e : Engine) (b : Bucket) (p : PortId) (g : Flit) :
    forwardedOne (onBucket e b.order (queued p g)) (queued p g b) (some p, g) [] = writeResult (sentDown e b p g) b g := rfl

section SentDown
variable {e : Engine} {b : Bucket} {p : PortId} {g : Flit}

theorem sentDown_keeps {α : Type} (π : Engine → α) (hlnk : ∀ (e : Engine) (l : Links), π { e with lnk := l } = π e := by intros; rfl) :
    π (sentDown e b p g) = π e := by
  refine (hlnk ..).trans ((hlnk ..).trans ?_)
  refine (pushedDown_keeps π (onBucket e b.order (queued p g)) b g fun e => hlnk e _).trans ?_
  exact hlnk ..

theorem bucketAt_sentDown (hat : bucketAt e b.order = some b) :
    bucketAt (sentDown e b p g) b.order = some (forwardedBucket (queued p g b) (some p, g) []) := by
  have hqueued : bucketAt (onBucket e b.order (queued p g)) b.order = some (queued p g b) := bucketAt_onBucket hat
  exact bucketAt_onBucket_const (e := returnCredit (pushedDown (onBucket e b.order (queued p g)) b g) p 1)
    ((pushedDown_keeps (bucketAt · b.order) (onBucket e b.order (queued p g)) b g).trans hqueued) rfl

variable (hlen : e.lnk.ports.length = 18) (hdrops : b.drops = []) (hnodup : (b.children.map Prod.fst).Nodup)
include hlen hdrops hnodup

theorem portOf_pushedDown (q : PortId) : portOf (pushedDown (onBucket e b.order (queued p g)) b g) q =
    if q ∈ b.children.map Prod.fst then pushedPort b g (portOf e q) else portOf e q := by
  have hopen : openKids b = b.children.map Prod.fst := List.filter_eq_self.2 fun _ _ => by rw [hdrops]; rfl
  rw [pushedDown, hopen]
  exact portOf_pushed hnodup (e := onBucket e b.order (queued p g)) hlen b g q

variable (hkids : ∀ c ∈ b.children, c.1 ≠ p)
include hkids

/-- The flit has entered every child port's queue and taken its credit (R376, R388). -/
theorem portOf_sentDown_child {c : PortId × Nat} (hc : c ∈ b.children) : portOf (sentDown e b p g) c.1 = pushedPort b g (portOf e c.1) := by
  refine (portOf_onPort_ne (e := pushedDown (onBucket e b.order (queued p g)) b g) _ (hkids c hc)).trans ?_
  rw [portOf_pushedDown hlen hdrops hnodup, if_pos (List.mem_map_of_mem hc)]

/-- The port that brought the flit gives its credit back (R376). -/
theorem grant1_sentDown (hstate : (portOf e p).state = .up) : (portOf (sentDown e b p g) p).grant1 = ((portOf e p).grant1 + 1) % 2 ^ 16 := by
  have hport : portOf (pushedDown (onBucket e b.order (queued p g)) b g) p = portOf e p := by
    rw [portOf_pushedDown hlen hdrops hnodup, if_neg fun h => ?_]
    obtain ⟨c, hc, heq⟩ := List.mem_map.1 h
    exact hkids c hc heq
  have hports : (pushedDown (onBucket e b.order (queued p g)) b g).lnk.ports.length = 18 := by
    refine Eq.trans ?_ hlen
    exact foldl_keeps (fun e : Engine => e.lnk.ports.length) (u := fun e p => pushDown e b g p) (fun _ _ => onPort_ports_length ..) _ _
  exact (grant1_returnCredit (port_lt hports p) (hport ▸ hstate)).trans (by rw [hport])

end SentDown

section Result
variable {s : State} {p : PortId} {f : Flit} {b : Bucket} (hruns : linkRuns s.eng p = true)
  (hstate : (portOf s.eng p).state = .up) (hcrc : crcGood f = true) (hseq : f.lseq = (portOf s.eng p).rxSeq)
  (htarget : target s.eng f = some b) (hat : bucketAt s.eng b.order = some b) (hidle : Idle s.eng) (lane : Bool)
  (hkind : flitKind f = kResult) (hparent : b.parent = some p) (hnext : f.offset.toNat % 2 ^ 18 = b.got) (hmore : b.got + 1 < groupsIn b)
  (hkids : ∀ c ∈ b.children, c.1 ≠ p ∧ (portOf s.eng c.1).state = .up ∧ 0 < (portOf s.eng c.1).credit1)
include hruns hstate hcrc hseq htarget hat hidle hkind hparent hnext hmore hkids

/-- A RESULT flit in offset order goes to every child port and is written (R388). -/
theorem resultReceive_eq : resultReceive s.eng p ⟨f, lane⟩ = writeResult (sentDown (widened (tookFlit s.eng p) p f lane).1 b p
    (widened (tookFlit s.eng p) p f lane).2) b (widened (tookFlit s.eng p) p f lane).2 := by
  have hlnk : (widened (tookFlit s.eng p) p f lane).1.lnk = (tookFlit s.eng p).lnk := congrArg Prod.fst (besidesEvents_widened ..)
  have hbuckets := (congrArg Links.buckets hlnk).trans (buckets_tookFlit s.eng p)
  have hflit := flit_widened ((target_congr (buckets_tookFlit s.eng p) f).trans htarget) p lane
  have hreceive : resultReceive s.eng p ⟨f, lane⟩ = moveMulticasts (placeFlit (widened (tookFlit s.eng p) p f lane).1 p
      (widened (tookFlit s.eng p) p f lane).2 false) := by
    dsimp only [resultReceive]
    rw [if_neg (by simp [hkind]), rxSequenced_inTurn (linkOn_of_linkRuns hruns) hstate hcrc (by rw [hkind]; decide) hseq]
    rfl
  rw [hreceive]
  generalize widened (tookFlit s.eng p) p f lane = x at *
  have hplace : placeFlit x.1 p x.2 false = onBucket x.1 b.order (queued p x.2) := by
    have hout := (hidle b (mem_of_bucketAt hat)).1
    rcases hflit with h | ⟨-, -, h⟩
    · rw [h]
      exact placeFlit_result ((target_congr hbuckets f).trans htarget) hkind hparent hout hnext hmore false
    · rw [h]
      exact placeFlit_result (f := markFlit f) ((target_congr hbuckets f).trans htarget) ((flitKind_markFlit f).trans hkind) hparent hout
        hnext hmore false
  rw [hplace, moveMulticasts_of_queued ((bucketAt_congr hbuckets _).trans hat) (fun y hy => hidle y (hbuckets ▸ hy)) p x.2 ?_ (by omega)]
  · exact forwardedOne_queued ..
  · refine List.all_eq_true.2 fun q hq => ?_
    obtain ⟨c, hc, rfl⟩ := List.mem_map.1 (List.mem_filter.1 hq).1
    obtain ⟨hne, hup, hcredit⟩ := hkids c hc
    have hport : portOf x.1 c.1 = portOf s.eng c.1 := (portOf_congr (congrArg Links.ports hlnk) _).trans (portOf_tookFlit_ne _ hne)
    simp [hasCredit, hport, hup, hcredit]

/-- What a lane mismatch of the widening leaves: the link's events, and a flit that is marked (R407). -/
theorem widened_cases : ∃ e g, resultReceive s.eng p ⟨f, lane⟩ = writeResult (sentDown e b p g) b g ∧ e.lnk = (tookFlit s.eng p).lnk ∧
    e.mp = s.eng.mp ∧ writesLost e (.link b.task) = writesLost s.eng (.link b.task) ∧
    (g = f ∨ (lane = true ∧ b.resultF32 = true ∧ g = markFlit f)) ∧ (b.resultF32 = true → lane = true → flitPoison g = true ∧
      errBit e errLaneMismatch = true ∧ ctrVal e .hubLaneMismatch = min 65535 (ctrVal s.eng .hubLaneMismatch + 1)) := by
  have hevents := besidesEvents_widened (tookFlit s.eng p) p f lane
  have htook := (target_congr (buckets_tookFlit s.eng p) f).trans htarget
  refine ⟨_, _, resultReceive_eq hruns hstate hcrc hseq htarget hat hidle lane hkind hparent hnext hmore hkids, congrArg (·.1) hevents,
    (congrArg (·.2.1) hevents).trans (bump_mp ..), writesLost_congr ((congrArg (·.2.2) hevents).trans ?_) _, flit_widened htook p lane,
    fun hwide hlane => ?_⟩
  · exact congrArg (fun x : Sched => x.run.map Graph.tasks) (bump_sch ..)
  · rw [hlane, widened_fault htook hwide p]
    refine ⟨flitPoison_markFlit f, ?_, ?_⟩
    · rw [errBit_congr (poisonEvent_hub ..), errBit_raiseErr _ (by decide), laneEvent, errBit_raiseErr _ (by decide)]
      simp
    · rw [ctrVal, poisonEvent_ctr]
      refine (ctrVal_bump_one ..).trans ((if_pos rfl).trans ?_)
      rw [tookFlit, ctrVal_bump_ne _ _ (by simp)]
      rfl

variable (hlen : s.eng.lnk.ports.length = 18) (hdrops : b.drops = []) (hnodup : (b.children.map Prod.fst).Nodup)
  (hlost : writesLost s.eng (.link b.task) = false)
  (hend : b.result + (if b.resultF32 then 512 else 256) * groupsIn b ≤ 2 ^ 52)
include hlen hdrops hnodup hlost hend

/-- A RESULT flit in offset order is forwarded to every child port and written at RESULT_ADDR (R376, R388, R407). -/
theorem exec_resultFlitReceive_forwards {off : Nat} (hoff : off = f.offset.toNat % 2 ^ 18) :
    ∃ t b' g, exec (.resultFlitReceive p ⟨f, lane⟩) s = .next t ∧ bucketAt t.eng b.order = some b' ∧ b'.got = b.got + 1 ∧
      b'.out = [] ∧ b'.state = .active ∧ (g = f ∨ (lane = true ∧ b.resultF32 = true ∧ g = markFlit f)) ∧
      (∀ c ∈ b.children, (portOf t.eng c.1).down = (portOf s.eng c.1).down ++ [{ g with hopRank := BitVec.ofNat 8 b.rank }] ∧
        (portOf t.eng c.1).credit1 = (portOf s.eng c.1).credit1 - 1) ∧
      (portOf t.eng p).grant1 = ((portOf s.eng p).grant1 + 1) % 2 ^ 16 ∧
      (b.resultF32 = false → viewBytes t.mem t.eng (b.result + 256 * off) 256 = takeBytes f.payload 0 256 ∧
        (∀ a, a < 2 ^ 52 → a < b.result + 256 * off ∨ b.result + 256 * off + 256 ≤ a →
          viewByte t.mem t.eng a = viewByte s.mem s.eng a)) ∧
      (b.resultF32 = true →
        (∀ j, j < 128 → viewNat t.mem t.eng (b.result + 512 * off + 4 * j) 4 = (bf16ToF32 (field f.payload (2 * j) 2)).toNat) ∧
        (∀ a, a < 2 ^ 52 → a < b.result + 512 * off ∨ b.result + 512 * off + 512 ≤ a →
          viewByte t.mem t.eng a = viewByte s.mem s.eng a) ∧
        (lane = true → viewPoison t.mem t.eng (lineOf (b.result + 512 * off)) = true ∧ errBit t.eng errLaneMismatch = true ∧
          ctrVal t.eng .hubLaneMismatch = min 65535 (ctrVal s.eng .hubLaneMismatch + 1))) ∧ t.mem = s.mem ∧ t.posted = s.posted := by
  subst hoff
  obtain ⟨e, g, heng, hlnk, hmp, htasks, hflit, hfault⟩ :=
    widened_cases hruns hstate hcrc hseq htarget hat hidle lane hkind hparent hnext hmore hkids
  obtain ⟨hpayload, hoffset⟩ : g.payload = f.payload ∧ g.offset = f.offset := by
    rcases hflit with rfl | ⟨-, -, rfl⟩ <;> exact ⟨rfl, rfl⟩
  have hlen' : e.lnk.ports.length = 18 := by rw [hlnk, length_tookFlit, hlen]
  have hat' : bucketAt e b.order = some b := (bucketAt_congr ((congrArg Links.buckets hlnk).trans (buckets_tookFlit ..)) _).trans hat
  have hport (q : PortId) : portOf e q = portOf (tookFlit s.eng p) q := portOf_congr (congrArg Links.ports hlnk) q
  have hown : portOf e p = flitTaken (portOf s.eng p) := (hport p).trans (portOf_tookFlit hlen p)
  have hwritten (q : PortId) : portOf (writeResult (sentDown e b p g) b g) q = portOf (sentDown e b p g) q :=
    portOf_congr (congrArg Links.ports (lnk_writeResult ..)) q
  have hkept : writesLost (sentDown e b p g) (.link b.task) = false :=
    (writesLost_congr (sentDown_keeps (·.sch.run.map Graph.tasks)) _).trans (htasks.trans hlost)
  have hmem := viewByte_congr s.mem ((sentDown_keeps (·.mp)).trans hmp : (sentDown e b p g).mp = s.eng.mp)
  refine ⟨_, forwardedBucket (queued p g b) (some p, g) [], g, exec_of_crossing hruns (.resultFlitReceive p ⟨f, lane⟩)
    (resultReceive · p ⟨f, lane⟩) heng, (bucketAt_congr (congrArg Links.buckets (lnk_writeResult ..)) _).trans (bucketAt_sentDown hat'), rfl, rfl,
    (state_of_target htarget : b.state = .active), hflit, fun c hc => ?_, ?_, fun hnarrow => ?_, fun hwide => ?_, rfl, rfl⟩
  · rw [withEng_eng, hwritten, portOf_sentDown_child hlen' hdrops hnodup (fun c hc => (hkids c hc).1) hc, hport,
      portOf_tookFlit_ne _ (hkids c hc).1]
    exact ⟨rfl, rfl⟩
  · rw [withEng_eng, hwritten, grant1_sentDown hlen' hdrops hnodup (fun c hc => (hkids c hc).1), hown, grant1_flitTaken]
    rw [hown]
    exact (flitTaken_keeps _).2.2.1.trans hstate
  · rw [hnarrow, if_neg Bool.false_ne_true] at hend
    obtain ⟨hin, hout⟩ := viewBytes_writeResult s.mem g hkept hnarrow (by rw [hoffset]; omega)
    rw [hoffset] at hin hout
    exact ⟨hin.trans (by rw [hpayload]), fun a ha hbeside => (hout a ha hbeside).trans (hmem a)⟩
  · rw [hwide, if_pos rfl] at hend
    obtain ⟨hin, hout, hmark⟩ := viewNat_writeResult s.mem g hkept hwide (by rw [hoffset]; omega)
    rw [hoffset] at hin hout hmark
    refine ⟨fun j hj => (hin j hj).trans (by rw [hpayload]), fun a ha hbeside => (hout a ha hbeside).trans (hmem a), fun hlane => ?_⟩
    obtain ⟨hpoison, herr, hcount⟩ := hfault hwide hlane
    exact ⟨hmark hpoison, errBit_writeResult ((errBit_congr (sentDown_keeps (·.hub)) _).trans herr) b g,
      (ctrVal_writeResult ..).trans ((sentDown_keeps (ctrVal · .hubLaneMismatch)).trans hcount)⟩

end Result

/-- Settles O40: a position's last operand forms its flit, and a RESULT flit that waits alone is the one that moves on. -/
theorem lastOperandFormsSum : Obligations.LastOperandFormsSum := by
  intro s p f b off hlen hruns hstate hcrc hseq htarget hat hidle hoff hin
  refine ⟨fun u rank hkind hchild hparent hrank hlast hopen hnext => ?_,
    fun lane hkind hparent hnext hmore hdrops hnodup hkids hlost _ hend => ?_⟩
  · exact exec_dataFlitReceive_forms hruns hstate hcrc hseq htarget hat hidle hoff hin hkind hchild hparent hrank hlast hopen hnext
  · exact exec_resultFlitReceive_forwards hruns hstate hcrc hseq htarget hat hidle lane hkind hparent (hoff ▸ hnext) hmore hkids hlen hdrops
      hnodup hlost hend hoff

end Sys2Proof.Machine
end

section
/-! Proofs: BUCKET_ADMIT of a bucket that FP2 refuses, and of one that it admits (R380, R384). -/

namespace Sys2Proof.Machine

-- In turn, not side by side: each proof that waits for another holds a stack, which counts against the check's memory limit.
set_option Elab.async false

theorem exec_bucketAdmit (rd : List MemLine) (s : State) :
    exec (.bucketAdmit rd) s = .next { s with mem := absorb s.mem rd, eng := bucketAdmit (landed s.mem rd) (readEng s rd) } := rfl

/-! ### A bucket refused (R380) -/

/-- The engine without the buckets of an order. -/
def withoutBucket (e : Engine) (o : Nat) : Engine := { e with lnk := { e.lnk with buckets := e.lnk.buckets.filter fun x => x.order != o } }

theorem lnk_haltOnFail (e : Engine) (code : Nat) : (haltOnFail e code).lnk = e.lnk := by
  unfold haltOnFail
  split
  · exact askStop_lnk ..
  · rfl

/-- A task that has failed is ended with its code (R426). -/
theorem refuseBucket_spec {e : Engine} {b : Bucket} {t : Task} (htask : taskOf e b.task = some t) :
    (refuseBucket e b).lnk = (withoutBucket e b.order).lnk ∧
      taskOf (refuseBucket e b) b.task = some { t with life := .ended .link 3 codeTaskInvalid } := by
  have hend : refuseBucket e b = haltOnFail (onTask (withoutBucket e b.order) b.task fun t => { t with life := .ended .link 3 codeTaskInvalid })
      codeTaskInvalid := by
    dsimp only [refuseBucket, endTask]
    rw [if_pos rfl]
    rfl
  have hfound : taskOf (withoutBucket e b.order) b.task = some t := htask
  rw [hend]
  refine ⟨lnk_haltOnFail .., ?_⟩
  rw [taskOf_haltOnFail, taskOf_onTask_self, hfound, Option.map_some]

/-! ### The buckets and the groups that FP2 knows -/

/-- The buckets, and which groups are known. -/
def rosters (e : Engine) : List Bucket × List (Nat × Nat) := (e.lnk.buckets, e.lnk.groups.map fun g => (g.id, g.generation))


theorem rosters_onGroup (e : Engine) (id gen : Nat) {f : Group → Group}
    (hf : ∀ g, (f g).id = g.id ∧ (f g).generation = g.generation := by intro; exact ⟨rfl, rfl⟩) : rosters (onGroup e id gen f) = rosters e :=
  congrArg (Prod.mk _) (map_updFirst_of_eq _ (fun g => Prod.ext (hf g).1 (hf g).2) _)

theorem rosters_sendUp (e : Engine) (g : Group) (f : Flit) : rosters (sendUp e g f) = rosters e := by unfold sendUp; split <;> rfl

theorem rosters_multicast (e : Engine) (g : Group) (f : Flit) : rosters (multicast e g f) = rosters e := sendDown_keeps rosters e g f

theorem rosters_handleJoin (e : Engine) (g : Group) (f : Flit) : rosters (handleJoin e g f) = rosters e := by
  dsimp only [handleJoin]
  split
  · exact rosters_sendUp ..
  · split
    · exact (rosters_multicast ..).trans (rosters_onGroup ..)
    · exact rosters_onGroup ..

theorem rosters_of_lnk {e e' : Engine} (h : e'.lnk = e.lnk) : rosters e' = rosters e := by rw [rosters, rosters, h]

theorem rosters_earlyJoins (e : Engine) (g : Group) : rosters (earlyJoins e g) = rosters e := by
  dsimp only [earlyJoins]
  rw [foldl_keeps rosters]
  · rfl
  · intro x y
    split
    · split
      · exact rosters_handleJoin ..
      · exact rosters_of_lnk (bump_lnk ..)
    · rfl

theorem rosters_dropStale (e : Engine) : rosters (dropStale e) = rosters e := by
  obtain ⟨hbuckets, hrest⟩ := Prod.mk.inj (links_dropWaiting e fun f => !belongs e f)
  rw [rosters, dropStale, hbuckets, (Prod.mk.inj hrest).1]
  rfl

theorem rosters_checkSeal (e : Engine) (id step : Nat) : rosters (checkSeal e id step) = rosters e := by
  unfold checkSeal
  split
  · rfl
  · dsimp only
    split
    · rfl
    · split
      · rfl
      · exact (rosters_multicast ..).trans (rosters_onGroup ..)

/-- A group that is known stays known. -/
theorem exists_groupAt_of_rosters {e e' : Engine} {id gen : Nat} {g : Group} (h : rosters e' = rosters e) (hg : groupAt e id gen = some g) :
    ∃ g', groupAt e' id gen = some g' := by
  obtain ⟨g', hfound, -⟩ := find?_of_map_eq (Prod.mk.inj h).2 hg fun x y hxy => by
    obtain ⟨hid, hgen⟩ := Prod.mk.inj hxy
    rw [hid, hgen]
  exact ⟨g', hfound⟩

/-! ### A bucket admitted (R384) -/

/-- A group with its descriptor's trees. -/
def retree (g x : Group) : Group := { x with trees := g.trees, members := g.members }

/-- The engine with a bucket's group (R402). -/
def enrolled (e : Engine) (g : Group) : Engine :=
  if (groupAt e g.id g.generation).isNone then newGroup e g else onGroup e g.id g.generation (retree g)

/-- A bucket with its tree entry and its group (R384). -/
def admittedBucket (old b : Bucket) (g : Group) (t : Tree) (a : Nat) : Bucket :=
  { b with order := old.order, group := g.id, generation := g.generation, rank := t.rank, parent := t.parent, children := t.children
           admitted := true, known := true, attempt := a }

/-- The attempt of a bucket that is admitted, as its group has it (R384). -/
def admitAttempt (e : Engine) (b : Bucket) (g : Group) : Nat :=
  match groupAt (enrolled e g) g.id g.generation with | some x => stepAttempt x b.step | none => 0

theorem admitBucket_eq (e : Engine) (old b : Bucket) (g : Group) : admitBucket e old b g = checkSeal (dropStale (earlyJoins
    (onBucket (enrolled e g) old.order fun _ => admittedBucket old b g (elemD g.trees b.tree ⟨0, none, []⟩) (admitAttempt e b g)) g)) g.id
    b.step := by
  dsimp only [admitBucket]
  rfl

theorem rosters_admitBucket (e : Engine) (old b : Bucket) (g : Group) : rosters (admitBucket e old b g) = rosters (onBucket (enrolled e g)
    old.order fun _ => admittedBucket old b g (elemD g.trees b.tree ⟨0, none, []⟩) (admitAttempt e b g)) := by
  rw [admitBucket_eq, rosters_checkSeal, rosters_dropStale, rosters_earlyJoins]

theorem buckets_enrolled (e : Engine) (g : Group) : (enrolled e g).lnk.buckets = e.lnk.buckets := by
  unfold enrolled
  split
  · exact congrArg Prod.fst (rosters_sendUp ..)
  · rfl

/-- A bucket's group is known once it is admitted (R402). -/
theorem exists_groupAt_enrolled (e : Engine) (g : Group) : ∃ g', groupAt (enrolled e g) g.id g.generation = some g' := by
  unfold enrolled
  cases hat : groupAt e g.id g.generation with
  | none =>
    rw [if_pos (by rfl)]
    refine exists_groupAt_of_rosters (g := g) (rosters_sendUp ..) ?_
    refine List.find?_append.trans ?_
    rw [show e.lnk.groups.find? _ = none from hat]
    simp
  | some x => exact ⟨_, groupAt_onGroup hat⟩

/-- A valid bucket takes its tree entry and its group (R384). -/
theorem admitBucket_spec {e : Engine} {old : Bucket} (hat : bucketAt e old.order = some old) (b : Bucket) {g : Group} {t : Tree}
    (htree : g.trees[b.tree]? = some t) :
    ∃ g', bucketAt (admitBucket e old b g) old.order = some (admittedBucket old b g t (admitAttempt e b g)) ∧
      groupAt (admitBucket e old b g) g.id g.generation = some g' ∧
      (admitBucket e old b g).lnk.buckets.length = e.lnk.buckets.length := by
  have ha := rosters_admitBucket e old b g
  rw [elemD, htree, Option.getD_some] at ha
  obtain ⟨x, hx⟩ := exists_groupAt_enrolled e g
  have hbuckets : (admitBucket e old b g).lnk.buckets = (onBucket (enrolled e g) old.order fun _ =>
      admittedBucket old b g t (admitAttempt e b g)).lnk.buckets := (Prod.mk.inj ha).1
  obtain ⟨g', hg'⟩ := exists_groupAt_of_rosters ha (id := g.id) (gen := g.generation) hx
  refine ⟨g', (bucketAt_congr hbuckets _).trans ?_, hg', ?_⟩
  · exact bucketAt_onBucket_const (e := enrolled e g) ((bucketAt_congr (buckets_enrolled e g) _).trans hat) rfl
  · exact (congrArg List.length hbuckets).trans ((updFirst_length ..).trans (congrArg List.length (buckets_enrolled e g)))

/-! ### BUCKET_ADMIT -/

section Admit
variable {m : Mem} {e : Engine} {old : Bucket} {t : Task} (hrunning : running e = true) (hup : procUp e 2 = true)
  (hdue : minBy Bucket.order (e.lnk.buckets.filter fun b => b.dispatched && !b.admitted && b.state == .waiting) = some old)
  (htask : taskOf e old.task = some t)
include hrunning hup hdue htask

/-- An argument that is not aligned fails the task (R380). -/
theorem bucketAdmit_unaligned (harg : t.record.arg.toNat % 64 ≠ 0) : bucketAdmit m e = refuseBucket e old := by
  dsimp only [bucketAdmit]
  rw [if_neg (by simp [hrunning, hup]), hdue]
  dsimp only
  rw [htask]
  exact if_pos (.inl harg)

/-- A valid descriptor admits the bucket (R384). -/
theorem bucketAdmit_valid {b : Bucket} {g : Group} {tr : Tree} (harg : t.record.arg.toNat % 64 = 0) (hlt : t.record.arg.toNat < 2 ^ 52)
    (hclean : viewPoisoned m e t.record.arg.toNat 64 = false)
    (hb : b = parseBucket (viewBytes m e t.record.arg.toNat 64) old.task old.step)
    (hok : bucketOk (viewBytes m e t.record.arg.toNat 64) b = true) (hsign : (b.broadcast && b.sign) = false) (hlayout : layoutOk e b = true)
    (hgclean : viewPoisoned m e b.groupAddr 272 = false) (hg : g = parseGroup (viewBytes m e b.groupAddr 272))
    (hgok : groupOk (viewBytes m e b.groupAddr 272) g = true) (hports : portsUp e g = true) (htree : g.trees[b.tree]? = some tr) :
    bucketAdmit m e = admitBucket e old b g := by
  have hin : ¬g.trees.length ≤ b.tree := Nat.not_le.2 (List.getElem?_eq_some_iff.1 htree).1
  have haddr : addrOk t.record.arg.toNat = true := decide_eq_true hlt
  dsimp only [bucketAdmit]
  rw [if_neg (by simp [hrunning, hup]), hdue]
  dsimp only
  rw [htask]
  dsimp only
  rw [← hb, ← hg, if_neg (by simp [harg, haddr]), if_neg (by simp [hclean]), if_neg (by simp [hok, hsign, hlayout]),
    if_neg (by simp [hgclean]), if_neg (by simp [hgok, hports, hin])]

end Admit

end Sys2Proof.Machine
end

section
/-! Proofs: a device's own contribution, and sign mode's residuals (R382, R391). -/

namespace Sys2Proof.Machine

-- In turn, not side by side: each proof that waits for another holds a stack, which counts against the check's memory limit.
set_option Elab.async false

/-! ### Blocks of a list -/

/-- The blocks of a list that is long enough. -/
theorem blocks_eq_map {α : Type} {n : Nat} (hn : 0 < n) {fuel : Nat} {l : List α} (h : n * fuel ≤ l.length) :
    blocks n fuel l = (List.range fuel).map fun i => (l.drop (n * i)).take n := by
  induction fuel generalizing l with
  | zero => rfl
  | succ fuel ih =>
    rw [Nat.mul_succ] at h
    cases l with
    | nil => simp at h; omega
    | cons a l =>
      rw [List.range_succ_eq_map, List.map_cons, List.map_map, blocks, ih (by rw [List.length_drop]; omega)]
      refine congrArg₂ List.cons (by simp) (List.map_congr_left fun i _ => ?_)
      rw [List.drop_drop, Function.comp_apply, Nat.mul_succ, Nat.add_comm n]

/-! ### What an event and a line sent leave of the engine -/

/-- What the hub's events leave of the engine, besides the memory port: the links, the mailbox, the tasks and the regions. -/
def standing (e : Engine) := (e.lnk, e.mbx, e.sch.run.map Graph.tasks, e.sch.run.map Graph.regions)

theorem poisonBlind_standing : PoisonBlind standing where
  log _ _ := rfl
  raised _ := rfl
  marked e g first stop unit task h := by unfold standing; rw [h]; rfl

theorem poisonBlind_mp : PoisonBlind Engine.mp where
  log _ _ := rfl
  raised _ := rfl
  marked _ _ _ _ _ _ _ := rfl

theorem poisonBlind_laneMismatch : PoisonBlind fun e => errBit e errLaneMismatch where
  log _ _ := rfl
  raised e := (errBit_raiseErr e (by decide) _).trans (Bool.or_false _)
  marked _ _ _ _ _ _ _ := rfl

theorem standing_sendBytes (e : Engine) (w : Writer) (a : Nat) (bs : List Byte) (p : Nat → Bool) :
    standing (sendBytes e w a bs p) = standing e := by
  rw [sendBytes_frame]; rfl

theorem tasks_of_standing {e e' : Engine} (h : standing e' = standing e) : e'.sch.run.map Graph.tasks = e.sch.run.map Graph.tasks :=
  congrArg (·.2.2.1) h

theorem regions_of_standing {e e' : Engine} (h : standing e' = standing e) : e'.sch.run.map Graph.regions = e.sch.run.map Graph.regions :=
  congrArg (·.2.2.2) h

theorem writesLost_of_standing {e e' : Engine} (h : standing e' = standing e) (w : Writer) : writesLost e' w = writesLost e w :=
  writesLost_congr (tasks_of_standing h) w

/-- What is sent depends on the memory port, and on whether the writer's task is lost. -/
theorem mp_sendBytes_congr {e e' : Engine} (hmp : e'.mp = e.mp) {w : Writer} (hlost : writesLost e' w = writesLost e w) (a : Nat) (bs : List Byte)
    (p : Nat → Bool) : (sendBytes e' w a bs p).mp = (sendBytes e w a bs p).mp := by
  unfold sendBytes
  generalize dedup ((linesOf a bs.length).map (· % 2 ^ 46)) = ls
  induction ls generalizing e e' with
  | nil => exact hmp
  | cons l ls ih =>
    refine ih (e := sendLine e w l (linePart a bs l) (p l)) (e' := sendLine e' w l (linePart a bs l) (p l)) ?_ hlost
    rw [sendLine, sendLine, hmp, hlost]

/-! ### The entries of a bucket -/

theorem bucketLayout_congr {e e' : Engine} (h : e'.sch.run.map Graph.regions = e.sch.run.map Graph.regions) (tag : Nat) :
    bucketLayout e' tag = bucketLayout e tag := by
  unfold bucketLayout
  cases hrun : e.sch.run with
  | none =>
    rw [hrun, Option.map_none, Option.map_eq_none_iff] at h
    rw [h]
  | some g =>
    rw [hrun, Option.map_some, Option.map_eq_some_iff] at h
    obtain ⟨g', hrun', hregions⟩ := h
    rw [hrun']
    dsimp only
    rw [hregions]

section Views
variable {e e' : Engine} (m : Mem) (hmp : e'.mp = e.mp)
include hmp

theorem viewNat_congr (a n : Nat) : viewNat m e' a n = viewNat m e a n := viewNat_of_bytes m fun _ _ => viewByte_congr m hmp _

theorem regionOut_congr (r : Region) : regionOut m e' r = regionOut m e r := by
  unfold regionOut regionVals
  simp only [viewNat_congr m hmp, viewPoison_congr m hmp]

theorem ownEntries_congr (hregions : e'.sch.run.map Graph.regions = e.sch.run.map Graph.regions) (b : Bucket) :
    ownEntries m e' b = ownEntries m e b := by
  unfold ownEntries
  simp only [bucketLayout_congr hregions, regionOut_congr m hmp]

end Views

theorem le_length_ownEntries (m : Mem) (e : Engine) (b : Bucket) : b.entries ≤ (ownEntries m e b).length := by
  dsimp only [ownEntries]
  rw [List.length_append, List.length_replicate]
  omega

/-! ### Sign mode (R391) -/

/-- Where the error plane of the step before, and this step's, have a group of entries (R391). -/
def signSrc (b : Bucket) (i : Nat) : Nat := b.err + (b.step + 1) % 2 * b.entries * 4 + 512 * i
def signDst (b : Bucket) (i : Nat) : Nat := b.err + b.step % 2 * b.entries * 4 + 512 * i

/-- The residuals of a group after the step before (R391). -/
def residualsBefore (m : Mem) (e : Engine) (b : Bucket) (i : Nat) : List (Word × Bool) :=
  (List.range 128).map fun j => (w32 (viewNat m e (signSrc b i + 4 * j) 4), viewPoison m e (lineOf (signSrc b i + 4 * j)))

/-- A group's operand and its new residuals (R391). -/
def signedGroup (m : Mem) (e : Engine) (b : Bucket) (i : Nat) (bs : List (Word × Bool)) : Operand × List Word :=
  signGroup b.rank bs (residualsBefore m e b i)

/-- The engine once it has seen the poison of a group (R391, R420). -/
def signSeen (m : Mem) (e : Engine) (b : Bucket) (i : Nat) (bs : List (Word × Bool)) : Engine :=
  let seen := noteRead e ((residualsBefore m e b i).any Prod.snd)
  if (signedGroup m e b i bs).1.poison && !(bs ++ residualsBefore m e b i).any Prod.snd then poisonEvent seen 51 codeHalted else seen

/-- The engine once a group's new residuals have been written (R391). -/
def signWritten (m : Mem) (e : Engine) (b : Bucket) (i : Nat) (bs : List (Word × Bool)) : Engine :=
  sendBytes (signSeen m e b i bs) (.link b.task) (signDst b i) (wordBytes (signedGroup m e b i bs).2)
    fun l => (signedGroup m e b i bs).1.poison || decide (l ∈ badLines 4 (signDst b i) (signedGroup m e b i bs).2)

theorem fst_residualsBefore (m : Mem) (e : Engine) (b : Bucket) (i : Nat) : (residualsBefore m e b i).map Prod.fst =
    (List.range 128).map fun j => w32 (viewNat m e (signSrc b i + 4 * j) 4) := by simp [residualsBefore]

theorem signStep_eq (m : Mem) (b : Bucket) (ops : List Operand) (e : Engine) (i : Nat) (bs : List (Word × Bool)) :
    signStep m b (ops, e) i bs = (ops ++ [(signedGroup m e b i bs).1], signWritten m e b i bs) := rfl

theorem signSeen_keeps {β : Type} {π : Engine → β} (hπ : PoisonBlind π) (m : Mem) (e : Engine) (b : Bucket) (i : Nat) (bs : List (Word × Bool)) :
    π (signSeen m e b i bs) = π e := by
  dsimp only [signSeen]
  split
  · exact (hπ.poisonEvent ..).trans (hπ.noteRead ..)
  · exact hπ.noteRead ..

theorem standing_signWritten (m : Mem) (e : Engine) (b : Bucket) (i : Nat) (bs : List (Word × Bool)) :
    standing (signWritten m e b i bs) = standing e := (standing_sendBytes ..).trans (signSeen_keeps poisonBlind_standing ..)

theorem signedGroup_congr {e e' : Engine} (m : Mem) (hmp : e'.mp = e.mp) (b : Bucket) (i : Nat) (bs : List (Word × Bool)) :
    signedGroup m e' b i bs = signedGroup m e b i bs := by
  unfold signedGroup residualsBefore
  simp only [viewNat_congr m hmp, viewPoison_congr m hmp]

/-- The new residuals of a group depend on the values alone, not on the poison of their lines. -/
theorem residuals_congr {rank : Nat} {bs bs' es es' : List (Word × Bool)} (hbs : bs'.map Prod.fst = bs.map Prod.fst)
    (hes : es'.map Prod.fst = es.map Prod.fst) : (signGroup rank bs' es').2 = (signGroup rank bs es).2 := by
  have hvals (bs es : List (Word × Bool)) : List.zipWith (fun b e : Word × Bool => fAdd b.1 e.1) bs es =
      List.zipWith fAdd (bs.map Prod.fst) (es.map Prod.fst) := List.zipWith_map.symm
  dsimp only [signGroup]
  rw [hvals, hvals, hbs, hes]

theorem length_signedGroup (m : Mem) (e : Engine) (b : Bucket) (i : Nat) {bs : List (Word × Bool)} (h : bs.length = 128) :
    (signedGroup m e b i bs).2.length = 128 := by
  simp [signedGroup, signGroup, residualsBefore, h]

/-- The groups of a sign contribution from a place on (R391). -/
def signAll (m : Mem) (b : Bucket) (gs : List (List (Word × Bool))) (k : Nat) (acc : List Operand × Engine) : List Operand × Engine :=
  (gs.zipIdx k).foldl (fun acc g => signStep m b acc g.2 g.1) acc

theorem signAll_cons (m : Mem) (b : Bucket) (bs : List (Word × Bool)) (gs : List (List (Word × Bool))) (k : Nat) (ops : List Operand)
    (e : Engine) : signAll m b (bs :: gs) k (ops, e) = signAll m b gs (k + 1) (ops ++ [(signedGroup m e b k bs).1], signWritten m e b k bs) := rfl

theorem standing_signAll (m : Mem) (b : Bucket) (gs : List (List (Word × Bool))) (k : Nat) (ops : List Operand) (e : Engine) :
    standing (signAll m b gs k (ops, e)).2 = standing e := by
  induction gs generalizing k ops e with
  | nil => rfl
  | cons bs gs ih => rw [signAll_cons, ih, standing_signWritten]

theorem length_signAll (m : Mem) (b : Bucket) (gs : List (List (Word × Bool))) (k : Nat) (ops : List Operand) (e : Engine) :
    (signAll m b gs k (ops, e)).1.length = ops.length + gs.length := by
  induction gs generalizing k ops e with
  | nil => rfl
  | cons bs gs ih => rw [signAll_cons, ih, List.length_append, List.length_singleton, List.length_cons, Nat.add_assoc, Nat.add_comm 1]

/-- The operands of a sign contribution are a matter of the memory port and the tasks. -/
theorem operands_signAll_congr {e e' : Engine} (m : Mem) (hmp : e'.mp = e.mp) (b : Bucket)
    (hlost : writesLost e' (.link b.task) = writesLost e (.link b.task))
    (gs : List (List (Word × Bool))) (k : Nat) (ops : List Operand) : (signAll m b gs k (ops, e')).1 = (signAll m b gs k (ops, e)).1 := by
  induction gs generalizing k ops e e' with
  | nil => rfl
  | cons bs gs ih =>
    rw [signAll_cons, signAll_cons, signedGroup_congr m hmp]
    refine ih ?_ ?_ _ _
    · unfold signWritten
      rw [signedGroup_congr m hmp]
      refine mp_sendBytes_congr ?_ ?_ _ _ _
      · rw [signSeen_keeps poisonBlind_mp, signSeen_keeps poisonBlind_mp, hmp]
      · rw [writesLost_of_standing (signSeen_keeps poisonBlind_standing ..),
          writesLost_of_standing (signSeen_keeps poisonBlind_standing ..), hlost]
    · rw [writesLost_of_standing (standing_signWritten ..), writesLost_of_standing (standing_signWritten ..), hlost]

/-! ### The residuals in memory (R391) -/

theorem signDst_eq (b : Bucket) (i : Nat) : signDst b i = signDst b 0 + 512 * i := rfl

section Residuals
variable {b : Bucket} (m : Mem)

/-- The groups written leave what lies beside them. -/
theorem viewNat_signAll_outside (m' : Mem) {gs : List (List (Word × Bool))} {k : Nat} {ops : List Operand} {e : Engine} {x n : Nat}
    (hlost : writesLost e (.link b.task) = false) (hgs : ∀ g ∈ gs, g.length = 128) (hend : signDst b (k + gs.length) ≤ 2 ^ 52)
    (hx : x + n ≤ 2 ^ 52) (hout : x + n ≤ signDst b k ∨ signDst b (k + gs.length) ≤ x) :
    viewNat m' (signAll m b gs k (ops, e)).2 x n = viewNat m' e x n := by
  induction gs generalizing k ops e with
  | nil => rfl
  | cons bs gs ih =>
    have hlen := length_signedGroup m e b k (hgs bs (List.mem_cons_self ..))
    rw [List.length_cons] at hend hout
    rw [signDst_eq] at hend
    rw [signDst_eq, signDst_eq b (k + _)] at hout
    rw [signAll_cons, ih]
    · refine (viewNat_sendWords_outside m' ?_ _ ?_ hx ?_).trans (viewNat_congr m' (signSeen_keeps poisonBlind_mp ..) ..)
      · rw [writesLost_of_standing (signSeen_keeps poisonBlind_standing ..), hlost]
      · rw [hlen, signDst_eq]
        linarith
      · rw [hlen, signDst_eq]
        exact hout.imp_right fun h => by linarith
    · rw [writesLost_of_standing (standing_signWritten ..), hlost]
    · exact fun g hg => hgs g (List.mem_cons_of_mem _ hg)
    · rw [signDst_eq]; omega
    · rw [signDst_eq, signDst_eq b (k + 1 + _)]; omega

/-- Each group's new residuals are those of its entries and the residuals of the step before (R391). -/
theorem viewNat_signAll (m' : Mem) {gs : List (List (Word × Bool))} {k : Nat} {ops : List Operand} {e : Engine}
    (hlost : writesLost e (.link b.task) = false) (hgs : ∀ g ∈ gs, g.length = 128) (hend : signDst b (k + gs.length) ≤ 2 ^ 52)
    (hapart : ∀ i < k + gs.length, signSrc b i + 512 ≤ 2 ^ 52 ∧ (signSrc b i + 512 ≤ signDst b 0 ∨ signDst b (k + gs.length) ≤ signSrc b i))
    {i j : Nat} (hj : j < 128) {bs : List (Word × Bool)} (hbs : gs[i]? = some bs) :
    viewNat m' (signAll m b gs k (ops, e)).2 (signDst b (k + i) + 4 * j) 4 = (elemD (signedGroup m e b (k + i) bs).2 j 0).toNat := by
  induction gs generalizing k ops e i with
  | nil => cases hbs
  | cons g gs ih =>
    have hlen := length_signedGroup m e b k (hgs g (List.mem_cons_self ..))
    have hseen : writesLost (signSeen m e b k g) (.link b.task) = false := by
      rw [writesLost_of_standing (signSeen_keeps poisonBlind_standing ..), hlost]
    have hwritten : writesLost (signWritten m e b k g) (.link b.task) = false := by rw [writesLost_of_standing (standing_signWritten ..), hlost]
    rw [List.length_cons] at hend hapart
    rw [signAll_cons]
    cases i with
    | zero =>
      obtain rfl : g = bs := Option.some.inj hbs
      rw [viewNat_signAll_outside m m' hwritten fun g hg => hgs g (List.mem_cons_of_mem _ hg)]
      · refine viewNat_sendWords m' hseen _ ?_ (hlen.symm ▸ hj)
        rw [hlen, Nat.add_zero, signDst_eq]
        rw [signDst_eq] at hend
        linarith
      · rw [show k + 1 + gs.length = k + (gs.length + 1) by omega]; exact hend
      · rw [signDst_eq] at hend ⊢; omega
      · exact .inl (by rw [signDst_eq, signDst_eq b (k + 1)]; omega)
    | succ i =>
      have hi : i < gs.length := Nat.lt_of_succ_lt_succ (List.getElem?_eq_some_iff.1 hbs).1
      obtain ⟨hsrc, hbeside⟩ := hapart (k + 1 + i) (by omega)
      have hsame : (signedGroup m (signWritten m e b k g) b (k + 1 + i) bs).2 = (signedGroup m e b (k + 1 + i) bs).2 := by
        refine residuals_congr rfl ?_
        rw [fst_residualsBefore, fst_residualsBefore]
        refine List.map_congr_left fun c hc => congrArg w32 ?_
        have hc := List.mem_range.1 hc
        refine (viewNat_sendWords_outside m hseen _ ?_ ?_ ?_).trans (viewNat_congr m (signSeen_keeps poisonBlind_mp ..) ..)
        · rw [hlen, signDst_eq]; rw [signDst_eq] at hend; linarith
        · linarith
        · rw [hlen, signDst_eq]
          rw [signDst_eq b (k + _)] at hbeside
          exact hbeside.imp (fun h => by linarith) fun h => by linarith
      rw [show k + (i + 1) = k + 1 + i by omega, ih hwritten (fun g hg => hgs g (List.mem_cons_of_mem _ hg)) ?_ ?_ hbs, hsame]
      · rw [show k + 1 + gs.length = k + (gs.length + 1) by omega]; exact hend
      · rw [show k + 1 + gs.length = k + (gs.length + 1) by omega]; exact hapart

end Residuals

end Sys2Proof.Machine
end

section
/-! Proofs: BUCKET_ACTIVATE of a leaf's bucket (R382, R385, R386, R405, R407). -/

namespace Sys2Proof.Machine

-- In turn, not side by side: each proof that waits for another holds a stack, which counts against the check's memory limit.
set_option Elab.async false

theorem exec_bucketActivate (tag : BitVec 16) (r : ReadOut) (s : State) : exec (.bucketActivate tag r) s = .next { s with
    mem := absorb s.mem r.rd, eng := bucketActivate r tag.toNat (landed s.mem r.rd) (readEng s r.rd) } := rfl

/-! ### The own contribution (R382) -/

/-- A bucket's entries in groups of 128, where no read of its was poisoned (R381). -/
def entryGroups (m : Mem) (e : Engine) (b : Bucket) : List (List (Word × Bool)) :=
  blocks 128 (groupsIn b) ((ownEntries m e b).map fun x => (x.1, x.2 || false))

theorem entryGroups_eq (m : Mem) (e : Engine) (b : Bucket) : entryGroups m e b =
    (List.range (groupsIn b)).map fun i => (((ownEntries m e b).map fun x => (x.1, x.2 || false)).drop (128 * i)).take 128 := by
  refine blocks_eq_map (by decide) ?_
  rw [List.length_map]
  exact (Nat.mul_div_le ..).trans (le_length_ownEntries m e b)

theorem length_entryGroups (m : Mem) (e : Engine) (b : Bucket) : (entryGroups m e b).length = groupsIn b := by
  rw [entryGroups_eq, List.length_map, List.length_range]

theorem length_of_mem_entryGroups {m : Mem} {e : Engine} {b : Bucket} {g : List (Word × Bool)} (hg : g ∈ entryGroups m e b) : g.length = 128 := by
  rw [entryGroups_eq] at hg
  obtain ⟨i, hi, rfl⟩ := List.mem_map.1 hg
  have hi := List.mem_range.1 hi
  have hentries := (Nat.mul_div_le b.entries 128).trans (le_length_ownEntries m e b)
  have hstep : 128 * (i + 1) ≤ 128 * (b.entries / 128) := Nat.mul_le_mul_left _ hi
  rw [List.length_take, List.length_drop, List.length_map]
  omega

/-- The operand of a group of entries (R382). -/
def plainOperand (b : Bucket) (g : List (Word × Bool)) : Operand :=
  { rank := b.rank, vals := g.map fun x => f32ToBF16 x.1, poison := g.any Prod.snd }

theorem ownOperands_sign {b : Bucket} (h : b.sign = true) (m : Mem) (e : Engine) :
    ownOperands m e b false = signAll m b (entryGroups m e b) 0 ([], e) := if_pos h

theorem ownOperands_plain {b : Bucket} (h : b.sign = false) (m : Mem) (e : Engine) :
    ownOperands m e b false = ((entryGroups m e b).map (plainOperand b), e) := if_neg (by simp [h])

theorem length_ownOperands (m : Mem) (e : Engine) (b : Bucket) : (ownOperands m e b false).1.length = groupsIn b := by
  cases h : b.sign with
  | true => rw [ownOperands_sign h, length_signAll, length_entryGroups]; exact Nat.zero_add _
  | false => rw [ownOperands_plain h, List.length_map, length_entryGroups]

theorem standing_ownOperands (m : Mem) (e : Engine) (b : Bucket) : standing (ownOperands m e b false).2 = standing e := by
  cases h : b.sign with
  | true => rw [ownOperands_sign h, standing_signAll]
  | false => rw [ownOperands_plain h]

/-- A contribution is a matter of the memory port, the regions and the tasks. -/
theorem ownOperands_congr {e e' : Engine} (m : Mem) (hmp : e'.mp = e.mp) (htasks : e'.sch.run.map Graph.tasks = e.sch.run.map Graph.tasks)
    (hregions : e'.sch.run.map Graph.regions = e.sch.run.map Graph.regions) (b : Bucket) :
    (ownOperands m e' b false).1 = (ownOperands m e b false).1 := by
  have hgroups : entryGroups m e' b = entryGroups m e b := by rw [entryGroups, ownEntries_congr m hmp hregions]; rfl
  cases h : b.sign with
  | true => rw [ownOperands_sign h, ownOperands_sign h, hgroups]; exact operands_signAll_congr m hmp b (writesLost_congr htasks _) _ _ _
  | false => rw [ownOperands_plain h, ownOperands_plain h, hgroups]

/-- In sign mode the new residuals go to this step's error plane (R391). -/
theorem viewNat_ownOperands {b : Bucket} {e : Engine} (m m' : Mem) (hsign : b.sign = true) (hentries : b.entries = 128 * groupsIn b)
    (hend : b.err + 8 * b.entries ≤ 2 ^ 52) (hlost : writesLost e (.link b.task) = false) {i j : Nat} (hi : i < groupsIn b) (hj : j < 128) :
    viewNat m' (ownOperands m e b false).2 (signDst b i + 4 * j) 4 = (elemD (signGroup b.rank (((ownEntries m e b).drop (128 * i)).take 128)
      ((List.range 128).map fun k => (w32 (viewNat m e (signSrc b i + 4 * k) 4), false))).2 j 0).toNat := by
  have hplane := hentries
  have hdst : signDst b 0 = b.err + b.step % 2 * b.entries * 4 := rfl
  have hsrc (n : Nat) : signSrc b n = b.err + (b.step + 1) % 2 * b.entries * 4 + 512 * n := rfl
  have hcases : signDst b (groupsIn b) ≤ 2 ^ 52 ∧ ∀ n < groupsIn b,
      signSrc b n + 512 ≤ 2 ^ 52 ∧ (signSrc b n + 512 ≤ signDst b 0 ∨ signDst b (groupsIn b) ≤ signSrc b n) := by
    rw [signDst_eq, hdst]
    simp only [hsrc]
    rcases Nat.mod_two_eq_zero_or_one b.step with hstep | hstep
    · rw [hstep, show (b.step + 1) % 2 = 1 by omega]
      exact ⟨by linarith, fun n hn => ⟨by linarith, .inr (by linarith)⟩⟩
    · rw [hstep, show (b.step + 1) % 2 = 0 by omega]
      exact ⟨by linarith, fun n hn => ⟨by linarith, .inl (by linarith)⟩⟩
  have hgroup : (entryGroups m e b)[i]? = some ((((ownEntries m e b).map fun x => (x.1, x.2 || false)).drop (128 * i)).take 128) := by
    rw [entryGroups_eq, List.getElem?_map, List.getElem?_range hi]
    rfl
  have hview := viewNat_signAll (k := 0) (ops := []) m m' hlost (fun g hg => length_of_mem_entryGroups hg)
    (by rw [length_entryGroups, Nat.zero_add]; exact hcases.1) (by rw [length_entryGroups, Nat.zero_add]; exact hcases.2) hj hgroup
  rw [ownOperands_sign hsign]
  rw [Nat.zero_add] at hview
  rw [hview]
  refine congrArg (fun ws => (elemD ws j (0 : Word)).toNat) (residuals_congr ?_ ?_)
  · rw [List.map_take, List.map_drop, List.map_map, List.map_take, List.map_drop]
    rfl
  · rw [fst_residualsBefore, List.map_map]
    rfl

/-! ### The marks of a read-out's faults (R405, R407) -/

/-- Operands with the marks of the faults that their read-out met (R405, R407). -/
def markedOps (ops : List Operand) (r : ReadOut) : List Operand :=
  ops.zipIdx.map fun o => { o.1 with poison := o.1.poison || decide (o.2 ∈ r.lane ∨ o.2 ∈ r.crc) }

theorem length_markedOps (ops : List Operand) (r : ReadOut) : (markedOps ops r).length = ops.length := by simp [markedOps]

/-- The link adders' lanes that disagree leave their event (R407). -/
def laneSeenBy (e : Engine) (n : Nat) : Engine := if 0 < n then laneEvent (bump e .hubLaneMismatch n) else e

/-- The positions of a read-out at which the lanes disagree (R407). -/
def laneFaults (ops : List Operand) (r : ReadOut) : Nat := countIf (fun i => decide (i < ops.length)) (dedup r.lane)

theorem fst_faultyOps (e : Engine) (ops : List Operand) (r : ReadOut) : (faultyOps e ops r).1 = markedOps ops r := rfl

theorem faultyOps_keeps {β : Type} {π : Engine → β} (hπ : PoisonBlind π) (e : Engine) (ops : List Operand) (r : ReadOut) :
    π (faultyOps e ops r).2 = π (laneSeenBy e (laneFaults ops r)) := by
  dsimp only [faultyOps]
  split
  · exact hπ.poisonEvent ..
  · rfl

theorem standing_laneSeenBy (e : Engine) (n : Nat) : standing (laneSeenBy e n) = standing e := by
  unfold laneSeenBy
  split
  · unfold standing laneEvent
    rw [raiseErr_lnk, raiseErr_mbx, raiseErr_sch, bump_lnk, bump_mbx, bump_sch]
  · rfl

theorem mp_laneSeenBy (e : Engine) (n : Nat) : (laneSeenBy e n).mp = e.mp := by
  unfold laneSeenBy
  split
  · exact bump_mp ..
  · rfl

theorem standing_faultyOps (e : Engine) (ops : List Operand) (r : ReadOut) : standing (faultyOps e ops r).2 = standing e :=
  (faultyOps_keeps poisonBlind_standing ..).trans (standing_laneSeenBy ..)

theorem mp_faultyOps (e : Engine) (ops : List Operand) (r : ReadOut) : (faultyOps e ops r).2.mp = e.mp :=
  (faultyOps_keeps poisonBlind_mp ..).trans (mp_laneSeenBy ..)

/-- A lane fault of a position is recorded (R407). -/
theorem errBit_faultyOps (e : Engine) {ops : List Operand} {r : ReadOut} {i : Nat} (hi : i ∈ r.lane) (hlt : i < ops.length) :
    errBit (faultyOps e ops r).2 errLaneMismatch = true := by
  have hcount : 0 < laneFaults ops r := List.length_pos_of_mem (List.mem_filter.2 ⟨mem_dedup.2 hi, decide_eq_true hlt⟩)
  refine (faultyOps_keeps poisonBlind_laneMismatch ..).trans ?_
  rw [laneSeenBy, if_pos hcount, laneEvent, errBit_raiseErr _ (by decide)]
  simp

/-! ### The contribution formed at once (R386) -/

/-- What a position formed for the parent leaves of the engine: the memory port, the mailbox and the lanes' error bit. -/
def besidesLinks (e : Engine) := (e.mp, e.mbx, errBit e errLaneMismatch)

theorem poisonBlind_besidesLinks : PoisonBlind besidesLinks where
  log _ _ := rfl
  raised e := Prod.ext rfl (Prod.ext rfl (poisonBlind_laneMismatch.raised e))
  marked _ _ _ _ _ _ _ := rfl

theorem besidesLinks_sumEvent (e : Engine) (island : Nat) (ops : List Operand) (poison : Bool) :
    besidesLinks (sumEvent e island ops poison) = besidesLinks e := by
  unfold sumEvent
  split
  · exact poisonBlind_besidesLinks.poisonEvent ..
  · rfl

theorem inOrder_singleton (e : Engine) (o : Operand) : inOrder e [o] = [o] := by
  have hordered (c : Bool) : (if c = true then [o] else sortBy (fun (a b : Operand) => decide (a.rank < b.rank)) [o]) = [o] := by
    split <;> rfl
  exact hordered _

/-- An element that ranks under none goes to the end. -/
theorem insertBy_of_last {α : Type} {lt : α → α → Bool} {a : α} {l : List α} (h : ∀ b ∈ l, lt a b = false) : insertBy lt a l = l ++ [a] := by
  induction l with
  | nil => rfl
  | cons b l ih =>
    unfold insertBy
    rw [if_neg (by simp [h b (List.mem_cons_self ..)]), ih fun c hc => h c (List.mem_cons_of_mem _ hc)]
    rfl

/-- The flits of a contribution's operands from a position on (R386). -/
def leafFlits (ops : List Operand) (k : Nat) : List UpFlit := (ops.zipIdx k).map fun o => sumFlit o.2 [o.1]

theorem leafFlits_cons (o : Operand) (ops : List Operand) (k : Nat) : leafFlits (o :: ops) k = sumFlit k [o] :: leafFlits ops (k + 1) := rfl

/-- A bucket with flits to send up. -/
def withUps (b : Bucket) (us : List UpFlit) : Bucket := { b with up := us }

/-- One position of a contribution formed. -/
def formOwn (order : Nat) (e : Engine) (o : Operand × Nat) : Engine :=
  match bucketAt e order with
  | some b => formPosition e b 51 o.2 [o.1]
  | none => e

theorem formOwn_spec {e : Engine} {b : Bucket} {u : PortId} (hbuckets : e.lnk.buckets = [b]) (hparent : b.parent = some u) (o : Operand) {k : Nat}
    (hnext : b.upNext ≤ k) (hup : ∀ x ∈ b.up, x.offset < k) : (formOwn b.order e (o, k)).lnk =
      { e.lnk with buckets := [withUps b (b.up ++ [sumFlit k [o]])] } ∧ besidesLinks (formOwn b.order e (o, k)) = besidesLinks e := by
  have hat : bucketAt e b.order = some b := by simp [bucketAt, hbuckets]
  have hlast : insertBy (fun (x y : UpFlit) => decide (x.offset < y.offset)) (sumFlit k [o]) b.up = b.up ++ [sumFlit k [o]] :=
    insertBy_of_last fun x hx => decide_eq_false (Nat.not_lt.2 (Nat.le_of_lt (hup x hx)))
  unfold formOwn
  rw [hat]
  dsimp only
  rw [formPosition_of_parent hparent hnext, inOrder_singleton]
  refine ⟨?_, besidesLinks_sumEvent ..⟩
  dsimp only [onBucket]
  rw [lnk_sumEvent, hbuckets]
  simp [updFirst, withUp, withUps, hlast]

/-- A contribution's positions formed in turn (R386). -/
theorem foldl_formOwn {ops : List Operand} {e : Engine} {b : Bucket} {u : PortId} {k : Nat} (hbuckets : e.lnk.buckets = [b])
    (hparent : b.parent = some u) (hnext : b.upNext ≤ k) (hup : ∀ x ∈ b.up, x.offset < k) :
    ((ops.zipIdx k).foldl (formOwn b.order) e).lnk = { e.lnk with buckets := [withUps b (b.up ++ leafFlits ops k)] } ∧
      besidesLinks ((ops.zipIdx k).foldl (formOwn b.order) e) = besidesLinks e := by
  induction ops generalizing e b k with
  | nil =>
    refine ⟨?_, rfl⟩
    rw [leafFlits, List.zipIdx_nil, List.map_nil, List.append_nil, List.foldl_nil]
    exact hbuckets ▸ rfl
  | cons o ops ih =>
    obtain ⟨hlnk, hrest⟩ := formOwn_spec hbuckets hparent o hnext hup
    obtain ⟨hlnk', hrest'⟩ := ih (b := withUps b (b.up ++ [sumFlit k [o]])) (k := k + 1) (congrArg Links.buckets hlnk) hparent
      (Nat.le_succ_of_le hnext) fun x hx => by
        rcases List.mem_append.1 hx with hx | hx
        · exact Nat.lt_succ_of_lt (hup x hx)
        · rw [List.mem_singleton.1 hx]; exact Nat.lt_succ_self k
    rw [hlnk] at hlnk'
    refine ⟨hlnk'.trans ?_, hrest'.trans hrest⟩
    rw [leafFlits_cons]
    simp [withUps]

/-- A leaf's contribution formed: full flits, or its signs where the parent's link takes them (R386, R393). -/
theorem formLeaf_spec {e : Engine} {b : Bucket} {u : PortId} (hbuckets : e.lnk.buckets = [b]) (hparent : b.parent = some u)
    (hnext : b.upNext = 0) (hup : b.up = []) (ops : List Operand) : ∃ us, (formLeaf e b ops).lnk = { e.lnk with buckets := [withUps b us] } ∧
      besidesLinks (formLeaf e b ops) = besidesLinks e ∧ (b.sign = false → us = leafFlits ops 0) := by
  unfold formLeaf
  split
  next hsign =>
    refine ⟨leafUp e b b.upNext, ?_, rfl, fun h => ?_⟩
    · dsimp only [onBucket]
      rw [hbuckets]
      simp [updFirst, withUps]
    · simp [sendsSigns, h] at hsign
  next =>
    obtain ⟨hlnk, hrest⟩ := foldl_formOwn (ops := ops) hbuckets hparent (Nat.le_of_eq hnext) (by simp [hup])
    rw [hup] at hlnk
    exact ⟨leafFlits ops 0, hlnk, hrest, fun _ => rfl⟩

theorem offset_leafFlits (ops : List Operand) : (leafFlits ops 0).map UpFlit.offset = List.range ops.length := by
  rw [leafFlits, List.map_map]
  exact (List.zipIdx_map_snd 0 ops).trans List.range_eq_range'.symm

/-- A flit of a position that a fault has met is marked (R405, R407). -/
theorem poison_leafFlits {ops : List Operand} {r : ReadOut} {x : UpFlit} (hx : x ∈ leafFlits (markedOps ops r) 0)
    (hfault : x.offset ∈ r.lane ∨ x.offset ∈ r.crc) : x.poison = true := by
  obtain ⟨⟨o, i⟩, ho, rfl⟩ := List.mem_map.1 hx
  have hmark := List.mem_zipIdx_iff_getElem?.1 ho
  rw [markedOps, List.getElem?_map, List.getElem?_zipIdx, Option.map_map] at hmark
  obtain ⟨a, -, ha⟩ := Option.map_eq_some_iff.1 hmark
  have hfault' : 0 + i ∈ r.lane ∨ 0 + i ∈ r.crc := (Nat.zero_add i).symm ▸ hfault
  refine poison_sumOps (List.mem_singleton_self o) ((congrArg Operand.poison ha).symm.trans ?_)
  exact Bool.or_eq_true_iff.2 (.inr (decide_eq_true hfault'))

/-! ### BUCKET_ACTIVATE -/

/-- A bucket that is ACTIVE, and one whose contribution has been read out (R385, R386). -/
def activeBucket (b : Bucket) : Bucket := { b with state := .active }
def ownedBucket (b : Bucket) (ops : List Operand) : Bucket := { b with own := ops, reading := true, deadlineOn := b.parent.isNone }

/-- The engine that a contribution is formed on, once the bucket holds it. -/
def owned (e : Engine) (b : Bucket) (ops : List Operand) : Engine :=
  holdRegions (onBucket e b.order fun _ => ownedBucket b ops) (ownedBucket b ops)

theorem besidesLinks_holdRegions (e : Engine) (b : Bucket) : besidesLinks (holdRegions e b) = besidesLinks e := by
  refine foldl_keeps besidesLinks (fun x y => ?_) _ e
  split <;> rfl

theorem lnk_holdRegions (e : Engine) (b : Bucket) : (holdRegions e b).lnk = e.lnk := by
  refine foldl_keeps (fun x : Engine => x.lnk) (fun x y => ?_) _ e
  split <;> rfl

/-- The engine, and a leaf's contribution, once its regions have been read (R386). -/
def ownRead (m : Mem) (e : Engine) (b : Bucket) : List Operand × Engine := ownOperands m (noteRead e (spilledMarked m e b)) b false

theorem contribute_of_leaf {m : Mem} {e : Engine} {b : Bucket} {t : Task} (htask : taskOf e b.task = some t) (hclean : t.poisonIn = false)
    (hleaf : b.children = []) (r : ReadOut) : contribute m e b r = formLeaf (owned (faultyOps (ownRead m e b).2 (ownRead m e b).1 r).2 b
      (markedOps (ownRead m e b).1 r)) (ownedBucket b (markedOps (ownRead m e b).1 r)) (markedOps (ownRead m e b).1 r) := by
  dsimp only [contribute]
  rw [htask]
  dsimp only
  rw [hclean, if_pos (by simp [hleaf])]
  rfl

theorem updAt_of_same {α : Type} {f : α → α} {l : List α} {i : Nat} (h : ∀ a, l[i]? = some a → f a = a) : updAt l i f = l := by
  refine List.ext_getElem? fun j => ?_
  rw [updAt_getElem?]
  split
  next hj =>
    subst hj
    cases ha : l[i]? with
    | none => rfl
    | some a => exact congrArg some (h a ha)
  next => rfl

theorem onPort_of_same {e : Engine} {p : PortId} {f : Port → Port} (h : f (portOf e p) = portOf e p) : onPort e p f = e := by
  have hsame : updAt e.lnk.ports p.val f = e.lnk.ports := updAt_of_same fun a ha => by
    have hport : portOf e p = a := by unfold portOf; rw [ha]; rfl
    exact hport ▸ h
  rw [onPort, hsame]

/-- Nothing waits in any receive buffer (R387). -/
theorem replayWaiting_of_nil {e : Engine} (h : ∀ q, (portOf e q).waitRx = []) (b : Bucket) : replayWaiting e b = e := by
  refine foldl_of_idle fun p _ => ?_
  dsimp only
  rw [h p, List.filter_nil, List.foldl_nil]
  refine onPort_of_same ?_
  rw [h p, List.filter_nil, ← h p]

/-- What a leaf's read-out leaves of the links (R386). -/
theorem lnk_owned {m : Mem} {e : Engine} {b : Bucket} (hbuckets : e.lnk.buckets = [b]) (r : ReadOut) :
    (owned (faultyOps (ownRead m e b).2 (ownRead m e b).1 r).2 b (markedOps (ownRead m e b).1 r)).lnk =
      { e.lnk with buckets := [ownedBucket b (markedOps (ownRead m e b).1 r)] } := by
  have hstand : standing (faultyOps (ownRead m e b).2 (ownRead m e b).1 r).2 = standing e :=
    (standing_faultyOps ..).trans ((standing_ownOperands ..).trans (poisonBlind_standing.noteRead ..))
  rw [owned, lnk_holdRegions]
  dsimp only [onBucket]
  rw [show (faultyOps (ownRead m e b).2 (ownRead m e b).1 r).2.lnk = e.lnk from congrArg Prod.fst hstand, hbuckets]
  simp [updFirst]

/-- A leaf's bucket that is activated holds its contribution, and sends it up (R382, R386). -/
theorem contribute_spec {m : Mem} {e : Engine} {b : Bucket} {t : Task} {u : PortId} (htask : taskOf e b.task = some t)
    (hclean : t.poisonIn = false) (hleaf : b.children = []) (hbuckets : e.lnk.buckets = [b]) (hparent : b.parent = some u) (hnext : b.upNext = 0)
    (hup : b.up = []) (r : ReadOut) : ∃ us, (contribute m e b r).lnk =
        { e.lnk with buckets := [withUps (ownedBucket b (markedOps (ownRead m e b).1 r)) us] } ∧
      (b.sign = false → us = leafFlits (markedOps (ownRead m e b).1 r) 0) ∧ (contribute m e b r).mp = (ownRead m e b).2.mp ∧
      (contribute m e b r).mbx = e.mbx ∧ ∀ i ∈ r.lane, i < groupsIn b → errBit (contribute m e b r) errLaneMismatch = true := by
  have hlnk := lnk_owned (m := m) hbuckets r
  obtain ⟨us, hform, hrest, hflits⟩ := formLeaf_spec (b := ownedBucket b (markedOps (ownRead m e b).1 r)) (congrArg Links.buckets hlnk) hparent
    hnext hup (markedOps (ownRead m e b).1 r)
  rw [contribute_of_leaf htask hclean hleaf]
  have hbeside := hrest.trans ((besidesLinks_holdRegions ..).trans
    (show besidesLinks (onBucket (faultyOps (ownRead m e b).2 (ownRead m e b).1 r).2
    b.order fun _ => ownedBucket b (markedOps (ownRead m e b).1 r)) = besidesLinks (faultyOps (ownRead m e b).2 (ownRead m e b).1 r).2 from rfl))
  have hstand : standing (faultyOps (ownRead m e b).2 (ownRead m e b).1 r).2 = standing e :=
    (standing_faultyOps ..).trans ((standing_ownOperands ..).trans (poisonBlind_standing.noteRead ..))
  refine ⟨us, hform.trans (by rw [hlnk]), hflits, ?_, ?_, fun i hi hlt => ?_⟩
  · exact (congrArg (·.1) hbeside).trans (mp_faultyOps ..)
  · exact (congrArg (·.2.1) hbeside).trans (congrArg (·.2.1) hstand)
  · exact (congrArg (·.2.2) hbeside).trans (errBit_faultyOps _ hi (by rw [ownRead, length_ownOperands]; exact hlt))

/-- The only bucket of the links that may become ACTIVE does (R385). -/
theorem bucketActivate_of_leaf {m : Mem} {e : Engine} {b : Bucket} {g : Graph} {tag : Nat} (hrunning : running e = true)
    (hrun : e.sch.run = some g) (hgoing : g.stop = none) (hbuckets : e.lnk.buckets = [b]) (htag : b.tag = tag)
    (hcan : canActivate e b = true) (hbroadcast : b.broadcast = false) (r : ReadOut) : bucketActivate r tag m e =
      moveMulticasts (replayWaiting (contribute m (onBucket e b.order fun _ => activeBucket b) (activeBucket b) r) (activeBucket b)) := by
  dsimp only [bucketActivate]
  rw [hrun, hbuckets, if_neg (by simp [hrunning, hgoing]), List.find?_cons_of_pos (by simp [htag, hcan])]
  dsimp only
  rw [if_neg (by simp [hbroadcast])]
  rfl

end Sys2Proof.Machine
end

section
/-! Proofs: the admission and the activation of buckets, settled (R380 to R391). -/

namespace Sys2Proof.Machine

-- In turn, not side by side: each proof that waits for another holds a stack, which counts against the check's memory limit.
set_option Elab.async false

section Activated
variable {s : State} {r : ReadOut} {m : Mem} {b : Bucket} {g : Graph} {t : Task} {p : PortId} {tag : BitVec 16}
  (hm : m = landed s.mem r.rd) (hrunning : running s.eng = true) (hrun : s.eng.sch.run = some g) (hgoing : g.stop = none)
  (hbuckets : s.eng.lnk.buckets = [b]) (htag : b.tag = tag.toNat) (hcan : canActivate s.eng b = true) (hbroadcast : b.broadcast = false)
  (hparent : b.parent = some p) (hleaf : b.children = []) (hup : b.up = []) (hnext : b.upNext = 0) (hout : b.out = [])
  (htask : taskOf s.eng b.task = some t) (hclean : t.poisonIn = false) (hwait : ∀ q, (portOf s.eng q).waitRx = [])

/-- The engine as BUCKET_ACTIVATE finds it, its bucket ACTIVE (R385). -/
def activated (s : State) (rd : List MemLine) (b : Bucket) : Engine := onBucket (readEng s rd) b.order fun _ => activeBucket b

theorem activated_keeps {α : Type} (π : Engine → α) (s : State) (rd : List MemLine) (b : Bucket)
    (hπ : ∀ (e : Engine) (c : AMap Ctr Nat) (l : Links), π { e with ctr := c, lnk := l } = π e := by intros; rfl) :
    π (activated s rd b) = π s.eng := by
  obtain ⟨ctr, hctr⟩ := exists_readEng s rd
  unfold activated onBucket
  rw [hctr]
  exact hπ s.eng ctr _

/-- What the read-out of a bucket in a state gives (R382). -/
theorem fst_ownRead (m : Mem) (s : State) (rd : List MemLine) (b : Bucket) :
    (ownRead m (activated s rd b) (activeBucket b)).1 = (ownOperands m s.eng b false).1 := by
  refine ownOperands_congr (b := activeBucket b) m ?_ ?_ ?_
  · exact (poisonBlind_mp.noteRead ..).trans (activated_keeps Engine.mp s rd b)
  · exact (tasks_of_standing (poisonBlind_standing.noteRead ..)).trans (activated_keeps (·.sch.run.map Graph.tasks) s rd b)
  · exact (regions_of_standing (poisonBlind_standing.noteRead ..)).trans (activated_keeps (·.sch.run.map Graph.regions) s rd b)

/-- In sign mode the residuals that a read-out leaves in memory are those of the state's entries and planes (R391). -/
theorem viewNat_ownRead (m m' : Mem) (s : State) (rd : List MemLine) {b : Bucket} (hsign : b.sign = true)
    (hentries : b.entries = 128 * groupsIn b) (hend : b.err + 8 * b.entries ≤ 2 ^ 52) (hlost : writesLost s.eng (.link b.task) = false)
    {i j : Nat} (hi : i < groupsIn b) (hj : j < 128) :
    viewNat m' (ownRead m (activated s rd b) (activeBucket b)).2 (signDst b i + 4 * j) 4 = (elemD (signGroup b.rank
      (((ownEntries m s.eng b).drop (128 * i)).take 128)
      ((List.range 128).map fun k => (w32 (viewNat m s.eng (signSrc b i + 4 * k) 4), false))).2 j 0).toNat := by
  set e := noteRead (activated s rd b) (spilledMarked m (activated s rd b) (activeBucket b))
  have hmp : e.mp = s.eng.mp := (poisonBlind_mp.noteRead ..).trans (activated_keeps Engine.mp s rd b)
  have hregions : e.sch.run.map Graph.regions = s.eng.sch.run.map Graph.regions :=
    (regions_of_standing (poisonBlind_standing.noteRead ..)).trans (activated_keeps (·.sch.run.map Graph.regions) s rd b)
  have htasks : e.sch.run.map Graph.tasks = s.eng.sch.run.map Graph.tasks :=
    (tasks_of_standing (poisonBlind_standing.noteRead ..)).trans (activated_keeps (·.sch.run.map Graph.tasks) s rd b)
  have hview := viewNat_ownOperands (b := activeBucket b) (e := e) m m' hsign hentries hend ((writesLost_congr htasks _).trans hlost) hi hj
  rw [ownEntries_congr m hmp hregions] at hview
  simp only [viewNat_congr m hmp] at hview
  exact hview

include hm hrunning hrun hgoing hbuckets htag hcan hbroadcast hparent hleaf hup hnext hout htask hclean hwait

/-- A leaf's bucket becomes ACTIVE and reads out its regions (R382, R385, R386, R391, R405, R407). -/
theorem exec_bucketActivate_leaf : ∃ u b', exec (.bucketActivate tag r) s = .next u ∧ u.eng.lnk.buckets = [b'] ∧ b'.state = .active ∧
    b'.reading = true ∧ b'.own = markedOps (ownOperands m s.eng b false).1 r ∧
    (b.sign = false → b'.up.map UpFlit.offset = List.range (groupsIn b) ∧ (∀ x ∈ b'.up, x.sign = false) ∧
      (∀ x ∈ b'.up, x.offset ∈ r.lane ∨ x.offset ∈ r.crc → x.poison = true)) ∧
    (b.sign = true → b.entries = 128 * groupsIn b → b.err + 8 * b.entries ≤ 2 ^ 52 → writesLost s.eng (.link b.task) = false →
      ∀ i j, i < groupsIn b → j < 128 → viewNat u.mem u.eng (signDst b i + 4 * j) 4 = (elemD (signGroup b.rank
        (((ownEntries m s.eng b).drop (128 * i)).take 128)
        ((List.range 128).map fun k => (w32 (viewNat m s.eng (signSrc b i + 4 * k) 4), false))).2 j 0).toNat) ∧
    (∀ i ∈ r.lane, i < groupsIn b → errBit u.eng errLaneMismatch = true) ∧ b'.task = b.task ∧ b'.entries = b.entries ∧
    b'.parent = b.parent ∧ u.eng.mbx = s.eng.mbx ∧ u.mem = absorb s.mem r.rd ∧ u.posted = s.posted := by
  obtain ⟨ctr, hctr⟩ := exists_readEng s r.rd
  have hactive : (activated s r.rd b).lnk = { s.eng.lnk with buckets := [activeBucket b] } := by
    unfold activated onBucket
    rw [hctr]
    simp [hbuckets, updFirst]
  obtain ⟨us, hlnk, hflits, hmp, hmbx, hlane⟩ := contribute_spec (m := m) (b := activeBucket b)
    ((activated_keeps (taskOf · b.task) s r.rd b).trans htask) hclean hleaf (congrArg Links.buckets hactive) hparent hnext hup r
  have hops := fst_ownRead m s r.rd b
  rw [hops] at hlnk hflits
  have hports : ∀ q, (portOf (contribute m (activated s r.rd b) (activeBucket b) r) q).waitRx = [] := fun q => by
    rw [portOf_congr (e := s.eng) (by rw [hlnk, hactive]) q]
    exact hwait q
  have heng : bucketActivate r tag.toNat m (readEng s r.rd) = contribute m (activated s r.rd b) (activeBucket b) r := by
    have hleafStep := bucketActivate_of_leaf (m := m) (e := { s.eng with ctr := ctr }) hrunning hrun hgoing hbuckets htag hcan hbroadcast r
    rw [← hctr] at hleafStep
    refine hleafStep.trans ?_
    show moveMulticasts (replayWaiting (contribute m (activated s r.rd b) (activeBucket b) r) (activeBucket b)) = _
    rw [replayWaiting_of_nil hports]
    refine moveMulticasts_of_idle fun x hx => ?_
    rw [hlnk] at hx
    obtain rfl := List.mem_singleton.1 hx
    exact ⟨hout, hbroadcast⟩
  have hexec := exec_bucketActivate tag r s
  rw [← hm, heng] at hexec
  refine ⟨_, withUps (ownedBucket (activeBucket b) (markedOps (ownOperands m s.eng b false).1 r)) us, hexec,
    congrArg Links.buckets hlnk, rfl, rfl, rfl, fun hsign => ?_,
    fun hsign hentries hend hlost i j hi hj => ?_, hlane, rfl, rfl, rfl, hmbx.trans (activated_keeps Engine.mbx s r.rd b), rfl, rfl⟩
  · obtain rfl := hflits hsign
    refine ⟨(offset_leafFlits _).trans (by rw [length_markedOps, length_ownOperands]), fun x hx => ?_, fun x hx => poison_leafFlits hx⟩
    obtain ⟨o, -, rfl⟩ := List.mem_map.1 hx
    rfl
  · exact (viewNat_congr _ hmp ..).trans (viewNat_ownRead _ _ s r.rd hsign hentries hend hlost hi hj)

end Activated

theorem state_parseBucket (bs : List Byte) (task step : Nat) : (parseBucket bs task step).state = .waiting := rfl
theorem task_parseBucket (bs : List Byte) (task step : Nat) : (parseBucket bs task step).task = task := rfl

section Admitted
variable {s : State} {rd : List MemLine} {m : Mem} {old : Bucket} {t : Task} (hm : m = landed s.mem rd) (hrunning : running s.eng = true)
  (hup : procUp s.eng 2 = true)
  (hdue : minBy Bucket.order (s.eng.lnk.buckets.filter fun b => b.dispatched && !b.admitted && b.state == .waiting) = some old)
  (htask : taskOf s.eng old.task = some t)
include hm hrunning hup hdue htask

/-- An argument address that is not aligned fails the task, and the bucket leaves the links (R380). -/
theorem exec_bucketAdmit_unaligned (harg : t.record.arg.toNat % 64 ≠ 0) : ∃ u t', exec (.bucketAdmit rd) s = .next u ∧
    u.eng.lnk.buckets = s.eng.lnk.buckets.filter (fun x => x.order ≠ old.order) ∧ taskOf u.eng old.task = some t' ∧
    t'.life = .ended .link 3 2 ∧ u.eng.lnk.ports = s.eng.lnk.ports ∧ u.mem = absorb s.mem rd ∧ u.posted = s.posted := by
  obtain ⟨ctr, hctr⟩ := exists_readEng s rd
  have heng := bucketAdmit_unaligned (m := m) (e := { s.eng with ctr := ctr }) hrunning hup hdue htask harg
  obtain ⟨hlnk, hended⟩ := refuseBucket_spec (e := { s.eng with ctr := ctr }) htask
  have hexec := exec_bucketAdmit rd s
  rw [hctr, ← hm, heng] at hexec
  refine ⟨_, _, hexec, (congrArg Links.buckets hlnk).trans ?_, hended, rfl,
    (congrArg Links.ports hlnk).trans rfl, rfl, rfl⟩
  exact List.filter_congr fun x _ => by by_cases h : x.order = old.order <;> simp [h]

/-- A valid bucket takes its tree entry and its group (R384). -/
theorem exec_bucketAdmit_valid {b : Bucket} {g : Group} {tr : Tree} (harg : t.record.arg.toNat % 64 = 0) (hlt : t.record.arg.toNat < 2 ^ 52)
    (hclean : viewPoisoned m s.eng t.record.arg.toNat 64 = false)
    (hb : b = parseBucket (viewBytes m s.eng t.record.arg.toNat 64) old.task old.step)
    (hok : bucketOk (viewBytes m s.eng t.record.arg.toNat 64) b = true) (hsign : (b.broadcast && b.sign) = false)
    (hlayout : layoutOk s.eng b = true) (hgclean : viewPoisoned m s.eng b.groupAddr 272 = false)
    (hg : g = parseGroup (viewBytes m s.eng b.groupAddr 272)) (hgok : groupOk (viewBytes m s.eng b.groupAddr 272) g = true)
    (hports : portsUp s.eng g = true) (htree : g.trees[b.tree]? = some tr) (hat : bucketAt s.eng old.order = some old) :
    ∃ u b' g', exec (.bucketAdmit rd) s = .next u ∧ bucketAt u.eng old.order = some b' ∧ b'.admitted = true ∧
      b'.known = true ∧ b'.state = .waiting ∧ b'.task = old.task ∧ b'.tag = b.tag ∧ b'.entries = b.entries ∧
      b'.group = g.id ∧ b'.generation = g.generation ∧ b'.rank = tr.rank ∧ b'.parent = tr.parent ∧
      b'.children = tr.children ∧ groupAt u.eng g.id g.generation = some g' ∧
      u.eng.lnk.buckets.length = s.eng.lnk.buckets.length ∧ u.mem = absorb s.mem rd ∧ u.posted = s.posted := by
  obtain ⟨ctr, hctr⟩ := exists_readEng s rd
  have hbytes : viewBytes m { s.eng with ctr := ctr } b.groupAddr 272 = viewBytes m s.eng b.groupAddr 272 := viewBytes_congr m (by rfl) ..
  have heng := bucketAdmit_valid (m := m) (e := { s.eng with ctr := ctr }) hrunning hup hdue htask harg hlt hclean hb hok hsign hlayout hgclean
    (hbytes.symm ▸ hg) (hbytes.symm ▸ hgok) hports htree
  obtain ⟨g', hfound, hgroup, hlen⟩ := admitBucket_spec (e := { s.eng with ctr := ctr }) hat b htree
  have hstate : b.state = .waiting := (congrArg Bucket.state hb).trans (state_parseBucket ..)
  have htasks : b.task = old.task := (congrArg Bucket.task hb).trans (task_parseBucket ..)
  have hexec := exec_bucketAdmit rd s
  rw [hctr, ← hm, heng] at hexec
  generalize admitBucket _ old b g = e at hexec hfound hgroup hlen
  exact ⟨_, _, g', hexec, hfound, rfl, rfl, hstate, htasks, rfl, rfl, rfl, rfl, rfl, rfl, rfl, hgroup, hlen,
    rfl, rfl⟩

end Admitted

/-- Settles O43: the oldest dispatched bucket refused or admitted, and a leaf's bucket activated with its contribution formed. -/
theorem bucketsAdmittedAndActivated : Obligations.BucketsAdmittedAndActivated := by
  refine ⟨fun s rd m old b t g tr hm hrunning hup hdue htask => ⟨?_, ?_⟩, ?_⟩
  · exact fun harg => exec_bucketAdmit_unaligned hm hrunning hup hdue htask harg
  · exact fun harg hlt hclean hb hok hsign hlayout hgclean hg hgok hports htree hat =>
      exec_bucketAdmit_valid hm hrunning hup hdue htask harg hlt hclean hb hok hsign hlayout hgclean hg hgok hports htree hat
  · exact fun s tag r m b g t p hm hrunning hrun hgoing hbuckets htag hcan hbroadcast hparent hleaf hup hnext hout htask hclean _ hwait =>
      exec_bucketActivate_leaf hm hrunning hrun hgoing hbuckets htag hcan hbroadcast hparent hleaf hup hnext hout htask hclean hwait

end Sys2Proof.Machine
end
